-- ==== Sys2Proof/Word.lean ====
section
/-!
DEFINITION. The word types of the AL-3640 model and their plainest arithmetic: bytes, texts, the 32-bit and 64-bit
values the spec treats as bits, and the little-endian byte layouts of spec/00_scope.md (Conventions) and R202.
-/

namespace Sys2Proof

/-- One byte of a take file, an object or a station message. -/
abbrev Byte := BitVec 8

/-- A text of the spec: its characters as their ASCII codes (R27, R202). -/
abbrev Text := List Byte

/-- A 32-bit value the spec treats as bits: a CRC register, a frame number, a format number, an enclosure handle. -/
abbrev Word32 := BitVec 32

/-- A 64-bit value the spec treats as bits: a card serial, a volume serial, a digest. -/
abbrev Word64 := BitVec 64

/-- `n` bytes of `v`, least significant byte first (spec/00_scope.md: multi-byte values are little-endian). -/
def leBytes : Nat → Nat → List Byte
  | 0, _ => []
  | n + 1, v => BitVec.ofNat 8 v :: leBytes n (v / 256)

/-- The value of bytes written least significant byte first. -/
def leValue : List Byte → Nat
  | [] => 0
  | b :: bs => b.toNat + 256 * leValue bs

/-- A text constant of the spec as its ASCII bytes. -/
def ascii (t : String) : Text := t.toList.map (fun c => BitVec.ofNat 8 c.toNat)

/-- `lo` when `x` is below it, `hi` when `x` is above it, else `x` (spec/00_scope.md: "is clamped"). -/
def clampNat (lo hi x : Nat) : Nat := max lo (min hi x)

/-- The same for integers. -/
def clampInt (lo hi x : Int) : Int := max lo (min hi x)

/-- ceil(a / b), for b above 0. -/
def ceilDiv (a b : Nat) : Nat := (a + b - 1) / b

end Sys2Proof
end

