-- ==== Sys2Proof/Config.lean ====
section
/-!
DEFINITION. What the AL-3640 fixes: the sizes of its collections, the transfer block, the time-outs, the monitor raster
and the rate-code tables. The spec leaves no value of these open, so no constant here is opaque.
-/

namespace Sys2Proof.Config

/-- A transfer block is 1 MiB (spec/00_scope.md, Numbers and sizes; R86). -/
def transferBlock : Nat := 1048576

/-- Copy records one clip can hold (R7). -/
def maxCopyRecords : Nat := 6
/-- Descriptors the copy queue can hold (R79). -/
def maxDescriptors : Nat := 64
/-- Render jobs the render queue can hold (R127). -/
def maxJobs : Nat := 16
/-- Records the fault list can hold (R177). -/
def maxFaults : Nat := 256
/-- Items the pending requeue list can hold (R198). -/
def maxRequeues : Nat := 8
/-- Requests that can be outstanding at one station port (R203). -/
def maxOutstanding : Nat := 8
/-- Tags the refusal list of one station port can hold (R203). -/
def maxRefusals : Nat := 8
/-- Notices the notice queue of one station port can hold (R208). -/
def maxNotices : Nat := 32
/-- The highest requeue generation (R197). -/
def maxGeneration : Nat := 3

/-- The monitor raster, in pixels (section 8.4). -/
def rasterWidth : Nat := 1920
/-- The monitor raster, in rows (section 8.4). -/
def rasterHeight : Nat := 1080
/-- Raster black, the output value of each channel (R154). -/
def rasterBlack : Nat := 64

/-- The nominal rate of each rate code (spec/00_scope.md, Timecode and frame rates). -/
def nominal : Fin 9 → Nat
  | 0 => 24 | 1 => 24 | 2 => 25 | 3 => 30 | 4 => 30 | 5 => 48 | 6 => 50 | 7 => 60 | 8 => 60

/-- The rate codes that allow drop-frame (spec/00_scope.md). -/
def dropAllowed (r : Fin 9) : Bool := r == 3 || r == 7

/-- Labels dropped at the start of a minute: D of R167. -/
def dropped (r : Fin 9) (drop : Bool) : Nat :=
  if drop then (if r = 3 then 2 else if r = 7 then 4 else 0) else 0

/-- The period of each rate code, in units of the 27 MHz reference clock (R148). -/
def period : Fin 9 → Nat
  | 0 => 1126125 | 1 => 1125000 | 2 => 1080000 | 3 => 900900 | 4 => 900000
  | 5 => 562500 | 6 => 540000 | 7 => 450450 | 8 => 450000

/-- The stall period of each period index, in quarters of a second (R38): 0.25, 0.5, 1, 2, 4, 8, 16, 32 s. -/
def stallQuarters : Fin 8 → Nat
  | 0 => 1 | 1 => 2 | 2 => 4 | 3 => 8 | 4 => 16 | 5 => 32 | 6 => 64 | 7 => 128

/-- The fixed time-out of a DIRECTORY request and of every enclosure request, in seconds (R26, R62). -/
def answerSeconds : Nat := 5

end Sys2Proof.Config
end

