-- ==== Sys2Proof/Syntax.lean ====
section
/-!
DEFINITION. The commands of the AL-3640: one constructor of `Instr` for each row of spec/opcode_table.json, with the
operands that the spec gives the row. A request row carries the station port and the tag it came with, and its arguments
as numbers of the width R202 gives them on the wire (so an out-of-range argument can be written, and is refused by the
owning rule). A reader's or an enclosure's answer carries what it answers.
-/

namespace Sys2Proof

/-- The three station ports (R201): A is OFFLOAD, B is GRADE, C is REVIEW. -/
inductive StationPort where
  | A | B | C
deriving DecidableEq, Repr

/-- Where a request comes from: its station port, and the tag the station chose (R202). -/
structure Origin where
  port : StationPort
  tag  : Nat
deriving DecidableEq, Repr

/-- A timecode label with its drop-frame mark (R56, R202): hh, mm and ss are bytes, ff the label in bits 6..0. -/
structure Timecode where
  hh   : Nat
  mm   : Nat
  ss   : Nat
  ff   : Nat
  drop : Bool
deriving DecidableEq, Repr

/-- The range of a render job as asked or as clamped (R129). -/
inductive Range where
  | whole
  | frames (first last : Nat)
  | timecode (inPoint outPoint : Timecode)
deriving DecidableEq, Repr

/-- One take of a card directory (R27). -/
structure Take where
  index  : Nat
  name   : Text
  length : Nat
deriving DecidableEq, Repr

/-- A card directory (R27). -/
structure Directory where
  serial    : Word64
  format    : Word32
  label     : Text
  takeCount : Nat
  takes     : List Take
deriving DecidableEq, Repr

/-- Whether an answer of a reader or an enclosure is to the outstanding request of its port, or comes late, to one the port
has abandoned (R26, R62: such an answer is discarded on arrival). -/
inductive AnswerTo where
  | outstanding | abandoned
deriving DecidableEq, Repr

/-- A reader's answer to DIRECTORY (R26). -/
inductive DirectoryAnswer where
  | directory (d : Directory)
  | error
deriving DecidableEq, Repr

/-- An answer to a READ, of a reader (R26) or of an enclosure (R62). -/
inductive ReadAnswer where
  | data (bytes : List Byte)
  | error
deriving DecidableEq, Repr

/-- An enclosure's answer to IDENTIFY (R62). -/
inductive IdentifyAnswer where
  | volume (serial : Word64) (label : Text)
  | error
deriving DecidableEq, Repr

/-- An enclosure's answer to OPEN_WRITE (R62). -/
inductive OpenWriteAnswer where
  | handle (h : Word32)
  | noSpace
  | error
deriving DecidableEq, Repr

/-- An enclosure's answer to APPEND (R62). -/
inductive AppendAnswer where
  | ok | noSpace | error
deriving DecidableEq, Repr

/-- An enclosure's answer to CLOSE (R62). -/
inductive CloseAnswer where
  | ok | error
deriving DecidableEq, Repr

/-- An enclosure's answer to OPEN_READ (R62). -/
inductive OpenReadAnswer where
  | handle (h : Word32) (length : Nat)
  | notFound
  | error
deriving DecidableEq, Repr

/-- The arguments of WRITE_LOOK (R108). The signed entries are two's complement words, as they travel (R202). -/
structure LookArgs where
  slot   : Nat
  name   : Text
  black  : Nat
  matrix : Vector (Vector (BitVec 16) 3) 3
  slope  : Vector (BitVec 16) 3
  offset : Vector (BitVec 16) 3
  shaper : Vector (Vector (BitVec 16) 65) 3
  range  : Nat
deriving DecidableEq, Repr

/-- The arguments of WRITE_PROFILE (R174): the seven settings, and the severity asked for each of the twelve adjustable
kinds in the order of R175's table. -/
structure ProfileArgs where
  stride          : Nat
  clipThreshold   : Nat
  clipLimit       : Nat
  blackLimit      : Nat
  blackRun        : Nat
  frozenRun       : Nat
  gradeClampLimit : Nat
  severities      : Vector Nat 12
deriving DecidableEq, Repr

/-- One pixel of the raster of the monitor output: three 10-bit values (R160). -/
structure OutPixel where
  r : Nat
  g : Nat
  b : Nat
deriving DecidableEq, Repr

/-- Damage that the front buffer has taken by the time its frame leaves: raster positions and what they hold now (R161: "a
buffer damaged after writing"). An undamaged buffer is the empty list. -/
abbrev Damage := List (Nat × OutPixel)

/-- The commands: one constructor for each row of spec/opcode_table.json. -/
inductive Instr where
  /-- RESET_ASSERT (R210). -/
  | resetAssert
  /-- RESET_RELEASE (R210). -/
  | resetRelease
  /-- LINK_UP at a station port (R201). -/
  | linkUp (p : StationPort)
  /-- LINK_LOST at a station port (R201). -/
  | linkLost (p : StationPort)
  /-- REQUEST_ARRIVAL: a complete request message of that tag, kind and payload (R203). -/
  | requestArrival (o : Origin) (kind : Nat) (payload : List Byte)
  /-- MESSAGE_SENT: the last byte of the port's outgoing message has been sent (R204). -/
  | messageSent (p : StationPort)
  /-- UNKNOWN_REQUEST_KIND: the port takes a request of a kind outside 1..35 (R205). -/
  | unknownRequestKind (o : Origin) (kind : Nat) (payload : List Byte)
  /-- STATUS (R206). -/
  | status (o : Origin)
  /-- READ_CLIP(clip) (R22). -/
  | readClip (o : Origin) (slot generation : Nat)
  /-- LIST_CLIPS(start slot, count) (R23). -/
  | listClips (o : Origin) (start count : Nat)
  /-- READ_CARD(card slot) (R22). -/
  | readCard (o : Origin) (card : Nat)
  /-- READ_VOLUMES (R74). -/
  | readVolumes (o : Origin)
  /-- READ_FAULTS(start position, count) (R188). -/
  | readFaults (o : Origin) (start count : Nat)
  /-- READ_LOOK(selector), RULES being 255 (R110, R202). -/
  | readLook (o : Origin) (selector : Nat)
  /-- READ_LINKS (R193). -/
  | readLinks (o : Origin)
  /-- SET_NOTICES(mask) (R207). -/
  | setNotices (o : Origin) (mask : Nat)
  /-- WRITE_LINK(link entry, source kind, camera filter, minimum severity, action, action parameter, enabled) (R192). -/
  | writeLink (o : Origin) (entry kind camera severity action parameter : Nat) (enabled : Bool)
  /-- CLEAR_LINK(link entry) (R193). -/
  | clearLink (o : Origin) (entry : Nat)
  /-- ACK_FAULT(fault number) (R183). -/
  | ackFault (o : Origin) (number : Nat)
  /-- START_OFFLOAD(card slot, set) (R95, R96). -/
  | startOffload (o : Origin) (card set : Nat)
  /-- HOLD_CARD(card slot) (R97). -/
  | holdCard (o : Origin) (card : Nat)
  /-- RESUME_CARD(card slot) (R98). -/
  | resumeCard (o : Origin) (card : Nat)
  /-- ABORT_CARD(card slot) (R99). -/
  | abortCard (o : Origin) (card : Nat)
  /-- RELEASE_CARD(card slot) (R102). -/
  | releaseCard (o : Origin) (card : Nat)
  /-- RECOPY(clip, port mask) (R100). -/
  | recopy (o : Origin) (slot generation mask : Nat)
  /-- RETIRE_CLIP(clip) (R18). -/
  | retireClip (o : Origin) (slot generation : Nat)
  /-- RETIRE_CARD(card slot) (R20). -/
  | retireCard (o : Origin) (card : Nat)
  /-- DEFINE_SET(set, port mask, required copies, verify mode) (R76). -/
  | defineSet (o : Origin) (set mask copies mode : Nat)
  /-- SET_STALL(card port, period index, retry count) (R38). -/
  | setStall (o : Origin) (port period retries : Nat)
  /-- WRITE_LOOK (R108). -/
  | writeLook (o : Origin) (a : LookArgs)
  /-- CLEAR_LOOK(look slot) (R109). -/
  | clearLook (o : Origin) (slot : Nat)
  /-- WRITE_BINDING(rule entry, camera, reel low, reel high, look slot, enabled), camera ANY being 255 (R114). -/
  | writeBinding (o : Origin) (entry camera reelLow reelHigh look : Nat) (enabled : Bool)
  /-- BIND_LOOK(clip, look slot or NONE), NONE being 255 (R116). -/
  | bindLook (o : Origin) (slot generation look : Nat)
  /-- QUEUE_RENDER(clip, range, proxy port) (R131). -/
  | queueRender (o : Origin) (slot generation : Nat) (range : Range) (port : Nat)
  /-- RESUME_RENDERS (R143). -/
  | resumeRenders (o : Origin)
  /-- CUE_MONITOR(clip, range, loop, proxy port or NONE), NONE being 255 (R132). -/
  | cueMonitor (o : Origin) (slot generation : Nat) (range : Range) (loop : Bool) (port : Nat)
  /-- STOP_MONITOR (R159). -/
  | stopMonitor (o : Origin)
  /-- SET_MONITOR(rate, decimation, reference), FOLLOW and AUTO being 255; `time` is when it is taken, in 27 MHz units since
  reset (R150 refers to the moment of the change). -/
  | setMonitor (o : Origin) (rate decimation reference time : Nat)
  /-- CANCEL_RENDER(job slot) (R141). -/
  | cancelRender (o : Origin) (job : Nat)
  /-- WAIVE_FAULT(fault number) (R184). -/
  | waiveFault (o : Origin) (number : Nat)
  /-- WAIVE_OVERFLOW(clip) (R185). -/
  | waiveOverflow (o : Origin) (slot generation : Nat)
  /-- WRITE_PROFILE (R174). -/
  | writeProfile (o : Origin) (a : ProfileArgs)
  /-- PRESENT at a card port (R28). -/
  | present (p : Fin 4)
  /-- ABSENT at a card port (R31, R32). -/
  | absent (p : Fin 4)
  /-- DIRECTORY_ANSWER at a card port (R29, R30). -/
  | directoryAnswer (p : Fin 4) (x : AnswerTo) (a : DirectoryAnswer)
  /-- DIRECTORY_TIMEOUT at a card port (R30). -/
  | directoryTimeout (p : Fin 4)
  /-- READ_ANSWER at a card port (R34, R35). -/
  | readAnswer (p : Fin 4) (x : AnswerTo) (a : ReadAnswer)
  /-- STALL_TIMER_EXPIRY at a card port (R35). -/
  | stallTimerExpiry (p : Fin 4)
  /-- INSERTED at a destination port (R64). -/
  | inserted (p : Fin 4)
  /-- REMOVED at a destination port (R68, R69). -/
  | removed (p : Fin 4)
  /-- IDENTIFY_ANSWER at a destination port (R64). -/
  | identifyAnswer (p : Fin 4) (x : AnswerTo) (a : IdentifyAnswer)
  /-- ENCLOSURE_TIMEOUT at a destination port (R62). -/
  | enclosureTimeout (p : Fin 4)
  /-- OPEN_WRITE_ANSWER at a destination port (R73). -/
  | openWriteAnswer (p : Fin 4) (x : AnswerTo) (a : OpenWriteAnswer)
  /-- APPEND_ANSWER at a destination port (R73). -/
  | appendAnswer (p : Fin 4) (x : AnswerTo) (a : AppendAnswer)
  /-- CLOSE_ANSWER at a destination port (R73). -/
  | closeAnswer (p : Fin 4) (x : AnswerTo) (a : CloseAnswer)
  /-- OPEN_READ_ANSWER at a destination port (R73). -/
  | openReadAnswer (p : Fin 4) (x : AnswerTo) (a : OpenReadAnswer)
  /-- VOLUME_READ_ANSWER at a destination port (R73). -/
  | volumeReadAnswer (p : Fin 4) (x : AnswerTo) (a : ReadAnswer)
  /-- SAMPLER_COMPLETION of a lane's pending frame (R171). -/
  | samplerCompletion (lane : Fin 2)
  /-- SYNC: the next-sync time arrives (R148, R156). -/
  | sync (damage : Damage)
  /-- REFERENCE_PULSE at that time, in 27 MHz units since reset (R151..R153). -/
  | referencePulse (time : Nat) (damage : Damage)
  /-- REFERENCE_TIMEOUT (R153). -/
  | referenceTimeout (damage : Damage)
deriving DecidableEq, Repr

end Sys2Proof
end

