-- ==== Sys2Proof/WellFormed.lean ====
section
/-!
DEFINITION. Which commands can be written on the part's connections: each number fits the field R202 (station links), R26
(readers), R62 (enclosures) or R160 (monitor raster) gives it. A well-formed command may still carry an out-of-range
argument: the owning rule answers that.
-/

namespace Sys2Proof

/-- Fits one byte. -/
def fits8 (n : Nat) : Bool := decide (n < 256)
/-- Fits two bytes. -/
def fits16 (n : Nat) : Bool := decide (n < 65536)
/-- Fits four bytes. -/
def fits32 (n : Nat) : Bool := decide (n < 4294967296)

/-- A label of four bytes whose ff byte keeps bit 7 for the mark (R202). -/
def Timecode.wf (t : Timecode) : Bool := fits8 t.hh && fits8 t.mm && fits8 t.ss && decide (t.ff < 128)

/-- A range whose bounds fit their fields (R202). -/
def Range.wf : Range → Bool
  | .whole => true
  | .frames f l => fits32 f && fits32 l
  | .timecode i o => i.wf && o.wf

/-- A request's payload fits its 16-bit length (R202). -/
def payloadFits (p : List Byte) : Bool := decide (p.length < 65536)

/-- The tag is one byte (R202). -/
def Origin.wf (o : Origin) : Bool := fits8 o.tag

/-- A clip handle's fields (R202): the slot in two bytes, the generation in one. -/
def handleFits (slot generation : Nat) : Bool := fits16 slot && fits8 generation

/-- The raster positions of a damage list lie in the raster, with 10-bit values (R160). -/
def damageFits (d : Damage) : Bool :=
  d.all (fun x => decide (x.1 < Config.rasterWidth * Config.rasterHeight) &&
    decide (x.2.r < 1024) && decide (x.2.g < 1024) && decide (x.2.b < 1024))

/-- The command can arrive on the part's connections. -/
def WellFormed : Instr → Bool
  | .resetAssert | .resetRelease | .linkUp _ | .linkLost _ | .messageSent _ => true
  | .requestArrival o k p => o.wf && fits8 k && payloadFits p
  | .unknownRequestKind o k p => o.wf && fits8 k && payloadFits p && (decide (k = 0) || decide (35 < k))
  | .status o | .readVolumes o | .readLinks o | .resumeRenders o | .stopMonitor o => o.wf
  | .readClip o s g => o.wf && handleFits s g
  | .listClips o s c => o.wf && fits16 s && fits8 c
  | .readCard o c => o.wf && fits8 c
  | .readFaults o s c => o.wf && fits8 s && fits8 c
  | .readLook o x => o.wf && fits8 x
  | .setNotices o m => o.wf && fits8 m
  | .writeLink o e k c s a p _ => o.wf && fits8 e && fits8 k && fits8 c && fits8 s && fits8 a && fits8 p
  | .clearLink o e => o.wf && fits8 e
  | .ackFault o n => o.wf && fits16 n
  | .startOffload o c s => o.wf && fits8 c && fits8 s
  | .holdCard o c => o.wf && fits8 c
  | .resumeCard o c => o.wf && fits8 c
  | .abortCard o c => o.wf && fits8 c
  | .releaseCard o c => o.wf && fits8 c
  | .recopy o s g m => o.wf && handleFits s g && fits8 m
  | .retireClip o s g => o.wf && handleFits s g
  | .retireCard o c => o.wf && fits8 c
  | .defineSet o s m c v => o.wf && fits8 s && fits8 m && fits8 c && fits8 v
  | .setStall o p i r => o.wf && fits8 p && fits8 i && fits8 r
  | .writeLook o a => o.wf && fits8 a.slot && decide (a.name.length < 256) && fits16 a.black && fits8 a.range
  | .clearLook o s => o.wf && fits8 s
  | .writeBinding o e c l h k _ => o.wf && fits8 e && fits8 c && fits16 l && fits16 h && fits8 k
  | .bindLook o s g l => o.wf && handleFits s g && fits8 l
  | .queueRender o s g r p => o.wf && handleFits s g && r.wf && fits8 p
  | .cueMonitor o s g r _ p => o.wf && handleFits s g && r.wf && fits8 p
  | .setMonitor o r d x _ => o.wf && fits8 r && fits8 d && fits8 x
  | .cancelRender o j => o.wf && fits8 j
  | .waiveFault o n => o.wf && fits16 n
  | .waiveOverflow o s g => o.wf && handleFits s g
  | .writeProfile o a =>
    o.wf && fits16 a.stride && fits16 a.clipThreshold && fits16 a.clipLimit && fits16 a.blackLimit && fits8 a.blackRun &&
      fits8 a.frozenRun && fits16 a.gradeClampLimit && a.severities.toList.all fits8
  | .present _ | .absent _ | .directoryAnswer _ _ _ | .directoryTimeout _ | .stallTimerExpiry _ => true
  | .readAnswer _ _ _ | .volumeReadAnswer _ _ _ => true
  | .inserted _ | .removed _ | .identifyAnswer _ _ _ | .enclosureTimeout _ => true
  | .openWriteAnswer _ _ _ | .appendAnswer _ _ _ | .closeAnswer _ _ _ => true
  | .openReadAnswer _ _ _ => true
  | .samplerCompletion _ => true
  | .sync d | .referencePulse _ d | .referenceTimeout d => damageFits d

end Sys2Proof
end

