-- ==== Sys2Proof/Decode.lean ====
section
/-!
DEFINITION. The reading of the opcode table's bits. spec/opcode_table.json gives no row any bits (every row's "fields" is
empty and none has a "fixed"), because the AL-3640 has no instruction words: it takes requests as messages (R202, decoded in
Machine/Operands.lean) and events on its other connections. So no word spells a command.
-/

namespace Sys2Proof

/-- The command that a word of `nbits` bits spells by the table's bits: none, since the table gives no row any bits. (DESIGN CHOICE, notes/assumptions/33.md.) -/
def decodeTableWord (_nbits _w : Nat) : Option Instr := none

end Sys2Proof
end

