-- ==== Sys2Proof/Machine/State.lean ====
section
/-!
DEFINITION. The state of the AL-3640, block by block, as plain data, and its value after reset. `Settings` holds what only
station requests (and reset) can change; `Engine` holds everything the blocks move on their own. A value that the spec
names twice, or that the spec defines as a count of other state, is stored once: the view of it stands in Machine/Ops.lean
or Machine/Flags.lean (INVENTORY.md lists each).
-/

namespace Sys2Proof.Machine

/-! ## Names of records -/

/-- A clip handle: slot and generation (R4). The generation of a slot wraps from 127 to 0. -/
structure Handle where
  slot : Fin 512
  gen  : Fin 128
deriving DecidableEq, Repr

/-- A decoded or graded pixel: three channel values (R47, R48, R124). -/
structure Rgb where
  r : Nat
  g : Nat
  b : Nat
deriving DecidableEq, Repr

/-! ## Clip catalogue (chapter 1) -/

/-- The states of a card record (section 1.2), in the order of its table. -/
inductive CardState where
  | waitSpace | ready | offloading | held | offloaded | releasing | released
deriving DecidableEq, Repr

/-- Verify modes of a destination set (R75). -/
inductive VerifyMode where
  | readback | noVerify
deriving DecidableEq, Repr

/-- The set snapshot of a card record (R2), and the fields of a destination set (R75). -/
structure SetFields where
  mask   : BitVec 4
  copies : Nat
  verify : VerifyMode
deriving DecidableEq, Repr

/-- A card record (R2). Its release indicator field is the view `CardRecord.indicatorLit` of Machine/Flags.lean: R2 keeps it
LIT exactly while the record is RELEASED and attached. -/
structure CardRecord where
  serial        : Word64
  format        : Word32
  label         : Text
  takeCount     : Nat
  clips         : List Handle
  pendingDir    : Option (List Take)
  attached      : Option (Fin 4)
  state         : CardState
  snapshot      : Option SetFields
  heldByRequest : Bool
  heldByAbsence : Bool
  heldByStall   : Bool
deriving DecidableEq, Repr

/-- Bit depths of a take file (R44). -/
inductive Depth where
  | ten | twelve
deriving DecidableEq, Repr

/-- A valid take header: the header summary of R6, read by R43 and R44. -/
structure Header where
  camera   : Byte
  reel     : Nat
  scene    : Text
  take     : Nat
  rate     : Fin 9
  drop     : Bool
  width    : Nat
  height   : Nat
  depth    : Depth
  declared : Option Nat
  start    : Timecode
deriving DecidableEq, Repr

/-- The states of a copy record (R7), in its order. -/
inductive CopyState where
  | writing | written | partialCopy | failed | verifying | verified | mismatch
deriving DecidableEq, Repr

/-- A copy record (R7). -/
structure CopyRecord where
  volume       : Fin 16
  state        : CopyState
  verifyWaived : Bool
  verifyDigest : Option Word64
  generation   : Nat
deriving DecidableEq, Repr

/-- The clip copy states (R10). -/
inductive ClipCopyState where
  | pending | copying | secured | short
deriving DecidableEq, Repr

/-- Who made a binding (R112). -/
inductive BindOrigin where
  | rule | explicit
deriving DecidableEq, Repr

/-- A look binding in one of the four forms of R112. -/
structure Binding where
  slot   : Option (Fin 32)
  origin : Option BindOrigin
deriving DecidableEq, Repr

/-- The render states of a clip (R6, R144). -/
inductive RenderState where
  | unrendered | queued | current | stale | failed
deriving DecidableEq, Repr

/-- A clip record (R6). Its header valid flag is `header.isSome` (R55 sets and clears the two together); its unresolved BLOCK
and WARN counts are the views `Engine.unresolvedCount` of Machine/Ops.lean (R182). -/
structure Clip where
  handle        : Handle
  card          : Fin 32
  takeIndex     : Nat
  takeName      : Text
  byteLength    : Nat
  header        : Option Header
  observed      : Nat
  firstTc       : Option Timecode
  lastTc        : Option Timecode
  sourceDigest  : Option Word64
  copies        : List CopyRecord
  offloadMark   : Bool
  copyState     : ClipCopyState
  binding       : Binding
  renderState   : RenderState
  rendered      : Option (Fin 32 × Nat)
  blockOverflow : Bool
  sampled       : Nat
  skipped       : Nat
deriving DecidableEq, Repr

/-- A clip slot: its generation, kept whether it is free or occupied, and its record (R4). -/
structure ClipSlot where
  gen  : Fin 128
  clip : Option Clip
deriving DecidableEq, Repr

/-! ## Card ports (chapter 2) -/

/-- The states of a card port (R25), in the order of its table. -/
inductive CardPortState where
  | empty | reading | attached | noRecord | stalled | unreadable
deriving DecidableEq, Repr

/-- The read in progress at a card port: what the lane asked (R34), the attempt count, and the period index its stall timer
was started with (R35). -/
structure CardRead where
  lane      : Fin 2
  takeIndex : Nat
  offset    : Nat
  length    : Nat
  attempt   : Nat
  period    : Fin 8
deriving DecidableEq, Repr

/-- A card port (R25). Its attached record is the view `Engine.cardAt`. In READING a DIRECTORY request is outstanding; while
`read` is present a READ is. `lock` and `lit` are its lock output (R39) and release indicator output (R40). -/
structure CardPort where
  state : CardPortState
  held  : Option Directory
  read  : Option CardRead
  lock  : Bool
  lit   : Bool
deriving DecidableEq, Repr

/-- The stall settings of a card port (R38). -/
structure StallSettings where
  period  : Fin 8
  retries : Fin 4
deriving DecidableEq, Repr

/-! ## Take parser (chapter 3) -/

/-- The walk states of a parse (R54). -/
inductive WalkState where
  | chunkHead | headerBody | frameBody | skipping | ended
deriving DecidableEq, Repr

/-- The header outcomes of a parse (R54). -/
inductive HeaderOutcome where
  | pending | valid | invalid
deriving DecidableEq, Repr

/-- The previous frame of a parse (R54): number, timecode and computed frame check. -/
structure PrevFrame where
  number : Word32
  tc     : Timecode
  check  : Word32
deriving DecidableEq, Repr

/-- The frame in progress of a parse (R54): the prefix bytes taken, the running CRC, the bad pixel words so far, the pixels
decoded so far (latest first) and the bytes of the pixel under way. -/
structure FrameInProgress where
  prefixBytes : List Byte
  crc         : Word32
  bad         : Nat
  pixels      : List Rgb
  pixelBytes  : List Byte
deriving DecidableEq, Repr

/-- The parse state of one lane (R54). `head` holds the bytes of the chunk head under way, `body` the bytes of a TKHD payload
that its version is read for (at most 29), `awaitsPrefix` that a FRAME_SIZE fault of the present chunk is still to be
completed with its prefix (R60). -/
structure Parse where
  clip         : Handle
  card         : Fin 32
  byteLength   : Nat
  walk         : WalkState
  offset       : Nat
  chunkIndex   : Nat
  left         : Nat
  head         : List Byte
  body         : List Byte
  header       : Option Header
  outcome      : HeaderOutcome
  badRaised    : Bool
  frame        : FrameInProgress
  awaitsPrefix : Bool
  previous     : Option PrevFrame
deriving DecidableEq, Repr

/-! ## Destination ports, volumes and sets (chapter 4) -/

/-- The requesters of a destination port (R72). -/
inductive Requester where
  | lane (l : Fin 2)
  | context (c : Fin 2)
deriving DecidableEq, Repr

/-- The object operations (R62, R72). -/
inductive OpRequest where
  | openWrite (name : Text)
  | append (handle : Word32) (block : List Byte)
  | close (handle : Word32)
  | openRead (name : Text)
  | read (handle : Word32) (offset length : Nat)
deriving DecidableEq, Repr

/-- An operation waiting or in flight at a destination port. `discarded` marks one whose requester has stopped (R82, R134). -/
structure Operation where
  who       : Requester
  request   : OpRequest
  discarded : Bool
deriving DecidableEq, Repr

/-- The states of a destination port (R63), UNTRACKED with the identity it keeps. The entry of an ONLINE port is the view
`Engine.entryAt`. -/
inductive DestState where
  | empty
  | identifying
  | online
  | untracked (serial : Word64) (label : Text)
  | offline
deriving DecidableEq, Repr

/-- A destination port with its arbiter (R63, R72). -/
structure DestPort where
  state    : DestState
  inflight : Option Operation
  waiting  : List Operation
  last     : Requester
deriving DecidableEq, Repr

/-- A volume entry in use (R66). Its reference count is the view `Engine.refCount` (R7: the copy records that name it). -/
structure VolumeEntry where
  serial   : Word64
  label    : Text
  inserted : Option (Fin 4)
  full     : Bool
deriving DecidableEq, Repr

/-! ## Transfer engine (chapter 5) -/

/-- The kinds of a descriptor (R79). -/
inductive DescKind where
  | copy | verify | manifest
deriving DecidableEq, Repr

/-- The source of a descriptor (R79). -/
inductive Source where
  | card
  | volume (entry : Fin 16)
deriving DecidableEq, Repr

/-- The states of a descriptor (R79, R81). -/
inductive DescState where
  | queued | held | running
deriving DecidableEq, Repr

/-- A descriptor of the copy queue (R79). -/
structure Descriptor where
  slot       : Fin 64
  kind       : DescKind
  clip       : Option Handle
  card       : Fin 32
  source     : Option Source
  targets    : List (Fin 16)
  serial     : Option Word64
  generation : Nat
  progress   : Nat
  state      : DescState
deriving DecidableEq, Repr

/-- Where one target of a running COPY, or the volume of a running MANIFEST, stands (R85 to R88). -/
inductive TargetStatus where
  | opening
  | isOpen (handle : Word32)
  | appending (handle : Word32)
  | closing
  | closed
  | dropped
deriving DecidableEq, Repr

/-- A target of a running descriptor, with the port its volume was resolved to (R85). -/
structure Target where
  entry  : Fin 16
  port   : Fin 4
  status : TargetStatus
deriving DecidableEq, Repr

/-- Where the source object of a volume-sourced COPY or of a VERIFY stands (R85, R91). -/
inductive SourceStatus where
  | opening
  | isOpen (handle : Word32)
  | closing
  | closed
deriving DecidableEq, Repr

/-- The volume source of a running descriptor. -/
structure VolumeSource where
  entry  : Fin 16
  port   : Fin 4
  status : SourceStatus
deriving DecidableEq, Repr

/-- What a running lane is doing (R85 to R88, R91, R103): waiting for its opens, for a block, for its APPENDs, or for its
CLOSEs. -/
inductive LanePhase where
  | opening | reading | appending | closing
deriving DecidableEq, Repr

/-- What a lane holds while it runs a descriptor: its phase, its targets and volume source, the two registers of its Digest
Unit (R84), the block in hand, whether the last block has been passed (R89), the read digest once settled (R88), the mark
of ABORT_CARD (R99), and its Take Parser (R52), whose `sizeFault` names the record a FRAME_SIZE completion is owed to
(R179). -/
structure LaneRun where
  slot       : Fin 64
  phase      : LanePhase
  targets    : List Target
  source     : Option VolumeSource
  crcHigh    : Word32
  crcLow     : Word32
  block      : List Byte
  lastPassed : Bool
  readDigest : Option Word64
  consistent : Bool
  abortMark  : Bool
  parse      : Option Parse
  sizeFault  : Option Nat
deriving DecidableEq, Repr

/-- The states of a lane (R82). -/
inductive Lane where
  | idle
  | running (run : LaneRun)
  | draining
deriving DecidableEq, Repr

/-! ## Looks and the grade pipeline (chapter 6) -/

/-- Output ranges of a look (R106). -/
inductive OutputRange where
  | narrow | full
deriving DecidableEq, Repr

/-- The parameters of a look (R106). The matrix, the offsets, the slopes and the tables are the 16-bit words of R106, read as
signed or unsigned by Machine/Grade.lean. -/
structure LookParams where
  black  : Nat
  matrix : Vector (Vector (BitVec 16) 3) 3
  slope  : Vector (BitVec 16) 3
  offset : Vector (BitVec 16) 3
  shaper : Vector (Vector (BitVec 16) 65) 3
  range  : OutputRange
deriving DecidableEq, Repr

/-- A look slot (R106): its version (0 when empty), its last version, and the name and parameters of a written slot. -/
structure LookSlot where
  version     : Nat
  lastVersion : Nat
  look        : Option (Text × LookParams)
deriving DecidableEq, Repr

/-- A binding rule (R113). An absent camera is ANY. -/
structure BindingRule where
  camera   : Option Byte
  reelLow  : Nat
  reelHigh : Nat
  look     : Fin 32
  enabled  : Bool
deriving DecidableEq, Repr

/-- The look snapshot of a render job (R111). -/
structure Snapshot where
  slot    : Fin 32
  version : Nat
  params  : LookParams
deriving DecidableEq, Repr

/-- The frame in progress of the Grade Pipeline (R118). -/
structure PipelineFrame where
  context : Fin 2
  job     : Fin 16
  clip    : Handle
  card    : Fin 32
  number  : Word32
  tc      : Timecode
  width   : Nat
  height  : Nat
  graded  : Nat
  clamped : Nat
deriving DecidableEq, Repr

/-! ## Render engine (chapter 7) -/

/-- The outputs of a render job (R127). -/
inductive Outputs where
  | monitor | proxy | both
deriving DecidableEq, Repr

/-- The states of a render job (R127). -/
inductive JobState where
  | queued | running | suspended
deriving DecidableEq, Repr

/-- The open proxy object of a job (R127). -/
structure ProxyObject where
  entry    : Fin 16
  handle   : Word32
  appended : Nat
deriving DecidableEq, Repr

/-- A render job (R127). `suspendMark` is the mark of R133; `rangeDone` that the frame which ends the range has been delivered
(R139), so that a job suspended at that boundary does not grade past its range when it resumes. -/
structure Job where
  slot        : Fin 16
  clip        : Handle
  card        : Fin 32
  range       : Range
  outputs     : Outputs
  proxyPort   : Option (Fin 4)
  loop        : Bool
  station     : StationPort
  snapshot    : Option Snapshot
  nextFrame   : Option Nat
  proxy       : Option ProxyObject
  underruns   : Nat
  cancelMark  : Bool
  suspendMark : Bool
  rangeDone   : Bool
  state       : JobState
deriving DecidableEq, Repr

/-- The causes of a render job's end (R128). -/
inductive EndCause where
  | cancelled | noLook | sourceLost | proxyFailed | damaged
deriving DecidableEq, Repr

/-- The ends of a render job (R128): DONE, CANCELLED, or FAILED with its cause. -/
inductive JobEnd where
  | done
  | cancelled
  | failed (cause : EndCause)
deriving DecidableEq, Repr

/-- What a context's walk over its take copy is doing (R136). -/
inductive RenderWalkMode where
  | head | tkhd | framePrefix | skip | pixels
deriving DecidableEq, Repr

/-- A context's walk over its take copy (R136): bytes consumed, chunk heads taken, the head bytes and payload bytes under way,
the payload bytes left, the copy's own header, its TKHD chunk as read (R138) and the next frame position. -/
structure RenderWalk where
  offset    : Nat
  index     : Nat
  mode      : RenderWalkMode
  head      : List Byte
  payload   : List Byte
  left      : Nat
  header    : Option Header
  tkhdChunk : List Byte
  position  : Nat
deriving DecidableEq, Repr

/-- A frame in range that a context has met (R136): its position, number and timecode. -/
structure RenderFrame where
  position : Nat
  number   : Word32
  tc       : Timecode
deriving DecidableEq, Repr

/-- What a running context is doing (R135 to R139): at its range end it closes its source object, and then its proxy. -/
inductive ContextPhase where
  | openingSource
  | openingProxy
  | walking
  | headerAppending
  | frameAppending
  | closingSource
  | closing
deriving DecidableEq, Repr

/-- What a context holds while it runs a job: its phase, its source object (volume entry, port, handle once open, length), the
offset of its next READ and the bytes read and not yet consumed, its walk, the frame in range it has met, whether it is
inside that frame (R137), the pixel bytes under way, its proxy frame store (R138, packed bytes), the APPENDs still to send
(the first is the one asked), and the frames delivered in this pass (R139). -/
structure ContextRun where
  phase       : ContextPhase
  entry       : Fin 16
  port        : Fin 4
  handle      : Option Word32
  length      : Nat
  readPos     : Nat
  buffer      : List Byte
  walk        : RenderWalk
  frame       : Option RenderFrame
  insideFrame : Bool
  pixelBytes  : List Byte
  frameStore  : List Byte
  toAppend    : List (List Byte)
  delivered   : Nat
deriving DecidableEq, Repr

/-- The states of a render context (R134), RUNNING with its job. -/
inductive ContextState where
  | idle
  | running (job : Fin 16) (run : ContextRun)
  | draining
deriving DecidableEq, Repr

/-- A render context: its state, and the job that claims it (R132). -/
structure Context where
  state : ContextState
  claim : Option (Fin 16)
deriving DecidableEq, Repr

/-! ## Monitor output (chapter 8) -/

/-- The decimation setting (R147). -/
inductive Decimation where
  | one | two | four | auto
deriving DecidableEq, Repr

/-- The reference setting (R147). -/
inductive Reference where
  | internal | external
deriving DecidableEq, Repr

/-- The settings of the Monitor Output (R147). An absent rate is FOLLOW. -/
structure MonitorSettings where
  rate       : Option (Fin 9)
  decimation : Decimation
  reference  : Reference
deriving DecidableEq, Repr

/-- The checker states (R147). -/
inductive Checker where
  | off | unlocked | locked
deriving DecidableEq, Repr

/-- The raster pixels that differ from raster black, as (position, value), positions strictly rising (section 8.4). -/
abbrev Raster := List (Nat × Rgb)

/-- A frame's placement in the raster (R154): the factor, and the column and row of the picture's corner; a negative offset is
the number of decimated columns or rows cut before the first one shown. -/
structure Placement where
  factor : Nat
  column : Int
  row    : Int
deriving DecidableEq, Repr

/-- A complete picture in a frame buffer (R147, R155). -/
structure Picture where
  job        : Fin 16
  clip       : Handle
  card       : Fin 32
  number     : Word32
  tc         : Timecode
  raster     : Raster
  writeCheck : Word32
deriving DecidableEq, Repr

/-- The front buffer (R147). -/
inductive Front where
  | black
  | picture (p : Picture)
deriving DecidableEq, Repr

/-- A frame being written to the back buffer (R154). -/
structure Filling where
  job       : Fin 16
  clip      : Handle
  card      : Fin 32
  width     : Nat
  height    : Nat
  placement : Placement
  raster    : Raster
deriving DecidableEq, Repr

/-- The back buffer (R147). -/
inductive Back where
  | empty
  | filling (f : Filling)
  | ready (p : Picture)
deriving DecidableEq, Repr

/-- The cue record (R147). -/
structure Cue where
  job       : Option (Fin 16)
  clip      : Option Handle
  card      : Option (Fin 32)
  rate      : Option (Fin 9)
  drop      : Bool
  firstShown : Bool
  runFlag   : Bool
deriving DecidableEq, Repr

/-- An output frame of the monitor link (R160). `number` and `tc` are present for PICTURE only. -/
structure OutputFrame where
  picture    : Bool
  rate       : Fin 9
  drop       : Bool
  number     : Option Word32
  tc         : Option Timecode
  repeated   : Bool
  raster     : Raster
deriving DecidableEq, Repr

/-- The Monitor Output (R147), less its settings: the monitor rate, the frame clock, the reference checker, the buffers, the
cue record, the placement of the last frame written to the back buffer (STATUS, R206), the last sync (R150, R152), whether
the front has been sent (R160), and the frame on the monitor link. -/
structure MonitorOut where
  rate      : Fin 9
  drop      : Bool
  nextSync  : Nat
  lastSync  : Option Nat
  checker   : Checker
  inWindow  : Nat
  prevPulse : Option Nat
  lastGood  : Option Nat
  front     : Front
  frontSent : Bool
  back      : Back
  placement : Option Placement
  blanking  : Bool
  cue       : Cue
  output    : Option OutputFrame
deriving DecidableEq, Repr

/-! ## Fault scanner and fault list (chapter 9) -/

/-- The severities (R175), in ascending order. -/
inductive Severity where
  | note | warn | block
deriving DecidableEq, Repr

/-- The sixteen fault kinds (R175), in the order of its table. -/
inductive FaultKind where
  | digestMismatch | copyFailed | sourceLost | badHeader | truncatedChunk | frameCheck | frameSize | pixelWord
  | frameNumber | tcBreak | countMismatch | frozen | black | sensorClip | gradeClamp | outputPath
deriving DecidableEq, Repr

/-- The QC profile (R173, R175): its settings, and one severity for each kind in the order of `FaultKind`. -/
structure Profile where
  stride          : Nat
  clipThreshold   : Nat
  clipLimit       : Nat
  blackLimit      : Nat
  blackRun        : Nat
  frozenRun       : Nat
  gradeClampLimit : Nat
  severities      : Vector Severity 16
deriving DecidableEq, Repr

/-- The states of a fault record (R177). -/
inductive FaultState where
  | isOpen | acknowledged | waived | cleared
deriving DecidableEq, Repr

/-- A record of the fault list (R177). `serial` counts records in the order they were created, for the model's own use: it
names a record across the reuse of its number (R178, R179). (DESIGN CHOICE, notes/assumptions/28.md.) -/
structure FaultRecord where
  serial   : Nat
  number   : Nat
  kind     : FaultKind
  severity : Severity
  state    : FaultState
  clip     : Handle
  card     : Fin 32
  volume   : Option (Fin 16)
  first    : Option Word32
  last     : Option Word32
  tc       : Option Timecode
  measured : Option Int
  count    : Nat
deriving DecidableEq, Repr

/-- A scan context (R163). `parse` counts the parses of the lane: a pending frame of the sampler belongs to the context's parse
when its count is the same (R171). (DESIGN CHOICE, notes/assumptions/28.md.) -/
structure ScanContext where
  parse        : Nat
  clip         : Option Handle
  card         : Option (Fin 32)
  frozenCount  : Nat
  frozenStart  : Option (Word32 × Timecode)
  frozenRaised : Bool
  blackCount   : Nat
  blackStart   : Option (Word32 × Timecode)
  blackRaised  : Bool
deriving DecidableEq, Repr

/-- A frame held in a pending slot of the sampler (R169). -/
structure PendingFrame where
  clip      : Handle
  card      : Fin 32
  number    : Word32
  tc        : Timecode
  width     : Nat
  height    : Nat
  pixels    : List Rgb
  stride    : Nat
  threshold : Nat
  parse     : Nat
deriving DecidableEq, Repr

/-! ## Event links (chapter 10) -/

/-- The event kinds (R190), in the order of its table. -/
inductive EventKind where
  | cardAttached | cardRemoved | cardStalled | cardSecured | cardReleased
  | clipCopied | clipVerified | clipSecured | copyFailed | volumeInserted | volumeRemoved
  | faultRaised | renderDone | renderFailed | clipStale | monitorUnderrun | referenceLost | referenceRestored
deriving DecidableEq, Repr

/-- What the notices of RENDER_DONE and RENDER_FAILED add (R128, R202). -/
structure RenderInfo where
  job     : Fin 16
  outputs : Outputs
  ending  : JobEnd
  station : StationPort
  look    : Option (Fin 32 × Nat)
deriving DecidableEq, Repr

/-- An event (R190): its kind and the values it carries. -/
structure Event where
  kind     : EventKind
  card     : Option (Fin 32)
  clip     : Option Handle
  volume   : Option (Fin 16)
  fault    : Option Nat
  severity : Option Severity
  render   : Option RenderInfo
deriving DecidableEq, Repr

/-- The link actions (R191), in its order. -/
inductive LinkAction where
  | holdCard | requeueCopy | queueRender | cancelRenders | cueMonitor | pauseRenderQueue
deriving DecidableEq, Repr

/-- A written link entry (R191). An absent camera is ANY. -/
structure LinkEntry where
  kind      : EventKind
  camera    : Option Byte
  severity  : Severity
  action    : LinkAction
  parameter : Fin 4
  enabled   : Bool
  writer    : StationPort
deriving DecidableEq, Repr

/-- An item of the pending requeue list (R198). -/
structure Requeue where
  clip       : Handle
  volume     : Fin 16
  generation : Nat
deriving DecidableEq, Repr

/-! ## Station ports (chapter 11) -/

/-- The status codes (spec/00_scope.md), numbered from 0 in this order (R202). -/
inductive Status where
  | done | notPermitted | badArgument | notFound | busy | full | wrongState | notSecured | noSource | noDestination
  | noLook | damaged | queueFull
deriving DecidableEq, Repr

/-- A request message (R202). -/
structure Request where
  tag     : Nat
  kind    : Nat
  payload : List Byte
deriving DecidableEq, Repr

/-- A response (R202): the tag and kind of its request, the status code, and the results that follow it. -/
structure Response where
  tag     : Nat
  kind    : Nat
  status  : Status
  results : List Byte
deriving DecidableEq, Repr

/-- The message a port is sending (R204): the head of its refusal list, its response, or the head of its notice queue, which
may carry the missed flag (R208). -/
inductive Sending where
  | refusal
  | response
  | notice (missed : Bool)
deriving DecidableEq, Repr

/-- A station port (R201, R203 to R208). `response` is the response waiting or being sent of the request taken, which is
outstanding until it is sent. `sentResponse` says that the message sent last was a response (R204). -/
structure Station where
  up           : Bool
  untaken      : List Request
  response     : Option Response
  refusals     : List (Nat × Nat)
  sending      : Option Sending
  sentResponse : Bool
  notices      : List Event
  mask         : BitVec 6
  missed       : Bool
  sequence     : BitVec 8
  resetFlag    : Bool
deriving DecidableEq, Repr

/-- The three station ports. -/
structure Stations where
  a : Station
  b : Station
  c : Station
deriving DecidableEq, Repr

/-! ## The whole state -/

/-- What only a station request or a reset changes: the destination sets (R75), the stall settings (R38), the looks (R106), the
binding rules (R113), the QC profile (R173), the link entries (R191) and the monitor settings (R147). -/
structure Settings where
  sets    : Vector SetFields 4
  stall   : Vector StallSettings 4
  looks   : Vector LookSlot 32
  rules   : Vector BindingRule 16
  profile : Profile
  links   : Vector (Option LinkEntry) 16
  monitor : MonitorSettings
deriving DecidableEq, Repr

/-- What the blocks move: the catalogue with its two lists, the card ports, the volumes, destination ports and untracked list,
the copy queue and lanes, the pipeline, the render queue and contexts, the Monitor Output, the scanner and the fault list,
and the pending requeue list. `lastJobGrant` is the context most recently given a job (R132), `lastPipeline` the one last
granted the pipeline (R137). `faultSerial` counts the fault records created. Two fields belong to the step under way alone and
are cleared as it begins: `events` holds the events it has signaled (R190, R207), and `removed` says that it has removed a
descriptor from the copy queue (R198). -/
structure Engine where
  cards        : Vector (Option CardRecord) 32
  clips        : Vector ClipSlot 512
  waitList     : List (Fin 32)
  noRecord     : List (Fin 4)
  cardPorts    : Vector CardPort 4
  volumes      : Vector (Option VolumeEntry) 16
  destPorts    : Vector DestPort 4
  untracked    : List (Fin 4)
  queue        : List Descriptor
  lanes        : Vector Lane 2
  pipeline     : Option PipelineFrame
  lastPipeline : Fin 2
  jobs         : List Job
  contexts     : Vector Context 2
  lastJobGrant : Fin 2
  paused       : Bool
  monitor      : MonitorOut
  scans        : Vector ScanContext 2
  sampler      : Vector (Option PendingFrame) 2
  faults       : List FaultRecord
  faultCounter : Nat
  dropped      : Bool
  faultSerial  : Nat
  requeues     : List Requeue
  events       : List Event
  removed      : Bool
deriving DecidableEq, Repr

/-- The state of the AL-3640: the commands that wait, first in first out; whether the reset input is held (R210); the time of
the latest timed event, in 27 MHz units since reset (R148); which readers have a card seated and which enclosures a drive
mounted (R41, R78); the settings; the station ports; and the blocks. (DESIGN CHOICE, notes/assumptions/28.md.) -/
structure State where
  pending   : List Instr
  resetHeld : Bool
  now       : Nat
  seated    : Vector Bool 4
  mounted   : Vector Bool 4
  settings  : Settings
  stations  : Stations
  engine    : Engine
deriving DecidableEq, Repr

/-- The faults of the machine. There is none: the spec gives every command its effect in every state, so no meaning stops
(NOTES.md, Stops). -/
inductive Fault
deriving DecidableEq, Repr

/-- The refusals of the machine. -/
inductive Refusal where
  /-- Raised by `exec` alone, for a row of the opcode table that has no meaning yet; safe, since the machine stops. -/
  | notModelled (mnemonic : String)
deriving DecidableEq, Repr

/-! ## After reset -/

/-- The severity of each kind after reset (R175). -/
def resetSeverities : Vector Severity 16 :=
  #v[.block, .warn, .warn, .block, .block, .block, .warn, .warn, .warn, .warn, .warn, .note, .note, .note, .note, .warn]

/-- The QC profile after reset (R173). -/
def resetProfile : Profile :=
  { stride := 64, clipThreshold := 4000, clipLimit := 655, blackLimit := 300, blackRun := 24, frozenRun := 3,
    gradeClampLimit := 1310, severities := resetSeverities }

/-- The settings after reset: R75, R38, R106, R113, R173, R191, R147. -/
def Settings.reset : Settings :=
  { sets := #v[⟨15, 2, .readback⟩, ⟨0, 1, .readback⟩, ⟨0, 1, .readback⟩, ⟨0, 1, .readback⟩]
    stall := Vector.replicate 4 ⟨3, 2⟩
    looks := Vector.replicate 32 ⟨0, 0, none⟩
    rules := Vector.replicate 16 ⟨none, 1, 999, 0, false⟩
    profile := resetProfile
    links := Vector.replicate 16 none
    monitor := ⟨none, .auto, .internal⟩ }

/-- A station port after reset (R210): DOWN, its collections empty, every class enabled, its reset flag set.
(DESIGN CHOICE, notes/assumptions/29.md.) -/
def Station.reset : Station :=
  { up := false, untaken := [], response := none, refusals := [], sending := none, sentResponse := false, notices := [],
    mask := 63, missed := false, sequence := 0, resetFlag := true }

/-- The three station ports after reset (R210). -/
def Stations.reset : Stations := ⟨Station.reset, Station.reset, Station.reset⟩

/-- The cue record after reset (R147). -/
def Cue.reset : Cue :=
  { job := none, clip := none, card := none, rate := none, drop := false, firstShown := false, runFlag := false }

/-- The Monitor Output after reset (R147, R162): its first sync comes one period of 1,125,000 units later.
(DESIGN CHOICE, notes/assumptions/29.md.) -/
def MonitorOut.reset : MonitorOut :=
  { rate := 1, drop := false, nextSync := 1125000, lastSync := none, checker := .off, inWindow := 0, prevPulse := none,
    lastGood := none, front := .black, frontSent := false, back := .empty, placement := none, blanking := false,
    cue := Cue.reset, output := none }

/-- A scan context after reset (R163). -/
def ScanContext.reset : ScanContext :=
  { parse := 0, clip := none, card := none, frozenCount := 0, frozenStart := none, frozenRaised := false, blackCount := 0,
    blackStart := none, blackRaised := false }

/-- The blocks after reset: R24, R41, R61, R78, R105, R118, R146, R162, R189, R200. (DESIGN CHOICE, notes/assumptions/29.md.) -/
def Engine.reset : Engine :=
  { cards := Vector.replicate 32 none
    clips := Vector.replicate 512 ⟨0, none⟩
    waitList := []
    noRecord := []
    cardPorts := Vector.replicate 4 ⟨.empty, none, none, false, false⟩
    volumes := Vector.replicate 16 none
    destPorts := Vector.replicate 4 ⟨.empty, none, [], .context 1⟩
    untracked := []
    queue := []
    lanes := Vector.replicate 2 .idle
    pipeline := none
    lastPipeline := 1
    jobs := []
    contexts := Vector.replicate 2 ⟨.idle, none⟩
    lastJobGrant := 1
    paused := false
    monitor := MonitorOut.reset
    scans := Vector.replicate 2 ScanContext.reset
    sampler := Vector.replicate 2 none
    faults := []
    faultCounter := 0
    dropped := false
    faultSerial := 0
    requeues := []
    events := []
    removed := false }

/-- The machine right after reset, with no card seated and no drive mounted, and no command waiting. -/
def State.reset : State :=
  { pending := [], resetHeld := false, now := 0, seated := Vector.replicate 4 false, mounted := Vector.replicate 4 false,
    settings := Settings.reset, stations := Stations.reset, engine := Engine.reset }

end Sys2Proof.Machine
end

