-- ==== Sys2Proof/Machine/Crc.lean ====
section
/-!
DEFINITION. The two CRCs of the part: the frame check of R49 and the 64-bit digest of R84, bit by bit as those rules give them.
-/

namespace Sys2Proof.Machine

/-- The bit-reversed generator of the upper CRC and of the frame check (R49, R84). -/
def polyHigh : Word32 := 0xEDB88320#32
/-- The bit-reversed generator of the lower CRC (R84). -/
def polyLow : Word32 := 0x82F63B78#32
/-- What both registers start at, and what the final value is exclusive-ored with (R49, R84). -/
def crcOnes : Word32 := 0xFFFFFFFF#32

/-- One shift of a CRC register toward its least significant end (R49). -/
def crcShift (poly r : Word32) : Word32 := if r.getLsbD 0 then (r >>> 1) ^^^ poly else r >>> 1

/-- One byte entering a CRC register, least significant bit first (R49). -/
def crcByte (poly r : Word32) (b : Byte) : Word32 :=
  (List.range 8).foldl (fun r _ => crcShift poly r) (r ^^^ b.setWidth 32)

/-- Bytes entering a CRC register in order. -/
def crcBytes (poly r : Word32) (bs : List Byte) : Word32 := bs.foldl (crcByte poly) r

/-- The final value of a CRC register (R49). -/
def crcFinal (r : Word32) : Word32 := r ^^^ crcOnes

/-- The CRC of R49 over some bytes: the frame check of those pixel bytes. -/
def frameCheck (bs : List Byte) : Word32 := crcFinal (crcBytes polyHigh crcOnes bs)

/-- The digest that the two registers of a Digest Unit give (R84): the upper CRC in bits 63..32, the lower in bits 31..0. -/
def digestOf (high low : Word32) : Word64 := crcFinal high ++ crcFinal low

/-- The digest of some bytes (R84). -/
def digest (bs : List Byte) : Word64 := digestOf (crcBytes polyHigh crcOnes bs) (crcBytes polyLow crcOnes bs)

end Sys2Proof.Machine
end

