-- ==== Sys2Proof/Machine/Timecodes.lean ====
section
/-!
DEFINITION. Timecode labels: when a label is valid (R44, R167), its count from midnight, the length of a day and the jump
between two labels (R167, R168), and the label that four bytes carry (R56, R202).
-/

namespace Sys2Proof.Machine

/-- The label that the drop-frame rule drops (R44, R167): the first labels of a minute that is not a multiple of ten. -/
def labelDropped (rate : Fin 9) (drop : Bool) (t : Timecode) : Bool :=
  decide (t.ss = 0) && decide (t.ff < Config.dropped rate drop) && decide (t.mm % 10 ≠ 0)

/-- A label is valid at a rate and drop-frame flag (R44, R167). The mark of the label does not enter. -/
def labelValid (rate : Fin 9) (drop : Bool) (t : Timecode) : Bool :=
  decide (t.hh < 24) && decide (t.mm < 60) && decide (t.ss < 60) && decide (t.ff < Config.nominal rate) &&
    !labelDropped rate drop t

/-- The minutes of a label from midnight, less those that drop no label (R167: m − floor(m / 10)). -/
def droppingMinutes (t : Timecode) : Nat :=
  let m := t.hh * 60 + t.mm
  m - m / 10

/-- The frame count of a valid label from midnight (R167). -/
def labelCount (rate : Fin 9) (drop : Bool) (t : Timecode) : Nat :=
  (t.hh * 3600 + t.mm * 60 + t.ss) * Config.nominal rate + t.ff - Config.dropped rate drop * droppingMinutes t

/-- The day length in frames (R167): 86,400 × N − 1,296 × D. -/
def dayLength (rate : Fin 9) (drop : Bool) : Nat := 86400 * Config.nominal rate - 1296 * Config.dropped rate drop

/-- The jump from the label `p` to the label `t`, both valid (R168): in −(L / 2 − 1)..L / 2. -/
def labelJump (rate : Fin 9) (drop : Bool) (p t : Timecode) : Int :=
  let day := dayLength rate drop
  let expected := (labelCount rate drop p + 1) % day
  let jump := (labelCount rate drop t + day - expected) % day
  if day / 2 < jump then (jump : Int) - day else jump

/-- Labels compare equal without their marks (R129). -/
def sameLabel (a b : Timecode) : Bool := a.hh == b.hh && a.mm == b.mm && a.ss == b.ss && a.ff == b.ff

/-- The label that four bytes carry, bit 7 of the ff byte being the drop-frame mark (R56, R202). -/
def timecodeOf (hh mm ss ff : Byte) : Timecode := ⟨hh.toNat, mm.toNat, ss.toNat, ff.toNat % 128, ff.getLsbD 7⟩

/-- The four bytes of a label (R202). -/
def timecodeBytes (t : Timecode) : List Byte :=
  [BitVec.ofNat 8 t.hh, BitVec.ofNat 8 t.mm, BitVec.ofNat 8 t.ss, BitVec.ofNat 8 (t.ff % 128 + if t.drop then 128 else 0)]

end Sys2Proof.Machine
end

