-- ==== Sys2Proof/Machine/Ops.lean ====
section
/-!
DEFINITION. The named operations over the state that every family uses: reading and updating one record, one slot or one port;
the views of state that is stored elsewhere; and signaling an event (R190, R207, R208).
-/

namespace Sys2Proof.Machine

/-! ## Station ports -/

/-- One of the three station ports. -/
def Stations.get (ss : Stations) : StationPort → Station
  | .A => ss.a
  | .B => ss.b
  | .C => ss.c

/-- Replace one of the three station ports. -/
def Stations.set (ss : Stations) (p : StationPort) (x : Station) : Stations :=
  match p with
  | .A => { ss with a := x }
  | .B => { ss with b := x }
  | .C => { ss with c := x }

/-- Apply a function to all three station ports. -/
def Stations.each (ss : Stations) (f : Station → Station) : Stations := ⟨f ss.a, f ss.b, f ss.c⟩

/-! ## Events and notices -/

/-- The number of an event kind (R207). -/
def EventKind.number : EventKind → Nat
  | .cardAttached => 0 | .cardRemoved => 1 | .cardStalled => 2 | .cardSecured => 3 | .cardReleased => 4
  | .clipCopied => 5 | .clipVerified => 6 | .clipSecured => 7 | .copyFailed => 8 | .volumeInserted => 9
  | .volumeRemoved => 10 | .faultRaised => 11 | .renderDone => 12 | .renderFailed => 13 | .clipStale => 14
  | .monitorUnderrun => 15 | .referenceLost => 16 | .referenceRestored => 17

/-- The bit of an event's notice class in a notice mask (R207): CARD 0, COPY 1, FAULT 2, RENDER 3, MONITOR 4, REFERENCE 5. -/
def EventKind.classBit : EventKind → Nat
  | .cardAttached | .cardRemoved | .cardStalled | .cardSecured | .cardReleased => 0
  | .clipCopied | .clipVerified | .clipSecured | .copyFailed | .volumeInserted | .volumeRemoved => 1
  | .faultRaised => 2
  | .renderDone | .renderFailed | .clipStale => 3
  | .monitorUnderrun => 4
  | .referenceLost | .referenceRestored => 5

/-- A notice reaching a port: queued when the class is enabled and there is room, else missed when enabled (R207, R208). -/
def Station.offer (ev : Event) (x : Station) : Station :=
  if x.mask.getLsbD ev.kind.classBit then
    if x.notices.length < Config.maxNotices then { x with notices := x.notices ++ [ev] } else { x with missed := true }
  else x

/-- The events of a step made into notices, at each port, in the order they were signaled (R207). -/
def Stations.notify (ss : Stations) (evs : List Event) : Stations :=
  evs.foldl (fun ss ev => ss.each (Station.offer ev)) ss

/-- An event is signaled: it joins the events of the step, which the matrix takes (R190) and the station ports are notified of
(R207). -/
def Engine.signal (e : Engine) (ev : Event) : Engine := { e with events := e.events ++ [ev] }

/-- An event that carries no value. -/
def Event.bare (k : EventKind) : Event :=
  { kind := k, card := none, clip := none, volume := none, fault := none, severity := none, render := none }

/-- An event of a card (R190). -/
def Event.ofCard (k : EventKind) (c : Fin 32) : Event := { Event.bare k with card := some c }

/-- An event of a clip and its card (R190). -/
def Event.ofClip (k : EventKind) (c : Fin 32) (h : Handle) : Event := { Event.bare k with card := some c, clip := some h }

/-- An event of a volume entry (R190). -/
def Event.ofVolume (k : EventKind) (v : Fin 16) : Event := { Event.bare k with volume := some v }

/-! ## Catalogue records -/

/-- The clip record that a handle names, when the handle is current (R5). -/
def Engine.clipAt (e : Engine) (h : Handle) : Option Clip :=
  let s := e.clips[h.slot]
  if s.gen = h.gen then s.clip else none

/-- Update the clip record that a current handle names. -/
def Engine.updateClip (e : Engine) (h : Handle) (f : Clip → Clip) : Engine :=
  match e.clipAt h with
  | some c => { e with clips := e.clips.set h.slot ⟨h.gen, some (f c)⟩ }
  | none => e

/-- Update the card record in a card slot, when there is one. -/
def Engine.updateCard (e : Engine) (c : Fin 32) (f : CardRecord → CardRecord) : Engine :=
  match e.cards[c] with
  | some r => { e with cards := e.cards.set c (some (f r)) }
  | none => e

/-- Clips of the catalogue in ascending clip slot. -/
def Engine.allClips (e : Engine) : List Clip := e.clips.toList.filterMap (·.clip)

/-- The clip records of a card, in the order of its clip list (ascending take index, R2). -/
def Engine.clipsOf (e : Engine) (c : Fin 32) : List Clip :=
  match e.cards[c] with
  | some r => r.clips.filterMap e.clipAt
  | none => []

/-- The card slot of the record attached to a card port (R25): the record names the port. -/
def Engine.cardAt (e : Engine) (p : Fin 4) : Option (Fin 32) :=
  (List.finRange 32).find? (fun c => decide ((e.cards[c]).bind (·.attached) = some p))

/-- The lowest-numbered free card slot (R1). -/
def Engine.freeCard (e : Engine) : Option (Fin 32) := (List.finRange 32).find? (fun c => (e.cards[c]).isNone)

/-- The free clip slots, ascending (R4). -/
def Engine.freeClips (e : Engine) : List (Fin 512) := (List.finRange 512).filter (fun i => (e.clips[i]).clip.isNone)

/-- A card record's identity (spec/00_scope.md). -/
def CardRecord.identity (r : CardRecord) : Word64 × Word32 := (r.serial, r.format)

/-- The copy record of a clip on a volume entry (R7: at most one). -/
def Clip.copyOn (c : Clip) (v : Fin 16) : Option CopyRecord := c.copies.find? (fun r => decide (r.volume = v))

/-- Update the copy record of a clip on a volume entry. -/
def Engine.updateCopy (e : Engine) (h : Handle) (v : Fin 16) (f : CopyRecord → CopyRecord) : Engine :=
  e.updateClip h (fun c => { c with copies := c.copies.map (fun r => if r.volume = v then f r else r) })

/-! ## Volumes and destination ports -/

/-- The port at which a volume entry is inserted (R66). -/
def Engine.portOf (e : Engine) (v : Fin 16) : Option (Fin 4) := (e.volumes[v]).bind (·.inserted)

/-- The volume entry of an ONLINE destination port (R63). -/
def Engine.entryAt (e : Engine) (p : Fin 4) : Option (Fin 16) :=
  (List.finRange 16).find? (fun v => decide (e.portOf v = some p))

/-- The reference count of a volume entry (R66): the copy records of the whole catalogue that name it. -/
def Engine.refCount (e : Engine) (v : Fin 16) : Nat :=
  (e.allClips.map (fun c => (c.copies.filter (fun r => decide (r.volume = v))).length)).sum

/-- Update a volume entry in use. -/
def Engine.updateVolume (e : Engine) (v : Fin 16) (f : VolumeEntry → VolumeEntry) : Engine :=
  match e.volumes[v] with
  | some x => { e with volumes := e.volumes.set v (some (f x)) }
  | none => e

/-- Update a destination port. -/
def Engine.updateDest (e : Engine) (p : Fin 4) (f : DestPort → DestPort) : Engine :=
  { e with destPorts := e.destPorts.set p (f e.destPorts[p]) }

/-- Update a card port. -/
def Engine.updatePort (e : Engine) (p : Fin 4) (f : CardPort → CardPort) : Engine :=
  { e with cardPorts := e.cardPorts.set p (f e.cardPorts[p]) }

/-! ## Descriptors and lanes -/

/-- The descriptor in a descriptor slot. -/
def Engine.descriptor (e : Engine) (d : Fin 64) : Option Descriptor := e.queue.find? (fun x => decide (x.slot = d))

/-- Update the descriptor in a descriptor slot. -/
def Engine.updateDescriptor (e : Engine) (d : Fin 64) (f : Descriptor → Descriptor) : Engine :=
  { e with queue := e.queue.map (fun x => if x.slot = d then f x else x) }

/-- The lowest-numbered free descriptor slot (R79). -/
def Engine.freeDescriptor (e : Engine) : Option (Fin 64) :=
  (List.finRange 64).find? (fun d => (e.descriptor d).isNone)

/-- The free descriptor slots of the copy queue, counted (R80). -/
def Engine.freeDescriptors (e : Engine) : Nat := Config.maxDescriptors - e.queue.length

/-- What a lane holds while it runs. -/
def Engine.laneRun (e : Engine) (l : Fin 2) : Option LaneRun :=
  match e.lanes[l] with
  | .running r => some r
  | _ => none

/-- Update what a running lane holds. -/
def Engine.updateLane (e : Engine) (l : Fin 2) (f : LaneRun → LaneRun) : Engine :=
  match e.lanes[l] with
  | .running r => { e with lanes := e.lanes.set l (.running (f r)) }
  | _ => e

/-- The descriptor a lane runs. -/
def Engine.laneDescriptor (e : Engine) (l : Fin 2) : Option Descriptor := (e.laneRun l).bind (fun r => e.descriptor r.slot)

/-- Whether a descriptor names the clip, as a COPY or VERIFY (R10, R18). -/
def Descriptor.names (d : Descriptor) (h : Handle) : Bool := decide (d.clip = some h)

/-- Whether a descriptor names the clip with the volume among its targets (R80, R197). -/
def Descriptor.namesPair (d : Descriptor) (h : Handle) (v : Fin 16) : Bool := d.names h && d.targets.contains v

/-! ## Render jobs and contexts -/

/-- The job in a job slot. -/
def Engine.job (e : Engine) (j : Fin 16) : Option Job := e.jobs.find? (fun x => decide (x.slot = j))

/-- Update the job in a job slot. -/
def Engine.updateJob (e : Engine) (j : Fin 16) (f : Job → Job) : Engine :=
  { e with jobs := e.jobs.map (fun x => if x.slot = j then f x else x) }

/-- The lowest-numbered free job slot (R127). -/
def Engine.freeJob (e : Engine) : Option (Fin 16) := (List.finRange 16).find? (fun j => (e.job j).isNone)

/-- What a running context holds, with its job slot. -/
def Engine.contextRun (e : Engine) (c : Fin 2) : Option (Fin 16 × ContextRun) :=
  match (e.contexts[c]).state with
  | .running j r => some (j, r)
  | _ => none

/-- Update what a running context holds. -/
def Engine.updateContext (e : Engine) (c : Fin 2) (f : ContextRun → ContextRun) : Engine :=
  match (e.contexts[c]).state with
  | .running j r => { e with contexts := e.contexts.set c { e.contexts[c] with state := .running j (f r) } }
  | _ => e

/-- Set a context's state. -/
def Engine.setContextState (e : Engine) (c : Fin 2) (x : ContextState) : Engine :=
  { e with contexts := e.contexts.set c { e.contexts[c] with state := x } }

/-- Set or drop a context's claim. -/
def Engine.setClaim (e : Engine) (c : Fin 2) (j : Option (Fin 16)) : Engine :=
  { e with contexts := e.contexts.set c { e.contexts[c] with claim := j } }

/-- The context that carries a job. -/
def Engine.contextOf (e : Engine) (j : Fin 16) : Option (Fin 2) :=
  (List.finRange 2).find? (fun c => decide ((e.contextRun c).map (·.1) = some j))

/-- The context that a job claims. -/
def Engine.claimOf (e : Engine) (j : Fin 16) : Option (Fin 2) :=
  (List.finRange 2).find? (fun c => decide ((e.contexts[c]).claim = some j))

/-- A job whose outputs include PROXY (R127). -/
def Job.isProxy (j : Job) : Bool :=
  match j.outputs with
  | .monitor => false
  | .proxy => true
  | .both => true

/-- A job whose outputs include MONITOR (R127). -/
def Job.isMonitor (j : Job) : Bool :=
  match j.outputs with
  | .monitor => true
  | .proxy => false
  | .both => true

/-- The job is the monitor job: the cue record names it (R127). -/
def Engine.isMonitorJob (e : Engine) (j : Fin 16) : Bool := decide (e.monitor.cue.job = some j)

/-! ## Severities and the fault list -/

/-- The order of severities (R175): NOTE, WARN, BLOCK. -/
def Severity.rank : Severity → Nat
  | .note => 0
  | .warn => 1
  | .block => 2

/-- A record that is OPEN or ACKNOWLEDGED (R177). -/
def FaultRecord.unresolved (r : FaultRecord) : Bool :=
  match r.state with
  | .isOpen => true
  | .acknowledged => true
  | .waived => false
  | .cleared => false

/-- A clip's unresolved count of a severity (R182): BLOCK and WARN are the two counts of a clip record. -/
def Engine.unresolvedCount (e : Engine) (h : Handle) (s : Severity) : Nat :=
  (e.faults.filter (fun r => decide (r.clip = h) && r.unresolved && decide (r.severity = s))).length

end Sys2Proof.Machine
end

