-- ==== Sys2Proof/Machine/Operands.lean ====
section
/-!
DEFINITION. Reading operands: the checks that a request's card slot and clip handle pass first (R1, R5), the named values of
R202, and the reading of each request kind's arguments from a message payload (R202, R205).
-/

namespace Sys2Proof.Machine

/-! ## Operand checks -/

/-- The card slot check of R1: BAD_ARGUMENT above 31, NOT_FOUND for a free slot, else the record. -/
def Engine.checkCard (e : Engine) (c : Nat) : Except Status (Fin 32 × CardRecord) :=
  if h : c < 32 then
    match e.cards[(⟨c, h⟩ : Fin 32)] with
    | some r => .ok (⟨c, h⟩, r)
    | none => .error .notFound
  else .error .badArgument

/-- The clip handle check of R5: BAD_ARGUMENT for a slot above 511 or a generation above 127, NOT_FOUND for a stale one, else the
record. -/
def Engine.checkClip (e : Engine) (slot gen : Nat) : Except Status Clip :=
  if h : slot < 512 ∧ gen < 128 then
    match e.clipAt ⟨⟨slot, h.1⟩, ⟨gen, h.2⟩⟩ with
    | some c => .ok c
    | none => .error .notFound
  else .error .badArgument

/-- A number below a bound, as an index of that bound; BAD_ARGUMENT otherwise. -/
def checkIndex (n : Nat) (x : Nat) : Except Status (Fin n) :=
  if h : x < n then .ok ⟨x, h⟩ else .error .badArgument

/-- How NONE, ANY, RULES, FOLLOW and AUTO are written (R202). -/
def namedByte : Nat := 255

/-- A camera letter A..Z, or ANY (R114, R192, R202). -/
def cameraOf (x : Nat) : Option (Option Byte) :=
  if x = namedByte then some none else if 0x41 ≤ x ∧ x ≤ 0x5A then some (some (BitVec.ofNat 8 x)) else none

/-- The verify modes, numbered as R75 lists them (R202). -/
def verifyModeOf : Nat → Option VerifyMode
  | 0 => some .readback
  | 1 => some .noVerify
  | _ => none

/-- The output ranges, numbered as R106 lists them (R202). -/
def outputRangeOf : Nat → Option OutputRange
  | 0 => some .narrow
  | 1 => some .full
  | _ => none

/-- The severities, numbered 0 NOTE, 1 WARN, 2 BLOCK (R202). -/
def severityOf : Nat → Option Severity
  | 0 => some .note
  | 1 => some .warn
  | 2 => some .block
  | _ => none

/-- The event kinds, numbered as R190 lists them (R202). -/
def eventKindOf : Nat → Option EventKind
  | 0 => some .cardAttached | 1 => some .cardRemoved | 2 => some .cardStalled | 3 => some .cardSecured
  | 4 => some .cardReleased | 5 => some .clipCopied | 6 => some .clipVerified | 7 => some .clipSecured
  | 8 => some .copyFailed | 9 => some .volumeInserted | 10 => some .volumeRemoved | 11 => some .faultRaised
  | 12 => some .renderDone | 13 => some .renderFailed | 14 => some .clipStale | 15 => some .monitorUnderrun
  | 16 => some .referenceLost | 17 => some .referenceRestored
  | _ => none

/-- The link actions, numbered as R191 lists them (R202). -/
def linkActionOf : Nat → Option LinkAction
  | 0 => some .holdCard | 1 => some .requeueCopy | 2 => some .queueRender | 3 => some .cancelRenders
  | 4 => some .cueMonitor | 5 => some .pauseRenderQueue
  | _ => none

/-- The decimation argument: 1, 2, 4, and every other value taken as AUTO (R150). -/
def decimationOf : Nat → Decimation
  | 1 => .one
  | 2 => .two
  | 4 => .four
  | _ => .auto

/-- The reference settings, numbered as R147 lists them (R202). -/
def referenceOf : Nat → Option Reference
  | 0 => some .internal
  | 1 => some .external
  | _ => none

/-- The rate argument of SET_MONITOR: a rate code, or FOLLOW (R150). -/
def rateOf (x : Nat) : Option (Option (Fin 9)) :=
  if x = namedByte then some none else if h : x < 9 then some (some ⟨x, h⟩) else none

/-! ## Reading a payload -/

/-- A reader of the front of a payload: what it reads, and the bytes that follow. -/
abbrev Reader (α : Type) := List Byte → Option (α × List Byte)

/-- A number of `n` bytes, little-endian (R202). -/
def readNat (n : Nat) : Reader Nat := fun bs =>
  if n ≤ bs.length then some (leValue (bs.take n), bs.drop n) else none

/-- A 16-bit word, little-endian (R202: signed values in two's complement). -/
def readWord16 : Reader (BitVec 16) := fun bs =>
  match readNat 2 bs with
  | some (v, rest) => some (BitVec.ofNat 16 v, rest)
  | none => none

/-- A flag: 0 clear, 1 set (R202). (DESIGN CHOICE, notes/assumptions/6.md.) -/
def readFlag : Reader Bool := fun bs =>
  match bs with
  | b :: rest => if b = 0 then some (false, rest) else if b = 1 then some (true, rest) else none
  | [] => none

/-- A text: one length byte, then its characters (R202). -/
def readText : Reader Text := fun bs =>
  match bs with
  | n :: rest => if n.toNat ≤ rest.length then some (rest.take n.toNat, rest.drop n.toNat) else none
  | [] => none

/-- A timecode label (R202). -/
def readLabel : Reader Timecode := fun bs =>
  match bs with
  | hh :: mm :: ss :: ff :: rest => some (timecodeOf hh mm ss ff, rest)
  | _ => none

/-- A fixed number of values one after another. -/
def readMany {α : Type} (f : Reader α) : (n : Nat) → Reader (Vector α n)
  | 0 => fun bs => some (#v[], bs)
  | n + 1 => fun bs =>
    match readMany f n bs with
    | some (v, rest) =>
      match f rest with
      | some (a, rest') => some (v.push a, rest')
      | none => none
    | none => none

/-- A range: its kind, then its bounds (R202). A kind byte that R202 does not give has no arguments to match.
(DESIGN CHOICE, notes/assumptions/6.md.) -/
def readRange : Reader Range := fun bs =>
  match bs with
  | b :: rest =>
    if b = 0 then some (.whole, rest)
    else if b = 1 then
      match readNat 4 rest with
      | some (f, rest1) =>
        match readNat 4 rest1 with
        | some (l, rest2) => some (.frames f l, rest2)
        | none => none
      | none => none
    else if b = 2 then
      match readLabel rest with
      | some (i, rest1) =>
        match readLabel rest1 with
        | some (o, rest2) => some (.timecode i o, rest2)
        | none => none
      | none => none
    else none
  | [] => none

/-- Two values one after another. -/
def readPair {α β : Type} (f : Reader α) (g : Reader β) : Reader (α × β) := fun bs =>
  match f bs with
  | some (a, rest) =>
    match g rest with
    | some (b, rest') => some ((a, b), rest')
    | none => none
  | none => none

/-- The arguments of a payload: what the reader reads when nothing is left over (R205: the length matches the arguments). -/
def readWhole {α : Type} (f : Reader α) (bs : List Byte) : Option α :=
  match f bs with
  | some (a, []) => some a
  | _ => none

/-- No arguments. -/
def readNothing : Reader Unit := fun bs => some ((), bs)
/-- One byte. -/
def read8 : Reader Nat := readNat 1
/-- Two bytes. -/
def read16 : Reader Nat := readNat 2
/-- A clip handle: the slot in two bytes, then the generation (R202). -/
def readHandle : Reader (Nat × Nat) := readPair read16 read8

/-- The arguments of WRITE_LOOK in the order R108 names them; the matrix row by row, output channel first.
(DESIGN CHOICE, notes/assumptions/42.md.) -/
def readLookArgs : Reader LookArgs := fun bs =>
  match readPair read8 (readPair readText (readPair read16 (readPair (readMany (readMany readWord16 3) 3)
      (readPair (readMany readWord16 3) (readPair (readMany readWord16 3)
        (readPair (readMany (readMany readWord16 65) 3) read8)))))) bs with
  | some ((slot, name, black, matrix, slope, offset, shaper, range), rest) =>
    some (⟨slot, name, black, matrix, slope, offset, shaper, range⟩, rest)
  | none => none

/-- The arguments of WRITE_PROFILE in the order R174 names them. (PRESUMED, notes/assumptions/5.md.) -/
def readProfileArgs : Reader ProfileArgs := fun bs =>
  match readPair read16 (readPair read16 (readPair read16 (readPair read16 (readPair read8 (readPair read8
      (readPair read16 (readMany read8 12))))))) bs with
  | some ((a, b, c, d, f, g, h, sev), rest) => some (⟨a, b, c, d, f, g, h, sev⟩, rest)
  | none => none

end Sys2Proof.Machine
end

