-- ==== Sys2Proof/Machine/Flags.lean ====
section
/-!
DEFINITION. The derived flags and states: which descriptors a hold flag covers (R81), when a copy is secured (R9), the clip copy
state (R10), the state a card takes from its descriptors (R94), the release indicator field (R2), the outputs of a card port
(R39, R40) and the card's blocked and short clips (R102).
-/

namespace Sys2Proof.Machine

/-- A copy record is secured (R9): VERIFIED, or WRITTEN with the verify-waived flag. -/
def CopyRecord.secured (r : CopyRecord) : Bool :=
  match r.state with
  | .verified => true
  | .written => r.verifyWaived
  | _ => false

/-- The secured count of a clip (R9). -/
def Clip.securedCount (c : Clip) : Nat := (c.copies.filter (·.secured)).length

/-- The clip holds a secured copy on the volume (R96, R100). -/
def Clip.securedOn (c : Clip) (v : Fin 16) : Bool := c.copies.any (fun r => decide (r.volume = v) && r.secured)

/-- The release indicator field of a card record (R2): LIT while it is RELEASED and has an attached port. -/
def CardRecord.indicatorLit (r : CardRecord) : Bool := decide (r.state = .released) && r.attached.isSome

/-- A card-sourced COPY (R79). -/
def Descriptor.cardSourced (d : Descriptor) : Bool := decide (d.kind = .copy) && decide (d.source = some .card)

/-- A hold flag of the card covers the descriptor (R81). -/
def CardRecord.covers (r : CardRecord) (d : Descriptor) : Bool :=
  match d.kind with
  | .manifest => false
  | _ => r.heldByRequest || ((r.heldByAbsence || r.heldByStall) && d.cardSourced)

/-- The state of a descriptor that is not RUNNING (R81). -/
def CardRecord.waitingState (r : CardRecord) (d : Descriptor) : DescState := if r.covers d then .held else .queued

/-- A COPY or VERIFY descriptor of a card (R94). -/
def Descriptor.worksFor (d : Descriptor) (c : Fin 32) : Bool := decide (d.card = c) && decide (d.kind ≠ .manifest)

/-- The state a card record takes from the copy queue (R94). -/
def Engine.cardStateFromQueue (e : Engine) (c : Fin 32) : CardState :=
  let ds := e.queue.filter (·.worksFor c)
  if ds.isEmpty then .offloaded
  else if ds.all (fun d => decide (d.state = .held)) then .held
  else .offloading

/-- The clip copy state that R10 derives. -/
def Engine.derivedCopyState (e : Engine) (c : Clip) : ClipCopyState :=
  if e.queue.any (·.names c.handle) then .copying
  else if !c.offloadMark then .pending
  else
    match (e.cards[c.card]).bind (·.snapshot) with
    | some sn => if sn.copies ≤ c.securedCount then .secured else .short
    | none => .short

/-- A clip that RELEASE_CARD counts as short (R102). -/
def Engine.shortClips (e : Engine) (c : Fin 32) (required : Nat) : Nat :=
  ((e.clipsOf c).filter (fun x => decide (x.securedCount < required))).length

/-- A clip that RELEASE_CARD counts as blocked (R102). -/
def Engine.blockedClips (e : Engine) (c : Fin 32) : Nat :=
  ((e.clipsOf c).filter (fun x => decide (0 < e.unresolvedCount x.handle .block) || x.blockOverflow)).length

/-- The lock output a card port drives (R39): engaged while its attached record is OFFLOADING or HELD. -/
def Engine.lockWanted (e : Engine) (p : Fin 4) : Bool :=
  match (e.cardAt p).bind (fun c => e.cards[c]) with
  | some r => decide (r.state = .offloading) || decide (r.state = .held)
  | none => false

/-- The release indicator output a card port drives (R40): lit while its attached record's field is LIT. -/
def Engine.litWanted (e : Engine) (p : Fin 4) : Bool :=
  match (e.cardAt p).bind (fun c => e.cards[c]) with
  | some r => r.indicatorLit
  | none => false

/-- A card port re-evaluates its two outputs (R39, R40): at each change of its attached record's state, at each attachment and
at each detachment. -/
def Engine.drivePort (e : Engine) (p : Fin 4) : Engine :=
  e.updatePort p (fun x => { x with lock := e.lockWanted p, lit := e.litWanted p })

/-- A card record's state changes, and the port it is attached to drives its outputs (R39, R40). -/
def Engine.setCardState (e : Engine) (c : Fin 32) (x : CardState) : Engine :=
  let e := e.updateCard c (fun r => { r with state := x })
  match (e.cards[c]).bind (·.attached) with
  | some p => e.drivePort p
  | none => e

end Sys2Proof.Machine
end

