-- ==== Sys2Proof/Machine/FaultList.lean ====
section
/-!
DEFINITION. The fault list: the severity a fault arrives with (R175), coalescing (R179), numbering (R178), eviction and the drop
(R180, R181), lowering at a release (R176), clearing at a VERIFIED (R186) and removal at a retire (R187).
-/

namespace Sys2Proof.Machine

/-- A fault on its way to the list: its kind, the clip and card it names, and its fields (R175, R177). -/
structure FaultInput where
  kind     : FaultKind
  clip     : Handle
  card     : Fin 32
  volume   : Option (Fin 16)
  first    : Option Word32
  last     : Option Word32
  tc       : Option Timecode
  measured : Option Int
deriving DecidableEq, Repr

/-- A fault that names a clip and its card, and nothing else. -/
def FaultInput.bare (kind : FaultKind) (clip : Handle) (card : Fin 32) : FaultInput :=
  { kind := kind, clip := clip, card := card, volume := none, first := none, last := none, tc := none, measured := none }

/-- A fault of one frame: its number as first and last frame number, its timecode as first timecode. -/
def FaultInput.frame (kind : FaultKind) (clip : Handle) (card : Fin 32) (number : Word32) (tc : Timecode) : FaultInput :=
  { FaultInput.bare kind clip card with first := some number, last := some number, tc := some tc }

/-- The place of a fault kind in the kinds table (R175). -/
def FaultKind.index : FaultKind → Fin 16
  | .digestMismatch => 0 | .copyFailed => 1 | .sourceLost => 2 | .badHeader => 3 | .truncatedChunk => 4
  | .frameCheck => 5 | .frameSize => 6 | .pixelWord => 7 | .frameNumber => 8 | .tcBreak => 9 | .countMismatch => 10
  | .frozen => 11 | .black => 12 | .sensorClip => 13 | .gradeClamp => 14 | .outputPath => 15

/-- The severity a fault of a kind against a card takes as it reaches the list (R175): the profile's, a BLOCK lowered to WARN
while the card record is RELEASING or RELEASED. -/
def Engine.arrivingSeverity (g : Settings) (e : Engine) (kind : FaultKind) (card : Fin 32) : Severity :=
  let s := g.profile.severities[kind.index]
  match e.cards[card] with
  | some r => if s = .block ∧ (r.state = .releasing ∨ r.state = .released) then .warn else s
  | none => s

/-- A record has the key of a fault (R177): its kind, clip and volume. -/
def FaultRecord.hasKey (r : FaultRecord) (f : FaultInput) : Bool :=
  decide (r.kind = f.kind) && decide (r.clip = f.clip) && decide (r.volume = f.volume)

/-- A limited measured value (R46, R51, R90, R166, R177). -/
def limitMeasured (x : Int) : Int := clampInt (-2147483648) 2147483647 x

/-! ## Coalescing -/

/-- A frame number and timecode fill a record: the last frame number becomes it, and an absent first frame number or first
timecode take them (R179). -/
def FaultRecord.fillFrame (r : FaultRecord) (first last : Option Word32) (tc : Option Timecode) : FaultRecord :=
  match last with
  | some n => { r with
      last := some n
      first := r.first.or first
      tc := r.tc.or tc }
  | none => r

/-- A fault folded into a record of its key, with the severity it arrived with (R179). -/
def FaultRecord.coalesce (r : FaultRecord) (f : FaultInput) (s : Severity) : FaultRecord :=
  { r.fillFrame f.first f.last f.tc with
    count := min 65535 (r.count + 1)
    severity := if r.severity.rank < s.rank then s else r.severity }

/-! ## Numbering and eviction -/

/-- The next number after the counter that no record holds, wrapping from 65535 to 1 (R178). Among the numbers of one more try
than there are records, one is free. -/
def nextFaultNumber (faults : List FaultRecord) : Nat → Nat → Nat
  | 0, n => n
  | k + 1, n =>
    let m := if n < 65535 then n + 1 else 1
    if faults.any (fun r => decide (r.number = m)) then nextFaultNumber faults k m else m

/-- The eviction classes of R180, in its order, for an incoming fault of a severity. -/
def evictionClasses (incoming : Severity) : List (FaultRecord → Bool) :=
  [fun r => !r.unresolved,
   fun r => decide (r.state = .acknowledged) && decide (r.severity = .note),
   fun r => decide (r.state = .acknowledged) && decide (r.severity = .warn),
   fun r => decide (r.state = .isOpen) && decide (r.severity = .note) && decide (incoming ≠ .note),
   fun r => decide (r.state = .isOpen) && decide (r.severity = .warn) && decide (incoming = .block)]

/-- The record that a full list gives up to an incoming fault, when there is one (R180): the first class with a record, and the
oldest record of it. -/
def evictionCandidate (faults : List FaultRecord) (incoming : Severity) : Option FaultRecord :=
  (evictionClasses incoming).findSome? (fun cls => faults.find? cls)

/-! ## Raising a fault -/

/-- FAULT_RAISED for a record (R179). -/
def FaultRecord.raised (r : FaultRecord) : Event :=
  { Event.bare .faultRaised with card := some r.card, clip := some r.clip, volume := r.volume, fault := some r.number,
                                 severity := some r.severity }

/-- The new record of a fault (R179). -/
def FaultInput.record (f : FaultInput) (serial number : Nat) (s : Severity) : FaultRecord :=
  { serial := serial, number := number, kind := f.kind, severity := s, state := .isOpen, clip := f.clip, card := f.card,
    volume := f.volume, first := f.first, last := f.last, tc := f.tc, measured := f.measured, count := 1 }

/-- A record is created at the tail of the list that has room for it, and FAULT_RAISED is signaled (R178, R179). -/
def Engine.createFault (e : Engine) (f : FaultInput) (s : Severity) : Engine :=
  let n := nextFaultNumber e.faults (e.faults.length + 1) e.faultCounter
  let r := f.record e.faultSerial n s
  { e with faults := e.faults ++ [r], faultCounter := n, faultSerial := e.faultSerial + 1 }.signal r.raised

/-- A fault that finds no candidate is dropped (R181). -/
def Engine.dropFault (e : Engine) (f : FaultInput) (s : Severity) : Engine :=
  if s = .block then e.updateClip f.clip (fun c => { c with blockOverflow := true }) else { e with dropped := true }

/-- A fault that needs a record (R180). -/
def Engine.admitFault (e : Engine) (f : FaultInput) (s : Severity) : Engine :=
  if e.faults.length < Config.maxFaults then e.createFault f s
  else
    match evictionCandidate e.faults s with
    | some victim => { e with faults := e.faults.erase victim }.createFault f s
    | none => e.dropFault f s

/-- The unresolved record with the key of a fault (R179). -/
def Engine.unresolvedWithKey (e : Engine) (f : FaultInput) : Option FaultRecord :=
  e.faults.find? (fun r => r.unresolved && r.hasKey f)

/-- Replace the record of a serial. -/
def Engine.putFault (e : Engine) (r : FaultRecord) : Engine :=
  { e with faults := e.faults.map (fun x => if x.serial = r.serial then r else x) }

/-- A fault reaches the fault list (R179): with a stale handle it is discarded, with an unresolved record of its key it is
coalesced, else it needs a record. -/
def Engine.raiseFault (g : Settings) (e : Engine) (f : FaultInput) : Engine :=
  match e.clipAt f.clip with
  | none => e
  | some _ =>
    let s := e.arrivingSeverity g f.kind f.card
    match e.unresolvedWithKey f with
    | some r =>
      let r' := r.coalesce f s
      let e := e.putFault r'
      if r.severity.rank < s.rank then e.signal r'.raised else e
    | none => e.admitFault f s

/-- The serial of the record a fault just raised went into, when it went into one (R60, R179). -/
def Engine.faultSerialOf (e : Engine) (f : FaultInput) : Option Nat := (e.unresolvedWithKey f).map (·.serial)

/-- The frame prefix of a FRAME_SIZE fault completes the record it went into; with that record gone it is discarded (R179). -/
def Engine.completeFault (e : Engine) (serial : Option Nat) (number : Word32) (tc : Timecode) : Engine :=
  match serial with
  | some n =>
    { e with faults := e.faults.map (fun r =>
        if r.serial = n then r.fillFrame (some number) (some number) (some tc) else r) }
  | none => e

/-! ## Changes that other blocks bring -/

/-- As a card becomes RELEASING, its BLOCK records become WARN (R176). -/
def Engine.lowerFaults (e : Engine) (card : Fin 32) : Engine :=
  { e with faults := e.faults.map (fun r =>
      if r.card = card ∧ r.severity = .block then { r with severity := .warn } else r) }

/-- A clip and volume become VERIFIED: their unresolved DIGEST_MISMATCH records become CLEARED (R186). -/
def Engine.clearMismatch (e : Engine) (h : Handle) (v : Fin 16) : Engine :=
  { e with faults := e.faults.map (fun r =>
      if r.kind = .digestMismatch ∧ r.clip = h ∧ r.volume = some v ∧ r.unresolved = true then { r with state := .cleared }
      else r) }

/-- The records of a retired clip are removed (R187). -/
def Engine.removeFaults (e : Engine) (h : Handle) : Engine :=
  { e with faults := e.faults.filter (fun r => decide (r.clip ≠ h)) }

/-- The record that a fault number names (R183). -/
def Engine.checkFault (e : Engine) (n : Nat) : Except Status FaultRecord :=
  if n = 0 then .error .badArgument
  else
    match e.faults.find? (fun r => decide (r.number = n)) with
    | some r => .ok r
    | none => .error .notFound

end Sys2Proof.Machine
end

