-- ==== Sys2Proof/Machine/Names.lean ====
section
/-!
DEFINITION. The names of the objects the part opens on a volume (R71) and the content of a manifest (R77).
-/

namespace Sys2Proof.Machine

/-! ## Object names -/

/-- The character of a hexadecimal digit, 0..9 and A..F (R71). -/
def hexDigit (n : Nat) : Byte := BitVec.ofNat 8 (if n < 10 then 48 + n else 55 + n)

/-- `n` hexadecimal digits of `v`, leading zeros included (R71). -/
def hexText : Nat → Nat → Text
  | 0, _ => []
  | n + 1, v => hexText n (v / 16) ++ [hexDigit (v % 16)]

/-- The decimal digits of `v`, read from at most `n` of them, without leading zeros; 0 is written "0" (R71). -/
def decimalText : Nat → Nat → Text
  | 0, _ => []
  | n + 1, v => if v < 10 then [BitVec.ofNat 8 (48 + v)] else decimalText n (v / 10) ++ [BitVec.ofNat 8 (48 + v % 10)]

/-- The card serial, ".", and the format number: the part of a name that stands for the card (R71). -/
def cardPrefix (serial : Word64) (format : Word32) : Text :=
  hexText 16 serial.toNat ++ ascii "." ++ decimalText 10 format.toNat

/-- The name of a take copy (R71). -/
def takeCopyName (serial : Word64) (format : Word32) (take : Text) : Text := cardPrefix serial format ++ ascii "/" ++ take

/-- The name of a proxy (R71). -/
def proxyName (serial : Word64) (format : Word32) (take : Text) (slot : Fin 32) (version : Nat) : Text :=
  takeCopyName serial format take ++ ascii ".g" ++ decimalText 2 slot ++ ascii "v" ++ decimalText 5 version

/-- The name of a manifest (R71). -/
def manifestName (serial : Word64) (format : Word32) : Text := cardPrefix serial format ++ ascii ".manifest"

/-- The take-copy name of a clip of a card record. -/
def Clip.copyName (c : Clip) (r : CardRecord) : Text := takeCopyName r.serial r.format c.takeName

/-! ## The manifest -/

/-- A text field: the text, then bytes of 0x00 to its size (R77). -/
def padded (n : Nat) (t : Text) : List Byte := (t ++ List.replicate n 0#8).take n

/-- A chunk: its tag, its payload length and its payload (R42, R77). -/
def chunkBytes (tag : Text) (payload : List Byte) : List Byte := tag ++ leBytes 4 payload.length ++ payload

/-- How a manifest writes the state of a copy record (R77). -/
def CopyState.manifestCode : CopyState → Nat
  | .writing => 1 | .written => 2 | .partialCopy => 3 | .failed => 4 | .verifying => 5 | .verified => 6 | .mismatch => 7

/-- The volume serial of an entry in use, 0 for a free one. -/
def Engine.serialOf (e : Engine) (v : Fin 16) : Word64 :=
  match e.volumes[v] with
  | some x => x.serial
  | none => 0

/-- The payload of the MNTK chunk of a clip, in the manifest written to the volume entry `v` (R77). -/
def Engine.manifestTake (e : Engine) (v : Fin 16) (c : Clip) : List Byte :=
  let secured := c.copies.filter (·.secured)
  let own := c.copyOn v
  [BitVec.ofNat 8 c.takeIndex, BitVec.ofNat 8 c.takeName.length] ++ padded 24 c.takeName ++ leBytes 8 c.byteLength ++
    leBytes 8 (c.sourceDigest.getD 0).toNat ++
    [BitVec.ofNat 8 ((own.map (fun r => r.state.manifestCode)).getD 0),
     if (own.map (·.verifyWaived)).getD false then 1 else 0,
     BitVec.ofNat 8 c.securedCount, BitVec.ofNat 8 secured.length] ++
    (secured.map (fun r => leBytes 8 (e.serialOf r.volume).toNat)).flatten

/-- The payload of the MNHD chunk (R77). The snapshot of a card being released is present (R102). -/
def Engine.manifestHead (e : Engine) (v : Fin 16) (r : CardRecord) (count : Nat) : List Byte :=
  let sn := r.snapshot.getD ⟨0, 0, .readback⟩
  leBytes 2 1 ++ leBytes 8 r.serial.toNat ++ leBytes 4 r.format.toNat ++ padded 16 r.label ++
    [BitVec.ofNat 8 r.takeCount, BitVec.ofNat 8 count, sn.mask.setWidth 8, BitVec.ofNat 8 sn.copies,
     match sn.verify with | .readback => 0 | .noVerify => 1] ++
    leBytes 8 (e.serialOf v).toNat

/-- The manifest of a card, for the volume entry `v`, from the records as they stand (R77, R103). -/
def Engine.manifest (e : Engine) (c : Fin 32) (v : Fin 16) : List Byte :=
  match e.cards[c] with
  | some r =>
    let clips := e.clipsOf c
    chunkBytes (ascii "MNHD") (e.manifestHead v r clips.length) ++
      (clips.map (fun x => chunkBytes (ascii "MNTK") (e.manifestTake v x))).flatten
  | none => []

end Sys2Proof.Machine
end

