-- ==== Sys2Proof/Machine/Volumes.lean ====
section
/-!
DEFINITION. The Volume Table and the destination ports: placement (R65, R67), freeing (R66), the port arbiter (R72, R73), the full
flag (R70), and the making of copy records (R7, R8), which an entry's reference count follows.
-/

namespace Sys2Proof.Machine

/-! ## Placement -/

/-- The entry that holds a serial (R65: no two do). -/
def Engine.entryOfSerial (e : Engine) (serial : Word64) : Option (Fin 16) :=
  (List.finRange 16).find? (fun v => decide ((e.volumes[v]).map (·.serial) = some serial))

/-- The lowest-numbered free entry (R65). -/
def Engine.freeEntry (e : Engine) : Option (Fin 16) := (List.finRange 16).find? (fun v => (e.volumes[v]).isNone)

/-- A volume goes online at a port in an entry (R65). -/
def Engine.online (e : Engine) (p : Fin 4) (v : Fin 16) (serial : Word64) (label : Text) : Engine :=
  ({ e with volumes := e.volumes.set v (some ⟨serial, label, some p, false⟩) }.updateDest p
    (fun d => { d with state := .online })).signal (Event.ofVolume .volumeInserted v)

/-- A volume is left without an entry: its port is UNTRACKED, at the tail of the untracked list (R65, R67). -/
def Engine.untrack (e : Engine) (p : Fin 4) (serial : Word64) (label : Text) : Engine :=
  { e.updateDest p (fun d => { d with state := .untracked serial label }) with untracked := e.untracked ++ [p] }

/-- An identified volume is placed by its serial (R65). -/
def Engine.place (e : Engine) (p : Fin 4) (serial : Word64) (label : Text) : Engine :=
  match e.entryOfSerial serial with
  | some v => if (e.portOf v).isSome then e.untrack p serial label else e.online p v serial label
  | none =>
    match e.freeEntry with
    | some v => e.online p v serial label
    | none => e.untrack p serial label

/-- The port at the head of the untracked list is examined (R67). -/
def Engine.replaceHead (e : Engine) (p : Fin 4) : Engine :=
  let e := { e with untracked := e.untracked.erase p }
  match (e.destPorts[p]).state with
  | .untracked serial label => e.place p serial label
  | _ => e

/-- The untracked list is re-evaluated: each port that was in it is examined once, from the head (R67). -/
def Engine.reevaluateUntracked (e : Engine) : Engine := e.untracked.foldl Engine.replaceHead e

/-- An entry with no inserted port and no copy record is freed (R66); whether it was tells if the list is to be re-evaluated. -/
def Engine.freeIfUnused (e : Engine) (v : Fin 16) : Engine × Bool :=
  match e.volumes[v] with
  | some x =>
    if x.inserted = none ∧ e.refCount v = 0 then ({ e with volumes := e.volumes.set v none }, true) else (e, false)
  | none => (e, false)

/-- A copy record that named the entry has been removed: the entry frees when that was its last (R7, R66, R67). -/
def Engine.settleEntry (e : Engine) (v : Fin 16) : Engine :=
  let (e, freed) := e.freeIfUnused v
  if freed then e.reevaluateUntracked else e

/-! ## The port arbiter -/

/-- The place of a requester in the cyclic order (R72). -/
def Requester.index : Requester → Nat
  | .lane l => l
  | .context c => 2 + c

/-- How many places after the last requester granted a requester stands, 1 to 4 (R72). -/
def Requester.after (last who : Requester) : Nat := (who.index + 3 - last.index) % 4 + 1

/-- An operation is sent to the enclosure (R72). -/
def DestPort.grant (d : DestPort) (op : Operation) : DestPort := { d with inflight := some op, last := op.who }

/-- The waiting operation that the arbiter grants next (R72): the first, in the cyclic order after the last one granted. -/
def DestPort.nextWaiting (d : DestPort) : Option Operation :=
  [1, 2, 3, 4].findSome? (fun k => d.waiting.find? (fun op => decide (Requester.after d.last op.who = k)))

/-- The operation in flight has ended: the next one waiting is granted (R72). -/
def DestPort.endOperation (d : DestPort) : DestPort :=
  let d := { d with inflight := none }
  match d.nextWaiting with
  | some op => { d with waiting := d.waiting.erase op }.grant op
  | none => d

/-- A requester asks for an operation at an ONLINE port: it is sent at once, or waits (R72). -/
def DestPort.ask (d : DestPort) (op : Operation) : DestPort :=
  if d.inflight = none ∧ d.waiting = [] then d.grant op else { d with waiting := d.waiting ++ [op] }

/-- A requester asks a port for an operation; a port that is not ONLINE answers volume-lost at once (R63, R72). -/
def Engine.ask (e : Engine) (p : Fin 4) (who : Requester) (request : OpRequest) : Option Engine :=
  match (e.destPorts[p]).state with
  | .online => some (e.updateDest p (fun d => d.ask ⟨who, request, false⟩))
  | _ => none

/-- A requester that stops withdraws what waits, and the answers to what is in flight are to be discarded (R82, R134). -/
def DestPort.withdraw (d : DestPort) (who : Requester) : DestPort :=
  { d with
    waiting := d.waiting.filter (fun op => decide (op.who ≠ who))
    inflight := d.inflight.map (fun op => if op.who = who then { op with discarded := true } else op) }

/-- The same at every port. -/
def Engine.withdraw (e : Engine) (who : Requester) : Engine :=
  (List.finRange 4).foldl (fun e p => e.updateDest p (fun d => d.withdraw who)) e

/-- A requester has an operation in flight (R82, R134). -/
def Engine.inFlight (e : Engine) (who : Requester) : Bool :=
  (List.finRange 4).any (fun p => decide (((e.destPorts[p]).inflight.map (·.who)) = some who))

/-- A requester has an operation waiting or in flight whose answer it awaits. -/
def Engine.asking (e : Engine) (who : Requester) : Bool :=
  (List.finRange 4).any (fun p =>
    (e.destPorts[p]).waiting.any (fun op => decide (op.who = who)) ||
      ((e.destPorts[p]).inflight.any (fun op => decide (op.who = who) && !op.discarded)))

/-- What a requester is answered (R62, R63, R73). NOT_FOUND has the effects of ERROR on every requester. -/
inductive Reply where
  | ok
  | handle (h : Word32)
  | opened (h : Word32) (length : Nat)
  | data (bytes : List Byte)
  | noSpace
  | error
  | lost
deriving DecidableEq, Repr

/-- A NO_SPACE answer at a port sets the full flag of its volume (R70). -/
def Engine.noteFull (e : Engine) (p : Fin 4) (r : Reply) : Engine :=
  match r, e.entryAt p with
  | .noSpace, some v => e.updateVolume v (fun x => { x with full := true })
  | _, _ => e

/-! ## Copy records -/

/-- A copy record as it is made (R7). -/
def CopyRecord.made (v : Fin 16) (generation : Nat) : CopyRecord :=
  { volume := v, state := .writing, verifyWaived := false, verifyDigest := none, generation := generation }

/-- How the catalogue answers a request for a copy record (R8). -/
inductive RecordPlan where
  | resetRecord
  | append
  | replace (old : Fin 16)
  | refuse
deriving DecidableEq, Repr

/-- A record for the same volume can be reset (R8). -/
def CopyRecord.resettable (r : CopyRecord) : Bool :=
  match r.state with
  | .partialCopy => true
  | .failed => true
  | .mismatch => true
  | .written => !r.verifyWaived
  | _ => false

/-- A record can be taken for a seventh volume (R8); `busy` are the volumes of the clip's descriptors and pending requeues. -/
def CopyRecord.replaceable (busy : List (Fin 16)) (r : CopyRecord) : Bool :=
  !r.secured && decide (r.state ≠ .writing) && decide (r.state ≠ .verifying) && !busy.contains r.volume

/-- The catalogue's answer for a clip's copy records (R8). -/
def recordPlan (copies : List CopyRecord) (busy : List (Fin 16)) (v : Fin 16) : RecordPlan :=
  match copies.find? (fun r => decide (r.volume = v)) with
  | some r => if r.resettable then .resetRecord else .refuse
  | none =>
    if copies.length < Config.maxCopyRecords then .append
    else
      match copies.find? (·.replaceable busy) with
      | some old => .replace old.volume
      | none => .refuse

/-- The copy records after the catalogue's answer is carried out (R8). -/
def RecordPlan.apply (plan : RecordPlan) (copies : List CopyRecord) (v : Fin 16) (generation : Nat) : List CopyRecord :=
  match plan with
  | .resetRecord => copies.map (fun r => if r.volume = v then CopyRecord.made v generation else r)
  | .append => copies ++ [CopyRecord.made v generation]
  | .replace old => copies.filter (fun r => decide (r.volume ≠ old)) ++ [CopyRecord.made v generation]
  | .refuse => copies

/-- The volumes that R8 spares: targets of the clip's descriptors, and volumes paired with it in the pending requeue list. -/
def Engine.busyVolumes (e : Engine) (h : Handle) : List (Fin 16) :=
  (e.queue.filter (·.names h)).flatMap (·.targets) ++ (e.requeues.filter (fun x => decide (x.clip = h))).map (·.volume)

/-- The targets among `vs` for which the catalogue makes or resets a record, each asked for in turn (R8, R96); `busy` does not hold
the targets of the COPY under way. (DESIGN CHOICE, notes/assumptions/38.md.) -/
def plannedTargets (busy : List (Fin 16)) : List (Fin 16) → List CopyRecord → List (Fin 16)
  | [], _ => []
  | v :: vs, copies =>
    match recordPlan copies busy v with
    | .refuse => plannedTargets busy vs copies
    | plan => v :: plannedTargets busy vs (plan.apply copies v 0)

end Sys2Proof.Machine
end

