-- ==== Sys2Proof/Machine/Queue.lean ====
section
/-!
DEFINITION. The bookkeeping that follows the copy queue: a clip's copy state (R10, R11), the hold flags and the states of waiting
descriptors (R81), a card's state (R94, R104), and the queueing and removal of a descriptor (R79, R80, R93).
-/

namespace Sys2Proof.Machine

/-! ## Copy states -/

/-- A clip's copy state is recomputed; CLIP_SECURED is signaled as it becomes SECURED (R10, R11). -/
def Engine.recomputeCopyState (e : Engine) (h : Handle) : Engine :=
  match e.clipAt h with
  | some c =>
    let x := e.derivedCopyState c
    let e := e.updateClip h (fun c => { c with copyState := x })
    if x = .secured ∧ c.copyState ≠ .secured then e.signal (Event.ofClip .clipSecured c.card h) else e
  | none => e

/-- A copy record of a clip changes, and with it the clip's copy state (R10). -/
def Engine.changeCopy (e : Engine) (h : Handle) (v : Fin 16) (f : CopyRecord → CopyRecord) : Engine :=
  (e.updateCopy h v f).recomputeCopyState h

/-- A copy record takes a state. -/
def Engine.setCopyState (e : Engine) (h : Handle) (v : Fin 16) (x : CopyState) : Engine :=
  e.changeCopy h v (fun r => { r with state := x })

/-! ## Card states -/

/-- Every clip of the card is SECURED (R94). -/
def Engine.allSecured (e : Engine) (c : Fin 32) : Bool := (e.clipsOf c).all (fun x => decide (x.copyState = .secured))

/-- CARD_SECURED, when every clip of the card is SECURED (R94, R95, R96). -/
def Engine.signalSecured (e : Engine) (c : Fin 32) : Engine :=
  if e.allSecured c then e.signal (Event.ofCard .cardSecured c) else e

/-- A card becomes OFFLOADED: HELD_BY_REQUEST is cleared, and CARD_SECURED is signaled when every clip is SECURED (R94). -/
def Engine.becomeOffloaded (e : Engine) (c : Fin 32) : Engine :=
  ((e.setCardState c .offloaded).updateCard c (fun r => { r with heldByRequest := false })).signalSecured c

/-- A card record in OFFLOADING, HELD or OFFLOADED takes its state from its descriptors (R94). -/
def Engine.recomputeCard (e : Engine) (c : Fin 32) : Engine :=
  match e.cards[c] with
  | some r =>
    if r.state = .offloading ∨ r.state = .held ∨ r.state = .offloaded then
      let x := e.cardStateFromQueue c
      if x = r.state then e
      else if x = .offloaded then e.becomeOffloaded c
      else e.setCardState c x
    else e
  | none => e

/-- A card becomes RELEASED (R104). -/
def Engine.becomeReleased (e : Engine) (c : Fin 32) : Engine :=
  (e.setCardState c .released).signal (Event.ofCard .cardReleased c)

/-- A RELEASING card whose last MANIFEST descriptor has gone becomes RELEASED (R104). -/
def Engine.settleRelease (e : Engine) (c : Fin 32) : Engine :=
  match e.cards[c] with
  | some r =>
    if r.state = .releasing ∧ (e.queue.any (fun d => decide (d.card = c) && decide (d.kind = .manifest))) = false then
      e.becomeReleased c
    else e
  | none => e

/-! ## Hold flags -/

/-- The states of a card's waiting descriptors are recomputed (R81). -/
def Engine.recomputeHolds (e : Engine) (c : Fin 32) : Engine :=
  match e.cards[c] with
  | some r =>
    { e with queue := e.queue.map (fun d =>
        if d.card = c ∧ d.state ≠ .running then { d with state := r.waitingState d } else d) }
  | none => e

/-- A card's hold flags change: its waiting descriptors and its state follow (R81, R94). -/
def Engine.changeHolds (e : Engine) (c : Fin 32) (f : CardRecord → CardRecord) : Engine :=
  ((e.updateCard c f).recomputeHolds c).recomputeCard c

/-! ## Descriptors -/

/-- The values that a queueing gives a descriptor; it takes the lowest free slot, no progress, and QUEUED or HELD (R79). -/
structure NewDescriptor where
  kind       : DescKind
  clip       : Option Handle
  card       : Fin 32
  source     : Option Source
  targets    : List (Fin 16)
  serial     : Option Word64
  generation : Nat
deriving DecidableEq, Repr

/-- A descriptor joins the tail of the queue (R79, R81). With no slot free nothing is queued (R80: a request checks first). -/
def Engine.addDescriptor (e : Engine) (n : NewDescriptor) : Engine :=
  match e.freeDescriptor with
  | some slot =>
    let d : Descriptor :=
      { slot := slot, kind := n.kind, clip := n.clip, card := n.card, source := n.source, targets := n.targets,
        serial := n.serial, generation := n.generation, progress := 0, state := .queued }
    let state := match e.cards[n.card] with
      | some r => r.waitingState d
      | none => .queued
    { e with queue := e.queue ++ [{ d with state := state }] }
  | none => e

/-- A COPY or VERIFY has been queued for a clip: the offload mark is set and the copy state recomputed (R80). -/
def Engine.markQueued (e : Engine) (h : Handle) : Engine :=
  (e.updateClip h (fun c => { c with offloadMark := true })).recomputeCopyState h

/-- A VERIFY of a clip's copy on a volume is queued, at its COPY's generation (R79, R88). -/
def Engine.queueVerify (e : Engine) (c : Fin 32) (h : Handle) (v : Fin 16) (generation : Nat) : Engine :=
  if e.queue.length < Config.maxDescriptors then
    (e.addDescriptor { kind := .verify, clip := some h, card := c, source := some (.volume v), targets := [v], serial := none,
                       generation := generation }).markQueued h
  else e

/-- A descriptor leaves the queue and its slot is freed (R93). -/
def Engine.dropDescriptor (e : Engine) (slot : Fin 64) : Engine :=
  { e with queue := e.queue.filter (fun d => decide (d.slot ≠ slot)), removed := true }

/-- The first two steps of a descriptor's end, once it has left the queue: the clip's copy state, then the card's state (R93,
R104). -/
def Engine.settleRemoval (e : Engine) (d : Descriptor) : Engine :=
  let e := match d.clip with
    | some h => e.recomputeCopyState h
    | none => e
  (e.recomputeCard d.card).settleRelease d.card

end Sys2Proof.Machine
end

