-- ==== Sys2Proof/Machine/Catalogue.lean ====
section
/-!
DEFINITION. The Clip Catalogue: identity matching and registration (R12 to R16), attachment and detachment (R17, R29, R33), and the
retire of clips and cards (R18 to R21).
-/

namespace Sys2Proof.Machine

/-! ## Records as they are made -/

/-- A card record as it is created from a directory at a port (R2). -/
def CardRecord.made (d : Directory) (p : Fin 4) (state : CardState) (pendingDir : Option (List Take)) : CardRecord :=
  { serial := d.serial, format := d.format, label := d.label, takeCount := d.takeCount, clips := [], pendingDir := pendingDir,
    attached := some p, state := state, snapshot := none, heldByRequest := false, heldByAbsence := false, heldByStall := false }

/-- A clip record as it is registered (R6). -/
def Clip.made (h : Handle) (card : Fin 32) (t : Take) : Clip :=
  { handle := h, card := card, takeIndex := t.index, takeName := t.name, byteLength := t.length, header := none, observed := 0,
    firstTc := none, lastTc := none, sourceDigest := none, copies := [], offloadMark := false, copyState := .pending,
    binding := ⟨none, none⟩, renderState := .unrendered, rendered := none, blockOverflow := false, sampled := 0, skipped := 0 }

/-- One take registered in a clip slot, at the slot's generation (R4, R12). -/
def Engine.registerTake (card : Fin 32) (e : Engine) (x : Fin 512 × Take) : Engine :=
  let h : Handle := ⟨x.1, (e.clips[x.1]).gen⟩
  { e with clips := e.clips.set x.1 ⟨h.gen, some (Clip.made h card x.2)⟩ }.updateCard card
    (fun r => { r with clips := r.clips ++ [h] })

/-- The takes of a card registered in ascending take index, each in the lowest free clip slot (R12, R15). -/
def Engine.registerTakes (e : Engine) (card : Fin 32) (takes : List Take) : Engine :=
  (e.freeClips.zip takes).foldl (Engine.registerTake card) e

/-- A waiting registration completes (R15). -/
def Engine.completeRegistration (e : Engine) (card : Fin 32) (takes : List Take) : Engine :=
  let e := (e.registerTakes card takes).updateCard card (fun r => { r with pendingDir := none })
  { e.setCardState card .ready with waitList := e.waitList.erase card }

/-- Waiting registrations are completed from the head of the list, while they fit (R15). -/
def Engine.completeRegistrations : Nat → Engine → Engine
  | 0, e => e
  | n + 1, e =>
    match e.waitList with
    | card :: _ =>
      match (e.cards[card]).bind (·.pendingDir) with
      | some takes =>
        if takes.length ≤ e.freeClips.length then Engine.completeRegistrations n (e.completeRegistration card takes) else e
      | none => e
    | [] => e

/-- Clip slots have become free (R15). -/
def Engine.clipsFreed (e : Engine) : Engine := Engine.completeRegistrations e.waitList.length e

/-! ## Attachment -/

/-- The record attaches to the port (R12), which enters ATTACHED with the directory it holds, lifts the absence hold, and signals
CARD_ATTACHED (R29). -/
def Engine.attachCard (e : Engine) (p : Fin 4) (card : Fin 32) : Engine :=
  let e := e.updateCard card (fun r => { r with attached := some p })
  let e := (e.updatePort p (fun x => { x with state := .attached })).drivePort p
  (e.changeHolds card (fun r => { r with heldByAbsence := false })).signal (Event.ofCard .cardAttached card)

/-- The record loses its port (R17), whose outputs go off (R39, R40). -/
def Engine.detachCard (e : Engine) (p : Fin 4) (card : Fin 32) : Engine :=
  (e.updateCard card (fun r => { r with attached := none })).drivePort p

/-- The card record of an identity (R12: there is at most one). -/
def Engine.cardOfIdentity (e : Engine) (d : Directory) : Option (Fin 32) :=
  (List.finRange 32).find? (fun c => decide ((e.cards[c]).map (·.identity) = some (d.serial, d.format)))

/-- A new record in a free card slot: registered at once, or made to wait (R12, R13). -/
def Engine.createCard (e : Engine) (p : Fin 4) (d : Directory) (card : Fin 32) : Engine :=
  if e.waitList = [] ∧ d.takeCount ≤ e.freeClips.length then
    ({ e with cards := e.cards.set card (some (CardRecord.made d p .ready none)) }.registerTakes card d.takes).attachCard p card
  else
    { e with
      cards := e.cards.set card (some (CardRecord.made d p .waitSpace (some d.takes)))
      waitList := e.waitList ++ [card] }.attachCard p card

/-- The port is answered "no record": it enters NO_RECORD, at the tail of the no-record list (R14, R29). -/
def Engine.refuseCard (e : Engine) (p : Fin 4) : Engine :=
  { e.updatePort p (fun x => { x with state := .noRecord }) with noRecord := e.noRecord ++ [p] }

/-- A directory arrives from a port that holds it (R12 to R14, R29). -/
def Engine.handDirectory (e : Engine) (p : Fin 4) (d : Directory) : Engine :=
  match e.cardOfIdentity d with
  | some card =>
    match (e.cards[card]).bind (·.attached) with
    | none => e.attachCard p card
    | some _ => e.refuseCard p
  | none =>
    match e.freeCard with
    | some card => e.createCard p d card
    | none => e.refuseCard p

/-- The port at the head of the no-record list hands its kept directory over again (R16, R33). -/
def Engine.reexaminePort (e : Engine) (p : Fin 4) : Engine :=
  let e := { e with noRecord := e.noRecord.erase p }
  match (e.cardPorts[p]).held with
  | some d => e.handDirectory p d
  | none => e

/-- The no-record list is re-evaluated: each port that was in it is examined once, from the head (R16). -/
def Engine.reevaluateNoRecord (e : Engine) : Engine := e.noRecord.foldl Engine.reexaminePort e

/-! ## Retire -/

/-- A descriptor, a render job or the monitor cue names the clip (R18). (DEDUCED, notes/assumptions/24.md.) -/
def Engine.clipInUse (e : Engine) (h : Handle) : Bool :=
  e.queue.any (·.names h) || e.jobs.any (fun j => decide (j.clip = h)) ||
    (e.monitor.cue.job.isSome && decide (e.monitor.cue.clip = some h))

/-- One copy record of a clip is removed with its clip: the entry it named loses a reference (R19). -/
def Engine.removeCopy (h : Handle) (e : Engine) (r : CopyRecord) : Engine :=
  (e.updateClip h (fun c => { c with copies := c.copies.filter (fun x => decide (x.volume ≠ r.volume)) })).settleEntry r.volume

/-- The removals of a clip's retire (R19): its fault records, its copy records, its place in its card's list, and its slot, whose
generation advances. The copy records go oldest first, the untracked list re-evaluated as each frees its entry.
(DESIGN CHOICE, notes/assumptions/55.md.) -/
def Engine.retireOne (e : Engine) (c : Clip) : Engine :=
  let e := c.copies.foldl (Engine.removeCopy c.handle) (e.removeFaults c.handle)
  { e with clips := e.clips.set c.handle.slot ⟨c.handle.gen + 1, none⟩ }.updateCard c.card
    (fun r => { r with clips := r.clips.erase c.handle })

/-- A card record is freed: it leaves its slot, and its port's outputs go off (R19, R39, R40). -/
def Engine.freeCardRecord (e : Engine) (card : Fin 32) (r : CardRecord) : Engine :=
  let e := { e with cards := e.cards.set card none }
  match r.attached with
  | some p => e.drivePort p
  | none => e

/-- The port of a freed record, whose card is still seated, hands its held directory over again (R21, R33). No read is outstanding
there, since no descriptor names a clip that is retired (R18). -/
def Engine.handOver (e : Engine) (p : Fin 4) : Engine :=
  match (e.cardPorts[p]).held with
  | some d => (e.updatePort p (fun x => { x with read := none })).handDirectory p d
  | none => e

/-- A card record whose clips have all gone is freed; then R15, R16 and the hand-over of R21 follow, in that order (R19, R20). -/
def Engine.afterRetire (e : Engine) (card : Fin 32) : Engine :=
  match e.cards[card] with
  | some r =>
    if r.clips = [] then
      let e := (e.freeCardRecord card r).clipsFreed.reevaluateNoRecord
      match r.attached with
      | some p => e.handOver p
      | none => e
    else e.clipsFreed
  | none => e

/-- RETIRE_CLIP's check and retire (R18, R19). -/
def Engine.retireClip (e : Engine) (slot gen : Nat) : Except Status Engine :=
  match e.checkClip slot gen with
  | .ok c =>
    match e.cards[c.card] with
    | some r =>
      if r.state ≠ .released then .error .wrongState
      else if e.clipInUse c.handle then .error .busy
      else .ok ((e.retireOne c).afterRetire c.card)
    | none => .error .wrongState
  | .error x => .error x

/-- RETIRE_CARD's check and retire (R20). -/
def Engine.retireCard (e : Engine) (card : Nat) : Except Status Engine :=
  match e.checkCard card with
  | .ok (card, r) =>
    if r.state ≠ .released then .error .wrongState
    else if (e.clipsOf card).any (fun c => e.clipInUse c.handle) then .error .busy
    else .ok (((e.clipsOf card).foldl Engine.retireOne e).afterRetire card)
  | .error x => .error x

end Sys2Proof.Machine
end

