-- ==== Sys2Proof/Machine/Grade.lean ====
section
/-!
DEFINITION. The Grade Pipeline's arithmetic: the five stages (R119 to R124), the clamp fraction (R125), and the packing of
output pixels (R138, R155). Lean's `/` on Int with a positive divisor is the floor that the spec means.
-/

namespace Sys2Proof.Machine

/-- Saturation to the working range (R119). -/
def saturate (x : Int) : Int := clampInt (-524288) 524287 x

/-- Stage 1: the input black is removed (R120). -/
def stage1 (black v : Nat) : Int := ((v : Int) - black) * 4

/-- Stage 2: one row of the matrix (R121). -/
def stage2 (row : Vector (BitVec 16) 3) (r g b : Int) : Int :=
  saturate ((row[0].toInt * r + row[1].toInt * g + row[2].toInt * b + 4096) / 8192)

/-- Stage 3: slope and offset (R122). -/
def stage3 (slope offset : BitVec 16) (w : Int) : Int :=
  saturate ((w * slope.toNat + 8192) / 16384 + offset.toInt)

/-- The table input of stage 4 (R123): W3 clamped to 0..32767. -/
def shaperInput (w : Int) : Nat := (clampInt 0 32767 w).toNat

/-- An entry of a shaper table. -/
def shaperEntry (table : Vector (BitVec 16) 65) (i : Nat) : Nat := (table.toArray.getD i 0).toNat

/-- Stage 4: the shaper table (R123). -/
def stage4 (table : Vector (BitVec 16) 65) (w : Int) : Int :=
  let u := shaperInput w
  let i := u / 512
  let f := u % 512
  let lo : Int := shaperEntry table i
  let hi : Int := shaperEntry table (i + 1)
  lo + ((hi - lo) * f + 256) / 512

/-- The quantised value of stage 5 (R124). -/
def quantised (y : Int) : Int := (y + 32) / 64

/-- The lowest output value of an output range (R124). -/
def OutputRange.low : OutputRange → Int
  | .narrow => 64
  | .full => 0

/-- The highest output value of an output range (R124). -/
def OutputRange.high : OutputRange → Int
  | .narrow => 940
  | .full => 1023

/-- Stage 5: the output value (R124). -/
def stage5 (range : OutputRange) (y : Int) : Nat := (clampInt range.low range.high (quantised y)).toNat

/-- The clamp of stage 5 changed the value (R124). -/
def clampedBy (range : OutputRange) (y : Int) : Bool := decide (clampInt range.low range.high (quantised y) ≠ quantised y)

/-- Stages 2 to 4 of one output channel: Y of R123. -/
def channelY (p : LookParams) (c : Fin 3) (r g b : Int) : Int :=
  stage4 p.shaper[c] (stage3 p.slope[c] p.offset[c] (stage2 p.matrix[c] r g b))

/-- A pixel through every stage (R119 to R124): its three output values, and its output-clamped mark. -/
def gradePixel (p : LookParams) (v : Rgb) : Rgb × Bool :=
  let r := stage1 p.black v.r
  let g := stage1 p.black v.g
  let b := stage1 p.black v.b
  let yr := channelY p 0 r g b
  let yg := channelY p 1 r g b
  let yb := channelY p 2 r g b
  (⟨stage5 p.range yr, stage5 p.range yg, stage5 p.range yb⟩,
    clampedBy p.range yr || clampedBy p.range yg || clampedBy p.range yb)

/-- The clamp fraction of a frame (R125). -/
def clampFraction (clamped graded : Nat) : Nat := clamped * 65536 / graded

/-- An output pixel as one 32-bit word (R138): R in bits 29..20, G in bits 19..10, B in bits 9..0. -/
def packPixel (v : Rgb) : List Byte := leBytes 4 (v.r * 1048576 + v.g * 1024 + v.b)

end Sys2Proof.Machine
end

