-- ==== Sys2Proof/Machine/Monitor.lean ====
section
/-!
DEFINITION. The Monitor Output: the raster and a frame's placement in it (R154), the two checks (R155, R161), the settling of a
sync (R156, R160), the monitor rate and the measuring of a pulse (R148, R149, R151), SET_MONITOR (R150), and what the Render Engine
tells it (R157, R158).
-/

namespace Sys2Proof.Machine

/-! ## The raster -/

/-- Raster black (R154). -/
def rasterBlack : Rgb := ⟨Config.rasterBlack, Config.rasterBlack, Config.rasterBlack⟩

/-- The pixel at a raster position: raster black where none is listed (R154). (DESIGN CHOICE, notes/assumptions/21.md.) -/
def Raster.read (r : Raster) (pos : Nat) : Rgb :=
  match r with
  | [] => rasterBlack
  | (q, x) :: rest => if pos = q then x else Raster.read rest pos

/-- Write the pixel at a raster position: positions stay rising and raster black is not listed. -/
def Raster.write (r : Raster) (pos : Nat) (x : Rgb) : Raster :=
  match r with
  | [] => if x = rasterBlack then [] else [(pos, x)]
  | (q, y) :: rest =>
    if pos < q then (if x = rasterBlack then (q, y) :: rest else (pos, x) :: (q, y) :: rest)
    else if pos = q then (if x = rasterBlack then rest else (pos, x) :: rest)
    else (q, y) :: Raster.write rest pos x

/-- The CRC register after `n` pixels of a raster from a position on (R155). -/
def rasterCrc : Nat → Nat → Raster → Word32 → Word32
  | 0, _, _, crc => crc
  | n + 1, pos, r, crc =>
    match r with
    | (q, x) :: rest =>
      if q = pos then rasterCrc n (pos + 1) rest (crcBytes polyHigh crc (packPixel x))
      else rasterCrc n (pos + 1) r (crcBytes polyHigh crc (packPixel rasterBlack))
    | [] => rasterCrc n (pos + 1) [] (crcBytes polyHigh crc (packPixel rasterBlack))

/-- The check of a raster (R155): the CRC of R49 over its 1920 by 1080 pixels in raster order, each as the word of R138. -/
def rasterCheck (r : Raster) : Word32 := crcFinal (rasterCrc (Config.rasterWidth * Config.rasterHeight) 0 r crcOnes)

/-- Damage to a raster after it was written (R161). (DESIGN CHOICE, notes/assumptions/34.md.) -/
def Raster.damage (r : Raster) (d : Damage) : Raster :=
  d.foldl (fun r x => if x.1 < Config.rasterWidth * Config.rasterHeight then r.write x.1 ⟨x.2.r, x.2.g, x.2.b⟩ else r) r

/-! ## Placement -/

/-- A decimated size under a factor (R154). -/
def decimated (d n : Nat) : Nat := ceilDiv n d

/-- The picture fits the raster under a factor (R154). -/
def fitsRaster (d w h : Nat) : Bool :=
  decide (decimated d w ≤ Config.rasterWidth) && decide (decimated d h ≤ Config.rasterHeight)

/-- The decimation factor of a picture (R154). -/
def decimationFactor (setting : Decimation) (w h : Nat) : Nat :=
  match setting with
  | .one => 1
  | .two => 2
  | .four => 4
  | .auto => if fitsRaster 1 w h then 1 else if fitsRaster 2 w h then 2 else 4

/-- Where a decimated extent starts in a raster extent (R154): a border, or the columns or rows that are cut, as a negative. -/
def centred (raster n : Nat) : Int := if n ≤ raster then (((raster - n) / 2 : Nat) : Int) else -(((n - raster) / 2 : Nat) : Int)

/-- A frame's placement (R154). -/
def placementOf (setting : Decimation) (w h : Nat) : Placement :=
  let d := decimationFactor setting w h
  ⟨d, centred Config.rasterWidth (decimated d w), centred Config.rasterHeight (decimated d h)⟩

/-- The raster position of the `k`-th picture pixel in raster order, when it is shown (R154). -/
def Placement.position (p : Placement) (w k : Nat) : Option Nat :=
  let x := k % w
  let y := k / w
  if x % p.factor = 0 ∧ y % p.factor = 0 then
    let col : Int := (x / p.factor : Nat) + p.column
    let row : Int := (y / p.factor : Nat) + p.row
    if 0 ≤ col ∧ col < Config.rasterWidth ∧ 0 ≤ row ∧ row < Config.rasterHeight then
      some (row.toNat * Config.rasterWidth + col.toNat)
    else none
  else none

/-- Graded pixels of a frame written to a raster, the first of them being the `k`-th of the picture (R154). -/
def Placement.fill (p : Placement) (w : Nat) : Nat → List Rgb → Raster → Raster
  | _, [], r => r
  | k, x :: xs, r =>
    match p.position w k with
    | some pos => p.fill w (k + 1) xs (r.write pos x)
    | none => p.fill w (k + 1) xs r

/-! ## The back buffer -/

/-- The back buffer holds a complete frame that has not been shown (R137, R155). -/
def Back.isReady : Back → Bool
  | .ready _ => true
  | _ => false

/-- Update the Monitor Output. -/
def Engine.updateMonitor (e : Engine) (f : MonitorOut → MonitorOut) : Engine := { e with monitor := f e.monitor }

/-- The frame that graded pixels go to: the one being FILLED by the job, or a new one in an EMPTY back buffer (R154). -/
def MonitorOut.fillingFor (m : MonitorOut) (setting : Decimation) (job : Fin 16) (clip : Handle) (card : Fin 32) (w h : Nat) :
    Option Filling :=
  match m.back with
  | .empty => some ⟨job, clip, card, w, h, placementOf setting w h, []⟩
  | .filling f => if f.job = job then some f else none
  | .ready _ => none

/-- Graded pixels of the monitor job reach the back buffer (R154); the first of them is the `k`-th of its picture. -/
def MonitorOut.writePixels (m : MonitorOut) (setting : Decimation) (job : Fin 16) (clip : Handle) (card : Fin 32)
    (w h k : Nat) (pixels : List Rgb) : MonitorOut :=
  match pixels with
  | [] => m
  | _ :: _ =>
    match m.fillingFor setting job clip card w h with
    | some f => { m with back := .filling { f with raster := f.placement.fill w k pixels f.raster }, placement := some f.placement }
    | none => m

/-- The frame being FILLED by the job is complete: the back buffer becomes READY (R155). -/
def MonitorOut.completeFrame (m : MonitorOut) (job : Fin 16) (number : Word32) (tc : Timecode) : MonitorOut :=
  match m.back with
  | .filling f =>
    if f.job = job then
      { m with back := .ready ⟨f.job, f.clip, f.card, number, tc, f.raster, rasterCheck f.raster⟩ }
    else m
  | _ => m

/-- A frame abandoned while FILLING is discarded (R155). -/
def MonitorOut.dropFilling (m : MonitorOut) (job : Fin 16) : MonitorOut :=
  match m.back with
  | .filling f => if f.job = job then { m with back := .empty } else m
  | _ => m

/-! ## The monitor rate -/

/-- The monitor rate takes a value; a change of it sets the in-window count to 0 (R149). -/
def MonitorOut.setRate (m : MonitorOut) (rate : Fin 9) (drop : Bool) : MonitorOut :=
  if m.rate = rate ∧ m.drop = drop then m else { m with rate := rate, drop := drop, inWindow := 0 }

/-- The period of the monitor rate (R148). -/
def MonitorOut.period (m : MonitorOut) : Nat := Config.period m.rate

/-- The first instant of the form `base` plus a whole number, at least `least`, of periods that is not before `time`
(R150, R153). -/
def phaseAfter (base period least time : Nat) : Nat := base + max least (ceilDiv (time - base) period) * period

/-! ## Cues -/

/-- The Render Engine tells of a new cue (R157). -/
def MonitorOut.newCue (m : MonitorOut) (setting : MonitorSettings) (job : Fin 16) (clip : Handle) (card : Fin 32) (rate : Fin 9)
    (drop : Bool) : MonitorOut :=
  let m := { m with
    cue := { job := some job, clip := some clip, card := some card, rate := some rate, drop := drop, firstShown := false,
             runFlag := false }
    back := .empty
    blanking := true }
  match setting.rate with
  | none => m.setRate rate drop
  | some _ => m

/-- The Render Engine tells of the end of a job: when it was the monitor job, the cue record loses it and a FILLING back buffer
becomes EMPTY (R158). -/
def MonitorOut.jobEnded (m : MonitorOut) (job : Fin 16) : MonitorOut :=
  if m.cue.job = some job then
    { m with
      cue := { m.cue with job := none }
      back := match m.back with | .filling _ => .empty | b => b }
  else m

/-- STOP_MONITOR on the Monitor Output (R159). -/
def MonitorOut.stop (m : MonitorOut) : MonitorOut := { m with back := .empty, cue := Cue.reset, blanking := true }

/-! ## Syncs -/

/-- The front is shown again and an under-run is counted against the job (R156). -/
def Engine.underrun (e : Engine) (j : Fin 16) : Engine :=
  let e := e.updateJob j (fun x => { x with underruns := min 65535 (x.underruns + 1) })
  if e.monitor.cue.runFlag then e
  else
    let e := e.updateMonitor (fun m => { m with cue := { m.cue with runFlag := true } })
    match e.job j with
    | some x => e.signal (Event.ofClip .monitorUnderrun x.card x.clip)
    | none => e

/-- The front buffer is settled at a sync (R156). A front that is BLACK and becomes BLACK again is still the front sent at the sync before
(R160). (DESIGN CHOICE, notes/assumptions/60.md.) -/
def Engine.settleFront (e : Engine) : Engine :=
  let m := e.monitor
  match m.back with
  | .ready p =>
    let own := decide (m.cue.job = some p.job)
    { e with monitor := { m with
      front := .picture p
      frontSent := false
      back := .empty
      blanking := false
      cue := if own then { m.cue with firstShown := true, runFlag := false } else m.cue } }
  | _ =>
    if m.blanking then
      { e with monitor := { m with
        front := .black
        frontSent := match m.front with | .black => m.frontSent | .picture _ => false
        blanking := false } }
    else
      match m.cue.job with
      | some j => if m.cue.firstShown then e.underrun j else e
      | none => e

/-- The output frame of the front, at the monitor rate (R160). -/
def MonitorOut.frame (m : MonitorOut) : OutputFrame :=
  match m.front with
  | .black =>
    { picture := false, rate := m.rate, drop := m.drop, number := none, tc := none, repeated := m.frontSent, raster := [] }
  | .picture p =>
    { picture := true, rate := m.rate, drop := m.drop, number := some p.number, tc := some p.tc, repeated := m.frontSent,
      raster := p.raster }

/-- The OUTPUT_PATH fault of a picture (R161). -/
def Picture.outputFault (p : Picture) : FaultInput := FaultInput.frame .outputPath p.clip p.card p.number p.tc

/-- The front is sent (R160, R161), as damaged by the time it leaves. -/
def Engine.sendFront (g : Settings) (e : Engine) (d : Damage) : Engine :=
  let e := e.updateMonitor (fun m =>
    match m.front with
    | .black => m
    | .picture p => { m with front := .picture { p with raster := p.raster.damage d } })
  let front := e.monitor.front
  let e := e.updateMonitor (fun m => { m with output := some m.frame, frontSent := true })
  match front with
  | .black => e
  | .picture p => if rasterCheck p.raster = p.writeCheck then e else e.raiseFault g p.outputFault

/-! ## The reference checker -/

/-- A pulse is in window (R151). -/
def MonitorOut.pulseInWindow (m : MonitorOut) (time : Nat) : Bool :=
  match m.prevPulse with
  | some p =>
    let difference : Int := (time : Int) - p - m.period
    decide (difference.natAbs * 1000 < m.period)
  | none => false

/-- The moment the second expected period after the last good pulse expires (R153). -/
def MonitorOut.expiry (m : MonitorOut) : Nat := m.lastGood.getD 0 + 2 * m.period

/-! ## SET_MONITOR -/

/-- The rate setting takes a value (R149, R150). -/
def MonitorOut.takeRate (m : MonitorOut) (old new : Option (Fin 9)) : MonitorOut :=
  if old = new then m
  else
    match new with
    | some r => m.setRate r false
    | none =>
      match m.cue.job, m.cue.rate with
      | some _, some r => m.setRate r m.cue.drop
      | _, _ => m

/-- The reference setting takes a value at a time (R150). -/
def MonitorOut.takeReference (m : MonitorOut) (old new : Reference) (time : Nat) : MonitorOut :=
  match old, new with
  | .internal, .external => { m with checker := .unlocked, inWindow := 0, prevPulse := none, lastGood := none }
  | .external, .internal =>
    match m.checker, m.lastSync with
    | .locked, some t => { m with checker := .off, nextSync := phaseAfter t m.period 1 time }
    | _, _ => { m with checker := .off }
  | .internal, .internal => m
  | .external, .external => m

end Sys2Proof.Machine
end

