-- ==== Sys2Proof/Machine/Looks.lean ====
section
/-!
DEFINITION. The Look Store's work on clips: staleness (R117), the binding rules (R115) and the look snapshot (R111).
-/

namespace Sys2Proof.Machine

/-- CLIP_STALE for a clip that is CURRENT (R117): it keeps its rendered slot and version. -/
def Engine.makeStale (e : Engine) (h : Handle) : Engine :=
  match e.clipAt h with
  | some c =>
    if c.renderState = .current then
      (e.updateClip h (fun c => { c with renderState := .stale })).signal (Event.ofClip .clipStale c.card h)
    else e
  | none => e

/-- The slot a clip was rendered with (R144). -/
def Clip.renderedSlot (c : Clip) : Option (Fin 32) := c.rendered.map (·.1)

/-- Every clip CURRENT with the slot as its rendered slot becomes STALE, in ascending clip slot (R108, R109, R117). -/
def Engine.staleSlot (e : Engine) (slot : Fin 32) : Engine :=
  (e.allClips.filter (fun c => decide (c.renderedSlot = some slot))).foldl (fun e c => e.makeStale c.handle) e

/-- A clip's binding is replaced. When that changes the bound slot of a clip from the slot it was rendered with, or unbinds
it, a CURRENT clip becomes STALE (R115, R116, R117). -/
def Engine.bind (e : Engine) (h : Handle) (b : Binding) : Engine :=
  match e.clipAt h with
  | some c =>
    let e := e.updateClip h (fun c => { c with binding := b })
    if b.slot = none ∨ b.slot ≠ c.renderedSlot then e.makeStale h else e
  | none => e

/-- A rule matches a header (R113). -/
def BindingRule.matches (r : BindingRule) (camera : Byte) (reel : Nat) : Bool :=
  r.enabled && (match r.camera with | none => true | some c => decide (c = camera)) &&
    decide (r.reelLow ≤ reel) && decide (reel ≤ r.reelHigh)

/-- The rules applied to a clip whose header valid flag has become set from clear (R115). -/
def Engine.applyRules (g : Settings) (e : Engine) (h : Handle) (camera : Byte) (reel : Nat) : Engine :=
  match e.clipAt h with
  | some c =>
    if c.binding.origin = some .explicit then e
    else
      match g.rules.toList.find? (·.matches camera reel) with
      | some r => e.bind h ⟨some r.look, some .rule⟩
      | none => e
  | none => e

/-- The bound slot of a clip, when it is bound and the slot is not empty (R111, R131): the slot, its version and its parameters. -/
def Clip.boundLook (g : Settings) (c : Clip) : Option Snapshot :=
  match c.binding.slot with
  | some s =>
    let x := g.looks[s]
    match x.look with
    | some (_, p) => if x.version = 0 then none else some ⟨s, x.version, p⟩
    | none => none
  | none => none

/-- The look snapshot of a clip, or NO_LOOK (R111). -/
def Engine.lookSnapshot (g : Settings) (e : Engine) (h : Handle) : Option Snapshot := (e.clipAt h).bind (Clip.boundLook g)

end Sys2Proof.Machine
end

