-- ==== Sys2Proof/Machine/TakeFile.lean ====
section
/-!
DEFINITION. The take-file format (R42 to R48), read alike by the Take Parser and the render contexts: the chunk head, the
header, the size of a frame, its prefix and its pixels.
-/

namespace Sys2Proof.Machine

/-- The tag of a take header chunk. -/
def tagTkhd : Text := ascii "TKHD"
/-- The tag of a frame chunk. -/
def tagFram : Text := ascii "FRAM"

/-- The number of `n` bytes at an offset of a payload, little-endian (section 3.1). -/
def field (bs : List Byte) (offset n : Nat) : Nat := leValue ((bs.drop offset).take n)

/-- The payload length that a chunk head gives (section 3.1). -/
def headLength (head : List Byte) : Nat := field head 4 4

/-- The tag that a chunk head gives. -/
def headTag (head : List Byte) : Text := head.take 4

/-! ## The header -/

/-- The bytes a TKHD of a version is read for (R43). -/
def headerSize (version : Nat) : Nat := if version = 1 then 25 else 29

/-- The rate code of a header, when it is one (R44). -/
def rateField (bs : List Byte) : Option (Fin 9) := if h : field bs 22 1 < 9 then some ⟨field bs 22 1, h⟩ else none

/-- The drop-frame flag of a header, when it is accepted at the rate (R44). -/
def dropField (rate : Fin 9) (bs : List Byte) : Option Bool :=
  if field bs 23 1 = 0 then some false
  else if field bs 23 1 = 1 ∧ Config.dropAllowed rate = true then some true
  else none

/-- The bit depth of a header, when it is accepted (R44). -/
def depthField (bs : List Byte) : Option Depth :=
  if field bs 24 1 = 10 then some .ten else if field bs 24 1 = 12 then some .twelve else none

/-- The declared frame count of a header (R43): absent in version 1, and when it is 0. -/
def declaredField (version : Nat) (bs : List Byte) : Option Nat :=
  if version = 1 ∨ field bs 25 4 = 0 then none else some (field bs 25 4)

/-- The start timecode of a header: its ff byte is judged whole (R44). -/
def startField (bs : List Byte) : Timecode := ⟨field bs 8 1, field bs 9 1, field bs 10 1, field bs 11 1, false⟩

/-- The fields of a TKHD that is long enough, when every one is accepted (R44). -/
def headerFields (version : Nat) (bs : List Byte) : Option Header :=
  match rateField bs, depthField bs with
  | some rate, some depth =>
    match dropField rate bs with
    | some drop =>
      let reel := field bs 2 2
      let width := field bs 4 2
      let height := field bs 6 2
      let start := startField bs
      let scene := (bs.drop 12).take 8
      let camera := field bs 20 1
      let take := field bs 21 1
      if 1 ≤ reel ∧ reel ≤ 999 ∧ 16 ≤ width ∧ width ≤ 8192 ∧ 16 ≤ height ∧ height ≤ 4320 ∧
          scene.all (fun b => decide (0x20 ≤ b.toNat) && decide (b.toNat ≤ 0x7E)) = true ∧
          0x41 ≤ camera ∧ camera ≤ 0x5A ∧ 1 ≤ take ∧ take ≤ 99 ∧ labelValid rate drop start = true then
        some { camera := BitVec.ofNat 8 camera, reel := reel, scene := scene, take := take, rate := rate, drop := drop,
               width := width, height := height, depth := depth, declared := declaredField version bs, start := start }
      else none
    | none => none
  | _, _ => none

/-- A TKHD payload read by its version: its header, or the cause of BAD_HEADER (R43, R44). -/
def readHeader (bs : List Byte) : Except Nat Header :=
  if bs.length < 2 then .error 2
  else
    let version := field bs 0 2
    if version = 0 then .error 1
    else if bs.length < headerSize version then .error 2
    else
      match headerFields version bs with
      | some h => .ok h
      | none => .error 3

/-- How many bytes of a TKHD payload are ever read (R43). -/
def headerRead : Nat := 29

/-! ## Frames and pixels -/

/-- Bytes of one stored pixel (section 3.1). -/
def Depth.bytes : Depth → Nat
  | .ten => 4
  | .twelve => 6

/-- The bytes of the prefix of a FRAM payload (section 3.1). -/
def framePrefix : Nat := 12

/-- The expected length of a FRAM payload under a header (R46). -/
def Header.frameLength (h : Header) : Nat := framePrefix + h.width * h.height * h.depth.bytes

/-- The frame number in a frame prefix. -/
def prefixNumber (pre : List Byte) : Word32 := BitVec.ofNat 32 (field pre 0 4)

/-- The timecode in a frame prefix, with its drop-frame mark (R56). -/
def prefixTimecode (pre : List Byte) : Timecode :=
  let ff := field pre 7 1
  ⟨field pre 4 1, field pre 5 1, field pre 6 1, ff % 128, decide (128 ≤ ff)⟩

/-- The frame check carried in a frame prefix. -/
def prefixCheck (pre : List Byte) : Word32 := BitVec.ofNat 32 (field pre 8 4)

/-- A stored pixel decoded to the 12-bit scale, and whether it is a bad pixel word (R47, R48). -/
def decodePixel (d : Depth) (bs : List Byte) : Rgb × Bool :=
  match d with
  | .twelve =>
    let r := field bs 0 2
    let g := field bs 2 2
    let b := field bs 4 2
    (⟨r % 4096, g % 4096, b % 4096⟩, decide (4096 ≤ r) || decide (4096 ≤ g) || decide (4096 ≤ b))
  | .ten =>
    let w := field bs 0 4
    (⟨w / 1048576 % 1024 * 4, w / 1024 % 1024 * 4, w % 1024 * 4⟩, decide (1073741824 ≤ w))

/-- Pixels decoded from bytes, `n` of them at most, with the bytes that make no whole pixel left over. -/
def decodePixels (d : Depth) : Nat → List Byte → List Rgb × List Byte
  | 0, bs => ([], bs)
  | n + 1, bs =>
    if bs.length < d.bytes then ([], bs)
    else
      let (px, rest) := decodePixels d n (bs.drop d.bytes)
      ((decodePixel d (bs.take d.bytes)).1 :: px, rest)

/-! ## The Take Parser -/

/-- What the walk of a parse shows as the bytes pass (R45, R46, R51, R55, R56, R58, R60). -/
inductive ParseOut where
  /-- The header outcome VALID. -/
  | headerValid (h : Header)
  /-- The header outcome INVALID, with the cause of BAD_HEADER. -/
  | headerInvalid (cause : Nat)
  /-- TRUNCATED_CHUNK, with the bytes past the take end. -/
  | truncated (past : Nat)
  /-- FRAME_SIZE, with the payload length minus the expected one. -/
  | frameSize (difference : Int)
  /-- The prefix of a frame that failed the size check. -/
  | sizePrefix (number : Word32) (tc : Timecode)
  /-- A frame that passed the size check: number, timecode, carried and computed check, bad pixel words, decoded pixels, the
  header and the previous frame of the parse. -/
  | frame (number : Word32) (tc : Timecode) (carried computed : Word32) (bad : Nat) (pixels : List Rgb) (header : Header)
      (previous : Option PrevFrame)
  /-- The take end, with the declared count of the parse header. -/
  | takeEnd (declared : Option Nat)
deriving DecidableEq, Repr

/-- The frame in progress as a chunk begins (R54). -/
def FrameInProgress.empty : FrameInProgress := ⟨[], crcOnes, 0, [], []⟩

/-- A parse as it starts (R53, R54). -/
def Parse.start (clip : Handle) (card : Fin 32) (byteLength : Nat) : Parse :=
  { clip := clip, card := card, byteLength := byteLength, walk := .chunkHead, offset := 0, chunkIndex := 0, left := 0,
    head := [], body := [], header := none, outcome := .pending, badRaised := false,
    frame := FrameInProgress.empty, awaitsPrefix := false, previous := none }

/-- The header outcome INVALID with a cause (R55, R57: once in a parse). -/
def Parse.badHeader (p : Parse) (cause : Nat) : Parse × List ParseOut :=
  ({ p with header := none, outcome := .invalid, badRaised := true }, if p.badRaised then [] else [.headerInvalid cause])

/-- The walk stands at a chunk boundary: the take end when the offset is the byte length (R42), a truncated chunk when fewer
than 8 bytes remain (R51), else the next chunk head. -/
def Parse.boundary (p : Parse) : Parse × List ParseOut :=
  let p := { p with walk := .chunkHead, head := [], left := 0, frame := FrameInProgress.empty, awaitsPrefix := false }
  let remaining := p.byteLength - p.offset
  if remaining = 0 ∨ 8 ≤ remaining then (p, []) else ({ p with walk := .ended }, [.truncated (8 - remaining)])

/-- A payload has completed (R54, R55, R56). -/
def Parse.payloadEnd (p : Parse) : Parse × List ParseOut :=
  match p.walk with
  | .headerBody =>
    match readHeader p.body with
    | .ok h =>
      let (q, outs) := { p with header := some h, outcome := .valid }.boundary
      (q, .headerValid h :: outs)
    | .error cause =>
      let (q, bad) := p.badHeader cause
      let (q, outs) := q.boundary
      (q, bad ++ outs)
  | .frameBody =>
    match p.header with
    | some h =>
      let pre := p.frame.prefixBytes
      let check := crcFinal p.frame.crc
      let prev : PrevFrame := ⟨prefixNumber pre, prefixTimecode pre, check⟩
      let (q, outs) := { p with previous := some prev }.boundary
      (q, .frame prev.number prev.tc (prefixCheck pre) check p.frame.bad p.frame.pixels.reverse h p.previous :: outs)
    | none => p.boundary
  | _ => p.boundary

/-- A chunk passes into a walk state with its payload still to come; one of payload length 0 completes at once (R54). -/
def Parse.enter (p : Parse) (walk : WalkState) (length : Nat) : Parse × List ParseOut :=
  let p := { p with walk := walk, left := length, body := [] }
  if length = 0 then p.payloadEnd else (p, [])

/-- The eighth byte of a chunk head has been taken: the chunk is dispatched (R54). Where the head of the first chunk shows another tag than
TKHD and passes the take end too, BAD_HEADER is raised before TRUNCATED_CHUNK. (DESIGN CHOICE, notes/assumptions/63.md.) -/
def Parse.dispatch (p : Parse) (head : List Byte) : Parse × List ParseOut :=
  let tag := headTag head
  let length := headLength head
  let first := decide (p.chunkIndex = 0)
  let p := { p with chunkIndex := p.chunkIndex + 1, head := [] }
  let (p, bad) := if first && decide (tag ≠ tagTkhd) then p.badHeader 4 else (p, [])
  if p.byteLength < p.offset + length then
    ({ p with walk := .ended }, bad ++ [.truncated (p.offset + length - p.byteLength)])
  else if first && decide (tag = tagTkhd) then p.enter .headerBody length
  else
    match p.header with
    | some h =>
      if tag = tagFram then
        if length = h.frameLength then p.enter .frameBody length
        else
          let p := { p with awaitsPrefix := decide (framePrefix ≤ length) }
          let (q, outs) := p.enter .skipping length
          (q, .frameSize ((length : Int) - h.frameLength) :: outs)
      else p.enter .skipping length
    | none =>
      let (q, outs) := p.enter .skipping length
      (q, bad ++ outs)

/-- A byte of a frame that passed the size check (R47 to R49). -/
def FrameInProgress.feed (f : FrameInProgress) (d : Depth) (b : Byte) : FrameInProgress :=
  if f.prefixBytes.length < framePrefix then { f with prefixBytes := f.prefixBytes ++ [b] }
  else
    let f := { f with crc := crcByte polyHigh f.crc b }
    let bs := f.pixelBytes ++ [b]
    if bs.length < d.bytes then { f with pixelBytes := bs }
    else
      let (px, bad) := decodePixel d bs
      { f with pixelBytes := [], pixels := px :: f.pixels, bad := f.bad + if bad then 1 else 0 }

/-- A payload byte, before the payload is tested for its end (R54). -/
def Parse.payloadByte (p : Parse) (b : Byte) : Parse × List ParseOut :=
  match p.walk with
  | .headerBody => ({ p with body := if p.body.length < headerRead then p.body ++ [b] else p.body }, [])
  | .frameBody =>
    match p.header with
    | some h => ({ p with frame := p.frame.feed h.depth b }, [])
    | none => (p, [])
  | .skipping =>
    if p.awaitsPrefix then
      let pre := p.frame.prefixBytes ++ [b]
      if pre.length < framePrefix then ({ p with frame := { p.frame with prefixBytes := pre } }, [])
      else ({ p with awaitsPrefix := false }, [.sizePrefix (prefixNumber pre) (prefixTimecode pre)])
    else (p, [])
  | _ => (p, [])

/-- The take end is reached when the offset is the byte length (R58). -/
def Parse.finish (p : Parse) (outs : List ParseOut) : Parse × List ParseOut :=
  if p.offset = p.byteLength then
    let declared := p.header.bind (·.declared)
    match p.outcome with
    | .pending =>
      let (q, bad) := p.badHeader 5
      (q, outs ++ bad ++ [.takeEnd none])
    | _ => (p, outs ++ [.takeEnd declared])
  else (p, outs)

/-- The walk as one byte of the take arrives (R54). (DEDUCED, notes/assumptions/15.md.) -/
def Parse.byte (p : Parse) (b : Byte) : Parse × List ParseOut :=
  let (p, opening) := if p.offset = 0 then p.boundary else (p, [])
  let p := { p with offset := p.offset + 1 }
  let (q, outs) :=
    match p.walk with
    | .chunkHead =>
      let head := p.head ++ [b]
      if head.length < 8 then ({ p with head := head }, []) else p.dispatch head
    | .ended => (p, [])
    | _ =>
      let (p, outs) := p.payloadByte b
      let p := { p with left := p.left - 1 }
      if p.left = 0 then
        let (q, more) := p.payloadEnd
        (q, outs ++ more)
      else (p, outs)
  q.finish (opening ++ outs)

/-- The walk as a block of bytes arrives. -/
def Parse.block (p : Parse) : List Byte → Parse × List ParseOut
  | [] => (p, [])
  | b :: bs =>
    let (q, outs) := p.byte b
    let (r, more) := q.block bs
    (r, outs ++ more)

end Sys2Proof.Machine
end

