-- ==== Sys2Proof/Machine/Scanner.lean ====
section
/-!
DEFINITION. The Fault Scanner's judgements: frame reports (R164, R165, R168), take-end reports (R166), the sampler (R169 to
R171) and clamp reports (R172); and what the Take Parser's findings do (R53, R55, R56, R58, R60).
-/

namespace Sys2Proof.Machine

/-! ## Frame reports -/

/-- A frame report (R56). -/
structure FrameReport where
  clip     : Handle
  card     : Fin 32
  lane     : Fin 2
  number   : Word32
  tc       : Timecode
  check    : Word32
  rate     : Fin 9
  drop     : Bool
  previous : Option PrevFrame
deriving DecidableEq, Repr

/-- A fault of the frame of a report. -/
def FrameReport.fault (x : FrameReport) (kind : FaultKind) (measured : Option Int) : FaultInput :=
  { FaultInput.frame kind x.clip x.card x.number x.tc with measured := measured }

/-- The frame-number judgement (R164). -/
def Engine.judgeNumber (g : Settings) (e : Engine) (x : FrameReport) : Engine :=
  match x.previous with
  | some p =>
    let expected := p.number + 1
    if x.number = expected then e else e.raiseFault g (x.fault .frameNumber (some (x.number - expected).toInt))
  | none => e

/-- The timecode judgement (R168): an invalid label, or a jump that is not 0. -/
def FrameReport.timecodeBreak (x : FrameReport) : Option (Option Int) :=
  match x.previous with
  | some p =>
    if labelValid x.rate x.drop x.tc then
      if labelValid x.rate x.drop p.tc then
        let jump := labelJump x.rate x.drop p.tc x.tc
        if jump = 0 then none else some (some jump)
      else none
    else some none
  | none => none

/-- TC_BREAK raised where the timecode judgement finds it (R168). -/
def Engine.judgeTimecode (g : Settings) (e : Engine) (x : FrameReport) : Engine :=
  match x.timecodeBreak with
  | some measured => e.raiseFault g (x.fault .tcBreak measured)
  | none => e

/-- Update a lane's scan context. -/
def Engine.updateScan (e : Engine) (l : Fin 2) (f : ScanContext → ScanContext) : Engine :=
  { e with scans := e.scans.set l (f e.scans[l]) }

/-- The frozen run of a scan context after a frame (R165). -/
def ScanContext.frozenAfter (s : ScanContext) (x : FrameReport) : ScanContext :=
  if (x.previous.map (·.check)) = some x.check then { s with frozenCount := min 255 (s.frozenCount + 1) }
  else { s with frozenCount := 1, frozenStart := some (x.number, x.tc), frozenRaised := false }

/-- The frozen-picture judgement (R165). -/
def Engine.judgeFrozen (g : Settings) (e : Engine) (x : FrameReport) : Engine :=
  let s := (e.scans[x.lane]).frozenAfter x
  if g.profile.frozenRun ≤ s.frozenCount ∧ s.frozenRaised = false then
    let f := { FaultInput.bare .frozen x.clip x.card with
      first := s.frozenStart.map (·.1), last := some x.number, tc := s.frozenStart.map (·.2) }
    (e.updateScan x.lane (fun _ => { s with frozenRaised := true })).raiseFault g f
  else e.updateScan x.lane (fun _ => s)

/-- A frame report judged (R164, R165, R168): its number, its timecode, its picture, in this order.
(DESIGN CHOICE, notes/assumptions/50.md.) -/
def Engine.judgeReport (g : Settings) (e : Engine) (x : FrameReport) : Engine :=
  ((e.judgeNumber g x).judgeTimecode g x).judgeFrozen g x

/-- A take-end report judged (R166). -/
def Engine.judgeTakeEnd (g : Settings) (e : Engine) (clip : Handle) (card : Fin 32) (observed : Nat) (declared : Option Nat) :
    Engine :=
  match declared with
  | some n =>
    if observed = n then e
    else e.raiseFault g { FaultInput.bare .countMismatch clip card with measured := some (limitMeasured ((observed : Int) - n)) }
  | none => e

/-! ## The sampler -/

/-- The largest value of a 32-bit count. -/
def countTop : Nat := 4294967295

/-- A count of a clip, one more and saturating (R56, R169). -/
def bump (n : Nat) : Nat := min countTop (n + 1)

/-- A frame picture arrives from a lane (R169). -/
def Engine.framePicture (g : Settings) (e : Engine) (x : FrameReport) (width height : Nat) (pixels : List Rgb) : Engine :=
  match e.sampler[x.lane] with
  | none =>
    let f : PendingFrame :=
      { clip := x.clip, card := x.card, number := x.number, tc := x.tc, width := width, height := height, pixels := pixels,
        stride := g.profile.stride, threshold := g.profile.clipThreshold, parse := (e.scans[x.lane]).parse }
    { e with sampler := e.sampler.set x.lane (some f) }.updateClip x.clip (fun c => { c with sampled := bump c.sampled })
  | some _ => e.updateClip x.clip (fun c => { c with skipped := bump c.skipped })

/-- Every `s`-th pixel of a picture from raster position 0 (R170): `k` counts the pixels still to pass over. -/
def everyNth (s : Nat) : Nat → List Rgb → List Rgb
  | _, [] => []
  | 0, x :: xs => x :: everyNth s (s - 1) xs
  | k + 1, _ :: xs => everyNth s k xs

/-- The luma of a pixel (R170). -/
def luma (x : Rgb) : Nat := (218 * x.r + 732 * x.g + 74 * x.b + 512) / 1024

/-- A pixel is clipped (R170). -/
def clippedAt (threshold : Nat) (x : Rgb) : Bool := decide (threshold ≤ max x.r (max x.g x.b))

/-- The samples of a pending frame (R170). -/
def PendingFrame.samples (f : PendingFrame) : List Rgb := everyNth f.stride 0 (f.pixels.take (f.width * f.height))

/-- The clip fraction of a pending frame (R170). -/
def PendingFrame.clipFraction (f : PendingFrame) : Nat :=
  (f.samples.filter (clippedAt f.threshold)).length * 65536 / f.samples.length

/-- The average luma of a pending frame (R170). -/
def PendingFrame.averageLuma (f : PendingFrame) : Nat := (f.samples.map luma).sum / f.samples.length

/-- The black run of a scan context after a sampled frame (R171). -/
def ScanContext.blackAfter (s : ScanContext) (limit average : Nat) (number : Word32) (tc : Timecode) : ScanContext :=
  if average < limit then
    { s with
      blackCount := min 255 (s.blackCount + 1)
      blackStart := if s.blackCount = 0 then some (number, tc) else s.blackStart }
  else { s with blackCount := 0, blackStart := none, blackRaised := false }

/-- The SENSOR_CLIP judgement of a sampled frame (R171, step 1). -/
def Engine.judgeClip (g : Settings) (e : Engine) (f : PendingFrame) : Engine :=
  if g.profile.clipLimit < f.clipFraction then
    e.raiseFault g { FaultInput.frame .sensorClip f.clip f.card f.number f.tc with measured := some (f.clipFraction : Int) }
  else e

/-- The BLACK judgement of a sampled frame (R171, steps 2 and 3). -/
def Engine.judgeBlack (g : Settings) (e : Engine) (l : Fin 2) (f : PendingFrame) : Engine :=
  if (e.scans[l]).parse = f.parse then
    let s := (e.scans[l]).blackAfter g.profile.blackLimit f.averageLuma f.number f.tc
    if g.profile.blackRun ≤ s.blackCount ∧ s.blackRaised = false then
      let fault := { FaultInput.bare .black f.clip f.card with
        first := s.blackStart.map (·.1), last := some f.number, tc := s.blackStart.map (·.2),
        measured := some (f.averageLuma : Int) }
      (e.updateScan l (fun _ => { s with blackRaised := true })).raiseFault g fault
    else e.updateScan l (fun _ => s)
  else e

/-- The sampler completes the frame of a lane's pending slot (R169, R171). -/
def Engine.sampleComplete (g : Settings) (e : Engine) (l : Fin 2) : Engine :=
  match e.sampler[l] with
  | some f =>
    let e := { e with sampler := e.sampler.set l none }
    match e.clipAt f.clip with
    | some _ => (e.judgeClip g f).judgeBlack g l f
    | none => e
  | none => e

/-- A clamp report from the Grade Pipeline (R125, R172). -/
def Engine.clampReport (g : Settings) (e : Engine) (f : PipelineFrame) : Engine :=
  let fraction := clampFraction f.clamped f.graded
  if g.profile.gradeClampLimit < fraction then
    e.raiseFault g { FaultInput.frame .gradeClamp f.clip f.card f.number f.tc with measured := some (fraction : Int) }
  else e

/-! ## The Take Parser's findings -/

/-- The header outcome VALID is written to the clip (R55); a flag that was clear hands the clip to the binding rules (R115). -/
def Engine.headerValid (g : Settings) (e : Engine) (clip : Handle) (h : Header) : Engine :=
  match e.clipAt clip with
  | some c =>
    let e := e.updateClip clip (fun c => { c with header := some h })
    if c.header.isSome then e else e.applyRules g clip h.camera h.reel
  | none => e

/-- The header outcome INVALID: BAD_HEADER with its cause, and the clip's header becomes absent (R55). -/
def Engine.headerInvalid (g : Settings) (e : Engine) (clip : Handle) (card : Fin 32) (cause : Nat) : Engine :=
  (e.raiseFault g { FaultInput.bare .badHeader clip card with measured := some (cause : Int) }).updateClip clip
    (fun c => { c with header := none })

/-- A frame that passed the size check is counted, and its timecode observed (R56). -/
def Clip.observe (c : Clip) (tc : Timecode) : Clip :=
  { c with observed := bump c.observed, lastTc := some tc, firstTc := c.firstTc.or (some tc) }

/-- A frame that passed the size check (R56): the parser's faults, the frame report and the frame picture. PIXEL_WORD reaches the fault
list before FRAME_CHECK, and both before what the report's judgements raise. (DESIGN CHOICE, notes/assumptions/63.md.) -/
def Engine.parsedFrame (g : Settings) (e : Engine) (x : FrameReport) (carried : Word32) (bad width height : Nat)
    (pixels : List Rgb) : Engine :=
  let e := e.updateClip x.clip (fun c => c.observe x.tc)
  let e := if bad = 0 then e else e.raiseFault g (x.fault .pixelWord (some (bad : Int)))
  let e := if x.check = carried then e else e.raiseFault g (x.fault .frameCheck none)
  (e.judgeReport g x).framePicture g x width height pixels

/-- One finding of a lane's parse takes effect (R55, R56, R58, R60). -/
def Engine.parseOut (g : Settings) (l : Fin 2) (clip : Handle) (card : Fin 32) (e : Engine) (out : ParseOut) : Engine :=
  match out with
  | .headerValid h => e.headerValid g clip h
  | .headerInvalid cause => e.headerInvalid g clip card cause
  | .truncated past =>
    e.raiseFault g { FaultInput.bare .truncatedChunk clip card with measured := some (limitMeasured past) }
  | .frameSize difference =>
    let f := { FaultInput.bare .frameSize clip card with measured := some (limitMeasured difference) }
    let e := e.raiseFault g f
    e.updateLane l (fun r => { r with sizeFault := e.faultSerialOf f })
  | .sizePrefix number tc =>
    (e.completeFault ((e.laneRun l).bind (·.sizeFault)) number tc).updateLane l (fun r => { r with sizeFault := none })
  | .frame number tc carried computed bad pixels h previous =>
    e.parsedFrame g ⟨clip, card, l, number, tc, computed, h.rate, h.drop, previous⟩ carried bad h.width h.height pixels
  | .takeEnd declared =>
    let observed := ((e.clipAt clip).map (·.observed)).getD 0
    (e.judgeTakeEnd g clip card observed declared).updateLane l (fun r => { r with parse := none, sizeFault := none })

/-- A parse, moved on by the bytes that have arrived, and its findings. -/
def Engine.applyParse (g : Settings) (e : Engine) (l : Fin 2) (p : Parse) (outs : List ParseOut) : Engine :=
  outs.foldl (Engine.parseOut g l p.clip p.card) (e.updateLane l (fun r => { r with parse := some p }))

/-- A block of take bytes reaches the lane's parser (R54). No completion of the sampler falls between two frames of one block, so of the
frames that complete in it only the first can enter the lane's pending slot, and each later one is skipped.
(DESIGN CHOICE, notes/assumptions/35.md.) -/
def Engine.feedParser (g : Settings) (e : Engine) (l : Fin 2) (bytes : List Byte) : Engine :=
  match (e.laneRun l).bind (·.parse) with
  | some p =>
    let (q, outs) := p.block bytes
    e.applyParse g l q outs
  | none => e

/-- A parse starts for the clip of a card-sourced COPY (R53, R163): the clip's observed fields and counts and the lane's scan
context are reset. A take of byte length 0 reaches its take end at once. -/
def Engine.startParse (g : Settings) (e : Engine) (l : Fin 2) (c : Clip) : Engine :=
  let e := e.updateClip c.handle (fun c => { c with observed := 0, firstTc := none, lastTc := none, sampled := 0, skipped := 0 })
  let e := e.updateScan l (fun s =>
    { ScanContext.reset with parse := s.parse + 1, clip := some c.handle, card := some c.card })
  let (p, outs) := (Parse.start c.handle c.card c.byteLength).finish []
  e.applyParse g l p outs

end Sys2Proof.Machine
end

