-- ==== Sys2Proof/Machine/Render.lean ====
section
/-!
DEFINITION. The Render Engine: render sources and ranges (R129, R130), the ends of jobs and render states (R128, R144), cancels
and suspensions (R133, R142), contexts and their grants (R134, R135), the walk of a source (R136), the pipeline's arbiter
(R137), delivery (R138, R139), and failures (R140). A context does what it can until it waits for an answer, for the
pipeline or for the back buffer; `Engine.drive` repeats that for both contexts.
-/

namespace Sys2Proof.Machine

/-! ## Sources and ranges -/

/-- The render source of a clip: the port and the volume entry (R130). -/
def Engine.renderSource (e : Engine) (h : Handle) : Option (Fin 4 × Fin 16) :=
  (List.finRange 4).findSome? (fun p =>
    match e.entryAt p with
    | some v =>
      match (e.clipAt h).bind (·.copyOn v) with
      | some r => if r.state = .written ∨ r.state = .verified then some (p, v) else none
      | none => none
    | none => none)

/-- A frame position lies in a range, for a job that has met no frame in range yet (R136). -/
def rangeOpens (r : Range) (position : Nat) (tc : Timecode) : Bool :=
  match r with
  | .whole => true
  | .frames first _ => decide (first ≤ position)
  | .timecode inPoint _ => sameLabel tc inPoint

/-- A frame is in range for a job (R136). -/
def Job.inRange (j : Job) (position : Nat) (tc : Timecode) : Bool :=
  match j.nextFrame with
  | some n => decide (n ≤ position)
  | none => rangeOpens j.range position tc

/-- A delivered frame ends its range (R139). -/
def rangeEnds (r : Range) (position : Nat) (tc : Timecode) : Bool :=
  match r with
  | .whole => false
  | .frames _ last => decide (last ≤ position)
  | .timecode _ outPoint => sameLabel tc outPoint

/-! ## The ends of jobs -/

/-- The rendered slot and version of a clip after the end of a proxy job (R144). -/
def renderedAfter (old : Option (Fin 32 × Nat)) (j : Job) (x : JobEnd) : Option (Fin 32 × Nat) :=
  match j.snapshot with
  | some s =>
    match x with
    | .done => some (s.slot, s.version)
    | _ => if j.proxy.isSome ∧ old = some (s.slot, s.version) then none else old
  | none => old

/-- A clip's rendered slot and version equal its binding and that slot's version (R144). -/
def renderCurrent (g : Settings) (c : Clip) (rendered : Fin 32 × Nat) : Bool :=
  decide (c.binding.slot = some rendered.1) && decide ((g.looks[rendered.1]).version = rendered.2)

/-- The render state of a clip from the end of its last proxy job (R144). -/
def renderStateAfter (g : Settings) (c : Clip) (rendered : Option (Fin 32 × Nat)) (x : JobEnd) : RenderState :=
  match x with
  | .failed _ => .failed
  | _ =>
    match rendered with
    | some r => if renderCurrent g c r then .current else .stale
    | none => .unrendered

/-- A proxy job naming the clip is in the queue (R144). -/
def Engine.hasProxyJob (e : Engine) (h : Handle) : Bool := e.jobs.any (fun j => j.isProxy && decide (j.clip = h))

/-- The render state of the clip of a proxy job that has just ended and been removed (R144). -/
def Engine.updateRenderState (g : Settings) (e : Engine) (j : Job) (x : JobEnd) : Engine :=
  match e.clipAt j.clip with
  | some c =>
    let rendered := renderedAfter c.rendered j x
    let state := if e.hasProxyJob j.clip then .queued else renderStateAfter g c rendered x
    let e := e.updateClip j.clip (fun c => { c with rendered := rendered, renderState := state })
    if state = .stale then e.signal (Event.ofClip .clipStale j.card j.clip) else e
  | none => e

/-- RENDER_DONE or RENDER_FAILED of a job (R128). -/
def Job.endEvent (j : Job) (x : JobEnd) : Event :=
  { Event.ofClip (match x with | .done => .renderDone | _ => .renderFailed) j.card j.clip with
    render := some ⟨j.slot, j.outputs, x, j.station, j.snapshot.map (fun s => (s.slot, s.version))⟩ }

/-- A context's job has ended or been suspended: a frame in the pipeline is abandoned (R126), what waits is withdrawn, and the
context is IDLE, or DRAINING while one of its operations is in flight (R134). -/
def Engine.releaseContext (e : Engine) (c : Fin 2) : Engine :=
  let e := match e.pipeline with
    | some f => if f.context = c then { e with pipeline := none } else e
    | none => e
  let e := e.withdraw (.context c)
  e.setContextState c (if e.inFlight (.context c) then .draining else .idle)

/-- A job ends (R128): it is removed, its clip's render state is updated, the Monitor Output is told, its context is released
and its claim lapses, and its end is signaled. -/
def Engine.endJob (g : Settings) (e : Engine) (j : Fin 16) (x : JobEnd) : Engine :=
  match e.job j with
  | some job =>
    let context := e.contextOf j
    let claim := e.claimOf j
    let e := { e with jobs := e.jobs.filter (fun y => decide (y.slot ≠ j)) }
    let e := if job.isProxy then e.updateRenderState g job x else e
    let e := e.updateMonitor (fun m => (m.dropFilling j).jobEnded j)
    let e := match context with | some c => e.releaseContext c | none => e
    let e := match claim with | some c => e.setClaim c none | none => e
    e.signal (job.endEvent x)
  | none => e

/-- The job of a context ends. -/
def Engine.endContextJob (g : Settings) (e : Engine) (c : Fin 2) (x : JobEnd) : Engine :=
  match e.contextRun c with
  | some (j, _) => e.endJob g j x
  | none => e

/-- The job of a context ends FAILED with a cause. -/
def Engine.failContext (g : Settings) (e : Engine) (c : Fin 2) (cause : EndCause) : Engine := e.endContextJob g c (.failed cause)

/-- A context is inside a frame (R137). -/
def Engine.insideFrame (e : Engine) (c : Fin 2) : Bool := ((e.contextRun c).map (fun x => x.2.insideFrame)).getD false

/-- A job is cancelled (R142). -/
def Engine.cancelJob (g : Settings) (e : Engine) (j : Fin 16) : Engine :=
  let e := e.updateJob j (fun x => { x with cancelMark := true })
  match e.contextOf j with
  | some c => if e.insideFrame c then e else e.endJob g j .cancelled
  | none => e.endJob g j .cancelled

/-- An APPEND of the proxy's header in flight as its job is suspended counts as appended: its answer will be discarded.
(DEDUCED, notes/assumptions/14.md.) -/
def Engine.countAppend (e : Engine) (c : Fin 2) (j : Fin 16) : Engine :=
  let sent : Option Operation :=
    ((List.finRange 4).filterMap (fun p => (e.destPorts[p]).inflight)).find? (fun op => decide (op.who = .context c))
  match sent.map Operation.request with
  | some (.append _ block) =>
    e.updateJob j (fun x => { x with proxy := x.proxy.map (fun o => { o with appended := o.appended + block.length }) })
  | _ => e

/-- The job of a context is suspended (R133): SUSPENDED, at the head of the queue. -/
def Engine.suspendContext (e : Engine) (c : Fin 2) : Engine :=
  match e.contextRun c with
  | some (j, _) =>
    let e := (e.countAppend c j).updateJob j (fun x => { x with state := .suspended, suspendMark := false })
    let e := { e with
      jobs := e.jobs.filter (fun x : Job => decide (x.slot = j)) ++ e.jobs.filter (fun x : Job => decide (x.slot ≠ j)) }
    e.releaseContext c
  | none => e

/-! ## Starting a job -/

/-- A walk over a take copy as it starts (R136). -/
def RenderWalk.start : RenderWalk :=
  { offset := 0, index := 0, mode := .head, head := [], payload := [], left := 0, header := none, tkhdChunk := [], position := 0 }

/-- A context takes a job (R135): the look snapshot at a first start, the render source, and its OPEN_READ. -/
def Engine.startJob (g : Settings) (e : Engine) (c : Fin 2) (j : Fin 16) : Engine :=
  match e.job j with
  | some job =>
    let snapshot := match job.snapshot with
      | some s => some s
      | none => e.lookSnapshot g job.clip
    let source := e.renderSource job.clip
    let (port, entry) := source.getD (0, 0)
    let run : ContextRun :=
      { phase := .openingSource, entry := entry, port := port, handle := none, length := 0, readPos := 0, buffer := [],
        walk := RenderWalk.start, frame := none, insideFrame := false, pixelBytes := [], frameStore := [], toAppend := [],
        delivered := 0 }
    let e := e.updateJob j (fun x => { x with state := .running, suspendMark := false, snapshot := snapshot })
    let e := { e.setContextState c (.running j run) with lastJobGrant := c }
    let e := e.setClaim c none
    match snapshot, source, e.clipAt job.clip, e.cards[job.card] with
    | none, _, _, _ => e.failContext g c .noLook
    | some _, some (p, _), some clip, some card =>
      (e.ask p (.context c) (.openRead (clip.copyName card))).getD (e.failContext g c .sourceLost)
    | some _, _, _, _ => e.failContext g c .sourceLost
  | none => e.setClaim c none

/-- The job that the queue grant gives: the one nearest the head that is QUEUED or SUSPENDED and holds no claim (R134). -/
def Engine.nextJob (e : Engine) : Option Job :=
  e.jobs.find? (fun j => decide (j.state ≠ .running) && (e.claimOf j.slot).isNone)

/-- An IDLE context is given the job that claims it, or by the queue grant (R134). -/
def Engine.grantContext (g : Settings) (e : Engine) (c : Fin 2) : Option Engine :=
  match (e.contexts[c]).state with
  | .idle =>
    match (e.contexts[c]).claim with
    | some j => some (e.startJob g c j)
    | none => if e.paused then none else e.nextJob.map (fun j => e.startJob g c j.slot)
  | _ => none

/-! ## Appending to a proxy -/

/-- A run of bytes in blocks of 1,048,576, the last carrying what remains (R138); `n` bounds the blocks. -/
def inBlocks : Nat → List Byte → List (List Byte)
  | 0, _ => []
  | n + 1, bs => if bs = [] then [] else bs.take Config.transferBlock :: inBlocks n (bs.drop Config.transferBlock)

/-- The next APPEND of a context's proxy is sent (R138). -/
def Engine.sendAppend (g : Settings) (e : Engine) (c : Fin 2) : Engine :=
  match e.contextRun c with
  | some (j, run) =>
    match e.job j, run.toAppend with
    | some job, block :: _ =>
      match job.proxyPort, job.proxy with
      | some p, some o => (e.ask p (.context c) (.append o.handle block)).getD (e.failContext g c .proxyFailed)
      | _, _ => e.failContext g c .proxyFailed
    | _, _ => e
  | none => e

/-- A context sends a chunk to its proxy as a run of APPENDs, in a phase (R138). -/
def Engine.appendChunk (g : Settings) (e : Engine) (c : Fin 2) (phase : ContextPhase) (chunk : List Byte) : Engine :=
  (e.updateContext c (fun r => { r with phase := phase, toAppend := inBlocks (chunk.length + 1) chunk })).sendAppend g c

/-- The TKHD chunk of a proxy: the copy's, with its bit-depth byte set to 10 (R138). -/
def proxyHeader (chunk : List Byte) : List Byte := chunk.set 32 10

/-- The FRAM chunk of a graded frame (R138). -/
def proxyFrame (number : Word32) (tc : Timecode) (pixels : List Byte) : List Byte :=
  chunkBytes tagFram (leBytes 4 number.toNat ++ timecodeBytes tc ++ leBytes 4 (frameCheck pixels).toNat ++ pixels)

/-! ## Range ends and frame boundaries -/

/-- The job of a context is a proxy job (R127). -/
def Engine.runsProxyJob (e : Engine) (j : Fin 16) : Bool := ((e.job j).map (·.isProxy)).getD false

/-- A monitor-only job at its range end ends DONE once the CLOSE of its source object has been sent (R134, R139).
(DEDUCED, notes/assumptions/17.md.) -/
def Engine.closeSent (g : Settings) (e : Engine) (c : Fin 2) : Option Engine :=
  match e.contextRun c with
  | some (j, run) =>
    if run.phase = .closingSource ∧ e.runsProxyJob j = false ∧ e.inFlight (.context c) = true then some (e.endContextJob g c .done)
    else none
  | none => none

/-- The source object of a job at its range end is closed, whatever was answered: a proxy job sends CLOSE for its proxy object, and
a monitor-only one ends DONE (R139). -/
def Engine.sourceClosed (g : Settings) (e : Engine) (c : Fin 2) : Engine :=
  match e.contextRun c with
  | some (j, _) =>
    match e.job j with
    | some job =>
      if job.isProxy then
        match job.proxyPort, job.proxy with
        | some p, some o =>
          let e := e.updateContext c (fun r => { r with phase := .closing, handle := none })
          (e.ask p (.context c) (.close o.handle)).getD (e.failContext g c .proxyFailed)
        | _, _ => e.failContext g c .proxyFailed
      else e.endContextJob g c .done
    | none => e
  | none => e

/-- A job at its range end closes its source object (R139), before its proxy. (DESIGN CHOICE, notes/assumptions/58.md.) -/
def Engine.closeRenderSource (g : Settings) (e : Engine) (c : Fin 2) (run : ContextRun) : Engine :=
  let e := e.updateContext c (fun r => { r with phase := .closingSource })
  match run.handle.bind (fun h => e.ask run.port (.context c) (.close h)) with
  | some e => (e.closeSent g c).getD e
  | none => e.sourceClosed g c

/-- A looped job walks again from byte 0 of its source object (R139). -/
def Engine.restartLoop (e : Engine) (c : Fin 2) (j : Fin 16) : Engine :=
  (e.updateJob j (fun x => { x with nextFrame := none, rangeDone := false })).updateContext c (fun r =>
    { r with phase := .walking, readPos := 0, buffer := [], walk := RenderWalk.start, frame := none, delivered := 0 })

/-- A job reaches its range end (R139). -/
def Engine.rangeEnd (g : Settings) (e : Engine) (c : Fin 2) : Engine :=
  match e.contextRun c with
  | some (j, run) =>
    match e.job j with
    | some job =>
      if job.loop ∧ 0 < run.delivered then e.restartLoop c j
      else e.closeRenderSource g c run
    | none => e
  | none => e

/-- A context stands at the boundary after a delivered frame: a cancel, a suspension or the range end takes effect (R133, R139,
R142). A suspension goes before a range end. (DESIGN CHOICE, notes/assumptions/48.md.) -/
def Engine.frameBoundary (g : Settings) (e : Engine) (c : Fin 2) : Engine :=
  match e.contextRun c with
  | some (j, _) =>
    match e.job j with
    | some job =>
      if job.cancelMark then e.endJob g j .cancelled
      else if job.suspendMark then e.suspendContext c
      else if job.rangeDone then e.rangeEnd g c
      else e
    | none => e
  | none => e

/-- A frame's outputs have been delivered (R137, R138). -/
def Engine.frameDelivered (g : Settings) (e : Engine) (c : Fin 2) : Engine :=
  match e.contextRun c with
  | some (j, run) =>
    match run.frame with
    | some f =>
      let e := e.updateJob j (fun x =>
        { x with nextFrame := some (f.position + 1), rangeDone := rangeEnds x.range f.position f.tc })
      let e := e.updateContext c (fun r =>
        { r with phase := .walking, insideFrame := false, frame := none, delivered := r.delivered + 1 })
      e.frameBoundary g c
    | none => e
  | none => e

/-! ## The walk -/

/-- A context's walk goes on in a mode. -/
def Engine.updateWalk (e : Engine) (c : Fin 2) (f : RenderWalk → RenderWalk) : Engine :=
  e.updateContext c (fun r => { r with walk := f r.walk })

/-- A context consumes bytes of its buffer. -/
def ContextRun.consume (r : ContextRun) (n : Nat) : ContextRun :=
  { r with buffer := r.buffer.drop n, walk := { r.walk with offset := r.walk.offset + n } }

/-- The walk needs bytes: the context reads the next block of its source (R136). -/
def Engine.needBytes (g : Settings) (e : Engine) (c : Fin 2) (run : ContextRun) : Option Engine :=
  if e.asking (.context c) then none
  else
    match run.handle with
    | some h =>
      let n := min Config.transferBlock (run.length - run.readPos)
      some ((e.ask run.port (.context c) (.read h run.readPos n)).getD (e.failContext g c .sourceLost))
    | none => none

/-- The take end of a walk (R136): without a header the copy is damaged, else the range ends. -/
def Engine.walkEnd (g : Settings) (e : Engine) (c : Fin 2) (run : ContextRun) : Engine :=
  match run.walk.header with
  | some _ => e.rangeEnd g c
  | none => e.failContext g c .damaged

/-- The payload of the first chunk is complete (R136): its header, and the proxy's header when that is still to be appended
(R138). -/
def Engine.walkHeader (g : Settings) (e : Engine) (c : Fin 2) (j : Fin 16) (chunk : List Byte) : Engine :=
  match readHeader (chunk.drop 8) with
  | .ok h =>
    let e := e.updateWalk c (fun w => { w with mode := .head, head := [], header := some h, tkhdChunk := chunk })
    match (e.job j).bind (·.proxy) with
    | some o =>
      let rest := (proxyHeader chunk).drop o.appended
      if rest = [] then e else e.appendChunk g c .headerAppending rest
    | none => e
  | .error _ => e.failContext g c .damaged

/-- A chunk head of the walk is complete (R136). -/
def Engine.walkChunk (g : Settings) (e : Engine) (c : Fin 2) (j : Fin 16) (run : ContextRun) (head : List Byte) : Engine :=
  let w := run.walk
  let length := headLength head
  let first := decide (w.index = 0)
  let fits := decide (w.offset + length ≤ run.length)
  let e := e.updateWalk c (fun w => { w with index := w.index + 1, head := [], payload := [], left := length })
  if first then
    if fits && decide (headTag head = tagTkhd) then
      if length = 0 then e.walkHeader g c j head
      else e.updateWalk c (fun w => { w with mode := .tkhd, tkhdChunk := head })
    else e.failContext g c .damaged
  else if fits then
    let framed := decide (headTag head = tagFram) && decide (w.header.map Header.frameLength = some length)
    e.updateWalk c (fun w => { w with mode := if framed then .framePrefix else if length = 0 then .head else .skip })
  else e.walkEnd g c run

/-- The prefix of a frame that passed the size check is complete (R136): it takes the next position, and is in range or not. -/
def Engine.walkFrame (e : Engine) (c : Fin 2) (j : Fin 16) (pre : List Byte) : Engine :=
  match e.contextRun c, e.job j with
  | some (_, run), some job =>
    let pos := run.walk.position
    let tc := prefixTimecode pre
    let e := e.updateWalk c (fun w => { w with position := pos + 1 })
    if job.inRange pos tc then
      let e := e.updateJob j (fun x => { x with nextFrame := x.nextFrame.or (some pos) })
      e.updateContext c (fun r => { r with
        frame := some ⟨pos, prefixNumber pre, tc⟩, pixelBytes := [], frameStore := [], walk := { r.walk with mode := .pixels } })
    else e.updateWalk c (fun w => { w with mode := .skip })
  | _, _ => e

/-- The Grade Pipeline has completed a context's frame (R125, R138): its clamp report, its outputs, and the pipeline is idle. -/
def Engine.frameComplete (g : Settings) (e : Engine) (c : Fin 2) (j : Fin 16) (f : PipelineFrame) : Engine :=
  let e := { e.clampReport g f with pipeline := none }
  let e := if e.isMonitorJob j then e.updateMonitor (fun m => m.completeFrame j f.number f.tc) else e
  let e := e.updateWalk c (fun w => { w with mode := .head, head := [] })
  match e.job j, e.contextRun c with
  | some job, some (_, run) =>
    if job.isProxy then
      (e.updateContext c (fun r => { r with frameStore := [] })).appendChunk g c .frameAppending
        (proxyFrame f.number f.tc run.frameStore)
    else e.frameDelivered g c
  | _, _ => e

/-- Pixel bytes of the frame a context holds the pipeline for (R118, R138): graded with the job's snapshot, and delivered. -/
def Engine.gradeBytes (g : Settings) (e : Engine) (c : Fin 2) (j : Fin 16) (run : ContextRun) (f : PipelineFrame) (h : Header)
    (s : Snapshot) : Engine :=
  let n := min run.walk.left run.buffer.length
  let bytes := run.pixelBytes ++ run.buffer.take n
  let (pixels, rest) := decodePixels h.depth bytes.length bytes
  let graded := pixels.map (gradePixel s.params)
  let out := graded.map (·.1)
  let f' := { f with graded := f.graded + pixels.length, clamped := f.clamped + (graded.filter (·.2)).length }
  let e := { e with pipeline := some f' }
  let e := if e.isMonitorJob j then
      e.updateMonitor (fun m => m.writePixels g.monitor.decimation j f.clip f.card f.width f.height f.graded out)
    else e
  let proxy := e.runsProxyJob j
  let left := run.walk.left - n
  let e := e.updateContext c (fun r =>
    let r := r.consume n
    { r with
      pixelBytes := rest
      frameStore := if proxy then r.frameStore ++ (out.map packPixel).flatten else []
      walk := { r.walk with left := left } })
  if left = 0 then e.frameComplete g c j f' else e

/-- The Grade Pipeline's frame, when it is the context's. -/
def Engine.pipelineOf (e : Engine) (c : Fin 2) : Option PipelineFrame :=
  match e.pipeline with
  | some f => if f.context = c then some f else none
  | none => none

/-- The payload bytes of a first chunk that is still being read already show that its TKHD is not valid (R136): every byte that
a header is read for has been taken (R43), and it is rejected. -/
def headerShown (chunk : List Byte) : Bool :=
  decide (8 + headerRead ≤ chunk.length) &&
    match readHeader (chunk.drop 8) with
    | .ok _ => false
    | .error _ => true

/-- A walking context does what it can with the bytes it holds (R136): none when it has nothing to do. -/
def Engine.walkOn (g : Settings) (e : Engine) (c : Fin 2) (j : Fin 16) (run : ContextRun) : Option Engine :=
  let w := run.walk
  match w.mode with
  | .head =>
    if w.head = [] ∧ run.length - w.offset < 8 then some (e.walkEnd g c run)
    else if run.buffer = [] then e.needBytes g c run
    else
      let n := min (8 - w.head.length) run.buffer.length
      let head := w.head ++ run.buffer.take n
      let run' := run.consume n
      let e := e.updateContext c (fun _ => { run' with walk := { run'.walk with head := head } })
      some (if head.length < 8 then e else e.walkChunk g c j run' head)
  | .tkhd =>
    if run.buffer = [] then e.needBytes g c run
    else
      let n := min w.left run.buffer.length
      let chunk := w.tkhdChunk ++ run.buffer.take n
      let e := e.updateContext c (fun r =>
        let r := r.consume n
        { r with walk := { r.walk with tkhdChunk := chunk, left := w.left - n } })
      some (
        if w.left - n = 0 then e.walkHeader g c j chunk
        else if headerShown chunk then e.failContext g c .damaged
        else e)
  | .framePrefix =>
    if run.buffer = [] then e.needBytes g c run
    else
      let n := min (framePrefix - w.payload.length) run.buffer.length
      let pre := w.payload ++ run.buffer.take n
      let e := e.updateContext c (fun r =>
        let r := r.consume n
        { r with walk := { r.walk with payload := pre, left := w.left - n } })
      some (if pre.length < framePrefix then e else e.walkFrame c j pre)
  | .skip =>
    if run.buffer = [] then e.needBytes g c run
    else
      let n := min w.left run.buffer.length
      some (e.updateContext c (fun r =>
        let r := r.consume n
        { r with walk := { r.walk with left := w.left - n, mode := if w.left - n = 0 then .head else .skip } }))
  | .pixels =>
    match e.pipelineOf c, w.header, (e.job j).bind (·.snapshot) with
    | some f, some h, some s =>
      if run.buffer = [] then e.needBytes g c run else some (e.gradeBytes g c j run f h s)
    | _, _, _ => none

/-! ## The pipeline's arbiter -/

/-- A context asks for the pipeline (R137): a frame in range waits, and for the monitor job the back buffer is not READY. -/
def Engine.asksPipeline (e : Engine) (c : Fin 2) : Bool :=
  match e.contextRun c with
  | some (j, run) =>
    decide (run.phase = .walking) && decide (run.walk.mode = .pixels) && !run.insideFrame && run.frame.isSome &&
      !(e.isMonitorJob j && e.monitor.back.isReady)
  | none => false

/-- The context carries the monitor job. -/
def Engine.carriesMonitor (e : Engine) (c : Fin 2) : Bool :=
  match e.contextRun c with
  | some (j, _) => e.isMonitorJob j
  | none => false

/-- The context that the idle pipeline is granted to (R137). -/
def Engine.pipelineChoice (e : Engine) : Option (Fin 2) :=
  match e.asksPipeline 0, e.asksPipeline 1 with
  | false, false => none
  | true, false => some 0
  | false, true => some 1
  | true, true => if e.carriesMonitor 0 then some 0 else if e.carriesMonitor 1 then some 1 else some (e.lastPipeline + 1)

/-- The pipeline is granted to a context for its frame (R118, R137). -/
def Engine.grantPipeline (e : Engine) : Option Engine :=
  match e.pipeline, e.pipelineChoice with
  | none, some c =>
    match e.contextRun c with
    | some (j, run) =>
      match e.job j, run.frame, run.walk.header with
      | some job, some f, some h =>
        let p : PipelineFrame :=
          { context := c, job := j, clip := job.clip, card := job.card, number := f.number, tc := f.tc, width := h.width,
            height := h.height, graded := 0, clamped := 0 }
        some ({ e with pipeline := some p, lastPipeline := c }.updateContext c (fun r => { r with insideFrame := true }))
      | _, _, _ => none
    | none => none
  | _, _ => none

/-! ## Driving the contexts -/

/-- One thing that a context can do. -/
def Engine.contextMove (g : Settings) (e : Engine) (c : Fin 2) : Option Engine :=
  match e.contextRun c with
  | some (j, run) => if run.phase = .walking then e.walkOn g c j run else e.closeSent g c
  | none => none

/-- One thing that the Render Engine can do: a context grant, the pipeline's grant, or a move of a context, context 0 first.
(DESIGN CHOICE, notes/assumptions/49.md.) -/
def Engine.renderMove (g : Settings) (e : Engine) : Option Engine :=
  (e.grantContext g 0).or ((e.grantContext g 1).or (e.grantPipeline.or ((e.contextMove g 0).or (e.contextMove g 1))))

/-- The Render Engine does what it can; `n` bounds its moves. (DEDUCED, notes/assumptions/36.md.) -/
def Engine.drive (g : Settings) : Nat → Engine → Engine
  | 0, e => e
  | n + 1, e =>
    match e.renderMove g with
    | some e => Engine.drive g n e
    | none => e

/-- The bytes that a context holds unconsumed. -/
def Engine.buffered (e : Engine) (c : Fin 2) : Nat := ((e.contextRun c).map (fun x => x.2.buffer.length)).getD 0

/-- A bound on the moves of the Render Engine in one step: each byte held is consumed by one move, and each byte consumed and
each job can bring a few moves more. -/
def Engine.moveBound (e : Engine) : Nat := 4 * (e.buffered 0 + e.buffered 1) + 16 * (e.jobs.length + 4)

/-- The Render Engine settles: contexts and pipeline are granted, and each context goes on until it waits (R134 to R138). -/
def Engine.settleRender (g : Settings) (e : Engine) : Engine := Engine.drive g e.moveBound e

/-! ## Answers to a context -/

/-- The source object is open (R135): its length is checked, and the proxy is opened where the job has none. -/
def Engine.sourceOpened (g : Settings) (e : Engine) (c : Fin 2) (j : Fin 16) (h : Word32) (length : Nat) : Engine :=
  match e.job j with
  | some job =>
    match e.clipAt job.clip, e.cards[job.card] with
    | some clip, some card =>
      if length ≠ clip.byteLength then e.failContext g c .sourceLost
      else
        let e := e.updateContext c (fun r => { r with handle := some h, length := length })
        match job.proxyPort, job.proxy, job.snapshot with
        | some p, none, some s =>
          let e := e.updateContext c (fun r => { r with phase := .openingProxy })
          let name := proxyName card.serial card.format clip.takeName s.slot s.version
          (e.ask p (.context c) (.openWrite name)).getD (e.failContext g c .proxyFailed)
        | _, _, _ =>
          let e := e.updateContext c (fun r => { r with phase := .walking })
          if job.rangeDone then e.rangeEnd g c else e
    | _, _ => e.failContext g c .sourceLost
  | none => e

/-- The proxy object is open (R135). -/
def Engine.proxyOpened (e : Engine) (c : Fin 2) (j : Fin 16) (h : Word32) : Engine :=
  match ((e.job j).bind (·.proxyPort)).bind e.entryAt with
  | some v =>
    (e.updateJob j (fun x => { x with proxy := some ⟨v, h, 0⟩ })).updateContext c (fun r => { r with phase := .walking })
  | none => e

/-- An APPEND of a context's proxy is answered OK (R138). -/
def Engine.appendDone (g : Settings) (e : Engine) (c : Fin 2) (j : Fin 16) (run : ContextRun) : Engine :=
  let n := (run.toAppend.head?.map List.length).getD 0
  let e := e.updateJob j (fun x => { x with proxy := x.proxy.map (fun o => { o with appended := o.appended + n }) })
  let e := e.updateContext c (fun r => { r with toAppend := r.toAppend.tail })
  match run.toAppend.tail with
  | [] =>
    match run.phase with
    | .frameAppending => e.frameDelivered g c
    | _ => e.updateContext c (fun r => { r with phase := .walking })
  | _ :: _ => e.sendAppend g c

/-- A context is answered (R73, R135 to R140). -/
def Engine.contextReply (g : Settings) (e : Engine) (c : Fin 2) (r : Reply) : Engine :=
  match e.contextRun c with
  | some (j, run) =>
    match run.phase, r with
    | .openingSource, .opened h n => e.sourceOpened g c j h n
    | .openingSource, _ => e.failContext g c .sourceLost
    | .openingProxy, .handle h => e.proxyOpened c j h
    | .openingProxy, _ => e.failContext g c .proxyFailed
    | .walking, .data bs => e.updateContext c (fun x => { x with buffer := x.buffer ++ bs, readPos := x.readPos + bs.length })
    | .walking, _ => e.failContext g c .sourceLost
    | .headerAppending, .ok => e.appendDone g c j run
    | .headerAppending, _ => e.failContext g c .proxyFailed
    | .frameAppending, .ok => e.appendDone g c j run
    | .frameAppending, _ => e.failContext g c .proxyFailed
    | .closingSource, _ => e.sourceClosed g c
    | .closing, .ok => e.endContextJob g c .done
    | .closing, _ => e.failContext g c .proxyFailed
  | none => e

/-- The last operation of a DRAINING context has ended: it is IDLE (R134). -/
def Engine.settleContext (e : Engine) (c : Fin 2) : Engine :=
  match (e.contexts[c]).state with
  | .draining => if e.inFlight (.context c) then e else e.setContextState c .idle
  | _ => e

/-! ## Losses -/

/-- The copy record of a clip on a volume has been reset to WRITING: a job that reads that copy fails (R140), context 0 first.
(DESIGN CHOICE, notes/assumptions/45.md.) -/
def Engine.failReaders (g : Settings) (h : Handle) (v : Fin 16) (e : Engine) : Engine :=
  (List.finRange 2).foldl (fun e c =>
    match e.contextRun c with
    | some (j, run) =>
      if run.entry = v ∧ (e.job j).map (·.clip) = some h then e.endJob g j (.failed .sourceLost) else e
    | none => e) e

/-- The context still needs its source object: it has not reached its range end (R139). -/
def ContextRun.needsSource (run : ContextRun) : Bool := decide (run.phase ≠ .closingSource) && decide (run.phase ≠ .closing)

/-- A context whose source or proxy is at a port that lost its volume fails, the source first (R140); the loss of a source object
that is being closed is an answer to its CLOSE, which is passed over (R139). (DEDUCED, notes/assumptions/17.md.) -/
def Engine.contextLoses (g : Settings) (p : Fin 4) (e : Engine) (c : Fin 2) : Engine :=
  match e.contextRun c with
  | some (j, run) =>
    if run.port = p ∧ run.needsSource = true then e.endJob g j (.failed .sourceLost)
    else if (e.job j).bind (·.proxyPort) = some p ∧ (run.phase = .openingProxy ∨ ((e.job j).bind (·.proxy)).isSome) then
      e.endJob g j (.failed .proxyFailed)
    else if run.port = p ∧ run.phase = .closingSource then e.sourceClosed g c
    else e
  | none => e

/-- The SUSPENDED jobs whose proxy object is on a volume that has been removed fail, in queue order (R133, R140).
(DESIGN CHOICE, notes/assumptions/45.md.) -/
def Engine.suspendedLose (g : Settings) (v : Fin 16) (e : Engine) : Engine :=
  (e.jobs.filter (fun j => decide (j.state = .suspended) && decide (j.proxy.map (·.entry) = some v))).foldl
    (fun e j => e.endJob g j.slot (.failed .proxyFailed)) e

/-! ## Queueing jobs -/

/-- The values that a queueing gives a job; it takes the lowest free slot (R127). -/
structure NewJob where
  clip      : Handle
  card      : Fin 32
  range     : Range
  outputs   : Outputs
  proxyPort : Option (Fin 4)
  loop      : Bool
  station   : StationPort
deriving DecidableEq, Repr

/-- A job as it is queued in a slot (R127). -/
def NewJob.inSlot (n : NewJob) (slot : Fin 16) : Job :=
  { slot := slot, clip := n.clip, card := n.card, range := n.range, outputs := n.outputs, proxyPort := n.proxyPort,
    loop := n.loop, station := n.station, snapshot := none, nextFrame := none, proxy := none, underruns := 0,
    cancelMark := false, suspendMark := false, rangeDone := false, state := .queued }

/-- A job joins the tail of the render queue; the clip of a proxy job becomes QUEUED (R127, R144). -/
def Engine.addJob (e : Engine) (slot : Fin 16) (n : NewJob) : Engine :=
  let job := n.inSlot slot
  let e := { e with jobs := e.jobs ++ [job] }
  if job.isProxy then e.updateClip n.clip (fun c => { c with renderState := .queued }) else e

/-- A range's form is checked (R129), apart from its timecode labels: FRAMES is clamped against the observed frame count. -/
def rangeFormed (r : Range) (observed : Nat) : Option Range :=
  match r with
  | .whole => some .whole
  | .frames first last =>
    let last := min last (observed - 1)
    if observed = 0 ∨ last < first then none else some (.frames first last)
  | .timecode i o => some (.timecode i o)

/-- A range's timecode labels are valid under a header (R129). -/
def rangeLabelsValid (r : Range) (h : Header) : Bool :=
  match r with
  | .timecode i o => labelValid h.rate h.drop i && labelValid h.rate h.drop o
  | _ => true

/-- A destination port is ONLINE (R63). -/
def Engine.isOnline (e : Engine) (p : Fin 4) : Bool := decide ((e.destPorts[p]).state = .online)

/-- The checks of R131 and R132 from the proxy port on, in order: the clip's header, the range as clamped, and the job slot. -/
def Engine.checkRender (g : Settings) (e : Engine) (c : Clip) (range : Range) (port : Option (Fin 4)) :
    Except Status (Header × Range × Fin 16) :=
  match rangeFormed range c.observed with
  | none => .error .badArgument
  | some r =>
    match c.header with
    | none => .error .damaged
    | some h =>
      if !rangeLabelsValid r h then .error .badArgument
      else if (c.boundLook g).isNone then .error .noLook
      else if (e.renderSource c.handle).isNone then .error .noSource
      else if (port.map (fun p => e.isOnline p)) = some false then .error .noDestination
      else
        match e.freeJob with
        | some slot => .ok (h, r, slot)
        | none => .error .full

/-- QUEUE_RENDER (R131, R145) for a station. -/
def Engine.queueRender (g : Settings) (e : Engine) (st : StationPort) (slot gen : Nat) (range : Range) (port : Nat) :
    Except Status (Fin 16 × Engine) :=
  match e.checkClip slot gen with
  | .error x => .error x
  | .ok c =>
    match checkIndex 4 port with
    | .error x => .error x
    | .ok p =>
      match e.checkRender g c range (some p) with
      | .error x => .error x
      | .ok (_, r, job) =>
        .ok (job, (e.addJob job ⟨c.handle, c.card, r, .proxy, some p, false, st⟩).settleRender g)

/-! ## Cues -/

/-- A context that a new cue can claim: IDLE, or else DRAINING, and not claimed (R132, steps 2 and 3); the lowest-numbered where
both are alike. (DESIGN CHOICE, notes/assumptions/44.md.) -/
def Engine.claimable (e : Engine) : Option (Fin 2) :=
  let unclaimed := (List.finRange 2).filter (fun c => (e.contexts[c]).claim.isNone)
  (unclaimed.find? (fun c => decide ((e.contexts[c]).state = .idle))).or
    (unclaimed.find? (fun c => decide ((e.contexts[c]).state = .draining)))

/-- A new cue claims a context from the job most recently granted one, which is suspended (R132, step 4; R133). -/
def Engine.claimBySuspension (e : Engine) (job : Fin 16) : Engine :=
  let c := e.lastJobGrant
  let e := e.setClaim c (some job)
  match e.contextRun c with
  | some (j, run) =>
    if run.insideFrame then e.updateJob j (fun x => { x with suspendMark := true }) else e.suspendContext c
  | none => e

/-- A new cue takes a context in the first of the ways of R132 that applies; `old` is the monitor job it replaces. -/
def Engine.takeContext (g : Settings) (e : Engine) (job : Fin 16) (old : Option (Fin 16)) : Engine :=
  let held := old.bind (fun j => (e.contextOf j).or (e.claimOf j))
  let e := match old with | some j => e.cancelJob g j | none => e
  match held with
  | some c => e.setClaim c (some job)
  | none =>
    match e.claimable with
    | some c => e.setClaim c (some job)
    | none => e.claimBySuspension job

/-- The proxy port of a cue, checked only when one is given (R132). -/
def optionalPort (port : Option Nat) : Except Status (Option (Fin 4)) :=
  match port with
  | none => .ok none
  | some p =>
    match checkIndex 4 p with
    | .ok q => .ok (some q)
    | .error x => .error x

/-- CUE_MONITOR (R132, R145, R157) for a station. A loop flag with a proxy port is refused right after the port is checked.
(DESIGN CHOICE, notes/assumptions/43.md.) -/
def Engine.cueMonitor (g : Settings) (e : Engine) (st : StationPort) (slot gen : Nat) (range : Range) (loop : Bool)
    (port : Option Nat) : Except Status (Fin 16 × Engine) :=
  match e.checkClip slot gen with
  | .error x => .error x
  | .ok c =>
    match optionalPort port with
    | .error x => .error x
    | .ok p =>
      if loop ∧ p.isSome then .error .badArgument
      else
        match e.checkRender g c range p with
        | .error x => .error x
        | .ok (h, r, job) =>
          let outputs : Outputs := if p.isSome then .both else .monitor
          let old := e.monitor.cue.job
          let e := e.addJob job ⟨c.handle, c.card, r, outputs, p, loop, st⟩
          let e := e.updateMonitor (fun m => m.newCue g.monitor job c.handle c.card h.rate h.drop)
          .ok (job, (e.takeContext g job old).settleRender g)

/-- Every render job naming a clip is cancelled, in ascending job slot (R145, R196); the contexts are granted once, after all of
them. (DESIGN CHOICE, notes/assumptions/46.md.) -/
def Engine.cancelRenders (g : Settings) (e : Engine) (h : Handle) : Engine :=
  ((List.finRange 16).foldl (fun e j =>
    match e.job j with
    | some x => if x.clip = h then e.cancelJob g j else e
    | none => e) e).settleRender g

/-- STOP_MONITOR (R159). -/
def Engine.stopMonitor (g : Settings) (e : Engine) : Engine :=
  let old := e.monitor.cue.job
  let e := e.updateMonitor MonitorOut.stop
  (match old with | some j => e.cancelJob g j | none => e).settleRender g

/-- CANCEL_RENDER for a station (R141). (DEDUCED, notes/assumptions/27.md.) -/
def Engine.cancelRender (g : Settings) (e : Engine) (st : StationPort) (job : Nat) : Except Status Engine :=
  match checkIndex 16 job with
  | .error x => .error x
  | .ok j =>
    match e.job j with
    | none => .error .notFound
    | some x =>
      if st = .C ∧ x.station ≠ .C then .error .notPermitted else .ok ((e.cancelJob g j).settleRender g)

end Sys2Proof.Machine
end

