-- ==== Sys2Proof/Machine/Transfer.lean ====
section
/-!
DEFINITION. The Transfer Engine: the lane grant (R82, R83), COPY (R85 to R90), VERIFY (R91, R92), MANIFEST (R103), the answers a
lane receives (R73), and the losses of a source or a volume (R69, R87, R89). A lane does what an answer lets it do; the lane
grant is made once a rule's own changes are made (`Engine.settleTransfer`).
-/

namespace Sys2Proof.Machine

/-! ## Lanes -/

/-- A lane's descriptor has ended or stopped: what waits is withdrawn, its card read is given up, and the lane is IDLE, or DRAINING
while one of its operations is in flight (R82). A card read still outstanding as a COPY stops ALL_DROPPED is neither retried nor
stalls its port. (DESIGN CHOICE, notes/assumptions/39.md.) -/
def Engine.releaseLane (e : Engine) (l : Fin 2) : Engine :=
  let e := e.withdraw (.lane l)
  let e := (List.finRange 4).foldl (fun e p => e.updatePort p (fun x =>
    { x with read := if x.read.map (·.lane) = some l then none else x.read })) e
  { e with lanes := e.lanes.set l (if e.inFlight (.lane l) then .draining else .idle) }

/-- The last operation of a DRAINING lane has ended: it is IDLE (R82). -/
def Engine.settleLane (e : Engine) (l : Fin 2) : Engine :=
  match e.lanes[l] with
  | .draining => if e.inFlight (.lane l) then e else { e with lanes := e.lanes.set l .idle }
  | _ => e

/-- A running descriptor ends: it leaves the queue, and the steps of R93 follow. -/
def Engine.endDescriptor (e : Engine) (l : Fin 2) (d : Descriptor) : Engine :=
  ((e.dropDescriptor d.slot).settleRemoval d).releaseLane l

/-- A clip and its card record, as the transfer rules need both. -/
def Engine.clipAndCard (e : Engine) (d : Descriptor) : Option (Clip × CardRecord) :=
  match d.clip.bind e.clipAt, e.cards[d.card] with
  | some c, some r => some (c, r)
  | _, _ => none

/-- A lane's descriptor with its clip, card and what the lane holds. -/
def Engine.laneWork (e : Engine) (l : Fin 2) : Option (LaneRun × Descriptor) :=
  match e.laneRun l with
  | some run => (e.descriptor run.slot).map (fun d => (run, d))
  | none => none

/-- COPY_FAILED for a clip and a volume (R87, R92). -/
def copyFailedEvent (card : Fin 32) (h : Handle) (v : Fin 16) : Event :=
  { Event.ofClip .copyFailed card h with volume := some v }

/-- A fault of the Transfer Engine (R87, R88, R91, R92). -/
def transferFault (kind : FaultKind) (h : Handle) (card : Fin 32) (v : Option (Fin 16)) (measured : Nat) : FaultInput :=
  { FaultInput.bare kind h card with volume := v, measured := some (limitMeasured measured) }

/-! ## Targets of a COPY -/

/-- A target takes a status. -/
def Engine.setTarget (e : Engine) (l : Fin 2) (v : Fin 16) (x : TargetStatus) : Engine :=
  e.updateLane l (fun r => { r with targets := r.targets.map (fun t => if t.entry = v then { t with status := x } else t) })

/-- A copy to a volume fails: its record becomes FAILED, COPY_FAILED is signaled, and a COPY_FAILED fault is raised with its cause
(R87). -/
def Engine.copyFails (g : Settings) (e : Engine) (d : Descriptor) (v : Fin 16) (cause : Nat) : Engine :=
  match d.clip with
  | some h =>
    ((e.setCopyState h v .failed).signal (copyFailedEvent d.card h v)).raiseFault g
      (transferFault .copyFailed h d.card (some v) cause)
  | none => e

/-- A target drops out of a running COPY (R87). -/
def Engine.dropTarget (g : Settings) (e : Engine) (l : Fin 2) (d : Descriptor) (v : Fin 16) (cause : Nat) : Engine :=
  (e.setTarget l v .dropped).copyFails g d v cause

/-- A target that the broadcast still carries before its CLOSE (R86, R87). (DEDUCED, notes/assumptions/13.md.) -/
def TargetStatus.live : TargetStatus → Bool
  | .opening => true
  | .isOpen _ => true
  | .appending _ => true
  | .closing => false
  | .closed => false
  | .dropped => false

/-- A target whose answer a lane awaits in the phase of its opens, its APPENDs or its CLOSEs. -/
def TargetStatus.awaited (s : TargetStatus) (phase : LanePhase) : Bool :=
  match phase, s with
  | .opening, .opening => true
  | .appending, .appending _ => true
  | .closing, .closing => true
  | _, _ => false

/-! ## The end of a COPY -/

/-- The causes of a COPY's stop (R90). -/
inductive StopCause where
  | sourceLost | allDropped | aborted
deriving DecidableEq, Repr

/-- The volume that a SOURCE_LOST fault names (R90). -/
def Descriptor.sourceVolume (d : Descriptor) : Option (Fin 16) :=
  match d.source with
  | some (.volume v) => some v
  | _ => none

/-- A running COPY stops (R90). -/
def Engine.stopCopy (g : Settings) (e : Engine) (l : Fin 2) (cause : StopCause) : Engine :=
  match e.laneWork l with
  | some (run, d) =>
    match d.clip with
    | some h =>
      let e := (run.targets.filter (fun t => t.status.live)).foldl (fun e t => e.setCopyState h t.entry .partialCopy) e
      let e := e.updateLane l (fun r => { r with parse := none, sizeFault := none })
      let e := match cause with
        | .sourceLost =>
          e.raiseFault g (transferFault .sourceLost h d.card d.sourceVolume (d.progress / Config.transferBlock))
        | _ => e
      e.endDescriptor l d
    | none => e
  | none => e

/-- The targets that became WRITTEN (R88). -/
def LaneRun.writtenTargets (run : LaneRun) : List (Fin 16) :=
  if run.consistent then (run.targets.filter (fun t => decide (t.status = .closed))).map (·.entry) else []

/-- The verify mode of a card's snapshot (R88). -/
def CardRecord.verifyMode (r : CardRecord) : VerifyMode := (r.snapshot.map (·.verify)).getD .readback

/-- Every CLOSE of a COPY has been answered: the COPY is removed, its VERIFYs are queued, CLIP_COPIED is signaled, and the
descriptor ends (R88, R93). (DEDUCED, notes/assumptions/19.md.) CLIP_COPIED comes before the events of the descriptor's end.
(DESIGN CHOICE, notes/assumptions/52.md.) -/
def Engine.finishCopy (g : Settings) (e : Engine) (l : Fin 2) (run : LaneRun) (d : Descriptor) (c : Clip) (r : CardRecord) :
    Engine :=
  let e := match d.sourceVolume with
    | some v => if run.consistent then e else e.raiseFault g (transferFault .digestMismatch c.handle d.card (some v) 2)
    | none => e
  let written := run.writtenTargets
  let e := e.dropDescriptor d.slot
  let e := if r.verifyMode = .readback ∧ run.abortMark = false then
      written.foldl (fun e v => e.queueVerify d.card c.handle v d.generation) e
    else e
  let e := if written = [] then e else e.signal (Event.ofClip .clipCopied d.card c.handle)
  (e.settleRemoval d).releaseLane l

/-- A target's CLOSE has been answered OK (R88). -/
def Engine.targetClosed (g : Settings) (e : Engine) (l : Fin 2) (run : LaneRun) (d : Descriptor) (r : CardRecord) (h : Handle)
    (v : Fin 16) : Engine :=
  let e := e.setTarget l v .closed
  if run.consistent then
    e.changeCopy h v (fun x => { x with
      state := .written
      verifyWaived := decide (r.verifyMode = .noVerify)
      verifyDigest := if d.source = some .card then none else run.readDigest })
  else
    (e.changeCopy h v (fun x => { x with state := .mismatch, verifyDigest := run.readDigest })).raiseFault g
      (transferFault .digestMismatch h d.card (some v) 2)

/-- The read digest of a COPY is settled (R88): consistent, or not; a consistent card read is the clip's source digest. -/
def Engine.settleDigest (e : Engine) (l : Fin 2) (run : LaneRun) (d : Descriptor) (c : Clip) : Engine :=
  let read := digestOf run.crcHigh run.crcLow
  let card := decide (d.source = some .card)
  let consistent := decide (c.sourceDigest = some read) || (card && c.sourceDigest.isNone)
  let e := if card && consistent then e.updateClip c.handle (fun c => { c with sourceDigest := some read }) else e
  e.updateLane l (fun r => { r with readDigest := some read, consistent := consistent })

/-- A CLOSE is sent to one open target of a completing COPY (R88). -/
def Engine.closeTarget (g : Settings) (l : Fin 2) (d : Descriptor) (e : Engine) (t : Target) : Engine :=
  match t.status with
  | .isOpen h =>
    match e.ask t.port (.lane l) (.close h) with
    | some e => e.setTarget l t.entry .closing
    | none => e.dropTarget g l d t.entry 3
  | _ => e

/-- A CLOSE is sent to the source object of a lane, where it has one open (R88, R91). -/
def Engine.closeSource (e : Engine) (l : Fin 2) (run : LaneRun) : Engine :=
  match run.source with
  | some s =>
    match s.status with
    | .isOpen h =>
      let x : SourceStatus := if (e.ask s.port (.lane l) (.close h)).isSome then .closing else .closed
      ((e.ask s.port (.lane l) (.close h)).getD e).updateLane l (fun r => { r with source := some { s with status := x } })
    | _ => e
  | none => e

/-- A COPY's last block is complete: the read digest is settled and the CLOSEs are sent (R88). -/
def Engine.completeCopy (g : Settings) (e : Engine) (l : Fin 2) (run : LaneRun) (d : Descriptor) (c : Clip) : Engine :=
  let e := (e.settleDigest l run d c).updateLane l (fun r => { r with phase := .closing, block := [] })
  (run.targets.foldl (Engine.closeTarget g l d) e).closeSource l run

/-! ## The blocks of a COPY -/

/-- The take of a directory by its index. -/
def takeAt (d : Directory) (index : Nat) : Option Take := d.takes.find? (fun t => decide (t.index = index))

/-- A card port takes a read from a lane (R34); none is source-lost. -/
def Engine.askCard (g : Settings) (e : Engine) (l : Fin 2) (p : Fin 4) (index offset length : Nat) : Option Engine :=
  let x := e.cardPorts[p]
  match x.state, x.held.bind (fun d => takeAt d index) with
  | .attached, some t =>
    if offset + length ≤ t.length then
      some (e.updatePort p (fun x => { x with read := some ⟨l, index, offset, length, 0, (g.stall[p]).period⟩ }))
    else none
  | _, _ => none

/-- The length of the block at a take's progress (R86). -/
def blockLength (byteLength progress : Nat) : Nat := min Config.transferBlock (byteLength - progress)

/-- A lane issues the read of its next block (R86, R91); none is a lost source. -/
def Engine.askBlock (g : Settings) (e : Engine) (l : Fin 2) (run : LaneRun) (d : Descriptor) (c : Clip) : Option Engine :=
  let n := blockLength c.byteLength d.progress
  match run.source with
  | some s =>
    match s.status with
    | .isOpen h => e.ask s.port (.lane l) (.read h d.progress n)
    | _ => none
  | none =>
    match (e.cards[d.card]).bind (·.attached) with
    | some p => e.askCard g l p c.takeIndex d.progress n
    | none => none

/-- A COPY issues the read of its next block, or loses its source (R86, R89). -/
def Engine.readBlock (g : Settings) (e : Engine) (l : Fin 2) (run : LaneRun) (d : Descriptor) (c : Clip) : Engine :=
  let e := e.updateLane l (fun r => { r with phase := .reading, block := [] })
  (e.askBlock g l run d c).getD (e.stopCopy g l .sourceLost)

/-- The block in hand is complete (R86): the progress rises, and the next block follows, or the abort, or the completion.
(DEDUCED, notes/assumptions/12.md.) -/
def Engine.completeBlock (g : Settings) (e : Engine) (l : Fin 2) (run : LaneRun) (d : Descriptor) (c : Clip) : Engine :=
  let d' := { d with progress := d.progress + run.block.length }
  let e := e.updateDescriptor d.slot (fun _ => d')
  if run.abortMark then e.stopCopy g l .aborted
  else if d'.progress < c.byteLength then e.readBlock g l run d' c
  else e.completeCopy g l run d' c

/-- The opens of a COPY have ended (R85): the blocks follow, or the abort, or the completion of a take of byte length 0. -/
def Engine.beginBlocks (g : Settings) (e : Engine) (l : Fin 2) (run : LaneRun) (d : Descriptor) (c : Clip) : Engine :=
  if run.abortMark then e.stopCopy g l .aborted
  else if c.byteLength = 0 then e.completeCopy g l run d c
  else e.readBlock g l run d c

/-- The lane awaits an answer of a target or of its source in its phase. -/
def LaneRun.awaits (run : LaneRun) : Bool :=
  run.targets.any (fun t => t.status.awaited run.phase) ||
    match run.source with
    | some s =>
      match run.phase, s.status with
      | .opening, .opening => true
      | .closing, .closing => true
      | _, _ => false
    | none => false

/-- Once every CLOSE of a completing COPY has ended, the COPY finishes (R88). -/
def Engine.settleClosing (g : Settings) (e : Engine) (l : Fin 2) : Engine :=
  match e.laneWork l with
  | some (run, d) =>
    match e.clipAndCard d with
    | some (c, r) => if run.phase = .closing ∧ run.awaits = false then e.finishCopy g l run d c r else e
    | none => e
  | none => e

/-- A COPY goes on after a change of its targets or its source (R85 to R88): it stops when its last target has dropped out, and
otherwise goes on once the last awaited answer has come. -/
def Engine.advanceCopy (g : Settings) (e : Engine) (l : Fin 2) : Engine :=
  match e.laneWork l with
  | some (run, d) =>
    match e.clipAndCard d with
    | some (c, _) =>
      if run.phase = .closing then e.settleClosing g l
      else if (run.targets.any (fun t => t.status.live)) = false then e.stopCopy g l .allDropped
      else if run.awaits then e
      else
        match run.phase with
        | .opening => (e.beginBlocks g l run d c).settleClosing g l
        | .appending => (e.completeBlock g l run d c).settleClosing g l
        | _ => e
    | none => e
  | none => e

/-- An APPEND of the block in hand is sent to one open target (R86). -/
def Engine.appendTo (g : Settings) (l : Fin 2) (d : Descriptor) (block : List Byte) (e : Engine) (t : Target) : Engine :=
  match t.status with
  | .isOpen h =>
    match e.ask t.port (.lane l) (.append h block) with
    | some e => e.setTarget l t.entry (.appending h)
    | none => e.dropTarget g l d t.entry 3
  | _ => e

/-- A block enters a lane's Digest Unit (R84). -/
def LaneRun.digestBlock (r : LaneRun) (block : List Byte) : LaneRun :=
  { r with crcHigh := crcBytes polyHigh r.crcHigh block, crcLow := crcBytes polyLow r.crcLow block, block := block }

/-- A block of a COPY arrives from its source (R86): the Digest Unit, the Take Parser for a card source, and the open targets. -/
def Engine.copyBlock (g : Settings) (e : Engine) (l : Fin 2) (block : List Byte) : Engine :=
  match e.laneWork l with
  | some (run, d) =>
    match e.clipAndCard d with
    | some (c, _) =>
      let e := e.updateLane l (fun r =>
        { r.digestBlock block with lastPassed := decide (c.byteLength ≤ d.progress + block.length), phase := .appending })
      let e := if d.source = some .card then e.feedParser g l block else e
      (run.targets.foldl (Engine.appendTo g l d block) e).advanceCopy g l
    | none => e
  | none => e

/-! ## VERIFY -/

/-- A VERIFY's read fails (R92). -/
def Engine.failVerify (g : Settings) (e : Engine) (l : Fin 2) (d : Descriptor) : Engine :=
  match d.clip, d.targets with
  | some h, v :: _ =>
    let e := (e.setCopyState h v .written).signal (copyFailedEvent d.card h v)
    (e.raiseFault g (transferFault .copyFailed h d.card (some v) 4)).endDescriptor l d
  | _, _ => e

/-- The compare of a VERIFY (R91, R186). -/
def Engine.compareVerify (g : Settings) (e : Engine) (l : Fin 2) (run : LaneRun) (d : Descriptor) (c : Clip) : Engine :=
  match d.targets with
  | v :: _ =>
    let read := digestOf run.crcHigh run.crcLow
    let e :=
      if c.sourceDigest = some read then
        let e := e.changeCopy c.handle v (fun r => { r with state := .verified, verifyDigest := some read })
        (e.signal { Event.ofClip .clipVerified d.card c.handle with volume := some v }).clearMismatch c.handle v
      else
        (e.changeCopy c.handle v (fun r => { r with state := .mismatch, verifyDigest := some read })).raiseFault g
          (transferFault .digestMismatch c.handle d.card (some v) 1)
    e.endDescriptor l d
  | [] => e

/-- A VERIFY has read its last block: it sends CLOSE (R91), and compares at once where that cannot be sent. -/
def Engine.closeVerify (g : Settings) (e : Engine) (l : Fin 2) (run : LaneRun) (d : Descriptor) (c : Clip) : Engine :=
  let e := (e.updateLane l (fun r => { r with phase := .closing, block := [] })).closeSource l run
  match e.laneRun l with
  | some run => if run.awaits then e else e.compareVerify g l run d c
  | none => e

/-- A VERIFY issues the read of its next block, or has read all (R91, R92). -/
def Engine.verifyNext (g : Settings) (e : Engine) (l : Fin 2) (run : LaneRun) (d : Descriptor) (c : Clip) : Engine :=
  if d.progress < c.byteLength then
    let e := e.updateLane l (fun r => { r with phase := .reading })
    (e.askBlock g l run d c).getD (e.failVerify g l d)
  else e.closeVerify g l run d c

/-- A VERIFY is answered (R91, R92). (DEDUCED, notes/assumptions/20.md.) -/
def Engine.verifyReply (g : Settings) (e : Engine) (l : Fin 2) (run : LaneRun) (d : Descriptor) (c : Clip) (r : Reply) : Engine :=
  match run.phase, r with
  | .opening, .opened h n =>
    if n = c.byteLength then
      let run := { run with source := run.source.map (fun s => { s with status := .isOpen h }) }
      (e.updateLane l (fun _ => run)).verifyNext g l run d c
    else e.failVerify g l d
  | .reading, .data bs =>
    let run := run.digestBlock bs
    let d' := { d with progress := d.progress + bs.length }
    ((e.updateLane l (fun _ => run)).updateDescriptor d.slot (fun _ => d')).verifyNext g l run d' c
  | .closing, _ => e.compareVerify g l run d c
  | _, _ => e.failVerify g l d

/-! ## MANIFEST -/

/-- A manifest fails (R103). -/
def Engine.failManifest (e : Engine) (l : Fin 2) (d : Descriptor) : Engine :=
  match d.targets with
  | v :: _ => (e.signal { Event.ofCard .copyFailed d.card with volume := some v }).endDescriptor l d
  | [] => e

/-- The next operation of a manifest's write; with the port not ONLINE the manifest fails (R103). -/
def Engine.askManifest (e : Engine) (l : Fin 2) (d : Descriptor) (p : Fin 4) (phase : LanePhase) (request : OpRequest) : Engine :=
  ((e.updateLane l (fun r => { r with phase := phase })).ask p (.lane l) request).getD (e.failManifest l d)

/-- A MANIFEST is answered (R103): OPEN_WRITE, one APPEND of the whole manifest, and CLOSE. -/
def Engine.manifestReply (e : Engine) (l : Fin 2) (run : LaneRun) (d : Descriptor) (r : Reply) : Engine :=
  match run.targets with
  | t :: _ =>
    match run.phase, r with
    | .opening, .handle h => (e.setTarget l t.entry (.isOpen h)).askManifest l d t.port .appending (.append h run.block)
    | .appending, .ok =>
      match t.status with
      | .isOpen h => e.askManifest l d t.port .closing (.close h)
      | _ => e.failManifest l d
    | .closing, .ok => (e.updateDescriptor d.slot (fun d => { d with progress := run.block.length })).endDescriptor l d
    | _, _ => e.failManifest l d
  | [] => e

/-! ## Starting a descriptor -/

/-- What a lane holds as it starts a descriptor: both registers of its Digest Unit are started (R84). -/
def LaneRun.start (slot : Fin 64) : LaneRun :=
  { slot := slot, phase := .opening, targets := [], source := none, crcHigh := crcOnes, crcLow := crcOnes, block := [],
    lastPassed := false, readDigest := none, consistent := false, abortMark := false, parse := none, sizeFault := none }

/-- One target of a starting COPY (R85): its port is resolved and OPEN_WRITE sent, or it drops out at once. -/
def Engine.openTarget (g : Settings) (l : Fin 2) (d : Descriptor) (name : Text) (e : Engine) (v : Fin 16) : Engine :=
  match e.portOf v with
  | some p =>
    match e.ask p (.lane l) (.openWrite name) with
    | some e => e.updateLane l (fun r => { r with targets := r.targets ++ [⟨v, p, .opening⟩] })
    | none => e.copyFails g d v 3
  | none => e.copyFails g d v 3

/-- The source of a starting COPY or VERIFY on a volume: OPEN_READ is sent (R85, R91); none when the volume is not inserted. -/
def Engine.openSource (e : Engine) (l : Fin 2) (name : Text) (v : Fin 16) : Option Engine :=
  match e.portOf v with
  | some p =>
    (e.ask p (.lane l) (.openRead name)).map (fun e =>
      e.updateLane l (fun r => { r with source := some ⟨v, p, .opening⟩ }))
  | none => none

/-- A lane starts a COPY (R85). A take of no bytes has no block still to read from its card (R86, R89).
(DEDUCED, notes/assumptions/18.md.) (DEDUCED, notes/assumptions/32.md.) Each card-sourced COPY starts a parse (R53, R169), and where
every target has dropped out by then, it stops at once. (DEDUCED, notes/assumptions/57.md.) -/
def Engine.startCopy (g : Settings) (e : Engine) (l : Fin 2) (d : Descriptor) (c : Clip) (r : CardRecord) : Engine :=
  let name := c.copyName r
  let e := e.updateLane l (fun x => { x with lastPassed := decide (c.byteLength = 0) })
  let e := d.targets.foldl (Engine.openTarget g l d name) e
  let e := if d.source = some .card then e.startParse g l c else e
  match e.laneRun l with
  | some run =>
    if run.targets = [] then e.stopCopy g l .allDropped
    else
      match d.sourceVolume with
      | some v => (e.openSource l name v).getD (e.stopCopy g l .sourceLost)
      | none => e
  | none => e

/-- A lane starts a VERIFY (R91, R92). -/
def Engine.startVerify (g : Settings) (e : Engine) (l : Fin 2) (d : Descriptor) (c : Clip) (r : CardRecord) : Engine :=
  match d.targets with
  | v :: _ =>
    let e := e.setCopyState c.handle v .verifying
    (e.openSource l (c.copyName r) v).getD (e.failVerify g l d)
  | [] => e

/-- A lane starts a MANIFEST (R103): the manifest is composed at that moment. -/
def Engine.startManifest (e : Engine) (l : Fin 2) (d : Descriptor) (r : CardRecord) : Engine :=
  match d.targets with
  | v :: _ =>
    match e.portOf v with
    | some p =>
      if d.serial = some (e.serialOf v) then
        let e := e.updateLane l (fun x => { x with targets := [⟨v, p, .opening⟩], block := e.manifest d.card v })
        e.askManifest l d p .opening (.openWrite (manifestName r.serial r.format))
      else e.failManifest l d
    | none => e.failManifest l d
  | [] => e

/-- A lane is granted a descriptor, which becomes RUNNING (R83). -/
def Engine.startDescriptor (g : Settings) (e : Engine) (l : Fin 2) (d : Descriptor) : Engine :=
  let d := { d with state := .running }
  let e := e.updateDescriptor d.slot (fun _ => d)
  let e := { e with lanes := e.lanes.set l (.running (LaneRun.start d.slot)) }
  match e.cards[d.card], d.kind with
  | some r, .manifest => e.startManifest l d r
  | some r, .copy =>
    match d.clip.bind e.clipAt with
    | some c => e.startCopy g l d c r
    | none => e.endDescriptor l d
  | some r, .verify =>
    match d.clip.bind e.clipAt with
    | some c => e.startVerify g l d c r
    | none => e.endDescriptor l d
  | none, _ => e.endDescriptor l d

/-! ## The lane grant -/

/-- What a descriptor reads from, for the lane grant (R83): a card port, or a volume entry. -/
inductive SourceKey where
  | port (p : Fin 4)
  | volume (v : Fin 16)
deriving DecidableEq, Repr

/-- The source of a descriptor for the lane grant: none for a MANIFEST, and for a card that is in no reader (R83). -/
def Engine.sourceKey (e : Engine) (d : Descriptor) : Option SourceKey :=
  match d.source with
  | some .card => ((e.cards[d.card]).bind (·.attached)).map SourceKey.port
  | some (.volume v) => some (.volume v)
  | none => none

/-- No RUNNING descriptor reads from the descriptor's source (R83). A card-sourced one needs its card in a reader. -/
def Engine.sourceFree (e : Engine) (d : Descriptor) : Bool :=
  match d.source, e.sourceKey d with
  | none, _ => true
  | some _, none => false
  | some _, some k => !e.queue.any (fun x => decide (x.state = .running) && decide (e.sourceKey x = some k))

/-- No card-sourced COPY of the same card stands before the descriptor in the queue: the card's chain (R83). -/
def Engine.headsChain (e : Engine) (d : Descriptor) : Bool :=
  !d.cardSourced ||
    decide (((e.queue.find? (fun x => x.cardSourced && decide (x.card = d.card))).map (·.slot)) = some d.slot)

/-- The oldest eligible descriptor (R83). -/
def Engine.eligible (e : Engine) : Option Descriptor :=
  e.queue.find? (fun d => decide (d.state = .queued) && e.sourceFree d && e.headsChain d)

/-- The lowest-numbered IDLE lane. -/
def Engine.idleLane (e : Engine) : Option (Fin 2) := (List.finRange 2).find? (fun l => decide (e.lanes[l] = .idle))

/-- The lane grant (R83), made again while a granted descriptor ends at once; `n` bounds the grants. -/
def Engine.grantLanes (g : Settings) : Nat → Engine → Engine
  | 0, e => e
  | n + 1, e =>
    match e.idleLane, e.eligible with
    | some l, some d => Engine.grantLanes g n (e.startDescriptor g l d)
    | _, _ => e

/-- The lane grant, and what the Render Engine can do then (R83, R134). (DEDUCED, notes/assumptions/11.md.) A lane that is granted
asks its ports before a render context does. (DESIGN CHOICE, notes/assumptions/56.md.) -/
def Engine.settleTransfer (g : Settings) (e : Engine) : Engine := (Engine.grantLanes g (e.queue.length + 3) e).settleRender g

/-! ## Answers to a lane -/

/-- One target of a COPY is answered (R85 to R88). -/
def Engine.targetReply (g : Settings) (e : Engine) (l : Fin 2) (run : LaneRun) (d : Descriptor) (t : Target) (r : Reply) :
    Engine :=
  match t.status, r with
  | .opening, .handle h => e.setTarget l t.entry (.isOpen h)
  | .appending h, .ok => e.setTarget l t.entry (.isOpen h)
  | .closing, .ok =>
    match e.clipAndCard d with
    | some (c, card) => e.targetClosed g l run d card c.handle t.entry
    | none => e
  | _, .noSpace => e.dropTarget g l d t.entry 1
  | _, .lost => e.dropTarget g l d t.entry 3
  | _, _ => e.dropTarget g l d t.entry 2

/-- The volume source of a COPY is answered (R85, R86, R88, R89). -/
def Engine.sourceReply (g : Settings) (e : Engine) (l : Fin 2) (s : VolumeSource) (c : Clip) (r : Reply) : Engine :=
  match s.status, r with
  | .opening, .opened h n =>
    if n = c.byteLength then
      (e.updateLane l (fun x => { x with source := some { s with status := .isOpen h } })).advanceCopy g l
    else e.stopCopy g l .sourceLost
  | .isOpen _, .data bs => e.copyBlock g l bs
  | .closing, _ => (e.updateLane l (fun x => { x with source := some { s with status := .closed } })).advanceCopy g l
  | .closed, _ => e
  | _, _ => e.stopCopy g l .sourceLost

/-- A COPY is answered from a port: the answer is for the target at the port, or for the source. -/
def Engine.copyReply (g : Settings) (e : Engine) (l : Fin 2) (run : LaneRun) (d : Descriptor) (c : Clip) (p : Fin 4) (r : Reply) :
    Engine :=
  match run.targets.find? (fun t => decide (t.port = p) && (t.status.live || decide (t.status = .closing))) with
  | some t => (e.targetReply g l run d t r).advanceCopy g l
  | none =>
    match run.source with
    | some s => if s.port = p then e.sourceReply g l s c r else e
    | none => e

/-- A lane is answered from a port (R73). -/
def Engine.laneReply (g : Settings) (e : Engine) (l : Fin 2) (p : Fin 4) (r : Reply) : Engine :=
  match e.laneWork l with
  | some (run, d) =>
    match d.kind, d.clip.bind e.clipAt with
    | .manifest, _ => e.manifestReply l run d r
    | .copy, some c => e.copyReply g l run d c p r
    | .verify, some c => e.verifyReply g l run d c r
    | _, none => e
  | none => e

/-! ## Losses -/

/-- The volume at a port is removed under a lane (R69, R87, R89, R92, R103). -/
def Engine.laneLoses (g : Settings) (p : Fin 4) (e : Engine) (l : Fin 2) : Engine :=
  match e.laneWork l with
  | some (run, d) =>
    match d.kind, d.clip.bind e.clipAt with
    | .manifest, _ => if run.targets.any (fun t => decide (t.port = p)) then e.failManifest l d else e
    | .copy, some c => e.copyReply g l run d c p .lost
    | .verify, some c =>
      if run.source.map (·.port) = some p then e.verifyReply g l run d c .lost else e
    | _, none => e
  | none => e

/-- The source of a lane's card-sourced COPY is lost (R89). -/
def Engine.cardLost (g : Settings) (e : Engine) (l : Fin 2) : Engine := e.stopCopy g l .sourceLost

/-- The card-sourced COPYs of a card that still need it stop as its record detaches (R89). -/
def Engine.detachLanes (g : Settings) (card : Fin 32) (e : Engine) : Engine :=
  (List.finRange 2).foldl (fun e l =>
    match e.laneWork l with
    | some (run, d) => if d.cardSourced ∧ d.card = card ∧ run.lastPassed = false then e.cardLost g l else e
    | none => e) e

end Sys2Proof.Machine
end

