-- ==== Sys2Proof/Machine/CardPorts.lean ====
section
/-!
DEFINITION. The card ports: when a directory is valid (R27), a port's arrivals, directory read and departures (R28 to R32), and
its reads and stalls (R34 to R36).
-/

namespace Sys2Proof.Machine

/-! ## The directory -/

/-- A label of 0 to 16 characters, each 0x20..0x7E (R27, R64). -/
def labelValidText (t : Text) : Bool :=
  decide (t.length ≤ 16) && t.all (fun b => decide (0x20 ≤ b.toNat) && decide (b.toNat ≤ 0x7E))

/-- A take name that a directory may hold (R27): 1 to 24 characters, each 0x21..0x7E and none "/". -/
def takeNameValid (t : Text) : Bool :=
  decide (1 ≤ t.length) && decide (t.length ≤ 24) &&
    t.all (fun b => decide (0x21 ≤ b.toNat) && decide (b.toNat ≤ 0x7E) && decide (b.toNat ≠ 0x2F))

/-- Indices strictly ascending. -/
def ascendingIndices : List Take → Bool
  | [] => true
  | [_] => true
  | a :: b :: rest => decide (a.index < b.index) && ascendingIndices (b :: rest)

/-- No two names equal. -/
def distinctNames : List Take → Bool
  | [] => true
  | t :: rest => rest.all (fun u => decide (u.name ≠ t.name)) && distinctNames rest

/-- A directory answer is valid (R27). -/
def directoryValid (d : Directory) : Bool :=
  labelValidText d.label && decide (d.takeCount ≤ 255) && decide (d.takeCount = d.takes.length) && ascendingIndices d.takes &&
    d.takes.all (fun t => decide (t.index ≤ 254) && takeNameValid t.name && decide (t.length < 1099511627776)) &&
    distinctNames d.takes

/-! ## Arrivals and departures -/

/-- A card is seated in an EMPTY port: DIRECTORY is sent (R28). -/
def Engine.seat (e : Engine) (p : Fin 4) : Engine := e.updatePort p (fun x => { x with state := .reading })

/-- The port enters EMPTY and drops its directory (R31, R32). -/
def Engine.emptyPort (e : Engine) (p : Fin 4) : Engine :=
  e.updatePort p (fun x => { x with state := .empty, held := none, read := none })

/-- The removal of an attached card sets HELD_BY_ABSENCE when a card-sourced COPY of the card waits (R32, step 2). -/
def Engine.holdForAbsence (e : Engine) (card : Fin 32) : Engine :=
  if e.queue.any (fun d => d.cardSourced && decide (d.card = card) && decide (d.state ≠ .running)) then
    e.changeHolds card (fun r => { r with heldByAbsence := true })
  else e

/-- An attached card leaves its port (R32). -/
def Engine.removeAttached (g : Settings) (e : Engine) (p : Fin 4) (card : Fin 32) : Engine :=
  let e := e.updatePort p (fun x => { x with read := none })
  let e := (e.detachLanes g card).holdForAbsence card
  let e := (e.detachCard p card).emptyPort p
  (e.signal (Event.ofCard .cardRemoved card)).reevaluateNoRecord

/-- ABSENT in a port's state (R28, R31, R32). -/
def Engine.cardLeaves (g : Settings) (e : Engine) (p : Fin 4) : Engine :=
  match (e.cardPorts[p]).state with
  | .empty => e
  | .reading => e.emptyPort p
  | .unreadable => e.emptyPort p
  | .noRecord => { e with noRecord := e.noRecord.erase p }.emptyPort p
  | .attached | .stalled =>
    match e.cardAt p with
    | some card => e.removeAttached g p card
    | none => e.emptyPort p

/-- PRESENT (R28): a reseat acts as an ABSENT first. -/
def Engine.cardArrives (g : Settings) (e : Engine) (p : Fin 4) : Engine := ((e.cardLeaves g p).seat p).settleTransfer g

/-- The directory read has failed (R30). -/
def Engine.unreadable (e : Engine) (p : Fin 4) : Engine := e.updatePort p (fun x => { x with state := .unreadable, held := none })

/-- A directory answer to a port in READING (R29, R30). -/
def Engine.directoryArrives (g : Settings) (e : Engine) (p : Fin 4) (a : DirectoryAnswer) : Engine :=
  match (e.cardPorts[p]).state, a with
  | .reading, .directory d =>
    if directoryValid d then ((e.updatePort p (fun x => { x with held := some d })).handDirectory p d).settleTransfer g
    else e.unreadable p
  | .reading, .error => e.unreadable p
  | _, _ => e

/-! ## Reads and stalls -/

/-- A port enters STALLED (R36). -/
def Engine.stall (g : Settings) (e : Engine) (p : Fin 4) (r : CardRead) : Engine :=
  let e := e.updatePort p (fun x => { x with state := .stalled, read := none })
  let card := e.cardAt p
  let e := e.cardLost g r.lane
  match card with
  | some c => (e.changeHolds c (fun x => { x with heldByStall := true })).signal (Event.ofCard .cardStalled c)
  | none => e

/-- An attempt of a read fails (R35): it is retried with a new timer, or the port stalls. -/
def Engine.attemptFails (g : Settings) (e : Engine) (p : Fin 4) (r : CardRead) : Engine :=
  if r.attempt < (g.stall[p]).retries.val then
    e.updatePort p (fun x => { x with read := some { r with attempt := r.attempt + 1, period := (g.stall[p]).period } })
  else e.stall g p r

/-- A reader answers the READ outstanding at its port (R26, R34, R35). -/
def Engine.readArrives (g : Settings) (e : Engine) (p : Fin 4) (a : ReadAnswer) : Engine :=
  match (e.cardPorts[p]).read, a with
  | some r, .data bytes =>
    if bytes.length = r.length then
      ((e.updatePort p (fun x => { x with read := none })).copyBlock g r.lane bytes).settleTransfer g
    else (e.attemptFails g p r).settleTransfer g
  | some r, .error => (e.attemptFails g p r).settleTransfer g
  | none, _ => e

/-- The stall period of the attempt in progress expires (R35). -/
def Engine.stallExpires (g : Settings) (e : Engine) (p : Fin 4) : Engine :=
  match (e.cardPorts[p]).read with
  | some r => (e.attemptFails g p r).settleTransfer g
  | none => e

end Sys2Proof.Machine
end

