-- ==== Sys2Proof/Machine/DestPorts.lean ====
section
/-!
DEFINITION. The destination ports' events: arrivals and removals of drives (R64, R68, R69), identification (R64), and the answers
and time-outs of object operations (R62, R73).
-/

namespace Sys2Proof.Machine

/-! ## Arrival and removal -/

/-- A drive is mounted in an EMPTY port: IDENTIFY is sent (R64). -/
def Engine.mount (e : Engine) (p : Fin 4) : Engine := e.updateDest p (fun d => { d with state := .identifying })

/-- The requester whose operation has ended learns that nothing of it is in flight any more (R82, R134). -/
def Engine.settleRequester (e : Engine) (who : Requester) : Engine :=
  match who with
  | .lane l => e.settleLane l
  | .context c => e.settleContext c

/-- A requester learns that a port has lost its volume (R69). -/
def Engine.requesterLoses (g : Settings) (p : Fin 4) (e : Engine) (who : Requester) : Engine :=
  match who with
  | .lane l => e.laneLoses g p l
  | .context c => e.contextLoses g p c

/-- The requesters of a port in the order they learn that its volume is lost (R69): the one whose operation is in flight, then those
that wait, then those that hold an object open there and ask for nothing; several of one kind in the arbiter's order.
(DESIGN CHOICE, notes/assumptions/40.md.) -/
def DestPort.losers (d : DestPort) : List Requester :=
  let all : List Requester := [.lane 0, .lane 1, .context 0, .context 1]
  let asked := d.inflight.toList.filter (fun op => !op.discarded)
  let first := asked.map (·.who)
  let waits (w : Requester) : Bool := d.waiting.any (fun op => decide (op.who = w))
  let others := all.filter (fun w => !first.contains w)
  first ++ others.filter waits ++ others.filter (fun w => !waits w)

/-- The volume of an ONLINE port is removed (R69). The entry and the port change before the requesters act on volume-lost, so
that no requester is served there again. -/
def Engine.removeVolume (g : Settings) (e : Engine) (p : Fin 4) (v : Fin 16) : Engine :=
  let d := e.destPorts[p]
  let e := e.updateDest p (fun d => { d with state := .empty, inflight := none, waiting := [] })
  let e := e.updateVolume v (fun x => { x with inserted := none })
  let e := (d.losers.foldl (Engine.requesterLoses g p) e).suspendedLose g v
  let e := match d.inflight with | some op => e.settleRequester op.who | none => e
  let e := e.signal (Event.ofVolume .volumeRemoved v)
  ((e.freeIfUnused v).1.reevaluateUntracked).settleTransfer g

/-- REMOVED in a port's state (R64, R68, R69). -/
def Engine.driveLeaves (g : Settings) (e : Engine) (p : Fin 4) : Engine :=
  match (e.destPorts[p]).state with
  | .empty => e
  | .identifying | .offline => e.updateDest p (fun d => { d with state := .empty })
  | .untracked _ _ => { e with untracked := e.untracked.erase p }.updateDest p (fun d => { d with state := .empty })
  | .online =>
    match e.entryAt p with
    | some v => e.removeVolume g p v
    | none => e.updateDest p (fun d => { d with state := .empty })

/-- INSERTED (R64): a remount acts as a REMOVED first. -/
def Engine.driveArrives (g : Settings) (e : Engine) (p : Fin 4) : Engine := (e.driveLeaves g p).mount p

/-- Identification has failed (R64). -/
def Engine.goOffline (e : Engine) (p : Fin 4) : Engine := e.updateDest p (fun d => { d with state := .offline })

/-- An IDENTIFY answer to a port in IDENTIFYING (R64, R65). -/
def Engine.identified (g : Settings) (e : Engine) (p : Fin 4) (a : IdentifyAnswer) : Engine :=
  match (e.destPorts[p]).state, a with
  | .identifying, .volume serial label =>
    if labelValidText label then (e.place p serial label).settleTransfer g else e.goOffline p
  | .identifying, .error => e.goOffline p
  | _, _ => e

/-! ## Object operations -/

/-- A requester is answered (R73). -/
def Engine.requesterReply (g : Settings) (e : Engine) (p : Fin 4) (who : Requester) (r : Reply) : Engine :=
  match who with
  | .lane l => e.laneReply g l p r
  | .context c => e.contextReply g c r

/-- The operation in flight at a port ends with an answer: the full flag is noted, the arbiter grants the next, and the requester
is answered, or a stopped one drains (R70, R72, R73, R82, R134). -/
def Engine.operationEnds (g : Settings) (e : Engine) (p : Fin 4) (op : Operation) (r : Reply) : Engine :=
  let e := (e.noteFull p r).updateDest p DestPort.endOperation
  let e := if op.discarded then e.settleRequester op.who else e.requesterReply g p op.who r
  e.settleTransfer g

/-- An enclosure answers the operation in flight at its port, when the answer is one to that operation. -/
def Engine.operationAnswered (g : Settings) (e : Engine) (p : Fin 4) (reply : OpRequest → Option Reply) : Engine :=
  match (e.destPorts[p]).inflight with
  | some op =>
    match reply op.request with
    | some r => e.operationEnds g p op r
    | none => e
  | none => e

/-- The answer of an enclosure to OPEN_WRITE (R62). -/
def openWriteReply (a : OpenWriteAnswer) : OpRequest → Option Reply
  | .openWrite _ => some (match a with | .handle h => .handle h | .noSpace => .noSpace | .error => .error)
  | _ => none

/-- The answer of an enclosure to APPEND (R62). -/
def appendReply (a : AppendAnswer) : OpRequest → Option Reply
  | .append _ _ => some (match a with | .ok => .ok | .noSpace => .noSpace | .error => .error)
  | _ => none

/-- The answer of an enclosure to CLOSE (R62). -/
def closeReply (a : CloseAnswer) : OpRequest → Option Reply
  | .close _ => some (match a with | .ok => .ok | .error => .error)
  | _ => none

/-- The answer of an enclosure to OPEN_READ (R62). -/
def openReadReply (a : OpenReadAnswer) : OpRequest → Option Reply
  | .openRead _ => some (match a with | .handle h n => .opened h n | .notFound => .error | .error => .error)
  | _ => none

/-- The answer of an enclosure to READ (R62): a wrong number of bytes is an ERROR. -/
def readReply (a : ReadAnswer) : OpRequest → Option Reply
  | .read _ _ n => some (match a with | .data bs => if bs.length = n then .data bs else .error | .error => .error)
  | _ => none

/-- The request outstanding at a port has had no answer for 5 seconds: it is answered ERROR (R62, R64). -/
def Engine.enclosureTimesOut (g : Settings) (e : Engine) (p : Fin 4) : Engine :=
  match (e.destPorts[p]).state with
  | .identifying => e.goOffline p
  | _ => e.operationAnswered g p (fun _ => some .error)

end Sys2Proof.Machine
end

