-- ==== Sys2Proof/Machine/Offload.lean ====
section
/-!
DEFINITION. The OFFLOAD station's work on cards and clips: START_OFFLOAD and its top-up (R95, R96), HOLD_CARD, RESUME_CARD and
ABORT_CARD (R97 to R99), RECOPY and the requeue (R100, R101), and RELEASE_CARD (R102).
-/

namespace Sys2Proof.Machine

/-! ## Queueing a COPY -/

/-- The catalogue makes or resets the copy record of one target of a COPY (R8, R80): a replaced record's entry loses a
reference, and a reset takes the copy from a job that reads it (R140). -/
def Engine.makeRecord (g : Settings) (h : Handle) (generation : Nat) (e : Engine) (v : Fin 16) : Engine :=
  match e.clipAt h with
  | some c =>
    let plan := recordPlan c.copies (e.busyVolumes h) v
    let e := e.updateClip h (fun c => { c with copies := plan.apply c.copies v generation })
    match plan with
    | .replace old => e.settleEntry old
    | .resetRecord => e.failReaders g h v
    | .append => e
    | .refuse => e
  | none => e

/-- A COPY of a clip is queued (R80): its records are made in the order of its targets, before it joins the queue.
(DESIGN CHOICE, notes/assumptions/38.md.) -/
def Engine.queueCopy (g : Settings) (e : Engine) (card : Fin 32) (h : Handle) (source : Source) (targets : List (Fin 16))
    (generation : Nat) : Engine :=
  let e := targets.foldl (Engine.makeRecord g h generation) e
  (e.addDescriptor { kind := .copy, clip := some h, card := card, source := some source, targets := targets, serial := none,
                     generation := generation }).markQueued h

/-- The volumes ONLINE at the ports of a mask, in ascending port order. -/
def Engine.volumesAt (e : Engine) (mask : BitVec 4) : List (Fin 16) :=
  (List.finRange 4).filterMap (fun p : Fin 4 => if mask.getLsbD p.val then e.entryAt p else none)

/-- The available volumes of a set (R95): ONLINE at its ports, with the full flag clear. -/
def Engine.availableVolumes (e : Engine) (mask : BitVec 4) : List (Fin 16) :=
  (e.volumesAt mask).filter (fun v => decide ((e.volumes[v]).map (·.full) = some false))

/-! ## START_OFFLOAD -/

/-- The targets of a clip in a top-up (R96). -/
def Engine.topUpTargets (e : Engine) (available : List (Fin 16)) (required : Nat) (c : Clip) : List (Fin 16) :=
  if c.securedCount < required then
    plannedTargets (e.busyVolumes c.handle) (available.filter (fun v => !c.securedOn v)) c.copies
  else []

/-- The COPYs of a START_OFFLOAD: every clip to every available volume in a first offload (R95), and in a top-up each short clip
to its targets (R96). -/
def Engine.offloadWork (e : Engine) (card : Fin 32) (first : Bool) (available : List (Fin 16)) (required : Nat) :
    List (Handle × List (Fin 16)) :=
  if first then (e.clipsOf card).map (fun c => (c.handle, available))
  else ((e.clipsOf card).map (fun c => (c.handle, e.topUpTargets available required c))).filter (fun x => decide (x.2 ≠ []))

/-- The card's state as a START_OFFLOAD leaves it (R94, R95, R96). -/
def Engine.enterOffload (e : Engine) (card : Fin 32) : Engine :=
  match e.cardStateFromQueue card with
  | .offloaded => e.becomeOffloaded card
  | x => e.setCardState card x

/-- START_OFFLOAD carried out (R95, R96): the snapshot, the copy states it changes, the COPYs, and the card's state. -/
def Engine.beginOffload (g : Settings) (e : Engine) (card : Fin 32) (set : SetFields) (work : List (Handle × List (Fin 16))) :
    Engine :=
  let e := e.updateCard card (fun r => { r with snapshot := some set })
  let e := ((e.clipsOf card).map (·.handle)).foldl Engine.recomputeCopyState e
  let e := work.foldl (fun e x => e.queueCopy g card x.1 .card x.2 0) e
  (e.enterOffload card).settleTransfer g

/-- START_OFFLOAD (R95, R96): the descriptors queued, the volumes chosen, and what follows. The volumes that a top-up answers are
all the available ones. (DESIGN CHOICE, notes/assumptions/41.md.) -/
def Engine.startOffload (g : Settings) (e : Engine) (card set : Nat) : Except Status (Nat × List (Fin 16) × Engine) :=
  match e.checkCard card with
  | .error x => .error x
  | .ok (card, r) =>
    match checkIndex 4 set with
    | .error x => .error x
    | .ok set =>
      let fields := g.sets[set]
      if fields.mask = 0 then .error .badArgument
      else if r.state ≠ .ready ∧ r.state ≠ .offloaded then .error .wrongState
      else if r.attached = none then .error .wrongState
      else
        let available := e.availableVolumes fields.mask
        let work := e.offloadWork card (decide (r.state = .ready)) available fields.copies
        if available.length < fields.copies then .error .noDestination
        else if e.freeDescriptors < work.length then .error .full
        else .ok (work.length, available, e.beginOffload g card fields work)

/-! ## HOLD_CARD, RESUME_CARD, ABORT_CARD -/

/-- HOLD_CARD (R97). -/
def Engine.holdCard (e : Engine) (card : Nat) : Except Status Engine :=
  match e.checkCard card with
  | .error x => .error x
  | .ok (card, r) =>
    if r.state = .offloading ∨ r.state = .held then .ok (e.changeHolds card (fun r => { r with heldByRequest := true }))
    else .error .wrongState

/-- The states in which RESUME_CARD, ABORT_CARD and RECOPY are taken (R98, R99, R100). -/
def CardState.workable : CardState → Bool
  | .offloading => true
  | .held => true
  | .offloaded => true
  | .released => true
  | .waitSpace => false
  | .ready => false
  | .releasing => false

/-- The card port's side of RESUME_CARD (R37): a STALLED port returns to ATTACHED. -/
def Engine.unstall (e : Engine) (r : CardRecord) : Engine :=
  match r.attached with
  | some p => e.updatePort p (fun x => { x with state := if x.state = .stalled then .attached else x.state })
  | none => e

/-- RESUME_CARD (R37, R98). -/
def Engine.resumeCard (g : Settings) (e : Engine) (card : Nat) : Except Status Engine :=
  match e.checkCard card with
  | .error x => .error x
  | .ok (card, r) =>
    if r.state.workable then
      let e := if r.heldByStall then e.unstall r else e
      .ok ((e.changeHolds card (fun r => { r with heldByRequest := false, heldByStall := false })).settleTransfer g)
    else .error .wrongState

/-- A QUEUED or HELD descriptor is removed by ABORT_CARD (R99): the records of a COPY become FAILED. -/
def Engine.abortWaiting (e : Engine) (d : Descriptor) : Engine :=
  let e := match d.kind, d.clip with
    | .copy, some h => d.targets.foldl (fun (e : Engine) v => e.updateCopy h v (fun r => { r with state := .failed })) e
    | _, _ => e
  (e.dropDescriptor d.slot).settleRemoval d

/-- A RUNNING COPY of the card is marked (R99). A lane that runs a COPY always has its opens, a block or its CLOSEs in hand, so the
mark takes effect at the boundary that ends them. -/
def Engine.markAbort (card : Fin 32) (e : Engine) (l : Fin 2) : Engine :=
  match e.laneDescriptor l with
  | some d => if d.kind = .copy ∧ d.card = card then e.updateLane l (fun r => { r with abortMark := true }) else e
  | none => e

/-- ABORT_CARD (R99). Its waiting descriptors are removed in queue order. (DESIGN CHOICE, notes/assumptions/47.md.) -/
def Engine.abortCard (g : Settings) (e : Engine) (card : Nat) : Except Status Engine :=
  match e.checkCard card with
  | .error x => .error x
  | .ok (card, r) =>
    if r.state.workable then
      let waiting := e.queue.filter (fun d => d.worksFor card && decide (d.state ≠ .running))
      let e := waiting.foldl Engine.abortWaiting e
      let e := (List.finRange 2).foldl (Engine.markAbort card) e
      .ok ((e.changeHolds card (fun r => { r with heldByRequest := false })).settleTransfer g)
    else .error .wrongState

/-! ## RECOPY -/

/-- The source of a RECOPY (R100): the card when it is in a reader, else the lowest inserted volume with a VERIFIED copy of a clip
that has a source digest. -/
def Engine.recopySource (e : Engine) (c : Clip) (r : CardRecord) : Option Source :=
  if r.attached.isSome then some .card
  else if c.sourceDigest.isSome then
    ((List.finRange 16).find? (fun v => (e.portOf v).isSome && decide ((c.copyOn v).map (·.state) = some .verified))).map
      Source.volume
  else none

/-- The recopy targets of a clip at the ports of a mask (R100). -/
def Engine.recopyTargets (e : Engine) (c : Clip) (mask : BitVec 4) : List (Fin 16) :=
  (e.volumesAt mask).filter (fun v => !c.securedOn v && !e.queue.any (fun d => d.namesPair c.handle v))

/-- The checks of RECOPY and the COPY it queues, before the lane grant (R100). -/
def Engine.queueRecopy (g : Settings) (e : Engine) (c : Clip) (mask : BitVec 4) (generation : Nat) :
    Except Status (Fin 64 × Source × List (Fin 16) × Engine) :=
  match e.cards[c.card] with
  | none => .error .wrongState
  | some r =>
    if r.state.workable then
      let targets := e.recopyTargets c mask
      if targets = [] then .error .noDestination
      else if plannedTargets (e.busyVolumes c.handle) targets c.copies ≠ targets then .error .full
      else
        match e.recopySource c r with
        | none => .error .noSource
        | some source =>
          match e.freeDescriptor with
          | none => .error .full
          | some slot =>
            .ok (slot, source, targets, (e.queueCopy g c.card c.handle source targets generation).recomputeCard c.card)
    else .error .wrongState

/-- RECOPY (R100). -/
def Engine.recopy (g : Settings) (e : Engine) (slot gen mask : Nat) :
    Except Status (Fin 64 × Source × List (Fin 16) × Engine) :=
  match e.checkClip slot gen with
  | .error x => .error x
  | .ok c =>
    if mask = 0 ∨ 15 < mask then .error .badArgument
    else
      match e.queueRecopy g c (BitVec.ofNat 4 mask) 0 with
      | .error x => .error x
      | .ok (d, source, targets, e) => .ok (d, source, targets, e.settleTransfer g)

/-- A requeue of a clip to a volume at a generation (R101): one that RECOPY would refuse has no effect. -/
def Engine.requeue (g : Settings) (e : Engine) (h : Handle) (v : Fin 16) (generation : Nat) : Engine :=
  match e.clipAt h, e.portOf v with
  | some c, some p =>
    match e.queueRecopy g c (BitVec.ofNat 4 (2 ^ p.val)) generation with
    | .ok (_, _, _, e) => e.settleTransfer g
    | .error _ => e
  | _, _ => e

/-! ## RELEASE_CARD -/

/-- One MANIFEST of a release is queued for a volume (R79, R102). -/
def Engine.queueManifest (card : Fin 32) (e : Engine) (v : Fin 16) : Engine :=
  e.addDescriptor { kind := .manifest, clip := none, card := card, source := none, targets := [v], serial := some (e.serialOf v),
                    generation := 0 }

/-- A release as granted (R102, R104, R176): RELEASING, the list's BLOCK records lowered, the manifests queued. -/
def Engine.release (g : Settings) (e : Engine) (card : Fin 32) (volumes : List (Fin 16)) : Engine :=
  let e := (e.setCardState card .releasing).lowerFaults card
  let e := volumes.foldl (Engine.queueManifest card) e
  (e.settleRelease card).settleTransfer g

/-- RELEASE_CARD (R102): its refusal with the counts of NOT_SECURED, or the number of manifests and what follows. -/
def Engine.releaseCard (g : Settings) (e : Engine) (card : Nat) : Except (Status × Option (Nat × Nat)) (Nat × Engine) :=
  match e.checkCard card with
  | .error x => .error (x, none)
  | .ok (card, r) =>
    match r.state, r.snapshot with
    | .offloaded, some sn =>
      let short := e.shortClips card sn.copies
      let blocked := e.blockedClips card
      if 0 < short ∨ 0 < blocked then .error (.notSecured, some (short, blocked))
      else
        let volumes := e.volumesAt sn.mask
        if e.freeDescriptors < volumes.length then .error (.full, none)
        else .ok (volumes.length, e.release g card volumes)
    | _, _ => .error (.wrongState, none)

end Sys2Proof.Machine
end

