-- ==== Sys2Proof/Machine/Links.lean ====
section
/-!
DEFINITION. The Event Link Matrix: matching (R194), the actions (R195, R196), the copy requeues (R197, R199) and the pending
requeue list (R198).
-/

namespace Sys2Proof.Machine

/-! ## Matching -/

/-- The camera letter of an event, from the records as they stand (R194). -/
def Engine.cameraOfEvent (e : Engine) (ev : Event) : Option Byte :=
  match ev.clip, ev.card with
  | some h, _ => ((e.clipAt h).bind (·.header)).map (·.camera)
  | none, some c => ((e.clipsOf c).findSome? (·.header)).map (·.camera)
  | none, none => none

/-- An entry matches an event that has a camera letter (R194). -/
def LinkEntry.matchesEvent (x : LinkEntry) (ev : Event) (camera : Option Byte) : Bool :=
  x.enabled && decide (x.kind = ev.kind) &&
    (match x.camera with | none => true | some c => decide (camera = some c)) &&
    (match ev.severity with | some s => decide (x.severity.rank ≤ s.rank) | none => true)

/-! ## Requeues -/

/-- A pair joins the pending requeue list: a pair already there is merged, keeping its place and the higher generation (R198).
A ninth pair is dropped. (DESIGN CHOICE, notes/assumptions/51.md.) -/
def placeRequeue (xs : List Requeue) (x : Requeue) : List Requeue :=
  if xs.any (fun y => decide (y.clip = x.clip) && decide (y.volume = x.volume)) then
    xs.map (fun y => if y.clip = x.clip ∧ y.volume = x.volume then { y with generation := max y.generation x.generation } else y)
  else if xs.length < Config.maxRequeues then xs ++ [x]
  else xs

/-- A descriptor in the queue names the clip with the volume among its targets (R197). -/
def Engine.pairQueued (e : Engine) (h : Handle) (v : Fin 16) : Bool := e.queue.any (fun d => d.namesPair h v)

/-- REQUEUE_COPY for a clip and a volume, at the generation after its copy record's (R197, R199): placed in the pending list where the
pair waits for a descriptor, else asked of the Transfer Engine at once, which skips it where it would refuse RECOPY (R101, R195). -/
def Engine.requeuePair (g : Settings) (e : Engine) (h : Handle) (v : Fin 16) (generation : Nat) (waits : Bool) : Engine :=
  if waits then { e with requeues := placeRequeue e.requeues ⟨h, v, generation⟩ } else e.requeue g h v generation

/-- The descriptor that signaled COPY_FAILED for a pair is still in the queue (R197), told by the copy record that the failure left: FAILED
for a target that dropped out of a COPY (R87), while a descriptor names the pair, and WRITTEN for a VERIFY, which is removed only after
it signaled (R92). (DEDUCED, notes/assumptions/30.md.) A descriptor that an earlier action of the step queued made the record WRITING (R8),
and is not the one that signaled. (DEDUCED, notes/assumptions/61.md.) -/
def Engine.signalerQueued (e : Engine) (h : Handle) (v : Fin 16) (r : CopyRecord) : Bool :=
  match r.state with
  | .written => true
  | .failed => e.pairQueued h v
  | .writing => false
  | .partialCopy => false
  | .verifying => false
  | .verified => false
  | .mismatch => false

/-- REQUEUE_COPY on COPY_FAILED (R197): the pair waits for the descriptor that signaled the event. -/
def Engine.requeueFailed (g : Settings) (e : Engine) (h : Handle) (v : Fin 16) : Engine :=
  match (e.clipAt h).bind (·.copyOn v) with
  | some r =>
    if r.generation < Config.maxGeneration then e.requeuePair g h v (r.generation + 1) (e.signalerQueued h v r) else e
  | none => e

/-- A copy record that VOLUME_INSERTED requeues (R199). -/
def CopyRecord.redoable (r : CopyRecord) : Bool :=
  match r.state with
  | .partialCopy => true
  | .failed => true
  | .mismatch => true
  | _ => false

/-- REQUEUE_COPY on VOLUME_INSERTED for one clip (R199): the pair waits while any descriptor names it. -/
def Engine.requeueInserted (g : Settings) (v : Fin 16) (e : Engine) (h : Handle) : Engine :=
  match (e.clipAt h).bind (·.copyOn v) with
  | some r =>
    if r.redoable ∧ r.generation < Config.maxGeneration then e.requeuePair g h v (r.generation + 1) (e.pairQueued h v) else e
  | none => e

/-- REQUEUE_COPY on VOLUME_INSERTED, over the clips in ascending clip slot (R199). -/
def Engine.requeueVolume (g : Settings) (e : Engine) (v : Fin 16) : Engine :=
  (e.allClips.map (·.handle)).foldl (Engine.requeueInserted g v) e

/-! ## Actions -/

/-- A matching entry takes its action for an event (R195 to R197, R199): skipped where the event lacks what it needs, and where the
owning block would refuse it. -/
def Engine.act (g : Settings) (e : Engine) (x : LinkEntry) (ev : Event) : Engine :=
  match x.action with
  | .holdCard =>
    match ev.card with
    | some c => match e.holdCard c with | .ok e => e | .error _ => e
    | none => e
  | .requeueCopy =>
    match ev.kind, ev.clip, ev.volume with
    | .copyFailed, some h, some v => e.requeueFailed g h v
    | .volumeInserted, _, some v => e.requeueVolume g v
    | _, _, _ => e
  | .queueRender =>
    match ev.clip with
    | some h =>
      match e.queueRender g x.writer h.slot h.gen .whole x.parameter with
      | .ok (_, e) => e
      | .error _ => e
    | none => e
  | .cancelRenders =>
    match ev.clip with
    | some h => e.cancelRenders g h
    | none => e
  | .cueMonitor =>
    match ev.clip with
    | some h =>
      match e.cueMonitor g x.writer h.slot h.gen .whole false none with
      | .ok (_, e) => e
      | .error _ => e
    | none => e
  | .pauseRenderQueue => { e with paused := true }

/-- One entry examined for an event (R194, R195). -/
def Engine.examineEntry (g : Settings) (ev : Event) (e : Engine) (x : Option LinkEntry) : Engine :=
  match x with
  | some x => if x.matchesEvent ev (e.cameraOfEvent ev) then e.act g x ev else e
  | none => e

/-- The matrix takes an event: the entries are examined in entry order (R194). -/
def Engine.takeEvent (g : Settings) (e : Engine) (ev : Event) : Engine := g.links.toList.foldl (Engine.examineEntry g ev) e

/-- The matrix takes the events of a step once the step has made its changes, in the order they were signaled; the events that the
actions signal are not taken (R190, R195). (DEDUCED, notes/assumptions/10.md.) -/
def Engine.takeEvents (g : Settings) (e : Engine) : Engine := e.events.foldl (Engine.takeEvent g) e

/-! ## The pending requeue list -/

/-- The pending requeue list examined from the head (R198): the first item no descriptor names any more leaves the list and its
requeue is asked for; `n` bounds the items. -/
def Engine.examineRequeues (g : Settings) : Nat → Engine → Engine
  | 0, e => e
  | n + 1, e =>
    match e.requeues.find? (fun x => !e.pairQueued x.clip x.volume) with
    | some x =>
      Engine.examineRequeues g n ({ e with requeues := e.requeues.erase x }.requeue g x.clip x.volume x.generation)
    | none => e

/-- The examination that follows a step which has removed a descriptor (R198). -/
def Engine.afterRemoval (g : Settings) (e : Engine) : Engine :=
  if e.removed then Engine.examineRequeues g e.requeues.length e else e

/-- A step begins: it has signaled nothing and removed no descriptor yet. -/
def Engine.beginStep (e : Engine) : Engine := { e with events := [], removed := false }

/-- A step's own changes are made: the matrix takes its events, and the pending requeues are examined. -/
def Engine.endStep (g : Settings) (e : Engine) : Engine := (e.takeEvents g).afterRemoval g

end Sys2Proof.Machine
end

