-- ==== Sys2Proof/Machine/Stations.lean ====
section
/-!
DEFINITION. The station ports: taking a request (R203, R205), the outgoing direction (R204, R208), the link's changes (R201, R209),
and how every step of the part begins and ends.
-/

namespace Sys2Proof.Machine

/-! ## The outgoing direction -/

/-- The message a port sends next (R204, R208): the oldest refusal, the waiting response unless a notice is due its turn, or the
notice at the head of the queue, carrying the missed flag. -/
def Station.nextMessage (x : Station) : Option Sending :=
  if x.refusals ≠ [] then some .refusal
  else if x.response.isSome ∧ ¬(x.sentResponse = true ∧ x.notices ≠ []) then some .response
  else if x.notices ≠ [] then some (.notice x.missed)
  else none

/-- When the direction is free and the port is UP, it sends (R204). -/
def Station.pump (x : Station) : Station :=
  if x.up = true ∧ x.sending = none then { x with sending := x.nextMessage } else x

/-- The last byte of the message has been sent (R203, R204, R206, R208). A notice that carried the missed flag clears it, also when
another notice has been lost meanwhile. (DESIGN CHOICE, notes/assumptions/53.md.) -/
def Station.sent (x : Station) : Station :=
  match x.sending with
  | some .refusal => { x with refusals := x.refusals.tail, sentResponse := true, sending := none }
  | some .response =>
    let status := match x.response with
      | some r => decide (r.kind = 1) && decide (r.status = .done)
      | none => false
    { x with response := none, sentResponse := true, sending := none, resetFlag := x.resetFlag && !status }
  | some (.notice missed) =>
    { x with
      notices := x.notices.tail
      sequence := x.sequence + 1
      missed := x.missed && !missed
      sentResponse := false
      sending := none }
  | none => x

/-! ## Requests -/

/-- The requests outstanding at a port (R203). -/
def Station.outstanding (x : Station) : Nat := x.untaken.length + if x.response.isSome then 1 else 0

/-- A request message arrives at an UP port (R203). -/
def Station.arrive (x : Station) (r : Request) : Station :=
  if x.outstanding < Config.maxOutstanding then { x with untaken := x.untaken ++ [r] }
  else if x.refusals.length < Config.maxRefusals then { x with refusals := x.refusals ++ [(r.tag, r.kind)] }
  else x

/-- The link reset (R209). (DESIGN CHOICE, notes/assumptions/25.md.) -/
def Station.linkReset (x : Station) : Station :=
  { x with up := false, untaken := [], response := none, refusals := [], sending := none, notices := [], mask := 63,
           missed := false, sequence := 0 }

/-- The role of a port may issue a request of a kind (R205). -/
def permitted (p : StationPort) (kind : Nat) : Bool :=
  decide (kind ≤ 12) ||
    match p with
    | .A => decide (13 ≤ kind) && decide (kind ≤ 22)
    | .B => decide (23 ≤ kind) && decide (kind ≤ 32)
    | .C => decide (29 ≤ kind) && decide (kind ≤ 35)

/-- A status with the results that follow it (R202). -/
abbrev Answer := Status × List Byte

/-- A refusal, or DONE without results. -/
def Answer.bare (x : Status) : Answer := (x, [])

/-! ## How a step begins and ends -/

/-- A step begins: nothing has been signaled in it. -/
def State.openStep (s : State) : State := { s with engine := s.engine.beginStep }

/-- A step ends: the matrix takes its events, the events become notices, and free directions send (R190, R204, R207). A free direction
begins to send only once every event of the step has become a notice, so that a notice lost in the step sets the missed flag before the
first one is sent, which then carries it (R208). (DESIGN CHOICE, notes/assumptions/64.md.) -/
def State.closeStep (s : State) : State :=
  let e := s.engine.endStep s.settings
  { s with engine := e, stations := (s.stations.notify e.events).each Station.pump }

/-- A step of the blocks alone. While the reset input is held the blocks do nothing (R210). -/
def State.run (s : State) (f : Settings → Engine → Engine) : State :=
  if s.resetHeld then s
  else
    let s := s.openStep
    { s with engine := f s.settings s.engine }.closeStep

/-- The response to a request is made and waits to be sent (R203); a free direction begins it at once, before the notices that the
step's events become (R204). (DEDUCED, notes/assumptions/26.md.) -/
def State.respond (s : State) (o : Origin) (kind : Nat) (a : Answer) : State :=
  let x := s.stations.get o.port
  { s with stations := s.stations.set o.port { x with response := some ⟨o.tag, kind, a.1, a.2⟩ }.pump }

/-- A request is taken and answered by a rule, in one step (R203). -/
def State.answerBy (s : State) (o : Origin) (kind : Nat) (rest : List Request) (rule : State → Answer × State) : State :=
  let x := s.stations.get o.port
  let (a, s) := rule { s.openStep with stations := s.stations.set o.port { x with untaken := rest } }
  (s.respond o kind a).closeStep

/-- The rule of a refusal: no state changes (R205). -/
def refuseWith (x : Status) (s : State) : Answer × State := (Answer.bare x, s)

/-- A port can take a request: it is UP, and no response of it is waiting or being sent (R201, R203). A QUEUE_FULL response holds back
no taking. (DESIGN CHOICE, notes/assumptions/62.md.) -/
def State.canTake (s : State) (p : StationPort) : Bool :=
  !s.resetHeld && (s.stations.get p).up && (s.stations.get p).response.isNone

/-- The port `o.port` takes a request of a kind with its arguments (R203, R205): the oldest untaken request of its queue, when
that is this request; with no request queued, the request arrives and is taken in the same step. The role is checked first,
then the payload's length, then the owning rule answers. A command that does not name the request at the head of the queue
describes no step of the part, and changes nothing. (DESIGN CHOICE, notes/assumptions/4.md.) -/
def State.take {α : Type} [DecidableEq α] (s : State) (o : Origin) (kind : Nat) (read : Reader α) (args : α)
    (rule : State → Answer × State) : State :=
  if s.canTake o.port then
    match (s.stations.get o.port).untaken with
    | [] => s.answerBy o kind [] (if permitted o.port kind then rule else refuseWith .notPermitted)
    | r :: rest =>
      if r.tag = o.tag ∧ r.kind = kind then
        if permitted o.port kind then
          match readWhole read r.payload with
          | none => s.answerBy o kind rest (refuseWith .badArgument)
          | some a => if a = args then s.answerBy o kind rest rule else s
        else s.answerBy o kind rest (refuseWith .notPermitted)
      else s
  else s

/-- A request of a kind that the catalogue does not list is answered BAD_ARGUMENT (R205). -/
def State.takeUnknown (s : State) (o : Origin) (kind : Nat) (payload : List Byte) : State :=
  if s.canTake o.port = true ∧ (kind = 0 ∨ 35 < kind) then
    match (s.stations.get o.port).untaken with
    | [] => s.answerBy o kind [] (refuseWith .badArgument)
    | r :: rest =>
      if r.tag = o.tag ∧ r.kind = kind ∧ r.payload = payload then s.answerBy o kind rest (refuseWith .badArgument) else s
  else s

/-! ## Rules of three shapes -/

/-- A rule that only reads the state. -/
def readRule (f : State → Answer) (s : State) : Answer × State := (f s, s)

/-- A rule that acts on the blocks, or refuses. -/
def blockRule {α : Type} (f : Settings → Engine → Except Status (α × Engine)) (results : α → List Byte) (s : State) :
    Answer × State :=
  match f s.settings s.engine with
  | .ok (a, e) => ((.done, results a), { s with engine := e })
  | .error x => refuseWith x s

/-- A rule that acts on the blocks and answers DONE alone, or refuses. -/
def plainRule (f : Settings → Engine → Except Status Engine) (s : State) : Answer × State :=
  match f s.settings s.engine with
  | .ok e => (Answer.bare .done, { s with engine := e })
  | .error x => refuseWith x s

/-- A rule that changes the settings alone, or refuses. -/
def settingRule {α : Type} (f : Settings → Except Status (α × Settings)) (results : α → List Byte) (s : State) :
    Answer × State :=
  match f s.settings with
  | .ok (a, g) => ((.done, results a), { s with settings := g })
  | .error x => refuseWith x s

/-- A rule that changes the settings and answers DONE alone, or refuses. -/
def plainSetting (f : Settings → Except Status Settings) (s : State) : Answer × State :=
  match f s.settings with
  | .ok g => (Answer.bare .done, { s with settings := g })
  | .error x => refuseWith x s

/-! ## Events at one port, and events of the blocks -/

/-- An event of one station link (R201, R203, R204): the port changes, and sends when it can. While the reset input is held it does
nothing (R210). -/
def State.atStation (s : State) (p : StationPort) (f : Station → Station) : State :=
  if s.resetHeld then s else { s with stations := s.stations.set p (f (s.stations.get p)).pump }

/-- A step of the blocks at a time that is not before the latest timed event. (DESIGN CHOICE, notes/assumptions/2.md.) -/
def State.runAt (s : State) (time : Nat) (f : Settings → Engine → Engine) : State :=
  if s.resetHeld then s else { s with now := time }.run f

/-- An answer of a reader or an enclosure: one to an abandoned request is discarded on arrival (R26, R62).
(DESIGN CHOICE, notes/assumptions/31.md.) -/
def State.answered (s : State) (x : AnswerTo) (f : Settings → Engine → Engine) : State :=
  match x with
  | .outstanding => s.run f
  | .abandoned => s

end Sys2Proof.Machine
end

