-- ==== Sys2Proof/Machine/CardEvents.lean ====
section
/-!
DEFINITION. The events of the card ports (R28 to R36) and of the destination ports (R62, R64, R68, R69, R73), as commands.
-/

namespace Sys2Proof.Machine

/-! ## Card ports -/

/-- PRESENT (R28). -/
def execPresent (p : Fin 4) (s : State) : Host.Outcome State Fault Refusal :=
  .next ({ s with seated := s.seated.set p true }.run (fun g e => e.cardArrives g p))

/-- ABSENT (R28, R31, R32). -/
def execAbsent (p : Fin 4) (s : State) : Host.Outcome State Fault Refusal :=
  .next ({ s with seated := s.seated.set p false }.run (fun g e => (e.cardLeaves g p).settleTransfer g))

/-- DIRECTORY_ANSWER (R29, R30). -/
def execDirectoryAnswer (p : Fin 4) (x : AnswerTo) (a : DirectoryAnswer) (s : State) : Host.Outcome State Fault Refusal :=
  .next (s.answered x (fun g e => e.directoryArrives g p a))

/-- The directory read of a port in READING has had no answer for 5 seconds (R26, R30). -/
def Engine.directoryTimesOut (e : Engine) (p : Fin 4) : Engine :=
  match (e.cardPorts[p]).state with
  | .reading => e.unreadable p
  | _ => e

/-- DIRECTORY_TIMEOUT (R30). (DESIGN CHOICE, notes/assumptions/3.md.) -/
def execDirectoryTimeout (p : Fin 4) (s : State) : Host.Outcome State Fault Refusal :=
  .next (s.run (fun _ e => e.directoryTimesOut p))

/-- READ_ANSWER (R34, R35). -/
def execReadAnswer (p : Fin 4) (x : AnswerTo) (a : ReadAnswer) (s : State) : Host.Outcome State Fault Refusal :=
  .next (s.answered x (fun g e => e.readArrives g p a))

/-- STALL_TIMER_EXPIRY (R35, R36). (DESIGN CHOICE, notes/assumptions/3.md.) -/
def execStallTimerExpiry (p : Fin 4) (s : State) : Host.Outcome State Fault Refusal :=
  .next (s.run (fun g e => e.stallExpires g p))

/-! ## Destination ports -/

/-- INSERTED (R64). -/
def execInserted (p : Fin 4) (s : State) : Host.Outcome State Fault Refusal :=
  .next ({ s with mounted := s.mounted.set p true }.run (fun g e => e.driveArrives g p))

/-- REMOVED (R64, R68, R69). -/
def execRemoved (p : Fin 4) (s : State) : Host.Outcome State Fault Refusal :=
  .next ({ s with mounted := s.mounted.set p false }.run (fun g e => e.driveLeaves g p))

/-- IDENTIFY_ANSWER (R64, R65). -/
def execIdentifyAnswer (p : Fin 4) (x : AnswerTo) (a : IdentifyAnswer) (s : State) : Host.Outcome State Fault Refusal :=
  .next (s.answered x (fun g e => e.identified g p a))

/-- ENCLOSURE_TIMEOUT (R62). (DESIGN CHOICE, notes/assumptions/3.md.) -/
def execEnclosureTimeout (p : Fin 4) (s : State) : Host.Outcome State Fault Refusal :=
  .next (s.run (fun g e => e.enclosureTimesOut g p))

/-- OPEN_WRITE_ANSWER (R73). -/
def execOpenWriteAnswer (p : Fin 4) (x : AnswerTo) (a : OpenWriteAnswer) (s : State) : Host.Outcome State Fault Refusal :=
  .next (s.answered x (fun g e => e.operationAnswered g p (openWriteReply a)))

/-- APPEND_ANSWER (R73). -/
def execAppendAnswer (p : Fin 4) (x : AnswerTo) (a : AppendAnswer) (s : State) : Host.Outcome State Fault Refusal :=
  .next (s.answered x (fun g e => e.operationAnswered g p (appendReply a)))

/-- CLOSE_ANSWER (R73). -/
def execCloseAnswer (p : Fin 4) (x : AnswerTo) (a : CloseAnswer) (s : State) : Host.Outcome State Fault Refusal :=
  .next (s.answered x (fun g e => e.operationAnswered g p (closeReply a)))

/-- OPEN_READ_ANSWER (R73). -/
def execOpenReadAnswer (p : Fin 4) (x : AnswerTo) (a : OpenReadAnswer) (s : State) : Host.Outcome State Fault Refusal :=
  .next (s.answered x (fun g e => e.operationAnswered g p (openReadReply a)))

/-- VOLUME_READ_ANSWER (R73). -/
def execVolumeReadAnswer (p : Fin 4) (x : AnswerTo) (a : ReadAnswer) (s : State) : Host.Outcome State Fault Refusal :=
  .next (s.answered x (fun g e => e.operationAnswered g p (readReply a)))

end Sys2Proof.Machine
end

