-- ==== Sys2Proof/Machine/ClockEvents.lean ====
section
/-!
DEFINITION. The sampler's completion (R171) and the events of the frame clock: SYNC (R148, R156), REFERENCE_PULSE (R151 to R153) and
REFERENCE_TIMEOUT (R153). After each sync the Render Engine goes on where the back buffer has become free.
-/

namespace Sys2Proof.Machine

/-- SAMPLER_COMPLETION (R169, R171). (DESIGN CHOICE, notes/assumptions/35.md.) -/
def execSamplerCompletion (lane : Fin 2) (s : State) : Host.Outcome State Fault Refusal :=
  .next (s.run (fun g e => e.sampleComplete g lane))

/-! ## Syncs -/

/-- A sync at a time (R156): the front is settled and sent, and the Render Engine goes on where the back buffer has become free (R137). -/
def Engine.syncAt (g : Settings) (e : Engine) (time : Nat) (d : Damage) : Engine :=
  ((e.updateMonitor (fun m => { m with lastSync := some time })).settleFront.sendFront g d).settleRender g

/-- An internal sync at a time: the next-sync time advances by one period (R148). -/
def Engine.internalSync (g : Settings) (e : Engine) (time : Nat) (d : Damage) : Engine :=
  (e.updateMonitor (fun m => { m with nextSync := time + m.period })).syncAt g time d

/-- The next-sync time arrives (R148): with the checker LOCKED the clock follows the pulses, and no internal sync occurs.
(DEDUCED, notes/assumptions/22.md.) -/
def Engine.syncArrives (g : Settings) (e : Engine) (d : Damage) : Engine :=
  match e.monitor.checker with
  | .locked => e
  | .off => e.internalSync g e.monitor.nextSync d
  | .unlocked => e.internalSync g e.monitor.nextSync d

/-- The time of an internal sync: its next-sync time, or with the checker LOCKED none, so that the time stands. -/
def State.syncTime (s : State) : Nat :=
  match s.engine.monitor.checker with
  | .locked => s.now
  | .off => max s.now s.engine.monitor.nextSync
  | .unlocked => max s.now s.engine.monitor.nextSync

/-- SYNC (R148, R156). -/
def execSync (damage : Damage) (s : State) : Host.Outcome State Fault Refusal :=
  .next (s.runAt s.syncTime (fun g e => e.syncArrives g damage))

/-! ## The reference checker -/

/-- The reference is lost at a time (R153): the clock becomes internal, in the phase of the last good pulse, and a sync that
falls on the loss occurs with it. (DEDUCED, notes/assumptions/16.md.) -/
def Engine.loseReference (g : Settings) (e : Engine) (time : Nat) (d : Damage) : Engine :=
  let e := e.updateMonitor (fun m => { m with
    checker := .unlocked
    inWindow := 0
    nextSync := phaseAfter (m.lastGood.getD time) m.period 0 time })
  let e := e.signal (Event.bare .referenceLost)
  if e.monitor.nextSync = time then e.internalSync g time d else e

/-- A pulse arrives while the checker is UNLOCKED (R152). -/
def Engine.pulseUnlocked (g : Settings) (e : Engine) (time : Nat) (d : Damage) : Engine :=
  let m := e.monitor
  let count := if m.pulseInWindow time then m.inWindow + 1 else 0
  if count = 8 then
    let due := match m.lastSync with
      | some t => decide (m.period ≤ 2 * (time - t))
      | none => true
    let e := e.updateMonitor (fun m => { m with checker := .locked, inWindow := 0, prevPulse := some time, lastGood := some time })
    let e := e.signal (Event.bare .referenceRestored)
    if due then e.syncAt g time d else e
  else e.updateMonitor (fun m => { m with inWindow := count, prevPulse := some time })

/-- A pulse arrives while the checker is LOCKED (R153). -/
def Engine.pulseLocked (g : Settings) (e : Engine) (time : Nat) (d : Damage) : Engine :=
  if e.monitor.pulseInWindow time then
    (e.updateMonitor (fun m => { m with prevPulse := some time, lastGood := some time })).syncAt g time d
  else (e.updateMonitor (fun m => { m with prevPulse := some time })).loseReference g time d

/-- A pulse arrives (R151 to R153): with the checker OFF it is discarded. -/
def Engine.pulse (g : Settings) (e : Engine) (time : Nat) (d : Damage) : Engine :=
  match e.monitor.checker with
  | .off => e
  | .unlocked => e.pulseUnlocked g time d
  | .locked => e.pulseLocked g time d

/-- REFERENCE_PULSE (R151 to R153). -/
def execReferencePulse (time : Nat) (damage : Damage) (s : State) : Host.Outcome State Fault Refusal :=
  .next (s.runAt (max s.now time) (fun g e => e.pulse g (max s.now time) damage))

/-- The second expected period after the last good pulse has passed (R153): the checker LOCKED loses the reference. -/
def Engine.referenceExpires (g : Settings) (e : Engine) (time : Nat) (d : Damage) : Engine :=
  match e.monitor.checker with
  | .locked => e.loseReference g time d
  | .off => e
  | .unlocked => e

/-- REFERENCE_TIMEOUT (R153): at its moment of expiry, when the checker is LOCKED. -/
def execReferenceTimeout (damage : Damage) (s : State) : Host.Outcome State Fault Refusal :=
  let time := match s.engine.monitor.checker with
    | .locked => max s.now s.engine.monitor.expiry
    | _ => s.now
  .next (s.runAt time (fun g e => e.referenceExpires g time damage))

end Sys2Proof.Machine
end

