-- ==== Sys2Proof/Machine/Wire.lean ====
section
/-!
DEFINITION. What the part writes on a station link (R202): numbers, texts, lists, optional and named values; the records that the
read requests answer (R22, R23, R74, R110, R188, R193, R206); and the bytes of a response, a refusal and a notice.
-/

namespace Sys2Proof.Machine

/-! ## Values -/

/-- A number of one byte. -/
def w8 (n : Nat) : List Byte := leBytes 1 n
/-- A number of two bytes. -/
def w16 (n : Nat) : List Byte := leBytes 2 n
/-- A number of four bytes. -/
def w32 (n : Nat) : List Byte := leBytes 4 n
/-- A number of eight bytes. -/
def w64 (n : Nat) : List Byte := leBytes 8 n
/-- A flag: 0 clear, 1 set. -/
def wFlag (b : Bool) : List Byte := w8 b.toNat
/-- A text: its length, then its characters. -/
def wText (t : Text) : List Byte := w8 t.length ++ t
/-- An optional value: its marker, then the value when it is present. -/
def wOption {α : Type} (f : α → List Byte) : Option α → List Byte
  | none => w8 0
  | some a => w8 1 ++ f a
/-- A number or a named value, in one byte: 255 is the named one. -/
def wNamed : Option Nat → List Byte
  | none => w8 namedByte
  | some n => w8 n
/-- Values one after another. -/
def wAll {α : Type} (f : α → List Byte) (xs : List α) : List Byte := (xs.map f).flatten
/-- A list of at most 255 values: its count, then the values. -/
def wList {α : Type} (f : α → List Byte) (xs : List α) : List Byte := w8 xs.length ++ wAll f xs
/-- A clip handle. -/
def wHandle (h : Handle) : List Byte := w16 h.slot ++ w8 h.gen
/-- A signed number of two bytes, in two's complement. -/
def wInt16 (n : Int) : List Byte := w16 (BitVec.ofInt 16 n).toNat
/-- A signed number of four bytes, in two's complement. -/
def wInt32 (n : Int) : List Byte := w32 (BitVec.ofInt 32 n).toNat
/-- A 16-bit word. -/
def wWord (w : BitVec 16) : List Byte := w16 w.toNat
/-- A render range. -/
def wRange : Range → List Byte
  | .whole => w8 0
  | .frames f l => w8 1 ++ w32 f ++ w32 l
  | .timecode i o => w8 2 ++ timecodeBytes i ++ timecodeBytes o

/-! ## Named sets, numbered from 0 in the order of their owning rules -/

/-- The order of the table of section 1.2. -/
def CardState.number : CardState → Nat
  | .waitSpace => 0 | .ready => 1 | .offloading => 2 | .held => 3 | .offloaded => 4 | .releasing => 5 | .released => 6
/-- The order of R75. -/
def VerifyMode.number : VerifyMode → Nat
  | .readback => 0 | .noVerify => 1
/-- The order of R7. -/
def CopyState.number : CopyState → Nat
  | .writing => 0 | .written => 1 | .partialCopy => 2 | .failed => 3 | .verifying => 4 | .verified => 5 | .mismatch => 6
/-- The order of R6. -/
def ClipCopyState.number : ClipCopyState → Nat
  | .pending => 0 | .copying => 1 | .secured => 2 | .short => 3
/-- The order of R6. -/
def BindOrigin.number : BindOrigin → Nat
  | .rule => 0 | .explicit => 1
/-- The order of R6. -/
def RenderState.number : RenderState → Nat
  | .unrendered => 0 | .queued => 1 | .current => 2 | .stale => 3 | .failed => 4
/-- A bit depth is a number. -/
def Depth.number : Depth → Nat
  | .ten => 10 | .twelve => 12
/-- The order of R25. -/
def CardPortState.number : CardPortState → Nat
  | .empty => 0 | .reading => 1 | .attached => 2 | .noRecord => 3 | .stalled => 4 | .unreadable => 5
/-- The order of R63. -/
def DestState.number : DestState → Nat
  | .empty => 0 | .identifying => 1 | .online => 2 | .untracked _ _ => 3 | .offline => 4
/-- The order of R79. -/
def DescKind.number : DescKind → Nat
  | .copy => 0 | .verify => 1 | .manifest => 2
/-- The order of R106. -/
def OutputRange.number : OutputRange → Nat
  | .narrow => 0 | .full => 1
/-- The numbers of R202. -/
def Outputs.number : Outputs → Nat
  | .monitor => 0 | .proxy => 1 | .both => 2
/-- The order of R127. -/
def JobState.number : JobState → Nat
  | .queued => 0 | .running => 1 | .suspended => 2
/-- The numbers of R202. -/
def stationNumber : StationPort → Nat
  | .A => 0 | .B => 1 | .C => 2
/-- A decimation factor, or AUTO (R147). -/
def Decimation.number : Decimation → Nat
  | .one => 1 | .two => 2 | .four => 4 | .auto => namedByte
/-- The order of R147. -/
def Reference.number : Reference → Nat
  | .internal => 0 | .external => 1
/-- The order of R147. -/
def Checker.number : Checker → Nat
  | .off => 0 | .unlocked => 1 | .locked => 2
/-- The order of R177. -/
def FaultState.number : FaultState → Nat
  | .isOpen => 0 | .acknowledged => 1 | .waived => 2 | .cleared => 3
/-- The order of R191. -/
def LinkAction.number : LinkAction → Nat
  | .holdCard => 0 | .requeueCopy => 1 | .queueRender => 2 | .cancelRenders => 3 | .cueMonitor => 4 | .pauseRenderQueue => 5
/-- The status codes (R202). -/
def Status.number : Status → Nat
  | .done => 0 | .notPermitted => 1 | .badArgument => 2 | .notFound => 3 | .busy => 4 | .full => 5 | .wrongState => 6
  | .notSecured => 7 | .noSource => 8 | .noDestination => 9 | .noLook => 10 | .damaged => 11 | .queueFull => 12
/-- The ends of a job (R202). -/
def JobEnd.number : JobEnd → Nat
  | .done => 0 | .cancelled => 1 | .failed _ => 2
/-- The causes of an end (R202). -/
def EndCause.number : EndCause → Nat
  | .cancelled => 1 | .noLook => 2 | .sourceLost => 3 | .proxyFailed => 4 | .damaged => 5
/-- The cause that a notice gives for an end (R128, R202): 0 for DONE. -/
def JobEnd.causeNumber : JobEnd → Nat
  | .done => 0
  | .cancelled => EndCause.cancelled.number
  | .failed c => c.number

/-! ## The catalogue (R22, R23) -/

/-- The fields of a destination set, and of a set snapshot (R2, R75). -/
def wSet (x : SetFields) : List Byte := w8 x.mask.toNat ++ w8 x.copies ++ w8 x.verify.number

/-- A header summary (R6). -/
def wHeader (h : Header) : List Byte :=
  w8 h.camera.toNat ++ w16 h.reel ++ wText h.scene ++ w8 h.take ++ w8 h.rate ++ wFlag h.drop ++ w16 h.width ++ w16 h.height ++
    w8 h.depth.number ++ wOption w32 h.declared ++ timecodeBytes h.start

/-- A copy record (R7). -/
def wCopy (r : CopyRecord) : List Byte :=
  w8 r.volume ++ w8 r.state.number ++ wFlag r.verifyWaived ++ wOption (fun d : Word64 => w64 d.toNat) r.verifyDigest ++
    w8 r.generation

/-- A look binding (R6, R112). -/
def wBinding (b : Binding) : List Byte :=
  wOption (fun s : Fin 32 => w8 s) b.slot ++ wOption (fun o : BindOrigin => w8 o.number) b.origin

/-- A slot and a version (R6, R144). -/
def wRendered (x : Fin 32 × Nat) : List Byte := w8 x.1 ++ w16 x.2

/-- The answer of READ_CLIP: every field of R6, with the copy records (R22). (PRESUMED, notes/assumptions/7.md.) -/
def wClip (e : Engine) (c : Clip) : List Byte :=
  wHandle c.handle ++ w8 c.card ++ w8 c.takeIndex ++ wText c.takeName ++ w64 c.byteLength ++ wOption wHeader c.header ++
    wFlag c.header.isSome ++ w32 c.observed ++ wOption timecodeBytes c.firstTc ++ wOption timecodeBytes c.lastTc ++
    wOption (fun d : Word64 => w64 d.toNat) c.sourceDigest ++ wList wCopy c.copies ++ wFlag c.offloadMark ++
    w8 c.copyState.number ++ wBinding c.binding ++ w8 c.renderState.number ++ wOption wRendered c.rendered ++
    w16 (e.unresolvedCount c.handle .block) ++ w16 (e.unresolvedCount c.handle .warn) ++ wFlag c.blockOverflow ++
    w32 c.sampled ++ w32 c.skipped

/-- A summary of LIST_CLIPS (R23). -/
def wSummary (e : Engine) (c : Clip) : List Byte :=
  wHandle c.handle ++ w8 c.card ++ w8 c.takeIndex ++ wText c.takeName ++ w8 c.copyState.number ++ w8 c.renderState.number ++
    wFlag c.header.isSome ++ w16 (e.unresolvedCount c.handle .block) ++ w16 (e.unresolvedCount c.handle .warn) ++
    wFlag c.blockOverflow

/-- The answer of READ_CARD: every field of R2 but the pending directory, and the place in the wait list, 0 at its head (R22).
(PRESUMED, notes/assumptions/7.md.) (DESIGN CHOICE, notes/assumptions/37.md.) -/
def wCard (e : Engine) (c : Fin 32) (r : CardRecord) : List Byte :=
  w64 r.serial.toNat ++ w32 r.format.toNat ++ wText r.label ++ w8 r.takeCount ++ wList wHandle r.clips ++
    wOption (fun p : Fin 4 => w8 p) r.attached ++ w8 r.state.number ++ wOption wSet r.snapshot ++ wFlag r.heldByRequest ++
    wFlag r.heldByAbsence ++ wFlag r.heldByStall ++ wFlag r.indicatorLit ++
    wOption w8 (if r.state = .waitSpace then some (e.waitList.idxOf c) else none)

/-! ## Volumes and sets (R74) -/

/-- A volume entry: free, or its fields (R66, R74). -/
def wVolume (e : Engine) (v : Fin 16) : List Byte :=
  match e.volumes[v] with
  | none => wFlag true
  | some x =>
    wFlag false ++ w64 x.serial.toNat ++ wText x.label ++ wOption (fun p : Fin 4 => w8 p) x.inserted ++ wFlag x.full ++
      w16 (e.refCount v)

/-- A destination port: its state, and its entry or its kept identity (R63, R74). -/
def wDest (e : Engine) (p : Fin 4) : List Byte :=
  w8 (e.destPorts[p]).state.number ++
    match (e.destPorts[p]).state with
    | .online => wAll (fun v : Fin 16 => w8 v) (e.entryAt p).toList
    | .untracked serial label => w64 serial.toNat ++ wText label
    | _ => []

/-- The answer of READ_VOLUMES (R74). -/
def wVolumes (g : Settings) (e : Engine) : List Byte :=
  wAll (wVolume e) (List.finRange 16) ++ wAll (wDest e) (List.finRange 4) ++ wList (fun p : Fin 4 => w8 p) e.untracked ++
    wAll wSet g.sets.toList

/-! ## Faults (R188) -/

/-- A fault record (R177). -/
def wFault (r : FaultRecord) : List Byte :=
  w16 r.number ++ w8 r.kind.index ++ w8 r.severity.rank ++ w8 r.state.number ++ wHandle r.clip ++ w8 r.card ++
    wOption (fun v : Fin 16 => w8 v) r.volume ++ wOption (fun n : Word32 => w32 n.toNat) r.first ++
    wOption (fun n : Word32 => w32 n.toNat) r.last ++ wOption timecodeBytes r.tc ++ wOption wInt32 r.measured ++ w16 r.count

/-- The QC profile, with every setting and every severity (R173, R174, R188). -/
def wProfile (p : Profile) : List Byte :=
  w16 p.stride ++ w16 p.clipThreshold ++ w16 p.clipLimit ++ w16 p.blackLimit ++ w8 p.blackRun ++ w8 p.frozenRun ++
    w16 p.gradeClampLimit ++ wAll (fun s : Severity => w8 s.rank) p.severities.toList

/-- The answer of READ_FAULTS (R188). -/
def wFaults (g : Settings) (e : Engine) (start count : Nat) : List Byte :=
  wList wFault ((e.faults.drop start).take count) ++ w16 e.faults.length ++ w16 e.faultCounter ++ wFlag e.dropped ++
    wProfile g.profile

/-! ## Looks, rules and links (R110, R193) -/

/-- A look slot (R106, R110): the matrix row by row, output channel first. (DESIGN CHOICE, notes/assumptions/42.md.) -/
def wLook (x : LookSlot) : List Byte :=
  match x.look with
  | some (name, p) =>
    wText name ++ w16 x.version ++ w16 x.lastVersion ++ w16 p.black ++ wAll (fun row => wAll wWord row.toList) p.matrix.toList ++
      wAll wWord p.slope.toList ++ wAll wWord p.offset.toList ++ wAll (fun t => wAll wWord t.toList) p.shaper.toList ++
      w8 p.range.number
  | none => w16 x.version ++ w16 x.lastVersion

/-- A camera letter, or ANY (R202). -/
def wCamera (c : Option Byte) : List Byte := wNamed (c.map BitVec.toNat)

/-- A binding rule (R113). -/
def wRule (r : BindingRule) : List Byte := wCamera r.camera ++ w16 r.reelLow ++ w16 r.reelHigh ++ w8 r.look ++ wFlag r.enabled

/-- A link entry: free, or its fields (R191, R193). -/
def wLink : Option LinkEntry → List Byte
  | none => wFlag true
  | some x =>
    wFlag false ++ w8 x.kind.number ++ wCamera x.camera ++ w8 x.severity.rank ++ w8 x.action.number ++ w8 x.parameter ++
      wFlag x.enabled ++ w8 (stationNumber x.writer)

/-- An item of the pending requeue list (R198). -/
def wRequeue (x : Requeue) : List Byte := wHandle x.clip ++ w8 x.volume ++ w8 x.generation

/-- The answer of READ_LINKS (R193). -/
def wLinks (g : Settings) (e : Engine) : List Byte := wAll wLink g.links.toList ++ wList wRequeue e.requeues

/-! ## STATUS (R206) -/

/-- STATUS: the port that asks (R206). -/
def wStation (p : StationPort) (x : Station) (outstanding : Nat) : List Byte :=
  w8 (stationNumber p) ++ wFlag x.resetFlag ++ wFlag x.missed ++ w8 x.mask.toNat ++ w8 x.notices.length ++ w8 outstanding

/-- STATUS: a link state, UP or DOWN (R201, R206). -/
def wLinkState (x : Station) : List Byte := w8 (if x.up then 0 else 1)

/-- STATUS: a card port (R206). -/
def wCardPort (g : Settings) (e : Engine) (p : Fin 4) : List Byte :=
  w8 (e.cardPorts[p]).state.number ++ wOption (fun c : Fin 32 => w8 c) (e.cardAt p) ++ w8 (g.stall[p]).period ++
    w8 (g.stall[p]).retries

/-- STATUS: a lane (R206, section 5.9). -/
def wLane (e : Engine) (l : Fin 2) : List Byte :=
  match e.lanes[l] with
  | .idle => w8 0
  | .running run =>
    w8 1 ++ wAll (fun d : Descriptor =>
      w8 d.slot ++ w8 d.kind.number ++ wOption wHandle d.clip ++ w8 d.card ++ w64 d.progress) (e.descriptor run.slot).toList
  | .draining => w8 2

/-- The descriptors of the copy queue in a state. -/
def Engine.countDescriptors (e : Engine) (x : DescState) : Nat := (e.queue.filter (fun d => decide (d.state = x))).length

/-- STATUS: a render job (section 7.10). -/
def wJob (j : Job) : List Byte :=
  w8 j.slot ++ wHandle j.clip ++ wRange j.range ++ w8 j.outputs.number ++ wOption (fun p : Fin 4 => w8 p) j.proxyPort ++
    wFlag j.loop ++ w8 (stationNumber j.station) ++ w8 j.state.number ++ wFlag j.cancelMark ++ wOption w32 j.nextFrame ++
    w16 j.underruns ++ wOption wRendered (j.snapshot.map (fun s => (s.slot, s.version)))

/-- The jobs of the render queue in ascending job slot. -/
def Engine.jobsBySlot (e : Engine) : List Job := (List.finRange 16).filterMap e.job

/-- STATUS: a render context's state and job (section 7.10). -/
def wContext (x : Context) : List Byte :=
  match x.state with
  | .idle => w8 0 ++ wOption w8 none
  | .running j _ => w8 1 ++ wOption w8 (some j.val)
  | .draining => w8 2 ++ wOption w8 none

/-- STATUS: a picture's clip, card, frame number, timecode and write check (R147). -/
def wPicture (p : Picture) : List Byte :=
  wHandle p.clip ++ w8 p.card ++ w32 p.number.toNat ++ timecodeBytes p.tc ++ w32 p.writeCheck.toNat

/-- STATUS: the front buffer (R147). -/
def wFront : Front → List Byte
  | .black => w8 0
  | .picture p => w8 1 ++ wPicture p

/-- STATUS: the back buffer (R147). A FILLING frame has no number, timecode or write check yet. -/
def wBack : Back → List Byte
  | .empty => w8 0
  | .filling f => w8 1 ++ wHandle f.clip ++ w8 f.card
  | .ready p => w8 2 ++ wPicture p

/-- STATUS: the cue record (R147). -/
def wCue (x : Cue) : List Byte :=
  wOption (fun j : Fin 16 => w8 j) x.job ++ wOption wHandle x.clip ++ wOption (fun c : Fin 32 => w8 c) x.card ++
    wOption (fun r : Fin 9 => w8 r) x.rate ++ wFlag x.drop ++ wFlag x.firstShown ++ wFlag x.runFlag

/-- A frame's placement: its factor and its offsets (R147, R154), those of a picture that is cut as negative numbers.
(DESIGN CHOICE, notes/assumptions/54.md.) -/
def wPlacement (p : Placement) : List Byte := w8 p.factor ++ wInt16 p.column ++ wInt16 p.row

/-- The settings of the Monitor Output (R147, R150). -/
def wMonitorSettings (x : MonitorSettings) : List Byte :=
  wNamed (x.rate.map Fin.val) ++ w8 x.decimation.number ++ w8 x.reference.number

/-- STATUS: the Monitor Output (R147). -/
def wMonitor (g : MonitorSettings) (m : MonitorOut) : List Byte :=
  wMonitorSettings g ++ w8 m.rate ++ wFlag m.drop ++ w64 m.nextSync ++ w8 m.checker.number ++ w8 m.inWindow ++ wFront m.front ++
    wBack m.back ++ wFlag m.blanking ++ wCue m.cue ++ wOption wPlacement m.placement

/-- The answer of STATUS at a port, with the requests outstanding there (R206). (PRESUMED, notes/assumptions/8.md.) -/
def wStatus (s : State) (p : StationPort) (outstanding : Nat) : List Byte :=
  wStation p (s.stations.get p) outstanding ++ wLinkState s.stations.a ++ wLinkState s.stations.b ++ wLinkState s.stations.c ++
    wAll (wCardPort s.settings s.engine) (List.finRange 4) ++ wAll (wLane s.engine) (List.finRange 2) ++
    w8 (s.engine.countDescriptors .queued) ++ w8 (s.engine.countDescriptors .held) ++ w8 (s.engine.countDescriptors .running) ++
    wList wJob s.engine.jobsBySlot ++ wAll wContext s.engine.contexts.toList ++
    wAll (fun x : Context => wOption (fun j : Fin 16 => w8 j) x.claim) s.engine.contexts.toList ++ wFlag s.engine.paused ++
    wMonitor s.settings.monitor s.engine.monitor ++ w16 s.engine.faults.length ++ wFlag s.engine.dropped

/-! ## Messages -/

/-- A message: its head, and its payload (R202). -/
def wMessage (first kind : Nat) (payload : List Byte) : List Byte := w8 first ++ w8 kind ++ w16 payload.length ++ payload

/-- A response (R202). -/
def Response.bytes (r : Response) : List Byte := wMessage r.tag r.kind (w8 r.status.number ++ r.results)

/-- The QUEUE_FULL response to a request that the queue had no room for (R203, R204). -/
def refusalBytes (x : Nat × Nat) : List Byte := Response.bytes ⟨x.1, x.2, .queueFull, []⟩

/-- What RENDER_DONE and RENDER_FAILED add to a notice (R202). -/
def wRenderInfo (x : RenderInfo) : List Byte :=
  w8 x.job ++ w8 x.outputs.number ++ w8 x.ending.number ++ w8 x.ending.causeNumber ++ w8 (stationNumber x.station) ++
    wNamed (x.look.map (fun l => l.1.val)) ++ w16 ((x.look.map (·.2)).getD 0)

/-- A notice of an event, with a sequence number and the missed flag (R202, R207, R208). -/
def noticeBytes (sequence : BitVec 8) (missed : Bool) (ev : Event) : List Byte :=
  wMessage sequence.toNat (128 + ev.kind.number)
    (wFlag missed ++ wNamed (ev.card.map Fin.val) ++ w16 ((ev.clip.map (fun h => h.slot.val)).getD 65535) ++
      wNamed (ev.clip.map (fun h => h.gen.val)) ++ wNamed (ev.volume.map Fin.val) ++ w16 (ev.fault.getD 0) ++
      wNamed (ev.severity.map Severity.rank) ++ wAll wRenderInfo ev.render.toList)

/-- The bytes of the message that a port is sending (R202, R204). -/
def Station.outgoing (x : Station) : Option (List Byte) :=
  match x.sending with
  | some .refusal => x.refusals.head?.map refusalBytes
  | some .response => x.response.map Response.bytes
  | some (.notice missed) => x.notices.head?.map (noticeBytes x.sequence missed)
  | none => none

end Sys2Proof.Machine
end

