-- ==== Sys2Proof/Machine/FaultCommands.lean ====
section
/-!
DEFINITION. The requests about faults: ACK_FAULT (R183), WAIVE_FAULT (R184) and WAIVE_OVERFLOW (R185).
-/

namespace Sys2Proof.Machine

/-- ACK_FAULT on the fault list (R183). -/
def Engine.ackFault (e : Engine) (n : Nat) : Except Status Engine :=
  match e.checkFault n with
  | .error x => .error x
  | .ok r =>
    match r.state with
    | .isOpen => .ok (e.putFault { r with state := .acknowledged })
    | .acknowledged => .ok e
    | .waived => .error .wrongState
    | .cleared => .error .wrongState

/-- ACK_FAULT (R183). -/
def execAckFault (o : Origin) (number : Nat) (s : State) : Host.Outcome State Fault Refusal :=
  .next (s.take o 12 read16 number (plainRule (fun _ e => e.ackFault number)))

/-- WAIVE_FAULT on the fault list (R184). -/
def Engine.waiveFault (e : Engine) (n : Nat) : Except Status Engine :=
  match e.checkFault n with
  | .error x => .error x
  | .ok r =>
    match r.state with
    | .isOpen => .ok (e.putFault { r with state := .waived })
    | .acknowledged => .ok (e.putFault { r with state := .waived })
    | .waived => .ok e
    | .cleared => .error .wrongState

/-- WAIVE_FAULT (R184). -/
def execWaiveFault (o : Origin) (number : Nat) (s : State) : Host.Outcome State Fault Refusal :=
  .next (s.take o 33 read16 number (plainRule (fun _ e => e.waiveFault number)))

/-- WAIVE_OVERFLOW on the catalogue (R185). -/
def Engine.waiveOverflow (e : Engine) (slot gen : Nat) : Except Status Engine :=
  match e.checkClip slot gen with
  | .error x => .error x
  | .ok c => .ok (e.updateClip c.handle (fun c => { c with blockOverflow := false }))

/-- WAIVE_OVERFLOW (R185). -/
def execWaiveOverflow (o : Origin) (slot generation : Nat) (s : State) : Host.Outcome State Fault Refusal :=
  .next (s.take o 34 readHandle (slot, generation) (plainRule (fun _ e => e.waiveOverflow slot generation)))

end Sys2Proof.Machine
end

