-- ==== Sys2Proof/Machine/LinkCommands.lean ====
section
/-!
DEFINITION. The commands of the reset input (R210) and of the station links: LINK_UP and LINK_LOST (R201, R209), REQUEST_ARRIVAL
(R203), MESSAGE_SENT (R204), a request of an unknown kind (R205), SET_NOTICES (R207) and STATUS (R206).
-/

namespace Sys2Proof.Machine

/-! ## Reset -/

/-- The part at its values after reset, with the reset input held or not. The commands that wait, and the cards and drives that are
in place, are not the part's. -/
def State.afterReset (s : State) (held : Bool) : State :=
  { State.reset with pending := s.pending, resetHeld := held, seated := s.seated, mounted := s.mounted }

/-- RESET_ASSERT: while the input is held the part does nothing, drives no output and has abandoned every operation (R210). -/
def execResetAssert (s : State) : Host.Outcome State Fault Refusal := .next (s.afterReset true)

/-- A card that is seated as reset ends is taken to report PRESENT (R41). -/
def Engine.seatCard (seated : Vector Bool 4) (e : Engine) (p : Fin 4) : Engine := if seated[p] then e.seat p else e

/-- A drive that is mounted as reset ends is taken to report INSERTED (R78). -/
def Engine.mountDrive (mounted : Vector Bool 4) (e : Engine) (p : Fin 4) : Engine := if mounted[p] then e.mount p else e

/-- The blocks as reset ends (R41, R78, R210). -/
def Engine.restarted (seated mounted : Vector Bool 4) : Engine :=
  (List.finRange 4).foldl (Engine.mountDrive mounted) ((List.finRange 4).foldl (Engine.seatCard seated) Engine.reset)

/-- RESET_RELEASE: every block begins from its values after reset, with cards and drives as freshly inserted (R41, R78, R210). With
the input not held nothing is released. (DEDUCED, notes/assumptions/23.md.) -/
def execResetRelease (s : State) : Host.Outcome State Fault Refusal :=
  .next (if s.resetHeld then { s.afterReset false with engine := Engine.restarted s.seated s.mounted } else s)

/-! ## The links -/

/-- LINK_UP at a port (R201). -/
def Station.linkUp (x : Station) : Station := { x with up := true }

/-- LINK_UP (R201): at an UP port it is discarded. -/
def execLinkUp (p : StationPort) (s : State) : Host.Outcome State Fault Refusal := .next (s.atStation p Station.linkUp)

/-- LINK_LOST at a port (R201): an UP port applies the link reset. -/
def Station.linkLost (x : Station) : Station := if x.up then x.linkReset else x

/-- LINK_LOST (R201, R209): at a DOWN port it is discarded. -/
def execLinkLost (p : StationPort) (s : State) : Host.Outcome State Fault Refusal := .next (s.atStation p Station.linkLost)

/-- A request message arrives at a port (R201, R203): a DOWN port receives nothing. -/
def Station.receive (r : Request) (x : Station) : Station := if x.up then x.arrive r else x

/-- REQUEST_ARRIVAL (R203). -/
def execRequestArrival (o : Origin) (kind : Nat) (payload : List Byte) (s : State) : Host.Outcome State Fault Refusal :=
  .next (s.atStation o.port (Station.receive ⟨o.tag, kind, payload⟩))

/-- MESSAGE_SENT (R204). -/
def execMessageSent (p : StationPort) (s : State) : Host.Outcome State Fault Refusal := .next (s.atStation p Station.sent)

/-- UNKNOWN_REQUEST_KIND (R205). -/
def execUnknownRequestKind (o : Origin) (kind : Nat) (payload : List Byte) (s : State) : Host.Outcome State Fault Refusal :=
  .next (s.takeUnknown o kind payload)

/-! ## STATUS and SET_NOTICES -/

/-- STATUS answered (R206): the request itself is outstanding at its port. -/
def statusAnswer (p : StationPort) (s : State) : Answer := (.done, wStatus s p ((s.stations.get p).outstanding + 1))

/-- STATUS (R206). -/
def execStatus (o : Origin) (s : State) : Host.Outcome State Fault Refusal :=
  .next (s.take o 1 readNothing () (readRule (statusAnswer o.port)))

/-- SET_NOTICES checked and taken at its port (R207). -/
def setNoticesRule (p : StationPort) (mask : Nat) (s : State) : Answer × State :=
  if 63 < mask then refuseWith .badArgument s
  else (Answer.bare .done, { s with stations := s.stations.set p { s.stations.get p with mask := BitVec.ofNat 6 mask } })

/-- SET_NOTICES (R207). -/
def execSetNotices (o : Origin) (mask : Nat) (s : State) : Host.Outcome State Fault Refusal :=
  .next (s.take o 9 read8 mask (setNoticesRule o.port mask))

end Sys2Proof.Machine
end

