-- ==== Sys2Proof/Machine/OffloadCommands.lean ====
section
/-!
DEFINITION. The requests of the OFFLOAD station for cards and clips: START_OFFLOAD (R95, R96), HOLD_CARD, RESUME_CARD, ABORT_CARD
(R97 to R99), RELEASE_CARD (R102), RECOPY (R100), RETIRE_CLIP and RETIRE_CARD (R18, R20).
-/

namespace Sys2Proof.Machine

/-- START_OFFLOAD taken (R95, R96): it answers the descriptors queued and the volume entries chosen. -/
def startOffloadRule (card set : Nat) : State → Answer × State :=
  blockRule
    (fun g e =>
      match e.startOffload g card set with
      | .ok (n, volumes, e) => .ok ((n, volumes), e)
      | .error x => .error x)
    (fun x => w8 x.1 ++ wList (fun v : Fin 16 => w8 v) x.2)

/-- START_OFFLOAD (R95, R96). -/
def execStartOffload (o : Origin) (card set : Nat) (s : State) : Host.Outcome State Fault Refusal :=
  .next (s.take o 13 (readPair read8 read8) (card, set) (startOffloadRule card set))

/-- HOLD_CARD (R97). -/
def execHoldCard (o : Origin) (card : Nat) (s : State) : Host.Outcome State Fault Refusal :=
  .next (s.take o 14 read8 card (plainRule (fun _ e => e.holdCard card)))

/-- RESUME_CARD (R37, R98). -/
def execResumeCard (o : Origin) (card : Nat) (s : State) : Host.Outcome State Fault Refusal :=
  .next (s.take o 15 read8 card (plainRule (fun g e => e.resumeCard g card)))

/-- ABORT_CARD (R99). -/
def execAbortCard (o : Origin) (card : Nat) (s : State) : Host.Outcome State Fault Refusal :=
  .next (s.take o 16 read8 card (plainRule (fun g e => e.abortCard g card)))

/-- RELEASE_CARD taken (R102): it answers the manifests queued; a NOT_SECURED refusal carries the two counts (R202). -/
def releaseCardRule (card : Nat) (s : State) : Answer × State :=
  match s.engine.releaseCard s.settings card with
  | .ok (n, e) => ((.done, w8 n), { s with engine := e })
  | .error (x, some (short, blocked)) => ((x, w16 short ++ w16 blocked), s)
  | .error (x, none) => refuseWith x s

/-- RELEASE_CARD (R102). -/
def execReleaseCard (o : Origin) (card : Nat) (s : State) : Host.Outcome State Fault Refusal :=
  .next (s.take o 17 read8 card (releaseCardRule card))

/-- The source of a RECOPY: a volume entry, or the card (R100, R202). -/
def wSource : Source → List Byte
  | .card => wNamed none
  | .volume v => wNamed (some v.val)

/-- RECOPY taken (R100): it answers the descriptor slot, the source and the targets. -/
def recopyRule (slot generation mask : Nat) : State → Answer × State :=
  blockRule
    (fun g e =>
      match e.recopy g slot generation mask with
      | .ok (d, source, targets, e) => .ok ((d, source, targets), e)
      | .error x => .error x)
    (fun x => w8 x.1 ++ wSource x.2.1 ++ wList (fun v : Fin 16 => w8 v) x.2.2)

/-- RECOPY (R100). -/
def execRecopy (o : Origin) (slot generation mask : Nat) (s : State) : Host.Outcome State Fault Refusal :=
  .next (s.take o 18 (readPair readHandle read8) ((slot, generation), mask) (recopyRule slot generation mask))

/-- RETIRE_CLIP (R18, R19). -/
def execRetireClip (o : Origin) (slot generation : Nat) (s : State) : Host.Outcome State Fault Refusal :=
  .next (s.take o 19 readHandle (slot, generation) (plainRule (fun _ e => e.retireClip slot generation)))

/-- RETIRE_CARD (R20). -/
def execRetireCard (o : Origin) (card : Nat) (s : State) : Host.Outcome State Fault Refusal :=
  .next (s.take o 20 read8 card (plainRule (fun _ e => e.retireCard card)))

end Sys2Proof.Machine
end

