-- ==== Sys2Proof/Machine/ReadCommands.lean ====
section
/-!
DEFINITION. The requests that read records: READ_CLIP, READ_CARD (R22), LIST_CLIPS (R23), READ_VOLUMES (R74), READ_FAULTS (R188),
READ_LOOK (R110) and READ_LINKS (R193).
-/

namespace Sys2Proof.Machine

/-- The answer that a check gives, when what it finds is written out. -/
def answerWith {α : Type} (f : α → List Byte) : Except Status α → Answer
  | .ok a => (.done, f a)
  | .error x => Answer.bare x

/-- READ_CLIP (R22). -/
def execReadClip (o : Origin) (slot generation : Nat) (s : State) : Host.Outcome State Fault Refusal :=
  .next (s.take o 2 readHandle (slot, generation)
    (readRule (fun s => answerWith (wClip s.engine) (s.engine.checkClip slot generation))))

/-! ## LIST_CLIPS -/

/-- Clip slots examined upward from one, wrapping, until `want` records are found or no slot is `left`: the records, the slot after
the last examined, and how many are left (R23). -/
def Engine.walkSlots (e : Engine) : (left : Nat) → (i : Fin 512) → (want : Nat) → List Clip × Fin 512 × Nat
  | 0, i, _ => ([], i, 0)
  | n + 1, i, 0 => ([], i, n + 1)
  | n + 1, i, want + 1 =>
    match (e.clips[i]).clip with
    | some c =>
      let (cs, j, left) := e.walkSlots n (i + 1) want
      (c :: cs, j, left)
    | none => e.walkSlots n (i + 1) (want + 1)

/-- The answer of LIST_CLIPS (R23): the summaries, the continuation slot and the pass-complete flag. -/
def listAnswer (start count : Nat) (s : State) : Answer :=
  if h : start < 512 then
    if 1 ≤ count ∧ count ≤ 16 then
      let (cs, next, left) := s.engine.walkSlots 512 ⟨start, h⟩ count
      (.done, wList (wSummary s.engine) cs ++ w16 next ++ wFlag (decide (left = 0)))
    else Answer.bare .badArgument
  else Answer.bare .badArgument

/-- LIST_CLIPS (R23). -/
def execListClips (o : Origin) (start count : Nat) (s : State) : Host.Outcome State Fault Refusal :=
  .next (s.take o 3 (readPair read16 read8) (start, count) (readRule (listAnswer start count)))

/-! ## The others -/

/-- READ_CARD (R22). -/
def execReadCard (o : Origin) (card : Nat) (s : State) : Host.Outcome State Fault Refusal :=
  .next (s.take o 4 read8 card
    (readRule (fun s => answerWith (fun x : Fin 32 × CardRecord => wCard s.engine x.1 x.2) (s.engine.checkCard card))))

/-- READ_VOLUMES (R74). -/
def execReadVolumes (o : Origin) (s : State) : Host.Outcome State Fault Refusal :=
  .next (s.take o 5 readNothing () (readRule (fun s => (.done, wVolumes s.settings s.engine))))

/-- READ_FAULTS answered; the dropped flag is then cleared (R188). -/
def readFaultsRule (start count : Nat) (s : State) : Answer × State :=
  if start ≤ 255 ∧ 1 ≤ count ∧ count ≤ 16 then
    ((.done, wFaults s.settings s.engine start count), { s with engine := { s.engine with dropped := false } })
  else refuseWith .badArgument s

/-- READ_FAULTS (R188). -/
def execReadFaults (o : Origin) (start count : Nat) (s : State) : Host.Outcome State Fault Refusal :=
  .next (s.take o 6 (readPair read8 read8) (start, count) (readFaultsRule start count))

/-- The answer of READ_LOOK (R110): the rules, or a look slot. -/
def lookAnswer (selector : Nat) (s : State) : Answer :=
  if selector = namedByte then (.done, wAll wRule s.settings.rules.toList)
  else answerWith (fun i : Fin 32 => wLook s.settings.looks[i]) (checkIndex 32 selector)

/-- READ_LOOK (R110). -/
def execReadLook (o : Origin) (selector : Nat) (s : State) : Host.Outcome State Fault Refusal :=
  .next (s.take o 7 read8 selector (readRule (lookAnswer selector)))

/-- READ_LINKS (R193). -/
def execReadLinks (o : Origin) (s : State) : Host.Outcome State Fault Refusal :=
  .next (s.take o 8 readNothing () (readRule (fun s => (.done, wLinks s.settings s.engine))))

end Sys2Proof.Machine
end

