-- ==== Sys2Proof/Machine/RenderCommands.lean ====
section
/-!
DEFINITION. The requests for renders and for the review monitor: QUEUE_RENDER (R131), RESUME_RENDERS (R143), CUE_MONITOR (R132),
STOP_MONITOR (R159), SET_MONITOR (R150) and CANCEL_RENDER (R141).
-/

namespace Sys2Proof.Machine

/-- The results of a request that makes a render job: its slot (R131, R132). -/
def jobResult (j : Fin 16) : List Byte := w8 j

/-- QUEUE_RENDER (R131). -/
def execQueueRender (o : Origin) (slot generation : Nat) (range : Range) (port : Nat) (s : State) :
    Host.Outcome State Fault Refusal :=
  .next (s.take o 27 (readPair readHandle (readPair readRange read8)) ((slot, generation), range, port)
    (blockRule (fun g e => e.queueRender g o.port slot generation range port) jobResult))

/-- The queue goes on (R143): the paused flag is cleared and the queue grant is made. -/
def Engine.resumeRenders (g : Settings) (e : Engine) : Engine := { e with paused := false }.settleRender g

/-- RESUME_RENDERS (R143). -/
def execResumeRenders (o : Origin) (s : State) : Host.Outcome State Fault Refusal :=
  .next (s.take o 28 readNothing () (plainRule (fun g e => .ok (e.resumeRenders g))))

/-- The proxy port argument of CUE_MONITOR: a port, or NONE (R132, R202). -/
def cuePort (port : Nat) : Option Nat := if port = namedByte then none else some port

/-- CUE_MONITOR (R132, R157). -/
def execCueMonitor (o : Origin) (slot generation : Nat) (range : Range) (loop : Bool) (port : Nat) (s : State) :
    Host.Outcome State Fault Refusal :=
  .next (s.take o 29 (readPair readHandle (readPair readRange (readPair readFlag read8))) ((slot, generation), range, loop, port)
    (blockRule (fun g e => e.cueMonitor g o.port slot generation range loop (cuePort port)) jobResult))

/-- STOP_MONITOR (R159). -/
def execStopMonitor (o : Origin) (s : State) : Host.Outcome State Fault Refusal :=
  .next (s.take o 30 readNothing () (plainRule (fun g e => .ok (e.stopMonitor g))))

/-- SET_MONITOR taken at a time (R150): the three settings are replaced together, and each takes its effect on the clock, the rate
before the reference. (DESIGN CHOICE, notes/assumptions/59.md.) -/
def takeMonitor (x : MonitorSettings) (time : Nat) (s : State) : State :=
  let old := s.settings.monitor
  { s with
    now := time
    settings := { s.settings with monitor := x }
    engine := s.engine.updateMonitor (fun m => (m.takeRate old.rate x.rate).takeReference old.reference x.reference time) }

/-- SET_MONITOR checked and taken (R150). The moment is not before the latest timed event. -/
def setMonitorRule (rate decimation reference time : Nat) (s : State) : Answer × State :=
  match rateOf rate, referenceOf reference with
  | some r, some f =>
    let x : MonitorSettings := ⟨r, decimationOf decimation, f⟩
    ((.done, wMonitorSettings x), takeMonitor x (max s.now time) s)
  | _, _ => refuseWith .badArgument s

/-- SET_MONITOR (R150). -/
def execSetMonitor (o : Origin) (rate decimation reference time : Nat) (s : State) : Host.Outcome State Fault Refusal :=
  .next (s.take o 31 (readPair read8 (readPair read8 read8)) (rate, decimation, reference)
    (setMonitorRule rate decimation reference time))

/-- CANCEL_RENDER (R141). -/
def execCancelRender (o : Origin) (job : Nat) (s : State) : Host.Outcome State Fault Refusal :=
  .next (s.take o 32 read8 job (plainRule (fun g e => e.cancelRender g o.port job)))

end Sys2Proof.Machine
end

