-- ==== Sys2Proof/Machine/SettingCommands.lean ====
section
/-!
DEFINITION. The requests that write settings: WRITE_LINK (R192), CLEAR_LINK (R193), DEFINE_SET (R76), SET_STALL (R38), WRITE_LOOK
(R107, R108), CLEAR_LOOK (R109), WRITE_BINDING (R114), BIND_LOOK (R116) and WRITE_PROFILE (R174).
-/

namespace Sys2Proof.Machine

/-! ## Links -/

/-- The entry is free, or the port is its writer (R192, R193). -/
def mayWrite (x : Option LinkEntry) (p : StationPort) : Bool :=
  match x with
  | some e => decide (e.writer = p)
  | none => true

/-- The action may answer the source kind (R192, R197, R199). -/
def actionAllowed (action : LinkAction) (kind : EventKind) : Bool :=
  match action with
  | .requeueCopy => decide (kind = .copyFailed) || decide (kind = .volumeInserted)
  | _ => true

/-- The action parameter as it is stored (R192): a port for QUEUE_RENDER, 0 for every other action. -/
def storedParameter (action : LinkAction) (parameter : Nat) : Except Status (Fin 4) :=
  match action with
  | .queueRender => checkIndex 4 parameter
  | _ => .ok 0

/-- The fields of a link entry, once the entry itself is checked (R192). -/
def linkFields (p : StationPort) (kind camera severity action parameter : Nat) (enabled : Bool) : Except Status LinkEntry :=
  match eventKindOf kind, cameraOf camera, severityOf severity, linkActionOf action with
  | some k, some c, some v, some a =>
    if actionAllowed a k then
      match storedParameter a parameter with
      | .ok x =>
        .ok { kind := k, camera := c, severity := if k = .faultRaised then v else .note, action := a, parameter := x,
              enabled := enabled, writer := p }
      | .error x => .error x
    else .error .badArgument
  | _, _, _, _ => .error .badArgument

/-- WRITE_LINK on the settings (R192). -/
def Settings.writeLink (p : StationPort) (entry kind camera severity action parameter : Nat) (enabled : Bool) (g : Settings) :
    Except Status Settings :=
  match checkIndex 16 entry with
  | .error x => .error x
  | .ok i =>
    if mayWrite g.links[i] p then
      match linkFields p kind camera severity action parameter enabled with
      | .ok x => .ok { g with links := g.links.set i (some x) }
      | .error x => .error x
    else .error .notPermitted

/-- The arguments of WRITE_LINK as they travel (R192, R202). -/
def readLinkArgs : Reader ((Nat × Nat) × (Nat × Nat) × (Nat × Nat) × Bool) :=
  readPair (readPair read8 read8) (readPair (readPair read8 read8) (readPair (readPair read8 read8) readFlag))

/-- WRITE_LINK (R192). -/
def execWriteLink (o : Origin) (entry kind camera severity action parameter : Nat) (enabled : Bool) (s : State) :
    Host.Outcome State Fault Refusal :=
  .next (s.take o 10 readLinkArgs ((entry, kind), (camera, severity), (action, parameter), enabled)
    (plainSetting (Settings.writeLink o.port entry kind camera severity action parameter enabled)))

/-- CLEAR_LINK on the settings (R193). -/
def Settings.clearLink (p : StationPort) (entry : Nat) (g : Settings) : Except Status Settings :=
  match checkIndex 16 entry with
  | .error x => .error x
  | .ok i => if mayWrite g.links[i] p then .ok { g with links := g.links.set i none } else .error .notPermitted

/-- CLEAR_LINK (R193). -/
def execClearLink (o : Origin) (entry : Nat) (s : State) : Host.Outcome State Fault Refusal :=
  .next (s.take o 11 read8 entry (plainSetting (Settings.clearLink o.port entry)))

/-! ## Sets and stall settings -/

/-- The ports of a mask (R75). -/
def portCount (mask : BitVec 4) : Nat := ((List.range 4).filter (fun i => mask.getLsbD i)).length

/-- The fields that a DEFINE_SET gives a set (R76). -/
def setFields (mask copies : Nat) (mode : VerifyMode) : Except Status SetFields :=
  if mask = 0 then .ok ⟨0, 1, .readback⟩
  else if 1 ≤ copies ∧ copies ≤ 4 ∧ copies ≤ portCount (BitVec.ofNat 4 mask) then .ok ⟨BitVec.ofNat 4 mask, copies, mode⟩
  else .error .badArgument

/-- DEFINE_SET on the settings (R76). -/
def Settings.defineSet (set mask copies mode : Nat) (g : Settings) : Except Status Settings :=
  match checkIndex 4 set, verifyModeOf mode with
  | .ok i, some m =>
    if mask ≤ 15 then
      match setFields mask copies m with
      | .ok x => .ok { g with sets := g.sets.set i x }
      | .error x => .error x
    else .error .badArgument
  | _, _ => .error .badArgument

/-- DEFINE_SET (R76). -/
def execDefineSet (o : Origin) (set mask copies mode : Nat) (s : State) : Host.Outcome State Fault Refusal :=
  .next (s.take o 21 (readPair read8 (readPair read8 (readPair read8 read8))) (set, mask, copies, mode)
    (plainSetting (Settings.defineSet set mask copies mode)))

/-- A number clamped to the last index of a bound (R38). -/
def clampIndex (n x : Nat) : Fin (n + 1) := ⟨min n x, Nat.lt_succ_of_le (Nat.min_le_left n x)⟩

/-- SET_STALL on the settings (R38): the settings as clamped. -/
def Settings.setStall (port period retries : Nat) (g : Settings) : Except Status (StallSettings × Settings) :=
  match checkIndex 4 port with
  | .error x => .error x
  | .ok p =>
    let x : StallSettings := ⟨clampIndex 7 period, clampIndex 3 retries⟩
    .ok (x, { g with stall := g.stall.set p x })

/-- SET_STALL (R38). -/
def execSetStall (o : Origin) (port period retries : Nat) (s : State) : Host.Outcome State Fault Refusal :=
  .next (s.take o 22 (readPair read8 (readPair read8 read8)) (port, period, retries)
    (settingRule (Settings.setStall port period retries) (fun x => w8 x.period ++ w8 x.retries)))

/-! ## Looks -/

/-- The version after a slot's last version (R107). -/
def nextVersion (last : Nat) : Nat := if last < 65535 then last + 1 else 1

/-- A look's name (R106, R108): 0 to 16 characters, each 0x20..0x7E. -/
def lookNameValid (t : Text) : Bool :=
  decide (t.length ≤ 16) && t.all (fun b => decide (0x20 ≤ b.toNat) && decide (b.toNat ≤ 0x7E))

/-- A slot as a WRITE_LOOK leaves it (R107, R108). -/
def LookSlot.written (x : LookSlot) (a : LookArgs) (range : OutputRange) : LookSlot :=
  { version := nextVersion x.lastVersion, lastVersion := nextVersion x.lastVersion,
    look := some (a.name, { black := a.black, matrix := a.matrix, slope := a.slope, offset := a.offset, shaper := a.shaper,
                            range := range }) }

/-- WRITE_LOOK checked and taken (R108): the slot is replaced, and clips CURRENT on it become STALE. -/
def writeLookRule (a : LookArgs) (s : State) : Answer × State :=
  match checkIndex 32 a.slot, outputRangeOf a.range with
  | .ok i, some range =>
    if lookNameValid a.name ∧ a.black ≤ 1023 then
      let x := (s.settings.looks[i]).written a range
      ((.done, w16 x.version),
        { s with settings := { s.settings with looks := s.settings.looks.set i x }, engine := s.engine.staleSlot i })
    else refuseWith .badArgument s
  | _, _ => refuseWith .badArgument s

/-- WRITE_LOOK (R108). -/
def execWriteLook (o : Origin) (a : LookArgs) (s : State) : Host.Outcome State Fault Refusal :=
  .next (s.take o 23 readLookArgs a (writeLookRule a))

/-- A slot as a CLEAR_LOOK leaves it (R107, R109). -/
def LookSlot.cleared (x : LookSlot) : LookSlot := { x with version := 0, look := none }

/-- CLEAR_LOOK checked and taken (R109). -/
def clearLookRule (slot : Nat) (s : State) : Answer × State :=
  match checkIndex 32 slot with
  | .error x => refuseWith x s
  | .ok i =>
    if (s.settings.looks[i]).version = 0 then (Answer.bare .done, s)
    else
      (Answer.bare .done,
        { s with
          settings := { s.settings with looks := s.settings.looks.set i (s.settings.looks[i]).cleared }
          engine := s.engine.staleSlot i })

/-- CLEAR_LOOK (R109). -/
def execClearLook (o : Origin) (slot : Nat) (s : State) : Host.Outcome State Fault Refusal :=
  .next (s.take o 24 read8 slot (clearLookRule slot))

/-! ## Bindings -/

/-- WRITE_BINDING on the settings (R114). -/
def Settings.writeBinding (entry camera reelLow reelHigh look : Nat) (enabled : Bool) (g : Settings) : Except Status Settings :=
  match checkIndex 16 entry, cameraOf camera, checkIndex 32 look with
  | .ok i, some c, .ok k =>
    if 1 ≤ reelLow ∧ reelLow ≤ reelHigh ∧ reelHigh ≤ 999 then .ok { g with rules := g.rules.set i ⟨c, reelLow, reelHigh, k, enabled⟩ }
    else .error .badArgument
  | _, _, _ => .error .badArgument

/-- WRITE_BINDING (R114). -/
def execWriteBinding (o : Origin) (entry camera reelLow reelHigh look : Nat) (enabled : Bool) (s : State) :
    Host.Outcome State Fault Refusal :=
  .next (s.take o 25 (readPair read8 (readPair read8 (readPair read16 (readPair read16 (readPair read8 readFlag)))))
    (entry, camera, reelLow, reelHigh, look, enabled)
    (plainSetting (Settings.writeBinding entry camera reelLow reelHigh look enabled)))

/-- The look argument of BIND_LOOK: a slot, or NONE (R116, R202). -/
def lookArgument (look : Nat) : Except Status (Option (Fin 32)) :=
  if look = namedByte then .ok none
  else
    match checkIndex 32 look with
    | .ok k => .ok (some k)
    | .error x => .error x

/-- BIND_LOOK on the blocks (R116). -/
def Engine.bindLook (e : Engine) (slot gen look : Nat) : Except Status Engine :=
  match e.checkClip slot gen with
  | .error x => .error x
  | .ok c =>
    match lookArgument look with
    | .error x => .error x
    | .ok k => .ok (e.bind c.handle ⟨k, some .explicit⟩)

/-- BIND_LOOK (R116). -/
def execBindLook (o : Origin) (slot generation look : Nat) (s : State) : Host.Outcome State Fault Refusal :=
  .next (s.take o 26 (readPair readHandle read8) ((slot, generation), look)
    (plainRule (fun _ e => e.bindLook slot generation look)))

/-! ## The QC profile -/

/-- The severity of a rank, the highest for every rank above (R175). (DESIGN CHOICE, notes/assumptions/9.md.) -/
def severityOfRank : Nat → Severity
  | 0 => .note
  | 1 => .warn
  | _ => .block

/-- A severity asked for a kind, clamped to the nearest of its adjustable set (R174). -/
def clampSeverity (low high : Severity) (asked : Nat) : Severity := severityOfRank (clampNat low.rank high.rank asked)

/-- The severities as taken (R174): the twelve adjustable kinds, in the order of the kinds table, and the four fixed ones. -/
def severitiesTaken (old : Vector Severity 16) (x : Vector Nat 12) : Vector Severity 16 :=
  #v[old[0], old[1], old[2], clampSeverity .warn .block x[0], clampSeverity .warn .block x[1], clampSeverity .warn .block x[2],
     clampSeverity .note .block x[3], clampSeverity .note .warn x[4], clampSeverity .note .block x[5],
     clampSeverity .note .warn x[6], clampSeverity .note .block x[7], clampSeverity .note .warn x[8],
     clampSeverity .note .warn x[9], clampSeverity .note .warn x[10], clampSeverity .note .warn x[11], old[15]]

/-- The profile as taken (R173, R174). -/
def Profile.taken (p : Profile) (a : ProfileArgs) : Profile :=
  { stride := clampNat 1 1024 a.stride, clipThreshold := clampNat 1 4095 a.clipThreshold, clipLimit := clampNat 0 65535 a.clipLimit,
    blackLimit := clampNat 0 4095 a.blackLimit, blackRun := clampNat 1 255 a.blackRun, frozenRun := clampNat 2 255 a.frozenRun,
    gradeClampLimit := clampNat 0 65535 a.gradeClampLimit, severities := severitiesTaken p.severities a.severities }

/-- WRITE_PROFILE on the settings (R174): it is not refused for its values. -/
def Settings.writeProfile (a : ProfileArgs) (g : Settings) : Except Status (Profile × Settings) :=
  let p := g.profile.taken a
  .ok (p, { g with profile := p })

/-- WRITE_PROFILE (R174). -/
def execWriteProfile (o : Origin) (a : ProfileArgs) (s : State) : Host.Outcome State Fault Refusal :=
  .next (s.take o 35 readProfileArgs a (settingRule (Settings.writeProfile a) wProfile))

end Sys2Proof.Machine
end

