-- ==== Sys2Proof/Machine/Dispatch.lean ====
section
/-! DEFINITION. The dispatch: one arm for each command of spec/opcode_table.json. -/

namespace Sys2Proof.Machine

def exec (i : Instr) (s : State) : Host.Outcome State Fault Refusal :=
  match i with
  | .resetAssert => Sys2Proof.Machine.execResetAssert s
  | .resetRelease => Sys2Proof.Machine.execResetRelease s
  | .linkUp p => Sys2Proof.Machine.execLinkUp p s
  | .linkLost p => Sys2Proof.Machine.execLinkLost p s
  | .requestArrival o kind payload => Sys2Proof.Machine.execRequestArrival o kind payload s
  | .messageSent p => Sys2Proof.Machine.execMessageSent p s
  | .unknownRequestKind o kind payload => Sys2Proof.Machine.execUnknownRequestKind o kind payload s
  | .status o => Sys2Proof.Machine.execStatus o s
  | .readClip o slot generation => Sys2Proof.Machine.execReadClip o slot generation s
  | .listClips o start count => Sys2Proof.Machine.execListClips o start count s
  | .readCard o card => Sys2Proof.Machine.execReadCard o card s
  | .readVolumes o => Sys2Proof.Machine.execReadVolumes o s
  | .readFaults o start count => Sys2Proof.Machine.execReadFaults o start count s
  | .readLook o selector => Sys2Proof.Machine.execReadLook o selector s
  | .readLinks o => Sys2Proof.Machine.execReadLinks o s
  | .setNotices o mask => Sys2Proof.Machine.execSetNotices o mask s
  | .writeLink o entry kind camera severity action parameter enabled => Sys2Proof.Machine.execWriteLink o entry kind camera severity action parameter enabled s
  | .clearLink o entry => Sys2Proof.Machine.execClearLink o entry s
  | .ackFault o number => Sys2Proof.Machine.execAckFault o number s
  | .startOffload o card set => Sys2Proof.Machine.execStartOffload o card set s
  | .holdCard o card => Sys2Proof.Machine.execHoldCard o card s
  | .resumeCard o card => Sys2Proof.Machine.execResumeCard o card s
  | .abortCard o card => Sys2Proof.Machine.execAbortCard o card s
  | .releaseCard o card => Sys2Proof.Machine.execReleaseCard o card s
  | .recopy o slot generation mask => Sys2Proof.Machine.execRecopy o slot generation mask s
  | .retireClip o slot generation => Sys2Proof.Machine.execRetireClip o slot generation s
  | .retireCard o card => Sys2Proof.Machine.execRetireCard o card s
  | .defineSet o set mask copies mode => Sys2Proof.Machine.execDefineSet o set mask copies mode s
  | .setStall o port period retries => Sys2Proof.Machine.execSetStall o port period retries s
  | .writeLook o a => Sys2Proof.Machine.execWriteLook o a s
  | .clearLook o slot => Sys2Proof.Machine.execClearLook o slot s
  | .writeBinding o entry camera reelLow reelHigh look enabled => Sys2Proof.Machine.execWriteBinding o entry camera reelLow reelHigh look enabled s
  | .bindLook o slot generation look => Sys2Proof.Machine.execBindLook o slot generation look s
  | .queueRender o slot generation range port => Sys2Proof.Machine.execQueueRender o slot generation range port s
  | .resumeRenders o => Sys2Proof.Machine.execResumeRenders o s
  | .cueMonitor o slot generation range loop port => Sys2Proof.Machine.execCueMonitor o slot generation range loop port s
  | .stopMonitor o => Sys2Proof.Machine.execStopMonitor o s
  | .setMonitor o rate decimation reference time => Sys2Proof.Machine.execSetMonitor o rate decimation reference time s
  | .cancelRender o job => Sys2Proof.Machine.execCancelRender o job s
  | .waiveFault o number => Sys2Proof.Machine.execWaiveFault o number s
  | .waiveOverflow o slot generation => Sys2Proof.Machine.execWaiveOverflow o slot generation s
  | .writeProfile o a => Sys2Proof.Machine.execWriteProfile o a s
  | .present p => Sys2Proof.Machine.execPresent p s
  | .absent p => Sys2Proof.Machine.execAbsent p s
  | .directoryAnswer p x a => Sys2Proof.Machine.execDirectoryAnswer p x a s
  | .directoryTimeout p => Sys2Proof.Machine.execDirectoryTimeout p s
  | .readAnswer p x a => Sys2Proof.Machine.execReadAnswer p x a s
  | .stallTimerExpiry p => Sys2Proof.Machine.execStallTimerExpiry p s
  | .inserted p => Sys2Proof.Machine.execInserted p s
  | .removed p => Sys2Proof.Machine.execRemoved p s
  | .identifyAnswer p x a => Sys2Proof.Machine.execIdentifyAnswer p x a s
  | .enclosureTimeout p => Sys2Proof.Machine.execEnclosureTimeout p s
  | .openWriteAnswer p x a => Sys2Proof.Machine.execOpenWriteAnswer p x a s
  | .appendAnswer p x a => Sys2Proof.Machine.execAppendAnswer p x a s
  | .closeAnswer p x a => Sys2Proof.Machine.execCloseAnswer p x a s
  | .openReadAnswer p x a => Sys2Proof.Machine.execOpenReadAnswer p x a s
  | .volumeReadAnswer p x a => Sys2Proof.Machine.execVolumeReadAnswer p x a s
  | .samplerCompletion lane => Sys2Proof.Machine.execSamplerCompletion lane s
  | .sync damage => Sys2Proof.Machine.execSync damage s
  | .referencePulse time damage => Sys2Proof.Machine.execReferencePulse time damage s
  | .referenceTimeout damage => Sys2Proof.Machine.execReferenceTimeout damage s

end Sys2Proof.Machine
end

