-- ==== Sys2Proof/Machine/Step.lean ====
section
/-!
DEFINITION. One step: the command at the front of the queue is executed with the rest of the queue (first in, first out), and
an empty queue idles. `State.withFetchWord` puts the command that a word spells at the front of the queue.
-/

namespace Sys2Proof.Machine

/-- Take the command at the front of the queue and execute it; with no command waiting, idle.
(DESIGN CHOICE, notes/assumptions/1.md.) -/
def step (s : State) : Host.Outcome State Fault Refusal :=
  match s.pending with
  | [] => .next s
  | c :: rest => exec c { s with pending := rest }

/-- The state with the command that a word spells put at the front of its queue; unchanged when the word spells none. -/
def State.withFetchWord (s : State) (nbits w : Nat) : State :=
  match Sys2Proof.decodeTableWord nbits w with
  | some c => { s with pending := c :: s.pending }
  | none => s

end Sys2Proof.Machine
end

