-- ==== Sys2Proof/Safety.lean ====
section
/-!
DEFINITION. The terms that the statements use: when settings, station ports, the fault list and a raster are as the spec bounds them,
and when the part takes a request, is silent, or has no work of its own to start.
-/

namespace Sys2Proof.Machine

/-! ## Settings -/

/-- A destination set is as R75 and R76 leave it. -/
def SetFields.legal (x : SetFields) : Bool :=
  if x.mask = 0 then decide (x.copies = 1) && decide (x.verify = .readback)
  else decide (1 ≤ x.copies) && decide (x.copies ≤ 4) && decide (x.copies ≤ portCount x.mask)

/-- A look slot is empty with version 0, or holds a look of R106 under the version of its last write (R107). -/
def LookSlot.legal (x : LookSlot) : Bool :=
  decide (x.lastVersion ≤ 65535) &&
    match x.look with
    | none => decide (x.version = 0)
    | some (name, p) => decide (1 ≤ x.version) && decide (x.version = x.lastVersion) && lookNameValid name && decide (p.black ≤ 1023)

/-- A camera letter A..Z, or ANY. -/
def cameraLegal : Option Byte → Bool
  | none => true
  | some b => decide (0x41 ≤ b.toNat) && decide (b.toNat ≤ 0x5A)

/-- A binding rule is in the ranges of R113. -/
def BindingRule.legal (r : BindingRule) : Bool :=
  cameraLegal r.camera && decide (1 ≤ r.reelLow) && decide (r.reelLow ≤ r.reelHigh) && decide (r.reelHigh ≤ 999)

/-- A severity lies between two others. -/
def Severity.between (s low high : Severity) : Bool := decide (low.rank ≤ s.rank) && decide (s.rank ≤ high.rank)

/-- Each severity is one that its kind can have (R175). -/
def severitiesLegal (v : Vector Severity 16) : Bool :=
  v[0].between .block .block && v[1].between .warn .warn && v[2].between .warn .warn && v[3].between .warn .block &&
    v[4].between .warn .block && v[5].between .warn .block && v[6].between .note .block && v[7].between .note .warn &&
    v[8].between .note .block && v[9].between .note .warn && v[10].between .note .block && v[11].between .note .warn &&
    v[12].between .note .warn && v[13].between .note .warn && v[14].between .note .warn && v[15].between .warn .warn

/-- The QC profile is in the ranges of R173 and R175. -/
def Profile.legal (p : Profile) : Bool :=
  decide (1 ≤ p.stride) && decide (p.stride ≤ 1024) && decide (1 ≤ p.clipThreshold) && decide (p.clipThreshold ≤ 4095) &&
    decide (p.clipLimit ≤ 65535) && decide (p.blackLimit ≤ 4095) && decide (1 ≤ p.blackRun) && decide (p.blackRun ≤ 255) &&
    decide (2 ≤ p.frozenRun) && decide (p.frozenRun ≤ 255) && decide (p.gradeClampLimit ≤ 65535) && severitiesLegal p.severities

/-- A written link entry is as R191 and R192 leave it. -/
def LinkEntry.legal (x : LinkEntry) : Bool :=
  cameraLegal x.camera && actionAllowed x.action x.kind && (decide (x.kind = .faultRaised) || decide (x.severity = .note)) &&
    (decide (x.action = .queueRender) || decide (x.parameter = 0))

/-- The settings are in the ranges of R75, R106, R113, R173, R175 and R191. -/
def Settings.legal (g : Settings) : Bool :=
  decide (∀ i : Fin 4, (g.sets[i]).legal = true) && decide (∀ i : Fin 32, (g.looks[i]).legal = true) &&
    decide (∀ i : Fin 16, (g.rules[i]).legal = true) && g.profile.legal &&
    decide (∀ i : Fin 16, ∀ x, g.links[i] = some x → x.legal = true)

/-! ## Station ports -/

/-- What a port is sending is there to be sent (R204). -/
def Station.sendingLegal (x : Station) : Bool :=
  match x.sending with
  | none => true
  | some .refusal => decide (x.refusals ≠ [])
  | some .response => x.response.isSome
  | some (.notice _) => decide (x.notices ≠ [])

/-- A port holds what R201, R203 and R208 let it hold, and while DOWN nothing of a request. -/
def Station.legal (x : Station) : Bool :=
  decide (x.outstanding ≤ Config.maxOutstanding) && decide (x.refusals.length ≤ Config.maxRefusals) &&
    decide (x.notices.length ≤ Config.maxNotices) && x.sendingLegal &&
    (x.up || (decide (x.untaken = []) && x.response.isNone && decide (x.refusals = []) && decide (x.sending = none)))

/-- The three ports. -/
def Stations.legal (ss : Stations) : Bool := ss.a.legal && ss.b.legal && ss.c.legal

/-! ## The fault list and the raster -/

/-- Each clip record stands in the slot that its handle names, at the slot's generation (R4, R5). -/
def Engine.clipsWellPlaced (e : Engine) : Bool :=
  (List.finRange 512).all (fun j =>
    match (e.clips[j]).clip with
    | some c => decide (c.handle = ⟨j, (e.clips[j]).gen⟩)
    | none => true)

/-- The lowest and the highest severity of each of the twelve adjustable kinds, in the order of the kinds table (R175). -/
def adjustableSet (k : Fin 12) : Severity × Severity :=
  [(.warn, .block), (.warn, .block), (.warn, .block), (.note, .block), (.note, .warn), (.note, .block), (.note, .warn),
   (.note, .block), (.note, .warn), (.note, .warn), (.note, .warn), (.note, .warn)].getD k (.note, .note)

/-- Two records are unresolved and have the same key (R177). -/
def FaultRecord.clashes (r x : FaultRecord) : Bool :=
  r.unresolved && x.unresolved && decide (r.kind = x.kind) && decide (r.clip = x.clip) && decide (r.volume = x.volume)

/-- The fault list holds at most 256 records, whose numbers are distinct and in 1..65535, with at most one unresolved record for each
combination of kind, clip and volume (R177, R178, R180). The model's own serials are distinct too. -/
def Engine.faultsLegal (e : Engine) : Bool :=
  decide (e.faults.length ≤ Config.maxFaults) && decide (e.faults.Pairwise (fun r x => r.clashes x = false)) &&
    e.faults.all (fun r => decide (1 ≤ r.number) && decide (r.number ≤ 65535) && decide (r.serial < e.faultSerial)) &&
    decide ((e.faults.map (·.number)).Nodup) && decide ((e.faults.map (·.serial)).Nodup) && decide (e.faultCounter ≤ 65535)

/-! ## The records of the blocks -/

/-- The card records and the card ports agree (R9, R12, R13, R25): no two records have one identity or one port, a record's port is
ATTACHED or STALLED, a port with a read outstanding is ATTACHED (R34), the ports of the no-record list are in NO_RECORD and stand there
once, and the registration wait list holds exactly the records in WAIT_SPACE, once each, with their directories. -/
def Engine.cardsLegal (e : Engine) : Bool :=
  let records := (List.finRange 32).filterMap (fun c => e.cards[c])
  decide ((records.map CardRecord.identity).Nodup) && decide ((records.filterMap (·.attached)).Nodup) &&
    (records.filterMap (·.attached)).all (fun p =>
      decide ((e.cardPorts[p]).state = .attached) || decide ((e.cardPorts[p]).state = .stalled)) &&
    (List.finRange 4).all (fun p => (e.cardPorts[p]).read.isNone || decide ((e.cardPorts[p]).state = .attached)) &&
    decide (e.noRecord.Nodup) && e.noRecord.all (fun p => decide ((e.cardPorts[p]).state = .noRecord)) &&
    decide (e.waitList.Nodup) &&
    (List.finRange 32).all (fun c =>
      match e.cards[c] with
      | some r => decide (c ∈ e.waitList ↔ r.state = .waitSpace) && decide (r.pendingDir.isSome = true ↔ r.state = .waitSpace)
      | none => decide (c ∉ e.waitList))

/-- A clip's copy records (R7, R9): at most 6, on different volumes, each VERIFIED one with the clip's source digest. -/
def Clip.copiesLegal (c : Clip) : Bool :=
  decide (c.copies.length ≤ Config.maxCopyRecords) && decide ((c.copies.map (·.volume)).Nodup) &&
    c.copies.all (fun r => decide (r.state ≠ .verified) || (r.verifyDigest.isSome && decide (r.verifyDigest = c.sourceDigest)))

/-- The clip records are as R2, R4, R5, R7 and R9 give them: each in its handle's slot and in its card's clip list, whose handles
are current, of the card and without duplicates. -/
def Engine.clipsLegal (e : Engine) : Bool :=
  e.clipsWellPlaced && e.allClips.all Clip.copiesLegal &&
    e.allClips.all (fun c => ((e.cards[c.card]).map (fun r => r.clips.contains c.handle)).getD false) &&
    (List.finRange 32).all (fun i =>
      match e.cards[i] with
      | some r => decide (r.clips.Nodup) && r.clips.all (fun h => decide ((e.clipAt h).map (·.card) = some i))
      | none => true)

/-- The Volume Table and the destination ports agree (R63, R65, R67): no two entries have one serial or one port, the ports with an
entry are the ONLINE ones, and the untracked list holds exactly the UNTRACKED ports, once each. -/
def Engine.volumesLegal (e : Engine) : Bool :=
  let entries := (List.finRange 16).filterMap (fun v => e.volumes[v])
  decide ((entries.map (·.serial)).Nodup) && decide ((entries.filterMap (·.inserted)).Nodup) && decide (e.untracked.Nodup) &&
    (List.finRange 4).all (fun p =>
      decide (p ∈ entries.filterMap (·.inserted) ↔ (e.destPorts[p]).state = .online) &&
        match (e.destPorts[p]).state with
        | .untracked _ _ => decide (p ∈ e.untracked)
        | _ => decide (p ∉ e.untracked))

/-- The volume entries in use are those that are inserted or that a copy record names (R66), and every copy record names one. -/
def Engine.entriesUsed (e : Engine) : Bool :=
  (List.finRange 16).all (fun v =>
    match e.volumes[v] with
    | some x => x.inserted.isSome || decide (0 < e.refCount v)
    | none => decide (e.refCount v = 0))

/-- The descriptors RUNNING that a lane runs, the slot of each lane's descriptor. -/
def Engine.laneSlots (e : Engine) : List (Fin 64) := ((List.finRange 2).filterMap e.laneRun).map (·.slot)

/-- The copy queue and the lanes agree (R79, R82, R83): no two descriptors have one slot, the RUNNING ones are those the lanes run, a
descriptor to a lane, each volume is the source of at most one of them, and a card-sourced one heads its card's chain. -/
def Engine.queueLegal (e : Engine) : Bool :=
  decide ((e.queue.map (·.slot)).Nodup) && decide (e.laneSlots.Nodup) &&
    e.laneSlots.all (fun k => decide ((e.descriptor k).map (·.state) = some .running)) &&
    e.queue.all (fun d => decide (d.state ≠ .running) || (e.laneSlots.contains d.slot && e.headsChain d)) &&
    decide (((e.queue.filter (fun d => decide (d.state = .running))).filterMap Descriptor.sourceVolume).Nodup)

/-- The jobs that the contexts run. -/
def Engine.contextJobs (e : Engine) : List (Fin 16) := ((List.finRange 2).filterMap e.contextRun).map (·.1)

/-- The render queue and the contexts agree (R127, R132, R134): no two jobs have one slot, the RUNNING ones are those the contexts
run, a job to a context, a claim is one job's that waits, and the cue names a job of the queue. -/
def Engine.rendersLegal (e : Engine) : Bool :=
  let claims := (List.finRange 2).filterMap (fun c => (e.contexts[c]).claim)
  decide ((e.jobs.map (·.slot)).Nodup) && decide (e.contextJobs.Nodup) && decide (claims.Nodup) &&
    e.contextJobs.all (fun j => decide ((e.job j).map (·.state) = some .running)) &&
    e.jobs.all (fun x => decide (x.state ≠ .running) || e.contextJobs.contains x.slot) &&
    claims.all (fun j => ((e.job j).map (fun x => decide (x.state ≠ .running))).getD false) &&
    (match e.monitor.cue.job with | some j => (e.job j).isSome | none => true)

/-- The pending requeue list holds at most 8 items, no two for one clip and volume, at generations 1 to 3 (R198). -/
def Engine.requeuesLegal (e : Engine) : Bool :=
  decide (e.requeues.length ≤ Config.maxRequeues) && decide ((e.requeues.map (fun x => (x.clip, x.volume))).Nodup) &&
    e.requeues.all (fun x => decide (1 ≤ x.generation) && decide (x.generation ≤ Config.maxGeneration))

/-- A raster in its canonical form: positions of the raster, strictly rising, and raster black never listed (section 8.4). -/
abbrev Raster.wf (r : Raster) : Prop :=
  r.Pairwise (fun x y => x.1 < y.1) ∧ ∀ x ∈ r, x.2 ≠ rasterBlack ∧ x.1 < Config.rasterWidth * Config.rasterHeight

/-! ## When a command finds the part ready -/

/-- The port can take a request (R201, R203), and no other request of it is queued. -/
def State.accepts (s : State) (o : Origin) : Bool := s.canTake o.port && decide ((s.stations.get o.port).untaken = [])

/-- No link entry is written, so that the matrix takes no action (R191, R194). -/
def Settings.silent (g : Settings) : Bool := decide (∀ i : Fin 16, g.links[i] = none)

/-- No render job exists, and no context runs or is claimed: the Render Engine has nothing to start (R127, R134). -/
def Engine.renderIdle (e : Engine) : Bool :=
  decide (e.jobs = []) && decide (∀ c : Fin 2, (e.contexts[c]).claim = none) && decide (∀ c : Fin 2, e.contextRun c = none)

/-- The context wants the pipeline for a frame in range that it has met (R137); whether it may ask for it now, with the back buffer as
it stands, is not said here. -/
def Engine.wantsPipeline (e : Engine) (c : Fin 2) : Bool :=
  match e.contextRun c with
  | some (_, run) =>
    decide (run.phase = .walking) && decide (run.walk.mode = .pixels) && !run.insideFrame && run.frame.isSome
  | none => false

/-- The walk of a context stands at its take end (R136). -/
def ContextRun.atTakeEnd (run : ContextRun) : Bool :=
  decide (run.walk.mode = .head) && decide (run.walk.head = []) && decide (run.length - run.walk.offset < 8)

/-- The context waits (R134 to R139): IDLE with no job to take; DRAINING; or RUNNING a job that has no byte to consume until an answer
comes, that has no pipeline for its frame, or that appends or closes. -/
def Engine.contextWaits (e : Engine) (c : Fin 2) : Bool :=
  match (e.contexts[c]).state with
  | .idle => (e.contexts[c]).claim.isNone && (e.paused || e.nextJob.isNone)
  | .draining => true
  | .running j run =>
    if run.phase = .walking then
      (decide (run.walk.mode = .pixels) && (e.pipelineOf c).isNone) ||
        (decide (run.buffer = []) && e.asking (.context c) && !run.atTakeEnd)
    else decide (run.phase ≠ .closingSource) || e.runsProxyJob j || !e.inFlight (.context c)

/-- The Render Engine waits, and a back buffer that becomes free gives it nothing to do (R134, R137): both contexts wait, and the
pipeline is held or no context wants it. It waits so after reset, with no job, with both contexts DRAINING, and while its RUNNING jobs
wait for the answers of enclosures. -/
def Engine.renderWaits (e : Engine) : Bool :=
  e.contextWaits 0 && e.contextWaits 1 && (e.pipeline.isSome || (!e.wantsPipeline 0 && !e.wantsPipeline 1))

/-- What the moves of the Render Engine leave of the blocks (R126 to R140): the card records and ports, the Volume Table, the copy queue, the
lanes, the scanner, the paused flag and the pending requeues; of the Monitor Output all but the back buffer, the placement of the frame
last written to it, and the job slot of a cue whose job has ended; the events already signaled; and the under-run count of every job
that is still there. -/
def Engine.renderLeaves (x y : Engine) : Prop :=
  y = { x with
    clips := y.clips, destPorts := y.destPorts, pipeline := y.pipeline, lastPipeline := y.lastPipeline, jobs := y.jobs,
    contexts := y.contexts, lastJobGrant := y.lastJobGrant, monitor := y.monitor, faults := y.faults,
    faultCounter := y.faultCounter, dropped := y.dropped, faultSerial := y.faultSerial, events := y.events } ∧
  (∃ job, (job = x.monitor.cue.job ∨ job = none) ∧
    y.monitor = { x.monitor with
      back := y.monitor.back, placement := y.monitor.placement, cue := { x.monitor.cue with job := job } }) ∧
  x.events <+: y.events ∧
  ∀ j, y.job j = none ∨ (y.job j).map (·.underruns) = (x.job j).map (·.underruns)

/-- The Render Engine goes on from the blocks `x` and leaves the blocks `t` (R134 to R140): it settles, its moves leave what
`Engine.renderLeaves` says, and while it waits it makes none. -/
def Engine.goesOn (g : Settings) (x t : Engine) : Prop :=
  t = x.settleRender g ∧ x.renderLeaves t ∧ (x.renderWaits = true → t = x)

/-- A context that a cue without a monitor job before it claims (R132): IDLE, or DRAINING with none IDLE, and not claimed; the
lowest-numbered of two alike. (DESIGN CHOICE, notes/assumptions/44.md.) -/
def Engine.claimedByCue (e : Engine) (c : Fin 2) : Bool :=
  let free (x : ContextState) (i : Fin 2) : Bool := (e.contexts[i]).claim.isNone && decide ((e.contexts[i]).state = x)
  (free .idle c && decide (∀ i < c, free .idle i = false)) ||
    (free .draining c && decide (∀ i, free .idle i = false) && decide (∀ i < c, free .draining i = false))

/-- What a sync at a time makes of the blocks `e` (R156, R160, R161), `t` being the blocks after it. A READY back buffer becomes the front;
else a blanking is shown as black; else the front is shown again, with an under-run counted against the monitor job once its first
frame has been shown. The front is sent at the monitor rate, its raster as it stands by then, and a picture whose check differs from
the one written with it raises OUTPUT_PATH. Then the Render Engine goes on (R137), and where it waited before the sync it makes no
move. (What damage a sync brings to the raster is notes/assumptions/34.md; the repeat mark of a BLACK front that
is blanked is notes/assumptions/60.md.) -/
def Engine.showsTheFront (g : Settings) (e : Engine) (time : Nat) (damage : Damage) (t : Engine) : Prop :=
  let m := e.monitor
  let sent : MonitorOut := { m with lastSync := some time, frontSent := true }
  let black (repeated : Bool) : OutputFrame := ⟨false, m.rate, m.drop, none, none, repeated, []⟩
  let damaged (pic : Picture) : Picture := { pic with raster := pic.raster.damage damage }
  let shown (pic : Picture) (repeated : Bool) : OutputFrame :=
    ⟨true, m.rate, m.drop, some pic.number, some pic.tc, repeated, pic.raster.damage damage⟩
  let checked (pic : Picture) (x : Engine) : Engine :=
    if rasterCheck (pic.raster.damage damage) = pic.writeCheck then x
    else x.raiseFault g ⟨.outputPath, pic.clip, pic.card, none, some pic.number, some pic.number, some pic.tc, none⟩
  let goesOn (x : Engine) : Prop := Engine.goesOn g x t ∧ (e.renderWaits = true → t = x)
  (∀ pic, m.back = .ready pic →
    goesOn (checked pic { e with monitor := { sent with
      front := .picture (damaged pic), back := .empty, blanking := false, output := some (shown pic false),
      cue := if m.cue.job = some pic.job then { m.cue with firstShown := true, runFlag := false } else m.cue } })) ∧
  (m.back.isReady = false → m.blanking = true →
    goesOn { e with monitor := { sent with
      front := .black, blanking := false,
      output := some (black (match m.front with | .black => m.frontSent | .picture _ => false)) } }) ∧
  (m.back.isReady = false → m.blanking = false →
    ((m.cue.job = none ∨ m.cue.firstShown = false) →
      (m.front = .black → goesOn { e with monitor := { sent with output := some (black m.frontSent) } }) ∧
      (∀ pic, m.front = .picture pic →
        goesOn (checked pic { e with monitor := { sent with
          front := .picture (damaged pic), output := some (shown pic m.frontSent) } }))) ∧
    (∀ (k : Fin 16) (j : Job), m.cue.job = some k → m.cue.firstShown = true → e.job k = some j →
      let counted : Engine := { e with
        jobs := e.jobs.map (fun x => if x.slot = k then { x with underruns := min 65535 (x.underruns + 1) } else x)
        events := if m.cue.runFlag then e.events else e.events ++ [Event.ofClip .monitorUnderrun j.card j.clip] }
      let again : MonitorOut := { sent with cue := { m.cue with runFlag := true } }
      (m.front = .black → goesOn { counted with monitor := { again with output := some (black m.frontSent) } }) ∧
      (∀ pic, m.front = .picture pic →
        goesOn (checked pic { counted with monitor := { again with
          front := .picture (damaged pic), output := some (shown pic m.frontSent) } }))))

/-- No lane is IDLE: the Transfer Engine can start no descriptor (R83). -/
def Engine.lanesTaken (e : Engine) : Bool := decide (e.idleLane = none)

/-- The station ports with a request taken at `o.port` and its answer waiting there, or being sent when the direction was free, and the
requests `rest` behind it (R203, R204). -/
def State.withAnswer (s : State) (o : Origin) (kind : Nat) (rest : List Request) (a : Answer) : Stations :=
  s.stations.set o.port { s.stations.get o.port with untaken := rest, response := some ⟨o.tag, kind, a.1, a.2⟩ }.pump

/-- A request taken at a port that accepts it has its answer, and nothing has changed but the answer waiting at its port and what
the ports send; what it does to settings and blocks is said beside this. -/
def State.onlyAnswered (s t : State) (o : Origin) (kind : Nat) (a : Answer) : Prop :=
  t.stations = (s.withAnswer o kind [] a).each Station.pump ∧
  t.pending = s.pending ∧ t.resetHeld = s.resetHeld ∧ t.now = s.now ∧ t.seated = s.seated ∧ t.mounted = s.mounted

/-- A request taken at a port that accepts it has its answer, the events of the step have become notices, and nothing has changed
that is not the blocks'. A free direction sends once all of them are notices. (DESIGN CHOICE, notes/assumptions/64.md.) -/
def State.answeredWith (s t : State) (o : Origin) (kind : Nat) (a : Answer) : Prop :=
  t.stations = ((s.withAnswer o kind [] a).notify t.engine.events).each Station.pump ∧ t.settings = s.settings ∧
  t.pending = s.pending ∧ t.resetHeld = s.resetHeld ∧ t.now = s.now ∧ t.seated = s.seated ∧ t.mounted = s.mounted

/-- A step of the blocks: its events have become notices, and nothing else of the ports, no setting and no waiting command has
changed. A free direction sends once all of them are notices. (DESIGN CHOICE, notes/assumptions/64.md.) -/
def State.ranBlocks (s t : State) : Prop :=
  t.stations = (s.stations.notify t.engine.events).each Station.pump ∧ t.settings = s.settings ∧ t.pending = s.pending ∧
  t.resetHeld = s.resetHeld

/-- A step of the blocks that is no card's or drive's arrival or departure and no timed event. -/
def State.ranInPlace (s t : State) : Prop := s.ranBlocks t ∧ t.now = s.now ∧ t.seated = s.seated ∧ t.mounted = s.mounted

/-- The part runs, no link entry is written, no lane is IDLE and the Render Engine has nothing to do: what a step does is what its
own rule says. -/
def State.calm (s : State) : Bool :=
  !s.resetHeld && s.settings.silent && s.engine.lanesTaken && s.engine.renderIdle

/-- The request that a command is, with the number of its kind (R205). -/
def requestOf : Instr → Option (Origin × Nat)
  | .unknownRequestKind o k _ => if k = 0 ∨ 35 < k then some (o, k) else none
  | .status o => some (o, 1) | .readClip o _ _ => some (o, 2) | .listClips o _ _ => some (o, 3) | .readCard o _ => some (o, 4)
  | .readVolumes o => some (o, 5) | .readFaults o _ _ => some (o, 6) | .readLook o _ => some (o, 7)
  | .readLinks o => some (o, 8) | .setNotices o _ => some (o, 9) | .writeLink o _ _ _ _ _ _ _ => some (o, 10)
  | .clearLink o _ => some (o, 11) | .ackFault o _ => some (o, 12) | .startOffload o _ _ => some (o, 13)
  | .holdCard o _ => some (o, 14) | .resumeCard o _ => some (o, 15) | .abortCard o _ => some (o, 16)
  | .releaseCard o _ => some (o, 17) | .recopy o _ _ _ => some (o, 18) | .retireClip o _ _ => some (o, 19)
  | .retireCard o _ => some (o, 20) | .defineSet o _ _ _ _ => some (o, 21) | .setStall o _ _ _ => some (o, 22)
  | .writeLook o _ => some (o, 23) | .clearLook o _ => some (o, 24) | .writeBinding o _ _ _ _ _ _ => some (o, 25)
  | .bindLook o _ _ _ => some (o, 26) | .queueRender o _ _ _ _ => some (o, 27) | .resumeRenders o => some (o, 28)
  | .cueMonitor o _ _ _ _ _ => some (o, 29) | .stopMonitor o => some (o, 30) | .setMonitor o _ _ _ _ => some (o, 31)
  | .cancelRender o _ => some (o, 32) | .waiveFault o _ => some (o, 33) | .waiveOverflow o _ _ => some (o, 34)
  | .writeProfile o _ => some (o, 35)
  | .resetAssert | .resetRelease | .linkUp _ | .linkLost _ | .requestArrival _ _ _ | .messageSent _ | .present _ | .absent _
  | .directoryAnswer _ _ _ | .directoryTimeout _ | .readAnswer _ _ _ | .stallTimerExpiry _ | .inserted _ | .removed _
  | .identifyAnswer _ _ _ | .enclosureTimeout _ | .openWriteAnswer _ _ _ | .appendAnswer _ _ _ | .closeAnswer _ _ _
  | .openReadAnswer _ _ _ | .volumeReadAnswer _ _ _ | .samplerCompletion _ | .sync _ | .referencePulse _ _
  | .referenceTimeout _ => none

/-- The blocks as a step begins: the events and the removal of the step before are forgotten. -/
abbrev State.blocks (s : State) : Engine := s.engine.beginStep

end Sys2Proof.Machine
end

