-- ==== Sys2Proof/Certificates/Slice0/Obligations.lean ====
section
/-!
DEFINITION. The statements for the provers. A statement about a command says what `exec` answers for it; `State.accepts`,
`Settings.silent` and the other terms that several statements share are defined in Sys2Proof/Safety.lean.
-/

open Sys2Proof Sys2Proof.Machine

/-! ## The Grade Pipeline -/

/-- R120: stage 1 removes the input black, and needs no saturation. -/
def Obligations.InputBlackIsRemoved : Prop :=
  ∀ black v : Nat, black ≤ 1023 → v ≤ 4095 →
    stage1 black v = ((v : Int) - black) * 4 ∧ -4092 ≤ stage1 black v ∧ stage1 black v ≤ 16380 ∧
      (v = black → stage1 black v = 0) ∧ (v < black → stage1 black v < 0)

/-- R121: stage 2 is the rounded matrix row; with the results of stage 1 it needs no saturation, and a row that sums to 8192 keeps
a neutral grey neutral. -/
def Obligations.MatrixRowRoundsWithoutSaturation : Prop :=
  ∀ (row : Vector (BitVec 16) 3) (r g b : Int), -4092 ≤ r → r ≤ 16380 → -4092 ≤ g → g ≤ 16380 → -4092 ≤ b → b ≤ 16380 →
    let sum := row[0].toInt * r + row[1].toInt * g + row[2].toInt * b
    sum ≤ 1610170380 ∧ -1610219520 ≤ sum ∧ stage2 row r g b = (sum + 4096) / 8192 ∧ -196560 ≤ stage2 row r g b ∧
      stage2 row r g b ≤ 196554 ∧ saturate (stage2 row r g b) = stage2 row r g b ∧
      (row[0].toInt + row[1].toInt + row[2].toInt = 8192 → r = g → g = b → stage2 row r g b = r)

/-- R122: stage 3 applies slope and offset, and saturates after the offset is added; a slope of 0 leaves the offset. -/
def Obligations.SlopeAndOffsetSaturateLast : Prop :=
  ∀ (slope offset : BitVec 16) (w : Int), -196560 ≤ w → w ≤ 196554 →
    let x := (w * slope.toNat + 8192) / 16384 + offset.toInt
    x ≤ 818971 ∧ -818996 ≤ x ∧
      stage3 slope offset w = (if x < -524288 then -524288 else if 524287 < x then 524287 else x) ∧
      (slope = 0 → stage3 slope offset w = offset.toInt)

/-- R123: stage 4 interpolates the shaper table, and its result lies between the two entries of its segment, whatever the table
holds. -/
def Obligations.ShaperStaysInItsSegment : Prop :=
  ∀ (table : Vector (BitVec 16) 65) (w : Int),
    let u := (if w < 0 then 0 else if 32767 < w then 32767 else w).toNat
    ∃ h : u / 512 + 1 < 65,
      let lo : Int := (table[u / 512]).toNat
      let hi : Int := (table[u / 512 + 1]).toNat
      stage4 table w = lo + ((hi - lo) * (u % 512 : Nat) + 256) / 512 ∧ min lo hi ≤ stage4 table w ∧
        stage4 table w ≤ max lo hi ∧ 0 ≤ stage4 table w ∧ stage4 table w ≤ 65535 ∧
        (w < 0 → stage4 table w = (table[0]).toNat) ∧ (32767 ≤ w → stage4 table w = stage4 table 32767)

/-- R124: stage 5 quantises and clamps to the output range; a pixel is the output values of its three channels, marked output-clamped
when the clamp changed any of them, and lies in the output range of its look: 64 to 940 for NARROW, 0 to 1023 for FULL. -/
def Obligations.OutputIsQuantisedClampedAndMarked : Prop :=
  (∀ (range : OutputRange) (y : Int), 0 ≤ y → y ≤ 65535 →
     let q := (y + 32) / 64
     0 ≤ q ∧ q ≤ 1024 ∧ (q = 1024 ↔ 65504 ≤ y) ∧
       ((stage5 range y : Nat) : Int) = (if q < range.low then range.low else if range.high < q then range.high else q) ∧
       (clampedBy range y = true ↔ q < range.low ∨ range.high < q)) ∧
  (∀ (p : LookParams) (v : Rgb),
     let y (c : Fin 3) : Int := channelY p c (stage1 p.black v.r) (stage1 p.black v.g) (stage1 p.black v.b)
     let x := (gradePixel p v).1
     x = ⟨stage5 p.range (y 0), stage5 p.range (y 1), stage5 p.range (y 2)⟩ ∧
     ((gradePixel p v).2 = true ↔ ∃ c : Fin 3, clampedBy p.range (y c) = true) ∧
     match p.range with
     | .narrow => 64 ≤ x.r ∧ x.r ≤ 940 ∧ 64 ≤ x.g ∧ x.g ≤ 940 ∧ 64 ≤ x.b ∧ x.b ≤ 940
     | .full => x.r ≤ 1023 ∧ x.g ≤ 1023 ∧ x.b ≤ 1023)

/-! ## Timecode, checks and placement -/

/-- R167, R168: the count of a valid label lies below the day length, and no two valid labels have the same count; the jump between two
valid labels lies in half a day either way, leads from the expected count to the count, and is 0 exactly when the label is the
expected one. -/
def Obligations.LabelCountsAreDistinctAndJumpsLieInHalfADay : Prop :=
  (∀ (rate : Fin 9) (drop : Bool) (t u : Timecode), labelValid rate drop t = true → labelValid rate drop u = true →
     labelCount rate drop t < dayLength rate drop ∧
       (labelCount rate drop t = labelCount rate drop u → t.hh = u.hh ∧ t.mm = u.mm ∧ t.ss = u.ss ∧ t.ff = u.ff)) ∧
  (∀ (rate : Fin 9) (drop : Bool) (p t : Timecode), labelValid rate drop p = true → labelValid rate drop t = true →
     let day : Int := dayLength rate drop
     let jump := labelJump rate drop p t
     jump ≤ day / 2 ∧ -(day / 2 - 1) ≤ jump ∧
       ((labelCount rate drop p : Int) + 1 + jump) % day = (labelCount rate drop t : Int) ∧
       (jump = 0 ↔ labelCount rate drop t = (labelCount rate drop p + 1) % dayLength rate drop))

/-- R49, R84: the check values that the spec gives for the two CRCs and the digest. -/
def Obligations.CrcCheckValues : Prop :=
  frameCheck (ascii "123456789") = 0xCBF43926#32 ∧ digest (ascii "123456789") = 0xCBF43926E3069283#64 ∧ digest [] = 0#64

/-- R154: the decimation factor d is the setting, or under AUTO the smallest of 1, 2 and 4 that fits the decimated picture in 1920 by 1080,
and 4 when none does. Of a picture of w by h pixels the pixel (x, y) is shown exactly where d divides x and y and the decimated pixel is
not cut: a decimated picture narrower than the raster starts at column floor((1920 - Wd) / 2), of a wider one the 1920 columns from
floor((Wd - 1920) / 2) on are shown from column 0, and rows likewise. The shown pixels fall on distinct positions, where the pixels written
from the picture's first on are read back, and raster black everywhere else. -/
def Obligations.ShownPixelsReachTheRaster : Prop :=
  ∀ (setting : Decimation) (w h : Nat), 0 < w →
    let p := placementOf setting w h
    let fits (d : Nat) : Bool := decide ((w + d - 1) / d ≤ 1920) && decide ((h + d - 1) / d ≤ 1080)
    let d : Nat := match setting with
      | .one => 1
      | .two => 2
      | .four => 4
      | .auto => if fits 1 then 1 else if fits 2 then 2 else 4
    let wd := (w + d - 1) / d
    let hd := (h + d - 1) / d
    let startColumn := (1920 - wd) / 2
    let startRow := (1080 - hd) / 2
    let cutColumns := (wd - 1920) / 2
    let cutRows := (hd - 1080) / 2
    p.factor = d ∧
    (∀ x y pos, x < w → y < h →
      (p.position w (y * w + x) = some pos ↔
        x % d = 0 ∧ y % d = 0 ∧ cutColumns ≤ x / d ∧ x / d < cutColumns + 1920 ∧ cutRows ≤ y / d ∧ y / d < cutRows + 1080 ∧
          pos = (startRow + (y / d - cutRows)) * 1920 + (startColumn + (x / d - cutColumns)))) ∧
    (∀ k l pos, p.position w k = some pos → pos < 2073600 ∧ (p.position w l = some pos → k = l)) ∧
      ∀ pixels : List Rgb,
        let r := p.fill w 0 pixels []
        r.wf ∧ (∀ k pos x, pixels[k]? = some x → p.position w k = some pos → r.read pos = x) ∧
          ∀ pos, (∀ k < pixels.length, p.position w k ≠ some pos) → r.read pos = rasterBlack

/-- R42 to R51, R54, R55, R57, R58, R60: what the walk of a parse finds does not depend on where the take is cut into blocks. A whole
chunk that fits, at a chunk boundary: the first one gives the header outcome, VALID with the header of a valid TKHD, else INVALID with
the cause of BAD_HEADER; a later FRAM under a header shows its frame, or FRAME_SIZE and its prefix where the length is not the expected
one; any other chunk shows nothing. A head whose chunk passes the take end, and 1 to 7 bytes left at a boundary, end the walk with
TRUNCATED_CHUNK; the take end comes with the last byte, and BAD_HEADER cause 5 with it where no header outcome was reached. (That the
BAD_HEADER of a first head with another tag comes before the TRUNCATED_CHUNK of the same head is the model's choice, log 63.) -/
def Obligations.ParseIgnoresBlockBoundaries : Prop :=
  (∀ (p : Parse) (xs ys : List Byte),
    p.block (xs ++ ys) =
      (((p.block xs).1.block ys).1, (p.block xs).2 ++ ((p.block xs).1.block ys).2)) ∧
  (∀ (p : Parse) (tag payload : List Byte),
     p.walk = .chunkHead → p.head = [] → p.frame = FrameInProgress.empty → p.awaitsPrefix = false → tag.length = 4 →
     payload.length < 4294967296 → p.offset + 8 + payload.length ≤ p.byteLength →
     (p.chunkIndex = 0 → p.header = none ∧ p.outcome = .pending ∧ p.badRaised = false) →
     (0 < p.chunkIndex → p.outcome ≠ .pending) →
     let result := p.block (tag ++ leBytes 4 payload.length ++ payload)
     let q := result.1
     let remaining := p.byteLength - (p.offset + 8 + payload.length)
     let after := if remaining = 0 then [ParseOut.takeEnd (q.header.bind (·.declared))]
       else if remaining < 8 then [.truncated (8 - remaining)] else []
     q.offset = p.offset + 8 + payload.length ∧ q.chunkIndex = p.chunkIndex + 1 ∧
     q.walk = (if 0 < remaining ∧ remaining < 8 then .ended else .chunkHead) ∧
     (p.chunkIndex = 0 →
       (tag ≠ ascii "TKHD" → q.header = none ∧ q.outcome = .invalid ∧ result.2 = .headerInvalid 4 :: after) ∧
       (tag = ascii "TKHD" → ∀ h, readHeader payload = .ok h →
         q.header = some h ∧ q.outcome = .valid ∧ result.2 = .headerValid h :: after) ∧
       (tag = ascii "TKHD" → ∀ cause, readHeader payload = .error cause →
         q.header = none ∧ q.outcome = .invalid ∧ result.2 = .headerInvalid cause :: after)) ∧
     (0 < p.chunkIndex →
       q.header = p.header ∧ q.outcome = p.outcome ∧
       (p.header = none ∨ tag ≠ ascii "FRAM" → result.2 = after ∧ q.previous = p.previous) ∧
       ∀ h, p.header = some h → tag = ascii "FRAM" →
         let size := h.depth.bytes
         let expected := 12 + h.width * h.height * size
         (payload.length ≠ expected →
           q.previous = p.previous ∧
           result.2 = .frameSize ((payload.length : Int) - expected) ::
             (if 12 ≤ payload.length then [.sizePrefix (prefixNumber (payload.take 12)) (prefixTimecode (payload.take 12))] else []) ++
             after) ∧
         (payload.length = expected →
           let data := payload.drop 12
           let pixels := (List.range (h.width * h.height)).map (fun k => decodePixel h.depth ((data.drop (k * size)).take size))
           let number := prefixNumber (payload.take 12)
           let tc := prefixTimecode (payload.take 12)
           q.previous = some ⟨number, tc, frameCheck data⟩ ∧
           result.2 = .frame number tc (prefixCheck (payload.take 12)) (frameCheck data) (pixels.filter (·.2)).length
             (pixels.map (·.1)) h p.previous :: after))) ∧
  (∀ (p : Parse) (tag : List Byte) (n : Nat),
     p.walk = .chunkHead → p.head = [] → p.frame = FrameInProgress.empty → p.awaitsPrefix = false → tag.length = 4 →
     n < 4294967296 → p.offset + 8 ≤ p.byteLength → p.byteLength < p.offset + 8 + n →
     (p.chunkIndex = 0 → p.header = none ∧ p.outcome = .pending ∧ p.badRaised = false) →
     (0 < p.chunkIndex → p.outcome ≠ .pending) →
     let result := p.block (tag ++ leBytes 4 n)
     let first := decide (p.chunkIndex = 0)
     result.1.walk = .ended ∧
       result.2 = (if first && decide (tag ≠ ascii "TKHD") then [.headerInvalid 4] else []) ++
         .truncated (p.offset + 8 + n - p.byteLength) ::
         (if p.offset + 8 < p.byteLength then []
          else if first && decide (tag = ascii "TKHD") then [.headerInvalid 5, .takeEnd none]
          else [.takeEnd (p.header.bind (·.declared))])) ∧
  (∀ (p : Parse) (bytes : List Byte), p.walk = .ended → 0 < p.offset → bytes ≠ [] → p.offset + bytes.length ≤ p.byteLength →
     (p.outcome = .pending → p.badRaised = false) →
     (p.block bytes).2 =
       if p.offset + bytes.length < p.byteLength then []
       else if p.outcome = .pending then [.headerInvalid 5, .takeEnd none]
       else [.takeEnd (p.header.bind (·.declared))])

/-! ## The fault list -/

/-- R178 to R181: a fault that reaches the list keeps it at most 256 records long with distinct numbers in 1..65535 and one unresolved
record for each key, and never evicts an unresolved BLOCK record. -/
def Obligations.RaisingAFaultKeepsTheListLegal : Prop :=
  ∀ (g : Settings) (e : Engine) (f : FaultInput), e.faultsLegal = true →
    (e.raiseFault g f).faultsLegal = true ∧
      ∀ r ∈ e.faults, r.unresolved = true → r.severity = .block →
        ∃ x ∈ (e.raiseFault g f).faults, x.number = r.number ∧ x.unresolved = true ∧ x.severity = .block ∧ x.kind = r.kind ∧
          x.clip = r.clip ∧ x.volume = r.volume

/-! ## Steps, reset and the station links -/

/-- A step executes the command at the front of the queue on the state with the queue's rest. With no command waiting it idles
(the model's choice, notes/assumptions/1.md). -/
def Obligations.StepRunsTheFrontCommand : Prop :=
  ∀ s : State,
    (∀ (c : Instr) (rest : List Instr), s.pending = c :: rest → step s = exec c { s with pending := rest }) ∧
      (s.pending = [] → step s = .next s)

/-- No command stops the machine: each answers a next state, and leaves the commands that wait as they are. -/
def Obligations.EveryCommandAnswersANextState : Prop :=
  ∀ (c : Instr) (s : State), ∃ t, exec c s = .next t ∧ t.pending = s.pending

/-- R24, R38, R41, R61, R75, R78, R105, R113, R146, R147, R162, R173, R189, R191, R200, R210: what reset leaves. -/
def Obligations.ResetLeavesTheStatedValues : Prop :=
  let s := State.reset
  s.settings.sets[0] = ⟨15, 2, .readback⟩ ∧ (∀ i : Fin 4, i ≠ 0 → s.settings.sets[i] = ⟨0, 1, .readback⟩) ∧
    (∀ p : Fin 4, s.settings.stall[p] = ⟨3, 2⟩) ∧ (∀ i : Fin 32, s.settings.looks[i] = ⟨0, 0, none⟩) ∧
    (∀ i : Fin 16, s.settings.rules[i] = ⟨none, 1, 999, 0, false⟩) ∧ (∀ i : Fin 16, s.settings.links[i] = none) ∧
    s.settings.monitor = ⟨none, .auto, .internal⟩ ∧ s.settings.profile.stride = 64 ∧ s.settings.profile.clipThreshold = 4000 ∧
    s.settings.profile.clipLimit = 655 ∧ s.settings.profile.blackLimit = 300 ∧ s.settings.profile.blackRun = 24 ∧
    s.settings.profile.frozenRun = 3 ∧ s.settings.profile.gradeClampLimit = 1310 ∧
    (∀ c : Fin 32, s.engine.cards[c] = none) ∧ (∀ i : Fin 512, s.engine.clips[i] = ⟨0, none⟩) ∧ s.engine.waitList = [] ∧
    s.engine.noRecord = [] ∧ (∀ p : Fin 4, s.engine.cardPorts[p] = ⟨.empty, none, none, false, false⟩) ∧
    (∀ v : Fin 16, s.engine.volumes[v] = none) ∧ (∀ p : Fin 4, s.engine.destPorts[p] = ⟨.empty, none, [], .context 1⟩) ∧
    s.engine.untracked = [] ∧ s.engine.queue = [] ∧ (∀ l : Fin 2, s.engine.lanes[l] = .idle) ∧ s.engine.pipeline = none ∧
    s.engine.jobs = [] ∧ (∀ c : Fin 2, s.engine.contexts[c] = ⟨.idle, none⟩) ∧ s.engine.lastPipeline = 1 ∧
    s.engine.paused = false ∧ s.engine.monitor.rate = 1 ∧ s.engine.monitor.drop = false ∧
    s.engine.monitor.nextSync = 1125000 ∧ s.engine.monitor.checker = .off ∧ s.engine.monitor.inWindow = 0 ∧
    s.engine.monitor.prevPulse = none ∧ s.engine.monitor.lastGood = none ∧ s.engine.monitor.front = .black ∧
    s.engine.monitor.back = .empty ∧ s.engine.monitor.blanking = false ∧ s.engine.monitor.cue = Cue.reset ∧
    (∀ l : Fin 2, s.engine.sampler[l] = none) ∧ s.engine.faults = [] ∧ s.engine.faultCounter = 0 ∧ s.engine.dropped = false ∧
    s.engine.requeues = [] ∧
    ∀ p : StationPort, (s.stations.get p).up = false ∧ (s.stations.get p).untaken = [] ∧ (s.stations.get p).response = none ∧
      (s.stations.get p).refusals = [] ∧ (s.stations.get p).notices = [] ∧ (s.stations.get p).mask = 63 ∧
      (s.stations.get p).missed = false ∧ (s.stations.get p).sequence = 0 ∧ (s.stations.get p).resetFlag = true

/-- R41, R78, R210: RESET_ASSERT brings the part to its values after reset and holds it; RESET_RELEASE lets a held part begin from them,
each seated card and each mounted drive as freshly inserted; while the reset input is held, no command but those of the input itself
changes a block, a port or a setting (notes/assumptions/23.md). -/
def Obligations.ResetInputHoldsAndReleasesThePart : Prop :=
  (∀ s : State,
     (∃ t, exec .resetAssert s = .next t ∧ t.resetHeld = true ∧ t.settings = Settings.reset ∧ t.stations = Stations.reset ∧
       t.engine = Engine.reset ∧ t.pending = s.pending ∧ t.seated = s.seated ∧ t.mounted = s.mounted) ∧
     (s.resetHeld = true →
       ∃ t, exec .resetRelease s = .next t ∧ t.resetHeld = false ∧ t.settings = Settings.reset ∧ t.stations = Stations.reset ∧
         t.pending = s.pending ∧ t.now = 0 ∧ t.seated = s.seated ∧ t.mounted = s.mounted ∧
         (∀ p : Fin 4, t.engine.cardPorts[p] = ⟨if s.seated[p] then .reading else .empty, none, none, false, false⟩) ∧
         (∀ p : Fin 4, t.engine.destPorts[p] = ⟨if s.mounted[p] then .identifying else .empty, none, [], .context 1⟩) ∧
         { t.engine with cardPorts := Engine.reset.cardPorts, destPorts := Engine.reset.destPorts } = Engine.reset)) ∧
  (∀ (c : Instr) (s : State), s.resetHeld = true → c ≠ .resetAssert → c ≠ .resetRelease →
     ∃ t, exec c s = .next t ∧ t.engine = s.engine ∧ t.settings = s.settings ∧ t.stations = s.stations ∧ t.resetHeld = true ∧
       t.now = s.now ∧ t.pending = s.pending)

/-- R201, R209: LINK_UP brings a DOWN port UP, LINK_LOST applies the link reset to an UP port, each is discarded otherwise, and neither
reaches the other ports, the settings or the blocks. (That the link reset keeps the mark of a last sent response is the model's
choice, notes/assumptions/25.md.) -/
def Obligations.LinkStateFollowsTheLinkLayer : Prop :=
  ∀ (p : StationPort) (s : State), s.resetHeld = false →
    let x := s.stations.get p
    (∃ t, exec (.linkUp p) s = .next t ∧ t.engine = s.engine ∧ t.settings = s.settings ∧ t.pending = s.pending ∧
      t.now = s.now ∧ t.seated = s.seated ∧ t.mounted = s.mounted ∧ t.resetHeld = false ∧
      (∀ q, q ≠ p → t.stations.get q = s.stations.get q) ∧ t.stations.get p = { x with up := true }.pump) ∧
    (∃ t, exec (.linkLost p) s = .next t ∧ t.engine = s.engine ∧ t.settings = s.settings ∧ t.pending = s.pending ∧
      t.now = s.now ∧ t.seated = s.seated ∧ t.mounted = s.mounted ∧ t.resetHeld = false ∧
      (∀ q, q ≠ p → t.stations.get q = s.stations.get q) ∧
      t.stations.get p =
        if x.up then
          { x with up := false, untaken := [], response := none, refusals := [], sending := none, notices := [], mask := 63,
                   missed := false, sequence := 0 }
        else x)

/-- R203: a request that arrives at an UP port is queued while fewer than 8 are outstanding, else its tag joins the refusal list
while that holds fewer than 8, else it is discarded; a DOWN port receives nothing. -/
def Obligations.ArrivingRequestIsQueuedOrRefused : Prop :=
  ∀ (o : Origin) (kind : Nat) (payload : List Byte) (s : State), s.resetHeld = false →
    let x := s.stations.get o.port
    let outstanding := x.untaken.length + (if x.response.isSome then 1 else 0)
    ∃ t, exec (.requestArrival o kind payload) s = .next t ∧ t.engine = s.engine ∧ t.settings = s.settings ∧
      t.pending = s.pending ∧ t.now = s.now ∧ t.seated = s.seated ∧ t.mounted = s.mounted ∧ t.resetHeld = false ∧
      (∀ q, q ≠ o.port → t.stations.get q = s.stations.get q) ∧
      t.stations.get o.port =
        (if x.up = false then x
         else if outstanding < 8 then { x with untaken := x.untaken ++ [⟨o.tag, kind, payload⟩] }
         else if x.refusals.length < 8 then { x with refusals := x.refusals ++ [(o.tag, kind)] }
         else x).pump

/-- R203, R204, R206, R208: when the last byte of a message has been sent, a refusal leaves its list, or a response leaves with its
request (a STATUS answer clearing the reset flag), or a notice leaves its queue and the sequence number rises by 1 modulo 256, the
missed flag it carried being cleared; and the port sends the next message it prefers. (That the flag is cleared also when
another notice has been lost while the one that carried it was being sent is log 53.) -/
def Obligations.SentMessageLeavesItsSource : Prop :=
  ∀ (p : StationPort) (s : State), s.resetHeld = false → (s.stations.get p).up = true →
    let x := s.stations.get p
    ∃ t, exec (.messageSent p) s = .next t ∧ t.engine = s.engine ∧ t.settings = s.settings ∧ t.pending = s.pending ∧
      t.now = s.now ∧ t.seated = s.seated ∧ t.mounted = s.mounted ∧ t.resetHeld = false ∧
      (∀ q, q ≠ p → t.stations.get q = s.stations.get q) ∧
      let y := t.stations.get p
      match x.sending with
      | some .refusal =>
        y.refusals = x.refusals.tail ∧ y.response = x.response ∧ y.notices = x.notices ∧ y.sequence = x.sequence ∧
          y.missed = x.missed ∧ y.resetFlag = x.resetFlag ∧ y.sentResponse = true ∧
          y.sending = (if x.refusals.tail ≠ [] then some .refusal
            else if x.notices ≠ [] then some (.notice x.missed)
            else if x.response.isSome then some .response
            else none)
      | some .response =>
        y.response = none ∧ y.refusals = x.refusals ∧ y.notices = x.notices ∧ y.sequence = x.sequence ∧ y.missed = x.missed ∧
          y.sentResponse = true ∧
          y.resetFlag = (match x.response with
            | some r => if r.kind = 1 ∧ r.status = .done then false else x.resetFlag
            | none => x.resetFlag) ∧
          y.sending = (if x.refusals ≠ [] then some .refusal else if x.notices ≠ [] then some (.notice x.missed) else none)
      | some (.notice carried) =>
        y.notices = x.notices.tail ∧ y.sequence.toNat = (x.sequence.toNat + 1) % 256 ∧ y.missed = (x.missed && !carried) ∧
          y.refusals = x.refusals ∧ y.response = x.response ∧ y.resetFlag = x.resetFlag ∧ y.sentResponse = false ∧
          y.sending = (if x.refusals ≠ [] then some .refusal
            else if x.response.isSome then some .response
            else if x.notices.tail ≠ [] then some (.notice y.missed)
            else none)
      | none => y = x.pump

/-- R201, R203, R204, R208: every step keeps each station port within its bounds: at most 8 outstanding requests, 8 refusals and 32
notices, a message under way that is there to be sent, and nothing of a request at a DOWN port. -/
def Obligations.StationPortsStayWithinBounds : Prop :=
  ∀ s t : State, s.stations.legal = true → step s = .next t → t.stations.legal = true

/-- R38, R75, R76, R106, R107, R113, R173, R175, R191, R192: every step keeps the settings in their ranges. -/
def Obligations.SettingsStayLegal : Prop :=
  ∀ s t : State, s.settings.legal = true → step s = .next t → t.settings.legal = true

/-- Reset meets the bounds that every step keeps. -/
def Obligations.ResetMeetsTheBounds : Prop :=
  State.reset.stations.legal = true ∧ State.reset.settings.legal = true ∧ State.reset.engine.faultsLegal = true ∧
    State.reset.engine.queueLegal = true ∧ State.reset.engine.rendersLegal = true ∧ State.reset.engine.requeuesLegal = true ∧
    State.reset.engine.cardsLegal = true ∧ State.reset.engine.clipsLegal = true ∧ State.reset.engine.volumesLegal = true ∧
    State.reset.engine.entriesUsed = true

/-- R202: a notice payload is 9 bytes, or 17 for the two render events, and begins with the sequence number and 128 plus the event kind;
a handle, a label and a range are read from the bytes that the part would write for them. -/
def Obligations.MessagesHaveTheirWireForm : Prop :=
  (∀ (sequence : BitVec 8) (missed : Bool) (ev : Event),
     (noticeBytes sequence missed ev).length = 4 + (if ev.render.isSome then 17 else 9) ∧
       (noticeBytes sequence missed ev).take 2 = [sequence, BitVec.ofNat 8 (128 + ev.kind.number)]) ∧
  ((∀ (h : Handle) (rest : List Byte), readHandle (wHandle h ++ rest) = some ((h.slot.val, h.gen.val), rest)) ∧
     (∀ (t : Timecode) (rest : List Byte), t.wf = true → readLabel (timecodeBytes t ++ rest) = some (t, rest)) ∧
     (∀ (r : Range) (rest : List Byte), r.wf = true → readRange (wRange r ++ rest) = some (r, rest)))

/-! ## Taking a request -/

/-- R205: the 35 kinds, and the ports whose role may issue each. A request of a kind outside 1..35 is answered BAD_ARGUMENT, and one of a kind
that its port's role may not issue NOT_PERMITTED; neither changes anything else. A request of a kind that the role may issue is answered
by its own rule, with its tag and kind, and NOT_PERMITTED only where that rule refuses a subject of another station: WRITE_LINK,
CLEAR_LINK and CANCEL_RENDER. -/
def Obligations.RoleIsCheckedFirst : Prop :=
  (∀ o : Origin,
    requestOf (.status o) = some (o, 1) ∧ (∀ a b, requestOf (.readClip o a b) = some (o, 2)) ∧
    (∀ a b, requestOf (.listClips o a b) = some (o, 3)) ∧ (∀ a, requestOf (.readCard o a) = some (o, 4)) ∧
    requestOf (.readVolumes o) = some (o, 5) ∧ (∀ a b, requestOf (.readFaults o a b) = some (o, 6)) ∧
    (∀ a, requestOf (.readLook o a) = some (o, 7)) ∧ requestOf (.readLinks o) = some (o, 8) ∧
    (∀ a, requestOf (.setNotices o a) = some (o, 9)) ∧ (∀ a b c d e f g, requestOf (.writeLink o a b c d e f g) = some (o, 10)) ∧
    (∀ a, requestOf (.clearLink o a) = some (o, 11)) ∧ (∀ a, requestOf (.ackFault o a) = some (o, 12)) ∧
    (∀ a b, requestOf (.startOffload o a b) = some (o, 13)) ∧ (∀ a, requestOf (.holdCard o a) = some (o, 14)) ∧
    (∀ a, requestOf (.resumeCard o a) = some (o, 15)) ∧ (∀ a, requestOf (.abortCard o a) = some (o, 16)) ∧
    (∀ a, requestOf (.releaseCard o a) = some (o, 17)) ∧ (∀ a b c, requestOf (.recopy o a b c) = some (o, 18)) ∧
    (∀ a b, requestOf (.retireClip o a b) = some (o, 19)) ∧ (∀ a, requestOf (.retireCard o a) = some (o, 20)) ∧
    (∀ a b c d, requestOf (.defineSet o a b c d) = some (o, 21)) ∧ (∀ a b c, requestOf (.setStall o a b c) = some (o, 22)) ∧
    (∀ a, requestOf (.writeLook o a) = some (o, 23)) ∧ (∀ a, requestOf (.clearLook o a) = some (o, 24)) ∧
    (∀ a b c d e f, requestOf (.writeBinding o a b c d e f) = some (o, 25)) ∧
    (∀ a b c, requestOf (.bindLook o a b c) = some (o, 26)) ∧ (∀ a b c d, requestOf (.queueRender o a b c d) = some (o, 27)) ∧
    requestOf (.resumeRenders o) = some (o, 28) ∧ (∀ a b c d e, requestOf (.cueMonitor o a b c d e) = some (o, 29)) ∧
    requestOf (.stopMonitor o) = some (o, 30) ∧ (∀ a b c d, requestOf (.setMonitor o a b c d) = some (o, 31)) ∧
    (∀ a, requestOf (.cancelRender o a) = some (o, 32)) ∧ (∀ a, requestOf (.waiveFault o a) = some (o, 33)) ∧
    (∀ a b, requestOf (.waiveOverflow o a b) = some (o, 34)) ∧ (∀ a, requestOf (.writeProfile o a) = some (o, 35))) ∧
  (∀ (c : Instr) (o : Origin) (kind : Nat) (s : State), requestOf c = some (o, kind) → s.accepts o = true →
    let issuers : List StationPort :=
      if kind ≤ 12 then [.A, .B, .C] else if kind ≤ 22 then [.A] else if kind ≤ 28 then [.B] else if kind ≤ 32 then [.B, .C] else [.C]
    (kind = 0 ∨ 35 < kind →
      ∃ t, exec c s = .next t ∧ s.onlyAnswered t o kind (.badArgument, []) ∧ t.settings = s.settings ∧ t.engine = s.blocks) ∧
    (1 ≤ kind ∧ kind ≤ 35 → o.port ∉ issuers →
      ∃ t, exec c s = .next t ∧ s.onlyAnswered t o kind (.notPermitted, []) ∧ t.settings = s.settings ∧ t.engine = s.blocks) ∧
    (1 ≤ kind ∧ kind ≤ 35 → o.port ∈ issuers →
      ∃ t r, exec c s = .next t ∧ (t.stations.get o.port).response = some r ∧ r.tag = o.tag ∧ r.kind = kind ∧
        (kind ≠ 10 → kind ≠ 11 → kind ≠ 32 → r.status ≠ .notPermitted)))

/-- R205: a request refused by any check changes no state. -/
def Obligations.RefusedRequestChangesNothing : Prop :=
  ∀ (c : Instr) (o : Origin) (kind : Nat) (s t : State) (r : Response), requestOf c = some (o, kind) → s.accepts o = true →
    exec c s = .next t → (t.stations.get o.port).response = some r → r.status ≠ .done →
    t.settings = s.settings ∧ t.engine = s.blocks ∧ s.onlyAnswered t o kind (r.status, r.results)

/-- R203, R205: the request at the head of a port's queue is taken once its payload is read, and the rest of the queue stays; a payload
whose length does not match the arguments is answered BAD_ARGUMENT. Said for READ_CLIP, which every port may issue. (How a command
stands for the request at the head is log 4, the bytes of the answer log 7.) -/
def Obligations.QueuedReadClipIsTakenFromTheHead : Prop :=
  ∀ (s : State) (o : Origin) (payload : List Byte) (rest : List Request) (slot generation : Nat),
    s.canTake o.port = true → (s.stations.get o.port).untaken = ⟨o.tag, 2, payload⟩ :: rest →
    (payload = w16 slot ++ w8 generation → slot < 65536 → generation < 256 →
      ∃ t, exec (.readClip o slot generation) s = .next t ∧
        t.stations = (s.withAnswer o 2 rest (answerWith (wClip s.engine) (s.engine.checkClip slot generation))).each Station.pump ∧
        t.settings = s.settings ∧ t.engine = s.blocks ∧ t.pending = s.pending) ∧
    (payload.length ≠ 3 →
      ∃ t, exec (.readClip o slot generation) s = .next t ∧
        t.stations = (s.withAnswer o 2 rest (.badArgument, [])).each Station.pump ∧ t.settings = s.settings ∧
        t.engine = s.blocks ∧ t.pending = s.pending)

/-- R206, R207, R208: STATUS is answered DONE with the part as it stands when the request is taken, itself outstanding, and changes
nothing; SET_NOTICES replaces the mask of the port and answers DONE, and a mask with bit 7 or 6 set is answered BAD_ARGUMENT. Each event
of a step whose notice class the mask of a port enables joins the tail of its notice queue while that holds fewer than 32; one that finds
no room sets the missed flag. (The bytes of the STATUS answer are log 8, and the sign of the offsets
of a cut picture in them log 54.) -/
def Obligations.StatusReadsAndSetNoticesReplacesTheMask : Prop :=
  (∀ (o : Origin) (s : State), s.accepts o = true →
     ∃ t, exec (.status o) s = .next t ∧ s.onlyAnswered t o 1 (.done, wStatus s o.port 1) ∧
       t.settings = s.settings ∧ t.engine = s.blocks) ∧
  (∀ (o : Origin) (mask : Nat) (s : State), s.accepts o = true → mask < 256 →
     (mask < 64 →
       ∃ t, exec (.setNotices o mask) s = .next t ∧
         { s with stations := s.stations.set o.port { s.stations.get o.port with mask := BitVec.ofNat 6 mask } }.onlyAnswered t o 9
           (.done, []) ∧ t.settings = s.settings ∧ t.engine = s.blocks) ∧
     (64 ≤ mask →
       ∃ t, exec (.setNotices o mask) s = .next t ∧ s.onlyAnswered t o 9 (.badArgument, []) ∧ t.settings = s.settings ∧
         t.engine = s.blocks)) ∧
  (∀ (ss : Stations) (events : List Event) (p : StationPort),
     let x := ss.get p
     let classOf (k : EventKind) : Nat :=
       if k.number ≤ 4 then 0 else if k.number ≤ 10 then 1 else if k.number = 11 then 2 else if k.number ≤ 14 then 3
       else if k.number = 15 then 4 else 5
     let enabled := events.filter (fun ev => x.mask.getLsbD (classOf ev.kind))
     let room := 32 - x.notices.length
     (ss.notify events).get p =
       { x with notices := x.notices ++ enabled.take room, missed := x.missed || decide (room < enabled.length) })

/-- R22, R23, R74, R110, R188, R193: the read requests answer DONE with the records as they stand, and change nothing, but that
READ_FAULTS clears the dropped flag. LIST_CLIPS of a start slot above 511 or a count outside 1..16 is answered BAD_ARGUMENT; any other
is answered with the records of the occupied slots among the slots examined upward from the start slot, wrapping from 511 to 0, up to
the `count`-th record or all 512 slots, whichever comes first; the continuation slot follows the last slot examined, and the flag says
that all 512 were. (The bytes of the answers are log 7, and the place in the wait list log 37.) -/
def Obligations.ReadsAnswerTheRecordsAsTheyStand : Prop :=
  ∀ (o : Origin) (s : State), s.accepts o = true →
    (∀ (h : Handle) (c : Clip), s.engine.clipAt h = some c →
      ∃ t, exec (.readClip o h.slot h.gen) s = .next t ∧ s.onlyAnswered t o 2 (.done, wClip s.engine c) ∧
        t.settings = s.settings ∧ t.engine = s.blocks) ∧
    (∀ (c : Fin 32) (r : CardRecord), s.engine.cards[c] = some r →
      ∃ t, exec (.readCard o c) s = .next t ∧ s.onlyAnswered t o 4 (.done, wCard s.engine c r) ∧
        t.settings = s.settings ∧ t.engine = s.blocks) ∧
    (∃ t, exec (.readVolumes o) s = .next t ∧ s.onlyAnswered t o 5 (.done, wVolumes s.settings s.engine) ∧
      t.settings = s.settings ∧ t.engine = s.blocks) ∧
    (∀ start count : Nat, start ≤ 255 → 1 ≤ count → count ≤ 16 →
      ∃ t, exec (.readFaults o start count) s = .next t ∧
        s.onlyAnswered t o 6 (.done, wFaults s.settings s.engine start count) ∧ t.settings = s.settings ∧
        t.engine = { s.blocks with dropped := false }) ∧
    (∀ i : Fin 32,
      ∃ t, exec (.readLook o i) s = .next t ∧ s.onlyAnswered t o 7 (.done, wLook s.settings.looks[i]) ∧
        t.settings = s.settings ∧ t.engine = s.blocks) ∧
    (∃ t, exec (.readLook o 255) s = .next t ∧ s.onlyAnswered t o 7 (.done, wAll wRule s.settings.rules.toList) ∧
      t.settings = s.settings ∧ t.engine = s.blocks) ∧
    (∃ t, exec (.readLinks o) s = .next t ∧ s.onlyAnswered t o 8 (.done, wLinks s.settings s.engine) ∧
      t.settings = s.settings ∧ t.engine = s.blocks) ∧
    (∀ start count : Nat,
      ((511 < start ∨ count = 0 ∨ 16 < count) →
        ∃ t, exec (.listClips o start count) s = .next t ∧ s.onlyAnswered t o 3 (.badArgument, []) ∧ t.settings = s.settings ∧
          t.engine = s.blocks) ∧
      (start < 512 → 1 ≤ count → count ≤ 16 →
        ∃ (n : Nat) (t : State) (found : List Clip),
          exec (.listClips o start count) s = .next t ∧ t.settings = s.settings ∧ t.engine = s.blocks ∧
          found = (List.range n).filterMap (fun k => (s.engine.clips.toList.getD ((start + k) % 512) ⟨0, none⟩).clip) ∧
          1 ≤ n ∧ n ≤ 512 ∧ found.length ≤ count ∧ (found.length < count → n = 512) ∧
          (found.length = count → (s.engine.clips.toList.getD ((start + (n - 1)) % 512) ⟨0, none⟩).clip.isSome = true) ∧
          s.onlyAnswered t o 3
            (.done, w8 found.length ++ (found.map (wSummary s.engine)).flatten ++ w16 ((start + n) % 512) ++
              w8 (if n = 512 then 1 else 0))))

/-! ## The queues and the records of the blocks -/

/-- R79, R82, R83, R127, R134, R177, R178, R180, R198: every step keeps the fault list legal, the copy queue in agreement with the lanes,
the render queue in agreement with the contexts, and the pending requeue list short and without duplicates. -/
def Obligations.EveryStepKeepsTheQueuesLegal : Prop :=
  ∀ s t : State, step s = .next t →
    (s.engine.faultsLegal = true → t.engine.faultsLegal = true) ∧ (s.engine.queueLegal = true → t.engine.queueLegal = true) ∧
      (s.engine.rendersLegal = true → t.engine.rendersLegal = true) ∧
      (s.engine.requeuesLegal = true → t.engine.requeuesLegal = true)

/-! ## Settings -/

/-- R192, R193: WRITE_LINK at a free entry, or at one that the port wrote, replaces the whole entry, with the severity kept for
FAULT_RAISED only and the parameter for QUEUE_RENDER only; CLEAR_LINK frees an entry that is free or that the port wrote; an entry of
another writer is refused with NOT_PERMITTED, and a CLEAR_LINK of an entry above 15 with BAD_ARGUMENT. -/
def Obligations.LinkRequestsReplaceAndFreeEntries : Prop :=
  (∀ (o : Origin) (i : Fin 16) (k : EventKind) (camera : Option Byte) (v : Severity) (a : LinkAction) (parameter : Nat)
     (enabled : Bool) (s : State), s.accepts o = true → cameraLegal camera = true → actionAllowed a k = true →
     (a = .queueRender → parameter ≤ 3) →
     let c : Instr := .writeLink o i k.number ((camera.map BitVec.toNat).getD 255) v.rank a.number parameter enabled
     ((∀ x, s.settings.links[i] = some x → x.writer = o.port) →
       ∃ t x, exec c s = .next t ∧ s.onlyAnswered t o 10 (.done, []) ∧ t.engine = s.blocks ∧
         t.settings = { s.settings with links := s.settings.links.set i (some x) } ∧ x.kind = k ∧ x.camera = camera ∧
         x.severity = (if k = .faultRaised then v else .note) ∧ x.action = a ∧
         x.parameter.val = (if a = .queueRender then parameter else 0) ∧ x.enabled = enabled ∧ x.writer = o.port) ∧
     (∀ x, s.settings.links[i] = some x → x.writer ≠ o.port →
       ∃ t, exec c s = .next t ∧ s.onlyAnswered t o 10 (.notPermitted, []) ∧ t.engine = s.blocks ∧ t.settings = s.settings)) ∧
  (∀ (o : Origin) (s : State), s.accepts o = true →
     (∀ i : Fin 16, (∀ x, s.settings.links[i] = some x → x.writer = o.port) →
       ∃ t, exec (.clearLink o i) s = .next t ∧ s.onlyAnswered t o 11 (.done, []) ∧ t.engine = s.blocks ∧
         t.settings = { s.settings with links := s.settings.links.set i none }) ∧
     (∀ (i : Fin 16) (x : LinkEntry), s.settings.links[i] = some x → x.writer ≠ o.port →
       ∃ t, exec (.clearLink o i) s = .next t ∧ s.onlyAnswered t o 11 (.notPermitted, []) ∧ t.engine = s.blocks ∧
         t.settings = s.settings) ∧
     (∀ entry : Nat, 15 < entry →
       ∃ t, exec (.clearLink o entry) s = .next t ∧ s.onlyAnswered t o 11 (.badArgument, []) ∧ t.engine = s.blocks ∧
         t.settings = s.settings))

/-- R38, R76: DEFINE_SET replaces the three fields of a set together; a port mask of 0 empties it; copies outside 1..4 or above the ports
of the mask are refused. SET_STALL clamps the period index to 7 and the retry count to 3, stores both for the port and answers them; a
read under way keeps the period it was sent with. -/
def Obligations.OffloadSettingsAreStored : Prop :=
  (∀ (o : Origin) (i : Fin 4) (mask : BitVec 4) (copies : Nat) (m : VerifyMode) (s : State), s.accepts o = true → o.port = .A →
     let c : Instr := .defineSet o i mask.toNat copies m.number
     let ports := (if mask.getLsbD 0 then 1 else 0) + (if mask.getLsbD 1 then 1 else 0) + (if mask.getLsbD 2 then 1 else 0) +
       (if mask.getLsbD 3 then 1 else 0)
     (mask = 0 →
       ∃ t, exec c s = .next t ∧ s.onlyAnswered t o 21 (.done, []) ∧ t.engine = s.blocks ∧
         t.settings = { s.settings with sets := s.settings.sets.set i ⟨0, 1, .readback⟩ }) ∧
     (mask ≠ 0 → 1 ≤ copies → copies ≤ 4 → copies ≤ ports →
       ∃ t, exec c s = .next t ∧ s.onlyAnswered t o 21 (.done, []) ∧ t.engine = s.blocks ∧
         t.settings = { s.settings with sets := s.settings.sets.set i ⟨mask, copies, m⟩ }) ∧
     (mask ≠ 0 → (copies = 0 ∨ 4 < copies ∨ ports < copies) →
       ∃ t, exec c s = .next t ∧ s.onlyAnswered t o 21 (.badArgument, []) ∧ t.engine = s.blocks ∧ t.settings = s.settings)) ∧
  (∀ (o : Origin) (port period retries : Nat) (s : State), s.accepts o = true → o.port = .A →
     (∀ h : port < 4,
       ∃ t x, exec (.setStall o port period retries) s = .next t ∧ t.engine = s.blocks ∧
         t.settings = { s.settings with stall := s.settings.stall.set port x } ∧ x.period.val = min period 7 ∧
         x.retries.val = min retries 3 ∧
         s.onlyAnswered t o 22 (.done, [BitVec.ofNat 8 (min period 7), BitVec.ofNat 8 (min retries 3)])) ∧
     (4 ≤ port →
       ∃ t, exec (.setStall o port period retries) s = .next t ∧ s.onlyAnswered t o 22 (.badArgument, []) ∧ t.engine = s.blocks ∧
         t.settings = s.settings))

/-- R107, R108, R109, R117: WRITE_LOOK replaces the slot under the version after its last version, 1 after 65535, and answers it; with a
silent matrix, the clips CURRENT on the slot become STALE and every other clip keeps. CLEAR_LOOK gives a non-empty slot version 0 and
no look and keeps its last version, and makes the clips CURRENT on it STALE likewise; an empty slot stays as it is. (Which notice of a port
carries the missed flag when the notices of the step overflow its queue is log 64.) -/
def Obligations.LookWritesTakeNewVersions : Prop :=
  (∀ (o : Origin) (i : Fin 32) (a : LookArgs) (range : OutputRange) (s : State), s.accepts o = true → o.port = .B →
     a.slot = i.val → a.range = range.number → lookNameValid a.name = true → a.black ≤ 1023 →
     ∃ t x, exec (.writeLook o a) s = .next t ∧
       { s with settings := { s.settings with looks := s.settings.looks.set i x } }.answeredWith t o 23 (.done, w16 x.version) ∧
       x.version = (if (s.settings.looks[i]).lastVersion < 65535 then (s.settings.looks[i]).lastVersion + 1 else 1) ∧
       x.lastVersion = x.version ∧ x.look = some (a.name, ⟨a.black, a.matrix, a.slope, a.offset, a.shaper, range⟩) ∧
       (s.settings.silent = true →
         t.engine = { s.blocks with clips := t.engine.clips, events := t.engine.events } ∧
         (s.engine.clipsWellPlaced = true → ∀ j : Fin 512,
           t.engine.clips[j] = ⟨(s.engine.clips[j]).gen, (s.engine.clips[j]).clip.map (fun c =>
             if c.renderState = .current ∧ c.rendered.map (·.1) = some i then { c with renderState := .stale } else c)⟩))) ∧
  (∀ (o : Origin) (i : Fin 32) (s : State), s.accepts o = true → o.port = .B →
     ((s.settings.looks[i]).version ≠ 0 →
       ∃ t x, exec (.clearLook o i) s = .next t ∧
         { s with settings := { s.settings with looks := s.settings.looks.set i x } }.answeredWith t o 24 (.done, []) ∧
         x = ⟨0, (s.settings.looks[i]).lastVersion, none⟩ ∧
         (s.settings.silent = true →
           t.engine = { s.blocks with clips := t.engine.clips, events := t.engine.events } ∧
           (s.engine.clipsWellPlaced = true → ∀ j : Fin 512,
             t.engine.clips[j] = ⟨(s.engine.clips[j]).gen, (s.engine.clips[j]).clip.map (fun c =>
               if c.renderState = .current ∧ c.rendered.map (·.1) = some i then { c with renderState := .stale } else c)⟩))) ∧
     ((s.settings.looks[i]).version = 0 →
       ∃ t, exec (.clearLook o i) s = .next t ∧ s.onlyAnswered t o 24 (.done, []) ∧ t.settings = s.settings ∧ t.engine = s.blocks))

/-- R55, R114, R115, R116, R117: WRITE_BINDING replaces the five fields of a rule entry together and rebinds no clip; a reel outside 1..999 or a low
reel above the high one is refused. BIND_LOOK binds the clip explicitly to a slot or to none; with a silent matrix nothing else of the
blocks changes, but that a clip CURRENT on another slot, or now unbound, becomes STALE. A header outcome VALID replaces the clip's header; where the
clip had none and is not bound explicitly, the first rule that matches its camera and reel binds it, and a clip CURRENT on another slot
becomes STALE with CLIP_STALE. The outcome INVALID raises BAD_HEADER with its cause, and takes the header away. -/
def Obligations.BindingRulesAreWrittenAndClipsBound : Prop :=
  (∀ (o : Origin) (i : Fin 16) (camera : Option Byte) (low high : Nat) (look : Fin 32) (enabled : Bool) (s : State),
     s.accepts o = true → o.port = .B → cameraLegal camera = true →
     let c : Instr := .writeBinding o i ((camera.map BitVec.toNat).getD 255) low high look enabled
     (1 ≤ low → low ≤ high → high ≤ 999 →
       ∃ t, exec c s = .next t ∧ s.onlyAnswered t o 25 (.done, []) ∧ t.engine = s.blocks ∧
         t.settings = { s.settings with rules := s.settings.rules.set i ⟨camera, low, high, look, enabled⟩ }) ∧
     (low = 0 ∨ high < low ∨ 999 < high →
       ∃ t, exec c s = .next t ∧ s.onlyAnswered t o 25 (.badArgument, []) ∧ t.engine = s.blocks ∧ t.settings = s.settings)) ∧
  (∀ (o : Origin) (h : Handle) (c : Clip) (look : Option (Fin 32)) (s : State), s.accepts o = true → o.port = .B →
     s.engine.clipAt h = some c → c.handle = h →
     ∃ t, exec (.bindLook o h.slot h.gen ((look.map Fin.val).getD 255)) s = .next t ∧ s.answeredWith t o 26 (.done, []) ∧
       (s.settings.silent = true →
         t.engine = { s.blocks with
           clips := s.engine.clips.set h.slot ⟨h.gen, some { c with
             binding := ⟨look, some .explicit⟩
             renderState :=
               if c.renderState = .current ∧ (look = none ∨ look ≠ c.rendered.map (·.1)) then .stale else c.renderState }⟩
           events := t.engine.events })) ∧
  (∀ (g : Settings) (l : Fin 2) (card : Fin 32) (e : Engine) (h : Handle) (c : Clip), e.clipAt h = some c →
     (∀ x : Header,
       let put (y : Clip) : Engine := { e with clips := e.clips.set h.slot ⟨h.gen, some y⟩ }
       let read : Clip := { c with header := some x }
       let found := g.rules.toList.find? (fun r => r.enabled && (decide (r.camera = none) || decide (r.camera = some x.camera)) &&
         decide (r.reelLow ≤ x.reel) && decide (x.reel ≤ r.reelHigh))
       let t := Engine.parseOut g l h card e (.headerValid x)
       (c.header ≠ none ∨ c.binding.origin = some .explicit ∨ found = none → t = put read) ∧
       (∀ r, c.header = none → c.binding.origin ≠ some .explicit → found = some r →
         let bound : Clip := { read with binding := ⟨some r.look, some .rule⟩ }
         t = if c.renderState = .current ∧ c.rendered.map (·.1) ≠ some r.look then
             { put { bound with renderState := .stale } with events := e.events ++ [Event.ofClip .clipStale c.card h] }
           else put bound)) ∧
     (∀ cause : Nat,
       let raised := e.raiseFault g ⟨.badHeader, h, card, none, none, none, none, some (cause : Int)⟩
       ∃ y, raised.clipAt h = some y ∧ y.binding = c.binding ∧ y.renderState = c.renderState ∧
         Engine.parseOut g l h card e (.headerInvalid cause) =
           { raised with clips := raised.clips.set h.slot ⟨h.gen, some { y with header := none }⟩ }))

/-- R174: WRITE_PROFILE is taken from the REVIEW station alone and not refused for its values: each setting is clamped to its range, each
adjustable severity to the nearest its kind can have, the fixed ones stay, and the profile as taken is answered. (That a severity byte
above 2 is not refused is log 9, and the bytes of the answered profile are log 7.) -/
def Obligations.WriteProfileClampsEverySetting : Prop :=
  ∀ (o : Origin) (a : ProfileArgs) (s : State), s.accepts o = true →
    (o.port ≠ .C →
      ∃ t, exec (.writeProfile o a) s = .next t ∧ s.onlyAnswered t o 35 (.notPermitted, []) ∧ t.settings = s.settings ∧
        t.engine = s.blocks) ∧
    (o.port = .C → s.settings.profile.legal = true →
     ∃ t p, exec (.writeProfile o a) s = .next t ∧ t.settings = { s.settings with profile := p } ∧ t.engine = s.blocks ∧
       s.onlyAnswered t o 35 (.done, wProfile p) ∧ p.legal = true ∧ p.stride = max 1 (min 1024 a.stride) ∧
       p.clipThreshold = max 1 (min 4095 a.clipThreshold) ∧ p.clipLimit = min 65535 a.clipLimit ∧
       p.blackLimit = min 4095 a.blackLimit ∧ p.blackRun = max 1 (min 255 a.blackRun) ∧
       p.frozenRun = max 2 (min 255 a.frozenRun) ∧ p.gradeClampLimit = min 65535 a.gradeClampLimit ∧
       (∀ k : Fin 12, ∀ v : Severity, a.severities[k] = v.rank →
         ∀ low high : Severity, (low, high) = adjustableSet k →
           p.severities[(⟨k.val + 3, by omega⟩ : Fin 16)] =
             (if v.rank < low.rank then low else if high.rank < v.rank then high else v)) ∧
       p.severities[0] = s.settings.profile.severities[0] ∧ p.severities[1] = s.settings.profile.severities[1] ∧
       p.severities[2] = s.settings.profile.severities[2] ∧ p.severities[15] = s.settings.profile.severities[15])

/-- R147, R149, R150: SET_MONITOR replaces the three settings together and answers them as taken, a decimation other than 1, 2 and 4
taken as AUTO; a fixed rate becomes the monitor rate with the drop-frame flag clear; EXTERNAL starts the checker UNLOCKED with
count 0 and no pulses; INTERNAL turns it OFF. Settings given with their present values change nothing of the clock. (That the request
carries a time, and that the next state's `State.now` is the later of now and that time, is the model's choice, log 2: R150 gives
SET_MONITOR no time, and the spec names no such state.) -/
def Obligations.SetMonitorReplacesTheSettings : Prop :=
  ∀ (o : Origin) (rate : Option (Fin 9)) (decimation : Nat) (reference : Reference) (time : Nat) (s : State),
    s.accepts o = true → o.port ≠ .A → decimation < 256 →
    let old := s.settings.monitor
    let m := s.engine.monitor
    let d : Decimation := if decimation = 1 then .one else if decimation = 2 then .two else if decimation = 4 then .four else .auto
    ∃ t, exec (.setMonitor o ((rate.map Fin.val).getD 255) decimation reference.number time) s = .next t ∧
      { s with now := max s.now time, settings := { s.settings with monitor := ⟨rate, d, reference⟩ } }.answeredWith t o 31
        (.done, [BitVec.ofNat 8 ((rate.map Fin.val).getD 255),
        BitVec.ofNat 8 (if decimation = 1 ∨ decimation = 2 ∨ decimation = 4 then decimation else 255),
        BitVec.ofNat 8 reference.number]) ∧
      t.engine = { s.blocks with monitor := t.engine.monitor } ∧
      (∀ r, rate = some r → old.rate ≠ rate → t.engine.monitor.rate = r ∧ t.engine.monitor.drop = false ∧
        (reference = old.reference →
          t.engine.monitor.inWindow = (if m.rate = r ∧ m.drop = false then m.inWindow else 0))) ∧
      (old.reference = .internal → reference = .external →
        t.engine.monitor.checker = .unlocked ∧ t.engine.monitor.inWindow = 0 ∧ t.engine.monitor.prevPulse = none ∧
          t.engine.monitor.lastGood = none ∧ t.engine.monitor.nextSync = m.nextSync) ∧
      (old.reference = .external → reference = .internal →
        t.engine.monitor.checker = .off ∧ (m.checker ≠ .locked → t.engine.monitor.nextSync = m.nextSync)) ∧
      (rate = old.rate → reference = old.reference → t.engine.monitor = m)

/-! ## The fault requests -/

/-- R183, R184: ACK_FAULT of an OPEN record makes it ACKNOWLEDGED; of an ACKNOWLEDGED one nothing changes; a WAIVED or CLEARED one is
refused with WRONG_STATE, number 0 with BAD_ARGUMENT and a number that no record holds with NOT_FOUND. WAIVE_FAULT of an OPEN or
ACKNOWLEDGED record makes it WAIVED; of a WAIVED one nothing changes; a CLEARED one is refused with WRONG_STATE. -/
def Obligations.FaultRequestsActOnUnresolvedRecords : Prop :=
  (∀ (o : Origin) (s : State), s.accepts o = true → s.engine.faultsLegal = true →
     (∀ r ∈ s.engine.faults,
       (r.state = .isOpen →
         ∃ t, exec (.ackFault o r.number) s = .next t ∧ s.onlyAnswered t o 12 (.done, []) ∧ t.settings = s.settings ∧
           t.engine = { s.blocks with faults := s.engine.faults.map (fun x =>
             if x.number = r.number then { x with state := .acknowledged } else x) }) ∧
       (r.state = .acknowledged →
         ∃ t, exec (.ackFault o r.number) s = .next t ∧ s.onlyAnswered t o 12 (.done, []) ∧ t.settings = s.settings ∧
           t.engine = s.blocks) ∧
       (r.state = .waived ∨ r.state = .cleared →
         ∃ t, exec (.ackFault o r.number) s = .next t ∧ s.onlyAnswered t o 12 (.wrongState, []) ∧ t.settings = s.settings ∧
           t.engine = s.blocks)) ∧
     (∃ t, exec (.ackFault o 0) s = .next t ∧ s.onlyAnswered t o 12 (.badArgument, []) ∧ t.settings = s.settings ∧
       t.engine = s.blocks) ∧
     (∀ n, n ≠ 0 → (∀ r ∈ s.engine.faults, r.number ≠ n) →
       ∃ t, exec (.ackFault o n) s = .next t ∧ s.onlyAnswered t o 12 (.notFound, []) ∧ t.settings = s.settings ∧
         t.engine = s.blocks)) ∧
  (∀ (o : Origin) (s : State), s.accepts o = true → o.port = .C → s.engine.faultsLegal = true →
     ∀ r ∈ s.engine.faults,
       (r.unresolved = true →
         ∃ t, exec (.waiveFault o r.number) s = .next t ∧ s.onlyAnswered t o 33 (.done, []) ∧ t.settings = s.settings ∧
           t.engine = { s.blocks with faults := s.engine.faults.map (fun x =>
             if x.number = r.number then { x with state := .waived } else x) }) ∧
       (r.state = .waived →
         ∃ t, exec (.waiveFault o r.number) s = .next t ∧ s.onlyAnswered t o 33 (.done, []) ∧ t.settings = s.settings ∧
           t.engine = s.blocks) ∧
       (r.state = .cleared →
         ∃ t, exec (.waiveFault o r.number) s = .next t ∧ s.onlyAnswered t o 33 (.wrongState, []) ∧ t.settings = s.settings ∧
           t.engine = s.blocks))

/-- R185: WAIVE_OVERFLOW is taken from the REVIEW station alone: the clip's block-overflow flag is cleared, whether or not it was set,
and a BLOCK fault of the clip that is dropped afterwards sets it again; a handle that is not current is refused as R5 gives. -/
def Obligations.WaiveOverflowClearsTheFlag : Prop :=
  ∀ (o : Origin) (slot generation : Nat) (s : State), s.accepts o = true →
    (o.port ≠ .C →
      ∃ t, exec (.waiveOverflow o slot generation) s = .next t ∧ s.onlyAnswered t o 34 (.notPermitted, []) ∧
        t.settings = s.settings ∧ t.engine = s.blocks) ∧
    (o.port = .C → (511 < slot ∨ 127 < generation) →
      ∃ t, exec (.waiveOverflow o slot generation) s = .next t ∧ s.onlyAnswered t o 34 (.badArgument, []) ∧
        t.settings = s.settings ∧ t.engine = s.blocks) ∧
    (∀ h : Handle, o.port = .C → slot = h.slot → generation = h.gen → s.engine.clipAt h = none →
      ∃ t, exec (.waiveOverflow o slot generation) s = .next t ∧ s.onlyAnswered t o 34 (.notFound, []) ∧
        t.settings = s.settings ∧ t.engine = s.blocks) ∧
    (∀ (h : Handle) (c : Clip), o.port = .C → slot = h.slot → generation = h.gen → s.engine.clipAt h = some c → c.handle = h →
      ∃ t, exec (.waiveOverflow o slot generation) s = .next t ∧ s.onlyAnswered t o 34 (.done, []) ∧
        t.settings = s.settings ∧
        t.engine = { s.blocks with clips := s.engine.clips.set h.slot ⟨h.gen, some { c with blockOverflow := false }⟩ } ∧
        ∀ (f : FaultInput) (g : Settings), f.clip = h → t.engine.unresolvedWithKey f = none →
          t.engine.arrivingSeverity g f.kind f.card = .block → t.engine.faults.length = 256 →
          evictionCandidate t.engine.faults .block = none →
          (((t.engine.raiseFault g f).clipAt h).map (·.blockOverflow)) = some true ∧
            (t.engine.raiseFault g f).faults = t.engine.faults)

/-! ## Offload, release and retire -/

/-- R81, R94, R97, R98: HOLD_CARD and RESUME_CARD set and clear the hold flags of a card, are answered DONE, and its waiting
descriptors are HELD or QUEUED accordingly; in any other state they are refused with WRONG_STATE. (With no lane IDLE, no render job
and a silent matrix nothing else moves.) -/
def Obligations.HoldAndResumeSetTheHoldFlags : Prop :=
  ∀ (o : Origin) (c : Fin 32) (r : CardRecord) (s : State), s.accepts o = true → o.port = .A → s.engine.cards[c] = some r →
    ((r.state = .offloading ∨ r.state = .held) →
      ∃ t, exec (.holdCard o c) s = .next t ∧ s.answeredWith t o 14 (.done, []) ∧
        (s.settings.silent = true →
          t.engine = { s.blocks with cards := t.engine.cards, cardPorts := t.engine.cardPorts, queue := t.engine.queue,
                                     events := t.engine.events } ∧
          t.engine.queue = s.engine.queue.map (fun d =>
            if d.card = c ∧ d.state ≠ .running then { d with state := if d.kind = .manifest then .queued else .held } else d) ∧
          (∀ c', c' ≠ c → t.engine.cards[c'] = s.engine.cards[c']) ∧
          ((∃ d ∈ s.engine.queue, d.worksFor c = true) →
            t.engine.cards[c] = some { r with heldByRequest := true, state :=
              if ∃ d ∈ s.engine.queue, d.worksFor c = true ∧ d.state = .running then .offloading else .held }))) ∧
    (r.state ≠ .offloading → r.state ≠ .held →
      ∃ t, exec (.holdCard o c) s = .next t ∧ s.onlyAnswered t o 14 (.wrongState, []) ∧ t.settings = s.settings ∧
        t.engine = s.blocks) ∧
    (r.state.workable = true →
      ∃ t, exec (.resumeCard o c) s = .next t ∧ s.answeredWith t o 15 (.done, []) ∧
        (s.settings.silent = true → s.engine.lanesTaken = true → s.engine.renderIdle = true →
          t.engine = { s.blocks with cards := t.engine.cards, cardPorts := t.engine.cardPorts, queue := t.engine.queue,
                                     events := t.engine.events } ∧
          t.engine.queue = s.engine.queue.map (fun d =>
            if d.card = c ∧ d.state ≠ .running then
              { d with state := if r.heldByAbsence = true ∧ d.kind = .copy ∧ d.source = some .card then .held else .queued }
            else d) ∧
          (∀ c', c' ≠ c → t.engine.cards[c'] = s.engine.cards[c']) ∧
          (∃ x, t.engine.cards[c] = some { r with heldByRequest := false, heldByStall := false, state := x }) ∧
          (∀ p : Fin 4, (t.engine.cardPorts[p]).state =
            if r.heldByStall = true ∧ r.attached = some p ∧ (s.engine.cardPorts[p]).state = .stalled then .attached
            else (s.engine.cardPorts[p]).state))) ∧
    (r.state.workable = false →
      ∃ t, exec (.resumeCard o c) s = .next t ∧ s.onlyAnswered t o 15 (.wrongState, []) ∧ t.settings = s.settings ∧
        t.engine = s.blocks)

/-- R99: ABORT_CARD is answered DONE, removes the card's QUEUED and HELD COPY and VERIFY descriptors, makes the records of the
removed COPYs FAILED, and marks its RUNNING COPYs. (With no lane IDLE, no render job, no requeue waiting and a silent matrix nothing
else is removed. Which notice of a port carries the missed flag when the notices of the step overflow its queue is log 64.) -/
def Obligations.AbortRemovesTheWaitingWork : Prop :=
  ∀ (o : Origin) (c : Fin 32) (r : CardRecord) (s : State), s.accepts o = true → o.port = .A → s.engine.cards[c] = some r →
    r.state.workable = true →
    ∃ t, exec (.abortCard o c) s = .next t ∧ s.answeredWith t o 16 (.done, []) ∧
      (s.settings.silent = true → s.engine.lanesTaken = true → s.engine.renderIdle = true → s.engine.requeues = [] →
        (s.engine.queue.map (·.slot)).Nodup →
        t.engine.queue.map (·.slot) =
          (s.engine.queue.filter (fun d => !(d.worksFor c && decide (d.state ≠ .running)))).map (·.slot) ∧
        (∀ d ∈ s.engine.queue, d.worksFor c = true → d.state ≠ .running → d.kind = .copy → ∀ (h : Handle) (x : Clip),
          d.clip = some h → s.engine.clipAt h = some x → ∀ v ∈ d.targets, ∀ y, x.copyOn v = some y →
          ((t.engine.clipAt h).bind (·.copyOn v)) = some { y with state := .failed }) ∧
        (∀ (l : Fin 2) (run : LaneRun) (d : Descriptor), s.engine.laneRun l = some run → s.engine.descriptor run.slot = some d →
          d.state = .running → d.kind = .copy → d.card = c → t.engine.laneRun l = some { run with abortMark := true }) ∧
        (∀ h, s.engine.clipAt h = none ↔ t.engine.clipAt h = none) ∧ t.engine.faults = s.engine.faults ∧
        t.engine.volumes = s.engine.volumes ∧ t.engine.destPorts = s.engine.destPorts)

/-- R95, R96: START_OFFLOAD of an attached READY or OFFLOADED card, with as many available volumes as the set asks for and a
descriptor slot for each COPY, is answered DONE with the descriptors queued and the volumes chosen, and the card takes the set as its
snapshot; a first offload queues one COPY of every clip, in take order, to every available volume. A top-up queues, in take order, one
COPY of each clip that is short under the set and has a target: its targets are available volumes with no secured copy of it, all those
without a record of it or with one that can be reset when there is room for the new ones among its six records. (Which record a seventh
volume replaces is log 38, the volumes that a top-up answers are log 41, and which notice carries the missed flag when the notices of the
step overflow a port's queue is log 64.) -/
def Obligations.StartOffloadQueuesTheCopies : Prop :=
  ∀ (o : Origin) (c : Fin 32) (i : Fin 4) (r : CardRecord) (s : State), s.accepts o = true → o.port = .A →
    s.engine.cards[c] = some r → (r.state = .ready ∨ r.state = .offloaded) → r.attached.isSome = true →
    let set := s.settings.sets[i]
    let volumes := (List.finRange 4).filterMap (fun p : Fin 4 =>
      if set.mask.getLsbD p.val then
        (s.engine.entryAt p).filter (fun v => decide ((s.engine.volumes[v]).map (·.full) = some false))
      else none)
    let work := s.engine.offloadWork c (decide (r.state = .ready)) volumes set.copies
    set.mask ≠ 0 → set.copies ≤ volumes.length → s.engine.queue.length + work.length ≤ 64 →
    ∃ t, exec (.startOffload o c i) s = .next t ∧
      s.answeredWith t o 13 (.done, [BitVec.ofNat 8 work.length, BitVec.ofNat 8 volumes.length] ++
        volumes.map (fun v => BitVec.ofNat 8 v.val)) ∧
      (r.state = .ready → work = (s.engine.clipsOf c).map (fun x => (x.handle, volumes))) ∧
      (r.state = .offloaded →
        let short := (s.engine.clipsOf c).filter (fun x => decide (x.securedCount < set.copies))
        let resettable (y : CopyRecord) : Bool := decide (y.state = .partialCopy ∨ y.state = .failed ∨ y.state = .mismatch ∨
          (y.state = .written ∧ y.verifyWaived = false))
        let wanted (x : Clip) := volumes.filter (fun v => ((x.copyOn v).map resettable).getD true)
        (work.map (·.1)).Sublist (short.map (·.handle)) ∧
          (∀ w ∈ work, w.2 ≠ [] ∧
            ∃ x ∈ short, w.1 = x.handle ∧ w.2.Sublist (volumes.filter (fun v => !x.securedOn v))) ∧
          ((∀ x ∈ short, (x.copies.map (·.volume)).Nodup ∧
              x.copies.length + (volumes.filter (fun v => decide (x.copyOn v = none))).length ≤ 6) →
            work = (short.map (fun x => (x.handle, wanted x))).filter (fun w => decide (w.2 ≠ [])))) ∧
      (s.settings.silent = true → s.engine.lanesTaken = true → s.engine.renderIdle = true →
        (∃ x, t.engine.cards[c] = some x ∧ x.snapshot = some set) ∧
        ∃ ds, t.engine.queue = s.engine.queue ++ ds ∧
          ds.map (fun d => (d.kind, d.clip, d.card)) = work.map (fun x => (DescKind.copy, some x.1, c)) ∧
          ds.map (fun d => (d.source, d.targets)) = work.map (fun x => (some Source.card, x.2)) ∧
          ∀ d ∈ ds, d.generation = 0 ∧ d.progress = 0 ∧ d.serial = none ∧ d.state ≠ .running)

/-- R100: the checks of RECOPY in their order. A mask outside 1..15 is refused with BAD_ARGUMENT, a card record not in OFFLOADING, HELD,
OFFLOADED or RELEASED with WRONG_STATE, no recopy target with NO_DESTINATION, no record for one with FULL, no source with NO_SOURCE, and no
free descriptor slot with FULL. The source is the card when its record is attached, in any port state, and else the lowest-numbered inserted
volume with a VERIFIED copy of a clip that has a source digest. Otherwise RECOPY is answered DONE with the descriptor slot, the source and
the targets, and queues one COPY of the clip from that source to those targets. (That the answer names the source CARD as 255 is log 7;
which record a seventh volume replaces is log 38.) -/
def Obligations.RecopyQueuesOneCopy : Prop :=
  ∀ (o : Origin) (h : Handle) (c : Clip) (r : CardRecord) (s : State), s.accepts o = true → o.port = .A →
    s.engine.clipAt h = some c → c.handle = h → s.engine.cards[c.card] = some r →
    let refused (mask : Nat) (x : Status) : Prop :=
      ∃ t, exec (.recopy o h.slot h.gen mask) s = .next t ∧ s.onlyAnswered t o 18 (x, []) ∧ t.settings = s.settings ∧ t.engine = s.blocks
    let workable : Prop := r.state = .offloading ∨ r.state = .held ∨ r.state = .offloaded ∨ r.state = .released
    let verifiedOn (v : Fin 16) : Prop := (s.engine.portOf v).isSome = true ∧ (c.copyOn v).map (·.state) = some .verified
    (∀ mask : Nat, mask = 0 ∨ 15 < mask → refused mask .badArgument) ∧
    ∀ mask : BitVec 4, mask ≠ 0 →
      let targets := (List.finRange 4).filterMap (fun p : Fin 4 =>
        if mask.getLsbD p.val then
          (s.engine.entryAt p).filter (fun v => !c.securedOn v && !s.engine.queue.any (fun d => d.namesPair h v))
        else none)
      let planned : Prop := plannedTargets (s.engine.busyVolumes h) targets c.copies = targets
      (¬ workable → refused mask.toNat .wrongState) ∧
      (workable → targets = [] → refused mask.toNat .noDestination) ∧
      (workable → targets ≠ [] → ¬ planned → refused mask.toNat .full) ∧
      (workable → targets ≠ [] → planned →
        (r.attached = none → (c.sourceDigest = none ∨ ∀ v, ¬ verifiedOn v) → refused mask.toNat .noSource) ∧
        ∀ source : Source,
          (match source with
           | .card => r.attached ≠ none
           | .volume v => r.attached = none ∧ c.sourceDigest ≠ none ∧ verifiedOn v ∧ ∀ u, u < v → ¬ verifiedOn u) →
          (s.engine.freeDescriptor = none → refused mask.toNat .full) ∧
          ∀ slot : Fin 64, s.engine.freeDescriptor = some slot →
            ∃ t, exec (.recopy o h.slot h.gen mask.toNat) s = .next t ∧
              s.answeredWith t o 18 (.done, [BitVec.ofNat 8 slot.val,
                match source with | .card => 255 | .volume v => BitVec.ofNat 8 v.val, BitVec.ofNat 8 targets.length] ++
                targets.map (fun v => BitVec.ofNat 8 v.val)) ∧
              (s.settings.silent = true → s.engine.lanesTaken = true → s.engine.renderIdle = true →
                ∃ d, t.engine.queue = s.engine.queue ++ [d] ∧ d.slot = slot ∧ d.kind = .copy ∧ d.clip = some h ∧ d.card = c.card ∧
                  d.source = some source ∧ d.targets = targets ∧ d.generation = 0 ∧ d.progress = 0))

/-- R4, R18, R19, R20, R102, R104, R176, R187: RELEASE_CARD of an OFFLOADED card whose clips are all secured and not blocked is answered DONE with the
manifests it queues, lowers the card's BLOCK fault records to WARN and makes the card RELEASING, or RELEASED when no volume is in
place; with a short or a blocked clip it is refused with NOT_SECURED and both counts. RETIRE_CLIP and RETIRE_CARD of a RELEASED card, with no
clip of theirs in use, are answered DONE; the generation of each retired clip's slot advances, so that its handle is stale, and its fault
records are removed, and no others; with no clip left the card record is freed. (A cue whose job has ended keeps no clip in use: log 24.)
-/
def Obligations.ReleaseNeedsEveryClipSecured : Prop :=
  (∀ (o : Origin) (c : Fin 32) (r : CardRecord) (sn : SetFields) (s : State), s.accepts o = true → o.port = .A →
     s.engine.cards[c] = some r → r.state = .offloaded → r.snapshot = some sn →
     let short := ((s.engine.clipsOf c).filter (fun x => decide (x.securedCount < sn.copies))).length
     let blocked := ((s.engine.clipsOf c).filter
       (fun x => decide (0 < s.engine.unresolvedCount x.handle .block) || x.blockOverflow)).length
     let volumes := (List.finRange 4).filterMap (fun p : Fin 4 => if sn.mask.getLsbD p.val then s.engine.entryAt p else none)
     ((0 < short ∨ 0 < blocked) →
       ∃ t, exec (.releaseCard o c) s = .next t ∧ s.onlyAnswered t o 17 (.notSecured, w16 short ++ w16 blocked) ∧
         t.settings = s.settings ∧ t.engine = s.blocks) ∧
     (short = 0 → blocked = 0 → s.engine.queue.length + volumes.length ≤ 64 →
       ∃ t, exec (.releaseCard o c) s = .next t ∧ s.answeredWith t o 17 (.done, [BitVec.ofNat 8 volumes.length]) ∧
         (s.settings.silent = true → s.engine.lanesTaken = true → s.engine.renderIdle = true →
           s.engine.queue.all (fun d => decide (d.card ≠ c)) = true →
           t.engine.faults = s.engine.faults.map (fun x =>
             if x.card = c ∧ x.severity = .block then { x with severity := .warn } else x) ∧
           t.engine.cards[c] = some { r with state := if volumes = [] then .released else .releasing } ∧
           (volumes = [] → t.engine.events = [Event.ofCard .cardReleased c]) ∧
           t.engine.clips = s.engine.clips ∧
           ∃ ds, t.engine.queue = s.engine.queue ++ ds ∧ ds.map (·.targets) = volumes.map (fun v => [v]) ∧
             ∀ d ∈ ds, d.kind = .manifest ∧ d.clip = none ∧ d.card = c ∧ d.source = none ∧ d.state = .queued))) ∧
  (∀ (o : Origin) (s : State), s.accepts o = true → o.port = .A → s.engine.clipsWellPlaced = true →
    (∀ (h : Handle) (c : Clip) (r : CardRecord), s.engine.clipAt h = some c → s.engine.cards[c.card] = some r →
      r.state = .released → s.engine.clipInUse h = false →
      ∃ t, exec (.retireClip o h.slot h.gen) s = .next t ∧ s.answeredWith t o 19 (.done, []) ∧
        (s.settings.silent = true →
          t.engine.clipAt h = none ∧ (t.engine.clips[h.slot]).gen = h.gen + 1 ∧
            t.engine.faults = s.engine.faults.filter (fun x => decide (x.clip ≠ h)) ∧
            (r.clips.erase h ≠ [] → r.pendingDir = none →
              t.engine.cards[c.card] = some { r with clips := r.clips.erase h }) ∧
            (r.clips.erase h = [] → r.attached = none → s.engine.noRecord = [] → t.engine.cards[c.card] = none))) ∧
    (∀ (c : Fin 32) (r : CardRecord), s.engine.cards[c] = some r → r.state = .released → r.clips.Nodup →
      (∀ h ∈ r.clips, s.engine.clipInUse h = false) → (∀ h ∈ r.clips, (s.engine.clipAt h).map (·.card) = some c) →
      ∃ t, exec (.retireCard o c) s = .next t ∧ s.answeredWith t o 20 (.done, []) ∧
        (s.settings.silent = true →
          (∀ h ∈ r.clips, t.engine.clipAt h = none ∧ (t.engine.clips[h.slot]).gen = h.gen + 1) ∧
            t.engine.faults = s.engine.faults.filter (fun x => decide (x.clip ∉ r.clips)) ∧
            (r.attached = none → s.engine.noRecord = [] → t.engine.cards[c] = none))))

/-- R1, R2, R4, R5, R7, R9, R12, R13, R25, R34, R63, R65, R66, R67: every step keeps the card records in agreement with the card ports, the
clip records with their cards' clip lists and with the bounds of their copy records, the Volume Table with the destination ports, and the
volume entries in use those that are inserted or named by a copy record. -/
def Obligations.EveryStepKeepsTheCatalogueAndTheVolumeTable : Prop :=
  ∀ s t : State, step s = .next t →
    (s.engine.cardsLegal = true → t.engine.cardsLegal = true) ∧ (s.engine.clipsLegal = true → t.engine.clipsLegal = true) ∧
      (s.engine.volumesLegal = true → t.engine.volumesLegal = true) ∧
      (s.engine.clipsLegal = true → s.engine.volumesLegal = true → s.engine.entriesUsed = true → t.engine.entriesUsed = true)

/-! ## Renders and the review monitor -/

/-- R127, R131, R144: QUEUE_RENDER of a clip with a valid header, a bound look, a copy to read and an ONLINE proxy port is answered
DONE with the lowest free job slot; the job joins the tail of the queue, and the clip becomes QUEUED. Then the Render Engine goes on
(`Engine.goesOn`), and where it waits nothing else has changed. -/
def Obligations.QueueRenderAddsAProxyJob : Prop :=
  ∀ (o : Origin) (h : Handle) (c : Clip) (x : Header) (range taken : Range) (p : Fin 4) (j : Fin 16) (s : State),
    s.accepts o = true → o.port = .B → s.engine.clipAt h = some c → c.handle = h → c.header = some x →
    rangeFormed range c.observed = some taken → rangeLabelsValid taken x = true → (c.boundLook s.settings).isSome = true →
    (s.engine.renderSource h).isSome = true → (s.engine.destPorts[p]).state = .online →
    (∀ y ∈ s.engine.jobs, y.slot ≠ j) → (∀ i < j, ∃ y ∈ s.engine.jobs, y.slot = i) →
    ∃ t, exec (.queueRender o h.slot h.gen range p) s = .next t ∧ s.answeredWith t o 27 (.done, [BitVec.ofNat 8 j.val]) ∧
      (s.settings.silent = true →
        Engine.goesOn s.settings { s.blocks with
          clips := s.engine.clips.set h.slot ⟨h.gen, some { c with renderState := .queued }⟩
          jobs := s.engine.jobs ++ [{ slot := j, clip := h, card := c.card, range := taken, outputs := .proxy,
                                      proxyPort := some p, loop := false, station := .B, snapshot := none, nextFrame := none,
                                      proxy := none, underruns := 0, cancelMark := false, suspendMark := false,
                                      rangeDone := false, state := .queued }] } t.engine)

/-- R132, R143, R157, R159: CUE_MONITOR is answered DONE with its job slot, makes its job the monitor job with the clip's rate, empties
the back buffer, sets blanking and, with no monitor job before it, claims an IDLE context, or else a DRAINING one; STOP_MONITOR empties the
back buffer, drops the cue and blanks, and its job, where no context carries it and the Render Engine waits, ends; RESUME_RENDERS clears the
paused flag. After a cue or RESUME_RENDERS the Render Engine goes on (`Engine.goesOn`). (That of two contexts alike the cue claims the lower is log 44.) -/
def Obligations.CueStopAndResumeDriveTheMonitor : Prop :=
  ∀ (o : Origin) (s : State), s.accepts o = true → o.port ≠ .A →
    (∀ (h : Handle) (c : Clip) (x : Header) (range taken : Range) (loop : Bool) (j : Fin 16),
      s.engine.clipAt h = some c → c.handle = h → c.header = some x → rangeFormed range c.observed = some taken →
      rangeLabelsValid taken x = true → (c.boundLook s.settings).isSome = true → (s.engine.renderSource h).isSome = true →
      s.engine.freeJob = some j →
      let m := s.engine.monitor
      let changed : Bool := s.settings.monitor.rate.isNone && !(decide (m.rate = x.rate) && decide (m.drop = x.drop))
      let job : Job :=
        { slot := j, clip := h, card := c.card, range := taken, outputs := .monitor, proxyPort := none, loop := loop,
          station := o.port, snapshot := none, nextFrame := none, proxy := none, underruns := 0, cancelMark := false,
          suspendMark := false, rangeDone := false, state := .queued }
      ∃ t, exec (.cueMonitor o h.slot h.gen range loop 255) s = .next t ∧
        s.answeredWith t o 29 (.done, [BitVec.ofNat 8 j.val]) ∧
        (s.settings.silent = true → m.cue.job = none → ∀ k, s.engine.claimedByCue k = true →
          Engine.goesOn s.settings { s.blocks with
            jobs := s.engine.jobs ++ [job]
            contexts := s.engine.contexts.set k { s.engine.contexts[k] with claim := some j }
            monitor := { m with
              cue := ⟨some j, some h, some c.card, some x.rate, x.drop, false, false⟩, back := .empty, blanking := true,
              rate := if changed then x.rate else m.rate, drop := if changed then x.drop else m.drop,
              inWindow := if changed then 0 else m.inWindow } } t.engine)) ∧
    (∃ t, exec (.stopMonitor o) s = .next t ∧ s.answeredWith t o 30 (.done, []) ∧
      (s.settings.silent = true → s.engine.renderWaits = true →
        (∀ k, s.engine.monitor.cue.job = some k → s.engine.contextOf k = none) →
        t.engine.jobs = s.engine.jobs.filter (fun y => decide (s.engine.monitor.cue.job ≠ some y.slot)) ∧
        t.engine.monitor = { s.engine.monitor with back := .empty, cue := Cue.reset, blanking := true })) ∧
    (o.port = .B →
      ∃ t, exec (.resumeRenders o) s = .next t ∧ s.answeredWith t o 28 (.done, []) ∧
        (s.settings.silent = true → Engine.goesOn s.settings { s.blocks with paused := false } t.engine))

/-- R128, R141, R142: CANCEL_RENDER of a job that no context carries, where the Render Engine waits, removes it and signals its end,
CANCELLED, and starts nothing; the REVIEW station is refused a job of another station with NOT_PERMITTED; a free slot is NOT_FOUND. -/
def Obligations.CancelRenderEndsAWaitingJob : Prop :=
  ∀ (o : Origin) (j : Fin 16) (s : State), s.accepts o = true → o.port ≠ .A →
    (∀ y, s.engine.job j = some y → (o.port = .C → y.station = .C) →
      ∃ t, exec (.cancelRender o j) s = .next t ∧ s.answeredWith t o 32 (.done, []) ∧
        (s.settings.silent = true → s.engine.renderWaits = true → s.engine.contextOf j = none →
          t.engine.jobs = s.engine.jobs.filter (fun x => decide (x.slot ≠ j)) ∧
          (∃ ev ∈ t.engine.events, ev.kind = .renderFailed ∧ ev.card = some y.card ∧ ev.clip = some y.clip ∧
            ev.render.map (·.ending) = some .cancelled ∧ ev.render.map (·.job) = some y.slot) ∧
          t.engine.queue = s.engine.queue ∧ t.engine.faults = s.engine.faults)) ∧
    (∀ y, s.engine.job j = some y → o.port = .C → y.station ≠ .C →
      ∃ t, exec (.cancelRender o j) s = .next t ∧ s.onlyAnswered t o 32 (.notPermitted, []) ∧ t.settings = s.settings ∧
        t.engine = s.blocks) ∧
    (s.engine.job j = none →
      ∃ t, exec (.cancelRender o j) s = .next t ∧ s.onlyAnswered t o 32 (.notFound, []) ∧ t.settings = s.settings ∧
        t.engine = s.blocks)


/-! ## Card ports -/

/-- R17, R28, R31, R32, R39, R40, R81: a card seated in a port that is not attached makes the port READING, with nothing held; ABSENT makes
it EMPTY and takes it off the no-record list; ABSENT in EMPTY changes nothing. As an attached card leaves, with both lanes DRAINING and
no port waiting for a record, its record loses the port and takes HELD_BY_ABSENCE when a card-sourced COPY of it waits, the port is
EMPTY with both outputs off, CARD_REMOVED is signaled, and every other card and port keeps. -/
def Obligations.CardsArriveAndLeave : Prop :=
  (∀ (p : Fin 4) (s : State), s.calm = true →
     let q := s.engine.cardPorts[p]
     let out : CardPort := { q with state := .empty, held := none, read := none }
     (q.state = .empty →
       (∃ t, exec (.present p) s = .next t ∧ s.ranBlocks t ∧ t.now = s.now ∧ t.seated = s.seated.set p true ∧
         t.mounted = s.mounted ∧
         t.engine = { s.blocks with cardPorts := s.engine.cardPorts.set p { q with state := .reading } }) ∧
       (∃ t, exec (.absent p) s = .next t ∧ s.ranBlocks t ∧ t.now = s.now ∧ t.seated = s.seated.set p false ∧
         t.mounted = s.mounted ∧ t.engine = s.blocks)) ∧
     ((q.state = .reading ∨ q.state = .unreadable ∨ q.state = .noRecord) →
       let list := if q.state = .noRecord then s.engine.noRecord.erase p else s.engine.noRecord
       (∃ t, exec (.present p) s = .next t ∧ s.ranBlocks t ∧ t.now = s.now ∧ t.seated = s.seated.set p true ∧
         t.mounted = s.mounted ∧
         t.engine = { s.blocks with noRecord := list, cardPorts := s.engine.cardPorts.set p { out with state := .reading } }) ∧
       (∃ t, exec (.absent p) s = .next t ∧ s.ranBlocks t ∧ t.now = s.now ∧ t.seated = s.seated.set p false ∧
         t.mounted = s.mounted ∧
         t.engine = { s.blocks with noRecord := list, cardPorts := s.engine.cardPorts.set p out }))) ∧
  (∀ (p : Fin 4) (card : Fin 32) (r : CardRecord) (s : State), s.calm = true → (∀ l : Fin 2, s.engine.lanes[l] = .draining) →
     s.engine.noRecord = [] → s.engine.cards[card] = some r → r.attached = some p →
     (∀ (c : Fin 32) (x : CardRecord), s.engine.cards[c] = some x → x.attached = some p → c = card) →
     ((s.engine.cardPorts[p]).state = .attached ∨ (s.engine.cardPorts[p]).state = .stalled) →
     let waits := s.engine.queue.any (fun d => d.cardSourced && decide (d.card = card) && decide (d.state ≠ .running))
     ∃ t, exec (.absent p) s = .next t ∧ s.ranBlocks t ∧ t.now = s.now ∧ t.seated = s.seated.set p false ∧
       t.mounted = s.mounted ∧
       t.engine = { s.blocks with cards := t.engine.cards, cardPorts := s.engine.cardPorts.set p ⟨.empty, none, none, false, false⟩,
                                  queue := t.engine.queue, events := [Event.ofCard .cardRemoved card] } ∧
       (∀ c, c ≠ card → t.engine.cards[c] = s.engine.cards[c]) ∧
       (∃ x, t.engine.cards[card] =
         some { r with attached := none, heldByAbsence := r.heldByAbsence || waits, state := x }) ∧
       (∃ f : Descriptor → DescState, t.engine.queue = s.engine.queue.map (fun d => { d with state := f d }) ∧
         ∀ d ∈ s.engine.queue,
           (d.card ≠ card ∨ d.state = .running ∨ waits = false → f d = d.state) ∧
           (d.card = card → d.state ≠ .running → waits = true → d.cardSourced = true → f d = .held)))

/-- R12, R13, R14, R26, R27, R29, R30: what a directory answer does at a port in READING: an invalid one, an error or a time-out makes it
UNREADABLE; the record of the identity attaches, unless it is attached elsewhere; a new identity takes the lowest free card slot, with
its clips in the lowest free clip slots, or waits for space; with no slot the port is NO_RECORD. An answer to an abandoned request
changes nothing. (That a time-out at a port in another state changes nothing is the model's choice, log 3, and so is that an answer there
changes nothing, log 31.) -/
def Obligations.DirectoryAnswerAttachesOrRefuses : Prop :=
  ∀ (p : Fin 4) (s : State), s.calm = true →
    let q := s.engine.cardPorts[p]
    (∀ a, exec (.directoryAnswer p .abandoned a) s = .next s) ∧
    (q.state ≠ .reading →
      (∀ a, ∃ t, exec (.directoryAnswer p .outstanding a) s = .next t ∧ s.ranInPlace t ∧ t.engine = s.blocks) ∧
      (∃ t, exec (.directoryTimeout p) s = .next t ∧ s.ranInPlace t ∧ t.engine = s.blocks)) ∧
    (q.state = .reading →
      let unreadable := { s.blocks with cardPorts := s.engine.cardPorts.set p { q with state := .unreadable, held := none } }
      (∃ t, exec (.directoryTimeout p) s = .next t ∧ s.ranInPlace t ∧ t.engine = unreadable) ∧
      (∃ t, exec (.directoryAnswer p .outstanding .error) s = .next t ∧ s.ranInPlace t ∧ t.engine = unreadable) ∧
      (∀ d, directoryValid d = false →
        ∃ t, exec (.directoryAnswer p .outstanding (.directory d)) s = .next t ∧ s.ranInPlace t ∧ t.engine = unreadable) ∧
      (∀ d, directoryValid d = true →
        let known := s.engine.cardOfIdentity d
        ∃ t, exec (.directoryAnswer p .outstanding (.directory d)) s = .next t ∧ s.ranInPlace t ∧
          (t.engine.cardPorts[p]).held = some d ∧
          (∀ (card : Fin 32) (r : CardRecord), known = some card → s.engine.cards[card] = some r → r.attached = none →
            (t.engine.cardPorts[p]).state = .attached ∧ Event.ofCard .cardAttached card ∈ t.engine.events ∧
              (t.engine.cards[card]).map (fun x => (x.attached, x.heldByAbsence)) = some (some p, false)) ∧
          (((∃ card r, known = some card ∧ s.engine.cards[card] = some r ∧ r.attached ≠ none) ∨
              (known = none ∧ s.engine.freeCard = none)) →
            t.engine = { s.blocks with cardPorts := s.engine.cardPorts.set p { q with state := .noRecord, held := some d },
                                       noRecord := s.engine.noRecord ++ [p] }) ∧
          (∀ card, known = none → s.engine.freeCard = some card →
            (t.engine.cardPorts[p]).state = .attached ∧ t.engine.events = [Event.ofCard .cardAttached card] ∧
              (∀ c, c ≠ card → t.engine.cards[c] = s.engine.cards[c]) ∧
              if s.engine.waitList = [] ∧ d.takeCount ≤ s.engine.freeClips.length then
                t.engine.waitList = [] ∧
                  t.engine.cards[card] = some { CardRecord.made d p .ready none with
                    clips := (s.engine.freeClips.take d.takes.length).map (fun i => ⟨i, (s.engine.clips[i]).gen⟩) } ∧
                  (∀ (k : Nat) (i : Fin 512) (take : Take), s.engine.freeClips[k]? = some i → d.takes[k]? = some take →
                    t.engine.clips[i] = ⟨(s.engine.clips[i]).gen,
                      some (Clip.made ⟨i, (s.engine.clips[i]).gen⟩ card take)⟩) ∧
                  (∀ i : Fin 512, i ∉ s.engine.freeClips.take d.takes.length → t.engine.clips[i] = s.engine.clips[i])
              else
                t.engine.waitList = s.engine.waitList ++ [card] ∧ t.engine.clips = s.engine.clips ∧
                  t.engine.cards[card] = some (CardRecord.made d p .waitSpace (some d.takes)))))

/-- R34, R35, R84, R86: a block that a reader delivers to a card-sourced COPY enters the lane's Digest Unit and goes to the copy's one
open target as an APPEND; an error, a wrong length and a stall time-out alike take the next attempt while the port's retries last, with
the period then set. -/
def Obligations.ReadAnswerFeedsTheCopyOrIsRetried : Prop :=
  ∀ (p : Fin 4) (rd : CardRead) (s : State), s.calm = true → (s.engine.cardPorts[p]).read = some rd →
    (∀ (bytes : List Byte) (run : LaneRun) (d : Descriptor) (h : Handle) (c : Clip) (r : CardRecord) (v : Fin 16) (q : Fin 4)
        (k : Word32), bytes.length = rd.length → s.engine.laneRun rd.lane = some run →
      s.engine.descriptor run.slot = some d → d.kind = .copy → d.source = some .card → d.clip = some h →
      s.engine.clipAt h = some c → s.engine.cards[d.card] = some r → run.targets = [⟨v, q, .isOpen k⟩] →
      (s.engine.destPorts[q]).state = .online → (s.engine.destPorts[q]).inflight = none →
      (s.engine.destPorts[q]).waiting = [] →
      ∃ t x, exec (.readAnswer p .outstanding (.data bytes)) s = .next t ∧ s.ranInPlace t ∧
        t.engine.cardPorts = s.engine.cardPorts.set p { s.engine.cardPorts[p] with read := none } ∧
        t.engine.laneRun rd.lane = some x ∧ x.crcHigh = crcBytes polyHigh run.crcHigh bytes ∧
        x.crcLow = crcBytes polyLow run.crcLow bytes ∧ x.block = bytes ∧ x.phase = .appending ∧
        x.targets = [⟨v, q, .appending k⟩] ∧
        x.lastPassed = decide (c.byteLength ≤ d.progress + bytes.length) ∧
        t.engine.destPorts = s.engine.destPorts.set q
          { s.engine.destPorts[q] with inflight := some ⟨.lane rd.lane, .append k bytes, false⟩, last := .lane rd.lane } ∧
        t.engine.queue = s.engine.queue) ∧
    (rd.attempt < (s.settings.stall[p]).retries.val →
      let retried := { s.blocks with cardPorts := s.engine.cardPorts.set p { s.engine.cardPorts[p] with
        read := some { rd with attempt := rd.attempt + 1, period := (s.settings.stall[p]).period } } }
      (∃ t, exec (.readAnswer p .outstanding .error) s = .next t ∧ s.ranInPlace t ∧ t.engine = retried) ∧
      (∀ bytes : List Byte, bytes.length ≠ rd.length →
        ∃ t, exec (.readAnswer p .outstanding (.data bytes)) s = .next t ∧ s.ranInPlace t ∧ t.engine = retried) ∧
      (∃ t, exec (.stallTimerExpiry p) s = .next t ∧ s.ranInPlace t ∧ t.engine = retried)) ∧
    (∀ a, exec (.readAnswer p .abandoned a) s = .next s)

/-- R36, R81, R89, R90: when the last attempt of a read fails, the port is STALLED and CARD_STALLED is signaled, the card is
HELD_BY_STALL, and the running COPY, the only work queued, stops: each target not yet closing is PARTIAL. -/
def Obligations.ExhaustedReadStallsThePort : Prop :=
  ∀ (p : Fin 4) (rd : CardRead) (run : LaneRun) (d : Descriptor) (h : Handle) (c : Clip) (r : CardRecord) (s : State),
    s.calm = true → (s.engine.cardPorts[p]).read = some rd → (s.settings.stall[p]).retries.val ≤ rd.attempt →
    s.engine.cardAt p = some d.card → s.engine.cards[d.card] = some r → s.engine.laneRun rd.lane = some run →
    s.engine.queue = [d] → run.slot = d.slot → d.clip = some h → s.engine.clipAt h = some c → s.engine.requeues = [] →
    ∀ i ∈ [Instr.readAnswer p .outstanding .error, .stallTimerExpiry p],
      ∃ t, exec i s = .next t ∧ s.ranInPlace t ∧ t.engine.queue = [] ∧ t.engine.laneRun rd.lane = none ∧
        (t.engine.cardPorts[p]).state = .stalled ∧ (t.engine.cardPorts[p]).read = none ∧
        Event.ofCard .cardStalled d.card ∈ t.engine.events ∧
        (t.engine.cards[d.card]).map (·.heldByStall) = some true ∧
        ∀ x ∈ run.targets, x.status.live = true → ∀ y, c.copyOn x.entry = some y →
          (((t.engine.clipAt h).bind (·.copyOn x.entry)).map (·.state)) = some .partialCopy

/-! ## Destination ports and volumes -/

/-- R64, R66, R68, R69: a drive mounted in a port that is not ONLINE makes it IDENTIFYING; REMOVED makes such a port EMPTY and takes it
off the untracked list, and at an ONLINE port with nothing under way signals VOLUME_REMOVED and frees the entry that no copy record
names. -/
def Obligations.DriveArrivesAndLeaves : Prop :=
  ∀ (p : Fin 4) (s : State), s.calm = true →
    let q := s.engine.destPorts[p]
    let list := match q.state with | .untracked _ _ => s.engine.untracked.erase p | _ => s.engine.untracked
    (q.state ≠ .online →
      (∃ t, exec (.inserted p) s = .next t ∧ s.ranBlocks t ∧ t.now = s.now ∧ t.mounted = s.mounted.set p true ∧
        t.seated = s.seated ∧
        t.engine = { s.blocks with untracked := list, destPorts := s.engine.destPorts.set p { q with state := .identifying } }) ∧
      (∃ t, exec (.removed p) s = .next t ∧ s.ranBlocks t ∧ t.now = s.now ∧ t.mounted = s.mounted.set p false ∧
        t.seated = s.seated ∧
        t.engine = { s.blocks with untracked := list, destPorts := s.engine.destPorts.set p { q with state := .empty } })) ∧
    (∀ (v : Fin 16) (x : VolumeEntry), q.state = .online → s.engine.entryAt p = some v → s.engine.volumes[v] = some x →
      q.inflight = none → (∀ l : Fin 2, s.engine.lanes[l] = .draining) → s.engine.untracked = [] →
      ∃ t, exec (.removed p) s = .next t ∧ s.ranBlocks t ∧ t.now = s.now ∧ t.mounted = s.mounted.set p false ∧
        t.seated = s.seated ∧
        t.engine = { s.blocks with
          destPorts := s.engine.destPorts.set p { q with state := .empty, inflight := none, waiting := [] }
          volumes := s.engine.volumes.set v (if s.engine.refCount v = 0 then none else some { x with inserted := none })
          events := [Event.ofVolume .volumeRemoved v] })

/-- R62, R64, R65: an identified volume goes online in the entry of its serial, or in the lowest free one, and VOLUME_INSERTED is
signaled; a second volume of a serial, and one that finds no entry, is UNTRACKED; an error, an invalid label or a time-out makes the
port OFFLINE. An abandoned request's answer changes nothing. (That an answer at a port that is not IDENTIFYING changes nothing is the
model's choice, log 31.) -/
def Obligations.IdentifiedVolumeIsPlaced : Prop :=
  ∀ (p : Fin 4) (s : State), s.calm = true →
    let q := s.engine.destPorts[p]
    (∀ a, exec (.identifyAnswer p .abandoned a) s = .next s) ∧
    (q.state ≠ .identifying → ∀ a,
      ∃ t, exec (.identifyAnswer p .outstanding a) s = .next t ∧ s.ranInPlace t ∧ t.engine = s.blocks) ∧
    (q.state = .identifying →
      let offline := { s.blocks with destPorts := s.engine.destPorts.set p { q with state := .offline } }
      (∃ t, exec (.enclosureTimeout p) s = .next t ∧ s.ranInPlace t ∧ t.engine = offline) ∧
      (∃ t, exec (.identifyAnswer p .outstanding .error) s = .next t ∧ s.ranInPlace t ∧ t.engine = offline) ∧
      (∀ serial label, labelValidText label = false →
        ∃ t, exec (.identifyAnswer p .outstanding (.volume serial label)) s = .next t ∧ s.ranInPlace t ∧ t.engine = offline) ∧
      (∀ serial label, labelValidText label = true →
        ∃ t, exec (.identifyAnswer p .outstanding (.volume serial label)) s = .next t ∧ s.ranInPlace t ∧
          (∀ v, (s.engine.entryOfSerial serial = some v ∧ s.engine.portOf v = none) ∨
              (s.engine.entryOfSerial serial = none ∧ s.engine.freeEntry = some v) →
            t.engine = { s.blocks with
              volumes := s.engine.volumes.set v (some ⟨serial, label, some p, false⟩)
              destPorts := s.engine.destPorts.set p { q with state := .online }
              events := [Event.ofVolume .volumeInserted v] }) ∧
          (((∃ v, s.engine.entryOfSerial serial = some v ∧ (s.engine.portOf v).isSome = true) ∨
              (s.engine.entryOfSerial serial = none ∧ s.engine.freeEntry = none)) →
            t.engine = { s.blocks with
              destPorts := s.engine.destPorts.set p { q with state := .untracked serial label }
              untracked := s.engine.untracked ++ [p] })))

/-- R62, R72, R73, R82: at a port that is not IDENTIFYING, a time-out is the ERROR answer of the operation in flight. An answer to an
abandoned request changes nothing. (That a time-out with no operation in flight changes nothing is the model's choice, log 3.) An operation
asked of a port with nothing in flight and nobody waiting is sent at once, and else waits; as an operation ends, the first waiting requester
in the cyclic order lane 0, lane 1, context 0, context 1 after the last one granted is granted. The answer to an operation of a DRAINING
lane is discarded, and the lane is IDLE once its last one has ended. -/
def Obligations.TimeoutIsAnErrorAnswer : Prop :=
  (∀ (p : Fin 4) (s : State), s.resetHeld = false → (s.engine.destPorts[p]).state ≠ .identifying →
     (∀ op, (s.engine.destPorts[p]).inflight = some op →
       exec (.enclosureTimeout p) s =
         match op.request with
         | .openWrite _ => exec (.openWriteAnswer p .outstanding .error) s
         | .append _ _ => exec (.appendAnswer p .outstanding .error) s
         | .close _ => exec (.closeAnswer p .outstanding .error) s
         | .openRead _ => exec (.openReadAnswer p .outstanding .error) s
         | .read _ _ _ => exec (.volumeReadAnswer p .outstanding .error) s) ∧
     ((s.engine.destPorts[p]).inflight = none → s.settings.silent = true →
       ∃ t, exec (.enclosureTimeout p) s = .next t ∧ s.ranInPlace t ∧ t.engine = s.blocks) ∧
     (∀ a, exec (.openWriteAnswer p .abandoned a) s = .next s) ∧ (∀ a, exec (.appendAnswer p .abandoned a) s = .next s) ∧
     (∀ a, exec (.closeAnswer p .abandoned a) s = .next s) ∧ (∀ a, exec (.openReadAnswer p .abandoned a) s = .next s) ∧
     (∀ a, exec (.volumeReadAnswer p .abandoned a) s = .next s)) ∧
  (∀ (d : DestPort) (op : Operation),
     let place (w : Requester) : Nat := match w with | .lane l => l.val | .context c => 2 + c.val
     let turn (w : Requester) : Nat := (place w + 3 - place d.last) % 4
     (d.inflight = none → d.waiting = [] → d.ask op = { d with inflight := some op, last := op.who }) ∧
     ((d.inflight ≠ none ∨ d.waiting ≠ []) → d.ask op = { d with waiting := d.waiting ++ [op] }) ∧
     (d.waiting = [] → d.endOperation = { d with inflight := none }) ∧
     (op ∈ d.waiting → (∀ x ∈ d.waiting, x = op ∨ turn op.who < turn x.who) →
       d.endOperation = { d with inflight := some op, last := op.who, waiting := d.waiting.erase op })) ∧
  (∀ (p : Fin 4) (l : Fin 2) (k : Word32) (block : List Byte) (s : State), s.calm = true → s.engine.queue = [] →
     s.engine.lanes[l] = .draining → (s.engine.destPorts[p]).inflight = some ⟨.lane l, .append k block, true⟩ →
     (∀ q, q ≠ p → (s.engine.destPorts[q]).inflight.map (·.who) ≠ some (.lane l)) →
     (∀ x ∈ (s.engine.destPorts[p]).waiting, x.who ≠ .lane l) →
     ∃ t, exec (.appendAnswer p .outstanding .ok) s = .next t ∧ s.ranInPlace t ∧
       t.engine = { s.blocks with
         destPorts := s.engine.destPorts.set p (s.engine.destPorts[p]).endOperation
         lanes := s.engine.lanes.set l .idle })

/-! ## The Transfer Engine -/

/-- R53, R82, R83, R85, R86, R87, R88, R90, R169: a COPY with one target. An APPEND answered OK completes the block, and the read of the next one goes to
the card's port, or to the source volume's; one answered NO_SPACE makes the copy FAILED, sets the volume's full flag, signals COPY_FAILED
and ends the COPY; while another target's APPEND is awaited, the COPY goes on without the target that failed. With the last block complete
the read digest is settled, a first one becomes the clip's source digest, and CLOSE is sent. A CLOSE answered OK makes a consistent copy
WRITTEN, with the read digest as its verify digest for a volume source, signals CLIP_COPIED and removes the COPY; under READBACK a VERIFY of
the copy is queued, HELD under HELD_BY_REQUEST, and else granted to the lane at once. An inconsistent copy becomes MISMATCH with a
DIGEST_MISMATCH fault, and one more for a source volume. The lane grant takes the oldest QUEUED descriptor whose source no RUNNING one
reads and before which no card-sourced COPY of its card stands; a granted COPY of a card becomes RUNNING, and asks its target for its
object. Each card-sourced COPY clears the observed fields and the sampled and skipped counts of its clip as it starts; with no target's
volume inserted each copy is FAILED and the COPY stops in the same step (log 57). (That an inconsistent COPY from a volume raises the
fault of its source volume after its target's, in the step of the CLOSE answer, is the model's choice, log 19.) -/
def Obligations.CopyGoesOnBlockByBlock : Prop :=
  (∀ (p : Fin 4) (l : Fin 2) (run : LaneRun) (d : Descriptor) (h : Handle) (c : Clip) (r : CardRecord) (v : Fin 16) (k : Word32)
     (y : CopyRecord) (s : State),
     s.calm = true → s.engine.requeues = [] → s.engine.laneRun l = some run → s.engine.queue = [d] → run.slot = d.slot →
     d.kind = .copy → d.source = some .card → run.source = none → d.clip = some h → s.engine.clipAt h = some c → c.handle = h →
     s.engine.cards[d.card] = some r → c.copyOn v = some y → run.abortMark = false →
     (s.engine.destPorts[p]).state = .online → (s.engine.destPorts[p]).waiting = [] → s.engine.entryAt p = some v →
     (∀ q, q ≠ p → (s.engine.destPorts[q]).inflight = none ∧ (s.engine.destPorts[q]).waiting = []) →
     (∀ (block : List Byte) (cp : Fin 4) (dir : Directory) (tk : Take),
       run.phase = .appending → run.targets = [⟨v, p, .appending k⟩] → run.block = block →
       (s.engine.destPorts[p]).inflight = some ⟨.lane l, .append k block, false⟩ →
       (d.progress + block.length < c.byteLength → r.attached = some cp → (s.engine.cardPorts[cp]).state = .attached →
         (s.engine.cardPorts[cp]).held = some dir → takeAt dir c.takeIndex = some tk → c.byteLength ≤ tk.length →
         let done := d.progress + block.length
         let next : CardRead :=
           ⟨l, c.takeIndex, done, min 1048576 (c.byteLength - done), 0, (s.settings.stall[cp]).period⟩
         ∃ t, exec (.appendAnswer p .outstanding .ok) s = .next t ∧ s.ranInPlace t ∧
           t.engine.queue = [{ d with progress := done }] ∧
           t.engine.cardPorts = s.engine.cardPorts.set cp { s.engine.cardPorts[cp] with read := some next } ∧
           (t.engine.destPorts[p]).inflight = none ∧
           t.engine.laneRun l = some { run with targets := [⟨v, p, .isOpen k⟩], phase := .reading, block := [] }) ∧
       (∃ t, exec (.appendAnswer p .outstanding .noSpace) s = .next t ∧ s.ranInPlace t ∧ t.engine.queue = [] ∧
         t.engine.laneRun l = none ∧ (t.engine.volumes[v]).map (·.full) = some true ∧
         (((t.engine.clipAt h).bind (·.copyOn v)).map (·.state)) = some .failed ∧
         ∃ ev ∈ t.engine.events, ev.kind = .copyFailed ∧ ev.clip = some h ∧ ev.volume = some v)) ∧
     (∀ digest : Word64, run.phase = .closing → run.targets = [⟨v, p, .closing⟩] → run.consistent = true →
       run.readDigest = some digest → r.verifyMode = .noVerify → (s.engine.destPorts[p]).inflight = some ⟨.lane l, .close k, false⟩ →
       ∃ t, exec (.closeAnswer p .outstanding .ok) s = .next t ∧ s.ranInPlace t ∧ t.engine.queue = [] ∧
         t.engine.laneRun l = none ∧
         ((t.engine.clipAt h).bind (·.copyOn v)) = some { y with state := .written, verifyWaived := true, verifyDigest := none } ∧
         Event.ofClip .clipCopied d.card h ∈ t.engine.events)) ∧
  (∀ (p : Fin 4) (l : Fin 2) (run : LaneRun) (d : Descriptor) (h : Handle) (c : Clip) (r : CardRecord) (v : Fin 16) (k : Word32)
     (y : CopyRecord) (digest : Word64) (s : State),
     s.calm = true → s.engine.requeues = [] → s.engine.laneRun l = some run → s.engine.queue = [d] → run.slot = d.slot →
     d.kind = .copy → d.clip = some h → s.engine.clipAt h = some c → c.handle = h → s.engine.cards[d.card] = some r →
     c.copyOn v = some y → run.abortMark = false → (s.engine.destPorts[p]).state = .online → (s.engine.destPorts[p]).waiting = [] →
     s.engine.entryAt p = some v →
     (∀ q, q ≠ p → (s.engine.destPorts[q]).inflight = none ∧ (s.engine.destPorts[q]).waiting = []) →
     let q := s.engine.destPorts[p]
     let asked (request : OpRequest) := s.engine.destPorts.set p { q with inflight := some ⟨.lane l, request, false⟩, last := .lane l }
     let copied (t : State) : Option CopyRecord := (t.engine.clipAt h).bind (·.copyOn v)
     let mismatch (w : Fin 16) : FaultInput := ⟨.digestMismatch, h, d.card, some w, none, none, none, some 2⟩
     (∀ block : List Byte, d.source = some .card → run.source = none → run.phase = .appending →
       run.targets = [⟨v, p, .appending k⟩] → run.block = block → q.inflight = some ⟨.lane l, .append k block, false⟩ →
       c.byteLength ≤ d.progress + block.length →
       let read := digestOf run.crcHigh run.crcLow
       ∃ t, exec (.appendAnswer p .outstanding .ok) s = .next t ∧ s.ranInPlace t ∧
         t.engine = { s.blocks with
           queue := [{ d with progress := d.progress + block.length }]
           destPorts := asked (.close k)
           clips :=
             if c.sourceDigest = none ∨ c.sourceDigest = some read then
               s.engine.clips.set h.slot ⟨h.gen, some { c with sourceDigest := some read }⟩
             else s.engine.clips
           lanes := s.engine.lanes.set l (.running { run with
             targets := [⟨v, p, .closing⟩], phase := .closing, block := [], readDigest := some read,
             consistent := decide (c.sourceDigest = none ∨ c.sourceDigest = some read) }) }) ∧
     (run.phase = .closing → run.targets = [⟨v, p, .closing⟩] → run.readDigest = some digest →
       q.inflight = some ⟨.lane l, .close k, false⟩ →
       (d.source = some .card → run.source = none → run.consistent = true → r.verifyMode = .readback →
         let written : CopyRecord := { y with state := .written, verifyWaived := false, verifyDigest := none }
         let verify (x : DescState) : Descriptor :=
           ⟨0, .verify, some h, d.card, some (.volume v), [v], none, d.generation, 0, x⟩
         ∃ t, exec (.closeAnswer p .outstanding .ok) s = .next t ∧ s.ranInPlace t ∧
           Event.ofClip .clipCopied d.card h ∈ t.engine.events ∧
           (r.heldByRequest = true → t.engine.queue = [verify .held] ∧ t.engine.laneRun l = none ∧ copied t = some written) ∧
           (r.heldByRequest = false → t.engine.queue = [verify .running] ∧
             t.engine.destPorts = asked (.openRead (c.copyName r)) ∧
             t.engine.laneRun l = some { LaneRun.start 0 with source := some ⟨v, p, .opening⟩ } ∧
             copied t = some { written with state := .verifying })) ∧
       (d.source = some .card → run.source = none → run.consistent = false →
         ∃ t, exec (.closeAnswer p .outstanding .ok) s = .next t ∧ s.ranInPlace t ∧ t.engine.queue = [] ∧ t.engine.laneRun l = none ∧
           copied t = some { y with state := .mismatch, verifyDigest := some digest } ∧
           t.engine.faults = (s.engine.raiseFault s.settings (mismatch v)).faults ∧
           ∀ ev ∈ t.engine.events, ev.kind ≠ .clipCopied) ∧
       (∀ (w : Fin 16) (x : VolumeSource), d.source = some (.volume w) → run.source = some x → x.status = .closed →
         (run.consistent = true → r.verifyMode = .noVerify →
           ∃ t, exec (.closeAnswer p .outstanding .ok) s = .next t ∧ s.ranInPlace t ∧ t.engine.queue = [] ∧
             t.engine.laneRun l = none ∧
             copied t = some { y with state := .written, verifyWaived := true, verifyDigest := some digest } ∧
             Event.ofClip .clipCopied d.card h ∈ t.engine.events) ∧
         (run.consistent = false →
           ∃ t, exec (.closeAnswer p .outstanding .ok) s = .next t ∧ s.ranInPlace t ∧ t.engine.queue = [] ∧
             t.engine.laneRun l = none ∧ copied t = some { y with state := .mismatch, verifyDigest := some digest } ∧
             t.engine.faults =
               ((s.engine.raiseFault s.settings (mismatch v)).raiseFault s.settings (mismatch w)).faults ∧
             ∀ ev ∈ t.engine.events, ev.kind ≠ .clipCopied)))) ∧
  (∀ (p : Fin 4) (l : Fin 2) (run : LaneRun) (d : Descriptor) (h : Handle) (c : Clip) (v : Fin 16) (k : Word32) (block : List Byte)
     (y : CopyRecord) (s : State),
     s.calm = true → s.engine.laneRun l = some run → s.engine.descriptor run.slot = some d → d.kind = .copy → d.clip = some h →
     s.engine.clipAt h = some c → s.engine.cards[d.card] ≠ none → c.copyOn v = some y → run.phase = .appending →
     ⟨v, p, .appending k⟩ ∈ run.targets → (run.targets.map (·.port)).Nodup → (run.targets.map (·.entry)).Nodup →
     (∃ x ∈ run.targets, x.entry ≠ v ∧ ∃ i, x.status = .appending i) →
     (s.engine.destPorts[p]).inflight = some ⟨.lane l, .append k block, false⟩ → (s.engine.destPorts[p]).waiting = [] →
     s.engine.entryAt p = some v →
     let ports := s.engine.destPorts.set p { s.engine.destPorts[p] with inflight := none }
     let went (x : TargetStatus) : LaneRun :=
       { run with targets := run.targets.map (fun u => if u.entry = v then { u with status := x } else u) }
     (∃ t, exec (.appendAnswer p .outstanding .ok) s = .next t ∧ s.ranInPlace t ∧
       t.engine = { s.blocks with destPorts := ports, lanes := s.engine.lanes.set l (.running (went (.isOpen k))) }) ∧
     (∀ a ∈ [AppendAnswer.noSpace, AppendAnswer.error],
       ∃ t, exec (.appendAnswer p .outstanding a) s = .next t ∧ s.ranInPlace t ∧ t.engine.queue = s.engine.queue ∧
         t.engine.destPorts = ports ∧ t.engine.laneRun l = some (went .dropped) ∧
         ((t.engine.clipAt h).bind (·.copyOn v)) = some { y with state := .failed } ∧
         { Event.ofClip .copyFailed d.card h with volume := some v } ∈ t.engine.events ∧
         (t.engine.volumes[v]).map (·.full) = if a = .noSpace then some true else (s.engine.volumes[v]).map (·.full))) ∧
  (∀ (p q : Fin 4) (l : Fin 2) (run : LaneRun) (d : Descriptor) (h : Handle) (c : Clip) (v w : Fin 16) (k i : Word32) (s : State),
     s.calm = true → s.engine.laneRun l = some run → s.engine.descriptor run.slot = some d → d.kind = .copy →
     d.source = some (.volume w) → d.clip = some h → s.engine.clipAt h = some c → s.engine.cards[d.card] ≠ none → p ≠ q →
     run.source = some ⟨w, q, .isOpen i⟩ → (s.engine.destPorts[p]).state = .online → (s.engine.destPorts[p]).waiting = [] →
     (s.engine.destPorts[q]).state = .online → (s.engine.destPorts[q]).waiting = [] →
     (∀ bytes : List Byte, run.phase = .reading → run.targets = [⟨v, p, .isOpen k⟩] → (s.engine.destPorts[p]).inflight = none →
       (s.engine.destPorts[q]).inflight = some ⟨.lane l, .read i d.progress bytes.length, false⟩ →
       ∃ t, exec (.volumeReadAnswer q .outstanding (.data bytes)) s = .next t ∧ s.ranInPlace t ∧
         t.engine = { s.blocks with
           destPorts := (s.engine.destPorts.set q { s.engine.destPorts[q] with inflight := none }).set p
             { s.engine.destPorts[p] with inflight := some ⟨.lane l, .append k bytes, false⟩, last := .lane l }
           lanes := s.engine.lanes.set l (.running { run with
             crcHigh := crcBytes polyHigh run.crcHigh bytes, crcLow := crcBytes polyLow run.crcLow bytes, block := bytes,
             lastPassed := decide (c.byteLength ≤ d.progress + bytes.length), phase := .appending,
             targets := [⟨v, p, .appending k⟩] }) }) ∧
     (∀ block : List Byte, run.phase = .appending → run.targets = [⟨v, p, .appending k⟩] → run.block = block →
       run.abortMark = false → (s.engine.destPorts[p]).inflight = some ⟨.lane l, .append k block, false⟩ →
       (s.engine.destPorts[q]).inflight = none → d.progress + block.length < c.byteLength →
       let done := d.progress + block.length
       ∃ t, exec (.appendAnswer p .outstanding .ok) s = .next t ∧ s.ranInPlace t ∧
         t.engine = { s.blocks with
           queue := s.engine.queue.map (fun x => if x.slot = d.slot then { d with progress := done } else x)
           destPorts := (s.engine.destPorts.set p { s.engine.destPorts[p] with inflight := none }).set q
             { s.engine.destPorts[q] with
               inflight := some ⟨.lane l, .read i done (min 1048576 (c.byteLength - done)), false⟩, last := .lane l }
           lanes := s.engine.lanes.set l (.running { run with
             targets := [⟨v, p, .isOpen k⟩], phase := .reading, block := [] }) })) ∧
  (∀ (e : Engine) (front back : List Descriptor) (d : Descriptor), e.queue = front ++ d :: back → (e.queue.map (·.slot)).Nodup →
     let reads (x : Descriptor) : Option (Fin 4 ⊕ Fin 16) := match x.source with
       | some .card => ((e.cards[x.card]).bind (·.attached)).map Sum.inl
       | some (.volume v) => some (Sum.inr v)
       | none => none
     let ofCard (x : Descriptor) : Prop := x.kind = .copy ∧ x.source = some .card
     let fits (before : List Descriptor) (x : Descriptor) : Prop :=
       x.state = .queued ∧
         (x.source = none ∨ (reads x ≠ none ∧ ∀ y ∈ e.queue, y.state = .running → reads y ≠ reads x)) ∧
         (ofCard x → ∀ y ∈ before, ¬ (ofCard y ∧ y.card = x.card))
     fits front d → (∀ a x b, front = a ++ x :: b → ¬ fits a x) → e.eligible = some d) ∧
  (∀ (g : Settings) (e : Engine) (l : Fin 2) (d : Descriptor) (h : Handle) (c : Clip) (r : CardRecord) (v : Fin 16) (p : Fin 4),
     e.idleLane = some l → e.lanes[l + 1] ≠ .idle → e.renderIdle = true → e.eligible = some d → d.kind = .copy →
     d.source = some .card → d.clip = some h → e.clipAt h = some c → c.handle = h → 0 < c.byteLength →
     e.cards[d.card] = some r → d.targets = [v] → e.portOf v = some p → (e.destPorts[p]).state = .online →
     (e.destPorts[p]).inflight = none → (e.destPorts[p]).waiting = [] →
     let t := e.settleTransfer g
     t.queue = e.queue.map (fun x => if x.slot = d.slot then { d with state := .running } else x) ∧
       t.destPorts = e.destPorts.set p
         { e.destPorts[p] with inflight := some ⟨.lane l, .openWrite (c.copyName r), false⟩, last := .lane l } ∧
       t.clipAt h = some { c with observed := 0, firstTc := none, lastTc := none, sampled := 0, skipped := 0 } ∧
       ∃ x, t.laneRun l = some x ∧ x.slot = d.slot ∧ x.phase = .opening ∧ x.targets = [⟨v, p, .opening⟩] ∧ x.crcHigh = crcOnes ∧
         x.crcLow = crcOnes ∧ x.parse.isSome = true) ∧
  (∀ (g : Settings) (e : Engine) (l : Fin 2) (d : Descriptor) (h : Handle) (c : Clip) (r : CardRecord), d.source = some .card →
     d.clip = some h → e.clipAt h = some c → c.handle = h →
     let t := e.startCopy g l d c r
     ((t.clipAt h).map (fun x => (x.observed, x.firstTc, x.lastTc, x.sampled, x.skipped)) = some (0, none, none, 0, 0) ∧
       (t.scans[l]).clip = some h) ∧
     ∀ run, e.laneRun l = some run → e.descriptor run.slot = some d → run.targets = [] → d.targets ≠ [] →
       (∀ v ∈ d.targets, e.portOf v = none) →
       t.laneRun l = none ∧ t.queue = e.queue.filter (fun x => decide (x.slot ≠ run.slot)) ∧
         ∀ v ∈ d.targets, { Event.ofClip .copyFailed d.card h with volume := some v } ∈ t.events ∧
           ∀ y, c.copyOn v = some y → (t.clipAt h).bind (·.copyOn v) = some { y with state := .failed })

/-- R70, R103, R104: a MANIFEST opens its object, appends the whole manifest and closes it; with the last one gone the RELEASING card is
RELEASED and CARD_RELEASED is signaled, whether the manifest was written or failed; a NO_SPACE answer sets the volume's full flag. -/
def Obligations.ManifestIsWrittenAndReleasesTheCard : Prop :=
  ∀ (p : Fin 4) (l : Fin 2) (run : LaneRun) (d : Descriptor) (r : CardRecord) (v : Fin 16) (s : State),
    s.calm = true → s.engine.requeues = [] → s.engine.laneRun l = some run → s.engine.queue = [d] → run.slot = d.slot →
    d.kind = .manifest → d.clip = none → d.targets = [v] → s.engine.cards[d.card] = some r → r.state = .releasing →
    s.engine.volumes[v] ≠ none → s.engine.entryAt p = some v → (s.engine.destPorts[p]).state = .online →
    (s.engine.destPorts[p]).waiting = [] →
    let q := s.engine.destPorts[p]
    let asked (request : OpRequest) := s.engine.destPorts.set p { q with inflight := some ⟨.lane l, request, false⟩, last := .lane l }
    let failed : Event := { Event.ofCard .copyFailed d.card with volume := some v }
    let ended (t : State) := t.engine.queue = [] ∧ t.engine.laneRun l = none ∧
      t.engine.cards[d.card] = some { r with state := .released } ∧ t.engine.clips = s.engine.clips ∧ t.engine.faults = s.engine.faults
    (∀ name k, run.phase = .opening → run.targets = [⟨v, p, .opening⟩] → q.inflight = some ⟨.lane l, .openWrite name, false⟩ →
      (∃ t, exec (.openWriteAnswer p .outstanding (.handle k)) s = .next t ∧ s.ranInPlace t ∧
        t.engine = { s.blocks with
          destPorts := asked (.append k run.block)
          lanes := s.engine.lanes.set l (.running { run with phase := .appending, targets := [⟨v, p, .isOpen k⟩] }) }) ∧
      (∃ t, exec (.openWriteAnswer p .outstanding .noSpace) s = .next t ∧ s.ranInPlace t ∧ ended t ∧
        (t.engine.volumes[v]).map (·.full) = some true ∧
        t.engine.events = [failed, Event.ofCard .cardReleased d.card])) ∧
    (∀ k block, run.phase = .appending → run.targets = [⟨v, p, .isOpen k⟩] → q.inflight = some ⟨.lane l, .append k block, false⟩ →
      (∃ t, exec (.appendAnswer p .outstanding .ok) s = .next t ∧ s.ranInPlace t ∧
        t.engine = { s.blocks with
          destPorts := asked (.close k)
          lanes := s.engine.lanes.set l (.running { run with phase := .closing }) }) ∧
      (∃ t, exec (.appendAnswer p .outstanding .error) s = .next t ∧ s.ranInPlace t ∧ ended t ∧
        t.engine.events = [failed, Event.ofCard .cardReleased d.card])) ∧
    (∀ k, run.phase = .closing → run.targets = [⟨v, p, .isOpen k⟩] → q.inflight = some ⟨.lane l, .close k, false⟩ →
      ∃ t, exec (.closeAnswer p .outstanding .ok) s = .next t ∧ s.ranInPlace t ∧ ended t ∧
        t.engine.events = [Event.ofCard .cardReleased d.card])

/-- R84, R91, R92, R186: a VERIFY reads the object block by block through the lane's Digest Unit and closes it; the compare makes the copy
VERIFIED, and the pair's unresolved DIGEST_MISMATCH records CLEARED, or MISMATCH; an object that cannot be opened or read, or whose length
differs, leaves the copy WRITTEN and signals COPY_FAILED. -/
def Obligations.VerifyReadsAndCompares : Prop :=
  ∀ (p : Fin 4) (l : Fin 2) (run : LaneRun) (d : Descriptor) (h : Handle) (c : Clip) (y : CopyRecord) (v : Fin 16)
    (x : SourceStatus) (op : OpRequest) (s : State),
    s.calm = true → s.engine.requeues = [] → s.engine.laneRun l = some run → s.engine.queue = [d] → run.slot = d.slot →
    d.kind = .verify → d.clip = some h → s.engine.clipAt h = some c → c.handle = h → d.targets = [v] → run.targets = [] →
    c.copyOn v = some y → y.state = .verifying → run.source = some ⟨v, p, x⟩ → (s.engine.destPorts[p]).state = .online →
    (s.engine.destPorts[p]).waiting = [] → (s.engine.destPorts[p]).inflight = some ⟨.lane l, op, false⟩ →
    let q := s.engine.destPorts[p]
    let asked (request : OpRequest) := s.engine.destPorts.set p { q with inflight := some ⟨.lane l, request, false⟩, last := .lane l }
    let failed (t : State) := t.engine.queue = [] ∧ t.engine.laneRun l = none ∧
      ((t.engine.clipAt h).bind (·.copyOn v)) = some { y with state := .written } ∧
      ∃ ev ∈ t.engine.events, ev.kind = .copyFailed ∧ ev.clip = some h ∧ ev.volume = some v
    (∀ name, run.phase = .opening → op = .openRead name →
      (∀ k, 0 < c.byteLength → d.progress = 0 →
        ∃ t, exec (.openReadAnswer p .outstanding (.handle k c.byteLength)) s = .next t ∧ s.ranInPlace t ∧
          t.engine = { s.blocks with
            destPorts := asked (.read k 0 (min 1048576 c.byteLength))
            lanes := s.engine.lanes.set l (.running { run with phase := .reading, source := some ⟨v, p, .isOpen k⟩ }) }) ∧
      (∀ a, (a = .notFound ∨ a = .error ∨ ∃ k n, a = .handle k n ∧ n ≠ c.byteLength) →
        ∃ t, exec (.openReadAnswer p .outstanding a) s = .next t ∧ s.ranInPlace t ∧ failed t)) ∧
    (∀ k n, run.phase = .reading → x = .isOpen k → op = .read k d.progress n →
      (∀ bytes : List Byte, bytes.length = n →
        let next := { run with crcHigh := crcBytes polyHigh run.crcHigh bytes, crcLow := crcBytes polyLow run.crcLow bytes }
        ∃ t, exec (.volumeReadAnswer p .outstanding (.data bytes)) s = .next t ∧ s.ranInPlace t ∧
          t.engine.queue = [{ d with progress := d.progress + n }] ∧ t.engine.clips = s.engine.clips ∧
          (d.progress + n < c.byteLength →
            t.engine.destPorts = asked (.read k (d.progress + n) (min 1048576 (c.byteLength - (d.progress + n)))) ∧
              t.engine.laneRun l = some { next with block := bytes }) ∧
          (c.byteLength ≤ d.progress + n →
            t.engine.destPorts = asked (.close k) ∧
              t.engine.laneRun l = some { next with block := [], phase := .closing, source := some ⟨v, p, .closing⟩ })) ∧
      (∃ t, exec (.volumeReadAnswer p .outstanding .error) s = .next t ∧ s.ranInPlace t ∧ failed t)) ∧
    (∀ k a, run.phase = .closing → x = .closing → op = .close k →
      let read := digestOf run.crcHigh run.crcLow
      ∃ t, exec (.closeAnswer p .outstanding a) s = .next t ∧ s.ranInPlace t ∧ t.engine.queue = [] ∧ t.engine.laneRun l = none ∧
        (c.sourceDigest = some read →
          ((t.engine.clipAt h).bind (·.copyOn v)) = some { y with state := .verified, verifyDigest := some read } ∧
          { Event.ofClip .clipVerified d.card h with volume := some v } ∈ t.engine.events ∧
          t.engine.faults = s.engine.faults.map (fun f =>
            if f.kind = .digestMismatch ∧ f.clip = h ∧ f.volume = some v ∧ f.unresolved = true then { f with state := .cleared }
            else f)) ∧
        (c.sourceDigest ≠ some read →
          ((t.engine.clipAt h).bind (·.copyOn v)) = some { y with state := .mismatch, verifyDigest := some read }))

/-! ## The Render Engine -/

/-- R128, R133, R135, R136, R138, R139, R140, R144: the source object of a proxy job opens at the clip's length, and its proxy object is
asked for; a length that differs, and an answer that is no handle, end the job, FAILED with SOURCE_LOST, and RENDER_FAILED is signaled.
With its proxy open the job walks its copy from the first block. At its range end any answer to the CLOSE of its source object brings the
CLOSE of its proxy object. That CLOSE answered OK ends it DONE: its clip takes the snapshot's
slot and version, CURRENT when they are those it is bound to and STALE otherwise, and RENDER_DONE is signaled; ERROR ends it FAILED with
PROXY_FAILED. A job suspended keeps its snapshot, next frame, proxy and under-runs at the head of the queue, at once outside a frame and
else at its boundary. (That the source object is closed before the proxy object is log 58, and that a suspension goes before a range end
log 48.) -/
def Obligations.RenderSourceOpensOrEndsTheJob : Prop :=
  (∀ (p q : Fin 4) (ctx : Fin 2) (j : Job) (run : ContextRun) (c : Clip) (r : CardRecord) (sn : Snapshot) (name : Text) (s : State),
     s.resetHeld = false → s.settings.silent = true → s.engine.lanesTaken = true → s.engine.pipeline = none →
     s.engine.jobs = [j] → s.engine.contexts[ctx] = ⟨.running j.slot run, none⟩ →
     s.engine.contexts[ctx + 1] = ⟨.draining, none⟩ → run.phase = .openingSource → j.snapshot = some sn →
     s.engine.clipAt j.clip = some c → s.engine.cards[j.card] = some r → j.outputs = .proxy → j.proxyPort = some q →
     j.proxy = none → p ≠ q → (s.engine.destPorts[p]).state = .online →
     (s.engine.destPorts[p]).inflight = some ⟨.context ctx, .openRead name, false⟩ → (s.engine.destPorts[p]).waiting = [] →
     (s.engine.destPorts[q]).state = .online → (s.engine.destPorts[q]).inflight = none → (s.engine.destPorts[q]).waiting = [] →
     (∀ k, ∃ t, exec (.openReadAnswer p .outstanding (.handle k c.byteLength)) s = .next t ∧ s.ranInPlace t ∧
       t.engine = { s.blocks with
         destPorts := (s.engine.destPorts.set p { s.engine.destPorts[p] with inflight := none }).set q
           { s.engine.destPorts[q] with
             inflight := some ⟨.context ctx, .openWrite (proxyName r.serial r.format c.takeName sn.slot sn.version), false⟩
             last := .context ctx }
         contexts := s.engine.contexts.set ctx
           ⟨.running j.slot { run with phase := .openingProxy, handle := some k, length := c.byteLength }, none⟩ }) ∧
     (∀ a, (a = .notFound ∨ a = .error ∨ ∃ k n, a = .handle k n ∧ n ≠ c.byteLength) →
       ∃ t, exec (.openReadAnswer p .outstanding a) s = .next t ∧ s.ranInPlace t ∧ t.engine.jobs = [] ∧
         t.engine.contextRun ctx = none ∧ ((t.engine.clipAt j.clip).map (·.renderState)) = some .failed ∧
         ∃ ev ∈ t.engine.events, ev.kind = .renderFailed ∧ ev.card = some j.card ∧ ev.clip = some j.clip ∧
           ev.render = some ⟨j.slot, .proxy, .failed .sourceLost, j.station, some (sn.slot, sn.version)⟩)) ∧
  (∀ (p q : Fin 4) (ctx : Fin 2) (j : Job) (run : ContextRun) (w : Fin 16) (i : Word32) (name : Text) (s : State),
     s.resetHeld = false → s.settings.silent = true → s.engine.lanesTaken = true → s.engine.pipeline = none →
     s.engine.jobs = [j] → s.engine.contexts[ctx] = ⟨.running j.slot run, none⟩ →
     s.engine.contexts[ctx + 1] = ⟨.draining, none⟩ → run.phase = .openingProxy → run.handle = some i → run.port = p →
     run.walk = RenderWalk.start → run.buffer = [] → run.readPos = 0 → 8 ≤ run.length → j.proxyPort = some q → p ≠ q →
     s.engine.entryAt q = some w → (s.engine.destPorts[q]).inflight = some ⟨.context ctx, .openWrite name, false⟩ →
     (s.engine.destPorts[q]).waiting = [] → (s.engine.destPorts[p]).state = .online →
     (∀ z, z ≠ q → (s.engine.destPorts[z]).inflight = none ∧ (s.engine.destPorts[z]).waiting = []) →
     (∀ k, ∃ t, exec (.openWriteAnswer q .outstanding (.handle k)) s = .next t ∧ s.ranInPlace t ∧
       t.engine = { s.blocks with
         jobs := [{ j with proxy := some ⟨w, k, 0⟩ }]
         contexts := s.engine.contexts.set ctx ⟨.running j.slot { run with phase := .walking }, none⟩
         destPorts := (s.engine.destPorts.set q { s.engine.destPorts[q] with inflight := none }).set p
           { s.engine.destPorts[p] with
             inflight := some ⟨.context ctx, .read i 0 (min 1048576 run.length), false⟩, last := .context ctx } }) ∧
     (∀ a ∈ [OpenWriteAnswer.noSpace, OpenWriteAnswer.error],
       ∃ t, exec (.openWriteAnswer q .outstanding a) s = .next t ∧ s.ranInPlace t ∧ t.engine.jobs = [] ∧
         t.engine.contextRun ctx = none ∧ ∃ ev ∈ t.engine.events, ev.kind = .renderFailed ∧ ev.clip = some j.clip ∧
           ev.render.map (fun x => (x.job, x.ending)) = some (j.slot, .failed .proxyFailed))) ∧
  (∀ (p q : Fin 4) (ctx : Fin 2) (j : Job) (run : ContextRun) (o : ProxyObject) (i : Word32) (s : State),
     s.resetHeld = false → s.settings.silent = true → s.engine.lanesTaken = true → s.engine.pipeline = none →
     s.engine.jobs = [j] → s.engine.contexts[ctx] = ⟨.running j.slot run, none⟩ →
     s.engine.contexts[ctx + 1] = ⟨.draining, none⟩ → run.phase = .closingSource → j.outputs ≠ .monitor → j.proxyPort = some q →
     j.proxy = some o → (s.engine.destPorts[p]).inflight = some ⟨.context ctx, .close i, false⟩ →
     (s.engine.destPorts[p]).waiting = [] → (s.engine.destPorts[q]).state = .online →
     (p ≠ q → (s.engine.destPorts[q]).inflight = none ∧ (s.engine.destPorts[q]).waiting = []) →
     ∀ a : CloseAnswer, ∃ t, exec (.closeAnswer p .outstanding a) s = .next t ∧ s.ranInPlace t ∧
       t.engine = { s.blocks with
         contexts := s.engine.contexts.set ctx ⟨.running j.slot { run with phase := .closing, handle := none }, none⟩
         destPorts := (s.engine.destPorts.set p { s.engine.destPorts[p] with inflight := none }).set q
           { s.engine.destPorts[q] with inflight := some ⟨.context ctx, .close o.handle, false⟩, last := .context ctx } }) ∧
  (∀ (q : Fin 4) (ctx : Fin 2) (j : Job) (run : ContextRun) (c : Clip) (o : ProxyObject) (sn : Snapshot) (s : State),
     s.resetHeld = false → s.settings.silent = true → s.engine.lanesTaken = true → s.engine.pipeline = none →
     s.engine.jobs = [j] → s.engine.contexts[ctx] = ⟨.running j.slot run, none⟩ →
     s.engine.contexts[ctx + 1] = ⟨.draining, none⟩ → run.phase = .closing → j.snapshot = some sn →
     s.engine.clipAt j.clip = some c → j.outputs = .proxy → j.proxyPort = some q → j.proxy = some o →
     (s.engine.destPorts[q]).inflight = some ⟨.context ctx, .close o.handle, false⟩ → (s.engine.destPorts[q]).waiting = [] →
     (∀ z, z ≠ q → (s.engine.destPorts[z]).inflight.map (·.who) ≠ some (.context ctx)) →
     let ending (x : JobEnd) : RenderInfo := ⟨j.slot, .proxy, x, j.station, some (sn.slot, sn.version)⟩
     let recorded (t : State) := (t.engine.clipAt j.clip).map (fun x => (x.rendered, x.renderState))
     (∃ t, exec (.closeAnswer q .outstanding .ok) s = .next t ∧ s.ranInPlace t ∧ t.engine.jobs = [] ∧
       t.engine.contexts[ctx] = ⟨.idle, none⟩ ∧ (t.engine.destPorts[q]).inflight = none ∧
       recorded t = some (some (sn.slot, sn.version),
         if c.binding.slot = some sn.slot ∧ (s.settings.looks[sn.slot]).version = sn.version then .current else .stale) ∧
       { Event.ofClip .renderDone j.card j.clip with render := some (ending .done) } ∈ t.engine.events) ∧
     (∃ t, exec (.closeAnswer q .outstanding .error) s = .next t ∧ s.ranInPlace t ∧ t.engine.jobs = [] ∧
       t.engine.contextRun ctx = none ∧
       recorded t = some (if c.rendered = some (sn.slot, sn.version) then none else c.rendered, .failed) ∧
       { Event.ofClip .renderFailed j.card j.clip with render := some (ending (.failed .proxyFailed)) } ∈ t.engine.events)) ∧
  (∀ (g : Settings) (e : Engine) (ctx : Fin 2) (j : Fin 16) (run : ContextRun) (x : Job), e.contextRun ctx = some (j, run) →
     e.job j = some x → (e.jobs.map (·.slot)).Nodup →
     (let t := e.suspendContext ctx
      t.contexts[ctx] =
        ⟨if ∃ p : Fin 4, (e.destPorts[p]).inflight.map (·.who) = some (.context ctx) then .draining else .idle,
          (e.contexts[ctx]).claim⟩ ∧
        ∃ y, t.jobs = y :: e.jobs.filter (fun z => decide (z.slot ≠ j)) ∧ y.slot = j ∧ y.state = .suspended ∧
          y.suspendMark = false ∧ y.snapshot = x.snapshot ∧ y.nextFrame = x.nextFrame ∧ y.underruns = x.underruns ∧
          y.proxy.map (fun o => (o.entry, o.handle)) = x.proxy.map (fun o => (o.entry, o.handle))) ∧
     (x.cancelMark = false → x.suspendMark = true → e.frameBoundary g ctx = e.suspendContext ctx) ∧
     (∀ new : Fin 16, ctx = e.lastJobGrant →
       (run.insideFrame = false → e.claimBySuspension new = (e.setClaim ctx (some new)).suspendContext ctx) ∧
       (run.insideFrame = true →
         e.claimBySuspension new = (e.setClaim ctx (some new)).updateJob j (fun y => { y with suspendMark := true }))))

/-! ## The sampler and the frame clock -/

/-- R56, R164, R165, R166, R168, R169, R170, R171, R179: a fault that finds no record of its key and room makes one, at its severity and
under a new number, and FAULT_RAISED is signaled. A frame report raises FRAME_NUMBER where its number is not the one after the previous
frame's, TC_BREAK where its label is invalid or jumps, and FROZEN once as its run of equal checks reaches the frozen run; a take-end report
raises COUNT_MISMATCH where its counts differ. A frame that passed the size check is counted and observed, raises PIXEL_WORD and FRAME_CHECK,
is judged, and enters the lane's empty pending slot, or is skipped. The samples are every stride-th pixel. The sampler's completion empties
the slot; a frame of a stale handle is discarded; a clip fraction above the limit raises SENSOR_CLIP; and a frame of the present parse moves
the black run on and raises BLACK once as it reaches the black run. (The order of the judgements of one report is
log 50, and that PIXEL_WORD and FRAME_CHECK of a frame reach the fault list in this order and before them is log 63, each the model's choice;
that a completion with an empty slot changes nothing is log 35, and how
a frame is known to be of the present parse, and the serial of a fault record, log 28.) -/
def Obligations.ScannerJudgesFramesTakesAndSamples : Prop :=
  (∀ (g : Settings) (e : Engine) (f : FaultInput) (c : Clip), e.clipAt f.clip = some c → e.faults.length < 256 →
     (∀ x ∈ e.faults, x.unresolved = true → ¬ (x.kind = f.kind ∧ x.clip = f.clip ∧ x.volume = f.volume)) →
     ∃ n, (∀ x ∈ e.faults, x.number ≠ n) ∧
       let s := e.arrivingSeverity g f.kind f.card
       e.raiseFault g f = { e with
         faults := e.faults ++
           [⟨e.faultSerial, n, f.kind, s, .isOpen, f.clip, f.card, f.volume, f.first, f.last, f.tc, f.measured, 1⟩]
         faultCounter := n
         faultSerial := e.faultSerial + 1
         events := e.events ++ [⟨.faultRaised, some f.card, some f.clip, f.volume, some n, some s, none⟩] }) ∧
  (∀ (g : Settings) (e : Engine) (x : FrameReport),
     let fault (kind : FaultKind) (measured : Option Int) : FaultInput :=
       ⟨kind, x.clip, x.card, none, some x.number, some x.number, some x.tc, measured⟩
     let old := e.scans[x.lane]
     let same : Bool := decide (x.previous.map (·.check) = some x.check)
     let run : ScanContext := { old with
       frozenCount := if same then min 255 (old.frozenCount + 1) else 1
       frozenStart := if same then old.frozenStart else some (x.number, x.tc)
       frozenRaised := same && old.frozenRaised }
     (x.previous = none → e.judgeReport g x = e.judgeFrozen g x) ∧
     (∀ p, x.previous = some p →
       let numbered := if x.number = p.number + 1 then e
         else e.raiseFault g (fault .frameNumber (some (x.number - (p.number + 1)).toInt))
       let jump := labelJump x.rate x.drop p.tc x.tc
       let timed :=
         if labelValid x.rate x.drop x.tc = false then numbered.raiseFault g (fault .tcBreak none)
         else if labelValid x.rate x.drop p.tc = false ∨ jump = 0 then numbered
         else numbered.raiseFault g (fault .tcBreak (some jump))
       e.judgeReport g x = timed.judgeFrozen g x) ∧
     e.judgeFrozen g x =
       if g.profile.frozenRun ≤ run.frozenCount ∧ run.frozenRaised = false then
         { e with scans := e.scans.set x.lane { run with frozenRaised := true } }.raiseFault g
           ⟨.frozen, x.clip, x.card, none, run.frozenStart.map Prod.fst, some x.number, run.frozenStart.map Prod.snd, none⟩
       else { e with scans := e.scans.set x.lane run }) ∧
  (∀ (g : Settings) (e : Engine) (h : Handle) (card : Fin 32) (observed declared : Nat),
     e.judgeTakeEnd g h card observed none = e ∧ e.judgeTakeEnd g h card observed (some observed) = e ∧
     (observed ≠ declared → e.judgeTakeEnd g h card observed (some declared) =
       e.raiseFault g ⟨.countMismatch, h, card, none, none, none, none,
         some (max (-2147483648) (min 2147483647 ((observed : Int) - declared)))⟩)) ∧
  (∀ (g : Settings) (e : Engine) (x : FrameReport) (carried : Word32) (bad width height : Nat) (pixels : List Rgb) (c : Clip),
     e.clipAt x.clip = some c →
     let put (y : Clip) : Engine := { e with clips := e.clips.set x.clip.slot ⟨x.clip.gen, some y⟩ }
     let fault (kind : FaultKind) (measured : Option Int) : FaultInput :=
       ⟨kind, x.clip, x.card, none, some x.number, some x.number, some x.tc, measured⟩
     let counted := put { c with
       observed := min 4294967295 (c.observed + 1), lastTc := some x.tc, firstTc := some (c.firstTc.getD x.tc) }
     let worded := if bad = 0 then counted else counted.raiseFault g (fault .pixelWord (some (bad : Int)))
     let checked := if x.check = carried then worded else worded.raiseFault g (fault .frameCheck none)
     e.parsedFrame g x carried bad width height pixels = (checked.judgeReport g x).framePicture g x width height pixels ∧
     (e.sampler[x.lane] = none →
       e.framePicture g x width height pixels = { put { c with sampled := min 4294967295 (c.sampled + 1) } with
         sampler := e.sampler.set x.lane (some ⟨x.clip, x.card, x.number, x.tc, width, height, pixels, g.profile.stride,
           g.profile.clipThreshold, (e.scans[x.lane]).parse⟩) }) ∧
     (e.sampler[x.lane] ≠ none →
       e.framePicture g x width height pixels = put { c with skipped := min 4294967295 (c.skipped + 1) })) ∧
  (∀ f : PendingFrame, 0 < f.stride → f.pixels.length = f.width * f.height →
     f.samples.length = (f.width * f.height + f.stride - 1) / f.stride ∧
     f.samples = (List.range f.samples.length).filterMap (fun i => f.pixels[i * f.stride]?) ∧
     f.clipFraction = (f.samples.filter (fun x => decide (f.threshold ≤ max x.r (max x.g x.b)))).length * 65536 / f.samples.length ∧
     f.averageLuma = (f.samples.map (fun x => (218 * x.r + 732 * x.g + 74 * x.b + 512) / 1024)).sum / f.samples.length) ∧
  (∀ (l : Fin 2) (s : State), s.resetHeld = false → s.settings.silent = true →
     let emptied := { s.blocks with sampler := s.engine.sampler.set l none }
     (s.engine.sampler[l] = none →
       ∃ t, exec (.samplerCompletion l) s = .next t ∧ s.ranInPlace t ∧ t.engine = s.blocks) ∧
     (∀ f, s.engine.sampler[l] = some f → s.engine.clipAt f.clip = none →
       ∃ t, exec (.samplerCompletion l) s = .next t ∧ s.ranInPlace t ∧ t.engine = emptied) ∧
     (∀ f c, s.engine.sampler[l] = some f → s.engine.clipAt f.clip = some c →
       let profile := s.settings.profile
       let clipped := if profile.clipLimit < f.clipFraction then
           emptied.raiseFault s.settings ⟨.sensorClip, f.clip, f.card, none, some f.number, some f.number, some f.tc,
             some (f.clipFraction : Int)⟩
         else emptied
       let old := s.engine.scans[l]
       let run : ScanContext :=
         if f.averageLuma < profile.blackLimit then
           { old with
             blackCount := min 255 (old.blackCount + 1)
             blackStart := if old.blackCount = 0 then some (f.number, f.tc) else old.blackStart }
         else { old with blackCount := 0, blackStart := none, blackRaised := false }
       ∃ t, exec (.samplerCompletion l) s = .next t ∧ s.ranInPlace t ∧
         t.engine =
           if old.parse ≠ f.parse then clipped
           else if profile.blackRun ≤ run.blackCount ∧ run.blackRaised = false then
             { clipped with scans := s.engine.scans.set l { run with blackRaised := true } }.raiseFault s.settings
               ⟨.black, f.clip, f.card, none, run.blackStart.map Prod.fst, some f.number, run.blackStart.map Prod.snd,
                 some (f.averageLuma : Int)⟩
           else { clipped with scans := s.engine.scans.set l run }))

/-- R148, R156, R160, R161: at an internal sync a READY back buffer becomes the front, else a blanking is shown as black, else the front
is shown again, black or a picture, with an under-run counted against the monitor job once its first frame has been shown, and
MONITOR_UNDERRUN signaled for the first of a run; the front is sent at the monitor rate, its raster as it stands by then, marked as a repeat
when it was sent at the sync before, and a picture whose check differs from the one written with it raises OUTPUT_PATH; the next sync comes
one period later. This is said with no link entry written and of every state of the render contexts, by `Engine.showsTheFront`: the Render
Engine then goes on, its moves leave the front, the frame sent, the clock, the events already signaled and the under-run counts as they
are, and where it waits (after reset, with no job, with both contexts DRAINING, or with RUNNING jobs that wait for answers) it makes none.
With the checker LOCKED no internal sync occurs (log 22). (What damage a sync brings to the raster is log 34. That a front which was BLACK and sent already counts as sent at the sync
before, and so as a repeat, when blanking makes it BLACK again, is the model's choice, log 60, and so is the later of now and the next-sync
time as the time of the step, log 2.) -/
def Obligations.SyncSettlesAndSendsTheFront : Prop :=
  ∀ (damage : Damage) (s : State), s.resetHeld = false → s.settings.silent = true →
    let m := s.engine.monitor
    (m.checker = .locked → ∃ t, exec (.sync damage) s = .next t ∧ s.ranInPlace t ∧ t.engine = s.blocks) ∧
    (m.checker ≠ .locked →
      ∃ t, exec (.sync damage) s = .next t ∧ s.ranBlocks t ∧ t.now = max s.now m.nextSync ∧ t.seated = s.seated ∧
        t.mounted = s.mounted ∧
        Engine.showsTheFront s.settings { s.blocks with monitor := { m with nextSync := m.nextSync + Config.period m.rate } }
          m.nextSync damage t.engine)

/-- R151, R152, R153: a pulse is discarded with the checker OFF; UNLOCKED counts the pulses in window, and at 8 locks to the pulse and
signals REFERENCE_RESTORED, with a sync when the last one lies half a period back; LOCKED takes a sync from each pulse in window, and at one
out of window, or when the second expected period after the last good pulse expires, the reference is lost: REFERENCE_LOST is signaled, and
the clock goes on in the phase of the last good pulse, with a sync at once when that falls on the loss. This is said with no link entry
written and of every state of the render contexts. Each of these syncs settles and sends the front as R156 gives, by
`Engine.showsTheFront`; without one nothing but the clock, the checker and the event has changed. (That the sync of a loss is of the same step is log 16, and that the first lock of a part that has had no sync
is one log 29. That a reference time-out with the checker not LOCKED changes nothing is the model's choice, log 3, and so are
`State.now`, the time of the step that it then holds, and the premise that the step is not earlier than it, log 2; what damage a sync
brings to the raster is log 34, and the repeat mark of a BLACK front that is blanked log 60.) -/
def Obligations.PulsesLockAndLoseTheReference : Prop :=
  ∀ (time : Nat) (damage : Damage) (s : State), s.resetHeld = false → s.settings.silent = true → s.now ≤ time →
    let m := s.engine.monitor
    let period := Config.period m.rate
    let inWindow := match m.prevPulse with
      | some x => decide (((time : Int) - x - period).natAbs * 1000 < period)
      | none => false
    let synced (t : State) (x : Engine) (at_ : Nat) : Prop := x.showsTheFront s.settings at_ damage t.engine
    let lost (t : State) (at_ : Nat) (pulse : Option Nat) : Prop :=
      let left (next : Nat) : Engine := { s.blocks with
        monitor := { m with checker := .unlocked, inWindow := 0, prevPulse := pulse, nextSync := next }
        events := [Event.bare .referenceLost] }
      t.engine.monitor.checker = .unlocked ∧ t.engine.monitor.inWindow = 0 ∧ t.engine.monitor.prevPulse = pulse ∧
        Event.bare .referenceLost ∈ t.engine.events ∧
        ∀ good, m.lastGood = some good → good ≤ at_ →
          ∃ k, at_ ≤ good + k * period ∧ good + k * period < at_ + period ∧
            t.engine.monitor.nextSync = (if good + k * period = at_ then at_ + period else good + k * period) ∧
            (good + k * period = at_ → t.engine.monitor.lastSync = some at_ ∧ synced t (left (at_ + period)) at_) ∧
            (good + k * period ≠ at_ → t.engine = left (good + k * period))
    (∃ t, exec (.referencePulse time damage) s = .next t ∧ s.ranBlocks t ∧ t.now = time ∧ t.seated = s.seated ∧
      t.mounted = s.mounted ∧
      (m.checker = .off → t.engine = s.blocks) ∧
      (m.checker = .unlocked → inWindow = false →
        t.engine = { s.blocks with monitor := { m with inWindow := 0, prevPulse := some time } }) ∧
      (m.checker = .unlocked → inWindow = true → m.inWindow + 1 ≠ 8 →
        t.engine = { s.blocks with monitor := { m with inWindow := m.inWindow + 1, prevPulse := some time } }) ∧
      (m.checker = .unlocked → inWindow = true → m.inWindow + 1 = 8 →
        let left : Engine := { s.blocks with
          monitor := { m with checker := .locked, inWindow := 0, prevPulse := some time, lastGood := some time }
          events := [Event.bare .referenceRestored] }
        t.engine.monitor.checker = .locked ∧ t.engine.monitor.inWindow = 0 ∧ t.engine.monitor.lastGood = some time ∧
          t.engine.monitor.prevPulse = some time ∧ Event.bare .referenceRestored ∈ t.engine.events ∧
          (∀ last, m.lastSync = some last →
            t.engine.monitor.lastSync = (if period ≤ 2 * (time - last) then some time else some last) ∧
            (period ≤ 2 * (time - last) → synced t left time) ∧ (2 * (time - last) < period → t.engine = left)) ∧
          (m.lastSync = none → synced t left time)) ∧
      (m.checker = .locked → inWindow = true →
        t.engine.monitor.checker = .locked ∧ t.engine.monitor.lastGood = some time ∧ t.engine.monitor.prevPulse = some time ∧
          t.engine.monitor.lastSync = some time ∧ t.engine.monitor.nextSync = m.nextSync ∧
          synced t { s.blocks with monitor := { m with prevPulse := some time, lastGood := some time } } time) ∧
      (m.checker = .locked → inWindow = false → lost t time (some time))) ∧
    (m.checker ≠ .locked → ∃ t, exec (.referenceTimeout damage) s = .next t ∧ s.ranInPlace t ∧ t.engine = s.blocks) ∧
    (m.checker = .locked → ∀ good, m.lastGood = some good → s.now ≤ good + 2 * period →
      ∃ t, exec (.referenceTimeout damage) s = .next t ∧ s.ranBlocks t ∧ t.now = good + 2 * period ∧ t.seated = s.seated ∧
        t.mounted = s.mounted ∧ lost t (good + 2 * period) m.prevPulse)

/-! ## The Event Link Matrix -/

/-- R190, R194, R195, R196, R197, R198, R199: a REQUEUE_COPY on COPY_FAILED is skipped without a copy record and at generation 3; else it
places the pair of clip and volume in the pending requeue list at the generation after its copy record's, where the descriptor that signaled
the event still names it, and asks for the requeue at once where no descriptor does; a second such entry, which meets the descriptor that
the first one queued, is skipped. The list holds at most 8 distinct pairs, and a pair already in it keeps its place and takes the higher
generation. On VOLUME_INSERTED the PARTIAL, FAILED and MISMATCH records below generation 3 are requeued alike, or asked for at once. An entry
matches by its kind, its camera filter and its minimum severity, and takes its action once, as the request it stands for, or is skipped; the
actions follow the changes of the step that signaled the event. (The model's own: that the matrix takes the events at the end of the step,
log 10; that the pair of a failed VERIFY, whose record is WRITTEN, waits, log 30; that the descriptor which signaled is known by a FAILED
record, and one that an earlier entry queued by another, log 61; that a ninth pair is dropped, log 51.) -/
def Obligations.PendingRequeuesStayDistinct : Prop :=
  ((∀ (xs : List Requeue) (x : Requeue), (xs.map (fun y => (y.clip, y.volume))).Nodup → xs.length ≤ 8 →
     let ys := placeRequeue xs x
     (ys.map (fun y => (y.clip, y.volume))).Nodup ∧ ys.length ≤ 8 ∧
       ((x.clip, x.volume) ∈ xs.map (fun y => (y.clip, y.volume)) →
         ys.map (fun y => (y.clip, y.volume)) = xs.map (fun y => (y.clip, y.volume)) ∧
         ∀ (k : Nat) (y z : Requeue), xs[k]? = some y → ys[k]? = some z →
           z.generation = if y.clip = x.clip ∧ y.volume = x.volume then max y.generation x.generation else y.generation) ∧
       ((x.clip, x.volume) ∉ xs.map (fun y => (y.clip, y.volume)) → xs.length < 8 → ys = xs ++ [x])) ∧
   (∀ (g : Settings) (e : Engine) (h : Handle) (v : Fin 16) (c : Clip), e.clipAt h = some c →
     (c.copyOn v = none → e.requeueFailed g h v = e) ∧
     (∀ r, c.copyOn v = some r →
       (3 ≤ r.generation → e.requeueFailed g h v = e) ∧
       (r.generation < 3 →
         let placed := { e with requeues := placeRequeue e.requeues ⟨h, v, r.generation + 1⟩ }
         (r.state = .failed → (∃ d ∈ e.queue, d.namesPair h v = true) → e.requeueFailed g h v = placed) ∧
         (r.state = .written → e.requeueFailed g h v = placed) ∧
         (r.state ≠ .written → (∀ d ∈ e.queue, d.namesPair h v = false) →
           e.requeueFailed g h v = e.requeue g h v (r.generation + 1)) ∧
         (r.state ≠ .failed → r.state ≠ .written → c.handle = h → (∀ p, e.portOf v = some p → e.entryAt p = some v) →
           (∃ d ∈ e.queue, d.namesPair h v = true) → e.requeueFailed g h v = e))))) ∧
  (∀ (g : Settings) (e : Engine) (h : Handle) (v : Fin 16) (c : Clip) (r : CopyRecord), e.clipAt h = some c → c.copyOn v = some r →
     let redone : Prop := (r.state = .partialCopy ∨ r.state = .failed ∨ r.state = .mismatch) ∧ r.generation < 3
     (redone → (∃ d ∈ e.queue, d.namesPair h v = true) →
       e.requeueInserted g v h = { e with requeues := placeRequeue e.requeues ⟨h, v, r.generation + 1⟩ }) ∧
     (redone → (∀ d ∈ e.queue, d.namesPair h v = false) → e.requeueInserted g v h = e.requeue g h v (r.generation + 1)) ∧
     (¬ redone → e.requeueInserted g v h = e) ∧
     (∀ (p : Fin 4) (generation : Nat), e.portOf v = some p →
       e.requeue g h v generation =
         match e.queueRecopy g c (BitVec.ofNat 4 (2 ^ p.val)) generation with
         | .ok (_, _, _, t) => t.settleTransfer g
         | .error _ => e)) ∧
  (∀ (e : Engine) (ev : Event) (x : LinkEntry) (camera : Option Byte),
     (∀ h c, ev.clip = some h → e.clipAt h = some c → e.cameraOfEvent ev = c.header.map (·.camera)) ∧
     (∀ k, ev.clip = none → ev.card = some k →
       e.cameraOfEvent ev = (((e.clipsOf k).filter (fun c => c.header.isSome)).head?.bind (·.header)).map (·.camera)) ∧
     (ev.clip = none → ev.card = none → e.cameraOfEvent ev = none) ∧
     (x.matchesEvent ev camera = true ↔ x.enabled = true ∧ x.kind = ev.kind ∧ (x.camera = none ∨ x.camera = camera) ∧
       ∀ v, ev.severity = some v → x.severity.rank ≤ v.rank)) ∧
  (∀ (g : Settings) (e : Engine) (ev : Event) (x : LinkEntry),
     (∀ y, ev.card = some y → x.action = .holdCard →
       e.act g x ev = match e.holdCard y with | .ok t => t | .error _ => e) ∧
     (∀ h, ev.clip = some h → x.action = .queueRender →
       e.act g x ev = match e.queueRender g x.writer h.slot h.gen .whole x.parameter with | .ok (_, t) => t | .error _ => e) ∧
     (∀ h, ev.clip = some h → x.action = .cueMonitor →
       e.act g x ev = match e.cueMonitor g x.writer h.slot h.gen .whole false none with | .ok (_, t) => t | .error _ => e) ∧
     (∀ h, ev.clip = some h → x.action = .cancelRenders → e.act g x ev = e.cancelRenders g h) ∧
     (ev.card = none → x.action = .holdCard → e.act g x ev = e) ∧
     (ev.clip = none → (x.action = .queueRender ∨ x.action = .cueMonitor ∨ x.action = .cancelRenders) → e.act g x ev = e) ∧
     (x.action = .pauseRenderQueue → e.act g x ev = { e with paused := true }) ∧
     (∀ h v, ev.kind = .copyFailed → ev.clip = some h → ev.volume = some v → x.action = .requeueCopy →
       e.act g x ev = e.requeueFailed g h v) ∧
     (∀ v, ev.kind = .volumeInserted → ev.volume = some v → x.action = .requeueCopy →
       e.act g x ev = (e.allClips.map (·.handle)).foldl (fun t h => t.requeueInserted g v h) e)) ∧
  (∀ s : State, s.resetHeld = false →
     let linked (t : State) (x : Engine) : Prop :=
       s.ranBlocks t ∧ t.engine = (x.events.foldl (fun y ev => s.settings.links.toList.foldl
         (fun y entry => match entry with
           | some z => if z.matchesEvent ev (y.cameraOfEvent ev) then y.act s.settings z ev else y
           | none => y) y) x).afterRemoval s.settings
     (∀ p, ∃ t, exec (.absent p) s = .next t ∧ linked t ((s.blocks.cardLeaves s.settings p).settleTransfer s.settings)) ∧
     (∀ p, ∃ t, exec (.removed p) s = .next t ∧ linked t (s.blocks.driveLeaves s.settings p)) ∧
     (∀ p a, ∃ t, exec (.identifyAnswer p .outstanding a) s = .next t ∧ linked t (s.blocks.identified s.settings p a)) ∧
     (∀ p a, ∃ t, exec (.closeAnswer p .outstanding a) s = .next t ∧
       linked t (s.blocks.operationAnswered s.settings p (closeReply a))) ∧
     (∀ l, ∃ t, exec (.samplerCompletion l) s = .next t ∧ linked t (s.blocks.sampleComplete s.settings l)))

/-! ## Graded frames -/

/-- R118, R125, R137, R138, R139, R154, R155, R172: the idle pipeline is granted to the one context that asks for it, and of two to the monitor
job's, else to the one not granted last; a context asks with a frame in range waiting, but not for the monitor job while the back buffer
is READY. Pixel bytes that do not complete the frame in the pipeline add their pixels, and the clamped ones among them, to its counts, and
the monitor job's reach the back buffer; a complete frame raises GRADE_CLAMP where the clamp fraction of all its pixels is above the
limit, and leaves the pipeline idle, and the frame that the monitor job was filling is READY
with its number, its timecode and its write check; a proxy job's is appended to its proxy as a FRAM chunk, in blocks. A delivered frame
moves the job's next frame on, and the last of its range brings the range end: a loop that has delivered a frame restarts, and another
job asks for the CLOSE of its source object, which waits while the port is busy; a monitor-only job ends DONE when that CLOSE has been
sent, in the same step with the port idle. (That the source object is closed before the proxy object is log 58, and that the job lasts
until its CLOSE is sent log 17.) -/
def Obligations.GradedFrameReachesTheBackBuffer : Prop :=
  (∀ (g : Settings) (e : Engine) (c : Fin 2) (j : Fin 16) (run : ContextRun) (f : PipelineFrame),
     (e.contexts[c]).state = .running j run → e.pipeline = some f → f.context = c →
     (∀ (h : Header) (s : Snapshot), run.buffer.length < run.walk.left →
       let pixels := (decodePixels h.depth (run.pixelBytes ++ run.buffer).length (run.pixelBytes ++ run.buffer)).1
       let graded := pixels.map (gradePixel s.params)
       let t := e.gradeBytes g c j run f h s
       t.pipeline = some { f with graded := f.graded + pixels.length, clamped := f.clamped + (graded.filter (·.2)).length } ∧
         t.monitor = (if e.monitor.cue.job = some j then
           e.monitor.writePixels g.monitor.decimation j f.clip f.card f.width f.height f.graded (graded.map (·.1))
           else e.monitor) ∧
         (t.contextRun c).map (fun x => (x.2.buffer, x.2.walk.left)) = some ([], run.walk.left - run.buffer.length)) ∧
     (e.frameComplete g c j f).pipeline = none ∧
       ∀ b, e.monitor.back = .filling b → b.job = j → e.monitor.cue.job = some j →
         (e.frameComplete g c j f).monitor.back =
           .ready ⟨b.job, b.clip, b.card, f.number, f.tc, b.raster, rasterCheck b.raster⟩) ∧
  (∀ (g : Settings) (e : Engine) (c : Fin 2) (j : Fin 16) (f : PipelineFrame),
     let judged (fraction : Nat) : Engine :=
       if g.profile.gradeClampLimit < fraction then
         e.raiseFault g ⟨.gradeClamp, f.clip, f.card, none, some f.number, some f.number, some f.tc, some (fraction : Int)⟩
       else e
     (e.frameComplete g c j f).faults = (judged (f.clamped * 65536 / f.graded)).faults ∧
     ∀ (run : ContextRun) (h : Header) (s : Snapshot), run.walk.left ≤ run.buffer.length → f.graded ≤ f.width * f.height →
       run.pixelBytes.length + run.walk.left = (f.width * f.height - f.graded) * h.depth.bytes →
       let bytes := run.pixelBytes ++ run.buffer.take run.walk.left
       let pixels := (decodePixels h.depth bytes.length bytes).1
       let clamped := f.clamped + ((pixels.map (gradePixel s.params)).filter (·.2)).length
       pixels.length = f.width * f.height - f.graded ∧
         (e.gradeBytes g c j run f h s).faults = (judged (clamped * 65536 / (f.width * f.height))).faults) ∧
  (∀ e : Engine,
     let asks (c : Fin 2) : Prop := ∃ j run, e.contextRun c = some (j, run) ∧ run.phase = .walking ∧ run.walk.mode = .pixels ∧
       run.insideFrame = false ∧ run.frame ≠ none ∧ ¬ (e.monitor.cue.job = some j ∧ e.monitor.back.isReady = true)
     let monitors (c : Fin 2) : Prop := ∃ j run, e.contextRun c = some (j, run) ∧ e.monitor.cue.job = some j
     (¬ asks 0 → ¬ asks 1 → e.pipelineChoice = none) ∧ (asks 0 → ¬ asks 1 → e.pipelineChoice = some 0) ∧
     (¬ asks 0 → asks 1 → e.pipelineChoice = some 1) ∧ (asks 0 → asks 1 → monitors 0 → e.pipelineChoice = some 0) ∧
     (asks 0 → asks 1 → ¬ monitors 0 → monitors 1 → e.pipelineChoice = some 1) ∧
     (asks 0 → asks 1 → ¬ monitors 0 → ¬ monitors 1 → e.pipelineChoice = some (e.lastPipeline + 1)) ∧
     (e.pipeline ≠ none → e.grantPipeline = none) ∧
     (∀ (c : Fin 2) (j : Fin 16) (run : ContextRun) (x : Job) (f : RenderFrame) (h : Header), e.pipeline = none →
       e.pipelineChoice = some c → e.contextRun c = some (j, run) → e.job j = some x → run.frame = some f →
       run.walk.header = some h →
       ∃ t, e.grantPipeline = some t ∧ t.lastPipeline = c ∧ t.contextRun c = some (j, { run with insideFrame := true }) ∧
         t.pipeline = some ⟨c, j, x.clip, x.card, f.number, f.tc, h.width, h.height, 0, 0⟩)) ∧
  (∀ (g : Settings) (e : Engine) (c : Fin 2) (j : Fin 16) (run : ContextRun) (f : PipelineFrame) (x : Job) (p : Fin 4)
     (o : ProxyObject), e.contextRun c = some (j, run) → e.job j = some x → x.outputs ≠ .monitor → x.proxyPort = some p →
     x.proxy = some o → (e.destPorts[p]).state = .online → (e.destPorts[p]).inflight = none → (e.destPorts[p]).waiting = [] →
     let payload := leBytes 4 f.number.toNat ++ timecodeBytes f.tc ++ leBytes 4 (frameCheck run.frameStore).toNat ++ run.frameStore
     let chunk := ascii "FRAM" ++ leBytes 4 payload.length ++ payload
     let t := e.frameComplete g c j f
     (t.destPorts[p]).inflight = some ⟨.context c, .append o.handle (chunk.take 1048576), false⟩ ∧
       ∃ y, t.contextRun c = some (j, y) ∧ y.phase = .frameAppending ∧ y.frameStore = [] ∧ y.toAppend.flatten = chunk ∧
         y.toAppend.head? = some (chunk.take 1048576) ∧ (∀ b ∈ y.toAppend.dropLast, b.length = 1048576) ∧
         ∀ b ∈ y.toAppend, b ≠ [] ∧ b.length ≤ 1048576) ∧
  (∀ (g : Settings) (e : Engine) (c : Fin 2) (j : Fin 16) (run : ContextRun) (x : Job), e.contextRun c = some (j, run) →
     e.job j = some x →
     (∀ f, (e.jobs.map (·.slot)).Nodup → run.frame = some f → x.cancelMark = false → x.suspendMark = false →
       let last : Bool := match x.range with
         | .whole => false
         | .frames _ n => decide (n ≤ f.position)
         | .timecode _ o => sameLabel f.tc o
       let moved := (e.updateJob j (fun y => { y with nextFrame := some (f.position + 1), rangeDone := last })).updateContext c
         (fun r => { r with phase := .walking, insideFrame := false, frame := none, delivered := r.delivered + 1 })
       e.frameDelivered g c = if last then moved.rangeEnd g c else moved) ∧
     (x.loop = true → 0 < run.delivered →
       e.rangeEnd g c = (e.updateJob j (fun y => { y with nextFrame := none, rangeDone := false })).updateContext c (fun r =>
         { r with phase := .walking, readPos := 0, buffer := [], walk := RenderWalk.start, frame := none, delivered := 0 })) ∧
     ((x.loop = false ∨ run.delivered = 0) → ∀ k, run.handle = some k → (e.destPorts[run.port]).state = .online →
       let closing : Engine := e.updateContext c (fun r => { r with phase := .closingSource })
       let close : Operation := ⟨.context c, .close k, false⟩
       (x.outputs ≠ .monitor → (e.destPorts[run.port]).inflight = none → (e.destPorts[run.port]).waiting = [] →
         e.rangeEnd g c = { closing with
           destPorts := e.destPorts.set run.port { e.destPorts[run.port] with inflight := some close, last := .context c } }) ∧
       (¬ ((e.destPorts[run.port]).inflight = none ∧ (e.destPorts[run.port]).waiting = []) → (∀ z : Fin 4, (e.destPorts[z]).inflight.map (·.who) ≠ some (.context c)) →
         e.rangeEnd g c = { closing with
           destPorts := e.destPorts.set run.port
             { e.destPorts[run.port] with waiting := (e.destPorts[run.port]).waiting ++ [close] } })) ∧
     (run.phase = .closingSource → x.outputs = .monitor →
       ((∀ z : Fin 4, (e.destPorts[z]).inflight.map (·.who) ≠ some (.context c)) → e.contextMove g c = none) ∧
       (∀ z : Fin 4, (e.destPorts[z]).inflight.map (·.who) = some (.context c) → e.contextMove g c = some (e.endJob g j .done))) ∧
     ((x.loop = false ∨ run.delivered = 0) → x.outputs = .monitor → ∀ k, run.handle = some k →
       (e.destPorts[run.port]).state = .online → (e.destPorts[run.port]).inflight = none → (e.destPorts[run.port]).waiting = [] →
       e.contextOf j = some c →
       let t := e.rangeEnd g c
       t.jobs = e.jobs.filter (fun y => decide (y.slot ≠ j)) ∧ (t.contexts[c]).state = .draining ∧
         (t.destPorts[run.port]).inflight = some ⟨.context c, .close k, true⟩ ∧
         { Event.ofClip .renderDone x.card x.clip with
           render := some ⟨x.slot, .monitor, .done, x.station, x.snapshot.map (fun s => (s.slot, s.version))⟩ } ∈ t.events))
end

