-- ==== Sys2Proof/Laws/State.lean ====
section
/-!
SUPPORT. What each named update of the blocks leaves as it was, one lemma for each field, and how the station ports read back after
an update: a later proof needs to unfold no update.
-/

namespace Sys2Proof.Machine

/-! ## An event signaled -/

@[simp] theorem Engine.signal_cards (e : Engine) (ev : Event) : (e.signal ev).cards = e.cards := rfl
@[simp] theorem Engine.signal_clips (e : Engine) (ev : Event) : (e.signal ev).clips = e.clips := rfl
@[simp] theorem Engine.signal_waitList (e : Engine) (ev : Event) : (e.signal ev).waitList = e.waitList := rfl
@[simp] theorem Engine.signal_noRecord (e : Engine) (ev : Event) : (e.signal ev).noRecord = e.noRecord := rfl
@[simp] theorem Engine.signal_cardPorts (e : Engine) (ev : Event) : (e.signal ev).cardPorts = e.cardPorts := rfl
@[simp] theorem Engine.signal_volumes (e : Engine) (ev : Event) : (e.signal ev).volumes = e.volumes := rfl
@[simp] theorem Engine.signal_destPorts (e : Engine) (ev : Event) : (e.signal ev).destPorts = e.destPorts := rfl
@[simp] theorem Engine.signal_untracked (e : Engine) (ev : Event) : (e.signal ev).untracked = e.untracked := rfl
@[simp] theorem Engine.signal_queue (e : Engine) (ev : Event) : (e.signal ev).queue = e.queue := rfl
@[simp] theorem Engine.signal_lanes (e : Engine) (ev : Event) : (e.signal ev).lanes = e.lanes := rfl
@[simp] theorem Engine.signal_pipeline (e : Engine) (ev : Event) : (e.signal ev).pipeline = e.pipeline := rfl
@[simp] theorem Engine.signal_lastPipeline (e : Engine) (ev : Event) : (e.signal ev).lastPipeline = e.lastPipeline := rfl
@[simp] theorem Engine.signal_jobs (e : Engine) (ev : Event) : (e.signal ev).jobs = e.jobs := rfl
@[simp] theorem Engine.signal_contexts (e : Engine) (ev : Event) : (e.signal ev).contexts = e.contexts := rfl
@[simp] theorem Engine.signal_lastJobGrant (e : Engine) (ev : Event) : (e.signal ev).lastJobGrant = e.lastJobGrant := rfl
@[simp] theorem Engine.signal_paused (e : Engine) (ev : Event) : (e.signal ev).paused = e.paused := rfl
@[simp] theorem Engine.signal_monitor (e : Engine) (ev : Event) : (e.signal ev).monitor = e.monitor := rfl
@[simp] theorem Engine.signal_scans (e : Engine) (ev : Event) : (e.signal ev).scans = e.scans := rfl
@[simp] theorem Engine.signal_sampler (e : Engine) (ev : Event) : (e.signal ev).sampler = e.sampler := rfl
@[simp] theorem Engine.signal_faults (e : Engine) (ev : Event) : (e.signal ev).faults = e.faults := rfl
@[simp] theorem Engine.signal_faultCounter (e : Engine) (ev : Event) : (e.signal ev).faultCounter = e.faultCounter := rfl
@[simp] theorem Engine.signal_dropped (e : Engine) (ev : Event) : (e.signal ev).dropped = e.dropped := rfl
@[simp] theorem Engine.signal_faultSerial (e : Engine) (ev : Event) : (e.signal ev).faultSerial = e.faultSerial := rfl
@[simp] theorem Engine.signal_requeues (e : Engine) (ev : Event) : (e.signal ev).requeues = e.requeues := rfl
@[simp] theorem Engine.signal_removed (e : Engine) (ev : Event) : (e.signal ev).removed = e.removed := rfl

/-! ## A clip record updated -/

@[simp] theorem Engine.updateClip_cards (e : Engine) (h : Handle) (f : Clip → Clip) : (e.updateClip h f).cards = e.cards := by unfold Engine.updateClip; split <;> rfl
@[simp] theorem Engine.updateClip_waitList (e : Engine) (h : Handle) (f : Clip → Clip) : (e.updateClip h f).waitList = e.waitList := by unfold Engine.updateClip; split <;> rfl
@[simp] theorem Engine.updateClip_noRecord (e : Engine) (h : Handle) (f : Clip → Clip) : (e.updateClip h f).noRecord = e.noRecord := by unfold Engine.updateClip; split <;> rfl
@[simp] theorem Engine.updateClip_cardPorts (e : Engine) (h : Handle) (f : Clip → Clip) : (e.updateClip h f).cardPorts = e.cardPorts := by unfold Engine.updateClip; split <;> rfl
@[simp] theorem Engine.updateClip_volumes (e : Engine) (h : Handle) (f : Clip → Clip) : (e.updateClip h f).volumes = e.volumes := by unfold Engine.updateClip; split <;> rfl
@[simp] theorem Engine.updateClip_destPorts (e : Engine) (h : Handle) (f : Clip → Clip) : (e.updateClip h f).destPorts = e.destPorts := by unfold Engine.updateClip; split <;> rfl
@[simp] theorem Engine.updateClip_untracked (e : Engine) (h : Handle) (f : Clip → Clip) : (e.updateClip h f).untracked = e.untracked := by unfold Engine.updateClip; split <;> rfl
@[simp] theorem Engine.updateClip_queue (e : Engine) (h : Handle) (f : Clip → Clip) : (e.updateClip h f).queue = e.queue := by unfold Engine.updateClip; split <;> rfl
@[simp] theorem Engine.updateClip_lanes (e : Engine) (h : Handle) (f : Clip → Clip) : (e.updateClip h f).lanes = e.lanes := by unfold Engine.updateClip; split <;> rfl
@[simp] theorem Engine.updateClip_pipeline (e : Engine) (h : Handle) (f : Clip → Clip) : (e.updateClip h f).pipeline = e.pipeline := by unfold Engine.updateClip; split <;> rfl
@[simp] theorem Engine.updateClip_lastPipeline (e : Engine) (h : Handle) (f : Clip → Clip) : (e.updateClip h f).lastPipeline = e.lastPipeline := by unfold Engine.updateClip; split <;> rfl
@[simp] theorem Engine.updateClip_jobs (e : Engine) (h : Handle) (f : Clip → Clip) : (e.updateClip h f).jobs = e.jobs := by unfold Engine.updateClip; split <;> rfl
@[simp] theorem Engine.updateClip_contexts (e : Engine) (h : Handle) (f : Clip → Clip) : (e.updateClip h f).contexts = e.contexts := by unfold Engine.updateClip; split <;> rfl
@[simp] theorem Engine.updateClip_lastJobGrant (e : Engine) (h : Handle) (f : Clip → Clip) : (e.updateClip h f).lastJobGrant = e.lastJobGrant := by unfold Engine.updateClip; split <;> rfl
@[simp] theorem Engine.updateClip_paused (e : Engine) (h : Handle) (f : Clip → Clip) : (e.updateClip h f).paused = e.paused := by unfold Engine.updateClip; split <;> rfl
@[simp] theorem Engine.updateClip_monitor (e : Engine) (h : Handle) (f : Clip → Clip) : (e.updateClip h f).monitor = e.monitor := by unfold Engine.updateClip; split <;> rfl
@[simp] theorem Engine.updateClip_scans (e : Engine) (h : Handle) (f : Clip → Clip) : (e.updateClip h f).scans = e.scans := by unfold Engine.updateClip; split <;> rfl
@[simp] theorem Engine.updateClip_sampler (e : Engine) (h : Handle) (f : Clip → Clip) : (e.updateClip h f).sampler = e.sampler := by unfold Engine.updateClip; split <;> rfl
@[simp] theorem Engine.updateClip_faults (e : Engine) (h : Handle) (f : Clip → Clip) : (e.updateClip h f).faults = e.faults := by unfold Engine.updateClip; split <;> rfl
@[simp] theorem Engine.updateClip_faultCounter (e : Engine) (h : Handle) (f : Clip → Clip) : (e.updateClip h f).faultCounter = e.faultCounter := by unfold Engine.updateClip; split <;> rfl
@[simp] theorem Engine.updateClip_dropped (e : Engine) (h : Handle) (f : Clip → Clip) : (e.updateClip h f).dropped = e.dropped := by unfold Engine.updateClip; split <;> rfl
@[simp] theorem Engine.updateClip_faultSerial (e : Engine) (h : Handle) (f : Clip → Clip) : (e.updateClip h f).faultSerial = e.faultSerial := by unfold Engine.updateClip; split <;> rfl
@[simp] theorem Engine.updateClip_requeues (e : Engine) (h : Handle) (f : Clip → Clip) : (e.updateClip h f).requeues = e.requeues := by unfold Engine.updateClip; split <;> rfl
@[simp] theorem Engine.updateClip_events (e : Engine) (h : Handle) (f : Clip → Clip) : (e.updateClip h f).events = e.events := by unfold Engine.updateClip; split <;> rfl
@[simp] theorem Engine.updateClip_removed (e : Engine) (h : Handle) (f : Clip → Clip) : (e.updateClip h f).removed = e.removed := by unfold Engine.updateClip; split <;> rfl

/-! ## A card record updated -/

@[simp] theorem Engine.updateCard_clips (e : Engine) (c : Fin 32) (f : CardRecord → CardRecord) : (e.updateCard c f).clips = e.clips := by unfold Engine.updateCard; split <;> rfl
@[simp] theorem Engine.updateCard_waitList (e : Engine) (c : Fin 32) (f : CardRecord → CardRecord) : (e.updateCard c f).waitList = e.waitList := by unfold Engine.updateCard; split <;> rfl
@[simp] theorem Engine.updateCard_noRecord (e : Engine) (c : Fin 32) (f : CardRecord → CardRecord) : (e.updateCard c f).noRecord = e.noRecord := by unfold Engine.updateCard; split <;> rfl
@[simp] theorem Engine.updateCard_cardPorts (e : Engine) (c : Fin 32) (f : CardRecord → CardRecord) : (e.updateCard c f).cardPorts = e.cardPorts := by unfold Engine.updateCard; split <;> rfl
@[simp] theorem Engine.updateCard_volumes (e : Engine) (c : Fin 32) (f : CardRecord → CardRecord) : (e.updateCard c f).volumes = e.volumes := by unfold Engine.updateCard; split <;> rfl
@[simp] theorem Engine.updateCard_destPorts (e : Engine) (c : Fin 32) (f : CardRecord → CardRecord) : (e.updateCard c f).destPorts = e.destPorts := by unfold Engine.updateCard; split <;> rfl
@[simp] theorem Engine.updateCard_untracked (e : Engine) (c : Fin 32) (f : CardRecord → CardRecord) : (e.updateCard c f).untracked = e.untracked := by unfold Engine.updateCard; split <;> rfl
@[simp] theorem Engine.updateCard_queue (e : Engine) (c : Fin 32) (f : CardRecord → CardRecord) : (e.updateCard c f).queue = e.queue := by unfold Engine.updateCard; split <;> rfl
@[simp] theorem Engine.updateCard_lanes (e : Engine) (c : Fin 32) (f : CardRecord → CardRecord) : (e.updateCard c f).lanes = e.lanes := by unfold Engine.updateCard; split <;> rfl
@[simp] theorem Engine.updateCard_pipeline (e : Engine) (c : Fin 32) (f : CardRecord → CardRecord) : (e.updateCard c f).pipeline = e.pipeline := by unfold Engine.updateCard; split <;> rfl
@[simp] theorem Engine.updateCard_lastPipeline (e : Engine) (c : Fin 32) (f : CardRecord → CardRecord) : (e.updateCard c f).lastPipeline = e.lastPipeline := by unfold Engine.updateCard; split <;> rfl
@[simp] theorem Engine.updateCard_jobs (e : Engine) (c : Fin 32) (f : CardRecord → CardRecord) : (e.updateCard c f).jobs = e.jobs := by unfold Engine.updateCard; split <;> rfl
@[simp] theorem Engine.updateCard_contexts (e : Engine) (c : Fin 32) (f : CardRecord → CardRecord) : (e.updateCard c f).contexts = e.contexts := by unfold Engine.updateCard; split <;> rfl
@[simp] theorem Engine.updateCard_lastJobGrant (e : Engine) (c : Fin 32) (f : CardRecord → CardRecord) : (e.updateCard c f).lastJobGrant = e.lastJobGrant := by unfold Engine.updateCard; split <;> rfl
@[simp] theorem Engine.updateCard_paused (e : Engine) (c : Fin 32) (f : CardRecord → CardRecord) : (e.updateCard c f).paused = e.paused := by unfold Engine.updateCard; split <;> rfl
@[simp] theorem Engine.updateCard_monitor (e : Engine) (c : Fin 32) (f : CardRecord → CardRecord) : (e.updateCard c f).monitor = e.monitor := by unfold Engine.updateCard; split <;> rfl
@[simp] theorem Engine.updateCard_scans (e : Engine) (c : Fin 32) (f : CardRecord → CardRecord) : (e.updateCard c f).scans = e.scans := by unfold Engine.updateCard; split <;> rfl
@[simp] theorem Engine.updateCard_sampler (e : Engine) (c : Fin 32) (f : CardRecord → CardRecord) : (e.updateCard c f).sampler = e.sampler := by unfold Engine.updateCard; split <;> rfl
@[simp] theorem Engine.updateCard_faults (e : Engine) (c : Fin 32) (f : CardRecord → CardRecord) : (e.updateCard c f).faults = e.faults := by unfold Engine.updateCard; split <;> rfl
@[simp] theorem Engine.updateCard_faultCounter (e : Engine) (c : Fin 32) (f : CardRecord → CardRecord) : (e.updateCard c f).faultCounter = e.faultCounter := by unfold Engine.updateCard; split <;> rfl
@[simp] theorem Engine.updateCard_dropped (e : Engine) (c : Fin 32) (f : CardRecord → CardRecord) : (e.updateCard c f).dropped = e.dropped := by unfold Engine.updateCard; split <;> rfl
@[simp] theorem Engine.updateCard_faultSerial (e : Engine) (c : Fin 32) (f : CardRecord → CardRecord) : (e.updateCard c f).faultSerial = e.faultSerial := by unfold Engine.updateCard; split <;> rfl
@[simp] theorem Engine.updateCard_requeues (e : Engine) (c : Fin 32) (f : CardRecord → CardRecord) : (e.updateCard c f).requeues = e.requeues := by unfold Engine.updateCard; split <;> rfl
@[simp] theorem Engine.updateCard_events (e : Engine) (c : Fin 32) (f : CardRecord → CardRecord) : (e.updateCard c f).events = e.events := by unfold Engine.updateCard; split <;> rfl
@[simp] theorem Engine.updateCard_removed (e : Engine) (c : Fin 32) (f : CardRecord → CardRecord) : (e.updateCard c f).removed = e.removed := by unfold Engine.updateCard; split <;> rfl

/-! ## A volume entry updated -/

@[simp] theorem Engine.updateVolume_cards (e : Engine) (v : Fin 16) (f : VolumeEntry → VolumeEntry) : (e.updateVolume v f).cards = e.cards := by unfold Engine.updateVolume; split <;> rfl
@[simp] theorem Engine.updateVolume_clips (e : Engine) (v : Fin 16) (f : VolumeEntry → VolumeEntry) : (e.updateVolume v f).clips = e.clips := by unfold Engine.updateVolume; split <;> rfl
@[simp] theorem Engine.updateVolume_waitList (e : Engine) (v : Fin 16) (f : VolumeEntry → VolumeEntry) : (e.updateVolume v f).waitList = e.waitList := by unfold Engine.updateVolume; split <;> rfl
@[simp] theorem Engine.updateVolume_noRecord (e : Engine) (v : Fin 16) (f : VolumeEntry → VolumeEntry) : (e.updateVolume v f).noRecord = e.noRecord := by unfold Engine.updateVolume; split <;> rfl
@[simp] theorem Engine.updateVolume_cardPorts (e : Engine) (v : Fin 16) (f : VolumeEntry → VolumeEntry) : (e.updateVolume v f).cardPorts = e.cardPorts := by unfold Engine.updateVolume; split <;> rfl
@[simp] theorem Engine.updateVolume_destPorts (e : Engine) (v : Fin 16) (f : VolumeEntry → VolumeEntry) : (e.updateVolume v f).destPorts = e.destPorts := by unfold Engine.updateVolume; split <;> rfl
@[simp] theorem Engine.updateVolume_untracked (e : Engine) (v : Fin 16) (f : VolumeEntry → VolumeEntry) : (e.updateVolume v f).untracked = e.untracked := by unfold Engine.updateVolume; split <;> rfl
@[simp] theorem Engine.updateVolume_queue (e : Engine) (v : Fin 16) (f : VolumeEntry → VolumeEntry) : (e.updateVolume v f).queue = e.queue := by unfold Engine.updateVolume; split <;> rfl
@[simp] theorem Engine.updateVolume_lanes (e : Engine) (v : Fin 16) (f : VolumeEntry → VolumeEntry) : (e.updateVolume v f).lanes = e.lanes := by unfold Engine.updateVolume; split <;> rfl
@[simp] theorem Engine.updateVolume_pipeline (e : Engine) (v : Fin 16) (f : VolumeEntry → VolumeEntry) : (e.updateVolume v f).pipeline = e.pipeline := by unfold Engine.updateVolume; split <;> rfl
@[simp] theorem Engine.updateVolume_lastPipeline (e : Engine) (v : Fin 16) (f : VolumeEntry → VolumeEntry) : (e.updateVolume v f).lastPipeline = e.lastPipeline := by unfold Engine.updateVolume; split <;> rfl
@[simp] theorem Engine.updateVolume_jobs (e : Engine) (v : Fin 16) (f : VolumeEntry → VolumeEntry) : (e.updateVolume v f).jobs = e.jobs := by unfold Engine.updateVolume; split <;> rfl
@[simp] theorem Engine.updateVolume_contexts (e : Engine) (v : Fin 16) (f : VolumeEntry → VolumeEntry) : (e.updateVolume v f).contexts = e.contexts := by unfold Engine.updateVolume; split <;> rfl
@[simp] theorem Engine.updateVolume_lastJobGrant (e : Engine) (v : Fin 16) (f : VolumeEntry → VolumeEntry) : (e.updateVolume v f).lastJobGrant = e.lastJobGrant := by unfold Engine.updateVolume; split <;> rfl
@[simp] theorem Engine.updateVolume_paused (e : Engine) (v : Fin 16) (f : VolumeEntry → VolumeEntry) : (e.updateVolume v f).paused = e.paused := by unfold Engine.updateVolume; split <;> rfl
@[simp] theorem Engine.updateVolume_monitor (e : Engine) (v : Fin 16) (f : VolumeEntry → VolumeEntry) : (e.updateVolume v f).monitor = e.monitor := by unfold Engine.updateVolume; split <;> rfl
@[simp] theorem Engine.updateVolume_scans (e : Engine) (v : Fin 16) (f : VolumeEntry → VolumeEntry) : (e.updateVolume v f).scans = e.scans := by unfold Engine.updateVolume; split <;> rfl
@[simp] theorem Engine.updateVolume_sampler (e : Engine) (v : Fin 16) (f : VolumeEntry → VolumeEntry) : (e.updateVolume v f).sampler = e.sampler := by unfold Engine.updateVolume; split <;> rfl
@[simp] theorem Engine.updateVolume_faults (e : Engine) (v : Fin 16) (f : VolumeEntry → VolumeEntry) : (e.updateVolume v f).faults = e.faults := by unfold Engine.updateVolume; split <;> rfl
@[simp] theorem Engine.updateVolume_faultCounter (e : Engine) (v : Fin 16) (f : VolumeEntry → VolumeEntry) : (e.updateVolume v f).faultCounter = e.faultCounter := by unfold Engine.updateVolume; split <;> rfl
@[simp] theorem Engine.updateVolume_dropped (e : Engine) (v : Fin 16) (f : VolumeEntry → VolumeEntry) : (e.updateVolume v f).dropped = e.dropped := by unfold Engine.updateVolume; split <;> rfl
@[simp] theorem Engine.updateVolume_faultSerial (e : Engine) (v : Fin 16) (f : VolumeEntry → VolumeEntry) : (e.updateVolume v f).faultSerial = e.faultSerial := by unfold Engine.updateVolume; split <;> rfl
@[simp] theorem Engine.updateVolume_requeues (e : Engine) (v : Fin 16) (f : VolumeEntry → VolumeEntry) : (e.updateVolume v f).requeues = e.requeues := by unfold Engine.updateVolume; split <;> rfl
@[simp] theorem Engine.updateVolume_events (e : Engine) (v : Fin 16) (f : VolumeEntry → VolumeEntry) : (e.updateVolume v f).events = e.events := by unfold Engine.updateVolume; split <;> rfl
@[simp] theorem Engine.updateVolume_removed (e : Engine) (v : Fin 16) (f : VolumeEntry → VolumeEntry) : (e.updateVolume v f).removed = e.removed := by unfold Engine.updateVolume; split <;> rfl

/-! ## A destination port updated -/

@[simp] theorem Engine.updateDest_cards (e : Engine) (p : Fin 4) (f : DestPort → DestPort) : (e.updateDest p f).cards = e.cards := rfl
@[simp] theorem Engine.updateDest_clips (e : Engine) (p : Fin 4) (f : DestPort → DestPort) : (e.updateDest p f).clips = e.clips := rfl
@[simp] theorem Engine.updateDest_waitList (e : Engine) (p : Fin 4) (f : DestPort → DestPort) : (e.updateDest p f).waitList = e.waitList := rfl
@[simp] theorem Engine.updateDest_noRecord (e : Engine) (p : Fin 4) (f : DestPort → DestPort) : (e.updateDest p f).noRecord = e.noRecord := rfl
@[simp] theorem Engine.updateDest_cardPorts (e : Engine) (p : Fin 4) (f : DestPort → DestPort) : (e.updateDest p f).cardPorts = e.cardPorts := rfl
@[simp] theorem Engine.updateDest_volumes (e : Engine) (p : Fin 4) (f : DestPort → DestPort) : (e.updateDest p f).volumes = e.volumes := rfl
@[simp] theorem Engine.updateDest_untracked (e : Engine) (p : Fin 4) (f : DestPort → DestPort) : (e.updateDest p f).untracked = e.untracked := rfl
@[simp] theorem Engine.updateDest_queue (e : Engine) (p : Fin 4) (f : DestPort → DestPort) : (e.updateDest p f).queue = e.queue := rfl
@[simp] theorem Engine.updateDest_lanes (e : Engine) (p : Fin 4) (f : DestPort → DestPort) : (e.updateDest p f).lanes = e.lanes := rfl
@[simp] theorem Engine.updateDest_pipeline (e : Engine) (p : Fin 4) (f : DestPort → DestPort) : (e.updateDest p f).pipeline = e.pipeline := rfl
@[simp] theorem Engine.updateDest_lastPipeline (e : Engine) (p : Fin 4) (f : DestPort → DestPort) : (e.updateDest p f).lastPipeline = e.lastPipeline := rfl
@[simp] theorem Engine.updateDest_jobs (e : Engine) (p : Fin 4) (f : DestPort → DestPort) : (e.updateDest p f).jobs = e.jobs := rfl
@[simp] theorem Engine.updateDest_contexts (e : Engine) (p : Fin 4) (f : DestPort → DestPort) : (e.updateDest p f).contexts = e.contexts := rfl
@[simp] theorem Engine.updateDest_lastJobGrant (e : Engine) (p : Fin 4) (f : DestPort → DestPort) : (e.updateDest p f).lastJobGrant = e.lastJobGrant := rfl
@[simp] theorem Engine.updateDest_paused (e : Engine) (p : Fin 4) (f : DestPort → DestPort) : (e.updateDest p f).paused = e.paused := rfl
@[simp] theorem Engine.updateDest_monitor (e : Engine) (p : Fin 4) (f : DestPort → DestPort) : (e.updateDest p f).monitor = e.monitor := rfl
@[simp] theorem Engine.updateDest_scans (e : Engine) (p : Fin 4) (f : DestPort → DestPort) : (e.updateDest p f).scans = e.scans := rfl
@[simp] theorem Engine.updateDest_sampler (e : Engine) (p : Fin 4) (f : DestPort → DestPort) : (e.updateDest p f).sampler = e.sampler := rfl
@[simp] theorem Engine.updateDest_faults (e : Engine) (p : Fin 4) (f : DestPort → DestPort) : (e.updateDest p f).faults = e.faults := rfl
@[simp] theorem Engine.updateDest_faultCounter (e : Engine) (p : Fin 4) (f : DestPort → DestPort) : (e.updateDest p f).faultCounter = e.faultCounter := rfl
@[simp] theorem Engine.updateDest_dropped (e : Engine) (p : Fin 4) (f : DestPort → DestPort) : (e.updateDest p f).dropped = e.dropped := rfl
@[simp] theorem Engine.updateDest_faultSerial (e : Engine) (p : Fin 4) (f : DestPort → DestPort) : (e.updateDest p f).faultSerial = e.faultSerial := rfl
@[simp] theorem Engine.updateDest_requeues (e : Engine) (p : Fin 4) (f : DestPort → DestPort) : (e.updateDest p f).requeues = e.requeues := rfl
@[simp] theorem Engine.updateDest_events (e : Engine) (p : Fin 4) (f : DestPort → DestPort) : (e.updateDest p f).events = e.events := rfl
@[simp] theorem Engine.updateDest_removed (e : Engine) (p : Fin 4) (f : DestPort → DestPort) : (e.updateDest p f).removed = e.removed := rfl

/-! ## A card port updated -/

@[simp] theorem Engine.updatePort_cards (e : Engine) (p : Fin 4) (f : CardPort → CardPort) : (e.updatePort p f).cards = e.cards := rfl
@[simp] theorem Engine.updatePort_clips (e : Engine) (p : Fin 4) (f : CardPort → CardPort) : (e.updatePort p f).clips = e.clips := rfl
@[simp] theorem Engine.updatePort_waitList (e : Engine) (p : Fin 4) (f : CardPort → CardPort) : (e.updatePort p f).waitList = e.waitList := rfl
@[simp] theorem Engine.updatePort_noRecord (e : Engine) (p : Fin 4) (f : CardPort → CardPort) : (e.updatePort p f).noRecord = e.noRecord := rfl
@[simp] theorem Engine.updatePort_volumes (e : Engine) (p : Fin 4) (f : CardPort → CardPort) : (e.updatePort p f).volumes = e.volumes := rfl
@[simp] theorem Engine.updatePort_destPorts (e : Engine) (p : Fin 4) (f : CardPort → CardPort) : (e.updatePort p f).destPorts = e.destPorts := rfl
@[simp] theorem Engine.updatePort_untracked (e : Engine) (p : Fin 4) (f : CardPort → CardPort) : (e.updatePort p f).untracked = e.untracked := rfl
@[simp] theorem Engine.updatePort_queue (e : Engine) (p : Fin 4) (f : CardPort → CardPort) : (e.updatePort p f).queue = e.queue := rfl
@[simp] theorem Engine.updatePort_lanes (e : Engine) (p : Fin 4) (f : CardPort → CardPort) : (e.updatePort p f).lanes = e.lanes := rfl
@[simp] theorem Engine.updatePort_pipeline (e : Engine) (p : Fin 4) (f : CardPort → CardPort) : (e.updatePort p f).pipeline = e.pipeline := rfl
@[simp] theorem Engine.updatePort_lastPipeline (e : Engine) (p : Fin 4) (f : CardPort → CardPort) : (e.updatePort p f).lastPipeline = e.lastPipeline := rfl
@[simp] theorem Engine.updatePort_jobs (e : Engine) (p : Fin 4) (f : CardPort → CardPort) : (e.updatePort p f).jobs = e.jobs := rfl
@[simp] theorem Engine.updatePort_contexts (e : Engine) (p : Fin 4) (f : CardPort → CardPort) : (e.updatePort p f).contexts = e.contexts := rfl
@[simp] theorem Engine.updatePort_lastJobGrant (e : Engine) (p : Fin 4) (f : CardPort → CardPort) : (e.updatePort p f).lastJobGrant = e.lastJobGrant := rfl
@[simp] theorem Engine.updatePort_paused (e : Engine) (p : Fin 4) (f : CardPort → CardPort) : (e.updatePort p f).paused = e.paused := rfl
@[simp] theorem Engine.updatePort_monitor (e : Engine) (p : Fin 4) (f : CardPort → CardPort) : (e.updatePort p f).monitor = e.monitor := rfl
@[simp] theorem Engine.updatePort_scans (e : Engine) (p : Fin 4) (f : CardPort → CardPort) : (e.updatePort p f).scans = e.scans := rfl
@[simp] theorem Engine.updatePort_sampler (e : Engine) (p : Fin 4) (f : CardPort → CardPort) : (e.updatePort p f).sampler = e.sampler := rfl
@[simp] theorem Engine.updatePort_faults (e : Engine) (p : Fin 4) (f : CardPort → CardPort) : (e.updatePort p f).faults = e.faults := rfl
@[simp] theorem Engine.updatePort_faultCounter (e : Engine) (p : Fin 4) (f : CardPort → CardPort) : (e.updatePort p f).faultCounter = e.faultCounter := rfl
@[simp] theorem Engine.updatePort_dropped (e : Engine) (p : Fin 4) (f : CardPort → CardPort) : (e.updatePort p f).dropped = e.dropped := rfl
@[simp] theorem Engine.updatePort_faultSerial (e : Engine) (p : Fin 4) (f : CardPort → CardPort) : (e.updatePort p f).faultSerial = e.faultSerial := rfl
@[simp] theorem Engine.updatePort_requeues (e : Engine) (p : Fin 4) (f : CardPort → CardPort) : (e.updatePort p f).requeues = e.requeues := rfl
@[simp] theorem Engine.updatePort_events (e : Engine) (p : Fin 4) (f : CardPort → CardPort) : (e.updatePort p f).events = e.events := rfl
@[simp] theorem Engine.updatePort_removed (e : Engine) (p : Fin 4) (f : CardPort → CardPort) : (e.updatePort p f).removed = e.removed := rfl

/-! ## A descriptor updated -/

@[simp] theorem Engine.updateDescriptor_cards (e : Engine) (d : Fin 64) (f : Descriptor → Descriptor) : (e.updateDescriptor d f).cards = e.cards := rfl
@[simp] theorem Engine.updateDescriptor_clips (e : Engine) (d : Fin 64) (f : Descriptor → Descriptor) : (e.updateDescriptor d f).clips = e.clips := rfl
@[simp] theorem Engine.updateDescriptor_waitList (e : Engine) (d : Fin 64) (f : Descriptor → Descriptor) : (e.updateDescriptor d f).waitList = e.waitList := rfl
@[simp] theorem Engine.updateDescriptor_noRecord (e : Engine) (d : Fin 64) (f : Descriptor → Descriptor) : (e.updateDescriptor d f).noRecord = e.noRecord := rfl
@[simp] theorem Engine.updateDescriptor_cardPorts (e : Engine) (d : Fin 64) (f : Descriptor → Descriptor) : (e.updateDescriptor d f).cardPorts = e.cardPorts := rfl
@[simp] theorem Engine.updateDescriptor_volumes (e : Engine) (d : Fin 64) (f : Descriptor → Descriptor) : (e.updateDescriptor d f).volumes = e.volumes := rfl
@[simp] theorem Engine.updateDescriptor_destPorts (e : Engine) (d : Fin 64) (f : Descriptor → Descriptor) : (e.updateDescriptor d f).destPorts = e.destPorts := rfl
@[simp] theorem Engine.updateDescriptor_untracked (e : Engine) (d : Fin 64) (f : Descriptor → Descriptor) : (e.updateDescriptor d f).untracked = e.untracked := rfl
@[simp] theorem Engine.updateDescriptor_lanes (e : Engine) (d : Fin 64) (f : Descriptor → Descriptor) : (e.updateDescriptor d f).lanes = e.lanes := rfl
@[simp] theorem Engine.updateDescriptor_pipeline (e : Engine) (d : Fin 64) (f : Descriptor → Descriptor) : (e.updateDescriptor d f).pipeline = e.pipeline := rfl
@[simp] theorem Engine.updateDescriptor_lastPipeline (e : Engine) (d : Fin 64) (f : Descriptor → Descriptor) : (e.updateDescriptor d f).lastPipeline = e.lastPipeline := rfl
@[simp] theorem Engine.updateDescriptor_jobs (e : Engine) (d : Fin 64) (f : Descriptor → Descriptor) : (e.updateDescriptor d f).jobs = e.jobs := rfl
@[simp] theorem Engine.updateDescriptor_contexts (e : Engine) (d : Fin 64) (f : Descriptor → Descriptor) : (e.updateDescriptor d f).contexts = e.contexts := rfl
@[simp] theorem Engine.updateDescriptor_lastJobGrant (e : Engine) (d : Fin 64) (f : Descriptor → Descriptor) : (e.updateDescriptor d f).lastJobGrant = e.lastJobGrant := rfl
@[simp] theorem Engine.updateDescriptor_paused (e : Engine) (d : Fin 64) (f : Descriptor → Descriptor) : (e.updateDescriptor d f).paused = e.paused := rfl
@[simp] theorem Engine.updateDescriptor_monitor (e : Engine) (d : Fin 64) (f : Descriptor → Descriptor) : (e.updateDescriptor d f).monitor = e.monitor := rfl
@[simp] theorem Engine.updateDescriptor_scans (e : Engine) (d : Fin 64) (f : Descriptor → Descriptor) : (e.updateDescriptor d f).scans = e.scans := rfl
@[simp] theorem Engine.updateDescriptor_sampler (e : Engine) (d : Fin 64) (f : Descriptor → Descriptor) : (e.updateDescriptor d f).sampler = e.sampler := rfl
@[simp] theorem Engine.updateDescriptor_faults (e : Engine) (d : Fin 64) (f : Descriptor → Descriptor) : (e.updateDescriptor d f).faults = e.faults := rfl
@[simp] theorem Engine.updateDescriptor_faultCounter (e : Engine) (d : Fin 64) (f : Descriptor → Descriptor) : (e.updateDescriptor d f).faultCounter = e.faultCounter := rfl
@[simp] theorem Engine.updateDescriptor_dropped (e : Engine) (d : Fin 64) (f : Descriptor → Descriptor) : (e.updateDescriptor d f).dropped = e.dropped := rfl
@[simp] theorem Engine.updateDescriptor_faultSerial (e : Engine) (d : Fin 64) (f : Descriptor → Descriptor) : (e.updateDescriptor d f).faultSerial = e.faultSerial := rfl
@[simp] theorem Engine.updateDescriptor_requeues (e : Engine) (d : Fin 64) (f : Descriptor → Descriptor) : (e.updateDescriptor d f).requeues = e.requeues := rfl
@[simp] theorem Engine.updateDescriptor_events (e : Engine) (d : Fin 64) (f : Descriptor → Descriptor) : (e.updateDescriptor d f).events = e.events := rfl
@[simp] theorem Engine.updateDescriptor_removed (e : Engine) (d : Fin 64) (f : Descriptor → Descriptor) : (e.updateDescriptor d f).removed = e.removed := rfl

/-! ## A running lane updated -/

@[simp] theorem Engine.updateLane_cards (e : Engine) (l : Fin 2) (f : LaneRun → LaneRun) : (e.updateLane l f).cards = e.cards := by unfold Engine.updateLane; split <;> rfl
@[simp] theorem Engine.updateLane_clips (e : Engine) (l : Fin 2) (f : LaneRun → LaneRun) : (e.updateLane l f).clips = e.clips := by unfold Engine.updateLane; split <;> rfl
@[simp] theorem Engine.updateLane_waitList (e : Engine) (l : Fin 2) (f : LaneRun → LaneRun) : (e.updateLane l f).waitList = e.waitList := by unfold Engine.updateLane; split <;> rfl
@[simp] theorem Engine.updateLane_noRecord (e : Engine) (l : Fin 2) (f : LaneRun → LaneRun) : (e.updateLane l f).noRecord = e.noRecord := by unfold Engine.updateLane; split <;> rfl
@[simp] theorem Engine.updateLane_cardPorts (e : Engine) (l : Fin 2) (f : LaneRun → LaneRun) : (e.updateLane l f).cardPorts = e.cardPorts := by unfold Engine.updateLane; split <;> rfl
@[simp] theorem Engine.updateLane_volumes (e : Engine) (l : Fin 2) (f : LaneRun → LaneRun) : (e.updateLane l f).volumes = e.volumes := by unfold Engine.updateLane; split <;> rfl
@[simp] theorem Engine.updateLane_destPorts (e : Engine) (l : Fin 2) (f : LaneRun → LaneRun) : (e.updateLane l f).destPorts = e.destPorts := by unfold Engine.updateLane; split <;> rfl
@[simp] theorem Engine.updateLane_untracked (e : Engine) (l : Fin 2) (f : LaneRun → LaneRun) : (e.updateLane l f).untracked = e.untracked := by unfold Engine.updateLane; split <;> rfl
@[simp] theorem Engine.updateLane_queue (e : Engine) (l : Fin 2) (f : LaneRun → LaneRun) : (e.updateLane l f).queue = e.queue := by unfold Engine.updateLane; split <;> rfl
@[simp] theorem Engine.updateLane_pipeline (e : Engine) (l : Fin 2) (f : LaneRun → LaneRun) : (e.updateLane l f).pipeline = e.pipeline := by unfold Engine.updateLane; split <;> rfl
@[simp] theorem Engine.updateLane_lastPipeline (e : Engine) (l : Fin 2) (f : LaneRun → LaneRun) : (e.updateLane l f).lastPipeline = e.lastPipeline := by unfold Engine.updateLane; split <;> rfl
@[simp] theorem Engine.updateLane_jobs (e : Engine) (l : Fin 2) (f : LaneRun → LaneRun) : (e.updateLane l f).jobs = e.jobs := by unfold Engine.updateLane; split <;> rfl
@[simp] theorem Engine.updateLane_contexts (e : Engine) (l : Fin 2) (f : LaneRun → LaneRun) : (e.updateLane l f).contexts = e.contexts := by unfold Engine.updateLane; split <;> rfl
@[simp] theorem Engine.updateLane_lastJobGrant (e : Engine) (l : Fin 2) (f : LaneRun → LaneRun) : (e.updateLane l f).lastJobGrant = e.lastJobGrant := by unfold Engine.updateLane; split <;> rfl
@[simp] theorem Engine.updateLane_paused (e : Engine) (l : Fin 2) (f : LaneRun → LaneRun) : (e.updateLane l f).paused = e.paused := by unfold Engine.updateLane; split <;> rfl
@[simp] theorem Engine.updateLane_monitor (e : Engine) (l : Fin 2) (f : LaneRun → LaneRun) : (e.updateLane l f).monitor = e.monitor := by unfold Engine.updateLane; split <;> rfl
@[simp] theorem Engine.updateLane_scans (e : Engine) (l : Fin 2) (f : LaneRun → LaneRun) : (e.updateLane l f).scans = e.scans := by unfold Engine.updateLane; split <;> rfl
@[simp] theorem Engine.updateLane_sampler (e : Engine) (l : Fin 2) (f : LaneRun → LaneRun) : (e.updateLane l f).sampler = e.sampler := by unfold Engine.updateLane; split <;> rfl
@[simp] theorem Engine.updateLane_faults (e : Engine) (l : Fin 2) (f : LaneRun → LaneRun) : (e.updateLane l f).faults = e.faults := by unfold Engine.updateLane; split <;> rfl
@[simp] theorem Engine.updateLane_faultCounter (e : Engine) (l : Fin 2) (f : LaneRun → LaneRun) : (e.updateLane l f).faultCounter = e.faultCounter := by unfold Engine.updateLane; split <;> rfl
@[simp] theorem Engine.updateLane_dropped (e : Engine) (l : Fin 2) (f : LaneRun → LaneRun) : (e.updateLane l f).dropped = e.dropped := by unfold Engine.updateLane; split <;> rfl
@[simp] theorem Engine.updateLane_faultSerial (e : Engine) (l : Fin 2) (f : LaneRun → LaneRun) : (e.updateLane l f).faultSerial = e.faultSerial := by unfold Engine.updateLane; split <;> rfl
@[simp] theorem Engine.updateLane_requeues (e : Engine) (l : Fin 2) (f : LaneRun → LaneRun) : (e.updateLane l f).requeues = e.requeues := by unfold Engine.updateLane; split <;> rfl
@[simp] theorem Engine.updateLane_events (e : Engine) (l : Fin 2) (f : LaneRun → LaneRun) : (e.updateLane l f).events = e.events := by unfold Engine.updateLane; split <;> rfl
@[simp] theorem Engine.updateLane_removed (e : Engine) (l : Fin 2) (f : LaneRun → LaneRun) : (e.updateLane l f).removed = e.removed := by unfold Engine.updateLane; split <;> rfl

/-! ## A render job updated -/

@[simp] theorem Engine.updateJob_cards (e : Engine) (j : Fin 16) (f : Job → Job) : (e.updateJob j f).cards = e.cards := rfl
@[simp] theorem Engine.updateJob_clips (e : Engine) (j : Fin 16) (f : Job → Job) : (e.updateJob j f).clips = e.clips := rfl
@[simp] theorem Engine.updateJob_waitList (e : Engine) (j : Fin 16) (f : Job → Job) : (e.updateJob j f).waitList = e.waitList := rfl
@[simp] theorem Engine.updateJob_noRecord (e : Engine) (j : Fin 16) (f : Job → Job) : (e.updateJob j f).noRecord = e.noRecord := rfl
@[simp] theorem Engine.updateJob_cardPorts (e : Engine) (j : Fin 16) (f : Job → Job) : (e.updateJob j f).cardPorts = e.cardPorts := rfl
@[simp] theorem Engine.updateJob_volumes (e : Engine) (j : Fin 16) (f : Job → Job) : (e.updateJob j f).volumes = e.volumes := rfl
@[simp] theorem Engine.updateJob_destPorts (e : Engine) (j : Fin 16) (f : Job → Job) : (e.updateJob j f).destPorts = e.destPorts := rfl
@[simp] theorem Engine.updateJob_untracked (e : Engine) (j : Fin 16) (f : Job → Job) : (e.updateJob j f).untracked = e.untracked := rfl
@[simp] theorem Engine.updateJob_queue (e : Engine) (j : Fin 16) (f : Job → Job) : (e.updateJob j f).queue = e.queue := rfl
@[simp] theorem Engine.updateJob_lanes (e : Engine) (j : Fin 16) (f : Job → Job) : (e.updateJob j f).lanes = e.lanes := rfl
@[simp] theorem Engine.updateJob_pipeline (e : Engine) (j : Fin 16) (f : Job → Job) : (e.updateJob j f).pipeline = e.pipeline := rfl
@[simp] theorem Engine.updateJob_lastPipeline (e : Engine) (j : Fin 16) (f : Job → Job) : (e.updateJob j f).lastPipeline = e.lastPipeline := rfl
@[simp] theorem Engine.updateJob_contexts (e : Engine) (j : Fin 16) (f : Job → Job) : (e.updateJob j f).contexts = e.contexts := rfl
@[simp] theorem Engine.updateJob_lastJobGrant (e : Engine) (j : Fin 16) (f : Job → Job) : (e.updateJob j f).lastJobGrant = e.lastJobGrant := rfl
@[simp] theorem Engine.updateJob_paused (e : Engine) (j : Fin 16) (f : Job → Job) : (e.updateJob j f).paused = e.paused := rfl
@[simp] theorem Engine.updateJob_monitor (e : Engine) (j : Fin 16) (f : Job → Job) : (e.updateJob j f).monitor = e.monitor := rfl
@[simp] theorem Engine.updateJob_scans (e : Engine) (j : Fin 16) (f : Job → Job) : (e.updateJob j f).scans = e.scans := rfl
@[simp] theorem Engine.updateJob_sampler (e : Engine) (j : Fin 16) (f : Job → Job) : (e.updateJob j f).sampler = e.sampler := rfl
@[simp] theorem Engine.updateJob_faults (e : Engine) (j : Fin 16) (f : Job → Job) : (e.updateJob j f).faults = e.faults := rfl
@[simp] theorem Engine.updateJob_faultCounter (e : Engine) (j : Fin 16) (f : Job → Job) : (e.updateJob j f).faultCounter = e.faultCounter := rfl
@[simp] theorem Engine.updateJob_dropped (e : Engine) (j : Fin 16) (f : Job → Job) : (e.updateJob j f).dropped = e.dropped := rfl
@[simp] theorem Engine.updateJob_faultSerial (e : Engine) (j : Fin 16) (f : Job → Job) : (e.updateJob j f).faultSerial = e.faultSerial := rfl
@[simp] theorem Engine.updateJob_requeues (e : Engine) (j : Fin 16) (f : Job → Job) : (e.updateJob j f).requeues = e.requeues := rfl
@[simp] theorem Engine.updateJob_events (e : Engine) (j : Fin 16) (f : Job → Job) : (e.updateJob j f).events = e.events := rfl
@[simp] theorem Engine.updateJob_removed (e : Engine) (j : Fin 16) (f : Job → Job) : (e.updateJob j f).removed = e.removed := rfl

/-! ## A running context updated -/

@[simp] theorem Engine.updateContext_cards (e : Engine) (c : Fin 2) (f : ContextRun → ContextRun) : (e.updateContext c f).cards = e.cards := by unfold Engine.updateContext; split <;> rfl
@[simp] theorem Engine.updateContext_clips (e : Engine) (c : Fin 2) (f : ContextRun → ContextRun) : (e.updateContext c f).clips = e.clips := by unfold Engine.updateContext; split <;> rfl
@[simp] theorem Engine.updateContext_waitList (e : Engine) (c : Fin 2) (f : ContextRun → ContextRun) : (e.updateContext c f).waitList = e.waitList := by unfold Engine.updateContext; split <;> rfl
@[simp] theorem Engine.updateContext_noRecord (e : Engine) (c : Fin 2) (f : ContextRun → ContextRun) : (e.updateContext c f).noRecord = e.noRecord := by unfold Engine.updateContext; split <;> rfl
@[simp] theorem Engine.updateContext_cardPorts (e : Engine) (c : Fin 2) (f : ContextRun → ContextRun) : (e.updateContext c f).cardPorts = e.cardPorts := by unfold Engine.updateContext; split <;> rfl
@[simp] theorem Engine.updateContext_volumes (e : Engine) (c : Fin 2) (f : ContextRun → ContextRun) : (e.updateContext c f).volumes = e.volumes := by unfold Engine.updateContext; split <;> rfl
@[simp] theorem Engine.updateContext_destPorts (e : Engine) (c : Fin 2) (f : ContextRun → ContextRun) : (e.updateContext c f).destPorts = e.destPorts := by unfold Engine.updateContext; split <;> rfl
@[simp] theorem Engine.updateContext_untracked (e : Engine) (c : Fin 2) (f : ContextRun → ContextRun) : (e.updateContext c f).untracked = e.untracked := by unfold Engine.updateContext; split <;> rfl
@[simp] theorem Engine.updateContext_queue (e : Engine) (c : Fin 2) (f : ContextRun → ContextRun) : (e.updateContext c f).queue = e.queue := by unfold Engine.updateContext; split <;> rfl
@[simp] theorem Engine.updateContext_lanes (e : Engine) (c : Fin 2) (f : ContextRun → ContextRun) : (e.updateContext c f).lanes = e.lanes := by unfold Engine.updateContext; split <;> rfl
@[simp] theorem Engine.updateContext_pipeline (e : Engine) (c : Fin 2) (f : ContextRun → ContextRun) : (e.updateContext c f).pipeline = e.pipeline := by unfold Engine.updateContext; split <;> rfl
@[simp] theorem Engine.updateContext_lastPipeline (e : Engine) (c : Fin 2) (f : ContextRun → ContextRun) : (e.updateContext c f).lastPipeline = e.lastPipeline := by unfold Engine.updateContext; split <;> rfl
@[simp] theorem Engine.updateContext_jobs (e : Engine) (c : Fin 2) (f : ContextRun → ContextRun) : (e.updateContext c f).jobs = e.jobs := by unfold Engine.updateContext; split <;> rfl
@[simp] theorem Engine.updateContext_lastJobGrant (e : Engine) (c : Fin 2) (f : ContextRun → ContextRun) : (e.updateContext c f).lastJobGrant = e.lastJobGrant := by unfold Engine.updateContext; split <;> rfl
@[simp] theorem Engine.updateContext_paused (e : Engine) (c : Fin 2) (f : ContextRun → ContextRun) : (e.updateContext c f).paused = e.paused := by unfold Engine.updateContext; split <;> rfl
@[simp] theorem Engine.updateContext_monitor (e : Engine) (c : Fin 2) (f : ContextRun → ContextRun) : (e.updateContext c f).monitor = e.monitor := by unfold Engine.updateContext; split <;> rfl
@[simp] theorem Engine.updateContext_scans (e : Engine) (c : Fin 2) (f : ContextRun → ContextRun) : (e.updateContext c f).scans = e.scans := by unfold Engine.updateContext; split <;> rfl
@[simp] theorem Engine.updateContext_sampler (e : Engine) (c : Fin 2) (f : ContextRun → ContextRun) : (e.updateContext c f).sampler = e.sampler := by unfold Engine.updateContext; split <;> rfl
@[simp] theorem Engine.updateContext_faults (e : Engine) (c : Fin 2) (f : ContextRun → ContextRun) : (e.updateContext c f).faults = e.faults := by unfold Engine.updateContext; split <;> rfl
@[simp] theorem Engine.updateContext_faultCounter (e : Engine) (c : Fin 2) (f : ContextRun → ContextRun) : (e.updateContext c f).faultCounter = e.faultCounter := by unfold Engine.updateContext; split <;> rfl
@[simp] theorem Engine.updateContext_dropped (e : Engine) (c : Fin 2) (f : ContextRun → ContextRun) : (e.updateContext c f).dropped = e.dropped := by unfold Engine.updateContext; split <;> rfl
@[simp] theorem Engine.updateContext_faultSerial (e : Engine) (c : Fin 2) (f : ContextRun → ContextRun) : (e.updateContext c f).faultSerial = e.faultSerial := by unfold Engine.updateContext; split <;> rfl
@[simp] theorem Engine.updateContext_requeues (e : Engine) (c : Fin 2) (f : ContextRun → ContextRun) : (e.updateContext c f).requeues = e.requeues := by unfold Engine.updateContext; split <;> rfl
@[simp] theorem Engine.updateContext_events (e : Engine) (c : Fin 2) (f : ContextRun → ContextRun) : (e.updateContext c f).events = e.events := by unfold Engine.updateContext; split <;> rfl
@[simp] theorem Engine.updateContext_removed (e : Engine) (c : Fin 2) (f : ContextRun → ContextRun) : (e.updateContext c f).removed = e.removed := by unfold Engine.updateContext; split <;> rfl

/-! ## A context's state set -/

@[simp] theorem Engine.setContextState_cards (e : Engine) (c : Fin 2) (x : ContextState) : (e.setContextState c x).cards = e.cards := rfl
@[simp] theorem Engine.setContextState_clips (e : Engine) (c : Fin 2) (x : ContextState) : (e.setContextState c x).clips = e.clips := rfl
@[simp] theorem Engine.setContextState_waitList (e : Engine) (c : Fin 2) (x : ContextState) : (e.setContextState c x).waitList = e.waitList := rfl
@[simp] theorem Engine.setContextState_noRecord (e : Engine) (c : Fin 2) (x : ContextState) : (e.setContextState c x).noRecord = e.noRecord := rfl
@[simp] theorem Engine.setContextState_cardPorts (e : Engine) (c : Fin 2) (x : ContextState) : (e.setContextState c x).cardPorts = e.cardPorts := rfl
@[simp] theorem Engine.setContextState_volumes (e : Engine) (c : Fin 2) (x : ContextState) : (e.setContextState c x).volumes = e.volumes := rfl
@[simp] theorem Engine.setContextState_destPorts (e : Engine) (c : Fin 2) (x : ContextState) : (e.setContextState c x).destPorts = e.destPorts := rfl
@[simp] theorem Engine.setContextState_untracked (e : Engine) (c : Fin 2) (x : ContextState) : (e.setContextState c x).untracked = e.untracked := rfl
@[simp] theorem Engine.setContextState_queue (e : Engine) (c : Fin 2) (x : ContextState) : (e.setContextState c x).queue = e.queue := rfl
@[simp] theorem Engine.setContextState_lanes (e : Engine) (c : Fin 2) (x : ContextState) : (e.setContextState c x).lanes = e.lanes := rfl
@[simp] theorem Engine.setContextState_pipeline (e : Engine) (c : Fin 2) (x : ContextState) : (e.setContextState c x).pipeline = e.pipeline := rfl
@[simp] theorem Engine.setContextState_lastPipeline (e : Engine) (c : Fin 2) (x : ContextState) : (e.setContextState c x).lastPipeline = e.lastPipeline := rfl
@[simp] theorem Engine.setContextState_jobs (e : Engine) (c : Fin 2) (x : ContextState) : (e.setContextState c x).jobs = e.jobs := rfl
@[simp] theorem Engine.setContextState_lastJobGrant (e : Engine) (c : Fin 2) (x : ContextState) : (e.setContextState c x).lastJobGrant = e.lastJobGrant := rfl
@[simp] theorem Engine.setContextState_paused (e : Engine) (c : Fin 2) (x : ContextState) : (e.setContextState c x).paused = e.paused := rfl
@[simp] theorem Engine.setContextState_monitor (e : Engine) (c : Fin 2) (x : ContextState) : (e.setContextState c x).monitor = e.monitor := rfl
@[simp] theorem Engine.setContextState_scans (e : Engine) (c : Fin 2) (x : ContextState) : (e.setContextState c x).scans = e.scans := rfl
@[simp] theorem Engine.setContextState_sampler (e : Engine) (c : Fin 2) (x : ContextState) : (e.setContextState c x).sampler = e.sampler := rfl
@[simp] theorem Engine.setContextState_faults (e : Engine) (c : Fin 2) (x : ContextState) : (e.setContextState c x).faults = e.faults := rfl
@[simp] theorem Engine.setContextState_faultCounter (e : Engine) (c : Fin 2) (x : ContextState) : (e.setContextState c x).faultCounter = e.faultCounter := rfl
@[simp] theorem Engine.setContextState_dropped (e : Engine) (c : Fin 2) (x : ContextState) : (e.setContextState c x).dropped = e.dropped := rfl
@[simp] theorem Engine.setContextState_faultSerial (e : Engine) (c : Fin 2) (x : ContextState) : (e.setContextState c x).faultSerial = e.faultSerial := rfl
@[simp] theorem Engine.setContextState_requeues (e : Engine) (c : Fin 2) (x : ContextState) : (e.setContextState c x).requeues = e.requeues := rfl
@[simp] theorem Engine.setContextState_events (e : Engine) (c : Fin 2) (x : ContextState) : (e.setContextState c x).events = e.events := rfl
@[simp] theorem Engine.setContextState_removed (e : Engine) (c : Fin 2) (x : ContextState) : (e.setContextState c x).removed = e.removed := rfl

/-! ## A context's claim set -/

@[simp] theorem Engine.setClaim_cards (e : Engine) (c : Fin 2) (j : Option (Fin 16)) : (e.setClaim c j).cards = e.cards := rfl
@[simp] theorem Engine.setClaim_clips (e : Engine) (c : Fin 2) (j : Option (Fin 16)) : (e.setClaim c j).clips = e.clips := rfl
@[simp] theorem Engine.setClaim_waitList (e : Engine) (c : Fin 2) (j : Option (Fin 16)) : (e.setClaim c j).waitList = e.waitList := rfl
@[simp] theorem Engine.setClaim_noRecord (e : Engine) (c : Fin 2) (j : Option (Fin 16)) : (e.setClaim c j).noRecord = e.noRecord := rfl
@[simp] theorem Engine.setClaim_cardPorts (e : Engine) (c : Fin 2) (j : Option (Fin 16)) : (e.setClaim c j).cardPorts = e.cardPorts := rfl
@[simp] theorem Engine.setClaim_volumes (e : Engine) (c : Fin 2) (j : Option (Fin 16)) : (e.setClaim c j).volumes = e.volumes := rfl
@[simp] theorem Engine.setClaim_destPorts (e : Engine) (c : Fin 2) (j : Option (Fin 16)) : (e.setClaim c j).destPorts = e.destPorts := rfl
@[simp] theorem Engine.setClaim_untracked (e : Engine) (c : Fin 2) (j : Option (Fin 16)) : (e.setClaim c j).untracked = e.untracked := rfl
@[simp] theorem Engine.setClaim_queue (e : Engine) (c : Fin 2) (j : Option (Fin 16)) : (e.setClaim c j).queue = e.queue := rfl
@[simp] theorem Engine.setClaim_lanes (e : Engine) (c : Fin 2) (j : Option (Fin 16)) : (e.setClaim c j).lanes = e.lanes := rfl
@[simp] theorem Engine.setClaim_pipeline (e : Engine) (c : Fin 2) (j : Option (Fin 16)) : (e.setClaim c j).pipeline = e.pipeline := rfl
@[simp] theorem Engine.setClaim_lastPipeline (e : Engine) (c : Fin 2) (j : Option (Fin 16)) : (e.setClaim c j).lastPipeline = e.lastPipeline := rfl
@[simp] theorem Engine.setClaim_jobs (e : Engine) (c : Fin 2) (j : Option (Fin 16)) : (e.setClaim c j).jobs = e.jobs := rfl
@[simp] theorem Engine.setClaim_lastJobGrant (e : Engine) (c : Fin 2) (j : Option (Fin 16)) : (e.setClaim c j).lastJobGrant = e.lastJobGrant := rfl
@[simp] theorem Engine.setClaim_paused (e : Engine) (c : Fin 2) (j : Option (Fin 16)) : (e.setClaim c j).paused = e.paused := rfl
@[simp] theorem Engine.setClaim_monitor (e : Engine) (c : Fin 2) (j : Option (Fin 16)) : (e.setClaim c j).monitor = e.monitor := rfl
@[simp] theorem Engine.setClaim_scans (e : Engine) (c : Fin 2) (j : Option (Fin 16)) : (e.setClaim c j).scans = e.scans := rfl
@[simp] theorem Engine.setClaim_sampler (e : Engine) (c : Fin 2) (j : Option (Fin 16)) : (e.setClaim c j).sampler = e.sampler := rfl
@[simp] theorem Engine.setClaim_faults (e : Engine) (c : Fin 2) (j : Option (Fin 16)) : (e.setClaim c j).faults = e.faults := rfl
@[simp] theorem Engine.setClaim_faultCounter (e : Engine) (c : Fin 2) (j : Option (Fin 16)) : (e.setClaim c j).faultCounter = e.faultCounter := rfl
@[simp] theorem Engine.setClaim_dropped (e : Engine) (c : Fin 2) (j : Option (Fin 16)) : (e.setClaim c j).dropped = e.dropped := rfl
@[simp] theorem Engine.setClaim_faultSerial (e : Engine) (c : Fin 2) (j : Option (Fin 16)) : (e.setClaim c j).faultSerial = e.faultSerial := rfl
@[simp] theorem Engine.setClaim_requeues (e : Engine) (c : Fin 2) (j : Option (Fin 16)) : (e.setClaim c j).requeues = e.requeues := rfl
@[simp] theorem Engine.setClaim_events (e : Engine) (c : Fin 2) (j : Option (Fin 16)) : (e.setClaim c j).events = e.events := rfl
@[simp] theorem Engine.setClaim_removed (e : Engine) (c : Fin 2) (j : Option (Fin 16)) : (e.setClaim c j).removed = e.removed := rfl

/-! ## The Monitor Output updated -/

@[simp] theorem Engine.updateMonitor_cards (e : Engine) (f : MonitorOut → MonitorOut) : (e.updateMonitor f).cards = e.cards := rfl
@[simp] theorem Engine.updateMonitor_clips (e : Engine) (f : MonitorOut → MonitorOut) : (e.updateMonitor f).clips = e.clips := rfl
@[simp] theorem Engine.updateMonitor_waitList (e : Engine) (f : MonitorOut → MonitorOut) : (e.updateMonitor f).waitList = e.waitList := rfl
@[simp] theorem Engine.updateMonitor_noRecord (e : Engine) (f : MonitorOut → MonitorOut) : (e.updateMonitor f).noRecord = e.noRecord := rfl
@[simp] theorem Engine.updateMonitor_cardPorts (e : Engine) (f : MonitorOut → MonitorOut) : (e.updateMonitor f).cardPorts = e.cardPorts := rfl
@[simp] theorem Engine.updateMonitor_volumes (e : Engine) (f : MonitorOut → MonitorOut) : (e.updateMonitor f).volumes = e.volumes := rfl
@[simp] theorem Engine.updateMonitor_destPorts (e : Engine) (f : MonitorOut → MonitorOut) : (e.updateMonitor f).destPorts = e.destPorts := rfl
@[simp] theorem Engine.updateMonitor_untracked (e : Engine) (f : MonitorOut → MonitorOut) : (e.updateMonitor f).untracked = e.untracked := rfl
@[simp] theorem Engine.updateMonitor_queue (e : Engine) (f : MonitorOut → MonitorOut) : (e.updateMonitor f).queue = e.queue := rfl
@[simp] theorem Engine.updateMonitor_lanes (e : Engine) (f : MonitorOut → MonitorOut) : (e.updateMonitor f).lanes = e.lanes := rfl
@[simp] theorem Engine.updateMonitor_pipeline (e : Engine) (f : MonitorOut → MonitorOut) : (e.updateMonitor f).pipeline = e.pipeline := rfl
@[simp] theorem Engine.updateMonitor_lastPipeline (e : Engine) (f : MonitorOut → MonitorOut) : (e.updateMonitor f).lastPipeline = e.lastPipeline := rfl
@[simp] theorem Engine.updateMonitor_jobs (e : Engine) (f : MonitorOut → MonitorOut) : (e.updateMonitor f).jobs = e.jobs := rfl
@[simp] theorem Engine.updateMonitor_contexts (e : Engine) (f : MonitorOut → MonitorOut) : (e.updateMonitor f).contexts = e.contexts := rfl
@[simp] theorem Engine.updateMonitor_lastJobGrant (e : Engine) (f : MonitorOut → MonitorOut) : (e.updateMonitor f).lastJobGrant = e.lastJobGrant := rfl
@[simp] theorem Engine.updateMonitor_paused (e : Engine) (f : MonitorOut → MonitorOut) : (e.updateMonitor f).paused = e.paused := rfl
@[simp] theorem Engine.updateMonitor_scans (e : Engine) (f : MonitorOut → MonitorOut) : (e.updateMonitor f).scans = e.scans := rfl
@[simp] theorem Engine.updateMonitor_sampler (e : Engine) (f : MonitorOut → MonitorOut) : (e.updateMonitor f).sampler = e.sampler := rfl
@[simp] theorem Engine.updateMonitor_faults (e : Engine) (f : MonitorOut → MonitorOut) : (e.updateMonitor f).faults = e.faults := rfl
@[simp] theorem Engine.updateMonitor_faultCounter (e : Engine) (f : MonitorOut → MonitorOut) : (e.updateMonitor f).faultCounter = e.faultCounter := rfl
@[simp] theorem Engine.updateMonitor_dropped (e : Engine) (f : MonitorOut → MonitorOut) : (e.updateMonitor f).dropped = e.dropped := rfl
@[simp] theorem Engine.updateMonitor_faultSerial (e : Engine) (f : MonitorOut → MonitorOut) : (e.updateMonitor f).faultSerial = e.faultSerial := rfl
@[simp] theorem Engine.updateMonitor_requeues (e : Engine) (f : MonitorOut → MonitorOut) : (e.updateMonitor f).requeues = e.requeues := rfl
@[simp] theorem Engine.updateMonitor_events (e : Engine) (f : MonitorOut → MonitorOut) : (e.updateMonitor f).events = e.events := rfl
@[simp] theorem Engine.updateMonitor_removed (e : Engine) (f : MonitorOut → MonitorOut) : (e.updateMonitor f).removed = e.removed := rfl

/-! ## A scan context updated -/

@[simp] theorem Engine.updateScan_cards (e : Engine) (l : Fin 2) (f : ScanContext → ScanContext) : (e.updateScan l f).cards = e.cards := rfl
@[simp] theorem Engine.updateScan_clips (e : Engine) (l : Fin 2) (f : ScanContext → ScanContext) : (e.updateScan l f).clips = e.clips := rfl
@[simp] theorem Engine.updateScan_waitList (e : Engine) (l : Fin 2) (f : ScanContext → ScanContext) : (e.updateScan l f).waitList = e.waitList := rfl
@[simp] theorem Engine.updateScan_noRecord (e : Engine) (l : Fin 2) (f : ScanContext → ScanContext) : (e.updateScan l f).noRecord = e.noRecord := rfl
@[simp] theorem Engine.updateScan_cardPorts (e : Engine) (l : Fin 2) (f : ScanContext → ScanContext) : (e.updateScan l f).cardPorts = e.cardPorts := rfl
@[simp] theorem Engine.updateScan_volumes (e : Engine) (l : Fin 2) (f : ScanContext → ScanContext) : (e.updateScan l f).volumes = e.volumes := rfl
@[simp] theorem Engine.updateScan_destPorts (e : Engine) (l : Fin 2) (f : ScanContext → ScanContext) : (e.updateScan l f).destPorts = e.destPorts := rfl
@[simp] theorem Engine.updateScan_untracked (e : Engine) (l : Fin 2) (f : ScanContext → ScanContext) : (e.updateScan l f).untracked = e.untracked := rfl
@[simp] theorem Engine.updateScan_queue (e : Engine) (l : Fin 2) (f : ScanContext → ScanContext) : (e.updateScan l f).queue = e.queue := rfl
@[simp] theorem Engine.updateScan_lanes (e : Engine) (l : Fin 2) (f : ScanContext → ScanContext) : (e.updateScan l f).lanes = e.lanes := rfl
@[simp] theorem Engine.updateScan_pipeline (e : Engine) (l : Fin 2) (f : ScanContext → ScanContext) : (e.updateScan l f).pipeline = e.pipeline := rfl
@[simp] theorem Engine.updateScan_lastPipeline (e : Engine) (l : Fin 2) (f : ScanContext → ScanContext) : (e.updateScan l f).lastPipeline = e.lastPipeline := rfl
@[simp] theorem Engine.updateScan_jobs (e : Engine) (l : Fin 2) (f : ScanContext → ScanContext) : (e.updateScan l f).jobs = e.jobs := rfl
@[simp] theorem Engine.updateScan_contexts (e : Engine) (l : Fin 2) (f : ScanContext → ScanContext) : (e.updateScan l f).contexts = e.contexts := rfl
@[simp] theorem Engine.updateScan_lastJobGrant (e : Engine) (l : Fin 2) (f : ScanContext → ScanContext) : (e.updateScan l f).lastJobGrant = e.lastJobGrant := rfl
@[simp] theorem Engine.updateScan_paused (e : Engine) (l : Fin 2) (f : ScanContext → ScanContext) : (e.updateScan l f).paused = e.paused := rfl
@[simp] theorem Engine.updateScan_monitor (e : Engine) (l : Fin 2) (f : ScanContext → ScanContext) : (e.updateScan l f).monitor = e.monitor := rfl
@[simp] theorem Engine.updateScan_sampler (e : Engine) (l : Fin 2) (f : ScanContext → ScanContext) : (e.updateScan l f).sampler = e.sampler := rfl
@[simp] theorem Engine.updateScan_faults (e : Engine) (l : Fin 2) (f : ScanContext → ScanContext) : (e.updateScan l f).faults = e.faults := rfl
@[simp] theorem Engine.updateScan_faultCounter (e : Engine) (l : Fin 2) (f : ScanContext → ScanContext) : (e.updateScan l f).faultCounter = e.faultCounter := rfl
@[simp] theorem Engine.updateScan_dropped (e : Engine) (l : Fin 2) (f : ScanContext → ScanContext) : (e.updateScan l f).dropped = e.dropped := rfl
@[simp] theorem Engine.updateScan_faultSerial (e : Engine) (l : Fin 2) (f : ScanContext → ScanContext) : (e.updateScan l f).faultSerial = e.faultSerial := rfl
@[simp] theorem Engine.updateScan_requeues (e : Engine) (l : Fin 2) (f : ScanContext → ScanContext) : (e.updateScan l f).requeues = e.requeues := rfl
@[simp] theorem Engine.updateScan_events (e : Engine) (l : Fin 2) (f : ScanContext → ScanContext) : (e.updateScan l f).events = e.events := rfl
@[simp] theorem Engine.updateScan_removed (e : Engine) (l : Fin 2) (f : ScanContext → ScanContext) : (e.updateScan l f).removed = e.removed := rfl

/-! ## A fault record replaced -/

@[simp] theorem Engine.putFault_cards (e : Engine) (r : FaultRecord) : (e.putFault r).cards = e.cards := rfl
@[simp] theorem Engine.putFault_clips (e : Engine) (r : FaultRecord) : (e.putFault r).clips = e.clips := rfl
@[simp] theorem Engine.putFault_waitList (e : Engine) (r : FaultRecord) : (e.putFault r).waitList = e.waitList := rfl
@[simp] theorem Engine.putFault_noRecord (e : Engine) (r : FaultRecord) : (e.putFault r).noRecord = e.noRecord := rfl
@[simp] theorem Engine.putFault_cardPorts (e : Engine) (r : FaultRecord) : (e.putFault r).cardPorts = e.cardPorts := rfl
@[simp] theorem Engine.putFault_volumes (e : Engine) (r : FaultRecord) : (e.putFault r).volumes = e.volumes := rfl
@[simp] theorem Engine.putFault_destPorts (e : Engine) (r : FaultRecord) : (e.putFault r).destPorts = e.destPorts := rfl
@[simp] theorem Engine.putFault_untracked (e : Engine) (r : FaultRecord) : (e.putFault r).untracked = e.untracked := rfl
@[simp] theorem Engine.putFault_queue (e : Engine) (r : FaultRecord) : (e.putFault r).queue = e.queue := rfl
@[simp] theorem Engine.putFault_lanes (e : Engine) (r : FaultRecord) : (e.putFault r).lanes = e.lanes := rfl
@[simp] theorem Engine.putFault_pipeline (e : Engine) (r : FaultRecord) : (e.putFault r).pipeline = e.pipeline := rfl
@[simp] theorem Engine.putFault_lastPipeline (e : Engine) (r : FaultRecord) : (e.putFault r).lastPipeline = e.lastPipeline := rfl
@[simp] theorem Engine.putFault_jobs (e : Engine) (r : FaultRecord) : (e.putFault r).jobs = e.jobs := rfl
@[simp] theorem Engine.putFault_contexts (e : Engine) (r : FaultRecord) : (e.putFault r).contexts = e.contexts := rfl
@[simp] theorem Engine.putFault_lastJobGrant (e : Engine) (r : FaultRecord) : (e.putFault r).lastJobGrant = e.lastJobGrant := rfl
@[simp] theorem Engine.putFault_paused (e : Engine) (r : FaultRecord) : (e.putFault r).paused = e.paused := rfl
@[simp] theorem Engine.putFault_monitor (e : Engine) (r : FaultRecord) : (e.putFault r).monitor = e.monitor := rfl
@[simp] theorem Engine.putFault_scans (e : Engine) (r : FaultRecord) : (e.putFault r).scans = e.scans := rfl
@[simp] theorem Engine.putFault_sampler (e : Engine) (r : FaultRecord) : (e.putFault r).sampler = e.sampler := rfl
@[simp] theorem Engine.putFault_faultCounter (e : Engine) (r : FaultRecord) : (e.putFault r).faultCounter = e.faultCounter := rfl
@[simp] theorem Engine.putFault_dropped (e : Engine) (r : FaultRecord) : (e.putFault r).dropped = e.dropped := rfl
@[simp] theorem Engine.putFault_faultSerial (e : Engine) (r : FaultRecord) : (e.putFault r).faultSerial = e.faultSerial := rfl
@[simp] theorem Engine.putFault_requeues (e : Engine) (r : FaultRecord) : (e.putFault r).requeues = e.requeues := rfl
@[simp] theorem Engine.putFault_events (e : Engine) (r : FaultRecord) : (e.putFault r).events = e.events := rfl
@[simp] theorem Engine.putFault_removed (e : Engine) (r : FaultRecord) : (e.putFault r).removed = e.removed := rfl

/-! ## A port drives its outputs -/

@[simp] theorem Engine.drivePort_cards (e : Engine) (p : Fin 4) : (e.drivePort p).cards = e.cards := rfl
@[simp] theorem Engine.drivePort_clips (e : Engine) (p : Fin 4) : (e.drivePort p).clips = e.clips := rfl
@[simp] theorem Engine.drivePort_waitList (e : Engine) (p : Fin 4) : (e.drivePort p).waitList = e.waitList := rfl
@[simp] theorem Engine.drivePort_noRecord (e : Engine) (p : Fin 4) : (e.drivePort p).noRecord = e.noRecord := rfl
@[simp] theorem Engine.drivePort_volumes (e : Engine) (p : Fin 4) : (e.drivePort p).volumes = e.volumes := rfl
@[simp] theorem Engine.drivePort_destPorts (e : Engine) (p : Fin 4) : (e.drivePort p).destPorts = e.destPorts := rfl
@[simp] theorem Engine.drivePort_untracked (e : Engine) (p : Fin 4) : (e.drivePort p).untracked = e.untracked := rfl
@[simp] theorem Engine.drivePort_queue (e : Engine) (p : Fin 4) : (e.drivePort p).queue = e.queue := rfl
@[simp] theorem Engine.drivePort_lanes (e : Engine) (p : Fin 4) : (e.drivePort p).lanes = e.lanes := rfl
@[simp] theorem Engine.drivePort_pipeline (e : Engine) (p : Fin 4) : (e.drivePort p).pipeline = e.pipeline := rfl
@[simp] theorem Engine.drivePort_lastPipeline (e : Engine) (p : Fin 4) : (e.drivePort p).lastPipeline = e.lastPipeline := rfl
@[simp] theorem Engine.drivePort_jobs (e : Engine) (p : Fin 4) : (e.drivePort p).jobs = e.jobs := rfl
@[simp] theorem Engine.drivePort_contexts (e : Engine) (p : Fin 4) : (e.drivePort p).contexts = e.contexts := rfl
@[simp] theorem Engine.drivePort_lastJobGrant (e : Engine) (p : Fin 4) : (e.drivePort p).lastJobGrant = e.lastJobGrant := rfl
@[simp] theorem Engine.drivePort_paused (e : Engine) (p : Fin 4) : (e.drivePort p).paused = e.paused := rfl
@[simp] theorem Engine.drivePort_monitor (e : Engine) (p : Fin 4) : (e.drivePort p).monitor = e.monitor := rfl
@[simp] theorem Engine.drivePort_scans (e : Engine) (p : Fin 4) : (e.drivePort p).scans = e.scans := rfl
@[simp] theorem Engine.drivePort_sampler (e : Engine) (p : Fin 4) : (e.drivePort p).sampler = e.sampler := rfl
@[simp] theorem Engine.drivePort_faults (e : Engine) (p : Fin 4) : (e.drivePort p).faults = e.faults := rfl
@[simp] theorem Engine.drivePort_faultCounter (e : Engine) (p : Fin 4) : (e.drivePort p).faultCounter = e.faultCounter := rfl
@[simp] theorem Engine.drivePort_dropped (e : Engine) (p : Fin 4) : (e.drivePort p).dropped = e.dropped := rfl
@[simp] theorem Engine.drivePort_faultSerial (e : Engine) (p : Fin 4) : (e.drivePort p).faultSerial = e.faultSerial := rfl
@[simp] theorem Engine.drivePort_requeues (e : Engine) (p : Fin 4) : (e.drivePort p).requeues = e.requeues := rfl
@[simp] theorem Engine.drivePort_events (e : Engine) (p : Fin 4) : (e.drivePort p).events = e.events := rfl
@[simp] theorem Engine.drivePort_removed (e : Engine) (p : Fin 4) : (e.drivePort p).removed = e.removed := rfl

/-! ## A card's state set -/

@[simp] theorem Engine.setCardState_clips (e : Engine) (c : Fin 32) (x : CardState) : (e.setCardState c x).clips = e.clips := by simp only [Engine.setCardState]; split <;> simp
@[simp] theorem Engine.setCardState_waitList (e : Engine) (c : Fin 32) (x : CardState) : (e.setCardState c x).waitList = e.waitList := by simp only [Engine.setCardState]; split <;> simp
@[simp] theorem Engine.setCardState_noRecord (e : Engine) (c : Fin 32) (x : CardState) : (e.setCardState c x).noRecord = e.noRecord := by simp only [Engine.setCardState]; split <;> simp
@[simp] theorem Engine.setCardState_volumes (e : Engine) (c : Fin 32) (x : CardState) : (e.setCardState c x).volumes = e.volumes := by simp only [Engine.setCardState]; split <;> simp
@[simp] theorem Engine.setCardState_destPorts (e : Engine) (c : Fin 32) (x : CardState) : (e.setCardState c x).destPorts = e.destPorts := by simp only [Engine.setCardState]; split <;> simp
@[simp] theorem Engine.setCardState_untracked (e : Engine) (c : Fin 32) (x : CardState) : (e.setCardState c x).untracked = e.untracked := by simp only [Engine.setCardState]; split <;> simp
@[simp] theorem Engine.setCardState_queue (e : Engine) (c : Fin 32) (x : CardState) : (e.setCardState c x).queue = e.queue := by simp only [Engine.setCardState]; split <;> simp
@[simp] theorem Engine.setCardState_lanes (e : Engine) (c : Fin 32) (x : CardState) : (e.setCardState c x).lanes = e.lanes := by simp only [Engine.setCardState]; split <;> simp
@[simp] theorem Engine.setCardState_pipeline (e : Engine) (c : Fin 32) (x : CardState) : (e.setCardState c x).pipeline = e.pipeline := by simp only [Engine.setCardState]; split <;> simp
@[simp] theorem Engine.setCardState_lastPipeline (e : Engine) (c : Fin 32) (x : CardState) : (e.setCardState c x).lastPipeline = e.lastPipeline := by simp only [Engine.setCardState]; split <;> simp
@[simp] theorem Engine.setCardState_jobs (e : Engine) (c : Fin 32) (x : CardState) : (e.setCardState c x).jobs = e.jobs := by simp only [Engine.setCardState]; split <;> simp
@[simp] theorem Engine.setCardState_contexts (e : Engine) (c : Fin 32) (x : CardState) : (e.setCardState c x).contexts = e.contexts := by simp only [Engine.setCardState]; split <;> simp
@[simp] theorem Engine.setCardState_lastJobGrant (e : Engine) (c : Fin 32) (x : CardState) : (e.setCardState c x).lastJobGrant = e.lastJobGrant := by simp only [Engine.setCardState]; split <;> simp
@[simp] theorem Engine.setCardState_paused (e : Engine) (c : Fin 32) (x : CardState) : (e.setCardState c x).paused = e.paused := by simp only [Engine.setCardState]; split <;> simp
@[simp] theorem Engine.setCardState_monitor (e : Engine) (c : Fin 32) (x : CardState) : (e.setCardState c x).monitor = e.monitor := by simp only [Engine.setCardState]; split <;> simp
@[simp] theorem Engine.setCardState_scans (e : Engine) (c : Fin 32) (x : CardState) : (e.setCardState c x).scans = e.scans := by simp only [Engine.setCardState]; split <;> simp
@[simp] theorem Engine.setCardState_sampler (e : Engine) (c : Fin 32) (x : CardState) : (e.setCardState c x).sampler = e.sampler := by simp only [Engine.setCardState]; split <;> simp
@[simp] theorem Engine.setCardState_faults (e : Engine) (c : Fin 32) (x : CardState) : (e.setCardState c x).faults = e.faults := by simp only [Engine.setCardState]; split <;> simp
@[simp] theorem Engine.setCardState_faultCounter (e : Engine) (c : Fin 32) (x : CardState) : (e.setCardState c x).faultCounter = e.faultCounter := by simp only [Engine.setCardState]; split <;> simp
@[simp] theorem Engine.setCardState_dropped (e : Engine) (c : Fin 32) (x : CardState) : (e.setCardState c x).dropped = e.dropped := by simp only [Engine.setCardState]; split <;> simp
@[simp] theorem Engine.setCardState_faultSerial (e : Engine) (c : Fin 32) (x : CardState) : (e.setCardState c x).faultSerial = e.faultSerial := by simp only [Engine.setCardState]; split <;> simp
@[simp] theorem Engine.setCardState_requeues (e : Engine) (c : Fin 32) (x : CardState) : (e.setCardState c x).requeues = e.requeues := by simp only [Engine.setCardState]; split <;> simp
@[simp] theorem Engine.setCardState_events (e : Engine) (c : Fin 32) (x : CardState) : (e.setCardState c x).events = e.events := by simp only [Engine.setCardState]; split <;> simp
@[simp] theorem Engine.setCardState_removed (e : Engine) (c : Fin 32) (x : CardState) : (e.setCardState c x).removed = e.removed := by simp only [Engine.setCardState]; split <;> simp

/-! ## A step begins -/

@[simp] theorem Engine.beginStep_cards (e : Engine) : (e.beginStep).cards = e.cards := rfl
@[simp] theorem Engine.beginStep_clips (e : Engine) : (e.beginStep).clips = e.clips := rfl
@[simp] theorem Engine.beginStep_waitList (e : Engine) : (e.beginStep).waitList = e.waitList := rfl
@[simp] theorem Engine.beginStep_noRecord (e : Engine) : (e.beginStep).noRecord = e.noRecord := rfl
@[simp] theorem Engine.beginStep_cardPorts (e : Engine) : (e.beginStep).cardPorts = e.cardPorts := rfl
@[simp] theorem Engine.beginStep_volumes (e : Engine) : (e.beginStep).volumes = e.volumes := rfl
@[simp] theorem Engine.beginStep_destPorts (e : Engine) : (e.beginStep).destPorts = e.destPorts := rfl
@[simp] theorem Engine.beginStep_untracked (e : Engine) : (e.beginStep).untracked = e.untracked := rfl
@[simp] theorem Engine.beginStep_queue (e : Engine) : (e.beginStep).queue = e.queue := rfl
@[simp] theorem Engine.beginStep_lanes (e : Engine) : (e.beginStep).lanes = e.lanes := rfl
@[simp] theorem Engine.beginStep_pipeline (e : Engine) : (e.beginStep).pipeline = e.pipeline := rfl
@[simp] theorem Engine.beginStep_lastPipeline (e : Engine) : (e.beginStep).lastPipeline = e.lastPipeline := rfl
@[simp] theorem Engine.beginStep_jobs (e : Engine) : (e.beginStep).jobs = e.jobs := rfl
@[simp] theorem Engine.beginStep_contexts (e : Engine) : (e.beginStep).contexts = e.contexts := rfl
@[simp] theorem Engine.beginStep_lastJobGrant (e : Engine) : (e.beginStep).lastJobGrant = e.lastJobGrant := rfl
@[simp] theorem Engine.beginStep_paused (e : Engine) : (e.beginStep).paused = e.paused := rfl
@[simp] theorem Engine.beginStep_monitor (e : Engine) : (e.beginStep).monitor = e.monitor := rfl
@[simp] theorem Engine.beginStep_scans (e : Engine) : (e.beginStep).scans = e.scans := rfl
@[simp] theorem Engine.beginStep_sampler (e : Engine) : (e.beginStep).sampler = e.sampler := rfl
@[simp] theorem Engine.beginStep_faults (e : Engine) : (e.beginStep).faults = e.faults := rfl
@[simp] theorem Engine.beginStep_faultCounter (e : Engine) : (e.beginStep).faultCounter = e.faultCounter := rfl
@[simp] theorem Engine.beginStep_dropped (e : Engine) : (e.beginStep).dropped = e.dropped := rfl
@[simp] theorem Engine.beginStep_faultSerial (e : Engine) : (e.beginStep).faultSerial = e.faultSerial := rfl
@[simp] theorem Engine.beginStep_requeues (e : Engine) : (e.beginStep).requeues = e.requeues := rfl

/-! ## Station ports -/

@[simp] theorem Stations.get_set_same (ss : Stations) (p : StationPort) (x : Station) : (ss.set p x).get p = x := by
  cases p <;> rfl

theorem Stations.get_set_other (ss : Stations) {p q : StationPort} (x : Station) (h : q ≠ p) : (ss.set p x).get q = ss.get q := by
  cases p <;> cases q <;> first | rfl | exact absurd rfl h

@[simp] theorem Stations.get_each (ss : Stations) (f : Station → Station) (p : StationPort) : (ss.each f).get p = f (ss.get p) := by
  cases p <;> rfl

@[simp] theorem Stations.set_set (ss : Stations) (p : StationPort) (x y : Station) : (ss.set p x).set p y = ss.set p y := by
  cases p <;> rfl

@[simp] theorem Stations.notify_nil (ss : Stations) : ss.notify [] = ss := rfl

/-- Each port is notified of each event. -/
theorem Stations.get_notify (ss : Stations) (evs : List Event) (p : StationPort) :
    (ss.notify evs).get p = evs.foldl (fun x ev => Station.offer ev x) (ss.get p) := by
  unfold Stations.notify
  induction evs generalizing ss with
  | nil => rfl
  | cons ev evs ih => simp [ih, Station.offer]

end Sys2Proof.Machine
end

