-- ==== Sys2Proof/Laws/Faults.lean ====
section
/-!
SUPPORT. What a fault that reaches the fault list can do, said once: which of the four outcomes of R179 to R181 it has, and that it
touches nothing but the list, its counters, the block-overflow flag of its clip and the events of the step.
-/

namespace Sys2Proof.Machine

/-- The outcomes of a raised fault (R179 to R181): discarded with a stale handle, coalesced with the unresolved record of its key, a
record created in a list with room or in place of the candidate, or dropped. -/
theorem Engine.raiseFault_cases (g : Settings) (e : Engine) (f : FaultInput) :
    let s := e.arrivingSeverity g f.kind f.card
    (e.clipAt f.clip = none ∧ e.raiseFault g f = e) ∨
    (∃ r, e.unresolvedWithKey f = some r ∧
      ((r.severity.rank < s.rank ∧ e.raiseFault g f = (e.putFault (r.coalesce f s)).signal (r.coalesce f s).raised) ∨
        (s.rank ≤ r.severity.rank ∧ e.raiseFault g f = e.putFault (r.coalesce f s)))) ∨
    (e.unresolvedWithKey f = none ∧ e.faults.length < Config.maxFaults ∧ e.raiseFault g f = e.createFault f s) ∨
    (e.unresolvedWithKey f = none ∧ Config.maxFaults ≤ e.faults.length ∧
      ((∃ victim, evictionCandidate e.faults s = some victim ∧
          e.raiseFault g f = { e with faults := e.faults.erase victim }.createFault f s) ∨
        (evictionCandidate e.faults s = none ∧ e.raiseFault g f = e.dropFault f s))) := by
  intro s
  unfold Engine.raiseFault
  cases hc : e.clipAt f.clip with
  | none => exact .inl ⟨rfl, rfl⟩
  | some c =>
    right
    cases hk : e.unresolvedWithKey f with
    | some r =>
      refine .inl ⟨r, rfl, ?_⟩
      by_cases hr : r.severity.rank < s.rank
      · exact .inl ⟨hr, by simp only [s] at hr ⊢; rw [if_pos hr]⟩
      · exact .inr ⟨Nat.le_of_not_lt hr, by simp only [s] at hr ⊢; rw [if_neg hr]⟩
    | none =>
      right
      simp only [Engine.admitFault]
      by_cases hl : e.faults.length < Config.maxFaults
      · exact .inl ⟨trivial, hl, if_pos hl⟩
      · refine .inr ⟨trivial, Nat.le_of_not_lt hl, ?_⟩
        rw [if_neg hl]
        cases hv : evictionCandidate e.faults s with
        | some victim => exact .inl ⟨victim, rfl, rfl⟩
        | none => exact .inr ⟨rfl, rfl⟩

/-- A raised fault leaves everything but the list, its counters, the clips and the events (R179 to R181). -/
theorem Engine.raiseFault_frame (g : Settings) (e : Engine) (f : FaultInput) :
    e.raiseFault g f = { e with
      clips := (e.raiseFault g f).clips, faults := (e.raiseFault g f).faults, faultCounter := (e.raiseFault g f).faultCounter,
      dropped := (e.raiseFault g f).dropped, faultSerial := (e.raiseFault g f).faultSerial,
      events := (e.raiseFault g f).events } := by
  rcases e.raiseFault_cases g f with ⟨-, h⟩ | ⟨r, -, ⟨-, h⟩ | ⟨-, h⟩⟩ | ⟨-, -, h⟩ | ⟨-, -, ⟨v, -, h⟩ | ⟨-, h⟩⟩ <;> rw [h]
  · rfl
  · rfl
  · rfl
  · rfl
  · unfold Engine.dropFault Engine.updateClip
    split
    · split <;> rfl
    · rfl

end Sys2Proof.Machine
end

