-- ==== Sys2Proof/Laws/Links.lean ====
section
/-!
SUPPORT. The copy requeues of the Event Link Matrix: when a pair waits, and that a requeue of a pair that a descriptor names is refused
and so has no effect (R100, R101, R195).
-/

namespace Sys2Proof.Machine

/-- A pair that waits is placed in the pending requeue list, and nothing else changes (R198). -/
@[simp] theorem Engine.requeuePair_waits (g : Settings) (e : Engine) (h : Handle) (v : Fin 16) (n : Nat) :
    e.requeuePair g h v n true = { e with requeues := placeRequeue e.requeues ⟨h, v, n⟩ } := rfl

/-- A pair that does not wait is asked for at once (R197). -/
@[simp] theorem Engine.requeuePair_asks (g : Settings) (e : Engine) (h : Handle) (v : Fin 16) (n : Nat) :
    e.requeuePair g h v n false = e.requeue g h v n := rfl

/-- A FAILED record waits exactly while a descriptor names its pair (R87, R197). -/
theorem Engine.signalerQueued_failed (e : Engine) (h : Handle) (v : Fin 16) {r : CopyRecord} (hr : r.state = .failed) :
    e.signalerQueued h v r = e.pairQueued h v := by simp [Engine.signalerQueued, hr]

/-- A WRITTEN record, which a failed VERIFY leaves, always waits (R92, R197). -/
theorem Engine.signalerQueued_written (e : Engine) (h : Handle) (v : Fin 16) {r : CopyRecord} (hr : r.state = .written) :
    e.signalerQueued h v r = true := by simp [Engine.signalerQueued, hr]

/-- A record in any other state, as a requeue leaves it, does not wait (R195). -/
theorem Engine.signalerQueued_other (e : Engine) (h : Handle) (v : Fin 16) {r : CopyRecord} (hf : r.state ≠ .failed)
    (hw : r.state ≠ .written) : e.signalerQueued h v r = false := by
  cases hs : r.state <;> simp_all [Engine.signalerQueued]

/-- No volume of a port is a recopy target while a descriptor names it with the clip (R100). -/
theorem Engine.recopyTargets_named {e : Engine} {c : Clip} {v : Fin 16} {p : Fin 4} (hv : e.entryAt p = some v)
    (hd : e.pairQueued c.handle v = true) : e.recopyTargets c (BitVec.ofNat 4 (2 ^ p.val)) = [] := by
  have hbit : ∀ p q : Fin 4, (BitVec.ofNat 4 (2 ^ p.val)).getLsbD q.val = true → q = p := by decide
  simp only [Engine.recopyTargets, Engine.volumesAt, List.filter_eq_nil_iff, List.mem_filterMap]
  rintro a ⟨q, -, ha⟩
  split at ha
  · rename_i hb
    rw [hbit p q hb, hv] at ha
    obtain rfl := Option.some.inj ha
    simpa [Engine.pairQueued] using fun _ => hd
  · cases ha

/-- A requeue of a pair that a descriptor names is refused, and has no effect (R101, R195). -/
theorem Engine.requeue_named {g : Settings} {e : Engine} {v : Fin 16} {c : Clip} (hc : e.clipAt c.handle = some c)
    (hp : ∀ p, e.portOf v = some p → e.entryAt p = some v) (hd : e.pairQueued c.handle v = true) (n : Nat) :
    e.requeue g c.handle v n = e := by
  unfold Engine.requeue
  rw [hc]
  cases hq : e.portOf v with
  | none => rfl
  | some p =>
    simp only [Engine.queueRecopy, Engine.recopyTargets_named (hp p hq) hd]
    cases e.cards[c.card] with
    | none => rfl
    | some r => by_cases hw : r.state.workable = true <;> simp [hw]

end Sys2Proof.Machine
end

