-- ==== Sys2Proof/Laws/Stations.lean ====
section
/-!
SUPPORT. What the shared operations of the station ports and of a step do, said once: sending and notifying leave a port's requests
alone, a step's end leaves the settings alone, and a request taken is answered in that step.
-/

namespace Sys2Proof.Machine

/-! ## One port -/

@[simp] theorem Station.pump_up (x : Station) : x.pump.up = x.up := by unfold Station.pump; split <;> rfl
@[simp] theorem Station.pump_untaken (x : Station) : x.pump.untaken = x.untaken := by unfold Station.pump; split <;> rfl
@[simp] theorem Station.pump_response (x : Station) : x.pump.response = x.response := by unfold Station.pump; split <;> rfl
@[simp] theorem Station.pump_refusals (x : Station) : x.pump.refusals = x.refusals := by unfold Station.pump; split <;> rfl
@[simp] theorem Station.pump_notices (x : Station) : x.pump.notices = x.notices := by unfold Station.pump; split <;> rfl
@[simp] theorem Station.pump_mask (x : Station) : x.pump.mask = x.mask := by unfold Station.pump; split <;> rfl
@[simp] theorem Station.pump_missed (x : Station) : x.pump.missed = x.missed := by unfold Station.pump; split <;> rfl
@[simp] theorem Station.pump_sequence (x : Station) : x.pump.sequence = x.sequence := by unfold Station.pump; split <;> rfl
@[simp] theorem Station.pump_resetFlag (x : Station) : x.pump.resetFlag = x.resetFlag := by unfold Station.pump; split <;> rfl

@[simp] theorem Station.offer_up (ev : Event) (x : Station) : (x.offer ev).up = x.up := by
  unfold Station.offer; split <;> (try split) <;> rfl
@[simp] theorem Station.offer_untaken (ev : Event) (x : Station) : (x.offer ev).untaken = x.untaken := by
  unfold Station.offer; split <;> (try split) <;> rfl
@[simp] theorem Station.offer_response (ev : Event) (x : Station) : (x.offer ev).response = x.response := by
  unfold Station.offer; split <;> (try split) <;> rfl
@[simp] theorem Station.offer_refusals (ev : Event) (x : Station) : (x.offer ev).refusals = x.refusals := by
  unfold Station.offer; split <;> (try split) <;> rfl
@[simp] theorem Station.offer_sending (ev : Event) (x : Station) : (x.offer ev).sending = x.sending := by
  unfold Station.offer; split <;> (try split) <;> rfl
@[simp] theorem Station.offer_mask (ev : Event) (x : Station) : (x.offer ev).mask = x.mask := by
  unfold Station.offer; split <;> (try split) <;> rfl

/-- Notices leave what a port holds of requests as it was. -/
theorem Station.offers_response (evs : List Event) (x : Station) :
    (evs.foldl (fun x ev => Station.offer ev x) x).response = x.response := by
  induction evs generalizing x with
  | nil => rfl
  | cons ev evs ih => simp [ih]

@[simp] theorem Stations.notify_response (ss : Stations) (evs : List Event) (p : StationPort) :
    ((ss.notify evs).get p).response = (ss.get p).response := by
  rw [Stations.get_notify]; exact Station.offers_response evs _

/-! ## The end of a step -/

@[simp] theorem State.closeStep_settings (s : State) : s.closeStep.settings = s.settings := rfl
@[simp] theorem State.closeStep_pending (s : State) : s.closeStep.pending = s.pending := rfl
@[simp] theorem State.closeStep_resetHeld (s : State) : s.closeStep.resetHeld = s.resetHeld := rfl
@[simp] theorem State.closeStep_now (s : State) : s.closeStep.now = s.now := rfl
@[simp] theorem State.closeStep_seated (s : State) : s.closeStep.seated = s.seated := rfl
@[simp] theorem State.closeStep_mounted (s : State) : s.closeStep.mounted = s.mounted := rfl

@[simp] theorem State.closeStep_response (s : State) (p : StationPort) :
    (s.closeStep.stations.get p).response = (s.stations.get p).response := by
  simp [State.closeStep]

/-- A step that signaled nothing and removed no descriptor ends by sending. -/
theorem State.closeStep_quiet (s : State) (h : s.engine.events = []) (hr : s.engine.removed = false) :
    s.closeStep = { s with stations := s.stations.each Station.pump } := by
  have he : s.engine.endStep s.settings = s.engine := by simp [Engine.endStep, Engine.takeEvents, Engine.afterRemoval, h, hr]
  simp [State.closeStep, he, h]

/-- No entry of a silent matrix acts on an event. -/
theorem Engine.takeEvent_silent {g : Settings} (h : g.silent = true) (e : Engine) (ev : Event) : e.takeEvent g ev = e := by
  have hall : ∀ x ∈ g.links.toList, x = none := by
    intro x hx
    obtain ⟨i, hi, rfl⟩ := List.mem_iff_getElem.mp hx
    have := of_decide_eq_true h
    simpa using this ⟨i, by simpa using hi⟩
  unfold Engine.takeEvent
  generalize g.links.toList = xs at hall
  induction xs with
  | nil => rfl
  | cons x xs ih =>
    have hx : x = none := hall x (by simp)
    subst hx
    exact ih (fun y hy => hall y (by simp [hy]))

/-- A silent matrix takes no action. -/
theorem Engine.takeEvents_silent {g : Settings} (h : g.silent = true) (e : Engine) : e.takeEvents g = e := by
  unfold Engine.takeEvents
  generalize e.events = evs
  induction evs with
  | nil => rfl
  | cons ev evs ih => simp [Engine.takeEvent_silent h, ih]

/-- With a silent matrix, a step that removed no descriptor leaves the blocks as its rule left them. -/
theorem State.closeStep_silent (s : State) (h : s.settings.silent = true) (hr : s.engine.removed = false) :
    s.closeStep = { s with stations := (s.stations.notify s.engine.events).each Station.pump } := by
  have he : s.engine.endStep s.settings = s.engine := by
    simp [Engine.endStep, Engine.takeEvents_silent h, Engine.afterRemoval, hr]
  simp [State.closeStep, he]

/-- With a silent matrix and no requeue waiting, a step leaves the blocks as its rule left them. -/
theorem State.closeStep_noRequeue (s : State) (h : s.settings.silent = true) (hq : s.engine.requeues = []) :
    s.closeStep = { s with stations := (s.stations.notify s.engine.events).each Station.pump } := by
  have he : s.engine.endStep s.settings = s.engine := by
    simp [Engine.endStep, Engine.takeEvents_silent h, Engine.afterRemoval, hq, Engine.examineRequeues]
  simp [State.closeStep, he]

/-! ## A step of the blocks -/

@[simp] theorem State.run_settings (s : State) (f : Settings → Engine → Engine) : (s.run f).settings = s.settings := by
  unfold State.run; split <;> rfl
@[simp] theorem State.run_pending (s : State) (f : Settings → Engine → Engine) : (s.run f).pending = s.pending := by
  unfold State.run; split <;> rfl

/-- A step of the blocks of a part that is not held in reset. -/
theorem State.run_of_not_held {s : State} (h : s.resetHeld = false) (f : Settings → Engine → Engine) :
    s.run f = { s with engine := f s.settings s.engine.beginStep }.closeStep := by
  simp [State.run, h, State.openStep]

/-! ## Requests -/

/-- A port that accepts a request takes it: the role is checked, and the rule answers (R203, R205). -/
theorem State.take_of_accepts {α : Type} [DecidableEq α] {s : State} {o : Origin} (h : s.accepts o = true) (kind : Nat)
    (read : Reader α) (args : α) (rule : State → Answer × State) :
    s.take o kind read args rule = s.answerBy o kind [] (if permitted o.port kind then rule else refuseWith .notPermitted) := by
  simp only [State.accepts, Bool.and_eq_true, decide_eq_true_eq] at h
  simp [State.take, h.1, h.2]

/-- A request of a port that has no request of its waiting is answered by its rule, as the rule leaves the state (R203). -/
theorem State.answerBy_eq (s : State) (o : Origin) (kind : Nat) (rest : List Request) (rule : State → Answer × State) :
    s.answerBy o kind rest rule =
      ((rule { s with engine := s.engine.beginStep
                      stations := s.stations.set o.port { s.stations.get o.port with untaken := rest } }).2.respond o kind
        (rule { s with engine := s.engine.beginStep
                       stations := s.stations.set o.port { s.stations.get o.port with untaken := rest } }).1).closeStep := rfl

@[simp] theorem State.respond_settings (s : State) (o : Origin) (k : Nat) (a : Answer) : (s.respond o k a).settings = s.settings := rfl
@[simp] theorem State.respond_engine (s : State) (o : Origin) (k : Nat) (a : Answer) : (s.respond o k a).engine = s.engine := rfl
@[simp] theorem State.respond_pending (s : State) (o : Origin) (k : Nat) (a : Answer) : (s.respond o k a).pending = s.pending := rfl

/-- The answer of a rule waits at the port (R203). -/
@[simp] theorem State.respond_response (s : State) (o : Origin) (k : Nat) (a : Answer) :
    ((s.respond o k a).stations.get o.port).response = some ⟨o.tag, k, a.1, a.2⟩ := by
  simp [State.respond]

end Sys2Proof.Machine
end

