-- ==== Sys2Proof/Laws/Requests.lean ====
section
/-!
SUPPORT. Requests at a port that accepts them: what a rule that signals nothing leaves, and that the operands of a request are read
from the numbers that name them.
-/

namespace Sys2Proof.Machine

/-! ## Rules that signal nothing -/

/-- A request whose rule signals nothing is answered, with the settings and the blocks as the rule leaves them. -/
theorem State.take_plain {α : Type} [DecidableEq α] {s : State} {o : Origin} (h : s.accepts o = true) {kind : Nat}
    (read : Reader α) (args : α) {rule : State → Answer × State} {a : Answer} {g : Settings} {e : Engine}
    (hp : permitted o.port kind = true)
    (hr : ∀ ss, rule { s with engine := s.blocks, stations := ss } = (a, { s with settings := g, engine := e, stations := ss }))
    (he : e.events = []) (hm : e.removed = false) :
    ∃ t, Host.Outcome.next (φ := Fault) (ρ := Refusal) (s.take o kind read args rule) = .next t ∧ s.onlyAnswered t o kind a ∧
      t.settings = g ∧ t.engine = e := by
  refine ⟨_, rfl, ?_⟩
  rw [State.take_of_accepts h, if_pos hp, State.answerBy_eq, hr]
  rw [State.closeStep_quiet _ (by simpa [State.respond] using he) (by simpa [State.respond] using hm)]
  simp [State.onlyAnswered, State.withAnswer, State.respond]

/-- A request that its rule refuses, or that only reads, leaves settings and blocks. -/
theorem State.take_keep {α : Type} [DecidableEq α] {s : State} {o : Origin} (h : s.accepts o = true) {kind : Nat}
    (read : Reader α) (args : α) {rule : State → Answer × State} {a : Answer} (hp : permitted o.port kind = true)
    (hr : ∀ ss, rule { s with engine := s.blocks, stations := ss } = (a, { s with engine := s.blocks, stations := ss })) :
    ∃ t, Host.Outcome.next (φ := Fault) (ρ := Refusal) (s.take o kind read args rule) = .next t ∧ s.onlyAnswered t o kind a ∧
      t.settings = s.settings ∧ t.engine = s.blocks :=
  State.take_plain h read args hp (g := s.settings) (e := s.blocks) hr rfl rfl

/-- A request whose rule acts on the blocks of a part with a silent matrix, and removes no descriptor: the blocks are as the rule
leaves them, and its events have become notices. -/
theorem State.take_blocks {α : Type} [DecidableEq α] {s : State} {o : Origin} (h : s.accepts o = true)
    (hq : s.settings.silent = true) {kind : Nat} (read : Reader α) (args : α) {rule : State → Answer × State} {a : Answer}
    {e : Engine} (hp : permitted o.port kind = true)
    (hr : ∀ ss, rule { s with engine := s.blocks, stations := ss } = (a, { s with engine := e, stations := ss }))
    (hm : e.removed = false ∨ e.requeues = []) :
    ∃ t, Host.Outcome.next (φ := Fault) (ρ := Refusal) (s.take o kind read args rule) = .next t ∧ s.answeredWith t o kind a ∧
      t.engine = e := by
  refine ⟨_, rfl, ?_⟩
  rw [State.take_of_accepts h, if_pos hp, State.answerBy_eq, hr]
  rcases hm with hm | hm
  · rw [State.closeStep_silent _ (by simpa [State.respond] using hq) (by simpa [State.respond] using hm)]
    simp [State.answeredWith, State.withAnswer, State.respond]
  · rw [State.closeStep_noRequeue _ (by simpa [State.respond] using hq) (by simpa [State.respond] using hm)]
    simp [State.answeredWith, State.withAnswer, State.respond]

/-- Whatever the matrix does, a request whose rule keeps the settings is answered and changes nothing outside the blocks. -/
theorem State.take_answered {α : Type} [DecidableEq α] {s : State} {o : Origin} (h : s.accepts o = true) {kind : Nat}
    (read : Reader α) (args : α) {rule : State → Answer × State} {a : Answer} {e : Engine} (hp : permitted o.port kind = true)
    (hr : ∀ ss, rule { s with engine := s.blocks, stations := ss } = (a, { s with engine := e, stations := ss })) :
    ∃ t, Host.Outcome.next (φ := Fault) (ρ := Refusal) (s.take o kind read args rule) = .next t ∧ s.answeredWith t o kind a ∧
      t.engine = e.endStep s.settings := by
  refine ⟨_, rfl, ?_⟩
  rw [State.take_of_accepts h, if_pos hp, State.answerBy_eq, hr]
  simp [State.answeredWith, State.withAnswer, State.respond, State.closeStep]

/-- A step of the blocks, at rest in its surroundings (R190, R207). -/
theorem State.run_ranInPlace {s : State} (h : s.resetHeld = false) (f : Settings → Engine → Engine) :
    s.ranInPlace (s.run f) ∧ (s.run f).engine = (f s.settings s.blocks).endStep s.settings := by
  simp [State.ranInPlace, State.ranBlocks, State.run, h, State.openStep, State.closeStep]

/-- With a silent matrix and no descriptor removed, the blocks of a step are as its rule leaves them. -/
theorem Engine.endStep_silent {g : Settings} (h : g.silent = true) {e : Engine} (hm : e.removed = false ∨ e.requeues = []) :
    e.endStep g = e := by
  rcases hm with hm | hm <;>
    simp [Engine.endStep, Engine.takeEvents_silent h, Engine.afterRemoval, hm, Engine.examineRequeues]

/-! ## Operands -/

/-- An index is read as itself. -/
theorem checkIndex_val {n : Nat} (i : Fin n) : checkIndex n i.val = .ok i := by simp [checkIndex]

/-- A number that is no index is refused with BAD_ARGUMENT. -/
theorem checkIndex_big {n x : Nat} (h : n ≤ x) : checkIndex n x = .error .badArgument := by
  simp [checkIndex, Nat.not_lt.mpr h]

/-- A camera letter or ANY is read from its byte. -/
theorem cameraOf_legal (c : Option Byte) (h : cameraLegal c = true) : cameraOf ((c.map BitVec.toNat).getD 255) = some c := by
  cases c with
  | none => rfl
  | some b =>
    simp [cameraLegal] at h
    have := b.isLt
    simp [cameraOf, namedByte, h]
    omega

theorem eventKindOf_number (k : EventKind) : eventKindOf k.number = some k := by cases k <;> rfl
theorem severityOf_rank (k : Severity) : severityOf k.rank = some k := by cases k <;> rfl
theorem linkActionOf_number (k : LinkAction) : linkActionOf k.number = some k := by cases k <;> rfl
theorem verifyModeOf_number (m : VerifyMode) : verifyModeOf m.number = some m := by cases m <;> rfl
theorem referenceOf_number (r : Reference) : referenceOf r.number = some r := by cases r <;> rfl

/-- A rate code or FOLLOW is read from its byte. -/
theorem rateOf_val (r : Option (Fin 9)) : rateOf ((r.map Fin.val).getD 255) = some r := by
  cases r with
  | none => rfl
  | some r => simp [rateOf, namedByte]; omega

/-- The handle of an occupied slot is checked to its record (R5). -/
theorem Engine.checkClip_val {e : Engine} {h : Handle} {c : Clip} (hc : e.clipAt h = some c) :
    e.checkClip h.slot h.gen = .ok c := by
  simp [Engine.checkClip, hc]

/-- A stale handle is NOT_FOUND (R5). -/
theorem Engine.checkClip_stale {e : Engine} {h : Handle} (hc : e.clipAt h = none) :
    e.checkClip h.slot h.gen = .error .notFound := by
  simp [Engine.checkClip, hc]

/-- The card slot of a record is checked to it (R1). -/
theorem Engine.checkCard_val {e : Engine} {c : Fin 32} {r : CardRecord} (hc : e.cards[c] = some r) :
    e.checkCard c = .ok (c, r) := by
  simp only [Fin.getElem_fin] at hc
  simp [Engine.checkCard, hc]

end Sys2Proof.Machine
end

