-- ==== Sys2Proof/Laws/Settle.lean ====
section
/-!
SUPPORT. When the lane grant (R83) and the Render Engine (R134, R137) have nothing to do, what they leave: everything.
-/

namespace Sys2Proof.Machine

/-! ## The Render Engine -/

/-- With nothing to move, the Render Engine stays as it is. -/
theorem Engine.drive_none {g : Settings} {e : Engine} (h : e.renderMove g = none) (n : Nat) : Engine.drive g n e = e := by
  cases n with
  | zero => rfl
  | succ n => simp [Engine.drive, h]

/-- What a part with no job, claim or running context lets the Render Engine do. -/
theorem Engine.renderMove_idle {g : Settings} {e : Engine} (h : e.renderIdle = true) : e.renderMove g = none := by
  simp only [Engine.renderIdle, Bool.and_eq_true, decide_eq_true_eq] at h
  obtain ⟨⟨hj, hc⟩, hr⟩ := h
  have hg : ∀ c, e.grantContext g c = none := by
    intro c
    unfold Engine.grantContext
    split
    · rw [hc c]; simp [Engine.nextJob, hj]
    · rfl
  have hm : ∀ c, e.contextMove g c = none := by intro c; simp [Engine.contextMove, hr c]
  have ha : ∀ c, e.asksPipeline c = false := by intro c; simp [Engine.asksPipeline, hr c]
  have hp : e.grantPipeline = none := by
    have : e.pipelineChoice = none := by simp [Engine.pipelineChoice, ha]
    unfold Engine.grantPipeline; rw [this]; cases e.pipeline <;> rfl
  simp [Engine.renderMove, hg, hm, hp]

/-- An idle Render Engine settles as it stands. -/
theorem Engine.settleRender_idle {g : Settings} {e : Engine} (h : e.renderIdle = true) : e.settleRender g = e :=
  Engine.drive_none (Engine.renderMove_idle h) _

/-! ## The lane grant -/

/-- With no lane IDLE nothing is granted (R83). -/
theorem Engine.grantLanes_taken {g : Settings} {e : Engine} (h : e.lanesTaken = true) (n : Nat) : Engine.grantLanes g n e = e := by
  have : e.idleLane = none := of_decide_eq_true h
  cases n with
  | zero => rfl
  | succ n => simp [Engine.grantLanes, this]

/-- With an empty copy queue nothing is granted (R83). -/
theorem Engine.grantLanes_empty {g : Settings} {e : Engine} (h : e.queue = []) (n : Nat) : Engine.grantLanes g n e = e := by
  have : e.eligible = none := by simp [Engine.eligible, h]
  cases n with
  | zero => rfl
  | succ n => simp only [Engine.grantLanes, this]; split <;> simp_all

/-- With no lane IDLE, the lane grant leaves what the Render Engine does. -/
theorem Engine.settleTransfer_taken {g : Settings} {e : Engine} (h : e.lanesTaken = true) :
    e.settleTransfer g = e.settleRender g := by
  simp [Engine.settleTransfer, Engine.grantLanes_taken h]

/-- With an empty copy queue, the lane grant leaves what the Render Engine does. -/
theorem Engine.settleTransfer_empty {g : Settings} {e : Engine} (h : e.queue = []) : e.settleTransfer g = e.settleRender g := by
  simp [Engine.settleTransfer, Engine.grantLanes_empty h]

/-- With no lane IDLE and an idle Render Engine, the transfer settles as it stands. -/
theorem Engine.settleTransfer_quiet {g : Settings} {e : Engine} (h : e.lanesTaken = true) (hr : e.renderIdle = true) :
    e.settleTransfer g = e := by
  rw [Engine.settleTransfer_taken h, Engine.settleRender_idle hr]

/-- With an empty copy queue and an idle Render Engine, the transfer settles as it stands. -/
theorem Engine.settleTransfer_done {g : Settings} {e : Engine} (h : e.queue = []) (hr : e.renderIdle = true) :
    e.settleTransfer g = e := by
  rw [Engine.settleTransfer_empty h, Engine.settleRender_idle hr]

/-- Whether a lane is IDLE depends on the lanes alone. -/
theorem Engine.lanesTaken_congr {e e' : Engine} (h : e'.lanes = e.lanes) : e'.lanesTaken = e.lanesTaken := by
  simp [Engine.lanesTaken, Engine.idleLane, h]

/-- Whether the Render Engine is idle depends on the jobs and the contexts alone. -/
theorem Engine.renderIdle_congr {e e' : Engine} (hj : e'.jobs = e.jobs) (hc : e'.contexts = e.contexts) :
    e'.renderIdle = e.renderIdle := by
  simp [Engine.renderIdle, Engine.contextRun, hj, hc]

/-- Blocks with the lanes, jobs and contexts of quiet ones settle as they stand. -/
theorem Engine.settleTransfer_like {g : Settings} {e e' : Engine} (h : e.lanesTaken = true) (hr : e.renderIdle = true)
    (hl : e'.lanes = e.lanes) (hj : e'.jobs = e.jobs) (hc : e'.contexts = e.contexts) : e'.settleTransfer g = e' :=
  Engine.settleTransfer_quiet (by rw [Engine.lanesTaken_congr hl, h]) (by rw [Engine.renderIdle_congr hj hc, hr])

/-- Blocks with an empty copy queue and the jobs and contexts of an idle Render Engine settle as they stand. -/
theorem Engine.settleTransfer_like_done {g : Settings} {e e' : Engine} (hr : e.renderIdle = true) (hq : e'.queue = [])
    (hj : e'.jobs = e.jobs) (hc : e'.contexts = e.contexts) : e'.settleTransfer g = e' :=
  Engine.settleTransfer_done hq (by rw [Engine.renderIdle_congr hj hc, hr])

/-- What a calm part is. -/
theorem State.calm_parts {s : State} (h : s.calm = true) :
    s.resetHeld = false ∧ s.settings.silent = true ∧ s.engine.lanesTaken = true ∧ s.engine.renderIdle = true := by
  simpa [State.calm, and_assoc] using h

/-- A step of the blocks under a silent matrix, which removes no descriptor or finds no requeue waiting, leaves the blocks as its rule
leaves them. -/
theorem State.run_silent {s : State} {f : Settings → Engine → Engine} {e : Engine} (h1 : s.resetHeld = false)
    (h2 : s.settings.silent = true) (hf : f s.settings s.blocks = e) (hm : e.removed = false ∨ e.requeues = []) :
    ∃ t, Host.Outcome.next (φ := Fault) (ρ := Refusal) (s.run f) = .next t ∧ s.ranInPlace t ∧ t.engine = e := by
  obtain ⟨hr, he⟩ := State.run_ranInPlace h1 f
  exact ⟨_, rfl, hr, by rw [he, hf, Engine.endStep_silent h2 hm]⟩

end Sys2Proof.Machine
end

