-- ==== Sys2Proof/Laws/Render.lean ====
section
/-!
SUPPORT. What the moves of the Render Engine leave of the other blocks (`Engine.renderLeaves`), operation by operation, up to
`Engine.settleRender`; that a Render Engine that waits makes none (`Engine.renderWaits`), and that it still waits after the end of a job
that no context carries.
-/

namespace Sys2Proof.Machine

/-! ## Leaving, and leaving again -/

theorem Engine.renderLeaves_refl (x : Engine) : x.renderLeaves x :=
  ⟨rfl, ⟨_, .inl rfl, rfl⟩, List.prefix_refl _, fun _ => .inr rfl⟩

theorem Engine.renderLeaves.trans {x y z : Engine} (h : x.renderLeaves y) (k : y.renderLeaves z) : x.renderLeaves z := by
  obtain ⟨hf, ⟨a, ha, hm⟩, he, hj⟩ := h
  obtain ⟨kf, ⟨b, hb, km⟩, ke, kj⟩ := k
  refine ⟨kf.trans (by rw [hf]), ⟨b, ?_, km.trans (by rw [hm])⟩, he.trans ke, fun j => ?_⟩
  · rcases hb with hb | hb
    · rw [hm] at hb; subst hb; exact ha
    · exact .inr hb
  · rcases kj j with k | k
    · exact .inl k
    · rcases hj j with h | h
      · rw [h] at k; simp only [Option.map_none, Option.map_eq_none_iff] at k; exact .inl k
      · exact .inr (k.trans h)

/-- An update that keeps the monitor, the events and the jobs, and changes only what the Render Engine may. -/
theorem Engine.renderLeaves_of {x y : Engine}
    (h : y = { x with
      clips := y.clips, destPorts := y.destPorts, pipeline := y.pipeline, lastPipeline := y.lastPipeline,
      contexts := y.contexts, lastJobGrant := y.lastJobGrant, faults := y.faults,
      faultCounter := y.faultCounter, dropped := y.dropped, faultSerial := y.faultSerial }) : x.renderLeaves y := by
  rw [h]
  exact ⟨rfl, ⟨_, .inl rfl, rfl⟩, List.prefix_refl _, fun _ => .inr rfl⟩

/-! ## The named updates -/

theorem Engine.signal_leaves (e : Engine) (ev : Event) : e.renderLeaves (e.signal ev) :=
  ⟨rfl, ⟨_, .inl rfl, rfl⟩, List.prefix_append _ _, fun _ => .inr rfl⟩

theorem Engine.updateClip_leaves (e : Engine) (h : Handle) (f : Clip → Clip) : e.renderLeaves (e.updateClip h f) := by
  unfold Engine.updateClip
  split
  · exact Engine.renderLeaves_of rfl
  · exact Engine.renderLeaves_refl e

theorem Engine.updateContext_leaves (e : Engine) (c : Fin 2) (f : ContextRun → ContextRun) :
    e.renderLeaves (e.updateContext c f) := by
  unfold Engine.updateContext
  split
  · exact Engine.renderLeaves_of rfl
  · exact Engine.renderLeaves_refl e

theorem Engine.withdraw_leaves (e : Engine) (who : Requester) : e.renderLeaves (e.withdraw who) := by
  unfold Engine.withdraw
  induction List.finRange 4 generalizing e with
  | nil => exact Engine.renderLeaves_refl e
  | cons p ps ih => exact (Engine.renderLeaves_of (y := e.updateDest p _) rfl).trans (ih _)

theorem Engine.ask_leaves {e e' : Engine} {p : Fin 4} {who : Requester} {r : OpRequest} (h : e.ask p who r = some e') :
    e.renderLeaves e' := by
  unfold Engine.ask at h
  split at h
  · cases h; exact Engine.renderLeaves_of rfl
  · cases h

/-- An operation asked for, or what is done when the port is not ONLINE. -/
theorem Engine.ask_getD_leaves {e d : Engine} {p : Fin 4} {who : Requester} {r : OpRequest} (h : e.renderLeaves d) :
    e.renderLeaves ((e.ask p who r).getD d) := by
  cases ha : e.ask p who r with
  | none => exact h
  | some e' => exact Engine.ask_leaves ha

/-- A job updated in its own fields, its slot and its under-run count kept. -/
theorem Engine.updateJob_leaves (e : Engine) (j : Fin 16) (f : Job → Job) (hs : ∀ x, (f x).slot = x.slot)
    (hu : ∀ x, (f x).underruns = x.underruns) : e.renderLeaves (e.updateJob j f) := by
  refine ⟨rfl, ⟨_, .inl rfl, rfl⟩, List.prefix_refl _, fun k => .inr ?_⟩
  simp only [Engine.job, Engine.updateJob]
  induction e.jobs with
  | nil => rfl
  | cons x xs ih =>
    by_cases hj : x.slot = j <;> by_cases hk : x.slot = k <;> simp_all

theorem Engine.raiseFault_leaves (g : Settings) (e : Engine) (f : FaultInput) : e.renderLeaves (e.raiseFault g f) := by
  rcases e.raiseFault_cases g f with ⟨-, h⟩ | ⟨r, -, ⟨-, h⟩ | ⟨-, h⟩⟩ | ⟨-, -, h⟩ | ⟨-, -, ⟨v, -, h⟩ | ⟨-, h⟩⟩ <;> rw [h]
  · exact Engine.renderLeaves_refl e
  · exact (Engine.renderLeaves_of (y := e.putFault _) rfl).trans (Engine.signal_leaves _ _)
  · exact Engine.renderLeaves_of rfl
  · exact (Engine.renderLeaves_of (x := e) (y := { e with faults := _, faultCounter := _, faultSerial := _ }) rfl).trans
      (Engine.signal_leaves _ _)
  · exact (Engine.renderLeaves_of (x := e) (y := { e with faults := _, faultCounter := _, faultSerial := _ }) rfl).trans
      (Engine.signal_leaves _ _)
  · unfold Engine.dropFault
    split
    · exact Engine.updateClip_leaves _ _ _
    · exact Engine.renderLeaves_of rfl

/-! ## The Monitor Output's own part -/

theorem Engine.updateMonitor_leaves (e : Engine) (f : MonitorOut → MonitorOut)
    (h : ∃ job, (job = e.monitor.cue.job ∨ job = none) ∧ f e.monitor = { e.monitor with
      back := (f e.monitor).back, placement := (f e.monitor).placement, cue := { e.monitor.cue with job := job } }) :
    e.renderLeaves (e.updateMonitor f) := ⟨rfl, h, List.prefix_refl _, fun _ => .inr rfl⟩

theorem Engine.writePixels_leaves (e : Engine) (s : Decimation) (j : Fin 16) (h : Handle) (c : Fin 32) (w ht k : Nat) (xs : List Rgb) :
    e.renderLeaves (e.updateMonitor (fun m => m.writePixels s j h c w ht k xs)) := by
  refine Engine.updateMonitor_leaves e _ ⟨_, .inl rfl, ?_⟩
  simp only [MonitorOut.writePixels]
  repeat' split
  all_goals rfl

theorem Engine.completeFrame_leaves (e : Engine) (j : Fin 16) (n : Word32) (tc : Timecode) :
    e.renderLeaves (e.updateMonitor (fun m => m.completeFrame j n tc)) := by
  refine Engine.updateMonitor_leaves e _ ⟨_, .inl rfl, ?_⟩
  simp only [MonitorOut.completeFrame]
  repeat' split
  all_goals rfl

theorem Engine.jobEnded_leaves (e : Engine) (j : Fin 16) :
    e.renderLeaves (e.updateMonitor (fun m => (m.dropFilling j).jobEnded j)) := by
  have hd : ∀ m : MonitorOut, m.dropFilling j = { m with back := (m.dropFilling j).back } := by
    intro m; simp only [MonitorOut.dropFilling]; repeat' split
    all_goals rfl
  refine Engine.updateMonitor_leaves e _ ?_
  simp only
  rw [hd]
  unfold MonitorOut.jobEnded
  split
  · exact ⟨none, .inr rfl, rfl⟩
  · exact ⟨_, .inl rfl, rfl⟩

/-! ## The ends of jobs -/

theorem Engine.releaseContext_leaves (e : Engine) (c : Fin 2) : e.renderLeaves (e.releaseContext c) := by
  have hp : ∀ x : Engine, x.renderLeaves ((x.withdraw (.context c)).setContextState c
      (if (x.withdraw (.context c)).inFlight (.context c) then .draining else .idle)) := fun x =>
    (Engine.withdraw_leaves x _).trans (Engine.renderLeaves_of rfl)
  unfold Engine.releaseContext
  split
  · split
    · exact (Engine.renderLeaves_of (y := { e with pipeline := none }) rfl).trans (hp _)
    · exact hp e
  · exact hp e

theorem Engine.updateRenderState_leaves (g : Settings) (e : Engine) (j : Job) (x : JobEnd) :
    e.renderLeaves (e.updateRenderState g j x) := by
  unfold Engine.updateRenderState
  split
  · simp only
    generalize (if e.hasProxyJob j.clip = true then RenderState.queued else _) = state
    split
    · exact (Engine.updateClip_leaves _ _ _).trans (Engine.signal_leaves _ _)
    · exact Engine.updateClip_leaves _ _ _
  · exact Engine.renderLeaves_refl e

/-- A job removed from the render queue (R128). -/
theorem Engine.removeJob_leaves (e : Engine) (j : Fin 16) :
    e.renderLeaves { e with jobs := e.jobs.filter (fun y => decide (y.slot ≠ j)) } := by
  refine ⟨rfl, ⟨_, .inl rfl, rfl⟩, List.prefix_refl _, fun k => ?_⟩
  simp only [Engine.job]
  induction e.jobs with
  | nil => exact .inl rfl
  | cons x xs ih =>
    by_cases hj : x.slot = j
    · by_cases hk : x.slot = k
      · subst hj; subst hk
        refine .inl ?_
        simp [List.find?_eq_none]
      · simpa [hj, hk, show ¬ j = k from hj ▸ hk] using ih
    · by_cases hk : x.slot = k
      · simp_all
      · simpa [hj, hk] using ih

theorem Engine.endJob_leaves (g : Settings) (e : Engine) (j : Fin 16) (x : JobEnd) : e.renderLeaves (e.endJob g j x) := by
  unfold Engine.endJob
  split
  case h_2 => exact Engine.renderLeaves_refl e
  case h_1 job _ =>
    have told : e.renderLeaves ((if job.isProxy = true then
        Engine.updateRenderState g { e with jobs := e.jobs.filter (fun y => decide (y.slot ≠ j)) } job x
        else { e with jobs := e.jobs.filter (fun y => decide (y.slot ≠ j)) }).updateMonitor
          (fun m => (m.dropFilling j).jobEnded j)) := by
      refine Engine.renderLeaves.trans ?_ (Engine.jobEnded_leaves _ _)
      split
      · exact (Engine.removeJob_leaves e j).trans (Engine.updateRenderState_leaves _ _ _ _)
      · exact Engine.removeJob_leaves e j
    simp only
    generalize Engine.updateMonitor _ _ = y at told ⊢
    cases e.contextOf j <;> cases e.claimOf j <;> refine Engine.renderLeaves.trans ?_ (Engine.signal_leaves _ _) <;> simp only
    · exact told
    · exact told.trans (Engine.renderLeaves_of rfl)
    · exact told.trans (Engine.releaseContext_leaves _ _)
    · exact (told.trans (Engine.releaseContext_leaves _ _)).trans (Engine.renderLeaves_of rfl)

theorem Engine.endContextJob_leaves (g : Settings) (e : Engine) (c : Fin 2) (x : JobEnd) :
    e.renderLeaves (e.endContextJob g c x) := by
  unfold Engine.endContextJob
  split
  · exact Engine.endJob_leaves g e _ x
  · exact Engine.renderLeaves_refl e

theorem Engine.failContext_leaves (g : Settings) (e : Engine) (c : Fin 2) (x : EndCause) : e.renderLeaves (e.failContext g c x) :=
  Engine.endContextJob_leaves g e c _

/-- An operation asked for, or the job of the context FAILED. -/
theorem Engine.ask_or_fail_leaves (g : Settings) (e : Engine) (p : Fin 4) (c : Fin 2) (r : OpRequest) (x : EndCause) :
    e.renderLeaves ((e.ask p (.context c) r).getD (e.failContext g c x)) :=
  Engine.ask_getD_leaves (Engine.failContext_leaves g e c x)

theorem Engine.countAppend_leaves (e : Engine) (c : Fin 2) (j : Fin 16) : e.renderLeaves (e.countAppend c j) := by
  unfold Engine.countAppend
  simp only
  split
  · exact Engine.updateJob_leaves _ _ _ (by intro _; rfl) (by intro _; rfl)
  · exact Engine.renderLeaves_refl e

/-- A job moved to the head of the render queue (R133). -/
theorem Engine.toHead_leaves (e : Engine) (j : Fin 16) :
    e.renderLeaves { e with
      jobs := e.jobs.filter (fun x : Job => decide (x.slot = j)) ++ e.jobs.filter (fun x : Job => decide (x.slot ≠ j)) } := by
  refine ⟨rfl, ⟨_, .inl rfl, rfl⟩, List.prefix_refl _, fun k => .inr ?_⟩
  have hf : ∀ (p : Job → Bool), (∀ x, decide (x.slot = k) = true → p x = true) →
      (e.jobs.filter p).find? (fun x => decide (x.slot = k)) = e.jobs.find? (fun x => decide (x.slot = k)) := by
    intro p hp
    rw [List.find?_filter]
    congr 1
    funext x
    by_cases hk : x.slot = k
    · simp [hk, hp x (by simpa using hk)]
    · simp [hk]
  simp only [Engine.job, List.find?_append]
  by_cases hj : k = j
  · rw [hf _ (by subst hj; simp)]
    cases h : e.jobs.find? (fun x => decide (x.slot = k)) with
    | some x => rfl
    | none =>
      rw [Option.none_or, List.find?_eq_none.mpr]
      intro x hx
      exact List.find?_eq_none.mp h x (List.mem_of_mem_filter hx)
  · rw [List.find?_eq_none.mpr, Option.none_or, hf]
    · simp only [decide_eq_true_eq]; intro x hx; rw [hx]; exact hj
    · intro x hx; simp at hx ⊢; rw [hx.2]; exact fun h => hj h.symm

theorem Engine.suspendContext_leaves (e : Engine) (c : Fin 2) : e.renderLeaves (e.suspendContext c) := by
  unfold Engine.suspendContext
  split
  · exact (((Engine.countAppend_leaves e c _).trans (Engine.updateJob_leaves _ _ _ (by intro _; rfl) (by intro _; rfl))).trans
      (Engine.toHead_leaves _ _)).trans (Engine.releaseContext_leaves _ c)
  · exact Engine.renderLeaves_refl e

/-! ## Starts -/

theorem Engine.startJob_leaves (g : Settings) (e : Engine) (c : Fin 2) (j : Fin 16) : e.renderLeaves (e.startJob g c j) := by
  unfold Engine.startJob
  split
  case h_2 => exact Engine.renderLeaves_of rfl
  case h_1 job _ =>
    have base : ∀ (snapshot : Option Snapshot) (run : ContextState), e.renderLeaves (({ (e.updateJob j (fun x =>
        { x with state := .running, suspendMark := false, snapshot := snapshot })).setContextState c run with
          lastJobGrant := c } : Engine).setClaim c none) := fun _ _ =>
      (Engine.updateJob_leaves e j _ (by intro _; rfl) (by intro _; rfl)).trans (Engine.renderLeaves_of rfl)
    simp only
    split
    · exact (base _ _).trans (Engine.failContext_leaves _ _ _ _)
    · exact (base _ _).trans (Engine.ask_or_fail_leaves _ _ _ _ _ _)
    · exact (base _ _).trans (Engine.failContext_leaves _ _ _ _)

theorem Engine.grantContext_leaves {g : Settings} {e e' : Engine} {c : Fin 2} (h : e.grantContext g c = some e') :
    e.renderLeaves e' := by
  unfold Engine.grantContext at h
  split at h
  · split at h
    · cases h; exact Engine.startJob_leaves _ _ _ _
    · split at h
      · cases h
      · obtain ⟨j, -, rfl⟩ := Option.map_eq_some_iff.mp h
        exact Engine.startJob_leaves _ _ _ _
  · cases h

/-! ## Range ends and frame boundaries -/

theorem Engine.sendAppend_leaves (g : Settings) (e : Engine) (c : Fin 2) : e.renderLeaves (e.sendAppend g c) := by
  unfold Engine.sendAppend
  split
  · split
    · split
      · exact Engine.ask_or_fail_leaves _ _ _ _ _ _
      · exact Engine.failContext_leaves _ _ _ _
    · exact Engine.renderLeaves_refl e
  · exact Engine.renderLeaves_refl e

theorem Engine.appendChunk_leaves (g : Settings) (e : Engine) (c : Fin 2) (phase : ContextPhase) (chunk : List Byte) :
    e.renderLeaves (e.appendChunk g c phase chunk) :=
  (Engine.updateContext_leaves _ _ _).trans (Engine.sendAppend_leaves _ _ _)

theorem Engine.closeSent_leaves {g : Settings} {e e' : Engine} {c : Fin 2} (h : e.closeSent g c = some e') : e.renderLeaves e' := by
  unfold Engine.closeSent at h
  split at h
  · split at h
    · cases h; exact Engine.endContextJob_leaves _ _ _ _
    · cases h
  · cases h

theorem Engine.sourceClosed_leaves (g : Settings) (e : Engine) (c : Fin 2) : e.renderLeaves (e.sourceClosed g c) := by
  unfold Engine.sourceClosed
  split
  · split
    · split
      · split
        · exact (Engine.updateContext_leaves _ _ _).trans (Engine.ask_or_fail_leaves _ _ _ _ _ _)
        · exact Engine.failContext_leaves _ _ _ _
      · exact Engine.endContextJob_leaves _ _ _ _
    · exact Engine.renderLeaves_refl e
  · exact Engine.renderLeaves_refl e

theorem Engine.closeRenderSource_leaves (g : Settings) (e : Engine) (c : Fin 2) (run : ContextRun) :
    e.renderLeaves (e.closeRenderSource g c run) := by
  unfold Engine.closeRenderSource
  refine (Engine.updateContext_leaves e c (fun r => { r with phase := .closingSource })).trans ?_
  simp only
  split
  · next e' h =>
    obtain ⟨x, -, hx⟩ := Option.bind_eq_some_iff.mp h
    refine (Engine.ask_leaves hx).trans ?_
    cases hc : e'.closeSent g c with
    | none => exact Engine.renderLeaves_refl _
    | some e'' => exact Engine.closeSent_leaves hc
  · exact Engine.sourceClosed_leaves _ _ _

theorem Engine.rangeEnd_leaves (g : Settings) (e : Engine) (c : Fin 2) : e.renderLeaves (e.rangeEnd g c) := by
  unfold Engine.rangeEnd Engine.restartLoop
  split
  · split
    · split
      · exact (Engine.updateJob_leaves _ _ _ (by intro _; rfl) (by intro _; rfl)).trans (Engine.updateContext_leaves _ _ _)
      · exact Engine.closeRenderSource_leaves _ _ _ _
    · exact Engine.renderLeaves_refl e
  · exact Engine.renderLeaves_refl e

theorem Engine.frameBoundary_leaves (g : Settings) (e : Engine) (c : Fin 2) : e.renderLeaves (e.frameBoundary g c) := by
  unfold Engine.frameBoundary
  split
  · split
    · split
      · exact Engine.endJob_leaves _ _ _ _
      · split
        · exact Engine.suspendContext_leaves _ _
        · split
          · exact Engine.rangeEnd_leaves _ _ _
          · exact Engine.renderLeaves_refl e
    · exact Engine.renderLeaves_refl e
  · exact Engine.renderLeaves_refl e

theorem Engine.frameDelivered_leaves (g : Settings) (e : Engine) (c : Fin 2) : e.renderLeaves (e.frameDelivered g c) := by
  unfold Engine.frameDelivered
  split
  · split
    · exact ((Engine.updateJob_leaves _ _ _ (by intro _; rfl) (by intro _; rfl)).trans (Engine.updateContext_leaves _ _ _)).trans
        (Engine.frameBoundary_leaves _ _ _)
    · exact Engine.renderLeaves_refl e
  · exact Engine.renderLeaves_refl e

/-! ## The walk -/

theorem Engine.updateWalk_leaves (e : Engine) (c : Fin 2) (f : RenderWalk → RenderWalk) : e.renderLeaves (e.updateWalk c f) :=
  Engine.updateContext_leaves _ _ _

theorem Engine.needBytes_leaves {g : Settings} {e e' : Engine} {c : Fin 2} {run : ContextRun} (h : e.needBytes g c run = some e') :
    e.renderLeaves e' := by
  unfold Engine.needBytes at h
  split at h
  · cases h
  · split at h
    · cases h; exact Engine.ask_or_fail_leaves _ _ _ _ _ _
    · cases h

theorem Engine.walkEnd_leaves (g : Settings) (e : Engine) (c : Fin 2) (run : ContextRun) : e.renderLeaves (e.walkEnd g c run) := by
  unfold Engine.walkEnd
  split
  · exact Engine.rangeEnd_leaves _ _ _
  · exact Engine.failContext_leaves _ _ _ _

theorem Engine.walkHeader_leaves (g : Settings) (e : Engine) (c : Fin 2) (j : Fin 16) (chunk : List Byte) :
    e.renderLeaves (e.walkHeader g c j chunk) := by
  unfold Engine.walkHeader
  split
  · simp only
    split
    · split
      · exact Engine.updateWalk_leaves _ _ _
      · exact (Engine.updateWalk_leaves _ _ _).trans (Engine.appendChunk_leaves _ _ _ _ _)
    · exact Engine.updateWalk_leaves _ _ _
  · exact Engine.failContext_leaves _ _ _ _

theorem Engine.walkChunk_leaves (g : Settings) (e : Engine) (c : Fin 2) (j : Fin 16) (run : ContextRun) (head : List Byte) :
    e.renderLeaves (e.walkChunk g c j run head) := by
  unfold Engine.walkChunk
  simp only
  split
  · split
    · split
      · exact (Engine.updateWalk_leaves _ _ _).trans (Engine.walkHeader_leaves _ _ _ _ _)
      · exact (Engine.updateWalk_leaves _ _ _).trans (Engine.updateWalk_leaves _ _ _)
    · exact (Engine.updateWalk_leaves _ _ _).trans (Engine.failContext_leaves _ _ _ _)
  · split
    · exact (Engine.updateWalk_leaves _ _ _).trans (Engine.updateWalk_leaves _ _ _)
    · exact (Engine.updateWalk_leaves _ _ _).trans (Engine.walkEnd_leaves _ _ _ _)

theorem Engine.walkFrame_leaves (e : Engine) (c : Fin 2) (j : Fin 16) (pre : List Byte) : e.renderLeaves (e.walkFrame c j pre) := by
  unfold Engine.walkFrame
  split
  · simp only
    split
    · exact ((Engine.updateWalk_leaves _ _ _).trans (Engine.updateJob_leaves _ _ _ (by intro _; rfl) (by intro _; rfl))).trans
        (Engine.updateContext_leaves _ _ _)
    · exact (Engine.updateWalk_leaves _ _ _).trans (Engine.updateWalk_leaves _ _ _)
  · exact Engine.renderLeaves_refl e

theorem Engine.frameComplete_leaves (g : Settings) (e : Engine) (c : Fin 2) (j : Fin 16) (f : PipelineFrame) :
    e.renderLeaves (e.frameComplete g c j f) := by
  unfold Engine.frameComplete
  have report : e.renderLeaves { e.clampReport g f with pipeline := none } := by
    unfold Engine.clampReport
    simp only
    split
    · exact (Engine.raiseFault_leaves g e _).trans (Engine.renderLeaves_of rfl)
    · exact Engine.renderLeaves_of rfl
  refine report.trans ?_
  simp only
  generalize ({ e.clampReport g f with pipeline := none } : Engine) = y
  have told : y.renderLeaves
      (if y.isMonitorJob j = true then y.updateMonitor (fun m => m.completeFrame j f.number f.tc) else y) := by
    split
    · exact Engine.completeFrame_leaves _ _ _ _
    · exact Engine.renderLeaves_refl _
  generalize (if y.isMonitorJob j = true then _ else y) = z at told ⊢
  refine told.trans ?_
  have headed := Engine.updateWalk_leaves z c (fun w => { w with mode := .head, head := [] })
  generalize z.updateWalk c _ = z' at headed ⊢
  refine headed.trans ?_
  split
  · split
    · exact (Engine.updateContext_leaves _ _ _).trans (Engine.appendChunk_leaves _ _ _ _ _)
    · exact Engine.frameDelivered_leaves _ _ _
  · exact Engine.renderLeaves_refl _

theorem Engine.gradeBytes_leaves (g : Settings) (e : Engine) (c : Fin 2) (j : Fin 16) (run : ContextRun) (f : PipelineFrame)
    (h : Header) (s : Snapshot) : e.renderLeaves (e.gradeBytes g c j run f h s) := by
  unfold Engine.gradeBytes
  simp only
  generalize decodePixels _ _ _ = d
  generalize ({ f with graded := _, clamped := _ } : PipelineFrame) = f'
  refine (Engine.renderLeaves_of (x := e) (y := { e with pipeline := some f' }) rfl).trans ?_
  generalize ({ e with pipeline := some f' } : Engine) = y
  have told : ∀ out, y.renderLeaves
      (if y.isMonitorJob j = true then
        y.updateMonitor (fun m => m.writePixels g.monitor.decimation j f.clip f.card f.width f.height f.graded out) else y) := by
    intro out
    split
    · exact Engine.writePixels_leaves _ _ _ _ _ _ _ _ _
    · exact Engine.renderLeaves_refl _
  split
  · exact ((told _).trans (Engine.updateContext_leaves _ _ _)).trans (Engine.frameComplete_leaves _ _ _ _ _)
  · exact (told _).trans (Engine.updateContext_leaves _ _ _)

theorem Engine.walkOn_leaves {g : Settings} {e e' : Engine} {c : Fin 2} {j : Fin 16} {run : ContextRun}
    (h : e.walkOn g c j run = some e') : e.renderLeaves e' := by
  unfold Engine.walkOn at h
  simp only at h
  split at h
  · split at h
    · cases h; exact Engine.walkEnd_leaves _ _ _ _
    · split at h
      · exact Engine.needBytes_leaves h
      · cases h
        split
        · exact Engine.updateContext_leaves _ _ _
        · exact (Engine.updateContext_leaves _ _ _).trans (Engine.walkChunk_leaves _ _ _ _ _ _)
  · split at h
    · exact Engine.needBytes_leaves h
    · cases h
      split
      · exact (Engine.updateContext_leaves _ _ _).trans (Engine.walkHeader_leaves _ _ _ _ _)
      · split
        · exact (Engine.updateContext_leaves _ _ _).trans (Engine.failContext_leaves _ _ _ _)
        · exact Engine.updateContext_leaves _ _ _
  · split at h
    · exact Engine.needBytes_leaves h
    · cases h
      split
      · exact Engine.updateContext_leaves _ _ _
      · exact (Engine.updateContext_leaves _ _ _).trans (Engine.walkFrame_leaves _ _ _ _)
  · split at h
    · exact Engine.needBytes_leaves h
    · cases h; exact Engine.updateContext_leaves _ _ _
  · split at h
    · split at h
      · exact Engine.needBytes_leaves h
      · cases h; exact Engine.gradeBytes_leaves _ _ _ _ _ _ _ _
    · cases h

/-! ## The moves -/

theorem Engine.grantPipeline_leaves {e e' : Engine} (h : e.grantPipeline = some e') : e.renderLeaves e' := by
  unfold Engine.grantPipeline at h
  split at h
  · split at h
    · split at h
      · cases h
        exact (Engine.renderLeaves_of (x := e) (y := { e with pipeline := _, lastPipeline := _ }) rfl).trans
          (Engine.updateContext_leaves _ _ _)
      · cases h
    · cases h
  · cases h

theorem Engine.contextMove_leaves {g : Settings} {e e' : Engine} {c : Fin 2} (h : e.contextMove g c = some e') :
    e.renderLeaves e' := by
  unfold Engine.contextMove at h
  split at h
  · split at h
    · exact Engine.walkOn_leaves h
    · exact Engine.closeSent_leaves h
  · cases h

theorem Engine.renderMove_leaves {g : Settings} {e e' : Engine} (h : e.renderMove g = some e') : e.renderLeaves e' := by
  simp only [Engine.renderMove, Option.or_eq_some_iff] at h
  rcases h with h | ⟨-, h | ⟨-, h | ⟨-, h | ⟨-, h⟩⟩⟩⟩
  · exact Engine.grantContext_leaves h
  · exact Engine.grantContext_leaves h
  · exact Engine.grantPipeline_leaves h
  · exact Engine.contextMove_leaves h
  · exact Engine.contextMove_leaves h

/-- The Render Engine, settling, leaves what its moves leave. -/
theorem Engine.settleRender_leaves (g : Settings) (e : Engine) : e.renderLeaves (e.settleRender g) := by
  unfold Engine.settleRender
  generalize e.moveBound = n
  induction n generalizing e with
  | zero => exact Engine.renderLeaves_refl e
  | succ n ih =>
    unfold Engine.drive
    split
    · next h => exact (Engine.renderMove_leaves h).trans (ih _)
    · exact Engine.renderLeaves_refl e

/-! ## Waiting -/

/-- A context that waits is granted no job. -/
theorem Engine.grantContext_waits {g : Settings} {e : Engine} {c : Fin 2} (h : e.contextWaits c = true) :
    e.grantContext g c = none := by
  unfold Engine.contextWaits at h
  unfold Engine.grantContext
  split at h <;> simp_all
  cases h.2 <;> simp_all

/-- A context that waits moves no further. -/
theorem Engine.contextMove_waits {g : Settings} {e : Engine} {c : Fin 2} (h : e.contextWaits c = true) :
    e.contextMove g c = none := by
  unfold Engine.contextWaits at h
  unfold Engine.contextMove Engine.contextRun
  split at h
  · next hs => rw [hs]
  · next hs => rw [hs]
  · next j run hs =>
    simp only [hs]
    split at h
    · next hp =>
      rw [if_pos hp]
      simp only [Bool.or_eq_true, Bool.and_eq_true, decide_eq_true_eq, Bool.not_eq_true', Option.isNone_iff_eq_none] at h
      unfold Engine.walkOn
      rcases h with ⟨hm, hn⟩ | ⟨⟨hb, ha⟩, ht⟩
      · simp [hm, hn]
      · have need : e.needBytes g c run = none := by simp [Engine.needBytes, ha]
        simp only [hb, need, if_true]
        split
        · next hm =>
          rw [if_neg]
          simpa [ContextRun.atTakeEnd, hm] using ht
        · rfl
        · rfl
        · rfl
        · split <;> rfl
    · next hp =>
      rw [if_neg hp]
      unfold Engine.closeSent Engine.contextRun
      simp only [hs]
      rw [if_neg]
      rintro ⟨h1, h2, h3⟩
      simp [h1, h2, h3] at h

/-- A context that does not want the pipeline does not ask for it. -/
theorem Engine.asksPipeline_of_wants {e : Engine} {c : Fin 2} (h : e.wantsPipeline c = false) : e.asksPipeline c = false := by
  unfold Engine.wantsPipeline at h
  unfold Engine.asksPipeline
  split <;> simp_all

/-- A Render Engine that waits makes no move. -/
theorem Engine.renderMove_waits {g : Settings} {e : Engine} (h : e.renderWaits = true) : e.renderMove g = none := by
  simp only [Engine.renderWaits, Bool.and_eq_true, Bool.or_eq_true, Bool.not_eq_true'] at h
  obtain ⟨⟨h0, h1⟩, hp⟩ := h
  have pipe : e.grantPipeline = none := by
    unfold Engine.grantPipeline
    rcases hp with hp | ⟨a, b⟩
    · obtain ⟨f, hf⟩ := Option.isSome_iff_exists.mp hp
      simp [hf]
    · have : e.pipelineChoice = none := by
        simp [Engine.pipelineChoice, Engine.asksPipeline_of_wants a, Engine.asksPipeline_of_wants b]
      rw [this]; cases e.pipeline <;> rfl
  simp [Engine.renderMove, Engine.grantContext_waits h0, Engine.grantContext_waits h1, pipe, Engine.contextMove_waits h0,
    Engine.contextMove_waits h1]

/-- A Render Engine that waits settles as it stands. -/
theorem Engine.settleRender_waits {g : Settings} {e : Engine} (h : e.renderWaits = true) : e.settleRender g = e :=
  Engine.drive_none (Engine.renderMove_waits h) _

/-- Settling is going on. -/
theorem Engine.settleRender_goesOn (g : Settings) (x : Engine) : Engine.goesOn g x (x.settleRender g) :=
  ⟨rfl, Engine.settleRender_leaves g x, fun h => Engine.settleRender_waits h⟩

/-- An idle Render Engine waits. -/
theorem Engine.renderWaits_of_idle {e : Engine} (h : e.renderIdle = true) : e.renderWaits = true := by
  simp only [Engine.renderIdle, Bool.and_eq_true, decide_eq_true_eq] at h
  obtain ⟨⟨hj, hc⟩, hr⟩ := h
  have waits : ∀ c, e.contextWaits c = true := by
    intro c
    have none_runs := hr c
    unfold Engine.contextRun at none_runs
    unfold Engine.contextWaits
    split
    · rw [hc c]; simp [Engine.nextJob, hj]
    · rfl
    · next hs => rw [hs] at none_runs; cases none_runs
  simp [Engine.renderWaits, waits, Engine.wantsPipeline, hr]

/-- With both contexts DRAINING the Render Engine waits. -/
theorem Engine.renderWaits_of_draining {e : Engine} (h : ∀ c : Fin 2, (e.contexts[c]).state = .draining) : e.renderWaits = true := by
  simp only [Engine.renderWaits, Engine.contextWaits, Engine.wantsPipeline, Engine.contextRun]
  rw [h 0, h 1]; simp

/-- Whether the Render Engine waits depends on the contexts, the pipeline, the paused flag, the operations at the destination ports, and of
each job on its slot, its state and its outputs. -/
theorem Engine.renderWaits_congr {x y : Engine} {f : Job → Job} (hc : y.contexts = x.contexts) (hp : y.pipeline = x.pipeline)
    (hq : y.paused = x.paused) (hd : y.destPorts = x.destPorts) (hj : y.jobs = x.jobs.map f)
    (hf : ∀ j, (f j).slot = j.slot ∧ (f j).state = j.state ∧ (f j).outputs = j.outputs) :
    y.renderWaits = x.renderWaits := by
  have next : y.nextJob.isNone = x.nextJob.isNone := by
    have claim : ∀ j, y.claimOf j = x.claimOf j := by intro j; simp [Engine.claimOf, hc]
    simp only [Engine.nextJob, hj, List.find?_map, Option.isNone_map]
    congr 2
    funext j
    simp [hf, claim]
  have proxy : ∀ j, y.runsProxyJob j = x.runsProxyJob j := by
    intro j
    simp only [Engine.runsProxyJob, Engine.job, hj, List.find?_map, Option.map_map]
    have : ((fun z : Job => decide (z.slot = j)) ∘ f) = fun z => decide (z.slot = j) := by funext z; simp [hf]
    rw [this]
    congr 2
    funext z
    simp [Job.isProxy, hf]
  have waits : ∀ c, y.contextWaits c = x.contextWaits c := by
    intro c
    simp only [Engine.contextWaits, hc, hq, next, proxy, Engine.pipelineOf, hp, Engine.asking, Engine.inFlight, hd]
  simp only [Engine.renderWaits, waits, hp, Engine.wantsPipeline, Engine.contextRun, hc]

/-! ## The end of a job that waits -/

/-- A job that no context carries ends (R128): it leaves the queue, its claim lapses, and its end is signaled last. -/
theorem Engine.endJob_waiting {g : Settings} {e : Engine} {j : Fin 16} {job : Job} {x : JobEnd} (hj : e.job j = some job)
    (hc : e.contextOf j = none) :
    ∃ clips events contexts, e.endJob g j x = { e with
      jobs := e.jobs.filter (fun y => decide (y.slot ≠ j)), clips := clips, events := events ++ [job.endEvent x],
      monitor := (e.monitor.dropFilling j).jobEnded j, contexts := contexts } ∧
      (∀ c : Fin 2, (contexts[c]).state = (e.contexts[c]).state) ∧
      (∀ c : Fin 2, (contexts[c]).claim = if e.claimOf j = some c then none else (e.contexts[c]).claim) := by
  have told : ∃ clips events, (if job.isProxy = true then
      Engine.updateRenderState g { e with jobs := e.jobs.filter (fun y => decide (y.slot ≠ j)) } job x
      else { e with jobs := e.jobs.filter (fun y => decide (y.slot ≠ j)) }) =
        { e with jobs := e.jobs.filter (fun y => decide (y.slot ≠ j)), clips := clips, events := events } := by
    have clip : ∀ (y : Engine) (h : Handle) (f : Clip → Clip), ∃ clips, y.updateClip h f = { y with clips := clips } := by
      intro y h f; unfold Engine.updateClip; split <;> exact ⟨_, rfl⟩
    split
    · unfold Engine.updateRenderState
      split
      · simp only
        generalize (if Engine.hasProxyJob _ job.clip = true then RenderState.queued else _) = state
        split
        · exact ⟨_, _, congrArg (fun z : Engine => z.signal _) (clip _ _ _).choose_spec⟩
        · exact ⟨_, _, (clip _ _ _).choose_spec⟩
      · exact ⟨_, _, rfl⟩
    · exact ⟨_, _, rfl⟩
  obtain ⟨clips, events, told⟩ := told
  unfold Engine.endJob
  simp only [hj, hc, told]
  cases e.claimOf j with
  | none => exact ⟨clips, events, _, rfl, fun _ => rfl, fun c => by simp⟩
  | some k =>
    refine ⟨clips, events, _, rfl, fun c => ?_, fun c => ?_⟩ <;>
      simp only [Engine.setClaim, Engine.updateMonitor, Fin.getElem_fin, Vector.getElem_set]
    · split
      · next h => obtain rfl := Fin.ext h; rfl
      · rfl
    · by_cases h : k = c
      · subst h; simp
      · simp [h, show ¬ (k : Nat) = c from fun n => h (Fin.ext n)]

/-- A Render Engine that waits still waits after the end of a job that no context carries. -/
theorem Engine.endJob_waits {g : Settings} {e : Engine} {j : Fin 16} {job : Job} {x : JobEnd} (hj : e.job j = some job)
    (hc : e.contextOf j = none) (hw : e.renderWaits = true) : (e.endJob g j x).renderWaits = true := by
  obtain ⟨clips, events, contexts, he, hs, hl⟩ := Engine.endJob_waiting (g := g) (x := x) hj hc
  rw [he]
  set y : Engine := { e with
    jobs := e.jobs.filter (fun y => decide (y.slot ≠ j)), clips := clips, events := events ++ [job.endEvent x],
    monitor := (e.monitor.dropFilling j).jobEnded j, contexts := contexts } with hy
  have run : ∀ c, y.contextRun c = e.contextRun c := by intro c; simp only [Engine.contextRun, hy]; rw [hs c]
  have other : ∀ (c : Fin 2) i r, (e.contexts[c]).state = .running i r → i ≠ j := by
    rintro c i r h rfl
    refine List.find?_eq_none.mp hc c (List.mem_finRange c) ?_
    simp only [Engine.contextRun, h]; simp
  have same : ∀ i, i ≠ j → y.job i = e.job i := by
    intro i hi
    simp only [Engine.job, hy, List.find?_filter]
    congr 1; funext z
    by_cases hz : z.slot = i
    · simp [hz, hi]
    · simp [hz]
  have claim : ∀ i, i ≠ j → y.claimOf i = e.claimOf i := by
    intro i hi
    simp only [Engine.claimOf]
    congr 1; funext c
    rw [show (y.contexts[c]).claim = _ from hl c]
    split
    · next h =>
      have hk := List.find?_some h
      simp only [decide_eq_true_eq] at hk
      rw [hk]; simp [Ne.symm hi]
    · rfl
  have next : e.nextJob = none → y.nextJob = none := by
    intro h
    simp only [Engine.nextJob] at h ⊢
    rw [List.find?_eq_none] at h ⊢
    intro z hz
    obtain ⟨hz, hn⟩ := List.mem_filter.mp hz
    rw [claim _ (by simpa using hn)]
    exact h z hz
  have waits : ∀ c, e.contextWaits c = true → y.contextWaits c = true := by
    intro c h
    unfold Engine.contextWaits at h ⊢
    rw [show (y.contexts[c]).state = (e.contexts[c]).state from hs c, show (y.contexts[c]).claim = _ from hl c]
    split at h
    · next hst =>
      simp only [Bool.and_eq_true, Bool.or_eq_true, Option.isNone_iff_eq_none, hst] at h ⊢
      exact ⟨by rw [h.1]; simp, h.2.imp id next⟩
    · next hst => simp only [hst]
    · next i r hst =>
      simp only [hst, show y.runsProxyJob i = e.runsProxyJob i by simp only [Engine.runsProxyJob, same i (other c i r hst)]]
      exact h
  have wants : ∀ c, y.wantsPipeline c = e.wantsPipeline c := by intro c; simp only [Engine.wantsPipeline, run]
  simp only [Engine.renderWaits, Bool.and_eq_true] at hw ⊢
  exact ⟨⟨waits 0 hw.1.1, waits 1 hw.1.2⟩, by rw [wants, wants]; exact hw.2⟩

end Sys2Proof.Machine
end

