-- ==== Sys2Proof/Laws/Monitor.lean ====
section
/-!
SUPPORT. What a sync does, said once (`Engine.showsTheFront`): the front is settled and sent, and the Render Engine goes on; and that
it keeps the clock.
-/

namespace Sys2Proof.Machine

/-- A BLACK front is sent (R160). -/
theorem Engine.sendFront_black {g : Settings} {e : Engine} {d : Damage} (h : e.monitor.front = .black) :
    e.sendFront g d = { e with monitor := { e.monitor with
      output := some ⟨false, e.monitor.rate, e.monitor.drop, none, none, e.monitor.frontSent, []⟩, frontSent := true } } := by
  simp [Engine.sendFront, Engine.updateMonitor, MonitorOut.frame, h]

/-- A picture in front is sent, and its check compared with the one written with it (R160, R161). -/
theorem Engine.sendFront_picture {g : Settings} {e : Engine} {d : Damage} {p : Picture} (h : e.monitor.front = .picture p) :
    e.sendFront g d =
      let x : Engine := { e with monitor := { e.monitor with
        front := .picture { p with raster := p.raster.damage d }
        output := some ⟨true, e.monitor.rate, e.monitor.drop, some p.number, some p.tc, e.monitor.frontSent, p.raster.damage d⟩
        frontSent := true } }
      if rasterCheck (p.raster.damage d) = p.writeCheck then x
      else x.raiseFault g ⟨.outputPath, p.clip, p.card, none, some p.number, some p.number, some p.tc, none⟩ := by
  simp only [Engine.sendFront, Engine.updateMonitor, h, MonitorOut.frame]
  rfl

/-- With no READY back buffer a sync blanks the front, or shows it again (R156). -/
theorem Engine.settleFront_notReady {e : Engine} (h : e.monitor.back.isReady = false) :
    e.settleFront =
      if e.monitor.blanking then
        { e with monitor := { e.monitor with
          front := .black, frontSent := match e.monitor.front with | .black => e.monitor.frontSent | .picture _ => false,
          blanking := false } }
      else
        match e.monitor.cue.job with
        | some j => if e.monitor.cue.firstShown then e.underrun j else e
        | none => e := by
  unfold Engine.settleFront
  simp only
  split
  · next hb => rw [hb] at h; cases h
  · rfl

/-- An under-run is counted against a job of the queue, and the first of a run is signaled (R156). -/
theorem Engine.underrun_eq {e : Engine} {k : Fin 16} {j : Job} (h : e.job k = some j) :
    e.underrun k = { e with
      jobs := e.jobs.map (fun x => if x.slot = k then { x with underruns := min 65535 (x.underruns + 1) } else x)
      events := if e.monitor.cue.runFlag then e.events else e.events ++ [Event.ofClip .monitorUnderrun j.card j.clip]
      monitor := { e.monitor with cue := { e.monitor.cue with runFlag := true } } } := by
  have job : ((e.updateJob k (fun x => { x with underruns := min 65535 (x.underruns + 1) })).updateMonitor
      (fun m => { m with cue := { m.cue with runFlag := true } })).job k =
      some { j with underruns := min 65535 (j.underruns + 1) } := by
    have kept : ((fun z : Job => decide (z.slot = k)) ∘
        fun x => if x.slot = k then { x with underruns := min 65535 (x.underruns + 1) } else x) =
        fun z => decide (z.slot = k) := by
      funext z; by_cases hz : z.slot = k <;> simp [hz]
    have slot : j.slot = k := by simpa using List.find?_some h
    unfold Engine.job at h
    simp only [Engine.job, Engine.updateMonitor, Engine.updateJob, List.find?_map, kept, h, Option.map_some, slot, if_true]
  cases hr : e.monitor.cue.runFlag with
  | true =>
    have same : ({ e.monitor with cue := { e.monitor.cue with runFlag := true } } : MonitorOut) = e.monitor := by rw [← hr]
    rw [same]
    simp only [Engine.underrun, Engine.updateJob, hr, if_true]
  | false =>
    simp only [Engine.underrun, Engine.updateJob_monitor, hr, job]
    rfl

/-- The blocks as a sync leaves them before the Render Engine goes on. -/
theorem Engine.syncAt_eq {g : Settings} {e x y : Engine} {time : Nat} {d : Damage}
    (hs : (e.updateMonitor (fun m => { m with lastSync := some time })).settleFront = y) (hx : y.sendFront g d = x) :
    e.syncAt g time d = x.settleRender g := by rw [Engine.syncAt, hs, hx]

/-- A Render Engine that waits before a sync waits after it: a sync changes no context, no pipeline and no operation, and of the jobs the
under-run count alone. -/
theorem Engine.renderWaits_sync {e y : Engine} {g : Settings} {d : Damage} {f : Job → Job} (hc : y.contexts = e.contexts)
    (hp : y.pipeline = e.pipeline) (hq : y.paused = e.paused) (hd : y.destPorts = e.destPorts) (hj : y.jobs = e.jobs.map f)
    (hf : ∀ j, (f j).slot = j.slot ∧ (f j).state = j.state ∧ (f j).outputs = j.outputs) :
    (y.sendFront g d).renderWaits = e.renderWaits := by
  have same : ∃ clips faults faultCounter dropped faultSerial events monitor, y.sendFront g d = { y with
      clips := clips, faults := faults, faultCounter := faultCounter, dropped := dropped, faultSerial := faultSerial,
      events := events, monitor := monitor } := by
    cases hb : y.monitor.front with
    | black => rw [Engine.sendFront_black hb]; exact ⟨_, _, _, _, _, _, _, rfl⟩
    | picture p =>
      rw [Engine.sendFront_picture hb]
      simp only
      split
      · exact ⟨_, _, _, _, _, _, _, rfl⟩
      · rw [Engine.raiseFault_frame]; exact ⟨_, _, _, _, _, _, _, rfl⟩
  obtain ⟨_, _, _, _, _, _, _, same⟩ := same
  rw [same]
  exact Engine.renderWaits_congr (f := f) hc hp hq hd hj hf

/-- The same, with the time of the sync taken down. -/
theorem Engine.settleFront_stamped {e : Engine} (time : Nat) (h : e.monitor.back.isReady = false) :
    let x := e.updateMonitor (fun m => { m with lastSync := some time })
    x.settleFront =
      if e.monitor.blanking then
        { e with monitor := { x.monitor with
          front := .black, frontSent := match e.monitor.front with | .black => e.monitor.frontSent | .picture _ => false,
          blanking := false } }
      else
        match e.monitor.cue.job with
        | some j => if e.monitor.cue.firstShown then x.underrun j else x
        | none => x :=
  Engine.settleFront_notReady (e := e.updateMonitor (fun m => { m with lastSync := some time })) h

/-- A sync does what R156, R160 and R161 say of it. -/
theorem Engine.syncAt_shows (g : Settings) (e : Engine) (time : Nat) (d : Damage) :
    e.showsTheFront g time d (e.syncAt g time d) := by
  have goesOn : ∀ {x y : Engine} {f : Job → Job},
      (e.updateMonitor (fun m => { m with lastSync := some time })).settleFront = y → y.sendFront g d = x →
      y.contexts = e.contexts → y.pipeline = e.pipeline → y.paused = e.paused → y.destPorts = e.destPorts →
      y.jobs = e.jobs.map f → (∀ j, (f j).slot = j.slot ∧ (f j).state = j.state ∧ (f j).outputs = j.outputs) →
      Engine.goesOn g x (e.syncAt g time d) ∧ (e.renderWaits = true → e.syncAt g time d = x) := by
    intro x y f hs hx hc hp hq hd hj hf
    rw [Engine.syncAt_eq hs hx]
    refine ⟨Engine.settleRender_goesOn g x, fun h => Engine.settleRender_waits ?_⟩
    rw [← hx, Engine.renderWaits_sync hc hp hq hd hj hf, h]
  have settled : ∀ {y : Engine}, (e.updateMonitor (fun m => { m with lastSync := some time })).settleFront = y →
      y = { e with monitor := y.monitor } → ∀ {x : Engine}, y.sendFront g d = x →
      Engine.goesOn g x (e.syncAt g time d) ∧ (e.renderWaits = true → e.syncAt g time d = x) := by
    intro y hs hy x hx
    refine goesOn (f := id) hs hx ?_ ?_ ?_ ?_ (by rw [hy]; simp) (fun _ => ⟨rfl, rfl, rfl⟩) <;> rw [hy]
  have repeats : e.monitor.back.isReady = false → e.monitor.blanking = false →
      (e.monitor.cue.job = none ∨ e.monitor.cue.firstShown = false) →
      (e.updateMonitor (fun m => { m with lastSync := some time })).settleFront =
        { e with monitor := { e.monitor with lastSync := some time } } := by
    intro hb hk hn
    rw [Engine.settleFront_stamped time hb, if_neg (by simp [hk])]
    split
    · next j hj =>
      rcases hn with hn | hn
      · rw [hj] at hn; cases hn
      · rw [if_neg (by simp [hn])]; rfl
    · rfl
  refine ⟨fun pic h => ?_, fun hb hk => ?_, fun hb hk => ⟨fun hn => ⟨fun h => ?_, fun pic h => ?_⟩, fun k j hj hf hk' => ?_⟩⟩
  · refine settled (y := { e with monitor := { e.monitor with
      lastSync := some time, front := .picture pic, frontSent := false, back := .empty, blanking := false,
      cue := if e.monitor.cue.job = some pic.job then { e.monitor.cue with firstShown := true, runFlag := false }
        else e.monitor.cue } }) ?_ rfl ?_
    · simp [Engine.settleFront, Engine.updateMonitor, h]
    · exact Engine.sendFront_picture rfl
  · refine settled (y := { e with monitor := { e.monitor with
      lastSync := some time, front := .black, blanking := false,
      frontSent := match e.monitor.front with | .black => e.monitor.frontSent | .picture _ => false } }) ?_ rfl ?_
    · rw [Engine.settleFront_stamped time hb, if_pos hk]; rfl
    · exact Engine.sendFront_black rfl
  · refine settled (y := { e with monitor := { e.monitor with lastSync := some time } }) ?_ rfl ?_
    · exact repeats hb hk hn
    · exact Engine.sendFront_black h
  · refine settled (y := { e with monitor := { e.monitor with lastSync := some time } }) ?_ rfl ?_
    · exact repeats hb hk hn
    · exact Engine.sendFront_picture h
  · have slots : ∀ x : Job,
        (if x.slot = k then { x with underruns := min 65535 (x.underruns + 1) } else x).slot = x.slot ∧
        (if x.slot = k then { x with underruns := min 65535 (x.underruns + 1) } else x).state = x.state ∧
        (if x.slot = k then { x with underruns := min 65535 (x.underruns + 1) } else x).outputs = x.outputs := by
      intro x; split <;> exact ⟨rfl, rfl, rfl⟩
    have counted := Engine.underrun_eq (e := e.updateMonitor (fun m => { m with lastSync := some time })) hk'
    have front : (e.updateMonitor (fun m => { m with lastSync := some time })).settleFront =
        (e.updateMonitor (fun m => { m with lastSync := some time })).underrun k := by
      rw [Engine.settleFront_stamped time hb, if_neg (by simp [hk])]
      simp only [hj, hf, if_true]
    rw [counted] at front
    refine ⟨fun h => ?_, fun pic h => ?_⟩
    · exact goesOn front (Engine.sendFront_black h) rfl rfl rfl rfl rfl slots
    · exact goesOn front (Engine.sendFront_picture h) rfl rfl rfl rfl rfl slots

/-- What a sync leaves of the frame clock, the reference checker, the events and the mark of a removed descriptor: everything but the
time of the last sync (R148, R152). -/
def Engine.keepsClock (x y : Engine) : Prop :=
  y.monitor.rate = x.monitor.rate ∧ y.monitor.drop = x.monitor.drop ∧ y.monitor.nextSync = x.monitor.nextSync ∧
    y.monitor.lastSync = x.monitor.lastSync ∧ y.monitor.checker = x.monitor.checker ∧ y.monitor.inWindow = x.monitor.inWindow ∧
    y.monitor.prevPulse = x.monitor.prevPulse ∧ y.monitor.lastGood = x.monitor.lastGood ∧ x.events <+: y.events ∧
    y.removed = x.removed

theorem Engine.keepsClock.trans {x y z : Engine} (h : x.keepsClock y) (k : y.keepsClock z) : x.keepsClock z := by
  obtain ⟨h1, h2, h3, h4, h5, h6, h7, h8, h9, h10⟩ := h
  obtain ⟨k1, k2, k3, k4, k5, k6, k7, k8, k9, k10⟩ := k
  exact ⟨k1.trans h1, k2.trans h2, k3.trans h3, k4.trans h4, k5.trans h5, k6.trans h6, k7.trans h7, k8.trans h8, h9.trans k9,
    k10.trans h10⟩

/-- The moves of the Render Engine and a fault keep the clock. -/
theorem Engine.renderLeaves.keepsClock {x y : Engine} (h : x.renderLeaves y) : x.keepsClock y := by
  obtain ⟨hf, ⟨job, -, hm⟩, he, -⟩ := h
  refine ⟨?_, ?_, ?_, ?_, ?_, ?_, ?_, ?_, he, ?_⟩ <;> first | rw [hm] | rw [hf]

/-- An update of the Monitor Output outside its clock, with no event. -/
theorem Engine.keepsClock_of {x y : Engine} (h : y = { x with jobs := y.jobs, monitor := { x.monitor with
    front := y.monitor.front, frontSent := y.monitor.frontSent, back := y.monitor.back, placement := y.monitor.placement,
    blanking := y.monitor.blanking, cue := y.monitor.cue, output := y.monitor.output } }) : x.keepsClock y := by
  rw [h]
  exact ⟨rfl, rfl, rfl, rfl, rfl, rfl, rfl, rfl, List.prefix_refl _, rfl⟩

theorem Engine.settleFront_keepsClock (e : Engine) : e.keepsClock e.settleFront := by
  unfold Engine.settleFront
  simp only
  split
  · exact Engine.keepsClock_of rfl
  · split
    · exact Engine.keepsClock_of rfl
    · split
      · next j _ =>
        split
        · unfold Engine.underrun
          simp only
          split
          · exact Engine.keepsClock_of rfl
          · split
            · exact (Engine.keepsClock_of (x := e) rfl).trans (Engine.signal_leaves _ _).keepsClock
            · exact Engine.keepsClock_of rfl
        · exact Engine.keepsClock_of rfl
      · exact Engine.keepsClock_of rfl

theorem Engine.sendFront_keepsClock (g : Settings) (e : Engine) (d : Damage) : e.keepsClock (e.sendFront g d) := by
  cases h : e.monitor.front with
  | black => rw [Engine.sendFront_black h]; exact Engine.keepsClock_of rfl
  | picture p =>
    rw [Engine.sendFront_picture h]
    simp only
    split
    · exact Engine.keepsClock_of rfl
    · exact (Engine.keepsClock_of (x := e) rfl).trans (Engine.raiseFault_leaves _ _ _).keepsClock

/-- A sync keeps the clock but for the time of the last sync, which is its own. -/
theorem Engine.syncAt_keepsClock (g : Settings) (e : Engine) (time : Nat) (d : Damage) :
    (e.updateMonitor (fun m => { m with lastSync := some time })).keepsClock (e.syncAt g time d) :=
  ((Engine.settleFront_keepsClock _).trans (Engine.sendFront_keepsClock g _ d)).trans (Engine.settleRender_leaves g _).keepsClock

/-- A timed step of the blocks under a silent matrix, which removes no descriptor, leaves the blocks as its rule leaves them. -/
theorem State.runAt_silent {s : State} {f : Settings → Engine → Engine} (h : s.resetHeld = false) (hq : s.settings.silent = true)
    (time : Nat) (hm : (f s.settings s.blocks).removed = false) :
    s.ranBlocks (s.runAt time f) ∧ (s.runAt time f).now = time ∧ (s.runAt time f).seated = s.seated ∧
      (s.runAt time f).mounted = s.mounted ∧ (s.runAt time f).engine = f s.settings s.blocks := by
  simp [State.runAt, State.run, h, State.openStep, State.closeStep, State.ranBlocks, Engine.endStep_silent hq (.inl hm)]

end Sys2Proof.Machine
end

