-- ==== Sys2Proof/Laws/Raster.lean ====
section
/-!
SUPPORT. The raster of a buffer, the one addressed store of the part (section 8.4): its canonical form is positions strictly rising
with raster black never listed; every raster operation keeps it, a read after a write to the same position gives the pixel written,
and a write leaves every other position alone.
-/

namespace Sys2Proof.Machine

/-- Reading the position just written gives the pixel written. -/
theorem Raster.read_write_same (r : Raster) (pos : Nat) (x : Rgb) (h : r.Pairwise (fun x y => x.1 < y.1)) :
    (r.write pos x).read pos = x := by
  induction r with
  | nil => simp only [Raster.write]; split <;> simp_all [Raster.read]
  | cons a rest ih =>
    obtain ⟨q, y⟩ := a
    have hr := List.pairwise_cons.mp h
    have past : ∀ l : Raster, (∀ z ∈ l, pos < z.1) → Raster.read l pos = rasterBlack := by
      intro l hl
      induction l with
      | nil => rfl
      | cons b l ihl =>
        simp only [Raster.read]
        have h1 : pos ≠ b.1 := by have := hl b (by simp); omega
        rw [if_neg h1]
        exact ihl (fun z hz => hl z (by simp [hz]))
    simp only [Raster.write]
    split
    · rename_i hlt
      split
      · rename_i hx
        rw [past _ (by intro z hz; rcases List.mem_cons.mp hz with rfl | hz; exacts [hlt, lt_trans hlt (hr.1 z hz)]), hx]
      · simp [Raster.read]
    · split
      · rename_i heq
        split
        · rename_i hx
          rw [past _ (by intro z hz; rw [heq]; exact hr.1 z hz), hx]
        · simp [Raster.read]
      · rename_i hne
        simp only [Raster.read, if_neg hne]
        exact ih hr.2

/-- A write leaves every other position alone. -/
theorem Raster.read_write_other (r : Raster) (pos k : Nat) (x : Rgb) (h : k ≠ pos) : (r.write pos x).read k = r.read k := by
  induction r with
  | nil => simp only [Raster.write]; split <;> simp [Raster.read, h]
  | cons a rest ih =>
    obtain ⟨q, y⟩ := a
    simp only [Raster.write]
    split
    · split <;> simp [Raster.read, h]
    · split
      · rename_i heq; subst heq; split <;> simp [Raster.read, h]
      · simp only [Raster.read]; split <;> first | rfl | exact ih

/-- Every position a write lists was listed before, or is the one written. -/
theorem Raster.mem_write (r : Raster) (pos : Nat) (x : Rgb) : ∀ z ∈ r.write pos x, z ∈ r ∨ (z = (pos, x) ∧ x ≠ rasterBlack) := by
  induction r with
  | nil => simp only [Raster.write]; split <;> simp_all
  | cons a rest ih =>
    obtain ⟨q, y⟩ := a
    intro z
    simp only [Raster.write]
    split
    · split <;> (simp_all; try tauto)
    · split
      · split <;> (simp_all; try tauto)
      · simp only [List.mem_cons]
        rintro (rfl | hz)
        · simp
        · rcases ih z hz with h | h
          · exact .inl (.inr h)
          · exact .inr h

/-- A write keeps the canonical form. -/
theorem Raster.write_wf (r : Raster) (pos : Nat) (x : Rgb) (h : r.wf) (hpos : pos < Config.rasterWidth * Config.rasterHeight) :
    (r.write pos x).wf := by
  refine ⟨?_, fun z hz => ?_⟩
  · have hp := h.1
    clear h
    induction r with
    | nil => simp only [Raster.write]; split <;> simp
    | cons a rest ih =>
      obtain ⟨q, y⟩ := a
      have hr := List.pairwise_cons.mp hp
      simp only [Raster.write]
      split
      · rename_i hlt
        split
        · exact hp
        · refine List.pairwise_cons.mpr ⟨fun z hz => ?_, hp⟩
          rcases List.mem_cons.mp hz with rfl | hz
          exacts [hlt, lt_trans hlt (hr.1 z hz)]
      · split
        · rename_i heq
          split
          · exact hr.2
          · exact List.pairwise_cons.mpr ⟨fun z hz => by simpa [heq] using hr.1 z hz, hr.2⟩
        · rename_i hlt hne
          refine List.pairwise_cons.mpr ⟨fun z hz => ?_, ih hr.2⟩
          rcases Raster.mem_write rest pos x z hz with h | ⟨rfl, -⟩
          · exact hr.1 z h
          · simp only; omega
  · rcases Raster.mem_write r pos x z hz with hm | ⟨rfl, hx⟩
    exacts [h.2 z hm, ⟨hx, hpos⟩]

/-- Damage keeps the canonical form (R161). -/
theorem Raster.damage_wf (r : Raster) (d : Damage) (h : r.wf) : (r.damage d).wf := by
  unfold Raster.damage
  induction d generalizing r with
  | nil => exact h
  | cons x d ih =>
    simp only [List.foldl_cons]
    apply ih
    split
    · rename_i hx; exact Raster.write_wf _ _ _ h hx
    · exact h

/-- A shown pixel lies in the raster (R154). -/
theorem Placement.position_lt (p : Placement) (w k pos : Nat) (h : p.position w k = some pos) :
    pos < Config.rasterWidth * Config.rasterHeight := by
  simp only [Placement.position] at h
  split at h
  · split at h
    · rename_i hb
      simp only [Option.some.injEq] at h
      simp only [Config.rasterWidth, Config.rasterHeight] at hb h ⊢
      omega
    · simp at h
  · simp at h

/-- Graded pixels written to a raster keep the canonical form (R154). -/
theorem Placement.fill_wf (p : Placement) (w k : Nat) (xs : List Rgb) (r : Raster) (h : r.wf) : (p.fill w k xs r).wf := by
  induction xs generalizing k r with
  | nil => exact h
  | cons x xs ih =>
    simp only [Placement.fill]
    split
    · rename_i pos hp; exact ih _ _ (Raster.write_wf _ _ _ h (p.position_lt w k pos hp))
    · exact ih _ _ h

/-- A black raster has the canonical form; every fill starts from it (R154). -/
theorem Raster.black_wf : Raster.wf [] := ⟨List.Pairwise.nil, fun _ h => nomatch h⟩

end Sys2Proof.Machine
end

