-- ==== Sys2Proof/Tests/Slice0.lean ====
section
/-!
SUPPORT. The model's own tests: what WellFormed refuses, the worked cases of the spec, one small step of each kind, and for each
obligation with hypotheses a state and operands that meet them all, with what the step then leaves.
-/

namespace Sys2Proof.Tests

set_option Elab.async false

open Sys2Proof Sys2Proof.Machine

/-! ## WellFormed refuses what no connection can carry -/

theorem test_tag_is_one_byte : WellFormed (.status ⟨.A, 256⟩) = false ∧ WellFormed (.status ⟨.A, 255⟩) = true := by decide
theorem test_kind_is_one_byte : WellFormed (.requestArrival ⟨.A, 0⟩ 256 []) = false := by decide
theorem test_payload_fits_its_length (p : List Byte) (h : p.length = 65536) :
    WellFormed (.requestArrival ⟨.A, 0⟩ 1 p) = false := by simp [WellFormed, payloadFits, h]
theorem test_unknown_kind_is_unknown : WellFormed (.unknownRequestKind ⟨.A, 0⟩ 35 []) = false := by decide
theorem test_slot_is_two_bytes : WellFormed (.readClip ⟨.A, 0⟩ 65536 0) = false := by decide
theorem test_generation_is_one_byte : WellFormed (.readClip ⟨.A, 0⟩ 511 256) = false := by decide
theorem test_number_is_two_bytes : WellFormed (.ackFault ⟨.A, 0⟩ 65536) = false := by decide
theorem test_byte_argument_is_one_byte : WellFormed (.readCard ⟨.A, 0⟩ 256) = false := by decide
theorem test_frame_bound_is_four_bytes :
    WellFormed (.queueRender ⟨.B, 0⟩ 0 0 (.frames 0 4294967296) 0) = false := by decide
theorem test_label_byte_fits : WellFormed (.queueRender ⟨.B, 0⟩ 0 0 (.timecode ⟨256, 0, 0, 0, false⟩ ⟨0, 0, 0, 0, false⟩) 0) = false := by
  decide
theorem test_label_frames_leave_bit_7 :
    WellFormed (.queueRender ⟨.B, 0⟩ 0 0 (.timecode ⟨0, 0, 0, 128, false⟩ ⟨0, 0, 0, 0, false⟩) 0) = false := by decide
theorem test_look_name_length_is_one_byte :
    WellFormed (.writeLook ⟨.B, 0⟩ ⟨0, List.replicate 256 0x41, 0, Vector.replicate 3 (Vector.replicate 3 0), Vector.replicate 3 0,
      Vector.replicate 3 0, Vector.replicate 3 (Vector.replicate 65 0), 0⟩) = false := by decide +kernel
theorem test_severity_is_one_byte :
    WellFormed (.writeProfile ⟨.C, 0⟩ ⟨1, 1, 0, 0, 1, 2, 0, Vector.replicate 12 256⟩) = false := by decide
theorem test_damage_lies_in_the_raster :
    WellFormed (.sync [(2073600, ⟨0, 0, 0⟩)]) = false ∧ WellFormed (.sync [(2073599, ⟨1023, 0, 0⟩)]) = true ∧
      WellFormed (.sync [(0, ⟨1024, 0, 0⟩)]) = false := by decide

/-! ## The spec's worked cases -/

/-- The check value of R49 and the digest of section 5.2. -/
theorem test_crc_check_value : frameCheck (ascii "123456789") = 0xCBF43926#32 ∧ digest (ascii "123456789") = 0xCBF43926E3069283#64 := by
  decide +kernel

/-- The look of section 6.7, with the shaper entries that the case uses. -/
def workedLook : LookParams :=
  let entries : Vector (BitVec 16) 65 := (((((((Vector.replicate 65 (0 : BitVec 16)).set 8 19200).set 9 21120).set 14 29440).set 15
    30720).set 17 33024).set 18 34176).set 36 60000 |>.set 37 61500
  { black := 256
    matrix := #v[#v[9830, BitVec.ofInt 16 (-1229), BitVec.ofInt 16 (-409)], #v[BitVec.ofInt 16 (-410), 9011, BitVec.ofInt 16 (-409)],
      #v[0, BitVec.ofInt 16 (-819), 9011]]
    slope := Vector.replicate 3 20480
    offset := #v[BitVec.ofInt 16 (-512), BitVec.ofInt 16 (-512), BitVec.ofInt 16 (-256)]
    shaper := Vector.replicate 3 entries
    range := .narrow }

/-- Section 6.7: the mid-tone pixel. -/
theorem test_worked_pixel : gradePixel workedLook ⟨2048, 1800, 1200⟩ = (⟨521, 465, 304⟩, false) := by decide +kernel
/-- Section 6.7: the white pixel is clamped. -/
theorem test_worked_white_pixel : gradePixel workedLook ⟨4095, 4095, 4095⟩ = (⟨940, 940, 940⟩, true) := by decide +kernel
/-- Section 6.7: the stages of the mid-tone pixel's red channel. -/
theorem test_worked_stages :
    stage1 256 2048 = 7168 ∧ stage2 workedLook.matrix[0] 7168 6176 3776 = 7486 ∧
      stage3 workedLook.slope[0] workedLook.offset[0] 7486 = 8846 ∧ stage4 workedLook.shaper[0] 8846 = 33344 ∧
      stage5 .narrow 33344 = 521 := by decide +kernel
/-- Section 6.7: the clamp fractions of the frame's report. -/
theorem test_worked_clamp_fraction : clampFraction 3110 2073600 = 98 ∧ clampFraction 41500 2073600 = 1311 := by decide

/-- Section 9.10: across a dropped minute, across midnight, a backward jump, and the non-drop case. -/
theorem test_worked_timecodes :
    labelCount 3 true ⟨0, 0, 59, 29, false⟩ = 1799 ∧ labelCount 3 true ⟨0, 1, 0, 2, false⟩ = 1800 ∧
      labelValid 3 true ⟨0, 1, 0, 0, false⟩ = false ∧ dayLength 3 true = 2589408 ∧
      labelCount 3 true ⟨23, 59, 59, 29, false⟩ = 2589407 ∧
      labelJump 3 true ⟨23, 59, 59, 29, false⟩ ⟨0, 0, 0, 0, false⟩ = 0 ∧
      labelJump 3 true ⟨0, 0, 0, 5, false⟩ ⟨23, 59, 59, 29, false⟩ = -7 ∧
      labelJump 2 false ⟨10, 0, 0, 1, false⟩ ⟨10, 0, 0, 3, false⟩ = 1 := by decide

/-- Section 9.11: the luma of each sample, the clip fraction and the average. -/
theorem test_worked_sample :
    luma ⟨4092, 4092, 4092⟩ = 4092 ∧ luma ⟨800, 600, 400⟩ = 628 ∧ luma ⟨200, 240, 180⟩ = 227 ∧ luma ⟨4000, 3900, 3800⟩ = 3914 ∧
      2 * 65536 / 4 = 32768 ∧ (4092 + 628 + 227 + 3914) / 4 = 2215 := by decide

/-- Section 8.9: the placement of a 4096 by 2160 picture under AUTO. -/
theorem test_worked_placement : placementOf .auto 4096 2160 = ⟨4, 448, 270⟩ ∧ placementOf .auto 1920 1080 = ⟨1, 0, 0⟩ := by decide

/-- Section 3.5: the sizes of the damaged take's frames. -/
theorem test_worked_frame_length (h : Header) (hw : h.width = 16) (hh : h.height = 16) (hd : h.depth = .ten) :
    h.frameLength = 1036 := by simp [Header.frameLength, hw, hh, hd, framePrefix, Depth.bytes]

/-- R47, R48: a 10-bit pixel is scaled by 4, and bits 31..30 make its word bad; a 12-bit one is taken whole. -/
theorem test_pixels_decode :
    decodePixel .ten [0x01, 0x08, 0x30, 0x00] = (⟨12, 8, 4⟩, false) ∧
      (decodePixel .ten [0x00, 0x00, 0x00, 0x40]).2 = true ∧
      decodePixel .twelve [0xFF, 0x0F, 0x01, 0x00, 0x00, 0x10] = (⟨4095, 1, 0⟩, true) := by decide

/-- R206 to R208: the first bytes of the notice of a card event. -/
theorem test_notice_bytes :
    noticeBytes 7 true (Event.ofCard .cardRemoved 4) = [7, 129, 9, 0, 1, 4, 255, 255, 255, 255, 0, 0, 255] := by decide +kernel

/-! ## Small states -/

/-- An UP station port. -/
def port : Station := { Station.reset with up := true }

/-- The part after reset, with its three links UP. -/
def base : State := { State.reset with stations := ⟨port, port, port⟩ }

/-- The same with both lanes and both contexts DRAINING: the blocks start nothing of their own. -/
def still : State :=
  { base with engine := { base.engine with
      lanes := Vector.replicate 2 .draining
      contexts := Vector.replicate 2 ⟨.draining, none⟩ } }

/-- What a command leaves. -/
def after (c : Instr) (s : State) : State :=
  match exec c s with
  | .next t => t
  | _ => s

/-- The status and the results that a port's answer has. -/
def answerAt (s : State) (p : StationPort) : Option (Status × List Byte) := (s.stations.get p).response.map (fun r => (r.status, r.results))

/-- A clip handle, and a clip record for it of card slot 2, of byte length 2,000,000. -/
def clipHandle : Handle := ⟨3, 5⟩
def aClip : Clip := Clip.made clipHandle 2 ⟨4, ascii "A001C003", 2000000⟩

/-- A header of a take: camera C, reel 2, rate code 2, 16 by 16 pixels of 10 bits. -/
def aHeader : Header :=
  { camera := 0x43, reel := 2, scene := ascii "42A     ", take := 3, rate := 2, drop := false, width := 16, height := 16, depth := .ten,
    declared := some 4, start := ⟨10, 0, 0, 0, false⟩ }

/-- The directory of the card that holds it, at card port 1. -/
def aDirectory : Directory := ⟨0x1122, 7, ascii "A001", 1, [⟨4, ascii "A001C003", 2000000⟩]⟩

/-- The card record that the directory gives, with its clip. -/
def aCard : CardRecord := { CardRecord.made aDirectory 1 .ready none with clips := [clipHandle] }

/-- A state with a clip record in its slot. -/
def withClip (c : Clip) (s : State) : State :=
  { s with engine := { s.engine with clips := s.engine.clips.set c.handle.slot ⟨c.handle.gen, some c⟩ } }

/-- With no other clip, the one is in its own place. -/
theorem one_clip_well_placed (s : State) (c : Clip) (h : s.engine.clips = Vector.replicate 512 ⟨0, none⟩) :
    (withClip c s).engine.clipsWellPlaced = true := by
  simp only [Engine.clipsWellPlaced, withClip, h, List.all_eq_true, List.mem_finRange, forall_const]
  intro j
  by_cases hj : c.handle.slot = j
  · subst hj; simp
  · simp [Fin.val_inj, hj]

/-- A state with a card record in slot 2, attached at card port 1. -/
def withCard (r : CardRecord) (s : State) : State :=
  { s with engine := { s.engine with
      cards := s.engine.cards.set 2 (some r)
      cardPorts := s.engine.cardPorts.set 1 ⟨.attached, some aDirectory, none, false, false⟩ } }

/-- A state with a volume ONLINE at a destination port. -/
def withVolume (v : Fin 16) (p : Fin 4) (s : State) : State :=
  { s with engine := { s.engine with
      volumes := s.engine.volumes.set v (some ⟨100 + BitVec.ofNat 64 v.val, ascii "VOL", some p, false⟩)
      destPorts := s.engine.destPorts.set p ⟨.online, none, [], .context 1⟩ } }

/-- A state with its contexts as given. -/
def withContexts (x y : Context) (s : State) : State := { s with engine := { s.engine with contexts := #v[x, y] } }

/-- A state with both contexts IDLE. -/
def idle (s : State) : State := withContexts ⟨.idle, none⟩ ⟨.idle, none⟩ s

/-- A state with an operation in flight at a destination port. -/
def withFlight (p : Fin 4) (op : Operation) (s : State) : State :=
  { s with engine := s.engine.updateDest p (fun d => { d with inflight := some op }) }

/-- A state with settings changed. -/
def withSettings (f : Settings → Settings) (s : State) : State := { s with settings := f s.settings }

/-- A state with blocks changed. -/
def withBlocks (f : Engine → Engine) (s : State) : State := { s with engine := f s.engine }

/-- One request from each station. -/
def fromA : Origin := ⟨.A, 9⟩
def fromB : Origin := ⟨.B, 9⟩
def fromC : Origin := ⟨.C, 9⟩

/-- A descriptor in slot 0 for the clip of `aClip`. -/
def aDescriptor (kind : DescKind) (source : Source) (targets : List (Fin 16)) (state : DescState) : Descriptor :=
  { slot := 0, kind := kind, clip := some clipHandle, card := 2, source := some source, targets := targets, serial := none,
    generation := 0, progress := 0, state := state }

/-! ## Witnesses: arithmetic, timecode, placement and parsing -/

theorem witness_stage_ranges :
    1023 ≤ 1023 ∧ 4095 ≤ 4095 ∧ stage1 1023 4095 = 12288 ∧ stage1 0 4095 = 16380 ∧ stage1 1023 0 = -4092 ∧
      stage1 256 256 = 0 := by decide
theorem witness_matrix_ranges :
    (-4092 : Int) ≤ -4092 ∧ (16380 : Int) ≤ 16380 ∧ stage2 #v[0x7FFF, 0x7FFF, 0x7FFF] 16380 16380 16380 = 196554 ∧
      stage2 #v[0x8000, 0x8000, 0x8000] 16380 16380 16380 = -196560 ∧ stage2 #v[9830, -1229, -409] 12 12 12 = 12 := by decide
theorem witness_slope_ranges :
    stage3 0xFFFF 0x7FFF 196554 = 524287 ∧ stage3 0xFFFF 0x8000 (-196560) = -524288 ∧ stage3 0 0xFFFF 196554 = -1 := by decide
theorem witness_shaper_ends :
    stage4 workedLook.shaper[0] (-1) = 0 ∧ stage4 workedLook.shaper[0] 40000 = stage4 workedLook.shaper[0] 32767 ∧
      stage4 workedLook.shaper[0] 4096 = 19200 := by decide +kernel
theorem witness_quantise_ends :
    stage5 .full 65535 = 1023 ∧ clampedBy .full 65504 = true ∧ clampedBy .full 65503 = false ∧ stage5 .narrow 0 = 64 ∧
      clampedBy .narrow 4063 = true ∧ clampedBy .narrow 4064 = false := by decide
theorem witness_labels :
    labelValid 3 true ⟨23, 59, 59, 29, false⟩ = true ∧ labelValid 3 true ⟨0, 10, 0, 0, true⟩ = true ∧
      labelCount 3 true ⟨0, 10, 0, 0, true⟩ = 17982 := by decide
theorem witness_placement :
    (0 : Nat) < 4096 ∧ (placementOf .auto 4096 2160).position 4096 0 = some 518848 ∧
      (placementOf .auto 4096 2160).position 4096 1 = none ∧ (placementOf .one 4096 2160).position 4096 0 = none := by decide +kernel
/-- R154: 3840 by 2160 fills the raster; of 8192 by 4320, columns 64 to 1983 of 2048 by 1080 are shown; at factor 1 the centre is. -/
theorem witness_placement_cut :
    placementOf .auto 3840 2160 = ⟨2, 0, 0⟩ ∧ (placementOf .auto 8192 4320).factor = 4 ∧
      (placementOf .auto 8192 4320).position 8192 (4 * 63) = none ∧ (placementOf .auto 8192 4320).position 8192 (4 * 64) = some 0 ∧
      (placementOf .auto 8192 4320).position 8192 (4 * 1983) = some 1919 ∧
      (placementOf .auto 8192 4320).position 8192 (4 * 1984) = none ∧ (placementOf .auto 8192 4320).position 8192 (4316 * 8192 + 256) =
        some (1079 * 1920) ∧ (placementOf .one 4096 2160).position 4096 (540 * 4096 + 1088) = some 0 := by decide +kernel
theorem witness_fault_list :
    still.engine.faultsLegal = true ∧
      ((withClip aClip still).engine.raiseFault still.settings (FaultInput.bare .frameCheck clipHandle 2)).faultsLegal = true := by
  decide +kernel

/-- What a step leaves. -/
def stepped (s : State) : State :=
  match step s with
  | .next t => t
  | _ => s

/-! ## Witnesses: steps, reset and the station links -/

/-- R210: a held part begins again from reset, with its seated card read and its mounted drive identified; until then nothing acts. -/
theorem witness_reset :
    let s := { still with resetHeld := true, seated := still.seated.set 1 true, mounted := still.mounted.set 2 true }
    s.resetHeld = true ∧ ((after .resetRelease s).engine.cardPorts[1]).state = .reading ∧
      ((after .resetRelease s).engine.destPorts[2]).state = .identifying ∧
      ((after .resetRelease s).engine.cardPorts[0]).state = .empty ∧ (after .resetAssert still).resetHeld = true ∧
      (after .resetAssert still).stations.a.up = false ∧ (after (.status fromA) s).stations.a.response = none ∧
      Instr.status fromA ≠ .resetAssert ∧ Instr.status fromA ≠ .resetRelease := by decide +kernel

theorem witness_step :
    let s := { base with pending := [.setNotices fromA 5, .status fromB] }
    s.pending = .setNotices fromA 5 :: [.status fromB] ∧ (stepped s).pending = [.status fromB] ∧ (stepped s).stations.a.mask = 5 ∧
      base.pending = [] ∧ (stepped base).stations.a.mask = 63 := by decide +kernel

/-- R201: the two link events, each where it acts. -/
theorem witness_link :
    base.resetHeld = false ∧ State.reset.resetHeld = false ∧ (after (.linkUp .A) State.reset).stations.a.up = true ∧
      (after (.linkLost .A) base).stations.a.up = false ∧ (after (.linkLost .A) base).stations.b.up = true := by decide +kernel

/-- Port A with some requests untaken and some refusals. -/
def filled (requests refusals : Nat) : State :=
  { base with stations := { base.stations with a :=
      { port with untaken := List.replicate requests ⟨1, 1, []⟩, refusals := List.replicate refusals (1, 1) } } }

/-- R203: the eighth outstanding request is queued, the ninth refused, and with 8 refusals listed it is discarded. -/
theorem witness_arrival :
    (filled 7 0).resetHeld = false ∧ (after (.requestArrival fromA 1 []) (filled 7 0)).stations.a.untaken.length = 8 ∧
      (after (.requestArrival fromA 1 []) (filled 8 7)).stations.a.refusals.length = 8 ∧
      (after (.requestArrival fromA 1 []) (filled 8 8)).stations.a.refusals.length = 8 ∧
      (after (.requestArrival fromA 1 []) State.reset).stations.a.untaken = [] := by decide +kernel

/-- Port A sending a message, with others waiting. -/
def sending (x : Sending) : State :=
  { base with stations := { base.stations with a :=
      { port with sending := some x, refusals := [(1, 2)], response := some ⟨1, 1, .done, []⟩, sequence := 255, missed := true
                  notices := [Event.ofCard .cardRemoved 3, Event.ofCard .cardAttached 3] } } }

/-- R203, R204, R208: each of the three messages leaves its source. -/
theorem witness_sent :
    (sending .refusal).resetHeld = false ∧ (sending .refusal).stations.a.up = true ∧
      (after (.messageSent .A) (sending .refusal)).stations.a.refusals = [] ∧
      (after (.messageSent .A) (sending .refusal)).stations.a.sending = some (.notice true) ∧
      (after (.messageSent .A) (sending .response)).stations.a.resetFlag = false ∧
      (after (.messageSent .A) (sending (.notice true))).stations.a.sequence = 0 ∧
      (after (.messageSent .A) (sending (.notice true))).stations.a.missed = false ∧
      (after (.messageSent .A) (sending (.notice false))).stations.a.missed = true := by decide +kernel

/-- The bounds that a step keeps hold at a state with work, and after its step. -/
theorem witness_bounds :
    (filled 8 8).stations.legal = true ∧ (filled 8 8).settings.legal = true ∧ (sending .response).stations.legal = true ∧
      (stepped { filled 8 8 with pending := [.linkLost .A] }).stations.legal = true := by decide +kernel

/-- R202: a label and a range that fit their fields. -/
theorem witness_wire :
    Timecode.wf ⟨23, 59, 59, 127, true⟩ = true ∧ Range.wf (.frames 0 4294967295) = true ∧
      Range.wf (.timecode ⟨0, 0, 0, 0, false⟩ ⟨255, 255, 255, 127, true⟩) = true ∧ Range.wf .whole = true := by decide

/-! ## Witnesses: parsing, and the rules that every step keeps -/

/-- The TKHD payload of `aHeader` without a declared count, and a parse of a take of some bytes about to read its first chunk. -/
def tkhdPayload : List Byte :=
  leBytes 2 1 ++ leBytes 2 7 ++ leBytes 2 16 ++ leBytes 2 16 ++ [10, 0, 0, 0] ++ ascii "SCENE001" ++ [0x41, 1, 2, 0, 10]

/-- R42 to R60: each case of the walk, at the first chunk and at a later one. -/
theorem witness_parse :
    let first (n : Nat) := Parse.start clipHandle 2 n
    let later : Parse := { first 2000 with chunkIndex := 1, offset := 33, header := some aHeader, outcome := .valid }
    let ended : Parse := { later with walk := .ended }
    let frame := List.replicate 1036 (0 : Byte)
    (first 33).walk = .chunkHead ∧ (first 33).head = [] ∧ (first 33).frame = FrameInProgress.empty ∧
      (first 33).awaitsPrefix = false ∧ (ascii "TKHD").length = 4 ∧ 0 + 8 + 25 ≤ (first 33).byteLength ∧
      (first 33).header = none ∧ (first 33).outcome = .pending ∧ (first 33).badRaised = false ∧
      later.walk = .chunkHead ∧ later.frame = FrameInProgress.empty ∧ later.outcome ≠ .pending ∧ 33 + 8 + 1036 ≤ later.byteLength ∧
      frame.length = 12 + 16 * 16 * 4 ∧ aHeader.depth.bytes = 4 ∧
      ((first 8).block (ascii "JUNK" ++ leBytes 4 1)).2 = [.headerInvalid 4, .truncated 1, .takeEnd none] ∧
      ((first 20).block (ascii "TKHD" ++ leBytes 4 25)).2 = [.truncated 13] ∧
      ended.walk = .ended ∧ 0 < ended.offset ∧ ended.offset + 1967 ≤ ended.byteLength ∧
      (ended.block [1, 2, 3]).2 = [] := by decide +kernel

theorem witness_read_header : (readHeader tkhdPayload).isOk = true := by decide +kernel

/-! ## Witnesses: taking a request -/

theorem witness_role :
    requestOf (.startOffload fromB 0 0) = some (fromB, 13) ∧ base.accepts fromB = true ∧ StationPort.B ∉ [StationPort.A] ∧
      answerAt (after (.startOffload fromB 0 0) base) .B = some (.notPermitted, []) ∧
      requestOf (.unknownRequestKind fromB 36 []) = some (fromB, 36) ∧ requestOf (.unknownRequestKind fromB 0 []) = some (fromB, 0) ∧
      answerAt (after (.unknownRequestKind fromB 36 []) base) .B = some (.badArgument, []) ∧
      requestOf (.readCard fromA 32) = some (fromA, 4) ∧ base.accepts fromA = true ∧
      answerAt (after (.readCard fromA 32) base) .A = some (.badArgument, []) ∧
      answerAt (after (.readCard fromA 31) base) .A = some (.notFound, []) := by decide +kernel
/-- R205: the last kind of one role and the first of the next, at each port. -/
theorem witness_role_boundaries :
    let status (c : Instr) (p : StationPort) : Option Status := (answerAt (after c base) p).map (·.1)
    status (.setStall fromA 0 3 2) .A = some .done ∧ status (.setStall fromB 0 3 2) .B = some .notPermitted ∧
      status (.clearLook fromA 0) .A = some .notPermitted ∧ status (.clearLook fromB 0) .B = some .done ∧
      status (.resumeRenders fromC) .C = some .notPermitted ∧ status (.stopMonitor fromC) .C = some .done ∧
      status (.cancelRender fromB 0) .B = some .notFound ∧ status (.waiveFault fromB 1) .B = some .notPermitted ∧
      status (.waiveFault fromC 1) .C = some .notFound ∧ status (.ackFault fromC 1) .C = some .notFound ∧
      status (.holdCard fromC 0) .C = some .notPermitted := by decide +kernel

/-- Port A with a READ_CLIP at the head of its queue, before a STATUS. -/
def queued (payload : List Byte) : State :=
  withClip aClip { base with stations := { base.stations with a := { port with untaken := [⟨9, 2, payload⟩, ⟨1, 1, []⟩] } } }

theorem witness_queued :
    (queued [3, 0, 5]).canTake .A = true ∧ (queued [3, 0, 5]).stations.a.untaken = [⟨9, 2, [3, 0, 5]⟩, ⟨1, 1, []⟩] ∧
      w16 3 ++ w8 5 = [3, 0, 5] ∧ (after (.readClip fromA 3 5) (queued [3, 0, 5])).stations.a.untaken = [⟨1, 1, []⟩] ∧
      (answerAt (after (.readClip fromA 3 5) (queued [3, 0, 5])) .A).map (·.1) = some .done ∧
      (queued [3, 0]).canTake .A = true ∧ answerAt (after (.readClip fromA 3 5) (queued [3, 0])) .A = some (.badArgument, []) := by
  decide +kernel

/-- R206, R207: the mask's bounds. -/
theorem witness_notices :
    base.accepts fromC = true ∧ (after (.setNotices fromC 63) base).stations.c.mask = 63 ∧
      (after (.setNotices fromC 0) base).stations.c.mask = 0 ∧ answerAt (after (.setNotices fromC 64) base) .C = some (.badArgument, []) ∧
      answerAt (after (.setNotices fromC 255) base) .C = some (.badArgument, []) ∧
      (answerAt (after (.status fromC) base) .C).map (·.1) = some .done := by decide +kernel

/-- R22, R110, R188: each read at a boundary of its range. -/
theorem witness_reads :
    let s := withCard aCard (withClip aClip still)
    s.accepts fromB = true ∧ s.engine.clipAt clipHandle = some aClip ∧ s.engine.cards[(2 : Fin 32)] = some aCard ∧
      (answerAt (after (.readClip fromB 3 5) s) .B).map (·.1) = some .done ∧
      (answerAt (after (.readCard fromB 2) s) .B).map (·.1) = some .done ∧
      (answerAt (after (.readVolumes fromB) s) .B).map (·.1) = some .done ∧
      (answerAt (after (.readFaults fromB 255 16) s) .B).map (·.1) = some .done ∧
      (answerAt (after (.readFaults fromB 0 17) s) .B) = some (.badArgument, []) ∧
      (answerAt (after (.readLook fromB 31) s) .B).map (·.1) = some .done ∧
      (answerAt (after (.readLook fromB 255) s) .B).map (·.1) = some .done ∧
      (answerAt (after (.readLook fromB 32) s) .B) = some (.badArgument, []) ∧
      (answerAt (after (.readLinks fromB) s) .B).map (·.1) = some .done := by decide +kernel

/-- R23: the walk stops at the record that makes up the count, or after all 512 slots. -/
theorem witness_list_clips :
    let s := withClip aClip still
    let ends (start count : Nat) := (answerAt (after (.listClips fromA start count) s) .A).map (fun a => (a.2.head?, a.2.drop (a.2.length - 3)))
    s.accepts fromA = true ∧ ends 511 1 = some (some 1, [4, 0, 0]) ∧ ends 4 1 = some (some 1, [4, 0, 1]) ∧
      ends 4 16 = some (some 1, [4, 0, 1]) ∧ answerAt (after (.listClips fromA 512 1) s) .A = some (.badArgument, []) ∧
      answerAt (after (.listClips fromA 511 0) s) .A = some (.badArgument, []) ∧
      answerAt (after (.listClips fromA 0 17) s) .A = some (.badArgument, []) := by decide +kernel

/-! ## Witnesses: settings -/

/-- A link entry of the GRADE station. -/
def aLink : LinkEntry := ⟨.clipSecured, none, .note, .queueRender, 3, true, .B⟩

theorem witness_links :
    let s := withSettings (fun g => { g with links := g.links.set 15 (some aLink) }) base
    s.accepts fromA = true ∧ s.accepts fromB = true ∧ cameraLegal (some 0x5A) = true ∧ cameraLegal (some 0x41) = true ∧
      actionAllowed .queueRender .clipSecured = true ∧ s.settings.links[(0 : Fin 16)] = none ∧
      s.settings.links[(15 : Fin 16)] = some aLink ∧ aLink.writer ≠ .A ∧ aLink.writer = .B ∧
      answerAt (after (.writeLink fromB 15 7 0x5A 0 2 3 true) s) .B = some (.done, []) ∧
      answerAt (after (.writeLink fromA 15 7 0x5A 0 2 3 true) s) .A = some (.notPermitted, []) ∧
      ((after (.writeLink fromA 0 7 0x5A 2 2 3 true) s).settings.links[(0 : Fin 16)]) =
        some ⟨.clipSecured, some 0x5A, .note, .queueRender, 3, true, .A⟩ ∧
      (after (.clearLink fromB 15) s).settings.links[(15 : Fin 16)] = none ∧
      answerAt (after (.clearLink fromA 15) s) .A = some (.notPermitted, []) ∧
      answerAt (after (.clearLink fromA 16) s) .A = some (.badArgument, []) := by decide +kernel

theorem witness_offload_settings :
    base.accepts fromA = true ∧ (after (.defineSet fromA 3 0 9 1) base).settings.sets[(3 : Fin 4)] = ⟨0, 1, .readback⟩ ∧
      (after (.defineSet fromA 3 15 4 1) base).settings.sets[(3 : Fin 4)] = ⟨15, 4, .noVerify⟩ ∧
      answerAt (after (.defineSet fromA 3 7 4 1) base) .A = some (.badArgument, []) ∧
      answerAt (after (.defineSet fromA 3 15 0 1) base) .A = some (.badArgument, []) ∧
      (after (.setStall fromA 3 255 255) base).settings.stall[(3 : Fin 4)] = ⟨7, 3⟩ ∧
      answerAt (after (.setStall fromA 3 255 255) base) .A = some (.done, [7, 3]) ∧
      answerAt (after (.setStall fromA 4 0 0) base) .A = some (.badArgument, []) := by decide +kernel

/-- A WRITE_LOOK of the worked look. -/
def lookArgs (slot : Nat) : LookArgs :=
  ⟨slot, ascii "DAY", 1023, workedLook.matrix, workedLook.slope, workedLook.offset, workedLook.shaper, 0⟩

/-- A state whose look slot 31 was written last with version 65535, and whose clip is CURRENT on it. -/
def graded : State :=
  withClip { aClip with renderState := .current, rendered := some (31, 65535), binding := ⟨some 31, some .explicit⟩ }
    (withSettings (fun g => { g with looks := g.looks.set 31 ⟨65535, 65535, some (ascii "DAY", workedLook)⟩ }) still)

theorem witness_looks :
    graded.accepts fromB = true ∧ graded.settings.silent = true ∧ lookNameValid (lookArgs 31).name = true ∧
      (lookArgs 31).black ≤ 1023 ∧ (lookArgs 31).range = OutputRange.narrow.number ∧
      (graded.settings.looks[(31 : Fin 32)]).version ≠ 0 ∧ (graded.settings.looks[(30 : Fin 32)]).version = 0 ∧
      ((after (.clearLook fromB 31) graded).settings.looks[(31 : Fin 32)]) = ⟨0, 65535, none⟩ := by decide +kernel

theorem witness_looks_placed : graded.engine.clipsWellPlaced = true :=
  one_clip_well_placed (withSettings (fun g => { g with looks := g.looks.set 31 ⟨65535, 65535, some (ascii "DAY", workedLook)⟩ }) still)
    { aClip with renderState := .current, rendered := some (31, 65535), binding := ⟨some 31, some .explicit⟩ } rfl

theorem test_write_look : answerAt (after (.writeLook fromB (lookArgs 31)) graded) .B = some (.done, [1, 0]) := by decide +kernel
theorem test_write_look_stale :
    ((after (.writeLook fromB (lookArgs 31)) graded).engine.clipAt clipHandle).map (·.renderState) = some .stale := by decide +kernel
theorem test_clear_look :
    ((after (.clearLook fromB 31) graded).engine.clipAt clipHandle).map (·.renderState) = some .stale := by decide +kernel

theorem witness_bindings :
    graded.engine.clipAt clipHandle ≠ none ∧
      ((after (.writeBinding fromB 15 255 999 999 31 true) graded).settings.rules[(15 : Fin 16)]) = ⟨none, 999, 999, 31, true⟩ ∧
      answerAt (after (.writeBinding fromB 15 0x41 0 999 31 true) graded) .B = some (.badArgument, []) ∧
      answerAt (after (.writeBinding fromB 15 0x41 1 1000 31 true) graded) .B = some (.badArgument, []) ∧
      answerAt (after (.writeBinding fromB 15 0x41 2 1 31 true) graded) .B = some (.badArgument, []) ∧
      ((after (.bindLook fromB 3 5 31) graded).engine.clipAt clipHandle).map (·.renderState) = some .current ∧
      ((after (.bindLook fromB 3 5 0) graded).engine.clipAt clipHandle).map (fun c => (c.binding, c.renderState)) =
        some (⟨some 0, some .explicit⟩, .stale) ∧
      ((after (.bindLook fromB 3 5 255) graded).engine.clipAt clipHandle).map (fun c => (c.binding, c.renderState)) =
        some (⟨none, some .explicit⟩, .stale) := by decide +kernel

/-- R55, R115: a first valid header binds by the first rule that matches and makes a CURRENT clip STALE; a clip bound explicitly keeps
its slot; an invalid header takes the header away. -/
theorem witness_header_outcome :
    let g := { still.settings with rules := (still.settings.rules.set 2 ⟨none, 3, 999, 7, true⟩).set 4 ⟨some 0x43, 2, 2, 9, true⟩ }
    let e (b : Binding) : Engine := (withClip { aClip with renderState := .current, rendered := some (31, 1), binding := b } still).engine
    let t (b : Binding) : Engine := Engine.parseOut g 0 clipHandle 2 (e b) (.headerValid aHeader)
    let shown (t : Engine) := (t.clipAt clipHandle).map (fun c => (c.binding, c.renderState, c.header))
    let u := Engine.parseOut g 0 clipHandle 2 (t ⟨none, none⟩) (.headerInvalid 4)
    ((e ⟨none, none⟩).clipAt clipHandle).map (fun c => (c.header, c.binding.origin)) = some (none, none) ∧
      shown (t ⟨none, none⟩) = some (⟨some 9, some .rule⟩, .stale, some aHeader) ∧
      (t ⟨none, none⟩).events = [Event.ofClip .clipStale 2 clipHandle] ∧
      shown (t ⟨some 31, some .explicit⟩) = some (⟨some 31, some .explicit⟩, .current, some aHeader) ∧
      shown u = some (⟨some 9, some .rule⟩, .stale, none) ∧
      u.faults.map (fun f => (f.kind, f.measured)) = [(.badHeader, some 4)] := by decide +kernel

theorem witness_profile :
    let s := after (.writeProfile fromC ⟨0, 0, 65535, 65535, 0, 0, 65535, Vector.replicate 12 2⟩) base
    base.accepts fromC = true ∧ base.settings.profile.legal = true ∧ s.settings.profile.stride = 1 ∧
      s.settings.profile.clipThreshold = 1 ∧ s.settings.profile.blackLimit = 4095 ∧ s.settings.profile.blackRun = 1 ∧
      s.settings.profile.frozenRun = 2 ∧ s.settings.profile.severities[3] = .block ∧ s.settings.profile.severities[7] = .warn ∧
      s.settings.profile.severities[0] = .block ∧ s.settings.profile.severities[1] = .warn := by decide +kernel

/-- A part on an external reference, LOCKED, with a sync behind it. -/
def locked : State :=
  withSettings (fun g => { g with monitor := ⟨none, .auto, .external⟩ }) (withBlocks (fun e => { e with monitor := { e.monitor with
    checker := .locked, prevPulse := some 2250000, lastGood := some 2250000, lastSync := some 2250000 } }) { still with now := 2250000 })

theorem witness_set_monitor :
    base.accepts fromB = true ∧ base.accepts fromC = true ∧ locked.accepts fromC = true ∧
      ((after (.setMonitor fromC 8 4 1 5) base).engine.monitor.rate, (after (.setMonitor fromC 8 4 1 5) base).engine.monitor.checker) =
        ((8 : Fin 9), Checker.unlocked) ∧
      answerAt (after (.setMonitor fromC 255 3 0 5) base) .C = some (.done, [255, 255, 0]) ∧
      (after (.setMonitor fromC 255 255 0 3000000) locked).engine.monitor.checker = .off ∧
      (after (.setMonitor fromC 255 255 0 3000000) locked).engine.monitor.nextSync = 3375000 := by decide +kernel

/-! ## Witnesses: the fault list -/

/-- A fault record of the clip. -/
def aFault (number : Nat) (state : FaultState) (kind : FaultKind) (severity : Severity) : FaultRecord :=
  { serial := number, number := number, kind := kind, severity := severity, state := state, clip := clipHandle, card := 2, volume := none,
    first := none, last := none, tc := none, measured := none, count := 1 }

/-- A list with one record in each state. -/
def withFaults (s : State) : State :=
  withBlocks (fun e => { e with
    faults := [aFault 1 .isOpen .frameCheck .block, aFault 2 .acknowledged .frameSize .block, aFault 3 .waived .pixelWord .warn,
      aFault 65535 .cleared .tcBreak .warn]
    faultCounter := 65535, faultSerial := 70000 }) (withClip aClip s)

theorem witness_fault_requests :
    let s := withFaults still
    let stateOf (t : State) (n : Nat) := (t.engine.faults.find? (fun r => decide (r.number = n))).map (·.state)
    s.accepts fromC = true ∧ s.engine.faultsLegal = true ∧ stateOf (after (.ackFault fromC 1) s) 1 = some .acknowledged ∧
      answerAt (after (.ackFault fromC 2) s) .C = some (.done, []) ∧ answerAt (after (.ackFault fromC 3) s) .C = some (.wrongState, []) ∧
      answerAt (after (.ackFault fromC 65535) s) .C = some (.wrongState, []) ∧
      answerAt (after (.ackFault fromC 0) s) .C = some (.badArgument, []) ∧ answerAt (after (.ackFault fromC 4) s) .C = some (.notFound, []) ∧
      stateOf (after (.waiveFault fromC 1) s) 1 = some .waived ∧ stateOf (after (.waiveFault fromC 2) s) 2 = some .waived ∧
      answerAt (after (.waiveFault fromC 3) s) .C = some (.done, []) ∧
      answerAt (after (.waiveFault fromC 65535) s) .C = some (.wrongState, []) := by decide +kernel

/-- The record in a place of a full list of unresolved BLOCK records of other clips. -/
def fullRecord (n : Nat) : FaultRecord :=
  { aFault (n + 1) .isOpen .frameCheck .block with clip := ⟨Fin.ofNat 512 (n + 4), 0⟩ }

/-- That full list, and the clip with its overflow flag set. -/
def overfull : State :=
  withBlocks (fun e => { e with faults := (List.range 256).map fullRecord, faultCounter := 256, faultSerial := 257 })
    (withClip { aClip with blockOverflow := true } still)

/-- R180, R181, R185: WAIVE_OVERFLOW clears the flag, and a BLOCK fault that finds no room sets it again. -/
theorem witness_overflow :
    let t := after (.waiveOverflow fromC 3 5) overfull
    let f := FaultInput.bare .frameCheck clipHandle 2
    overfull.accepts fromC = true ∧ overfull.accepts fromB = true ∧
      answerAt (after (.waiveOverflow fromB 3 5) overfull) .B = some (.notPermitted, []) ∧
      answerAt (after (.waiveOverflow fromC 512 0) overfull) .C = some (.badArgument, []) ∧
      answerAt (after (.waiveOverflow fromC 511 127) overfull) .C = some (.notFound, []) ∧
      (t.engine.clipAt clipHandle).map (·.blockOverflow) = some false ∧ f.clip = clipHandle ∧ t.engine.unresolvedWithKey f = none ∧
      t.engine.arrivingSeverity t.settings f.kind f.card = .block ∧ t.engine.faults.length = 256 ∧
      evictionCandidate t.engine.faults .block = none ∧
      (((t.engine.raiseFault t.settings f).clipAt clipHandle).map (·.blockOverflow)) = some true := by decide +kernel

theorem full_records_differ : ((List.range 256).map fullRecord).Pairwise (fun r x => r.clashes x = false) := by
  rw [List.pairwise_map]
  refine (List.Pairwise.and_mem.mp (List.pairwise_lt_range (n := 256))).imp ?_
  intro a b hab
  have ha := List.mem_range.mp hab.1
  have hb := List.mem_range.mp hab.2.1
  have hne : (fullRecord a).clip ≠ (fullRecord b).clip := fun h => by
    have := congrArg (fun x : Handle => x.slot.val) h
    simp only [fullRecord, Fin.val_ofNat] at this
    omega
  simp [FaultRecord.clashes, hne]

theorem witness_full_list : overfull.engine.faultsLegal = true := by
  have hf : overfull.engine.faults = (List.range 256).map fullRecord := rfl
  simp only [Engine.faultsLegal, Bool.and_eq_true, decide_eq_true_eq, hf, List.map_map]
  refine ⟨⟨⟨⟨⟨?_, full_records_differ⟩, ?_⟩, ?_⟩, ?_⟩, ?_⟩
  · simp [Config.maxFaults]
  · decide +kernel
  · exact List.nodup_range.map (fun a b h => Nat.succ.inj h)
  · exact List.nodup_range.map (fun a b h => Nat.succ.inj h)
  · decide +kernel

/-! ## Witnesses: offload, release and retire -/

/-- The card in a state, with a COPY of its clip waiting to volume 1, and both lanes DRAINING. -/
def offloading (state : CardState) (ds : List Descriptor) : State :=
  withBlocks (fun e => { e with queue := ds })
    (withClip { aClip with copies := [CopyRecord.made 1 0] } (withCard { aCard with state := state } (withVolume 1 3 still)))

/-- A card's offload under way, with one requeue waiting, and a HOLD_CARD to take. -/
def inWork : State :=
  { withBlocks (fun e => { e with requeues := [⟨clipHandle, 1, 3⟩] }) (offloading .offloading [aDescriptor .copy .card [1] .queued]) with
    pending := [.holdCard fromA 2] }

/-- R79 to R83, R127, R134, R198 and R1 to R66: a state with work meets what every step keeps, and its step answers a next state that
meets it. -/
theorem witness_legal :
    inWork.engine.faultsLegal = true ∧ inWork.engine.queueLegal = true ∧ inWork.engine.rendersLegal = true ∧
      inWork.engine.requeuesLegal = true ∧ inWork.engine.cardsLegal = true ∧ inWork.engine.volumesLegal = true ∧
      inWork.engine.entriesUsed = true ∧ step inWork = .next (stepped inWork) ∧
      (stepped inWork).engine.queue.map (·.state) = [.held] ∧ (stepped inWork).engine.queueLegal = true := by
  refine ⟨?_, ?_, ?_, ?_, ?_, ?_, ?_, rfl, ?_, ?_⟩ <;> decide +kernel

theorem witness_legal_clips : inWork.engine.clipsLegal = true := by
  have h : inWork.engine.clipsWellPlaced = true :=
    one_clip_well_placed (withCard { aCard with state := .offloading } (withVolume 1 3 still))
      { aClip with copies := [CopyRecord.made 1 0] } rfl
  simp only [Engine.clipsLegal, h, Bool.true_and]
  decide +kernel

theorem witness_hold_and_resume :
    let s := offloading .offloading [aDescriptor .copy .card [1] .queued]
    s.accepts fromA = true ∧ (s.engine.cards[(2 : Fin 32)]).map (·.state) = some .offloading ∧ s.settings.silent = true ∧
      s.engine.lanesTaken = true ∧ s.engine.renderIdle = true ∧ (∃ d ∈ s.engine.queue, d.worksFor 2 = true) ∧
      ((after (.holdCard fromA 2) s).engine.queue.map (·.state)) = [.held] ∧
      ((after (.holdCard fromA 2) s).engine.cards[(2 : Fin 32)]).map (fun r => (r.state, r.heldByRequest)) = some (.held, true) ∧
      ((after (.resumeCard fromA 2) (after (.messageSent .A) (after (.holdCard fromA 2) s))).engine.cards[(2 : Fin 32)]).map
        (fun r => (r.state, r.heldByRequest)) = some (.offloading, false) ∧
      answerAt (after (.holdCard fromA 2) (offloading .ready [])) .A = some (.wrongState, []) ∧
      answerAt (after (.resumeCard fromA 2) (offloading .ready [])) .A = some (.wrongState, []) ∧
      CardState.workable .released = true ∧ CardState.workable .ready = false := by decide +kernel

theorem witness_abort :
    let s := offloading .offloading [aDescriptor .copy .card [1] .queued]
    s.accepts fromA = true ∧ CardState.workable .offloading = true ∧ s.engine.requeues = [] ∧ (s.engine.queue.map (·.slot)).Nodup ∧
      (after (.abortCard fromA 2) s).engine.queue = [] ∧
      (((after (.abortCard fromA 2) s).engine.clipAt clipHandle).bind (·.copyOn 1)).map (·.state) = some .failed := by decide +kernel

theorem witness_start_offload :
    let s := withSettings (fun g => { g with sets := g.sets.set 0 ⟨15, 1, .readback⟩ })
      (withClip aClip (withCard aCard (withVolume 1 3 still)))
    s.accepts fromA = true ∧ aCard.state = .ready ∧ aCard.attached.isSome = true ∧ (s.settings.sets[(0 : Fin 4)]).copies ≤ 1 ∧
      s.engine.availableVolumes 15 = [1] ∧ s.engine.queue.length + 1 ≤ 64 ∧
      answerAt (after (.startOffload fromA 2 0) s) .A = some (.done, [1, 1, 1]) ∧
      ((after (.startOffload fromA 2 0) s).engine.queue.map (fun d => (d.clip, d.targets, d.source, d.state))) =
        [(some clipHandle, [1], some .card, .queued)] ∧
      (((after (.startOffload fromA 2 0) s).engine.cards[(2 : Fin 32)]).bind (·.snapshot)) = some ⟨15, 1, .readback⟩ := by
  decide +kernel

/-- R96: a top-up of a clip whose copy on volume 1 is PARTIAL. -/
theorem witness_top_up :
    let clip : Clip := { aClip with copies := [{ CopyRecord.made 1 0 with state := .partialCopy }] }
    let s := withSettings (fun g => { g with sets := g.sets.set 0 ⟨15, 1, .readback⟩ })
      (withClip clip (withCard { aCard with state := .offloaded } (withVolume 1 3 still)))
    s.accepts fromA = true ∧ (s.settings.sets[(0 : Fin 4)]).copies ≤ 1 ∧ s.engine.availableVolumes 15 = [1] ∧
      s.engine.offloadWork 2 false [1] 1 = [(clipHandle, [1])] ∧ s.engine.clipsOf 2 = [clip] ∧ clip.securedCount = 0 ∧
      (clip.copies.map (·.volume)).Nodup ∧ clip.copies.length + ([1].filter (fun v => decide (clip.copyOn v = none))).length ≤ 6 ∧
      answerAt (after (.startOffload fromA 2 0) s) .A = some (.done, [1, 1, 1]) := by decide +kernel

theorem witness_recopy :
    let s := withClip aClip (offloading .offloaded [])
    s.accepts fromA = true ∧ s.engine.clipAt clipHandle = some aClip ∧ aClip.handle = clipHandle ∧
      CardState.workable .offloaded = true ∧ (8 : BitVec 4) ≠ 0 ∧ s.engine.recopyTargets aClip 8 = [1] ∧
      s.engine.recopyTargets aClip 7 = [] ∧ plannedTargets (s.engine.busyVolumes clipHandle) [1] aClip.copies = [1] ∧
      s.engine.recopySource aClip { aCard with state := .offloaded } = some .card ∧ s.engine.freeDescriptor = some 0 ∧
      answerAt (after (.recopy fromA 3 5 8) s) .A = some (.done, [0, 255, 1, 1]) ∧
      (after (.recopy fromA 3 5 8) s).engine.queue.map (·.targets) = [[1]] ∧
      answerAt (after (.recopy fromA 3 5 7) s) .A = some (.noDestination, []) ∧
      answerAt (after (.recopy fromA 3 5 0) s) .A = some (.badArgument, []) ∧
      answerAt (after (.recopy fromA 3 5 16) s) .A = some (.badArgument, []) ∧
      answerAt (after (.recopy fromA 3 5 8) (withClip aClip (offloading .releasing []))) .A = some (.wrongState, []) := by decide +kernel

/-- R100: with the card away, the source is the lowest inserted volume with a VERIFIED copy, here entry 5 and not the absent 4, and a clip
without a source digest has none; with every descriptor slot in use, or no record to be had, RECOPY is refused with FULL. -/
theorem witness_recopy_source :
    let verified (v : Fin 16) : CopyRecord := { CopyRecord.made v 0 with state := .verified }
    let clip : Clip := { aClip with sourceDigest := some 9, copies := [verified 4, verified 6, verified 5] }
    let away : CardRecord := { aCard with state := .offloaded, attached := none }
    let s (c : Clip) := withClip c (withCard away (withVolume 1 3 (withVolume 6 0 (withVolume 5 1 still))))
    let slots : List Descriptor := (List.finRange 64).map (fun k => { aDescriptor .manifest .card [9] .queued with slot := k, clip := none })
    let six : Clip := { clip with copies := (List.finRange 6).map (fun i => verified (Fin.castLE (by decide) i + 4)) }
    (s clip).accepts fromA = true ∧ (s clip).engine.clipAt clipHandle = some clip ∧ clip.handle = clipHandle ∧
      ((s clip).engine.portOf 4).isSome = false ∧ ((s clip).engine.portOf 5).isSome = true ∧
      answerAt (after (.recopy fromA 3 5 8) (s clip)) .A = some (.done, [0, 5, 1, 1]) ∧
      answerAt (after (.recopy fromA 3 5 8) (s { clip with sourceDigest := none })) .A = some (.noSource, []) ∧
      answerAt (after (.recopy fromA 3 5 8) (s { clip with copies := [verified 4] })) .A = some (.noSource, []) ∧
      answerAt (after (.recopy fromA 3 5 8) (withBlocks (fun e => { e with queue := slots }) (s clip))) .A = some (.full, []) ∧
      plannedTargets [] [1] six.copies = [] ∧ answerAt (after (.recopy fromA 3 5 8) (s six)) .A = some (.full, []) := by decide +kernel

/-- A card that waits for its release, its clip with a VERIFIED copy on volume 1. -/
def releasable (volumes : BitVec 4) : State :=
  withClip { aClip with offloadMark := true, copyState := .secured, copies := [{ CopyRecord.made 1 0 with state := .verified }] }
    (withCard { aCard with state := .offloaded, snapshot := some ⟨volumes, 1, .readback⟩ } (withVolume 1 3 still))

theorem witness_release :
    (releasable 8).accepts fromA = true ∧ (releasable 8).settings.silent = true ∧ (releasable 8).engine.queue.length + 1 ≤ 64 ∧
      answerAt (after (.releaseCard fromA 2) (releasable 8)) .A = some (.done, [1]) ∧
      ((after (.releaseCard fromA 2) (releasable 8)).engine.cards[(2 : Fin 32)]).map (·.state) = some .releasing ∧
      answerAt (after (.releaseCard fromA 2) (releasable 7)) .A = some (.done, [0]) ∧
      ((after (.releaseCard fromA 2) (releasable 7)).engine.cards[(2 : Fin 32)]).map (·.state) = some .released ∧
      (after (.releaseCard fromA 2) (releasable 7)).engine.events = [Event.ofCard .cardReleased 2] ∧
      answerAt (after (.releaseCard fromA 2) (withFaults (releasable 8))) .A = some (.notSecured, [1, 0, 1, 0]) := by
  decide +kernel

/-- The faulted clip of a RELEASED card. -/
def retirable : State := withFaults (withCard { aCard with state := .released, attached := none } still)

theorem witness_retire :
    retirable.accepts fromA = true ∧ retirable.engine.clipsWellPlaced = true ∧ retirable.engine.clipAt clipHandle = some aClip ∧
      retirable.engine.clipInUse clipHandle = false ∧ [clipHandle].Nodup ∧ [clipHandle].erase clipHandle = [] ∧
      (retirable.engine.cards[(2 : Fin 32)]).map (fun r => (r.clips, r.attached)) = some ([clipHandle], none) ∧
      retirable.engine.noRecord = [] ∧ [clipHandle, ⟨4, 0⟩].erase clipHandle ≠ [] ∧ aCard.pendingDir = none :=
  ⟨by decide +kernel, one_clip_well_placed (withCard { aCard with state := .released, attached := none } still) aClip rfl,
    by decide +kernel, by decide +kernel, by decide +kernel, by decide +kernel, by decide +kernel, by decide +kernel, by decide +kernel,
    by decide +kernel⟩

theorem test_retire_clip : (after (.retireClip fromA 3 5) retirable).engine.clips[(3 : Fin 512)] = ⟨6, none⟩ := by decide +kernel

theorem test_retire_card :
    let t := (after (.retireCard fromA 2) retirable).engine
    t.cards[(2 : Fin 32)] = none ∧ t.clips[(3 : Fin 512)] = ⟨6, none⟩ ∧ t.faults = [] := by decide +kernel

/-! ## Witnesses: renders and the review monitor -/

/-- A proxy job of the clip, running with the worked look's snapshot. -/
def aJob : Job :=
  { slot := 0, clip := clipHandle, card := 2, range := .whole, outputs := .proxy, proxyPort := some 2, loop := false, station := .B,
    snapshot := some ⟨0, 1, workedLook⟩, nextFrame := none, proxy := none, underruns := 0, cancelMark := false, suspendMark := false,
    rangeDone := false, state := .running }

/-- A clip that can be rendered: its header read, bound to a written look, with a VERIFIED copy on volume 1 at port 3. -/
def renderable : State :=
  withClip { aClip with header := some aHeader, observed := 4, binding := ⟨some 0, some .explicit⟩,
                        copies := [{ CopyRecord.made 1 0 with state := .verified }] }
    (withSettings (fun g => { g with looks := g.looks.set 0 ⟨1, 1, some (ascii "DAY", workedLook)⟩ })
      (withCard { aCard with state := .offloaded } (withVolume 1 3 still)))

theorem witness_queue_render :
    renderable.accepts fromB = true ∧ rangeFormed (.frames 0 4294967295) 4 = some (.frames 0 3) ∧
      rangeLabelsValid (.frames 0 3) aHeader = true ∧ rangeFormed (.frames 4 5) 4 = none ∧
      ((renderable.engine.clipAt clipHandle).bind (Clip.boundLook renderable.settings)).isSome = true ∧
      renderable.engine.renderSource clipHandle = some (3, 1) ∧ (renderable.engine.destPorts[(3 : Fin 4)]).state = .online ∧
      renderable.engine.renderWaits = true ∧ renderable.engine.jobs = [] ∧
      answerAt (after (.queueRender fromB 3 5 (.frames 0 4294967295) 3) renderable) .B = some (.done, [0]) ∧
      ((after (.queueRender fromB 3 5 (.frames 0 4294967295) 3) renderable).engine.jobs.map (fun j => (j.slot, j.range, j.state))) =
        [(0, .frames 0 3, .queued)] ∧
      ((after (.queueRender fromB 3 5 .whole 3) renderable).engine.clipAt clipHandle).map (·.renderState) = some .queued := by
  decide +kernel

/-- R131, R134: with a context IDLE the job queued starts in the same step: it is RUNNING and its source object is asked for. -/
theorem witness_queue_render_starts :
    let t := after (.queueRender fromB 3 5 .whole 3) (idle renderable)
    (idle renderable).accepts fromB = true ∧ (idle renderable).settings.silent = true ∧ answerAt t .B = some (.done, [0]) ∧
      t.engine.jobs.map (·.state) = [.running] ∧ (t.engine.contextRun 0).map (·.1) = some 0 ∧
      ((t.engine.destPorts[(3 : Fin 4)]).inflight.map (·.who)) = some (.context 0) ∧ t.engine.renderWaits = true := by decide +kernel

/-- R132: the context that a cue claims: IDLE before DRAINING, and never one that is claimed. -/
theorem witness_cue_claims :
    (withContexts ⟨.idle, none⟩ ⟨.idle, none⟩ base).engine.claimedByCue 0 = true ∧
      (withContexts ⟨.idle, none⟩ ⟨.idle, none⟩ base).engine.claimedByCue 1 = false ∧
      (withContexts ⟨.draining, none⟩ ⟨.idle, none⟩ base).engine.claimedByCue 1 = true ∧
      (withContexts ⟨.draining, none⟩ ⟨.idle, none⟩ base).engine.claimedByCue 0 = false ∧
      (withContexts ⟨.idle, some 3⟩ ⟨.draining, none⟩ base).engine.claimedByCue 1 = true ∧
      still.engine.claimedByCue 0 = true ∧ still.engine.claimedByCue 1 = false := by decide +kernel

/-- R132, R135, R157: a cue with both contexts IDLE starts on context 0, and RESUME_RENDERS starts what a paused queue held back. -/
theorem witness_cue_starts :
    let t := after (.cueMonitor fromB 3 5 .whole false 255) (idle renderable)
    let paused := withBlocks (fun e => { e with paused := true, jobs := [{ aJob with state := .queued }] }) (idle renderable)
    (idle renderable).accepts fromB = true ∧ (idle renderable).engine.freeJob = some 0 ∧ answerAt t .B = some (.done, [0]) ∧
      t.engine.jobs.map (·.state) = [.running] ∧ (t.engine.contextRun 0).map (·.1) = some 0 ∧ t.engine.monitor.cue.job = some 0 ∧
      t.engine.monitor.blanking = true ∧ t.engine.monitor.rate = 2 ∧ paused.engine.renderWaits = true ∧
      (after (.resumeRenders fromB) paused).engine.jobs.map (·.state) = [.running] := by decide +kernel

theorem witness_cue :
    let t := after (.cueMonitor fromB 3 5 .whole true 255) renderable
    let u := after (.stopMonitor fromC) t
    renderable.accepts fromB = true ∧ renderable.engine.freeJob = some 0 ∧ renderable.engine.monitor.cue.job = none ∧
      (renderable.engine.contexts[(0 : Fin 2)]).claim = none ∧ answerAt t .B = some (.done, [0]) ∧
      t.engine.contexts[(0 : Fin 2)] = ⟨.draining, some 0⟩ ∧ t.engine.monitor.cue.job = some 0 ∧ t.engine.monitor.rate = 2 ∧
      t.engine.monitor.blanking = true ∧ t.engine.jobs.map (·.loop) = [true] ∧ t.accepts fromC = true ∧ t.engine.renderWaits = true ∧ t.engine.contextOf 0 = none ∧
      u.engine.jobs = [] ∧ u.engine.monitor.cue = Cue.reset ∧ u.engine.monitor.blanking = true ∧
      (after (.resumeRenders fromB) (withBlocks (fun e => { e with paused := true }) renderable)).engine.paused = false := by
  decide +kernel

theorem witness_cancel :
    let t := after (.messageSent .B) (after (.queueRender fromB 3 5 .whole 3) renderable)
    t.accepts fromB = true ∧ t.accepts fromC = true ∧ (t.engine.job 0).map (·.station) = some .B ∧ t.engine.job 15 = none ∧
      t.settings.silent = true ∧ t.engine.renderWaits = true ∧ t.engine.contextOf 0 = none ∧
      (after (.cancelRender fromB 0) t).engine.jobs = [] ∧
      ((after (.cancelRender fromB 0) t).engine.events.map (fun ev => (ev.kind, ev.render.map (·.ending)))) =
        [(.renderFailed, some .cancelled)] ∧
      answerAt (after (.cancelRender fromC 0) t) .C = some (.notPermitted, []) ∧
      answerAt (after (.cancelRender fromC 15) t) .C = some (.notFound, []) := by decide +kernel

/-! ## Witnesses: card ports -/

/-- A state with a card port in a state. -/
def cardPort (p : Fin 4) (x : CardPortState) (s : State) : State :=
  withBlocks (fun e => e.updatePort p (fun y => { y with state := x })) s

theorem witness_card_leaves_unattached :
    still.calm = true ∧ ((after (.present 0) still).engine.cardPorts[(0 : Fin 4)]).state = .reading ∧
      ((after (.absent 0) (cardPort 0 .unreadable still)).engine.cardPorts[(0 : Fin 4)]).state = .empty ∧
      (cardPort 0 .unreadable still).calm = true ∧ (cardPort 0 .reading still).calm = true ∧
      ((after (.present 0) (cardPort 0 .reading still)).engine.cardPorts[(0 : Fin 4)]).state = .reading ∧
      (after (.absent 3) (withBlocks (fun e => { e with noRecord := [2, 3] }) (cardPort 3 .noRecord still))).engine.noRecord = [2] := by
  decide +kernel

theorem witness_card_leaves_attached :
    let s := offloading .offloading [aDescriptor .copy .card [1] .queued]
    s.calm = true ∧ (∀ l : Fin 2, s.engine.lanes[l] = .draining) ∧ s.engine.noRecord = [] ∧
      (s.engine.cards[(2 : Fin 32)]).bind (·.attached) = some 1 ∧
      (∀ c : Fin 32, (s.engine.cards[c]).bind (·.attached) = some 1 → c = 2) ∧
      (s.engine.cardPorts[(1 : Fin 4)]).state = .attached ∧
      (after (.absent 1) s).engine.events = [Event.ofCard .cardRemoved 2] ∧
      (after (.absent 1) s).engine.queue.map (·.state) = [.held] ∧
      ((after (.absent 1) s).engine.cards[(2 : Fin 32)]).map (fun r => (r.attached, r.heldByAbsence, r.state)) = some (none, true, .held) ∧
      (after (.absent 1) s).engine.cardPorts[(1 : Fin 4)] = ⟨.empty, none, none, false, false⟩ := by decide +kernel

/-- Card port 1 answers its directory read, with the directory written out. -/
def directoryRead (s : State) : State := after (.directoryAnswer 1 .outstanding (.directory aDirectory)) s

theorem witness_directory_new :
    let s := cardPort 1 .reading still
    directoryValid aDirectory = true ∧ directoryValid { aDirectory with takeCount := 0 } = false ∧
      s.engine.cardOfIdentity aDirectory = none ∧ s.engine.freeCard = some 0 ∧ s.engine.waitList = [] ∧
      ((directoryRead s).engine.clips[(0 : Fin 512)]).clip = some (Clip.made ⟨0, 0⟩ 0 ⟨4, ascii "A001C003", 2000000⟩) := by
  decide +kernel

theorem witness_directory_fits :
    aDirectory.takeCount ≤ (cardPort 1 .reading still).engine.freeClips.length := by
  have h : (0 : Fin 512) ∈ (cardPort 1 .reading still).engine.freeClips :=
    List.mem_filter.mpr ⟨List.mem_finRange _, by decide +kernel⟩
  exact List.length_pos_of_mem h

/-- The directory's card is on record: away, or attached at port 0. -/
def onRecord (attached : Option (Fin 4)) (held : Bool) : State :=
  withBlocks (fun e => { e with cards := e.cards.set 2 (some { aCard with attached := attached, heldByAbsence := held }) })
    (cardPort 1 .reading still)

theorem witness_directory_again :
    (onRecord none true).engine.cardOfIdentity aDirectory = some 2 ∧
      ((directoryRead (onRecord none true)).engine.cards[(2 : Fin 32)]).map (fun x => (x.attached, x.heldByAbsence)) =
        some (some 1, false) ∧
      ((directoryRead (onRecord (some 0) false)).engine.cardPorts[(1 : Fin 4)]).state = .noRecord ∧
      (directoryRead (onRecord (some 0) false)).engine.noRecord = [1] := by
  decide +kernel

/-- Every entry of the clip table is taken. -/
def clipsFull : State :=
  withBlocks (fun e => { e with clips := Vector.replicate 512 ⟨0, some aClip⟩ }) (cardPort 1 .reading still)

theorem witness_directory_full :
    clipsFull.engine.cardOfIdentity aDirectory = none ∧ clipsFull.engine.freeCard = some 0 ∧
      ¬ aDirectory.takeCount ≤ clipsFull.engine.freeClips.length := by
  have h : clipsFull.engine.freeClips = [] :=
    List.filter_eq_nil_iff.mpr (fun i _ => by simp [clipsFull, withBlocks, cardPort])
  refine ⟨by decide +kernel, by decide +kernel, ?_⟩
  rw [h]
  decide

theorem witness_directory_timeout :
    let s := cardPort 1 .reading still
    s.calm = true ∧ ((after (.directoryTimeout 1) s).engine.cardPorts[(1 : Fin 4)]).state = .unreadable ∧
      ((after (.directoryTimeout 0) s).engine.cardPorts[(0 : Fin 4)]).state = .empty ∧
      (s.engine.cardPorts[(0 : Fin 4)]).state ≠ .reading := by
  decide +kernel

/-- Lane 0 at work on the descriptor in slot 0. -/
def aRun : LaneRun := LaneRun.start 0

/-- A state whose lane 0 runs the one descriptor queued. -/
def atWork (run : LaneRun) (d : Descriptor) (s : State) : State :=
  withBlocks (fun e => { e with queue := [d], lanes := e.lanes.set 0 (.running run) }) s

/-- A card read of 4 bytes at card port 1 for lane 0. -/
def aRead (attempt : Nat) (s : State) : State :=
  withBlocks (fun e => e.updatePort 1 (fun x => { x with read := some ⟨0, 4, 0, 4, attempt, 3⟩ })) s

/-- R34: a port with a read outstanding is ATTACHED; one of the no-record list has none. -/
theorem witness_cards_legal :
    (aRead 2 (offloading .offloading [])).engine.cardsLegal = true ∧
      (withBlocks (fun e => { e with noRecord := [0] }) (cardPort 0 .noRecord still)).engine.cardsLegal = true ∧
      (withBlocks (fun e => { e with noRecord := [1] }) (cardPort 1 .noRecord (aRead 2 still))).engine.cardsLegal = false ∧
      (stepped { aRead 2 (offloading .offloading []) with pending := [.stallTimerExpiry 1] }).engine.cardsLegal = true := by
  decide +kernel

theorem witness_read_answer :
    let run := { aRun with phase := .reading, targets := [⟨1, 3, .isOpen 77⟩] }
    let s := aRead 1 (atWork run (aDescriptor .copy .card [1] .running) (offloading .offloading []))
    let t := after (.readAnswer 1 .outstanding (.data [1, 2, 3, 4])) s
    s.calm = true ∧ (s.engine.cardPorts[(1 : Fin 4)]).read = some ⟨0, 4, 0, 4, 1, 3⟩ ∧ s.engine.laneRun 0 = some run ∧
      (s.engine.descriptor 0).map (·.clip) = some (some clipHandle) ∧ s.engine.clipAt clipHandle ≠ none ∧
      (s.engine.destPorts[(3 : Fin 4)]) = ⟨.online, none, [], .context 1⟩ ∧
      (s.settings.stall[(1 : Fin 4)]).retries.val = 2 ∧
      (t.engine.destPorts[(3 : Fin 4)]).inflight = some ⟨.lane 0, .append 77 [1, 2, 3, 4], false⟩ ∧
      (t.engine.laneRun 0).map (fun x => (x.phase, x.crcHigh, x.block)) =
        some (.appending, crcBytes polyHigh crcOnes [1, 2, 3, 4], [1, 2, 3, 4]) ∧
      (t.engine.cardPorts[(1 : Fin 4)]).read = none ∧
      ((after (.readAnswer 1 .outstanding (.data [1])) s).engine.cardPorts[(1 : Fin 4)]).read = some ⟨0, 4, 0, 4, 2, 3⟩ ∧
      ((after (.readAnswer 1 .outstanding .error) s).engine.cardPorts[(1 : Fin 4)]).read = some ⟨0, 4, 0, 4, 2, 3⟩ ∧
      ((after (.stallTimerExpiry 1) s).engine.cardPorts[(1 : Fin 4)]).read = some ⟨0, 4, 0, 4, 2, 3⟩ := by decide +kernel

theorem witness_stall :
    let run := { aRun with phase := .reading, targets := [⟨1, 3, .isOpen 77⟩] }
    let s := aRead 2 (atWork run (aDescriptor .copy .card [1] .running) (offloading .offloading []))
    let t := after (.stallTimerExpiry 1) s
    s.calm = true ∧ s.engine.cardAt 1 = some 2 ∧ (s.engine.cards[(2 : Fin 32)]).isSome = true ∧ s.engine.requeues = [] ∧
      (s.settings.stall[(1 : Fin 4)]).retries.val ≤ 2 ∧ s.engine.laneRun 0 = some run ∧ run.slot = 0 ∧
      TargetStatus.live (.isOpen 77) = true ∧ t.engine.queue = [] ∧ (t.engine.cardPorts[(1 : Fin 4)]).state = .stalled ∧
      Event.ofCard .cardStalled 2 ∈ t.engine.events ∧ (t.engine.cards[(2 : Fin 32)]).map (·.heldByStall) = some true ∧
      (((t.engine.clipAt clipHandle).bind (·.copyOn 1)).map (·.state)) = some .partialCopy := by decide +kernel

/-! ## Witnesses: destination ports and volumes -/

/-- A state with a destination port in a state. -/
def destPort (p : Fin 4) (x : DestState) (s : State) : State := withBlocks (fun e => e.updateDest p (fun d => { d with state := x })) s

theorem witness_drive :
    let t := after (.removed 3) (withVolume 1 3 still)
    let u := after (.removed 3) (offloading .ready [])
    still.calm = true ∧ ((after (.inserted 0) still).engine.destPorts[(0 : Fin 4)]).state = .identifying ∧
      ((after (.removed 0) (destPort 0 .offline still)).engine.destPorts[(0 : Fin 4)]).state = .empty ∧
      (withVolume 1 3 still).calm = true ∧ (withVolume 1 3 still).engine.entryAt 3 = some 1 ∧
      (withVolume 1 3 still).engine.untracked = [] ∧ t.engine.volumes[(1 : Fin 16)] = none ∧
      t.engine.events = [Event.ofVolume .volumeRemoved 1] ∧
      (u.engine.volumes[(1 : Fin 16)]).map (·.inserted) = some none ∧
      (after (.removed 0) (withBlocks (fun e => { e with untracked := [1, 0] }) (destPort 0 (.untracked 5 []) still))).engine.untracked =
        [1] := by decide +kernel

theorem witness_identify :
    let s := destPort 0 .identifying (withVolume 1 3 still)
    let away := withBlocks (fun e => e.updateVolume 1 (fun x => { x with inserted := none })) s
    let full := withBlocks (fun e => { e with volumes := Vector.ofFn (fun v : Fin 16 => some ⟨200 + BitVec.ofNat 64 v.val, [], none, false⟩) }) s
    let ask (s : State) (serial : Word64) := after (.identifyAnswer 0 .outstanding (.volume serial (ascii "VOL"))) s
    s.calm = true ∧ labelValidText (ascii "VOL") = true ∧ labelValidText [0x7F] = false ∧ s.engine.entryOfSerial 300 = none ∧
      s.engine.freeEntry = some 0 ∧ (ask s 300).engine.volumes[(0 : Fin 16)] = some ⟨300, ascii "VOL", some 0, false⟩ ∧
      away.engine.entryOfSerial 101 = some 1 ∧ away.engine.portOf 1 = none ∧
      (ask away 101).engine.events = [Event.ofVolume .volumeInserted 1] ∧
      s.engine.entryOfSerial 101 = some 1 ∧ ((ask s 101).engine.destPorts[(0 : Fin 4)]).state = .untracked 101 (ascii "VOL") ∧
      full.engine.freeEntry = none ∧ full.calm = true ∧ (ask full 300).engine.untracked = [0] ∧
      ((after (.identifyAnswer 0 .outstanding .error) s).engine.destPorts[(0 : Fin 4)]).state = .offline ∧
      ((after (.enclosureTimeout 0) s).engine.destPorts[(0 : Fin 4)]).state = .offline ∧
      (s.engine.destPorts[(2 : Fin 4)]).state ≠ .identifying := by decide +kernel

theorem witness_timeout :
    let s := withFlight 3 ⟨.lane 0, .openRead [], true⟩ (withVolume 1 3 still)
    s.resetHeld = false ∧ (s.engine.destPorts[(3 : Fin 4)]).state ≠ .identifying ∧ (s.engine.destPorts[(3 : Fin 4)]).inflight ≠ none ∧
      ((after (.enclosureTimeout 3) s).engine.destPorts[(3 : Fin 4)]).inflight = none ∧
      (still.engine.destPorts[(3 : Fin 4)]).inflight = none ∧ still.settings.silent = true ∧
      (after (.enclosureTimeout 3) still).engine.events = [] := by decide +kernel

/-- R72, R73, R82: who is granted a port, and the last operation of a DRAINING lane. -/
theorem witness_arbiter :
    let op (w : Requester) : Operation := ⟨w, .openRead [], false⟩
    let d : DestPort := ⟨.online, some (op (.lane 0)), [op (.context 1), op (.lane 1)], .lane 0⟩
    let s := withFlight 3 ⟨.lane 0, .append 77 [1], true⟩ (withVolume 1 3 still)
    d.inflight ≠ none ∧ op (.lane 1) ∈ d.waiting ∧ d.endOperation.inflight = some (op (.lane 1)) ∧
      ({ d with last := .lane 1 } : DestPort).endOperation.inflight = some (op (.context 1)) ∧
      s.calm = true ∧ s.engine.queue = [] ∧ s.engine.lanes[(0 : Fin 2)] = .draining ∧
      (∀ q : Fin 4, q ≠ 3 → (s.engine.destPorts[q]).inflight.map (·.who) ≠ some (.lane 0)) ∧
      (s.engine.destPorts[(3 : Fin 4)]).waiting = [] ∧
      ((after (.appendAnswer 3 .outstanding .ok) s).engine.lanes[(0 : Fin 2)]) = .idle := by decide +kernel

/-! ## Witnesses: the Transfer Engine -/

/-- A copy with one target, lane 0 in a phase, and an operation of it in flight at port 3. -/
def copying (run : LaneRun) (request : OpRequest) : State :=
  withFlight 3 ⟨.lane 0, request, false⟩ (atWork run (aDescriptor .copy .card [1] .running)
    (withClip { aClip with copies := [CopyRecord.made 1 0] }
      (withCard { aCard with state := .offloading, snapshot := some ⟨8, 1, .noVerify⟩ } (withVolume 1 3 still))))

theorem witness_copy_append :
    let run := { aRun with phase := .appending, targets := [⟨1, 3, .appending 77⟩], block := [1, 2, 3, 4] }
    let s := copying run (.append 77 [1, 2, 3, 4])
    let t := after (.appendAnswer 3 .outstanding .ok) s
    let u := after (.appendAnswer 3 .outstanding .noSpace) s
    s.calm = true ∧ s.engine.requeues = [] ∧ s.engine.laneRun 0 = some run ∧ run.source = none ∧ run.abortMark = false ∧
      s.engine.entryAt 3 = some 1 ∧ (s.engine.cardPorts[(1 : Fin 4)]).held = some aDirectory ∧
      takeAt aDirectory 4 = some ⟨4, ascii "A001C003", 2000000⟩ ∧
      (∀ q : Fin 4, q ≠ 3 → (s.engine.destPorts[q]).inflight = none ∧ (s.engine.destPorts[q]).waiting = []) ∧
      (t.engine.cardPorts[(1 : Fin 4)]).read = some ⟨0, 4, 4, 1048576, 0, 3⟩ ∧ t.engine.queue.map (·.progress) = [4] ∧
      (u.engine.volumes[(1 : Fin 16)]).map (·.full) = some true ∧ u.engine.queue = [] ∧
      (((u.engine.clipAt clipHandle).bind (·.copyOn 1)).map (·.state)) = some .failed := by decide +kernel

theorem witness_copy_close :
    let run := { aRun with phase := .closing, targets := [⟨1, 3, .closing⟩], consistent := true, readDigest := some 5 }
    let s := copying run (.close 77)
    let t := after (.closeAnswer 3 .outstanding .ok) s
    s.calm = true ∧ (s.engine.cards[(2 : Fin 32)]).map (·.verifyMode) = some .noVerify ∧ t.engine.queue = [] ∧
      ((t.engine.clipAt clipHandle).bind (·.copyOn 1)) = some ⟨1, .written, true, none, 0⟩ ∧
      t.engine.events = [Event.ofClip .clipCopied 2 clipHandle, Event.ofCard .cardSecured 2] ∨
        t.engine.events.contains (Event.ofClip .clipCopied 2 clipHandle) = true := by decide +kernel

/-- R86: the last block of a COPY is complete. -/
theorem witness_copy_last_block :
    let run := { aRun with phase := .appending, targets := [⟨1, 3, .appending 77⟩], block := [1, 2, 3, 4] }
    let s := withBlocks (fun e => { e with queue := [{ aDescriptor .copy .card [1] .running with progress := 1999996 }] })
      (copying run (.append 77 [1, 2, 3, 4]))
    let t := after (.appendAnswer 3 .outstanding .ok) s
    s.calm = true ∧ aClip.byteLength ≤ 1999996 + 4 ∧ (t.engine.destPorts[(3 : Fin 4)]).inflight = some ⟨.lane 0, .close 77, false⟩ ∧
      (t.engine.laneRun 0).map (fun x => (x.phase, x.consistent, x.readDigest)) =
        some (.closing, true, some (digestOf crcOnes crcOnes)) := by decide +kernel

/-- The card of `copying` with a verify mode and a hold. -/
def modeCard (m : VerifyMode) (held : Bool) (s : State) : State :=
  withBlocks (fun e => { e with cards := e.cards.set 2 (some
    { aCard with state := .offloading, snapshot := some ⟨8, 1, m⟩, heldByRequest := held }) }) s

/-- R87, R88: a copy's CLOSE under READBACK, with and without HELD_BY_REQUEST, and of an inconsistent read. -/
theorem witness_copy_closes :
    let run := { aRun with phase := .closing, targets := [⟨1, 3, .closing⟩], consistent := true, readDigest := some 5 }
    let s (held : Bool) := modeCard .readback held (copying run (.close 77))
    let w := copying { run with consistent := false } (.close 77)
    let t (held : Bool) := (after (.closeAnswer 3 .outstanding .ok) (s held)).engine
    (s true).calm = true ∧ (s false).calm = true ∧ w.calm = true ∧ (s true).engine.laneRun 0 = some run ∧
      ((s true).engine.cards[(2 : Fin 32)]).map (fun r => (r.verifyMode, r.heldByRequest)) = some (.readback, true) ∧
      (t true).queue.map (fun d => (d.kind, d.state)) = [(.verify, .held)] ∧
      (t false).queue.map (fun d => (d.kind, d.state)) = [(.verify, .running)] ∧
      (((after (.closeAnswer 3 .outstanding .ok) w).engine.clipAt clipHandle).bind (·.copyOn 1)).map (·.state) = some .mismatch := by
  decide +kernel

/-- A COPY from volume 4 at port 2 to volume 1 at port 3, with an operation of it in flight at a port. -/
def recopying (p : Fin 4) (run : LaneRun) (request : OpRequest) : State :=
  withFlight p ⟨.lane 0, request, false⟩ (atWork run (aDescriptor .copy (.volume 4) [1] .running)
    (withClip { aClip with copies := [CopyRecord.made 1 0] } (withCard { aCard with state := .offloading, snapshot := some ⟨8, 1, .noVerify⟩ }
      (withVolume 4 2 (withVolume 1 3 still)))))

/-- R85 to R88: a COPY from a volume reads, appends and closes, consistent or not. -/
theorem witness_copy_from_volume :
    let run (phase : LanePhase) (x : SourceStatus) (t : TargetStatus) : LaneRun :=
      { aRun with phase := phase, source := some ⟨4, 2, x⟩, targets := [⟨1, 3, t⟩], block := [1, 2], readDigest := some 5, consistent := true }
    let reading := recopying 2 (run .reading (.isOpen 88) (.isOpen 77)) (.read 88 0 2)
    let appending := recopying 3 (run .appending (.isOpen 88) (.appending 77)) (.append 77 [1, 2])
    let closing := recopying 3 (run .closing .closed .closing) (.close 77)
    reading.calm = true ∧ appending.calm = true ∧ closing.calm = true ∧ closing.engine.entryAt 3 = some 1 ∧
      (reading.engine.destPorts[(3 : Fin 4)]).inflight = none ∧ (appending.engine.destPorts[(2 : Fin 4)]).inflight = none ∧
      ((after (.volumeReadAnswer 2 .outstanding (.data [1, 2])) reading).engine.destPorts[(3 : Fin 4)]).inflight =
        some ⟨.lane 0, .append 77 [1, 2], false⟩ ∧
      ((after (.appendAnswer 3 .outstanding .ok) appending).engine.destPorts[(2 : Fin 4)]).inflight =
        some ⟨.lane 0, .read 88 2 1048576, false⟩ ∧
      ((after (.closeAnswer 3 .outstanding .ok) closing).engine.clipAt clipHandle).bind (·.copyOn 1) =
        some ⟨1, .written, true, some 5, 0⟩ := by decide +kernel

/-- R88: the CLOSE of an inconsistent COPY from volume 4 to volume 1, and the two faults it raises. -/
theorem witness_inconsistent_copy_from_volume :
    let s := recopying 3 { aRun with
      phase := .closing, source := some ⟨4, 2, .closed⟩, targets := [⟨1, 3, .closing⟩], readDigest := some 5, consistent := false } (.close 77)
    let t := after (.closeAnswer 3 .outstanding .ok) s
    s.calm = true ∧ s.engine.requeues = [] ∧ s.engine.queue = [aDescriptor .copy (.volume 4) [1] .running] ∧ s.engine.entryAt 3 = some 1 ∧
      (s.engine.cards[(2 : Fin 32)]).isSome = true ∧ s.engine.clipAt clipHandle ≠ none ∧
      (s.engine.destPorts[(3 : Fin 4)]).state = .online ∧ (s.engine.destPorts[(3 : Fin 4)]).waiting = [] ∧
      (∀ q : Fin 4, q ≠ 3 → (s.engine.destPorts[q]).inflight = none ∧ (s.engine.destPorts[q]).waiting = []) ∧
      t.engine.faults.map (fun f => (f.kind, f.volume, f.measured)) =
        [(.digestMismatch, some 1, some 2), (.digestMismatch, some 4, some 2)] ∧
      (t.engine.clipAt clipHandle).bind (·.copyOn 1) = some ⟨1, .mismatch, false, some 5, 0⟩ := by decide +kernel

/-- R86: one of two targets completes its APPEND, or fails, while the other's is awaited. -/
theorem witness_two_targets :
    let targets : List Target := [⟨1, 3, .appending 77⟩, ⟨4, 2, .appending 78⟩]
    let run := { aRun with phase := .appending, targets := targets, block := [1] }
    let s := withVolume 4 2 (withFlight 3 ⟨.lane 0, .append 77 [1], false⟩ (atWork run (aDescriptor .copy .card [1, 4] .running)
      (withClip { aClip with copies := [CopyRecord.made 1 0, CopyRecord.made 4 0] }
        (withCard { aCard with state := .offloading } (withVolume 1 3 still)))))
    s.calm = true ∧ s.engine.laneRun 0 = some run ∧ (targets.map (·.port)).Nodup ∧ (targets.map (·.entry)).Nodup ∧
      s.engine.entryAt 3 = some 1 ∧ (s.engine.destPorts[(3 : Fin 4)]).waiting = [] ∧
      ((after (.appendAnswer 3 .outstanding .ok) s).engine.laneRun 0).map (fun x => x.targets.map (·.status)) =
        some [.isOpen 77, .appending 78] ∧
      ((after (.appendAnswer 3 .outstanding .noSpace) s).engine.laneRun 0).map (fun x => x.targets.map (·.status)) =
        some [.dropped, .appending 78] := by decide +kernel

/-- R83, R85: lane 0 is IDLE, and a COPY of the card waits behind a HELD one of another. -/
theorem witness_lane_grant :
    let d := { aDescriptor .copy .card [1] .queued with slot := 1 }
    let other := { aDescriptor .copy .card [1] .held with card := 3 }
    let s := withBlocks (fun e => { e with lanes := #v[.idle, .draining] }) (offloading .offloading [other, d])
    s.engine.idleLane = some 0 ∧ s.engine.lanes[(1 : Fin 2)] ≠ .idle ∧ s.engine.renderIdle = true ∧ s.engine.eligible = some d ∧
      0 < aClip.byteLength ∧ s.engine.portOf 1 = some 3 ∧ (s.engine.queue.map (·.slot)).Nodup ∧
      ((s.engine.settleTransfer s.settings).destPorts[(3 : Fin 4)]).inflight.isSome = true ∧
      (s.engine.settleTransfer s.settings).queue.map (·.state) = [.held, .running] := by decide +kernel

/-- A manifest under way, lane 0 in a phase, and an operation of it in flight at port 3. -/
def releasing (run : LaneRun) (request : OpRequest) : State :=
  withFlight 3 ⟨.lane 0, request, false⟩
    (atWork run { aDescriptor .manifest .card [1] .running with clip := none, source := none, serial := some 101 }
      (withClip aClip (withCard { aCard with state := .releasing, snapshot := some ⟨8, 1, .readback⟩ } (withVolume 1 3 still))))

theorem witness_manifest :
    let opening := releasing { aRun with phase := .opening, targets := [⟨1, 3, .opening⟩], block := [65, 66] } (.openWrite (ascii "M"))
    let appending := releasing { aRun with phase := .appending, targets := [⟨1, 3, .isOpen 77⟩], block := [65, 66] } (.append 77 [65, 66])
    let closing := releasing { aRun with phase := .closing, targets := [⟨1, 3, .isOpen 77⟩], block := [65, 66] } (.close 77)
    let failed : Event := { Event.ofCard .copyFailed 2 with volume := some 1 }
    opening.calm = true ∧ appending.calm = true ∧ closing.calm = true ∧ opening.engine.requeues = [] ∧
      opening.engine.entryAt 3 = some 1 ∧ opening.engine.volumes[(1 : Fin 16)] ≠ none ∧
      ((after (.openWriteAnswer 3 .outstanding (.handle 77)) opening).engine.destPorts[(3 : Fin 4)]).inflight =
        some ⟨.lane 0, .append 77 [65, 66], false⟩ ∧
      (after (.openWriteAnswer 3 .outstanding .noSpace) opening).engine.events = [failed, Event.ofCard .cardReleased 2] ∧
      ((after (.openWriteAnswer 3 .outstanding .noSpace) opening).engine.volumes[(1 : Fin 16)]).map (·.full) = some true ∧
      ((after (.appendAnswer 3 .outstanding .ok) appending).engine.destPorts[(3 : Fin 4)]).inflight = some ⟨.lane 0, .close 77, false⟩ ∧
      (after (.appendAnswer 3 .outstanding .error) appending).engine.events = [failed, Event.ofCard .cardReleased 2] ∧
      (after (.closeAnswer 3 .outstanding .ok) closing).engine.events = [Event.ofCard .cardReleased 2] ∧
      ((after (.closeAnswer 3 .outstanding .ok) closing).engine.cards[(2 : Fin 32)]).map (·.state) = some .released := by decide +kernel

/-- A verify under way. -/
def verifying (digest : Option Word64) (run : LaneRun) (request : OpRequest) : State :=
  withFlight 3 ⟨.lane 0, request, false⟩ (atWork run (aDescriptor .verify (.volume 1) [1] .running)
    (withClip { aClip with byteLength := 8, sourceDigest := digest, offloadMark := true, copyState := .copying,
                           copies := [{ CopyRecord.made 1 0 with state := .verifying }] }
      (withCard { aCard with state := .offloading, snapshot := some ⟨8, 1, .readback⟩ } (withVolume 1 3 still))))

theorem witness_verify :
    let run (phase : LanePhase) (x : SourceStatus) : LaneRun := { aRun with phase := phase, source := some ⟨1, 3, x⟩ }
    let opening := verifying none (run .opening .opening) (.openRead (ascii "T"))
    let reading := verifying none (run .reading (.isOpen 77)) (.read 77 0 4)
    let final := verifying none (run .reading (.isOpen 77)) (.read 77 0 8)
    let closing := verifying (some (digestOf crcOnes crcOnes)) (run .closing .closing) (.close 77)
    let differing := verifying (some 1) (run .closing .closing) (.close 77)
    let stateOf (t : State) := ((t.engine.clipAt clipHandle).bind (·.copyOn 1)).map (·.state)
    opening.calm = true ∧ reading.calm = true ∧ closing.calm = true ∧ closing.engine.requeues = [] ∧
      ((after (.openReadAnswer 3 .outstanding (.handle 77 8)) opening).engine.destPorts[(3 : Fin 4)]).inflight =
        some ⟨.lane 0, .read 77 0 8, false⟩ ∧
      stateOf (after (.openReadAnswer 3 .outstanding (.handle 77 9)) opening) = some .written ∧
      stateOf (after (.openReadAnswer 3 .outstanding .notFound) opening) = some .written ∧
      ((after (.volumeReadAnswer 3 .outstanding (.data [1, 2, 3, 4])) reading).engine.destPorts[(3 : Fin 4)]).inflight =
        some ⟨.lane 0, .read 77 4 4, false⟩ ∧
      ((after (.volumeReadAnswer 3 .outstanding (.data [1, 2, 3, 4, 5, 6, 7, 8])) final).engine.destPorts[(3 : Fin 4)]).inflight =
        some ⟨.lane 0, .close 77, false⟩ ∧
      stateOf (after (.volumeReadAnswer 3 .outstanding .error) reading) = some .written ∧
      stateOf (after (.closeAnswer 3 .outstanding .error) closing) = some .verified ∧
      ((after (.closeAnswer 3 .outstanding .error) closing).engine.cards[(2 : Fin 32)]).map (·.state) = some .offloaded ∧
      stateOf (after (.closeAnswer 3 .outstanding .ok) differing) = some .mismatch := by decide +kernel

/-! ## Witnesses: the Render Engine -/

/-- A context's run as it waits for its source object. -/
def aContextRun : ContextRun :=
  { phase := .openingSource, entry := 1, port := 3, handle := none, length := 0, readPos := 0, buffer := [], walk := RenderWalk.start,
    frame := none, insideFrame := false, pixelBytes := [], frameStore := [], toAppend := [], delivered := 0 }

/-- The job at work on context 0, its source object asked for at port 3. -/
def rendering : State :=
  withFlight 3 ⟨.context 0, .openRead (ascii "T"), false⟩ (withBlocks (fun e => { e with
    jobs := [aJob], contexts := #v[⟨.running 0 aContextRun, none⟩, ⟨.draining, none⟩] }) (withVolume 4 2 renderable))

theorem witness_render_source :
    let t := after (.openReadAnswer 3 .outstanding (.handle 77 2000000)) rendering
    let u := after (.openReadAnswer 3 .outstanding (.handle 77 1)) rendering
    rendering.resetHeld = false ∧ rendering.settings.silent = true ∧ rendering.engine.lanesTaken = true ∧
      rendering.engine.pipeline = none ∧ (rendering.engine.destPorts[(2 : Fin 4)]).inflight = none ∧
      (t.engine.destPorts[(2 : Fin 4)]).inflight =
        some ⟨.context 0, .openWrite (proxyName 0x1122 7 (ascii "A001C003") 0 1), false⟩ ∧
      (t.engine.contextRun 0).map (fun x => (x.2.phase, x.2.handle)) = some (.openingProxy, some 77) ∧ u.engine.jobs = [] ∧
      (u.engine.events.map (fun ev => (ev.kind, ev.render.map (·.ending)))) = [(.renderFailed, some (.failed .sourceLost))] ∧
      ((u.engine.clipAt clipHandle).map (·.renderState)) = some .failed := by decide +kernel

/-- The job of `rendering` with its context's run in a phase, its source open at port 3 and an operation of it in flight at port 2. -/
def atProxy (run : ContextRun) (job : Job) (request : OpRequest) : State :=
  withBlocks (fun e => (e.updateDest 2 (fun d => { d with inflight := some ⟨.context 0, request, false⟩ })).updateDest 3
      (fun d => { d with inflight := none }))
    (withBlocks (fun e => { e with jobs := [job], contexts := #v[⟨.running 0 run, none⟩, ⟨.draining, none⟩] }) rendering)

/-- R128, R133, R139, R140: a proxy object opens, or fails to; the source object is closed, and then the proxy. -/
theorem witness_proxy_object :
    let opening := atProxy { aContextRun with phase := .openingProxy, handle := some 77, length := 2000000 } aJob (.openWrite (ascii "P"))
    let open' : Job := { aJob with proxy := some ⟨4, 88, 10⟩ }
    let closing := atProxy { aContextRun with phase := .closing } open' (.close 88)
    let source := withFlight 3 ⟨.context 0, .close 77, false⟩ (withBlocks (fun e => { e with
      jobs := [open'], contexts := #v[⟨.running 0 { aContextRun with phase := .closingSource, handle := some 77 }, none⟩, ⟨.draining, none⟩] })
      rendering)
    let t := after (.openWriteAnswer 2 .outstanding (.handle 88)) opening
    let u := after (.closeAnswer 2 .outstanding .ok) closing
    let f := after (.closeAnswer 2 .outstanding .error) closing
    let record (s : State) := (s.engine.clipAt clipHandle).map (fun c => (c.rendered, c.renderState))
    opening.resetHeld = false ∧ opening.settings.silent = true ∧ opening.engine.lanesTaken = true ∧ opening.engine.pipeline = none ∧
      closing.engine.lanesTaken = true ∧ opening.engine.entryAt 2 = some 4 ∧ (opening.engine.destPorts[(3 : Fin 4)]).state = .online ∧
      (∀ z : Fin 4, z ≠ 2 → (opening.engine.destPorts[z]).inflight = none ∧ (opening.engine.destPorts[z]).waiting = []) ∧
      (t.engine.destPorts[(3 : Fin 4)]).inflight = some ⟨.context 0, .read 77 0 1048576, false⟩ ∧
      (after (.openWriteAnswer 2 .outstanding .error) opening).engine.jobs = [] ∧
      record u = some (some (0, 1), .current) ∧ (u.engine.contexts[(0 : Fin 2)]).state = .idle ∧
      record f = some (none, .failed) ∧ source.engine.lanesTaken = true ∧ (source.engine.destPorts[(2 : Fin 4)]).state = .online ∧
      (source.engine.destPorts[(2 : Fin 4)]).inflight = none ∧
      ((after (.closeAnswer 3 .outstanding .error) source).engine.destPorts[(2 : Fin 4)]).inflight =
        some ⟨.context 0, .close 88, false⟩ := by decide +kernel

/-- R135, R144: a running job is suspended at once outside a frame, and else at the frame's boundary. -/
theorem witness_suspension :
    let run (inside : Bool) : ContextRun := { aContextRun with phase := .walking, handle := some 77, insideFrame := inside }
    let e (inside : Bool) : Engine :=
      { (withBlocks (fun e => { e with jobs := [aJob], contexts := #v[⟨.running 0 (run inside), none⟩, ⟨.draining, none⟩] })
          renderable).engine with lastJobGrant := 0 }
    (e true).contextRun 0 = some (0, run true) ∧ (e true).job 0 = some aJob ∧ ((e true).jobs.map (·.slot)).Nodup ∧
      (0 : Fin 2) = (e true).lastJobGrant ∧ ((e true).claimBySuspension 5).jobs.map (fun j => (j.state, j.suspendMark)) =
        [(.running, true)] ∧
      ((e false).claimBySuspension 5).jobs.map (fun j => (j.state, j.suspendMark)) = [(.suspended, false)] ∧
      ((e false).suspendContext 0).contexts[(0 : Fin 2)] = ⟨.idle, none⟩ := by decide +kernel

/-! ## Witnesses: the sampler and the frame clock -/

/-- Section 9.11: the pending frame of lane 1, its four sampled pixels 64 apart. -/
def aFrame (parse : Nat) : PendingFrame :=
  { clip := clipHandle, card := 2, number := 100, tc := ⟨10, 0, 0, 0, false⟩, width := 16, height := 16,
    pixels := ⟨4092, 4092, 4092⟩ :: List.replicate 63 ⟨0, 0, 0⟩ ++ ⟨800, 600, 400⟩ :: List.replicate 63 ⟨0, 0, 0⟩ ++
      ⟨200, 240, 180⟩ :: List.replicate 63 ⟨0, 0, 0⟩ ++ ⟨4000, 3900, 3800⟩ :: List.replicate 63 ⟨0, 0, 0⟩,
    stride := 64, threshold := 4000, parse := parse }

theorem witness_sampler :
    let s (parse : Nat) := withBlocks (fun e => { e with sampler := e.sampler.set 1 (some (aFrame parse)) }) (withClip aClip still)
    let t := after (.samplerCompletion 1) (s 1)
    (s 0).resetHeld = false ∧ (s 0).settings.silent = true ∧ (s 0).engine.clipAt clipHandle = some aClip ∧
      (aFrame 0).clipFraction = 32768 ∧ (aFrame 0).averageLuma = 2215 ∧ ((s 1).engine.scans[(1 : Fin 2)]).parse ≠ 1 ∧
      (s 0).engine.sampler[(0 : Fin 2)] = none ∧ t.engine.sampler[(1 : Fin 2)] = none ∧
      t.engine.faults.map (fun f => (f.kind, f.measured, f.first)) = [(.sensorClip, some 32768, some 100)] ∧
      ((after (.samplerCompletion 1) (s 0)).engine.scans[(1 : Fin 2)]).blackCount = 0 ∧
      (after (.samplerCompletion 1) (withBlocks (fun e => { e with sampler := e.sampler.set 1 (some (aFrame 0)) }) still)).engine.faults = [] := by
  decide +kernel

/-- R171: a frame of the present parse, of an average luma of 1, is the 24th of a black run that began with frame 77. -/
theorem witness_black :
    let dark := { aFrame 0 with pixels := List.replicate 256 ⟨1, 1, 1⟩ }
    let s := withBlocks (fun e => { e with
      sampler := e.sampler.set 1 (some dark)
      scans := e.scans.set 1 { e.scans[(1 : Fin 2)] with blackCount := 23, blackStart := some (77, ⟨10, 0, 0, 0, false⟩) } })
      (withClip aClip still)
    let t := after (.samplerCompletion 1) s
    0 < dark.stride ∧ dark.pixels.length = dark.width * dark.height ∧ dark.averageLuma = 1 ∧ dark.clipFraction = 0 ∧
      (s.engine.scans[(1 : Fin 2)]).parse = dark.parse ∧ s.settings.profile.blackRun = 24 ∧
      t.engine.faults.map (fun f => (f.kind, f.measured, f.first, f.last)) = [(.black, some 1, some 77, some 100)] ∧
      (t.engine.scans[(1 : Fin 2)]).blackRaised = true := by decide +kernel

/-- R164 to R169, R179: a frame that is neither in its place, nor at its label, nor different from the one before, of a clip on record. -/
theorem witness_frame_report :
    let tc : Timecode := ⟨10, 0, 0, 5, false⟩
    let x : FrameReport := ⟨clipHandle, 2, 1, 9, tc, 5, 2, false, some ⟨7, ⟨10, 0, 0, 3, false⟩, 5⟩⟩
    let e := (withBlocks (fun e => { e with
      scans := e.scans.set 1 { e.scans[(1 : Fin 2)] with frozenCount := 2, frozenStart := some (7, tc) } }) (withClip aClip still)).engine
    let t := e.judgeReport still.settings x
    e.clipAt clipHandle = some aClip ∧ e.faults = [] ∧ e.sampler[(1 : Fin 2)] = none ∧
      t.faults.map (fun f => (f.kind, f.measured, f.first)) =
        [(.frameNumber, some 1, some 9), (.tcBreak, some 1, some 9), (.frozen, none, some 7)] ∧
      (t.faults.map (·.number)) = [1, 2, 3] ∧ (5 : Nat) ≠ 4 ∧
      (e.judgeTakeEnd still.settings clipHandle 2 5 (some 4)).faults.map (fun f => (f.kind, f.measured)) =
        [(.countMismatch, some 1)] := by decide +kernel

/-- A back buffer READY with a black frame of the clip, whose write check is that of its raster. -/
def aPicture : Picture := ⟨0, clipHandle, 2, 100, ⟨10, 0, 0, 0, false⟩, [], rasterCheck []⟩

theorem witness_sync :
    let blank := withBlocks (fun e => { e with monitor := { e.monitor with blanking := true } }) still
    let cued := withBlocks (fun e => { e with
      jobs := [{ aJob with outputs := .monitor, proxyPort := none, state := .queued, underruns := 65535 }]
      monitor := { e.monitor with cue := { Cue.reset with job := some 0, firstShown := true } } }) still
    still.resetHeld = false ∧ still.settings.silent = true ∧ still.engine.renderWaits = true ∧
      locked.engine.monitor.checker = .locked ∧ (after (.sync []) locked).engine.monitor.nextSync = 1125000 ∧
      (after (.sync []) still).now = 1125000 ∧ (after (.sync []) still).engine.monitor.nextSync = 2250000 ∧
      ((after (.sync []) still).engine.monitor.output.map (·.picture)) = some false ∧
      (after (.sync []) blank).engine.monitor.blanking = false ∧ cued.engine.renderWaits = true ∧
      ((after (.sync []) cued).engine.job 0).map (·.underruns) = some 65535 ∧
      (after (.sync []) cued).engine.events = [Event.ofClip .monitorUnderrun 2 clipHandle] := by decide +kernel

/-- R148, R162: the first sync after reset, with both contexts IDLE and no job. -/
theorem witness_sync_after_reset :
    State.reset.engine.renderWaits = true ∧ base.engine.renderIdle = true ∧ base.engine.renderWaits = true ∧
      base.engine.monitor.checker ≠ .locked ∧ base.engine.monitor.back.isReady = false ∧ base.engine.monitor.blanking = false ∧
      base.engine.monitor.cue.job = none ∧ (after (.sync []) base).now = 1125000 ∧
      (after (.sync []) base).engine.monitor.nextSync = 2250000 ∧ (after (.sync []) base).engine.monitor.lastSync = some 1125000 ∧
      ((after (.sync []) base).engine.monitor.output.map (·.repeated)) = some false ∧
      ((after (.sync []) (after (.sync []) base)).engine.monitor.output.map (·.repeated)) = some true := by decide +kernel

/-- A RUNNING monitor job whose walk waits in a mode for the answer to a READ at port 3, and which has shown a picture. -/
def airing (mode : RenderWalkMode) (frame : Option RenderFrame) (back : Back) : State :=
  let run := { aContextRun with
    phase := .walking, handle := some 77, length := 2000000, frame := frame,
    walk := { RenderWalk.start with mode := mode, left := 1000, header := some aHeader } }
  withFlight 3 ⟨.context 0, .read 77 0 1048576, false⟩ (withBlocks (fun e => { e with
    jobs := [{ aJob with outputs := .monitor, proxyPort := none }]
    contexts := #v[⟨.running 0 run, none⟩, ⟨.idle, none⟩]
    monitor := { e.monitor with
      front := .picture aPicture, frontSent := true, back := back, cue := { Cue.reset with job := some 0, firstShown := true } } })
    (withVolume 1 3 base))

/-- R134, R156: with its source's answer outstanding the RUNNING monitor job gives the Render Engine nothing to do at a sync, READY or not;
with a frame that a READY back buffer holds back it does. -/
theorem witness_sync_running :
    let s := airing .skip none .empty
    let frame : RenderFrame := ⟨1, 101, ⟨10, 0, 0, 1, false⟩⟩
    s.resetHeld = false ∧ s.settings.silent = true ∧ s.engine.renderWaits = true ∧ s.engine.monitor.checker ≠ .locked ∧
      s.engine.monitor.back.isReady = false ∧ s.engine.monitor.blanking = false ∧ s.engine.monitor.cue.job = some 0 ∧
      s.engine.monitor.cue.firstShown = true ∧ (s.engine.job 0).map (fun j => (j.state, j.underruns)) = some (.running, 0) ∧
      (airing .skip none (.ready aPicture)).engine.renderWaits = true ∧
      (airing .pixels (some frame) (.ready aPicture)).engine.renderWaits = false ∧
      ((airing .pixels (some frame) (.ready aPicture)).engine.settleRender base.settings).pipeline = none ∧
      (((airing .pixels (some frame) .empty).engine.settleRender base.settings).pipeline.map (·.number)) = some 101 := by
  refine ⟨?_, ?_, ?_, ?_, ?_, ?_, ?_, ?_, ?_, ?_, ?_, ?_, ?_⟩ <;> decide +kernel

/-- R156: the first under-run of a RUNNING monitor job in a run is counted and signaled, and the front is sent again as a repeat. -/
theorem test_underrun_of_a_running_job :
    let t := (airing .skip none .empty).engine.syncAt base.settings 1125000 []
    (t.job 0).map (fun j => (j.state, j.underruns)) = some (.running, 1) ∧ t.monitor.cue.runFlag = true ∧
      t.events = [Event.ofClip .monitorUnderrun 2 clipHandle] ∧ t.monitor.output.map (·.repeated) = some true := by
  intro t
  obtain ⟨-, -, again⟩ := Engine.syncAt_shows base.settings (airing .skip none .empty).engine 1125000 []
  have shown : t = _ := ((((again (by decide +kernel) (by decide +kernel)).2 0 _ (by decide +kernel) (by decide +kernel) rfl).2
    aPicture rfl).2 (by decide +kernel)).trans (if_pos rfl)
  clear_value t
  subst shown
  exact ⟨rfl, rfl, rfl, rfl⟩

/-- A READY back buffer whose check is as written: the picture of R155 whose check nothing evaluates here. -/
theorem witness_sync_ready :
    rasterCheck (Raster.damage aPicture.raster []) = aPicture.writeCheck ∧ Back.isReady (.ready aPicture) = true := ⟨rfl, rfl⟩

/-- A part that shows a picture of its monitor job, which has nothing new: the repeat of R156, whose check nothing evaluates here. -/
theorem witness_sync_repeats :
    let s := withBlocks (fun e => { e with
      jobs := [{ aJob with outputs := .monitor, proxyPort := none, state := .queued }]
      monitor := { e.monitor with front := .picture aPicture, frontSent := true, cue := { Cue.reset with job := some 0, firstShown := true } } })
      still
    s.resetHeld = false ∧ s.settings.silent = true ∧ s.engine.renderWaits = true ∧ s.engine.monitor.checker ≠ .locked ∧
      s.engine.monitor.back.isReady = false ∧ s.engine.monitor.blanking = false ∧
      (match s.engine.monitor.front with | .picture f => f.number = 100 | .black => False) ∧
      (s.engine.job 0).map (·.underruns) = some 0 := by
  refine ⟨?_, ?_, ?_, ?_, ?_, ?_, rfl, ?_⟩ <;> decide +kernel

/-- A part whose checker is UNLOCKED with a pulse at 1,000,000 and some pulses in window. -/
def counting (n : Nat) : State :=
  withBlocks (fun e => { e with monitor := { e.monitor with checker := .unlocked, inWindow := n, prevPulse := some 1000000, lastSync := some 0 } })
    { still with now := 1000000 }

theorem witness_pulses :
    let pulse (s : State) (time : Nat) := (after (.referencePulse time []) s).engine.monitor
    still.now ≤ 5 ∧ (pulse still 5).checker = .off ∧ (pulse (counting 0) 2125000).inWindow = 1 ∧
      (pulse (counting 0) 2126125).inWindow = 0 ∧ (pulse (counting 7) 2126124).checker = .locked ∧
      (pulse (counting 7) 2126124).lastSync = some 2126124 ∧ (pulse locked 3375000).lastGood = some 3375000 ∧
      (pulse locked 3376125).checker = .unlocked ∧ (pulse locked 3376125).nextSync = 4500000 ∧
      (pulse locked 3375000).lastSync = some 3375000 ∧ locked.now ≤ 2250000 + 2 * 1125000 ∧
      (after (.referenceTimeout []) locked).engine.monitor.checker = .unlocked ∧ (after (.referenceTimeout []) locked).now = 4500000 ∧
      (after (.referenceTimeout []) locked).engine.monitor.nextSync = 5625000 ∧
      (after (.referenceTimeout []) still).engine.monitor.checker = .off := by decide +kernel

/-- R152, R153: the same with both contexts IDLE; the eighth pulse is a sync from half a period after the last one on, and a bad pulse at
a multiple of the period after the last good one loses the reference with a sync at once. -/
theorem witness_pulses_idle :
    let pulse (s : State) (time : Nat) := (after (.referencePulse time []) (idle s)).engine.monitor
    let last (x : Option Nat) : State := withBlocks (fun e => { e with monitor := { e.monitor with lastSync := x } }) (counting 7)
    (idle (counting 7)).resetHeld = false ∧ (idle (counting 7)).settings.silent = true ∧ (idle (counting 7)).engine.renderIdle = true ∧
      (idle (counting 7)).now ≤ 2125000 ∧ (pulse still 5).checker = .off ∧ (pulse (counting 0) 2125000).inWindow = 1 ∧
      (pulse (last (some 1562500)) 2125000).lastSync = some 2125000 ∧
      (pulse (last (some 1562501)) 2125000).lastSync = some 1562501 ∧
      (pulse (last (some 1562501)) 2125000).checker = .locked ∧ (pulse (last none) 2125000).lastSync = some 2125000 ∧
      (pulse locked 3375000).lastSync = some 3375000 ∧ (pulse locked 4500000).checker = .unlocked ∧
      (pulse locked 4500000).lastSync = some 4500000 ∧ (pulse locked 4500000).nextSync = 5625000 ∧
      (pulse locked 3376125).lastSync = some 2250000 ∧
      (after (.referenceTimeout []) (idle locked)).engine.monitor.lastSync = some 4500000 := by decide +kernel

/-! ## Witnesses: the matrix and graded frames -/

theorem witness_requeues :
    let pairs : List Requeue := (List.finRange 8).map (fun i => ⟨clipHandle, Fin.castLE (by decide) i, 1⟩)
    pairs.length ≤ 8 ∧ (pairs.map (fun y => (y.clip, y.volume))).Nodup ∧ (placeRequeue pairs ⟨clipHandle, 0, 3⟩).map (·.generation) =
        [3, 1, 1, 1, 1, 1, 1, 1] ∧ (placeRequeue pairs ⟨clipHandle, 9, 3⟩).length = 8 ∧
      (placeRequeue (pairs.take 7) ⟨clipHandle, 9, 3⟩).length = 8 := by decide +kernel

/-- R197: the pair of a target that dropped out of a COPY still running waits, and so does that of a failed VERIFY; at generation 3, and with
no copy record, the action is skipped. -/
theorem witness_requeue_failed :
    let e (r : CopyRecord) (ds : List Descriptor) : Engine := (withClip { aClip with copies := [r] } (offloading .offloading ds)).engine
    let failed : CopyRecord := { CopyRecord.made 1 0 with state := .failed }
    let busy := e failed [aDescriptor .copy .card [1] .running]
    (busy.clipAt clipHandle).bind (·.copyOn 1) = some failed ∧ failed.generation < 3 ∧
      (∃ d ∈ busy.queue, d.namesPair clipHandle 1 = true) ∧
      (busy.requeueFailed base.settings clipHandle 1).requeues = [⟨clipHandle, 1, 1⟩] ∧
      ((e { failed with state := .written } []).requeueFailed base.settings clipHandle 1).requeues = [⟨clipHandle, 1, 1⟩] ∧
      ((e { failed with generation := 3 } []).requeueFailed base.settings clipHandle 1).queue = [] ∧
      (busy.requeueFailed base.settings clipHandle 2).requeues = [] := by decide +kernel

/-- R195, R197: of two REQUEUE_COPY entries that match one COPY_FAILED, the first queues the copy again at once, and the second meets the
descriptor that it left, and is skipped. -/
theorem witness_second_requeue_is_skipped :
    let failed : CopyRecord := { CopyRecord.made 1 0 with state := .failed }
    let e : Engine := (withClip { aClip with copies := [failed] } (offloading .offloaded [])).engine
    let ev : Event := { Event.ofClip .copyFailed 2 clipHandle with volume := some 1 }
    let x : LinkEntry := ⟨.copyFailed, none, .note, .requeueCopy, 0, true, .A⟩
    let first := e.act base.settings x ev
    (∀ d ∈ e.queue, d.namesPair clipHandle 1 = false) ∧ first.queue.map (fun d => (d.targets, d.generation)) = [([1], 1)] ∧
      first.requeues = [] ∧ ((first.clipAt clipHandle).bind (·.copyOn 1)).map (·.state) = some .writing ∧
      (∃ d ∈ first.queue, d.namesPair clipHandle 1 = true) ∧ first.portOf 1 = some 3 ∧ first.entryAt 3 = some 1 ∧
      (first.act base.settings x ev).requeues = [] ∧ (first.act base.settings x ev).queue = first.queue := by decide +kernel

/-- R196, R199: a FAILED copy of a volume that is back is asked for again, or waits while a descriptor names it. -/
theorem witness_requeue_inserted :
    let failed : CopyRecord := { CopyRecord.made 1 0 with state := .failed }
    let e (ds : List Descriptor) : Engine := (withClip { aClip with copies := [failed] } (offloading .offloaded ds)).engine
    let busy := e [aDescriptor .copy .card [1] .running]
    ((busy.clipAt clipHandle).bind (·.copyOn 1)) = some failed ∧ failed.generation < 3 ∧
      (∃ d ∈ busy.queue, d.namesPair clipHandle 1 = true) ∧ (e []).portOf 1 = some 3 ∧
      (busy.requeueInserted base.settings 1 clipHandle).requeues = [⟨clipHandle, 1, 1⟩] ∧
      ((e []).requeueInserted base.settings 1 clipHandle).queue.map (fun d => (d.targets, d.generation)) = [([1], 1)] := by
  decide +kernel

/-- R194, R195: a CARD_REMOVED of card 2 holds it by an enabled entry, and not by one of another kind or with a camera filter. -/
theorem witness_matrix :
    let s := offloading .offloading [aDescriptor .copy .card [1] .queued]
    let ev := Event.ofCard .cardRemoved 2
    let x : LinkEntry := ⟨.cardRemoved, none, .note, .holdCard, 0, true, .A⟩
    ev.card = some 2 ∧ ev.clip = none ∧ s.engine.cameraOfEvent ev = none ∧ x.matchesEvent ev none = true ∧
      ({ x with kind := .cardAttached } : LinkEntry).matchesEvent ev none = false ∧
      ({ x with camera := some 0x43 } : LinkEntry).matchesEvent ev none = false ∧
      ((s.engine.act s.settings x ev).cards[(2 : Fin 32)]).map (·.heldByRequest) = some true ∧
      (s.engine.act s.settings { x with action := .queueRender } ev).jobs = [] := by decide +kernel

/-- The job whose frame fills the back buffer. -/
def fillingJob : Back → Option (Fin 16)
  | .filling f => some f.job
  | _ => none

/-- A frame of the job being written to the back buffer. -/
def aFilling : Filling := ⟨0, clipHandle, 2, 16, 16, placementOf .auto 16 16, []⟩

/-- R125, R172: the last two pixels of a frame of four, the mid-tone and the white one of section 6.7, complete it with half its
pixels clamped. -/
theorem witness_clamp_report :
    let run := { aContextRun with phase := .walking, buffer := [0x2C, 0x09, 0x07, 0x20, 0xFF, 0xFF, 0xFF, 0x3F, 9],
                                  walk := { RenderWalk.start with mode := .pixels, left := 8 } }
    let frame : PipelineFrame := ⟨0, 0, clipHandle, 2, 100, ⟨10, 0, 0, 0, false⟩, 2, 2, 2, 1⟩
    let e := { rendering.engine with contexts := #v[⟨.running 0 run, none⟩, ⟨.draining, none⟩], pipeline := some frame }
    let t := e.gradeBytes State.reset.settings 0 0 run frame aHeader ⟨0, 1, workedLook⟩
    run.walk.left ≤ run.buffer.length ∧ frame.graded ≤ 2 * 2 ∧ run.pixelBytes.length + run.walk.left = (2 * 2 - 2) * aHeader.depth.bytes ∧
      (e.jobs.map (·.slot)).Nodup ∧ State.reset.settings.profile.gradeClampLimit < 32768 ∧
      t.faults.map (fun f => (f.kind, f.measured, f.first)) = [(.gradeClamp, some 32768, some 100)] ∧
      (e.frameComplete State.reset.settings 0 0 { frame with graded := 4, clamped := 2 }).faults.map (·.kind) = [.gradeClamp] := by
  decide +kernel

theorem witness_graded_frame :
    let run := { aContextRun with phase := .walking, buffer := [1, 2, 3, 4, 5], walk := { RenderWalk.start with mode := .pixels, left := 8 } }
    let frame : PipelineFrame := ⟨0, 0, clipHandle, 2, 100, ⟨10, 0, 0, 0, false⟩, 16, 16, 254, 0⟩
    let e := { rendering.engine with
      contexts := #v[⟨.running 0 run, none⟩, ⟨.draining, none⟩]
      pipeline := some frame
      monitor := { MonitorOut.reset with cue := { Cue.reset with job := some 0 } } }
    (e.contexts[(0 : Fin 2)]).state = .running 0 run ∧ run.buffer.length < run.walk.left ∧ e.pipeline = some frame ∧
      ((e.gradeBytes State.reset.settings 0 0 run frame aHeader ⟨0, 1, workedLook⟩).pipeline.map (·.graded)) = some 255 ∧
      fillingJob (e.gradeBytes State.reset.settings 0 0 run frame aHeader ⟨0, 1, workedLook⟩).monitor.back = some 0 ∧
      fillingJob (.filling aFilling) = some 0 ∧ (e.frameComplete State.reset.settings 0 0 frame).pipeline = none := by decide +kernel

/-- R137, R138: both contexts ask for the pipeline, and it goes to the monitor job's, or else to the one not granted last. -/
theorem witness_pipeline_choice :
    let frame : RenderFrame := ⟨0, 100, ⟨10, 0, 0, 0, false⟩⟩
    let run : ContextRun := { aContextRun with
      phase := .walking, frame := some frame, walk := { RenderWalk.start with mode := .pixels, header := some aHeader } }
    let e (cue : Option (Fin 16)) : Engine :=
      { renderable.engine with
        jobs := [aJob, { aJob with slot := 1 }]
        contexts := #v[⟨.running 0 run, none⟩, ⟨.running 1 run, none⟩]
        monitor := { MonitorOut.reset with cue := { Cue.reset with job := cue } } }
    (e none).contextRun 0 = some (0, run) ∧ (e none).contextRun 1 = some (1, run) ∧ run.insideFrame = false ∧
      (e none).monitor.back.isReady = false ∧ (e none).pipeline = none ∧ (e none).lastPipeline = 1 ∧
      (e none).pipelineChoice = some 0 ∧ (e (some 1)).pipelineChoice = some 1 ∧ (e none).job 0 = some aJob ∧
      ((e none).grantPipeline.bind (·.pipeline)) = some ⟨0, 0, clipHandle, 2, 100, ⟨10, 0, 0, 0, false⟩, 16, 16, 0, 0⟩ := by
  decide +kernel

/-- R137 to R139: a graded frame goes to its proxy, and a delivered one ends the range, restarts the loop or goes on. -/
theorem witness_proxy_frame :
    let run : ContextRun := { aContextRun with
      phase := .walking, handle := some 77, frame := some ⟨2, 100, ⟨10, 0, 0, 0, false⟩⟩, frameStore := [1, 2, 3, 4], insideFrame := true }
    let job : Job := { aJob with range := .frames 0 2, proxy := some ⟨4, 88, 10⟩ }
    let e (j : Job) : Engine :=
      { renderable.engine with jobs := [j], contexts := #v[⟨.running 0 run, none⟩, ⟨.draining, none⟩]
                               destPorts := renderable.engine.destPorts.set 2 ⟨.online, none, [], .context 1⟩ }
    let f : PipelineFrame := ⟨0, 0, clipHandle, 2, 100, ⟨10, 0, 0, 0, false⟩, 16, 16, 256, 0⟩
    let frame := (e job).frameComplete base.settings 0 0 f
    (e job).contextRun 0 = some (0, run) ∧ (e job).job 0 = some job ∧ job.outputs ≠ .monitor ∧
      (frame.contextRun 0).map (fun x => (x.2.phase, x.2.toAppend.map List.length)) = some (.frameAppending, [24]) ∧
      job.cancelMark = false ∧ job.suspendMark = false ∧
      (((e job).frameDelivered base.settings 0).destPorts[(3 : Fin 4)]).inflight = some ⟨.context 0, .close 77, false⟩ ∧
      (((e { job with range := .whole }).frameDelivered base.settings 0).contextRun 0).map (fun x => (x.2.phase, x.2.delivered)) =
        some (.walking, 1) ∧
      (((e { job with loop := true }).frameDelivered base.settings 0).contextRun 0).map (fun x => (x.2.phase, x.2.delivered)) =
        some (.walking, 0) ∧
      (e { job with outputs := .monitor }).contextOf 0 = some 0 ∧
      ((e { job with outputs := .monitor }).rangeEnd base.settings 0).jobs = [] := by decide +kernel

/-- R134, R139: the CLOSE of a monitor-only job's source object waits at a busy port, and the job ends as it is sent. -/
theorem witness_source_close_waits :
    let job : Job := { aJob with outputs := .monitor, proxyPort := none }
    let other : Operation := ⟨.lane 1, .close 5, false⟩
    let run : ContextRun := { aContextRun with phase := .walking, handle := some 77 }
    let e : Engine := (withFlight 3 other (withBlocks (fun e => { e with
      jobs := [job], contexts := #v[⟨.running 0 run, none⟩, ⟨.draining, none⟩] }) renderable)).engine
    let t := e.rangeEnd base.settings 0
    let u := (t.updateDest 3 DestPort.endOperation).settleRender base.settings
    e.contextRun 0 = some (0, run) ∧ e.job 0 = some job ∧ (t.destPorts[(3 : Fin 4)]).inflight = some other ∧
      (t.destPorts[(3 : Fin 4)]).waiting = [⟨.context 0, .close 77, false⟩] ∧ t.jobs = [job] ∧ t.contextMove base.settings 0 = none ∧
      (u.destPorts[(3 : Fin 4)]).inflight = some ⟨.context 0, .close 77, true⟩ ∧ u.jobs = [] ∧
      (u.contexts[(0 : Fin 2)]).state = .draining := by decide +kernel

end Sys2Proof.Tests
end

