-- ==== Sys2Proof/Proofs/CatalogueInvariants.lean ====
section
/-!
SUPPORT. The four invariants of O41 as plain statements about single records: what `Engine.cardsLegal`, `Engine.clipsLegal`,
`Engine.volumesLegal` and `Engine.entriesUsed` say of each card slot, clip slot, volume entry and port.
-/

namespace Sys2Proof.Machine

/-! ## Tables of optional records -/

/-- The keys of a table's records are distinct exactly when no two slots hold records of one key. -/
theorem nodup_keys_iff {α β : Type} {n : Nat} (f : Fin n → Option α) (key : α → Option β) :
    (((List.finRange n).filterMap f).filterMap key).Nodup ↔
      ∀ i j x y k, f i = some x → f j = some y → key x = some k → key y = some k → i = j := by
  have hp : ∀ l : List (Fin n), l.Nodup → (((l.filterMap f).filterMap key).Nodup ↔
      ∀ i ∈ l, ∀ j ∈ l, ∀ x y k, f i = some x → f j = some y → key x = some k → key y = some k → i = j) := by
    intro l hl
    rw [List.filterMap_filterMap, List.Nodup, List.pairwise_filterMap]
    constructor
    · intro h i hi j hj x y k hx hy kx ky
      by_contra hne
      have : Std.Symm (fun a b : Fin n => ∀ k, (f a).bind key = some k → ∀ k', (f b).bind key = some k' → k ≠ k') :=
        ⟨fun a b h k hk k' hk' e => h k' hk' k hk e.symm⟩
      exact h.forall hi hj hne k (by simp [hx, kx]) k (by simp [hy, ky]) rfl
    · intro h
      refine hl.imp_of_mem fun {a b} ha hb hab k hk k' hk' e => hab ?_
      obtain ⟨x, hx, kx⟩ := Option.bind_eq_some_iff.mp hk
      obtain ⟨y, hy, ky⟩ := Option.bind_eq_some_iff.mp hk'
      exact h a ha b hb x y k hx hy kx (e ▸ ky)
  simpa using hp _ (List.nodup_finRange n)

/-- The same for a key that every record has. -/
theorem nodup_map_keys_iff {α β : Type} {n : Nat} (f : Fin n → Option α) (key : α → β) :
    (((List.finRange n).filterMap f).map key).Nodup ↔
      ∀ i j x y, f i = some x → f j = some y → key x = key y → i = j := by
  rw [← List.filterMap_eq_map, nodup_keys_iff]
  constructor
  · exact fun h i j x y hx hy e => h i j x y (key x) hx hy rfl (by simp [e])
  · exact fun h i j x y k hx hy kx ky => h i j x y hx hy (by simp_all)

/-! ## Cards and card ports -/

/-- A port that a card record can be attached at (R25): ATTACHED or STALLED. -/
def CardPortState.holdsCard (x : CardPortState) : Prop := x = .attached ∨ x = .stalled

/-- What `Engine.cardsLegal` says, slot by slot and port by port (R9, R12, R13, R25, R34). -/
structure CardsOk (e : Engine) : Prop where
  identity : ∀ (c d : Fin 32) r s, e.cards[c] = some r → e.cards[d] = some s → r.identity = s.identity → c = d
  attached : ∀ (c d : Fin 32) r s p, e.cards[c] = some r → e.cards[d] = some s → r.attached = some p → s.attached = some p → c = d
  ported : ∀ (c : Fin 32) r (p : Fin 4), e.cards[c] = some r → r.attached = some p → (e.cardPorts[p]).state.holdsCard
  reading : ∀ p : Fin 4, (e.cardPorts[p]).read.isSome = true → (e.cardPorts[p]).state = .attached
  noRecordNodup : e.noRecord.Nodup
  noRecord : ∀ p ∈ e.noRecord, (e.cardPorts[p]).state = .noRecord
  waitNodup : e.waitList.Nodup
  waits : ∀ c : Fin 32, c ∈ e.waitList ↔ ∃ r, e.cards[c] = some r ∧ r.state = .waitSpace
  pending : ∀ (c : Fin 32) r, e.cards[c] = some r → (r.pendingDir.isSome = true ↔ r.state = .waitSpace)

theorem Engine.cardsLegal_iff (e : Engine) : e.cardsLegal = true ↔ CardsOk e := by
  unfold Engine.cardsLegal
  simp only [Bool.and_eq_true, decide_eq_true_eq, nodup_keys_iff, nodup_map_keys_iff, List.all_eq_true, Bool.or_eq_true,
    List.mem_finRange, true_imp_iff, and_assoc, List.mem_filterMap, true_and]
  constructor
  · rintro ⟨hi, ha, hp, hr, hn, hs, hw, hx⟩
    refine ⟨hi, ha, fun c r p hc hp' => hp p ⟨r, ⟨c, hc⟩, hp'⟩, fun p h => (hr p).resolve_left (by rw [Option.isNone_iff_eq_none]; exact fun hn => by rw [hn] at h; cases h), hn, hs, hw,
      fun c => ?_, fun c r hc => ?_⟩ <;> have hc' := hx c <;> clear hi ha hp hr hn hs hw hx
    · split at hc' <;> simp_all
    · split at hc' <;> simp_all
  · rintro ⟨hi, ha, hp, hr, hn, hs, hw, hl, hd⟩
    refine ⟨hi, ha, fun p ⟨r, ⟨c, hc⟩, hp'⟩ => hp c r p hc hp', fun p => ?_, hn, hs, hw, fun c => ?_⟩
    · by_cases h : (e.cardPorts[p]).read.isSome = true
      · exact .inr (hr p h)
      · exact .inl (by simpa using h)
    · have hc := hl c
      split
      · next r h => simp [hc, h, hd c r h]
      · next h => simp [hc, h]

/-! ## Clips -/

/-- The clip record in a clip slot. -/
abbrev Engine.clipIn (e : Engine) (i : Fin 512) : Option Clip := (e.clips[i]).clip

/-- A record found at a handle is the record in its slot, and the handle is current. -/
theorem Engine.clipAt_eq_some {e : Engine} {h : Handle} {c : Clip} :
    e.clipAt h = some c ↔ (e.clips[h.slot]).gen = h.gen ∧ e.clipIn h.slot = some c := by
  show (if _ then _ else _) = _ ↔ _
  split
  · next hg => exact ⟨fun hc => ⟨hg, hc⟩, fun hc => hc.2⟩
  · next hg => exact ⟨fun hc => (by cases hc), fun hc => absurd hc.1 hg⟩

/-- A clip is in the catalogue exactly when a slot holds it. -/
theorem Engine.mem_allClips {e : Engine} {c : Clip} : c ∈ e.allClips ↔ ∃ i, e.clipIn i = some c := by
  unfold Engine.allClips
  rw [List.mem_filterMap]
  constructor
  · rintro ⟨x, hx, hc⟩
    obtain ⟨i, hi, rfl⟩ := List.mem_iff_getElem.mp hx
    exact ⟨⟨i, by simpa using hi⟩, hc⟩
  · rintro ⟨i, hc⟩
    exact ⟨e.clips[i], by simp, hc⟩

/-- What `Engine.clipsLegal` says, clip by clip and card by card (R2, R4, R5, R7, R9). -/
structure ClipsOk (e : Engine) : Prop where
  placed : ∀ (i : Fin 512) c, e.clipIn i = some c → c.handle = ⟨i, (e.clips[i]).gen⟩
  copies : ∀ (i : Fin 512) c, e.clipIn i = some c → c.copiesLegal = true
  listed : ∀ (i : Fin 512) c, e.clipIn i = some c → ∃ r, e.cards[c.card] = some r ∧ c.handle ∈ r.clips
  nodup : ∀ (k : Fin 32) r, e.cards[k] = some r → r.clips.Nodup
  current : ∀ (k : Fin 32) r, e.cards[k] = some r → ∀ h ∈ r.clips, ∃ c, e.clipAt h = some c ∧ c.card = k

theorem Engine.clipsWellPlaced_iff (e : Engine) :
    e.clipsWellPlaced = true ↔ ∀ (i : Fin 512) c, e.clipIn i = some c → c.handle = ⟨i, (e.clips[i]).gen⟩ := by
  unfold Engine.clipsWellPlaced
  simp only [List.all_eq_true, List.mem_finRange, true_imp_iff]
  refine forall_congr' fun i => ?_
  split
  · next c h => exact ⟨fun hc x hx => by cases h.symm.trans hx; exact of_decide_eq_true hc, fun hc => decide_eq_true (hc c h)⟩
  · next h => exact ⟨fun _ x hx => (by cases h.symm.trans hx), fun _ => rfl⟩

theorem Engine.clipsLegal_iff (e : Engine) : e.clipsLegal = true ↔ ClipsOk e := by
  have held : ∀ c : Clip, ((e.cards[c.card]).map (fun r => r.clips.contains c.handle)).getD false = true ↔
      ∃ r, e.cards[c.card] = some r ∧ c.handle ∈ r.clips := by
    intro c
    cases e.cards[c.card] <;> simp
  unfold Engine.clipsLegal
  simp only [Bool.and_eq_true, List.all_eq_true, List.mem_finRange, true_imp_iff, held, Engine.clipsWellPlaced_iff,
    Engine.mem_allClips, and_assoc]
  constructor
  · rintro ⟨hp, hc, hl, hk⟩
    refine ⟨hp, fun i c h => hc c ⟨i, h⟩, fun i c h => hl c ⟨i, h⟩, fun k r h => ?_, fun k r h x hx => ?_⟩
    · have := hk k
      split at this <;> simp_all
    · have := hk k
      split at this <;> simp_all
  · rintro ⟨hp, hc, hl, hn, hk⟩
    refine ⟨hp, fun c ⟨i, h⟩ => hc i c h, fun c ⟨i, h⟩ => hl i c h, fun k => ?_⟩
    split
    · next r h => simpa using ⟨hn k r h, hk k r h⟩
    · rfl

/-! ## Volumes and destination ports -/

/-- What `Engine.volumesLegal` says, entry by entry and port by port (R63, R65, R67). -/
structure VolumesOk (e : Engine) : Prop where
  serial : ∀ (v w : Fin 16) x y, e.volumes[v] = some x → e.volumes[w] = some y → x.serial = y.serial → v = w
  inserted : ∀ (v w : Fin 16) x y p, e.volumes[v] = some x → e.volumes[w] = some y → x.inserted = some p → y.inserted = some p →
    v = w
  untrackedNodup : e.untracked.Nodup
  online : ∀ p : Fin 4, (∃ v, e.portOf v = some p) ↔ (e.destPorts[p]).state = .online
  untracked : ∀ p : Fin 4, p ∈ e.untracked ↔ ∃ s l, (e.destPorts[p]).state = .untracked s l

theorem Engine.portOf_eq_some {e : Engine} {v : Fin 16} {p : Fin 4} :
    e.portOf v = some p ↔ ∃ x, e.volumes[v] = some x ∧ x.inserted = some p := Option.bind_eq_some_iff

theorem Engine.volumesLegal_iff (e : Engine) : e.volumesLegal = true ↔ VolumesOk e := by
  have held : ∀ p : Fin 4, (∃ x, (∃ v : Fin 16, e.volumes[v] = some x) ∧ x.inserted = some p) ↔ ∃ v, e.portOf v = some p := by
    intro p
    simp only [Engine.portOf_eq_some]
    exact ⟨fun ⟨x, ⟨v, hv⟩, hp⟩ => ⟨v, x, hv, hp⟩, fun ⟨v, x, hv, hp⟩ => ⟨x, ⟨v, hv⟩, hp⟩⟩
  unfold Engine.volumesLegal
  simp only [Bool.and_eq_true, decide_eq_true_eq, nodup_keys_iff, nodup_map_keys_iff, List.all_eq_true, List.mem_finRange,
    true_imp_iff, List.mem_filterMap, true_and, held, and_assoc]
  constructor
  · rintro ⟨hs, hi, hn, hp⟩
    refine ⟨hs, hi, hn, fun p => (hp p).1, fun p => ?_⟩
    have := (hp p).2
    split at this <;> simp_all
  · rintro ⟨hs, hi, hn, ho, hu⟩
    refine ⟨hs, hi, hn, fun p => ⟨ho p, ?_⟩⟩
    have := hu p
    split <;> simp_all

/-! ## Entries in use -/

/-- A volume entry is in use exactly when it is inserted or a copy record names it (R66). -/
def Engine.usedAt (e : Engine) (v : Fin 16) : Prop := (e.volumes[v]).isSome = true ↔ ((e.portOf v).isSome = true ∨ 0 < e.refCount v)

theorem Engine.entriesUsed_iff (e : Engine) : e.entriesUsed = true ↔ ∀ v, e.usedAt v := by
  unfold Engine.entriesUsed
  simp only [List.all_eq_true, List.mem_finRange, true_imp_iff]
  refine forall_congr' fun v => ?_
  unfold Engine.usedAt Engine.portOf
  split <;> simp_all

end Sys2Proof.Machine
end

