-- ==== Sys2Proof/Proofs/QuietChanges.lean ====
section
/-!
SUPPORT. Quiet changes: what most operations of the blocks leave of the catalogue, of the card ports and of the Volume Table. Each of the
four invariants of O41 looks only at a part of the state, and a change is quiet when it keeps what they look at.
-/

namespace Sys2Proof.Machine

/-! ## What the invariants look at -/

/-- What `Engine.cardsLegal` looks at in a card record. -/
def CardRecord.standing (r : CardRecord) : (Word64 × Word32) × Option (Fin 4) × Bool × Bool :=
  (r.identity, r.attached, decide (r.state = .waitSpace), r.pendingDir.isSome)

/-- What `Engine.clipsLegal` and `Engine.entriesUsed` look at in a clip record, but for its digests. -/
def Clip.standing (c : Clip) : Handle × Fin 32 × List (Fin 16) := (c.handle, c.card, c.copies.map (·.volume))

/-- What `Engine.volumesLegal` looks at in a volume entry. -/
def VolumeEntry.standing (x : VolumeEntry) : Word64 × Option (Fin 4) := (x.serial, x.inserted)

/-- Every clip record has legal copy records. -/
def Engine.copiesOk (e : Engine) : Prop := ∀ (i : Fin 512) c, e.clipIn i = some c → c.copiesLegal = true

/-- The card records and card ports stand as they stood; a read begins only at an ATTACHED port. -/
structure CardsQuiet (a b : Engine) : Prop where
  cards : ∀ c : Fin 32, (b.cards[c]).map CardRecord.standing = (a.cards[c]).map CardRecord.standing
  state : ∀ p : Fin 4, (b.cardPorts[p]).state = (a.cardPorts[p]).state
  read : ∀ p : Fin 4, (b.cardPorts[p]).read.isSome = true → (a.cardPorts[p]).read.isSome = true ∨ (a.cardPorts[p]).state = .attached
  noRecord : b.noRecord = a.noRecord
  waitList : b.waitList = a.waitList

/-- The clip slots and the clip lists of the cards stand as they stood, and the copy records stay legal. -/
structure ClipsQuiet (a b : Engine) : Prop where
  lists : ∀ c : Fin 32, (b.cards[c]).map (·.clips) = (a.cards[c]).map (·.clips)
  gens : ∀ i : Fin 512, (b.clips[i]).gen = (a.clips[i]).gen
  clips : ∀ i : Fin 512, (b.clipIn i).map Clip.standing = (a.clipIn i).map Clip.standing
  copies : a.clipsWellPlaced = true → a.copiesOk → b.copiesOk

/-- The volume entries and destination ports stand as they stood. -/
structure VolumesQuiet (a b : Engine) : Prop where
  entries : ∀ v : Fin 16, (b.volumes[v]).map VolumeEntry.standing = (a.volumes[v]).map VolumeEntry.standing
  state : ∀ p : Fin 4, (b.destPorts[p]).state = (a.destPorts[p]).state
  untracked : b.untracked = a.untracked

/-- A change that is quiet for all of them. -/
structure Quiet (a b : Engine) : Prop where
  cards : CardsQuiet a b
  clips : ClipsQuiet a b
  volumes : VolumesQuiet a b

/-! ## Change after change -/

/-- What a mapped record shows, another with the same view shows too. -/
theorem exists_of_map_eq {α β : Type} {f : α → β} {x y : Option α} (h : x.map f = y.map f) {r : α} (hx : x = some r) :
    ∃ s, y = some s ∧ f s = f r := by
  subst hx
  exact Option.map_eq_some_iff.mp h.symm

theorem CardsQuiet.refl (a : Engine) : CardsQuiet a a := ⟨fun _ => rfl, fun _ => rfl, fun _ h => .inl h, rfl, rfl⟩
theorem ClipsQuiet.refl (a : Engine) : ClipsQuiet a a := ⟨fun _ => rfl, fun _ => rfl, fun _ => rfl, fun _ h => h⟩
theorem VolumesQuiet.refl (a : Engine) : VolumesQuiet a a := ⟨fun _ => rfl, fun _ => rfl, rfl⟩

theorem CardsQuiet.trans {a b c : Engine} (h : CardsQuiet a b) (k : CardsQuiet b c) : CardsQuiet a c where
  cards i := (k.cards i).trans (h.cards i)
  state p := (k.state p).trans (h.state p)
  read p hp := (k.read p hp).elim (h.read p) (fun hs => .inr ((h.state p).symm.trans hs))
  noRecord := k.noRecord.trans h.noRecord
  waitList := k.waitList.trans h.waitList

/-- Handles stay in place while the clip slots stand. -/
theorem ClipsQuiet.wellPlaced {a b : Engine} (h : ClipsQuiet a b) (ha : a.clipsWellPlaced = true) : b.clipsWellPlaced = true := by
  rw [Engine.clipsWellPlaced_iff] at ha ⊢
  intro i c hc
  obtain ⟨d, hd, hs⟩ := exists_of_map_eq (h.clips i) hc
  simp only [Clip.standing, Prod.mk.injEq] at hs
  rw [← hs.1, ha i d hd, h.gens i]

theorem ClipsQuiet.trans {a b c : Engine} (h : ClipsQuiet a b) (k : ClipsQuiet b c) : ClipsQuiet a c where
  lists i := (k.lists i).trans (h.lists i)
  gens i := (k.gens i).trans (h.gens i)
  clips i := (k.clips i).trans (h.clips i)
  copies hp hc := k.copies (h.wellPlaced hp) (h.copies hp hc)

theorem VolumesQuiet.trans {a b c : Engine} (h : VolumesQuiet a b) (k : VolumesQuiet b c) : VolumesQuiet a c where
  entries v := (k.entries v).trans (h.entries v)
  state p := (k.state p).trans (h.state p)
  untracked := k.untracked.trans h.untracked

theorem Quiet.refl (a : Engine) : Quiet a a := ⟨.refl a, .refl a, .refl a⟩

theorem Quiet.trans {a b c : Engine} (h : Quiet a b) (k : Quiet b c) : Quiet a c :=
  ⟨h.cards.trans k.cards, h.clips.trans k.clips, h.volumes.trans k.volumes⟩

/-! ## Parts that do not change -/

theorem CardsQuiet.of_eq {a b : Engine} (hc : b.cards = a.cards) (hp : b.cardPorts = a.cardPorts) (hn : b.noRecord = a.noRecord)
    (hw : b.waitList = a.waitList) : CardsQuiet a b :=
  ⟨fun _ => by rw [hc], fun _ => by rw [hp], fun _ h => .inl (by rwa [hp] at h), hn, hw⟩

theorem ClipsQuiet.of_eq {a b : Engine} (hc : b.cards = a.cards) (hs : b.clips = a.clips) : ClipsQuiet a b :=
  ⟨fun _ => by rw [hc], fun _ => by rw [hs], fun _ => by rw [Engine.clipIn, hs], fun _ h i c hi => h i c (by rwa [Engine.clipIn, hs] at hi)⟩

theorem VolumesQuiet.of_eq {a b : Engine} (hv : b.volumes = a.volumes) (hp : b.destPorts = a.destPorts)
    (hu : b.untracked = a.untracked) : VolumesQuiet a b :=
  ⟨fun _ => by rw [hv], fun _ => by rw [hp], hu⟩

section
variable {a e : Engine}

/-- A change outside the catalogue, the card ports, the Volume Table and the destination ports is quiet. -/
theorem Quiet.frame {e' : Engine} (h : Quiet a e)
    (he : e' = { e' with cards := e.cards, clips := e.clips, waitList := e.waitList, noRecord := e.noRecord,
                         cardPorts := e.cardPorts, volumes := e.volumes, destPorts := e.destPorts, untracked := e.untracked }) :
    Quiet a e' := by
  refine h.trans ?_
  rw [he]
  exact ⟨.of_eq rfl rfl rfl rfl, .of_eq rfl rfl, .of_eq rfl rfl rfl⟩

/-- A fold of quiet changes is quiet. -/
theorem Quiet.foldl {α : Type} {f : Engine → α → Engine} (hf : ∀ e x, Quiet a e → Quiet a (f e x)) (xs : List α) (h : Quiet a e) :
    Quiet a (xs.foldl f e) := by
  induction xs generalizing e with
  | nil => exact h
  | cons x xs ih => exact ih (hf e x h)

/-- A change that is made or not. -/
theorem Quiet.ite {p : Prop} [Decidable p] {x y : Engine} (hx : Quiet a x) (hy : Quiet a y) : Quiet a (if p then x else y) := by
  split <;> assumption

/-! ## The named updates outside the catalogue -/

theorem Quiet.signal (h : Quiet a e) {ev : Event} : Quiet a (e.signal ev) := h.frame rfl

theorem Quiet.updateDescriptor (h : Quiet a e) {d : Fin 64} {f : Descriptor → Descriptor} : Quiet a (e.updateDescriptor d f) :=
  h.frame rfl

theorem Quiet.updateJob (h : Quiet a e) {j : Fin 16} {f : Job → Job} : Quiet a (e.updateJob j f) := h.frame rfl

theorem Quiet.setContextState (h : Quiet a e) {c : Fin 2} {x : ContextState} : Quiet a (e.setContextState c x) := h.frame rfl

theorem Quiet.setClaim (h : Quiet a e) {c : Fin 2} {j : Option (Fin 16)} : Quiet a (e.setClaim c j) := h.frame rfl

theorem Quiet.updateMonitor (h : Quiet a e) {f : MonitorOut → MonitorOut} : Quiet a (e.updateMonitor f) := h.frame rfl

theorem Quiet.updateScan (h : Quiet a e) {l : Fin 2} {f : ScanContext → ScanContext} : Quiet a (e.updateScan l f) := h.frame rfl

theorem Quiet.putFault (h : Quiet a e) {r : FaultRecord} : Quiet a (e.putFault r) := h.frame rfl

theorem Quiet.updateLane (h : Quiet a e) {l : Fin 2} {f : LaneRun → LaneRun} : Quiet a (e.updateLane l f) := by
  unfold Engine.updateLane
  split
  · exact h.frame rfl
  · exact h

theorem Quiet.updateContext (h : Quiet a e) {c : Fin 2} {f : ContextRun → ContextRun} : Quiet a (e.updateContext c f) := by
  unfold Engine.updateContext
  split
  · exact h.frame rfl
  · exact h

/-! ## Clip records -/

/-- The slots after a clip record is updated. -/
theorem Engine.updateClip_slot (e : Engine) (x : Handle) (f : Clip → Clip) (i : Fin 512) :
    (e.updateClip x f).clips[i] = e.clips[i] ∨
      ∃ c, e.clipAt x = some c ∧ i = x.slot ∧ (e.updateClip x f).clips[i] = ⟨x.gen, some (f c)⟩ := by
  unfold Engine.updateClip
  split
  · next c hc =>
    by_cases hi : i = x.slot
    · exact .inr ⟨c, hc, hi, by subst hi; simp⟩
    · exact .inl (by simp [Fin.val_inj, Ne.symm hi])
  · exact .inl rfl

/-- An update of a clip record that keeps its standing, and its copy records legal, is quiet. -/
theorem Quiet.updateClip (h : Quiet a e) {x : Handle} {f : Clip → Clip} (hs : ∀ c, (f c).standing = c.standing)
    (hl : a.clipsWellPlaced = true → ∀ c, e.clipAt x = some c → c.copiesLegal = true → (f c).copiesLegal = true) :
    Quiet a (e.updateClip x f) := by
  refine ⟨h.cards.trans (.of_eq (by simp) (by simp) (by simp) (by simp)), ?_, h.volumes.trans (.of_eq (by simp) (by simp) (by simp))⟩
  have slot := e.updateClip_slot x f
  refine ⟨fun c => (by simpa using h.clips.lists c), fun i => ?_, fun i => ?_, fun hp hc i c hi => ?_⟩
  · rw [← h.clips.gens i]
    obtain hi | ⟨c, hc, rfl, hi⟩ := slot i <;> rw [hi]
    exact (Engine.clipAt_eq_some.mp hc).1.symm
  · rw [← h.clips.clips i, Engine.clipIn]
    obtain hi | ⟨c, hc, rfl, hi⟩ := slot i <;> rw [hi]
    rw [(Engine.clipAt_eq_some.mp hc).2]
    simp [hs]
  · rw [Engine.clipIn] at hi
    obtain hj | ⟨d, hd, rfl, hj⟩ := slot i <;> rw [hj] at hi
    · exact h.clips.copies hp hc i c hi
    · obtain rfl := Option.some.inj hi
      exact hl hp d hd (h.clips.copies hp hc _ d (Engine.clipAt_eq_some.mp hd).2)

/-- What a legal list of copy records is (R7, R9). -/
theorem Clip.copiesLegal_iff (c : Clip) : c.copiesLegal = true ↔
    c.copies.length ≤ Config.maxCopyRecords ∧ (c.copies.map (·.volume)).Nodup ∧
      ∀ r ∈ c.copies, r.state = .verified → r.verifyDigest.isSome = true ∧ r.verifyDigest = c.sourceDigest := by
  simp only [Clip.copiesLegal, Bool.and_eq_true, decide_eq_true_eq, List.all_eq_true, Bool.or_eq_true,
    and_assoc, or_iff_not_imp_left, not_not, ne_eq]

/-- An update of a clip record that leaves its handle, card, copy records and source digest is quiet. -/
theorem Quiet.updateClipRest (h : Quiet a e) {x : Handle} {f : Clip → Clip}
    (hf : ∀ c, (f c).handle = c.handle ∧ (f c).card = c.card ∧ (f c).copies = c.copies ∧ (f c).sourceDigest = c.sourceDigest := by
      exact fun _ => ⟨rfl, rfl, rfl, rfl⟩) :
    Quiet a (e.updateClip x f) := by
  refine h.updateClip (fun c => ?_) (fun _ c _ hc => ?_)
  · obtain ⟨h1, h2, h3, -⟩ := hf c
    simp [Clip.standing, h1, h2, h3]
  · obtain ⟨-, -, h3, h4⟩ := hf c
    rw [Clip.copiesLegal_iff] at hc ⊢
    rwa [h3, h4]

/-- A copy record is updated to one that is legal for its clip. -/
theorem Quiet.updateCopy (h : Quiet a e) {x : Handle} {v : Fin 16} {f : CopyRecord → CopyRecord}
    (hv : ∀ r, (f r).volume = r.volume)
    (hl : a.clipsWellPlaced = true → ∀ c, e.clipAt x = some c → ∀ r, (f r).state = .verified →
      (f r).verifyDigest.isSome = true ∧ (f r).verifyDigest = c.sourceDigest) :
    Quiet a (e.updateCopy x v f) := by
  have same : ∀ c : Clip, (c.copies.map (fun r => if r.volume = v then f r else r)).map (·.volume) = c.copies.map (·.volume) := by
    intro c
    rw [List.map_map]
    refine List.map_congr_left fun r _ => ?_
    simp only [Function.comp]
    split <;> simp [hv]
  refine h.updateClip (fun c => by simp [Clip.standing, ← same c]) (fun hp c hc hk => ?_)
  rw [Clip.copiesLegal_iff] at hk ⊢
  obtain ⟨h6, hn, hd⟩ := hk
  refine ⟨by simpa using h6, by rw [same c]; exact hn, fun x hx hs => ?_⟩
  obtain ⟨r, hr, rfl⟩ := List.mem_map.mp hx
  by_cases hrv : r.volume = v
  · rw [if_pos hrv] at hs ⊢
    exact hl hp c hc r hs
  · rw [if_neg hrv] at hs ⊢
    exact hd r hr hs

/-- A copy record is updated to one that is not VERIFIED. -/
theorem Quiet.updateCopyOther (h : Quiet a e) {x : Handle} {v : Fin 16} {f : CopyRecord → CopyRecord}
    (hf : ∀ r, (f r).volume = r.volume ∧ (f r).state ≠ .verified := by exact fun _ => ⟨rfl, nofun⟩) :
    Quiet a (e.updateCopy x v f) :=
  h.updateCopy (fun r => (hf r).1) (fun _ _ _ r hr => absurd hr (hf r).2)

/-! ## Card records, card ports, volume entries and destination ports -/

/-- The slots after a card record is updated. -/
theorem Engine.updateCard_card (e : Engine) (x : Fin 32) (f : CardRecord → CardRecord) (c : Fin 32) :
    (e.updateCard x f).cards[c] = (e.cards[c]).map (fun r => if c = x then f r else r) := by
  unfold Engine.updateCard
  by_cases hc : c = x
  · subst hc
    split
    · next r hr => simp only [Fin.getElem_fin] at hr; simp [hr]
    · next hr => simp only [Fin.getElem_fin] at hr; simp [hr]
  · split <;> simp [Fin.val_inj, Ne.symm hc, hc]

/-- An update of a card record that keeps its standing and its clip list is quiet. -/
theorem Quiet.updateCard (h : Quiet a e) {x : Fin 32} {f : CardRecord → CardRecord}
    (hf : ∀ r, e.cards[x] = some r → (f r).standing = r.standing ∧ (f r).clips = r.clips) : Quiet a (e.updateCard x f) := by
  have same : ∀ {β : Type} (k : CardRecord → β), (∀ r, e.cards[x] = some r → k (f r) = k r) →
      ∀ c : Fin 32, ((e.updateCard x f).cards[c]).map k = (e.cards[c]).map k := by
    intro β k hk c
    rw [Engine.updateCard_card]
    cases hc : e.cards[c] with
    | none => rfl
    | some r =>
      by_cases hx : c = x
      · subst hx; simp [hk r hc]
      · simp [hx]
  refine h.trans ⟨⟨same _ fun r hr => (hf r hr).1, ?_, ?_, ?_, ?_⟩, ⟨same _ fun r hr => (hf r hr).2, ?_, ?_, ?_⟩, .of_eq ?_ ?_ ?_⟩ <;>
    simp [Engine.clipIn, Engine.copiesOk]
  exact fun _ h => .inl h

/-- The ports after a card port is updated. -/
theorem Engine.updatePort_port (e : Engine) (x : Fin 4) (f : CardPort → CardPort) (p : Fin 4) :
    (e.updatePort x f).cardPorts[p] = if p = x then f e.cardPorts[p] else e.cardPorts[p] := by
  unfold Engine.updatePort
  by_cases hp : p = x
  · subst hp; simp
  · simp [Fin.val_inj, Ne.symm hp, hp]

/-- An update of a card port that keeps its state, and begins a read only when it is ATTACHED, is quiet. -/
theorem Quiet.updatePort (h : Quiet a e) {x : Fin 4} {f : CardPort → CardPort} (hs : (f e.cardPorts[x]).state = (e.cardPorts[x]).state)
    (hr : (f e.cardPorts[x]).read.isSome = true → (e.cardPorts[x]).read.isSome = true ∨ (e.cardPorts[x]).state = .attached) :
    Quiet a (e.updatePort x f) := by
  refine h.trans ⟨⟨fun _ => rfl, fun p => ?_, fun p => ?_, rfl, rfl⟩, .of_eq rfl rfl, .of_eq rfl rfl rfl⟩ <;>
    rw [Engine.updatePort_port] <;> split
  · next hp => subst hp; exact hs
  · rfl
  · next hp => subst hp; exact hr
  · exact fun h => .inl h

/-- The ports after a destination port is updated. -/
theorem Engine.updateDest_port (e : Engine) (x : Fin 4) (f : DestPort → DestPort) (p : Fin 4) :
    (e.updateDest x f).destPorts[p] = if p = x then f e.destPorts[p] else e.destPorts[p] := by
  unfold Engine.updateDest
  by_cases hp : p = x
  · subst hp; simp
  · simp [Fin.val_inj, Ne.symm hp, hp]

/-- An update of a destination port that keeps its state is quiet. -/
theorem Quiet.updateDest (h : Quiet a e) {x : Fin 4} {f : DestPort → DestPort} (hs : ∀ d, (f d).state = d.state := by exact fun _ => rfl) :
    Quiet a (e.updateDest x f) := by
  refine h.trans ⟨.of_eq rfl rfl rfl rfl, .of_eq rfl rfl, ⟨fun _ => rfl, fun p => ?_, rfl⟩⟩
  rw [Engine.updateDest_port]
  split
  · exact hs _
  · rfl

/-- The entries after a volume entry is updated. -/
theorem Engine.updateVolume_entry (e : Engine) (x : Fin 16) (f : VolumeEntry → VolumeEntry) (v : Fin 16) :
    (e.updateVolume x f).volumes[v] = (e.volumes[v]).map (fun y => if v = x then f y else y) := by
  unfold Engine.updateVolume
  by_cases hv : v = x
  · subst hv
    split
    · next r hr => simp only [Fin.getElem_fin] at hr; simp [hr]
    · next hr => simp only [Fin.getElem_fin] at hr; simp [hr]
  · split <;> simp [Fin.val_inj, Ne.symm hv, hv]

/-- An update of a volume entry that keeps its serial and port is quiet. -/
theorem Quiet.updateVolume (h : Quiet a e) {x : Fin 16} {f : VolumeEntry → VolumeEntry} (hs : ∀ y, (f y).standing = y.standing := by exact fun _ => rfl) :
    Quiet a (e.updateVolume x f) := by
  refine h.trans ⟨.of_eq (by simp) (by simp) (by simp) (by simp), .of_eq (by simp) (by simp), ⟨fun v => ?_, ?_, ?_⟩⟩
  · rw [Engine.updateVolume_entry]
    cases e.volumes[v] with
    | none => rfl
    | some y => simp only [Option.map_some]; split <;> simp [hs]
  · simp
  · simp

end

end Sys2Proof.Machine
end

