-- ==== Sys2Proof/Proofs/QuietBlocks.lean ====
section
/-!
SUPPORT. The quiet operations of the fault list, the copy queue, the Look Store, the scanner, and the port arbiter, in the order of their
definitions: each keeps what the four invariants of O41 look at.
-/

namespace Sys2Proof.Machine

variable {a e : Engine} {g : Settings}

/-! ## The fault list -/

theorem Quiet.createFault (h : Quiet a e) {f : FaultInput} {s : Severity} : Quiet a (e.createFault f s) := h.frame rfl

theorem Quiet.dropFault (h : Quiet a e) {f : FaultInput} {s : Severity} : Quiet a (e.dropFault f s) := by
  unfold Engine.dropFault
  split
  · exact h.updateClipRest
  · exact h.frame rfl

theorem Quiet.raiseFault (h : Quiet a e) {f : FaultInput} : Quiet a (e.raiseFault g f) := by
  rcases e.raiseFault_cases g f with ⟨-, k⟩ | ⟨r, -, ⟨-, k⟩ | ⟨-, k⟩⟩ | ⟨-, -, k⟩ | ⟨-, -, ⟨v, -, k⟩ | ⟨-, k⟩⟩ <;> rw [k]
  · exact h
  · exact h.putFault.signal
  · exact h.putFault
  · exact h.createFault
  · exact Quiet.createFault (h.frame rfl)
  · exact h.dropFault

theorem Quiet.completeFault (h : Quiet a e) {n : Option Nat} {x : Word32} {tc : Timecode} : Quiet a (e.completeFault n x tc) := by
  unfold Engine.completeFault
  split
  · exact h.frame rfl
  · exact h

theorem Quiet.lowerFaults (h : Quiet a e) {c : Fin 32} : Quiet a (e.lowerFaults c) := h.frame rfl

theorem Quiet.clearMismatch (h : Quiet a e) {x : Handle} {v : Fin 16} : Quiet a (e.clearMismatch x v) := h.frame rfl

theorem Quiet.removeFaults (h : Quiet a e) {x : Handle} : Quiet a (e.removeFaults x) := h.frame rfl

/-! ## Copy states -/

theorem Quiet.recomputeCopyState (h : Quiet a e) {x : Handle} : Quiet a (e.recomputeCopyState x) := by
  unfold Engine.recomputeCopyState
  split
  · exact .ite h.updateClipRest.signal h.updateClipRest
  · exact h

theorem Quiet.changeCopyOther (h : Quiet a e) {x : Handle} {v : Fin 16} {f : CopyRecord → CopyRecord}
    (hf : ∀ r, (f r).volume = r.volume ∧ (f r).state ≠ .verified := by exact fun _ => ⟨rfl, nofun⟩) :
    Quiet a (e.changeCopy x v f) :=
  (h.updateCopyOther hf).recomputeCopyState

/-- A copy record takes a state other than VERIFIED. -/
theorem Quiet.setCopyState (h : Quiet a e) {x : Handle} {v : Fin 16} {s : CopyState} (hs : s ≠ .verified := by decide) :
    Quiet a (e.setCopyState x v s) := h.changeCopyOther fun _ => ⟨rfl, hs⟩

/-! ## Card states and hold flags -/

theorem Quiet.drivePort (h : Quiet a e) {p : Fin 4} : Quiet a (e.drivePort p) := h.updatePort rfl .inl

/-- A card record that does not wait for space takes a state in which it does not. -/
theorem Quiet.setCardState (h : Quiet a e) {c : Fin 32} {x : CardState} (hx : x ≠ .waitSpace)
    (hc : ∀ r, e.cards[c] = some r → r.state ≠ .waitSpace) : Quiet a (e.setCardState c x) := by
  have hu : Quiet a (e.updateCard c (fun r => { r with state := x })) :=
    h.updateCard fun r hr => ⟨by simp [CardRecord.standing, CardRecord.identity, hx, hc r hr], rfl⟩
  unfold Engine.setCardState
  dsimp only
  split
  · exact hu.drivePort
  · exact hu

theorem Quiet.signalSecured (h : Quiet a e) {c : Fin 32} : Quiet a (e.signalSecured c) := .ite h.signal h

/-- A hold flag is no part of a card's standing. -/
theorem Quiet.updateHolds (h : Quiet a e) {c : Fin 32} {f : CardRecord → CardRecord}
    (hf : ∀ r, (f r).standing = r.standing ∧ (f r).clips = r.clips := by exact fun _ => ⟨rfl, rfl⟩) : Quiet a (e.updateCard c f) := h.updateCard fun r _ => hf r

theorem Quiet.becomeOffloaded (h : Quiet a e) {c : Fin 32} (hc : ∀ r, e.cards[c] = some r → r.state ≠ .waitSpace) :
    Quiet a (e.becomeOffloaded c) :=
  Quiet.signalSecured ((h.setCardState (by decide) hc).updateHolds)

/-- A state taken from the queue is one of the three of R94. -/
theorem Engine.cardStateFromQueue_ne (e : Engine) (c : Fin 32) : e.cardStateFromQueue c ≠ .waitSpace := by
  simp only [Engine.cardStateFromQueue]
  split
  · decide
  · split <;> decide

theorem Quiet.recomputeCard (h : Quiet a e) {c : Fin 32} : Quiet a (e.recomputeCard c) := by
  unfold Engine.recomputeCard
  split
  · next r hr =>
    split
    · next hs =>
      have hc : ∀ x, e.cards[c] = some x → x.state ≠ .waitSpace := by
        intro x hx
        obtain rfl := Option.some.inj (hr.symm.trans hx)
        rcases hs with hs | hs | hs <;> rw [hs] <;> decide
      exact .ite h (.ite (h.becomeOffloaded hc) (h.setCardState (e.cardStateFromQueue_ne c) hc))
    · exact h
  · exact h

theorem Quiet.becomeReleased (h : Quiet a e) {c : Fin 32} (hc : ∀ r, e.cards[c] = some r → r.state ≠ .waitSpace) :
    Quiet a (e.becomeReleased c) := (h.setCardState (by decide) hc).signal

theorem Quiet.settleRelease (h : Quiet a e) {c : Fin 32} : Quiet a (e.settleRelease c) := by
  unfold Engine.settleRelease
  split
  · next r hr =>
    split
    · next hs =>
      refine h.becomeReleased fun x hx => ?_
      obtain rfl := Option.some.inj (hr.symm.trans hx)
      rw [hs.1]; decide
    · exact h
  · exact h

theorem Quiet.recomputeHolds (h : Quiet a e) {c : Fin 32} : Quiet a (e.recomputeHolds c) := by
  unfold Engine.recomputeHolds
  split
  · exact h.frame rfl
  · exact h

theorem Quiet.changeHolds (h : Quiet a e) {c : Fin 32} {f : CardRecord → CardRecord}
    (hf : ∀ r, (f r).standing = r.standing ∧ (f r).clips = r.clips := by exact fun _ => ⟨rfl, rfl⟩) : Quiet a (e.changeHolds c f) :=
  (h.updateHolds hf).recomputeHolds.recomputeCard

/-! ## Descriptors -/

theorem Quiet.addDescriptor (h : Quiet a e) {n : NewDescriptor} : Quiet a (e.addDescriptor n) := by
  unfold Engine.addDescriptor
  split
  · exact h.frame rfl
  · exact h

theorem Quiet.markQueued (h : Quiet a e) {x : Handle} : Quiet a (e.markQueued x) :=
  h.updateClipRest.recomputeCopyState

theorem Quiet.queueVerify (h : Quiet a e) {c : Fin 32} {x : Handle} {v : Fin 16} {n : Nat} : Quiet a (e.queueVerify c x v n) :=
  .ite h.addDescriptor.markQueued h

theorem Quiet.dropDescriptor (h : Quiet a e) {d : Fin 64} : Quiet a (e.dropDescriptor d) := h.frame rfl

theorem Quiet.settleRemoval (h : Quiet a e) {d : Descriptor} : Quiet a (e.settleRemoval d) := by
  unfold Engine.settleRemoval
  dsimp only
  split
  · exact h.recomputeCopyState.recomputeCard.settleRelease
  · exact h.recomputeCard.settleRelease

/-! ## Looks -/

theorem Quiet.makeStale (h : Quiet a e) {x : Handle} : Quiet a (e.makeStale x) := by
  unfold Engine.makeStale
  split
  · exact .ite h.updateClipRest.signal h
  · exact h

theorem Quiet.staleSlot (h : Quiet a e) {i : Fin 32} : Quiet a (e.staleSlot i) := h.foldl (fun _ _ h => h.makeStale) _

theorem Quiet.bind (h : Quiet a e) {x : Handle} {b : Binding} : Quiet a (e.bind x b) := by
  have hu : Quiet a (e.updateClip x (fun c => { c with binding := b })) := h.updateClipRest
  unfold Engine.bind
  split
  · exact .ite hu.makeStale hu
  · exact h

theorem Quiet.applyRules (h : Quiet a e) {x : Handle} {k : Byte} {n : Nat} : Quiet a (e.applyRules g x k n) := by
  unfold Engine.applyRules
  split
  · refine .ite h ?_
    split
    · exact h.bind
    · exact h
  · exact h

/-! ## The scanner -/

theorem Quiet.judgeNumber (h : Quiet a e) {x : FrameReport} : Quiet a (e.judgeNumber g x) := by
  unfold Engine.judgeNumber
  split
  · exact .ite h h.raiseFault
  · exact h

theorem Quiet.judgeTimecode (h : Quiet a e) {x : FrameReport} : Quiet a (e.judgeTimecode g x) := by
  unfold Engine.judgeTimecode
  split
  · exact h.raiseFault
  · exact h

theorem Quiet.judgeFrozen (h : Quiet a e) {x : FrameReport} : Quiet a (e.judgeFrozen g x) :=
  .ite h.updateScan.raiseFault h.updateScan

theorem Quiet.judgeReport (h : Quiet a e) {x : FrameReport} : Quiet a (e.judgeReport g x) :=
  h.judgeNumber.judgeTimecode.judgeFrozen

theorem Quiet.judgeTakeEnd (h : Quiet a e) {x : Handle} {c : Fin 32} {n : Nat} {d : Option Nat} :
    Quiet a (e.judgeTakeEnd g x c n d) := by
  unfold Engine.judgeTakeEnd
  split
  · exact .ite h h.raiseFault
  · exact h

theorem Quiet.framePicture (h : Quiet a e) {x : FrameReport} {w ht : Nat} {ps : List Rgb} :
    Quiet a (e.framePicture g x w ht ps) := by
  unfold Engine.framePicture
  split
  · exact Quiet.updateClipRest (h.frame rfl)
  · exact h.updateClipRest

theorem Quiet.judgeClip (h : Quiet a e) {f : PendingFrame} : Quiet a (e.judgeClip g f) := .ite h.raiseFault h

theorem Quiet.judgeBlack (h : Quiet a e) {l : Fin 2} {f : PendingFrame} : Quiet a (e.judgeBlack g l f) :=
  .ite (.ite h.updateScan.raiseFault h.updateScan) h

theorem Quiet.sampleComplete (h : Quiet a e) {l : Fin 2} : Quiet a (e.sampleComplete g l) := by
  unfold Engine.sampleComplete
  split
  · next f _ =>
    have hs : Quiet a { e with sampler := e.sampler.set l none } := h.frame rfl
    dsimp only
    split
    · exact hs.judgeClip.judgeBlack
    · exact hs
  · exact h

theorem Quiet.clampReport (h : Quiet a e) {f : PipelineFrame} : Quiet a (e.clampReport g f) := .ite h.raiseFault h

/-! ## The Take Parser's findings -/

theorem Quiet.headerValid (h : Quiet a e) {x : Handle} {d : Header} : Quiet a (e.headerValid g x d) := by
  have hu : Quiet a (e.updateClip x (fun c => { c with header := some d })) := h.updateClipRest
  unfold Engine.headerValid
  split
  · exact .ite hu hu.applyRules
  · exact h

theorem Quiet.headerInvalid (h : Quiet a e) {x : Handle} {c : Fin 32} {n : Nat} : Quiet a (e.headerInvalid g x c n) :=
  h.raiseFault.updateClipRest

theorem Quiet.parsedFrame (h : Quiet a e) {x : FrameReport} {k : Word32} {b w ht : Nat} {ps : List Rgb} :
    Quiet a (e.parsedFrame g x k b w ht ps) := by
  have hu : Quiet a (e.updateClip x.clip (fun c => c.observe x.tc)) := h.updateClipRest
  have hb := hu.ite (p := b = 0) (hu.raiseFault (g := g) (f := x.fault .pixelWord (some (b : Int))))
  exact (hb.ite (p := x.check = k) (hb.raiseFault (g := g) (f := x.fault .frameCheck none))).judgeReport.framePicture

theorem Quiet.parseOut (h : Quiet a e) {l : Fin 2} {x : Handle} {c : Fin 32} {out : ParseOut} :
    Quiet a (Engine.parseOut g l x c e out) := by
  cases out with
  | headerValid d => exact h.headerValid
  | headerInvalid n => exact h.headerInvalid
  | truncated n => exact h.raiseFault
  | frameSize n => exact h.raiseFault.updateLane
  | sizePrefix n tc => exact h.completeFault.updateLane
  | frame n tc k v b ps d prev => exact h.parsedFrame
  | takeEnd n => exact h.judgeTakeEnd.updateLane

theorem Quiet.applyParse (h : Quiet a e) {l : Fin 2} {p : Parse} {outs : List ParseOut} : Quiet a (e.applyParse g l p outs) :=
  h.updateLane.foldl (fun _ _ h => h.parseOut) _

theorem Quiet.feedParser (h : Quiet a e) {l : Fin 2} {bs : List Byte} : Quiet a (e.feedParser g l bs) := by
  unfold Engine.feedParser
  split
  · exact h.applyParse
  · exact h

theorem Quiet.startParse (h : Quiet a e) {l : Fin 2} {c : Clip} : Quiet a (e.startParse g l c) :=
  h.updateClipRest.updateScan.applyParse

/-! ## The port arbiter -/

theorem DestPort.ask_state (d : DestPort) (op : Operation) : (d.ask op).state = d.state := by
  unfold DestPort.ask
  split <;> rfl

theorem DestPort.endOperation_state (d : DestPort) : d.endOperation.state = d.state := by
  unfold DestPort.endOperation
  dsimp only
  split <;> rfl

theorem Quiet.ask (h : Quiet a e) {p : Fin 4} {who : Requester} {r : OpRequest} {e' : Engine} (he : e.ask p who r = some e') :
    Quiet a e' := by
  unfold Engine.ask at he
  split at he
  · cases he; exact h.updateDest fun d => d.ask_state _
  · cases he

/-- A requester asks, or does without. -/
theorem Quiet.askOr (h : Quiet a e) {d : Engine} (hd : Quiet a d) {p : Fin 4} {who : Requester} {r : OpRequest} :
    Quiet a ((e.ask p who r).getD d) := by
  cases he : e.ask p who r with
  | none => exact hd
  | some x => exact h.ask he

theorem Quiet.withdraw (h : Quiet a e) {who : Requester} : Quiet a (e.withdraw who) :=
  h.foldl (fun _ _ h => h.updateDest) _

theorem Quiet.noteFull (h : Quiet a e) {p : Fin 4} {r : Reply} : Quiet a (e.noteFull p r) := by
  unfold Engine.noteFull
  split
  · exact h.updateVolume
  · exact h

end Sys2Proof.Machine
end

