-- ==== Sys2Proof/Proofs/QuietRenders.lean ====
section
/-!
SUPPORT. The Render Engine is quiet: of what the four invariants of O41 look at, its moves change nothing.
-/

namespace Sys2Proof.Machine

variable {a e : Engine} {g : Settings}

/-! ## The ends of jobs -/

theorem Quiet.updateRenderState (h : Quiet a e) {j : Job} {x : JobEnd} : Quiet a (e.updateRenderState g j x) := by
  unfold Engine.updateRenderState
  split
  · exact .ite h.updateClipRest.signal h.updateClipRest
  · exact h

theorem Quiet.releaseContext (h : Quiet a e) {c : Fin 2} : Quiet a (e.releaseContext c) := by
  have free : Quiet a { e with pipeline := none } := h.frame rfl
  unfold Engine.releaseContext
  dsimp only
  split
  · exact (Quiet.ite free h).withdraw.setContextState
  · exact h.withdraw.setContextState

theorem Quiet.endJob (h : Quiet a e) {j : Fin 16} {x : JobEnd} : Quiet a (e.endJob g j x) := by
  unfold Engine.endJob
  split
  case h_2 => exact h
  case h_1 job _ =>
    have gone : Quiet a { e with jobs := e.jobs.filter (fun y => decide (y.slot ≠ j)) } := h.frame rfl
    have told := (gone.updateRenderState (g := g) (j := job) (x := x)).ite (p := job.isProxy = true) gone
    refine Quiet.signal ?_
    cases e.contextOf j <;> cases e.claimOf j
    · exact told.updateMonitor
    · exact told.updateMonitor.setClaim
    · exact told.updateMonitor.releaseContext
    · exact told.updateMonitor.releaseContext.setClaim

theorem Quiet.endContextJob (h : Quiet a e) {c : Fin 2} {x : JobEnd} : Quiet a (e.endContextJob g c x) := by
  unfold Engine.endContextJob
  split
  · exact h.endJob
  · exact h

theorem Quiet.failContext (h : Quiet a e) {c : Fin 2} {x : EndCause} : Quiet a (e.failContext g c x) := h.endContextJob

/-- A context asks a port for an operation, or its job fails. -/
theorem Quiet.askOrFail (h : Quiet a e) {p : Fin 4} {c : Fin 2} {r : OpRequest} {x : EndCause} :
    Quiet a ((e.ask p (.context c) r).getD (e.failContext g c x)) := h.askOr h.failContext

theorem Quiet.cancelJob (h : Quiet a e) {j : Fin 16} : Quiet a (e.cancelJob g j) := by
  unfold Engine.cancelJob
  dsimp only
  split
  · exact .ite h.updateJob h.updateJob.endJob
  · exact h.updateJob.endJob

theorem Quiet.countAppend (h : Quiet a e) {c : Fin 2} {j : Fin 16} : Quiet a (e.countAppend c j) := by
  unfold Engine.countAppend
  dsimp only
  split
  · exact h.updateJob
  · exact h

theorem Quiet.suspendContext (h : Quiet a e) {c : Fin 2} : Quiet a (e.suspendContext c) := by
  unfold Engine.suspendContext
  split
  · exact Quiet.releaseContext (h.countAppend.updateJob.frame rfl)
  · exact h

/-! ## Starts -/

theorem Quiet.startJob (h : Quiet a e) {c : Fin 2} {j : Fin 16} : Quiet a (e.startJob g c j) := by
  unfold Engine.startJob
  split
  case h_2 => exact h.setClaim
  case h_1 job _ =>
    have taken : ∀ (snapshot : Option Snapshot) (run : ContextState), Quiet a (({ (e.updateJob j (fun x =>
        { x with state := .running, suspendMark := false, snapshot := snapshot })).setContextState c run with
          lastJobGrant := c } : Engine).setClaim c none) := fun _ _ => h.frame rfl
    dsimp only
    split
    · exact (taken _ _).failContext
    · exact (taken _ _).askOrFail
    · exact (taken _ _).failContext

theorem Quiet.grantContext (h : Quiet a e) {c : Fin 2} {e' : Engine} (he : e.grantContext g c = some e') : Quiet a e' := by
  unfold Engine.grantContext at he
  split at he
  · split at he
    · cases he; exact h.startJob
    · split at he
      · cases he
      · obtain ⟨j, -, rfl⟩ := Option.map_eq_some_iff.mp he
        exact h.startJob
  · cases he

/-! ## Proxies, range ends and frame boundaries -/

theorem Quiet.sendAppend (h : Quiet a e) {c : Fin 2} : Quiet a (e.sendAppend g c) := by
  unfold Engine.sendAppend
  split
  · split
    · split
      · exact h.askOrFail
      · exact h.failContext
    · exact h
  · exact h

theorem Quiet.appendChunk (h : Quiet a e) {c : Fin 2} {ph : ContextPhase} {bs : List Byte} : Quiet a (e.appendChunk g c ph bs) :=
  h.updateContext.sendAppend

theorem Quiet.closeSent (h : Quiet a e) {c : Fin 2} {e' : Engine} (he : e.closeSent g c = some e') : Quiet a e' := by
  unfold Engine.closeSent at he
  split at he
  · split at he
    · cases he; exact h.endContextJob
    · cases he
  · cases he

theorem Quiet.sourceClosed (h : Quiet a e) {c : Fin 2} : Quiet a (e.sourceClosed g c) := by
  unfold Engine.sourceClosed
  split
  · split
    · split
      · split
        · exact h.updateContext.askOrFail
        · exact h.failContext
      · exact h.endContextJob
    · exact h
  · exact h

theorem Quiet.closeRenderSource (h : Quiet a e) {c : Fin 2} {run : ContextRun} : Quiet a (e.closeRenderSource g c run) := by
  unfold Engine.closeRenderSource
  dsimp only
  split
  · next x hx =>
    obtain ⟨w, -, hw⟩ := Option.bind_eq_some_iff.mp hx
    have asked : Quiet a x := h.updateContext.ask hw
    cases hc : x.closeSent g c with
    | none => exact asked
    | some y => exact asked.closeSent hc
  · exact h.updateContext.sourceClosed

theorem Quiet.rangeEnd (h : Quiet a e) {c : Fin 2} : Quiet a (e.rangeEnd g c) := by
  unfold Engine.rangeEnd
  split
  · split
    · exact .ite h.updateJob.updateContext h.closeRenderSource
    · exact h
  · exact h

theorem Quiet.frameBoundary (h : Quiet a e) {c : Fin 2} : Quiet a (e.frameBoundary g c) := by
  unfold Engine.frameBoundary
  split
  · split
    · exact .ite h.endJob (.ite h.suspendContext (.ite h.rangeEnd h))
    · exact h
  · exact h

theorem Quiet.frameDelivered (h : Quiet a e) {c : Fin 2} : Quiet a (e.frameDelivered g c) := by
  unfold Engine.frameDelivered
  split
  · split
    · exact h.updateJob.updateContext.frameBoundary
    · exact h
  · exact h

/-! ## The walk -/

theorem Quiet.updateWalk (h : Quiet a e) {c : Fin 2} {f : RenderWalk → RenderWalk} : Quiet a (e.updateWalk c f) := h.updateContext

theorem Quiet.needBytes (h : Quiet a e) {c : Fin 2} {run : ContextRun} {e' : Engine} (he : e.needBytes g c run = some e') :
    Quiet a e' := by
  unfold Engine.needBytes at he
  split at he
  · cases he
  · split at he
    · cases he; exact h.askOrFail
    · cases he

theorem Quiet.walkEnd (h : Quiet a e) {c : Fin 2} {run : ContextRun} : Quiet a (e.walkEnd g c run) := by
  unfold Engine.walkEnd
  split
  · exact h.rangeEnd
  · exact h.failContext

theorem Quiet.walkHeader (h : Quiet a e) {c : Fin 2} {j : Fin 16} {bs : List Byte} : Quiet a (e.walkHeader g c j bs) := by
  unfold Engine.walkHeader
  split
  · dsimp only
    split
    · exact .ite h.updateWalk h.updateWalk.appendChunk
    · exact h.updateWalk
  · exact h.failContext

theorem Quiet.walkChunk (h : Quiet a e) {c : Fin 2} {j : Fin 16} {run : ContextRun} {bs : List Byte} :
    Quiet a (e.walkChunk g c j run bs) :=
  .ite (.ite (.ite h.updateWalk.walkHeader h.updateWalk.updateWalk) h.updateWalk.failContext)
    (.ite h.updateWalk.updateWalk h.updateWalk.walkEnd)

theorem Quiet.walkFrame (h : Quiet a e) {c : Fin 2} {j : Fin 16} {bs : List Byte} : Quiet a (e.walkFrame c j bs) := by
  unfold Engine.walkFrame
  split
  · exact .ite h.updateWalk.updateJob.updateContext h.updateWalk.updateWalk
  · exact h

theorem Quiet.frameComplete (h : Quiet a e) {c : Fin 2} {j : Fin 16} {f : PipelineFrame} : Quiet a (e.frameComplete g c j f) := by
  have report : Quiet a { e.clampReport g f with pipeline := none } := h.clampReport.frame rfl
  have shown := report.updateMonitor (f := fun m => m.completeFrame j f.number f.tc) |>.ite
    (p := Engine.isMonitorJob { e.clampReport g f with pipeline := none } j = true) report
  unfold Engine.frameComplete
  dsimp only
  split
  · exact .ite shown.updateWalk.updateContext.appendChunk shown.updateWalk.frameDelivered
  · exact shown.updateWalk

theorem Quiet.gradeBytes (h : Quiet a e) {c : Fin 2} {j : Fin 16} {run : ContextRun} {f : PipelineFrame} {d : Header}
    {s : Snapshot} : Quiet a (e.gradeBytes g c j run f d s) := by
  unfold Engine.gradeBytes
  dsimp only
  generalize ({ f with graded := _, clamped := _ } : PipelineFrame) = f'
  have held : Quiet a { e with pipeline := some f' } := h.frame rfl
  exact .ite (Quiet.frameComplete (Quiet.updateContext (held.updateMonitor.ite held)))
    (Quiet.updateContext (held.updateMonitor.ite held))

theorem Quiet.walkOn (h : Quiet a e) {c : Fin 2} {j : Fin 16} {run : ContextRun} {e' : Engine}
    (he : e.walkOn g c j run = some e') : Quiet a e' := by
  unfold Engine.walkOn at he
  dsimp only at he
  split at he
  case h_1 =>
    split at he
    · cases he; exact h.walkEnd
    · split at he
      · exact h.needBytes he
      · cases he; exact .ite h.updateContext h.updateContext.walkChunk
  case h_2 =>
    split at he
    · exact h.needBytes he
    · cases he; exact .ite h.updateContext.walkHeader (.ite h.updateContext.failContext h.updateContext)
  case h_3 =>
    split at he
    · exact h.needBytes he
    · cases he; exact .ite h.updateContext h.updateContext.walkFrame
  case h_4 =>
    split at he
    · exact h.needBytes he
    · cases he; exact h.updateContext
  case h_5 =>
    split at he
    · split at he
      · exact h.needBytes he
      · cases he; exact h.gradeBytes
    · cases he

/-! ## The grants and the moves -/

theorem Quiet.grantPipeline (h : Quiet a e) {e' : Engine} (he : e.grantPipeline = some e') : Quiet a e' := by
  unfold Engine.grantPipeline at he
  split at he
  · split at he
    · split at he
      · cases he; exact Quiet.updateContext (h.frame rfl)
      · cases he
    · cases he
  · cases he

theorem Quiet.contextMove (h : Quiet a e) {c : Fin 2} {e' : Engine} (he : e.contextMove g c = some e') : Quiet a e' := by
  unfold Engine.contextMove at he
  split at he
  · split at he
    · exact h.walkOn he
    · exact h.closeSent he
  · cases he

theorem Quiet.renderMove (h : Quiet a e) {e' : Engine} (he : e.renderMove g = some e') : Quiet a e' := by
  simp only [Engine.renderMove, Option.or_eq_some_iff] at he
  rcases he with he | ⟨-, he | ⟨-, he | ⟨-, he | ⟨-, he⟩⟩⟩⟩
  · exact h.grantContext he
  · exact h.grantContext he
  · exact h.grantPipeline he
  · exact h.contextMove he
  · exact h.contextMove he

theorem Quiet.drive {n : Nat} (h : Quiet a e) : Quiet a (Engine.drive g n e) := by
  induction n generalizing e with
  | zero => exact h
  | succ n ih =>
    unfold Engine.drive
    split
    · next he => exact ih (h.renderMove he)
    · exact h

theorem Quiet.settleRender (h : Quiet a e) : Quiet a (e.settleRender g) := h.drive

/-! ## Answers and losses -/

theorem Quiet.sourceOpened (h : Quiet a e) {c : Fin 2} {j : Fin 16} {w : Word32} {n : Nat} :
    Quiet a (e.sourceOpened g c j w n) := by
  unfold Engine.sourceOpened
  split
  · split
    · refine .ite h.failContext ?_
      split
      · exact h.updateContext.updateContext.askOrFail
      · exact .ite h.updateContext.updateContext.rangeEnd h.updateContext.updateContext
    · exact h.failContext
  · exact h

theorem Quiet.proxyOpened (h : Quiet a e) {c : Fin 2} {j : Fin 16} {w : Word32} : Quiet a (e.proxyOpened c j w) := by
  unfold Engine.proxyOpened
  split
  · exact h.updateJob.updateContext
  · exact h

theorem Quiet.appendDone (h : Quiet a e) {c : Fin 2} {j : Fin 16} {run : ContextRun} : Quiet a (e.appendDone g c j run) := by
  unfold Engine.appendDone
  dsimp only
  split
  · split
    · exact h.updateJob.updateContext.frameDelivered
    · exact h.updateJob.updateContext.updateContext
  · exact h.updateJob.updateContext.sendAppend

theorem Quiet.contextReply (h : Quiet a e) {c : Fin 2} {r : Reply} : Quiet a (e.contextReply g c r) := by
  unfold Engine.contextReply
  split
  · split
    · exact h.sourceOpened
    · exact h.failContext
    · exact h.proxyOpened
    · exact h.failContext
    · exact h.updateContext
    · exact h.failContext
    · exact h.appendDone
    · exact h.failContext
    · exact h.appendDone
    · exact h.failContext
    · exact h.sourceClosed
    · exact h.endContextJob
    · exact h.failContext
  · exact h

theorem Quiet.settleContext (h : Quiet a e) {c : Fin 2} : Quiet a (e.settleContext c) := by
  unfold Engine.settleContext
  split
  · exact .ite h h.setContextState
  · exact h

theorem Quiet.failReaders (h : Quiet a e) {x : Handle} {v : Fin 16} : Quiet a (Engine.failReaders g x v e) := by
  refine h.foldl (fun e c h => ?_) _
  split
  · exact .ite h.endJob h
  · exact h

theorem Quiet.contextLoses (h : Quiet a e) {p : Fin 4} {c : Fin 2} : Quiet a (Engine.contextLoses g p e c) := by
  unfold Engine.contextLoses
  split
  · exact .ite h.endJob (.ite h.endJob (.ite h.sourceClosed h))
  · exact h

theorem Quiet.suspendedLose (h : Quiet a e) {v : Fin 16} : Quiet a (Engine.suspendedLose g v e) :=
  h.foldl (fun _ _ h => h.endJob) _

/-! ## Requests of renders and cues -/

theorem Quiet.addJob (h : Quiet a e) {j : Fin 16} {n : NewJob} : Quiet a (e.addJob j n) := by
  have added : Quiet a { e with jobs := e.jobs ++ [n.inSlot j] } := h.frame rfl
  exact .ite added.updateClipRest added

theorem Quiet.queueRender (h : Quiet a e) {st : StationPort} {s k : Nat} {r : Range} {p : Nat} {x : Fin 16 × Engine}
    (he : e.queueRender g st s k r p = .ok x) : Quiet a x.2 := by
  unfold Engine.queueRender at he
  repeat' split at he
  all_goals cases he
  exact h.addJob.settleRender

theorem Quiet.claimBySuspension (h : Quiet a e) {j : Fin 16} : Quiet a (e.claimBySuspension j) := by
  unfold Engine.claimBySuspension
  dsimp only
  split
  · exact .ite h.setClaim.updateJob h.setClaim.suspendContext
  · exact h.setClaim

theorem Quiet.takeContext (h : Quiet a e) {j : Fin 16} {old : Option (Fin 16)} : Quiet a (e.takeContext g j old) := by
  have cancelled : ∀ x, Quiet a x → Quiet a (match Engine.claimable x with
      | some c => x.setClaim c (some j)
      | none => x.claimBySuspension j) := by
    intro x hx
    split
    · exact hx.setClaim
    · exact hx.claimBySuspension
  unfold Engine.takeContext
  cases old with
  | none => exact cancelled e h
  | some i =>
    dsimp only
    split
    · exact h.cancelJob.setClaim
    · exact cancelled _ h.cancelJob

theorem Quiet.cueMonitor (h : Quiet a e) {st : StationPort} {s k : Nat} {r : Range} {b : Bool} {p : Option Nat}
    {x : Fin 16 × Engine} (he : e.cueMonitor g st s k r b p = .ok x) : Quiet a x.2 := by
  unfold Engine.cueMonitor at he
  repeat' split at he
  all_goals cases he
  all_goals exact h.addJob.updateMonitor.takeContext.settleRender

theorem Quiet.cancelRenders (h : Quiet a e) {x : Handle} : Quiet a (e.cancelRenders g x) := by
  refine Quiet.settleRender (h.foldl (fun e j h => ?_) _)
  split
  · exact .ite h.cancelJob h
  · exact h

theorem Quiet.stopMonitor (h : Quiet a e) : Quiet a (e.stopMonitor g) := by
  unfold Engine.stopMonitor
  dsimp only
  split
  · exact h.updateMonitor.cancelJob.settleRender
  · exact h.updateMonitor.settleRender

theorem Quiet.cancelRender (h : Quiet a e) {st : StationPort} {n : Nat} {x : Engine} (he : e.cancelRender g st n = .ok x) :
    Quiet a x := by
  unfold Engine.cancelRender at he
  repeat' split at he
  all_goals cases he
  exact h.cancelJob.settleRender

/-! ## Syncs -/

theorem Quiet.underrun (h : Quiet a e) {j : Fin 16} : Quiet a (e.underrun j) := by
  unfold Engine.underrun
  dsimp only
  refine .ite h.updateJob ?_
  split
  · exact h.updateJob.updateMonitor.signal
  · exact h.updateJob.updateMonitor

theorem Quiet.settleFront (h : Quiet a e) : Quiet a e.settleFront := by
  unfold Engine.settleFront
  dsimp only
  split
  · exact h.frame rfl
  · split
    · exact h.frame rfl
    · split
      · exact .ite h.underrun h
      · exact h

theorem Quiet.sendFront (h : Quiet a e) {d : Damage} : Quiet a (e.sendFront g d) := by
  unfold Engine.sendFront
  dsimp only
  split
  · exact h.updateMonitor.updateMonitor
  · exact .ite h.updateMonitor.updateMonitor h.updateMonitor.updateMonitor.raiseFault

theorem Quiet.syncAt (h : Quiet a e) {t : Nat} {d : Damage} : Quiet a (e.syncAt g t d) :=
  h.updateMonitor.settleFront.sendFront.settleRender

theorem Quiet.internalSync (h : Quiet a e) {t : Nat} {d : Damage} : Quiet a (e.internalSync g t d) := h.updateMonitor.syncAt

theorem Quiet.syncArrives (h : Quiet a e) {d : Damage} : Quiet a (e.syncArrives g d) := by
  unfold Engine.syncArrives
  split
  · exact h
  · exact h.internalSync
  · exact h.internalSync

theorem Quiet.loseReference (h : Quiet a e) {t : Nat} {d : Damage} : Quiet a (e.loseReference g t d) :=
  .ite h.updateMonitor.signal.internalSync h.updateMonitor.signal

theorem Quiet.pulse (h : Quiet a e) {t : Nat} {d : Damage} : Quiet a (e.pulse g t d) := by
  unfold Engine.pulse
  split
  · exact h
  · exact .ite (.ite h.updateMonitor.signal.syncAt h.updateMonitor.signal) h.updateMonitor
  · exact .ite h.updateMonitor.syncAt h.updateMonitor.loseReference

theorem Quiet.referenceExpires (h : Quiet a e) {t : Nat} {d : Damage} : Quiet a (e.referenceExpires g t d) := by
  unfold Engine.referenceExpires
  split
  · exact h.loseReference
  · exact h
  · exact h

end Sys2Proof.Machine
end

