-- ==== Sys2Proof/Proofs/QuietTransfers.lean ====
section
/-!
SUPPORT. The Transfer Engine is quiet. A source digest is settled, and a copy VERIFIED, for the record that the catalogue holds under the
clip's handle (R9, R88, R91), so the copy records stay legal.
-/

namespace Sys2Proof.Machine

variable {a e : Engine} {g : Settings}

/-! ## The clip in hand -/

/-- While the handles of `a` are in place, the blocks `e` hold the clip under its own handle. -/
def Engine.findsClip (a e : Engine) (c : Clip) : Prop := a.clipsWellPlaced = true → e.clipAt c.handle = some c

/-- A clip found at a handle is found under its own. -/
theorem Quiet.findsClip (h : Quiet a e) {x : Handle} {c : Clip} (hc : e.clipAt x = some c) : a.findsClip e c := by
  intro hp
  obtain ⟨hg, hs⟩ := Engine.clipAt_eq_some.mp hc
  have := (e.clipsWellPlaced_iff.mp (h.clips.wellPlaced hp)) x.slot c hs
  rw [this, hg]
  exact hc

theorem Quiet.findsClipOf (h : Quiet a e) {d : Descriptor} {c : Clip} (hc : d.clip.bind e.clipAt = some c) : a.findsClip e c := by
  obtain ⟨x, -, hx⟩ := Option.bind_eq_some_iff.mp hc
  exact h.findsClip hx

/-- What is found depends on the clip slots alone. -/
theorem Engine.findsClip.congr {e' : Engine} {c : Clip} (hc : a.findsClip e c) (he : e'.clips = e.clips := by simp) :
    a.findsClip e' c := by
  intro hp
  rw [← hc hp, Engine.clipAt, Engine.clipAt, he]

theorem Engine.clipAndCard_clip {d : Descriptor} {c : Clip} {r : CardRecord} (h : e.clipAndCard d = some (c, r)) :
    d.clip.bind e.clipAt = some c := by
  unfold Engine.clipAndCard at h
  split at h
  · next hc _ => cases h; exact hc
  · cases h

/-! ## Lanes -/

theorem Quiet.releaseLane (h : Quiet a e) {l : Fin 2} : Quiet a (e.releaseLane l) := by
  have given : Quiet a ((List.finRange 4).foldl (fun (e : Engine) p => e.updatePort p (fun x =>
      { x with read := if x.read.map (·.lane) = some l then none else x.read })) (e.withdraw (.lane l))) := by
    refine h.withdraw.foldl (fun e p h => h.updatePort rfl fun hr => .inl ?_) _
    dsimp only at hr
    split at hr
    · cases hr
    · exact hr
  exact given.frame rfl

theorem Quiet.settleLane (h : Quiet a e) {l : Fin 2} : Quiet a (e.settleLane l) := by
  unfold Engine.settleLane
  split
  · exact .ite h (h.frame rfl)
  · exact h

theorem Quiet.endDescriptor (h : Quiet a e) {l : Fin 2} {d : Descriptor} : Quiet a (e.endDescriptor l d) :=
  h.dropDescriptor.settleRemoval.releaseLane

theorem Quiet.setTarget (h : Quiet a e) {l : Fin 2} {v : Fin 16} {x : TargetStatus} : Quiet a (e.setTarget l v x) := h.updateLane

theorem Quiet.copyFails (h : Quiet a e) {d : Descriptor} {v : Fin 16} {n : Nat} : Quiet a (e.copyFails g d v n) := by
  unfold Engine.copyFails
  split
  · exact h.setCopyState.signal.raiseFault
  · exact h

theorem Quiet.dropTarget (h : Quiet a e) {l : Fin 2} {d : Descriptor} {v : Fin 16} {n : Nat} : Quiet a (e.dropTarget g l d v n) :=
  h.setTarget.copyFails

/-! ## The end of a COPY -/

theorem Quiet.stopCopy (h : Quiet a e) {l : Fin 2} {x : StopCause} : Quiet a (e.stopCopy g l x) := by
  unfold Engine.stopCopy
  split
  · next run d _ =>
    split
    · next w _ =>
      have stopped := (h.foldl (f := fun e t => e.setCopyState w t.entry .partialCopy)
        (fun _ _ h => h.setCopyState) (run.targets.filter (fun t => t.status.live))).updateLane (l := l)
        (f := fun r => { r with parse := none, sizeFault := none })
      cases x with
      | sourceLost => exact stopped.raiseFault.endDescriptor
      | allDropped => exact stopped.endDescriptor
      | aborted => exact stopped.endDescriptor
    · exact h
  · exact h

theorem Quiet.finishCopy (h : Quiet a e) {l : Fin 2} {run : LaneRun} {d : Descriptor} {c : Clip} {r : CardRecord} :
    Quiet a (e.finishCopy g l run d c r) := by
  have finished : ∀ x, Quiet a x → Quiet a (let e := x.dropDescriptor d.slot
      let e := if r.verifyMode = .readback ∧ run.abortMark = false then
          run.writtenTargets.foldl (fun e v => e.queueVerify d.card c.handle v d.generation) e
        else e
      let e := if run.writtenTargets = [] then e else e.signal (Event.ofClip .clipCopied d.card c.handle)
      (e.settleRemoval d).releaseLane l) := fun x hx => by
    have queued := (hx.dropDescriptor (d := d.slot)).foldl (f := fun e v => e.queueVerify d.card c.handle v d.generation)
      (fun _ _ h => h.queueVerify) run.writtenTargets
    have copied := queued.ite (p := r.verifyMode = .readback ∧ run.abortMark = false) (hx.dropDescriptor (d := d.slot))
    exact (copied.ite copied.signal).settleRemoval.releaseLane
  unfold Engine.finishCopy
  cases d.sourceVolume with
  | some v => exact finished _ (h.ite h.raiseFault)
  | none => exact finished _ h

theorem Quiet.targetClosed (h : Quiet a e) {l : Fin 2} {run : LaneRun} {d : Descriptor} {r : CardRecord} {x : Handle}
    {v : Fin 16} : Quiet a (e.targetClosed g l run d r x v) :=
  .ite h.setTarget.changeCopyOther h.setTarget.changeCopyOther.raiseFault

/-- A clip without a VERIFIED copy, or with the digest that its VERIFIED copies have, takes that source digest. -/
theorem Clip.copiesLegal_settled {c : Clip} {x : Word64} (hc : c.copiesLegal = true)
    (hd : c.sourceDigest = some x ∨ c.sourceDigest = none) : Clip.copiesLegal { c with sourceDigest := some x } = true := by
  rw [Clip.copiesLegal_iff] at hc ⊢
  refine ⟨hc.1, hc.2.1, fun r hr hs => ?_⟩
  obtain ⟨some_, same⟩ := hc.2.2 r hr hs
  rcases hd with hd | hd <;> rw [hd] at same
  · exact ⟨some_, same⟩
  · rw [same] at some_; cases some_

theorem Quiet.settleDigest (h : Quiet a e) {l : Fin 2} {run : LaneRun} {d : Descriptor} {c : Clip} (hc : a.findsClip e c) :
    Quiet a (e.settleDigest l run d c) := by
  unfold Engine.settleDigest
  dsimp only
  refine Quiet.updateLane ?_
  split
  · next hs =>
    refine h.updateClip (fun _ => rfl) fun hp x hx hl => ?_
    obtain rfl := Option.some.inj ((hc hp).symm.trans hx)
    exact Clip.copiesLegal_settled hl (by simp at hs; rcases hs.2 with k | k; exacts [.inl k, .inr k.2])
  · exact h

theorem Quiet.closeTarget (h : Quiet a e) {l : Fin 2} {d : Descriptor} {t : Target} : Quiet a (Engine.closeTarget g l d e t) := by
  unfold Engine.closeTarget
  split
  · split
    · next he => exact (h.ask he).setTarget
    · exact h.dropTarget
  · exact h

theorem Quiet.closeSource (h : Quiet a e) {l : Fin 2} {run : LaneRun} : Quiet a (e.closeSource l run) := by
  unfold Engine.closeSource
  split
  · split
    · exact (h.askOr h).updateLane
    · exact h
  · exact h

theorem Quiet.completeCopy (h : Quiet a e) {l : Fin 2} {run : LaneRun} {d : Descriptor} {c : Clip} (hc : a.findsClip e c) :
    Quiet a (e.completeCopy g l run d c) :=
  ((h.settleDigest hc).updateLane.foldl (fun _ _ h => h.closeTarget) _).closeSource

/-! ## The blocks of a COPY -/

theorem Quiet.askCard (h : Quiet a e) {l : Fin 2} {p : Fin 4} {i o n : Nat} {e' : Engine} (he : e.askCard g l p i o n = some e') :
    Quiet a e' := by
  unfold Engine.askCard at he
  dsimp only at he
  split at he
  · next hs _ =>
    split at he
    · cases he; exact h.updatePort rfl fun _ => .inr hs
    · cases he
  · cases he

theorem Quiet.askBlock (h : Quiet a e) {l : Fin 2} {run : LaneRun} {d : Descriptor} {c : Clip} {e' : Engine}
    (he : e.askBlock g l run d c = some e') : Quiet a e' := by
  unfold Engine.askBlock at he
  dsimp only at he
  split at he
  · split at he
    · exact h.ask he
    · cases he
  · split at he
    · exact h.askCard he
    · cases he

/-- A lane reads its next block, or does without. -/
theorem Quiet.askBlockOr (h : Quiet a e) {x : Engine} (hx : Quiet a x) {l : Fin 2} {run : LaneRun} {d : Descriptor} {c : Clip} :
    Quiet a ((e.askBlock g l run d c).getD x) := by
  cases he : e.askBlock g l run d c with
  | none => exact hx
  | some y => exact h.askBlock he

theorem Quiet.readBlock (h : Quiet a e) {l : Fin 2} {run : LaneRun} {d : Descriptor} {c : Clip} :
    Quiet a (e.readBlock g l run d c) := h.updateLane.askBlockOr h.updateLane.stopCopy

theorem Quiet.completeBlock (h : Quiet a e) {l : Fin 2} {run : LaneRun} {d : Descriptor} {c : Clip} (hc : a.findsClip e c) :
    Quiet a (e.completeBlock g l run d c) :=
  .ite h.updateDescriptor.stopCopy (.ite h.updateDescriptor.readBlock (h.updateDescriptor.completeCopy (hc.congr rfl)))

theorem Quiet.beginBlocks (h : Quiet a e) {l : Fin 2} {run : LaneRun} {d : Descriptor} {c : Clip} (hc : a.findsClip e c) :
    Quiet a (e.beginBlocks g l run d c) :=
  .ite h.stopCopy (.ite (h.completeCopy hc) h.readBlock)

theorem Quiet.settleClosing (h : Quiet a e) {l : Fin 2} : Quiet a (e.settleClosing g l) := by
  unfold Engine.settleClosing
  split
  · split
    · exact .ite h.finishCopy h
    · exact h
  · exact h

theorem Quiet.advanceCopy (h : Quiet a e) {l : Fin 2} : Quiet a (e.advanceCopy g l) := by
  unfold Engine.advanceCopy
  split
  · split
    · next hc =>
      have found := h.findsClipOf (Engine.clipAndCard_clip hc)
      refine .ite h.settleClosing (.ite h.stopCopy (.ite h ?_))
      split
      · exact (h.beginBlocks found).settleClosing
      · exact (h.completeBlock found).settleClosing
      · exact h
    · exact h
  · exact h

theorem Quiet.appendTo (h : Quiet a e) {l : Fin 2} {d : Descriptor} {bs : List Byte} {t : Target} :
    Quiet a (Engine.appendTo g l d bs e t) := by
  unfold Engine.appendTo
  split
  · split
    · next he => exact (h.ask he).setTarget
    · exact h.dropTarget
  · exact h

theorem Quiet.copyBlock (h : Quiet a e) {l : Fin 2} {bs : List Byte} : Quiet a (e.copyBlock g l bs) := by
  unfold Engine.copyBlock
  split
  · split
    · exact ((h.updateLane.feedParser.ite h.updateLane).foldl (fun _ _ h => h.appendTo) _).advanceCopy
    · exact h
  · exact h

/-! ## VERIFY and MANIFEST -/

theorem Quiet.failVerify (h : Quiet a e) {l : Fin 2} {d : Descriptor} : Quiet a (e.failVerify g l d) := by
  unfold Engine.failVerify
  split
  · exact h.setCopyState.signal.raiseFault.endDescriptor
  · exact h

theorem Quiet.compareVerify (h : Quiet a e) {l : Fin 2} {run : LaneRun} {d : Descriptor} {c : Clip} (hc : a.findsClip e c) :
    Quiet a (e.compareVerify g l run d c) := by
  unfold Engine.compareVerify
  split
  · next v _ _ =>
    have verified : ∀ x, c.sourceDigest = some x →
        Quiet a (e.updateCopy c.handle v (fun r => { r with state := .verified, verifyDigest := some x })) := by
      refine fun x hd => h.updateCopy (fun _ => rfl) fun hp y hy r _ => ?_
      obtain rfl := Option.some.inj ((hc hp).symm.trans hy)
      exact ⟨rfl, hd.symm⟩
    dsimp only
    generalize digestOf run.crcHigh run.crcLow = read
    refine Quiet.endDescriptor ?_
    split
    · next hd => exact (verified read hd).recomputeCopyState.signal.clearMismatch
    · exact h.changeCopyOther.raiseFault
  · exact h

/-- A CLOSE sent to a source leaves the clip slots. -/
theorem Engine.closeSource_clips (e : Engine) (l : Fin 2) (run : LaneRun) : (e.closeSource l run).clips = e.clips := by
  have asked : ∀ p who r, ((e.ask p who r).getD e).clips = e.clips := by
    intro p who r
    unfold Engine.ask
    split <;> rfl
  unfold Engine.closeSource
  split
  · split
    · simp [asked]
    · rfl
  · rfl

theorem Quiet.closeVerify (h : Quiet a e) {l : Fin 2} {run : LaneRun} {d : Descriptor} {c : Clip} (hc : a.findsClip e c) :
    Quiet a (e.closeVerify g l run d c) := by
  unfold Engine.closeVerify
  dsimp only
  split
  · exact .ite h.updateLane.closeSource (h.updateLane.closeSource.compareVerify (hc.congr (by simp [Engine.closeSource_clips])))
  · exact h.updateLane.closeSource

theorem Quiet.verifyNext (h : Quiet a e) {l : Fin 2} {run : LaneRun} {d : Descriptor} {c : Clip} (hc : a.findsClip e c) :
    Quiet a (e.verifyNext g l run d c) :=
  .ite (h.updateLane.askBlockOr h.updateLane.failVerify) (h.closeVerify hc)

theorem Quiet.verifyReply (h : Quiet a e) {l : Fin 2} {run : LaneRun} {d : Descriptor} {c : Clip} {r : Reply}
    (hc : a.findsClip e c) : Quiet a (e.verifyReply g l run d c r) := by
  unfold Engine.verifyReply
  split
  · exact .ite (h.updateLane.verifyNext hc.congr) h.failVerify
  · exact h.updateLane.updateDescriptor.verifyNext hc.congr
  · exact h.compareVerify hc
  · exact h.failVerify

theorem Quiet.failManifest (h : Quiet a e) {l : Fin 2} {d : Descriptor} : Quiet a (e.failManifest l d) := by
  unfold Engine.failManifest
  split
  · exact h.signal.endDescriptor
  · exact h

theorem Quiet.askManifest (h : Quiet a e) {l : Fin 2} {d : Descriptor} {p : Fin 4} {ph : LanePhase} {r : OpRequest} :
    Quiet a (e.askManifest l d p ph r) := h.updateLane.askOr h.failManifest

theorem Quiet.manifestReply (h : Quiet a e) {l : Fin 2} {run : LaneRun} {d : Descriptor} {r : Reply} :
    Quiet a (e.manifestReply l run d r) := by
  unfold Engine.manifestReply
  split
  · cases run.phase with
    | opening =>
      cases r with
      | handle w => exact h.setTarget.askManifest
      | _ => exact h.failManifest
    | appending =>
      cases r with
      | ok =>
        dsimp only
        split
        · exact h.askManifest
        · exact h.failManifest
      | _ => exact h.failManifest
    | closing =>
      cases r with
      | ok => exact h.updateDescriptor.endDescriptor
      | _ => exact h.failManifest
    | reading => exact h.failManifest
  · exact h

/-! ## Starts -/

theorem Quiet.openTarget (h : Quiet a e) {l : Fin 2} {d : Descriptor} {t : Text} {v : Fin 16} :
    Quiet a (Engine.openTarget g l d t e v) := by
  unfold Engine.openTarget
  split
  · split
    · next he => exact (h.ask he).updateLane
    · exact h.copyFails
  · exact h.copyFails

/-- A source is opened, or the lane does without. -/
theorem Quiet.openSourceOr (h : Quiet a e) {x : Engine} (hx : Quiet a x) {l : Fin 2} {t : Text} {v : Fin 16} :
    Quiet a ((e.openSource l t v).getD x) := by
  cases he : e.openSource l t v with
  | none => exact hx
  | some y =>
    unfold Engine.openSource at he
    split at he
    · obtain ⟨z, hz, rfl⟩ := Option.map_eq_some_iff.mp he
      exact (h.ask hz).updateLane
    · cases he

theorem Quiet.startCopy (h : Quiet a e) {l : Fin 2} {d : Descriptor} {c : Clip} {r : CardRecord} :
    Quiet a (e.startCopy g l d c r) := by
  have opened := (h.updateLane (l := l) (f := fun x => { x with lastPassed := decide (c.byteLength = 0) })).foldl
    (f := Engine.openTarget g l d (c.copyName r)) (fun _ _ h => h.openTarget) d.targets
  have begun := (opened.startParse (g := g) (l := l) (c := c)).ite (p := d.source = some .card) opened
  unfold Engine.startCopy
  dsimp only
  split
  · refine .ite begun.stopCopy ?_
    split
    · exact begun.openSourceOr begun.stopCopy
    · exact begun
  · exact begun

theorem Quiet.startVerify (h : Quiet a e) {l : Fin 2} {d : Descriptor} {c : Clip} {r : CardRecord} :
    Quiet a (e.startVerify g l d c r) := by
  unfold Engine.startVerify
  split
  · exact h.setCopyState.openSourceOr h.setCopyState.failVerify
  · exact h

theorem Quiet.startManifest (h : Quiet a e) {l : Fin 2} {d : Descriptor} {r : CardRecord} : Quiet a (e.startManifest l d r) := by
  unfold Engine.startManifest
  split
  · split
    · exact .ite h.updateLane.askManifest h.failManifest
    · exact h.failManifest
  · exact h

theorem Quiet.startDescriptor (h : Quiet a e) {l : Fin 2} {d : Descriptor} : Quiet a (e.startDescriptor g l d) := by
  have running : ∀ (d' : Descriptor) (x : Lane), Quiet a { e.updateDescriptor d'.slot (fun _ => d') with lanes := e.lanes.set l x } :=
    fun _ _ => h.frame rfl
  have started := running { d with state := .running } (.running (LaneRun.start d.slot))
  unfold Engine.startDescriptor
  dsimp only
  split
  · exact started.startManifest
  · split
    · exact started.startCopy
    · exact started.endDescriptor
  · split
    · exact started.startVerify
    · exact started.endDescriptor
  · exact started.endDescriptor

theorem Quiet.grantLanes {n : Nat} (h : Quiet a e) : Quiet a (Engine.grantLanes g n e) := by
  induction n generalizing e with
  | zero => exact h
  | succ n ih =>
    unfold Engine.grantLanes
    split
    · exact ih h.startDescriptor
    · exact h

theorem Quiet.settleTransfer (h : Quiet a e) : Quiet a (e.settleTransfer g) := h.grantLanes.settleRender

/-! ## Answers and losses -/

theorem Quiet.targetReply (h : Quiet a e) {l : Fin 2} {run : LaneRun} {d : Descriptor} {t : Target} {r : Reply} :
    Quiet a (e.targetReply g l run d t r) := by
  unfold Engine.targetReply
  cases t.status with
  | opening =>
    cases r with
    | handle w => exact h.setTarget
    | _ => exact h.dropTarget
  | appending w =>
    cases r with
    | ok => exact h.setTarget
    | _ => exact h.dropTarget
  | closing =>
    cases r with
    | ok =>
      dsimp only
      split
      · exact h.targetClosed
      · exact h
    | _ => exact h.dropTarget
  | _ => cases r <;> exact h.dropTarget

theorem Quiet.sourceReply (h : Quiet a e) {l : Fin 2} {s : VolumeSource} {c : Clip} {r : Reply} :
    Quiet a (e.sourceReply g l s c r) := by
  unfold Engine.sourceReply
  split
  · exact .ite h.updateLane.advanceCopy h.stopCopy
  · exact h.copyBlock
  · exact h.updateLane.advanceCopy
  · exact h
  · exact h.stopCopy

theorem Quiet.copyReply (h : Quiet a e) {l : Fin 2} {run : LaneRun} {d : Descriptor} {c : Clip} {p : Fin 4} {r : Reply} :
    Quiet a (e.copyReply g l run d c p r) := by
  unfold Engine.copyReply
  split
  · exact h.targetReply.advanceCopy
  · split
    · exact .ite h.sourceReply h
    · exact h

theorem Quiet.laneReply (h : Quiet a e) {l : Fin 2} {p : Fin 4} {r : Reply} : Quiet a (e.laneReply g l p r) := by
  unfold Engine.laneReply
  split
  · split
    · exact h.manifestReply
    · exact h.copyReply
    · next hc => exact h.verifyReply (h.findsClipOf hc)
    · exact h
  · exact h

theorem Quiet.laneLoses (h : Quiet a e) {p : Fin 4} {l : Fin 2} : Quiet a (Engine.laneLoses g p e l) := by
  unfold Engine.laneLoses
  split
  · split
    · exact .ite h.failManifest h
    · exact h.copyReply
    · next hc => exact .ite (h.verifyReply (h.findsClipOf hc)) h
    · exact h
  · exact h

theorem Quiet.cardLost (h : Quiet a e) {l : Fin 2} : Quiet a (e.cardLost g l) := h.stopCopy

theorem Quiet.detachLanes (h : Quiet a e) {c : Fin 32} : Quiet a (Engine.detachLanes g c e) := by
  refine h.foldl (fun e l h => ?_) _
  split
  · exact .ite h.cardLost h
  · exact h

/-! ## The requesters of a destination port -/

theorem Quiet.settleRequester (h : Quiet a e) {who : Requester} : Quiet a (e.settleRequester who) := by
  cases who with
  | lane l => exact h.settleLane
  | context c => exact h.settleContext

theorem Quiet.requesterLoses (h : Quiet a e) {p : Fin 4} {who : Requester} : Quiet a (Engine.requesterLoses g p e who) := by
  cases who with
  | lane l => exact h.laneLoses
  | context c => exact h.contextLoses

theorem Quiet.requesterReply (h : Quiet a e) {p : Fin 4} {who : Requester} {r : Reply} : Quiet a (e.requesterReply g p who r) := by
  cases who with
  | lane l => exact h.laneReply
  | context c => exact h.contextReply

theorem Quiet.operationEnds (h : Quiet a e) {p : Fin 4} {op : Operation} {r : Reply} : Quiet a (e.operationEnds g p op r) := by
  have ended : Quiet a ((e.noteFull p r).updateDest p DestPort.endOperation) := h.noteFull.updateDest DestPort.endOperation_state
  exact (ended.settleRequester.ite ended.requesterReply).settleTransfer

theorem Quiet.operationAnswered (h : Quiet a e) {p : Fin 4} {f : OpRequest → Option Reply} :
    Quiet a (e.operationAnswered g p f) := by
  unfold Engine.operationAnswered
  split
  · split
    · exact h.operationEnds
    · exact h
  · exact h

/-! ## Holds, aborts and releases -/

theorem Quiet.holdForAbsence (h : Quiet a e) {c : Fin 32} : Quiet a (e.holdForAbsence c) := .ite h.changeHolds h

theorem Quiet.holdCard (h : Quiet a e) {n : Nat} {x : Engine} (he : e.holdCard n = .ok x) : Quiet a x := by
  unfold Engine.holdCard at he
  repeat' split at he
  all_goals cases he
  exact h.changeHolds

theorem Quiet.abortWaiting (h : Quiet a e) {d : Descriptor} : Quiet a (e.abortWaiting d) := by
  unfold Engine.abortWaiting
  dsimp only
  split
  · exact (h.foldl (fun _ _ h => h.updateCopyOther) _).dropDescriptor.settleRemoval
  · exact h.dropDescriptor.settleRemoval

theorem Quiet.markAbort (h : Quiet a e) {c : Fin 32} {l : Fin 2} : Quiet a (Engine.markAbort c e l) := by
  unfold Engine.markAbort
  split
  · exact .ite h.updateLane h
  · exact h

theorem Quiet.abortCard (h : Quiet a e) {n : Nat} {x : Engine} (he : e.abortCard g n = .ok x) : Quiet a x := by
  unfold Engine.abortCard at he
  cases hk : e.checkCard n with
  | error y => rw [hk] at he; cases he
  | ok cr =>
    obtain ⟨c, r⟩ := cr
    rw [hk] at he
    dsimp only at he
    by_cases hw : r.state.workable = true
    · rw [if_pos hw] at he
      rw [← Except.ok.inj he]
      exact ((h.foldl (fun _ _ h => h.abortWaiting) _).foldl (fun _ _ h => h.markAbort) _).changeHolds.settleTransfer
    · rw [if_neg hw] at he
      cases he

theorem Quiet.queueManifest (h : Quiet a e) {c : Fin 32} {v : Fin 16} : Quiet a (Engine.queueManifest c e v) := h.addDescriptor

/-- The release of a card that does not wait for space. -/
theorem Quiet.release (h : Quiet a e) {c : Fin 32} {vs : List (Fin 16)} (hc : ∀ r, e.cards[c] = some r → r.state ≠ .waitSpace) :
    Quiet a (e.release g c vs) :=
  ((h.setCardState (by decide) hc).lowerFaults.foldl (fun _ _ h => h.queueManifest) _).settleRelease.settleTransfer

/-- A card slot that passes the check of R1 holds the record. -/
theorem Engine.checkCard_ok {n : Nat} {c : Fin 32} {r : CardRecord} (h : e.checkCard n = .ok (c, r)) : e.cards[c] = some r := by
  unfold Engine.checkCard at h
  split at h
  · split at h
    · next hr => cases h; exact hr
    · cases h
  · cases h

theorem Quiet.releaseCard (h : Quiet a e) {n : Nat} {x : Nat × Engine} (he : e.releaseCard g n = .ok x) : Quiet a x.2 := by
  unfold Engine.releaseCard at he
  split at he
  · cases he
  · next c r hr =>
    split at he
    · next hs _ =>
      dsimp only at he
      repeat' split at he
      all_goals cases he
      refine h.release fun y hy => ?_
      obtain rfl := Option.some.inj ((Engine.checkCard_ok hr).symm.trans hy)
      rw [hs]; decide
    · cases he

end Sys2Proof.Machine
end

