-- ==== Sys2Proof/Proofs/VolumeTable.lean ====
section
/-!
SUPPORT. Keeping the four invariants of O41, change after change; and the changes of the Volume Table that are not quiet: placement (R65,
R67) and the freeing of entries (R66).
-/

namespace Sys2Proof.Machine

/-! ## Keeping the invariants -/

/-- What O41 asks of a change: each invariant that held holds after it, the last one given the two before it. -/
structure Keeps (a b : Engine) : Prop where
  cards : CardsOk a → CardsOk b
  clips : ClipsOk a → ClipsOk b
  volumes : VolumesOk a → VolumesOk b
  used : ClipsOk a → VolumesOk a → (∀ v, a.usedAt v) → ∀ v, b.usedAt v

theorem Keeps.refl (a : Engine) : Keeps a a := ⟨id, id, id, fun _ _ => id⟩

theorem Keeps.trans {a b c : Engine} (h : Keeps a b) (k : Keeps b c) : Keeps a c :=
  ⟨k.cards ∘ h.cards, k.clips ∘ h.clips, k.volumes ∘ h.volumes, fun x y z => k.used (h.clips x) (h.volumes y) (h.used x y z)⟩

/-! ## Quiet changes keep them -/

theorem CardsQuiet.standing {a b : Engine} (q : CardsQuiet a b) {c : Fin 32} {r : CardRecord} (hr : b.cards[c] = some r) :
    ∃ s, a.cards[c] = some s ∧ r.identity = s.identity ∧ r.attached = s.attached ∧ (r.state = .waitSpace ↔ s.state = .waitSpace) ∧
      r.pendingDir.isSome = s.pendingDir.isSome := by
  obtain ⟨s, hs, hk⟩ := exists_of_map_eq (q.cards c) hr
  simp only [CardRecord.standing, Prod.mk.injEq, decide_eq_decide] at hk
  exact ⟨s, hs, hk.1.symm, hk.2.1.symm, hk.2.2.1.symm, hk.2.2.2.symm⟩

/-- Read backwards: a record that stood still stands. -/
theorem CardsQuiet.symm_cards {a b : Engine} (q : CardsQuiet a b) {c : Fin 32} {s : CardRecord} (hs : a.cards[c] = some s) :
    ∃ r, b.cards[c] = some r ∧ r.identity = s.identity ∧ r.attached = s.attached ∧ (r.state = .waitSpace ↔ s.state = .waitSpace) := by
  obtain ⟨r, hr, -⟩ := exists_of_map_eq (q.cards c).symm hs
  obtain ⟨s', hs', hi, ha, hw, -⟩ := q.standing hr
  obtain rfl := Option.some.inj (hs.symm.trans hs')
  exact ⟨r, hr, hi, ha, hw⟩

theorem CardsQuiet.ok {a b : Engine} (q : CardsQuiet a b) (h : CardsOk a) : CardsOk b where
  identity c d r s hr hs he := by
    obtain ⟨r', hr', ir, -⟩ := q.standing hr
    obtain ⟨s', hs', is, -⟩ := q.standing hs
    exact h.identity c d r' s' hr' hs' (by rw [← ir, ← is, he])
  attached c d r s p hr hs hp hp' := by
    obtain ⟨r', hr', -, ar, -⟩ := q.standing hr
    obtain ⟨s', hs', -, as, -⟩ := q.standing hs
    exact h.attached c d r' s' p hr' hs' (by rw [← ar, hp]) (by rw [← as, hp'])
  ported c r p hr hp := by
    obtain ⟨r', hr', -, ar, -⟩ := q.standing hr
    rw [q.state p]
    exact h.ported c r' p hr' (by rw [← ar, hp])
  reading p hp := by
    rw [q.state p]
    exact (q.read p hp).elim (h.reading p) id
  noRecordNodup := q.noRecord ▸ h.noRecordNodup
  noRecord p hp := by
    rw [q.state p]
    exact h.noRecord p (q.noRecord ▸ hp)
  waitNodup := q.waitList ▸ h.waitNodup
  waits c := by
    rw [q.waitList, h.waits c]
    constructor
    · rintro ⟨s, hs, hw⟩
      obtain ⟨r, hr, -, -, hk⟩ := q.symm_cards hs
      exact ⟨r, hr, hk.mpr hw⟩
    · rintro ⟨r, hr, hw⟩
      obtain ⟨s, hs, -, -, hk, -⟩ := q.standing hr
      exact ⟨s, hs, hk.mp hw⟩
  pending c r hr := by
    obtain ⟨s, hs, -, -, hk, hp⟩ := q.standing hr
    rw [hp, hk]
    exact h.pending c s hs

theorem ClipsQuiet.standing {a b : Engine} (q : ClipsQuiet a b) {i : Fin 512} {c : Clip} (hc : b.clipIn i = some c) :
    ∃ d, a.clipIn i = some d ∧ d.handle = c.handle ∧ d.card = c.card ∧ d.copies.map (·.volume) = c.copies.map (·.volume) := by
  obtain ⟨d, hd, hk⟩ := exists_of_map_eq (q.clips i) hc
  simp only [Clip.standing, Prod.mk.injEq] at hk
  exact ⟨d, hd, hk.1, hk.2.1, hk.2.2⟩

theorem ClipsQuiet.symm_clips {a b : Engine} (q : ClipsQuiet a b) {i : Fin 512} {d : Clip} (hd : a.clipIn i = some d) :
    ∃ c, b.clipIn i = some c ∧ d.handle = c.handle ∧ d.card = c.card ∧ d.copies.map (·.volume) = c.copies.map (·.volume) := by
  obtain ⟨c, hc, -⟩ := exists_of_map_eq (q.clips i).symm hd
  obtain ⟨d', hd', hk⟩ := q.standing hc
  obtain rfl := Option.some.inj (hd.symm.trans hd')
  exact ⟨c, hc, hk⟩

theorem ClipsOk.wellPlaced {a : Engine} (h : ClipsOk a) : a.clipsWellPlaced = true := (a.clipsWellPlaced_iff).mpr h.placed

theorem ClipsQuiet.ok {a b : Engine} (q : ClipsQuiet a b) (h : ClipsOk a) : ClipsOk b where
  placed := (b.clipsWellPlaced_iff).mp (q.wellPlaced h.wellPlaced)
  copies := q.copies h.wellPlaced h.copies
  listed i c hc := by
    obtain ⟨d, hd, hh, hk, -⟩ := q.standing hc
    obtain ⟨s, hs, hm⟩ := h.listed i d hd
    simp only [hk] at hs
    obtain ⟨r, hr, hl⟩ := exists_of_map_eq (q.lists c.card).symm hs
    exact ⟨r, hr, by rw [hl, ← hh]; exact hm⟩
  nodup k r hr := by
    obtain ⟨s, hs, hl⟩ := exists_of_map_eq (q.lists k) hr
    exact hl ▸ h.nodup k s hs
  current k r hr x hx := by
    obtain ⟨s, hs, hl⟩ := exists_of_map_eq (q.lists k) hr
    obtain ⟨d, hd, hk⟩ := h.current k s hs x (hl ▸ hx)
    obtain ⟨hg, hi⟩ := Engine.clipAt_eq_some.mp hd
    obtain ⟨c, hc, -, hcard, -⟩ := q.symm_clips hi
    exact ⟨c, Engine.clipAt_eq_some.mpr ⟨(q.gens x.slot).trans hg, hc⟩, hcard.symm.trans hk⟩

/-- The reference count of an entry, summed over the clip slots (R66). -/
theorem Engine.refCount_eq (e : Engine) (v : Fin 16) :
    e.refCount v = ((List.finRange 512).map (fun i => (((e.clipIn i).map (fun c => (c.copies.map (·.volume)).count v)).getD 0))).sum := by
  have count : ∀ c : Clip, (c.copies.filter (fun r => decide (r.volume = v))).length = (c.copies.map (·.volume)).count v := by
    intro c
    rw [List.count, List.countP_map, List.countP_eq_length_filter]
    congr 1
  have sum : ∀ xs : List ClipSlot, ((xs.filterMap (·.clip)).map
      (fun c => (c.copies.filter (fun r => decide (r.volume = v))).length)).sum =
      (xs.map (fun x => ((x.clip.map (fun c => (c.copies.map (·.volume)).count v)).getD 0))).sum := by
    intro xs
    induction xs with
    | nil => rfl
    | cons x xs ih => cases hx : x.clip <;> simp_all
  have slots : e.clips.toList = (List.finRange 512).map (fun i => e.clips[i]) := by
    exact List.ext_getElem (by simp) (by simp)
  simp only [Engine.refCount, Engine.allClips, sum, slots, List.map_map, Function.comp_def]

theorem ClipsQuiet.refCount {a b : Engine} (q : ClipsQuiet a b) (v : Fin 16) : b.refCount v = a.refCount v := by
  rw [Engine.refCount_eq, Engine.refCount_eq]
  refine congrArg List.sum (List.map_congr_left fun i _ => ?_)
  cases hc : b.clipIn i with
  | some c =>
    obtain ⟨d, hd, -, -, hv⟩ := q.standing hc
    simp [hd, hv]
  | none =>
    cases hd : a.clipIn i with
    | none => rfl
    | some d =>
      obtain ⟨c, hc', -⟩ := q.symm_clips hd
      rw [hc] at hc'; cases hc'

theorem VolumesQuiet.portOf {a b : Engine} (q : VolumesQuiet a b) (v : Fin 16) : b.portOf v = a.portOf v := by
  have := congrArg (fun x => x.bind Prod.snd) (q.entries v)
  simpa [Engine.portOf, Option.bind_map, Function.comp_def, VolumeEntry.standing] using this

theorem VolumesQuiet.ok {a b : Engine} (q : VolumesQuiet a b) (h : VolumesOk a) : VolumesOk b where
  serial v w x y hx hy he := by
    obtain ⟨x', hx', kx⟩ := exists_of_map_eq (q.entries v) hx
    obtain ⟨y', hy', ky⟩ := exists_of_map_eq (q.entries w) hy
    simp only [VolumeEntry.standing, Prod.mk.injEq] at kx ky
    exact h.serial v w x' y' hx' hy' (by rw [kx.1, ky.1, he])
  inserted v w x y p hx hy hp hp' := by
    obtain ⟨x', hx', kx⟩ := exists_of_map_eq (q.entries v) hx
    obtain ⟨y', hy', ky⟩ := exists_of_map_eq (q.entries w) hy
    simp only [VolumeEntry.standing, Prod.mk.injEq] at kx ky
    exact h.inserted v w x' y' p hx' hy' (by rw [kx.2, hp]) (by rw [ky.2, hp'])
  untrackedNodup := q.untracked ▸ h.untrackedNodup
  online p := by
    rw [q.state p, ← h.online p]
    simp only [q.portOf]
  untracked p := by rw [q.untracked, q.state p]; exact h.untracked p

theorem Engine.usedAt.quiet {a b : Engine} (q : VolumesQuiet a b) (hr : ∀ v, b.refCount v = a.refCount v) {v : Fin 16}
    (h : a.usedAt v) : b.usedAt v := by
  have hs : (b.volumes[v]).isSome = (a.volumes[v]).isSome := by
    simpa using congrArg Option.isSome (q.entries v)
  unfold Engine.usedAt at h ⊢
  rw [hs, q.portOf, hr]
  exact h

/-- A quiet change keeps the invariants. -/
theorem Quiet.keeps {a b : Engine} (q : Quiet a b) : Keeps a b :=
  ⟨q.cards.ok, q.clips.ok, q.volumes.ok, fun _ _ h v => (h v).quiet q.volumes q.clips.refCount⟩

theorem Keeps.quiet {a b c : Engine} (h : Keeps a b) (q : Quiet b c) : Keeps a c := h.trans q.keeps

/-- A fold of changes that keep the invariants keeps them. -/
theorem Keeps.foldl {α : Type} {a e : Engine} {f : Engine → α → Engine} (hf : ∀ e x, Keeps a e → Keeps a (f e x)) (xs : List α)
    (h : Keeps a e) : Keeps a (xs.foldl f e) := by
  induction xs generalizing e with
  | nil => exact h
  | cons x xs ih => exact ih (hf e x h)

/-! ## Changes of the Volume Table alone -/

/-- The change leaves everything but the Volume Table, the destination ports, the untracked list and the events. -/
def Engine.volumesMove (a b : Engine) : Prop :=
  b = { a with volumes := b.volumes, destPorts := b.destPorts, untracked := b.untracked, events := b.events }

theorem Engine.volumesMove.refl (a : Engine) : a.volumesMove a := rfl

theorem Engine.volumesMove.trans {a b c : Engine} (h : a.volumesMove b) (k : b.volumesMove c) : a.volumesMove c := by
  unfold Engine.volumesMove at *
  rw [k, h]

theorem Engine.volumesMove.cards {a b : Engine} (h : a.volumesMove b) : b.cards = a.cards := by rw [h]
theorem Engine.volumesMove.clips {a b : Engine} (h : a.volumesMove b) : b.clips = a.clips := by rw [h]

theorem Engine.volumesMove.cardsQuiet {a b : Engine} (h : a.volumesMove b) : CardsQuiet a b := by
  rw [h]; exact .of_eq rfl rfl rfl rfl

theorem Engine.volumesMove.clipsQuiet {a b : Engine} (h : a.volumesMove b) : ClipsQuiet a b := .of_eq h.cards h.clips

theorem Engine.volumesMove.foldl {α : Type} {f : Engine → α → Engine} (hf : ∀ (e : Engine) (x : α), e.volumesMove (f e x)) (xs : List α) (e : Engine) :
    e.volumesMove (xs.foldl f e) := by
  induction xs generalizing e with
  | nil => exact .refl e
  | cons x xs ih => exact (hf e x).trans (ih _)

theorem Engine.place_move (e : Engine) (p : Fin 4) (s : Word64) (l : Text) : e.volumesMove (e.place p s l) := by
  unfold Engine.place
  repeat' split
  all_goals rfl

theorem Engine.replaceHead_move (e : Engine) (p : Fin 4) : e.volumesMove (e.replaceHead p) := by
  have erased : e.volumesMove { e with untracked := e.untracked.erase p } := rfl
  unfold Engine.replaceHead
  dsimp only
  split
  · exact erased.trans (Engine.place_move _ _ _ _)
  · exact erased

theorem Engine.reevaluateUntracked_move (e : Engine) : e.volumesMove e.reevaluateUntracked :=
  .foldl Engine.replaceHead_move _ e

theorem Engine.freeIfUnused_move (e : Engine) (v : Fin 16) : e.volumesMove (e.freeIfUnused v).1 := by
  unfold Engine.freeIfUnused
  repeat' split
  all_goals rfl

theorem Engine.settleEntry_move (e : Engine) (v : Fin 16) : e.volumesMove (e.settleEntry v) := by
  unfold Engine.settleEntry
  have freed := e.freeIfUnused_move v
  dsimp only
  split
  · exact freed.trans (Engine.reevaluateUntracked_move _)
  · exact freed

/-! ## A port that is being placed -/

/-- The Volume Table and the destination ports agree but for one port, which is nowhere in them. -/
structure VolumesOkBut (e : Engine) (p : Fin 4) : Prop where
  serial : ∀ (v w : Fin 16) x y, e.volumes[v] = some x → e.volumes[w] = some y → x.serial = y.serial → v = w
  inserted : ∀ (v w : Fin 16) x y q, e.volumes[v] = some x → e.volumes[w] = some y → x.inserted = some q → y.inserted = some q →
    v = w
  untrackedNodup : e.untracked.Nodup
  online : ∀ q : Fin 4, q ≠ p → ((∃ v, e.portOf v = some q) ↔ (e.destPorts[q]).state = .online)
  untracked : ∀ q : Fin 4, q ≠ p → (q ∈ e.untracked ↔ ∃ s l, (e.destPorts[q]).state = .untracked s l)
  notInserted : ∀ v, e.portOf v ≠ some p
  notUntracked : p ∉ e.untracked

/-- A port that is neither ONLINE nor UNTRACKED is nowhere in the tables. -/
theorem VolumesOk.but {e : Engine} (h : VolumesOk e) {p : Fin 4} (ho : (e.destPorts[p]).state ≠ .online)
    (hu : ∀ s l, (e.destPorts[p]).state ≠ .untracked s l) : VolumesOkBut e p :=
  ⟨h.serial, h.inserted, h.untrackedNodup, fun q _ => h.online q, fun q _ => h.untracked q,
    fun v hv => ho ((h.online p).mp ⟨v, hv⟩), fun hp => (by obtain ⟨s, l, hs⟩ := (h.untracked p).mp hp; exact hu s l hs)⟩

/-- A port taken off the untracked list. -/
theorem VolumesOk.erased {e : Engine} (h : VolumesOk e) {p : Fin 4} (hp : p ∈ e.untracked) :
    VolumesOkBut { e with untracked := e.untracked.erase p } p where
  serial := h.serial
  inserted := h.inserted
  untrackedNodup := h.untrackedNodup.erase p
  online q _ := h.online q
  untracked q hq := (List.mem_erase_of_ne hq).trans (h.untracked q)
  notInserted v hv := by
    obtain ⟨s, l, hs⟩ := (h.untracked p).mp hp
    rw [(h.online p).mp ⟨v, hv⟩] at hs
    cases hs
  notUntracked := h.untrackedNodup.not_mem_erase

/-- The port takes a state that is neither ONLINE nor UNTRACKED. -/
theorem VolumesOkBut.settled {e : Engine} {p : Fin 4} (h : VolumesOkBut e p) {f : DestPort → DestPort}
    (ho : (f e.destPorts[p]).state ≠ .online) (hu : ∀ s l, (f e.destPorts[p]).state ≠ .untracked s l) : VolumesOk (e.updateDest p f) where
  serial := h.serial
  inserted := h.inserted
  untrackedNodup := h.untrackedNodup
  online q := by
    rw [Engine.updateDest_port]
    by_cases hq : q = p
    · subst hq
      rw [if_pos rfl]
      exact ⟨fun ⟨v, hv⟩ => absurd hv (h.notInserted v), fun k => absurd k ho⟩
    · rw [if_neg hq]
      exact h.online q hq
  untracked q := by
    rw [Engine.updateDest_port]
    by_cases hq : q = p
    · subst hq
      rw [if_pos rfl]
      exact ⟨fun k => absurd k h.notUntracked, fun ⟨s, l, k⟩ => absurd k (hu s l)⟩
    · rw [if_neg hq]
      exact h.untracked q hq

/-- The ports after a volume is left UNTRACKED. -/
theorem Engine.untrack_port (e : Engine) (p : Fin 4) (s : Word64) (l : Text) (q : Fin 4) :
    (e.untrack p s l).destPorts[q] = if q = p then { e.destPorts[q] with state := .untracked s l } else e.destPorts[q] := by
  exact e.updateDest_port p (fun d => { d with state := .untracked s l }) q

theorem VolumesOkBut.untrack {e : Engine} {p : Fin 4} (h : VolumesOkBut e p) (s : Word64) (l : Text) : VolumesOk (e.untrack p s l) where
  serial := h.serial
  inserted := h.inserted
  untrackedNodup := by
    show (e.untracked ++ [p]).Nodup
    rw [List.nodup_append]
    refine ⟨h.untrackedNodup, by simp, ?_⟩
    rintro q hq _ hr rfl
    obtain rfl := List.mem_singleton.mp hr
    exact h.notUntracked hq
  online q := by
    rw [Engine.untrack_port]
    by_cases hq : q = p
    · subst hq
      rw [if_pos rfl]
      exact ⟨fun ⟨v, hv⟩ => absurd hv (h.notInserted v), nofun⟩
    · rw [if_neg hq]
      exact h.online q hq
  untracked q := by
    show q ∈ e.untracked ++ [p] ↔ _
    rw [Engine.untrack_port]
    by_cases hq : q = p
    · subst hq
      simp
    · rw [if_neg hq]
      simpa [hq] using h.untracked q hq

/-- The entries after a volume goes online. -/
theorem Engine.online_entry (e : Engine) (p : Fin 4) (v : Fin 16) (s : Word64) (l : Text) (w : Fin 16) :
    (e.online p v s l).volumes[w] = if w = v then some ⟨s, l, some p, false⟩ else e.volumes[w] := by
  show (e.volumes.set v _)[w] = _
  by_cases hw : w = v
  · subst hw; simp
  · simp [Fin.val_inj, Ne.symm hw, hw]

/-- The ports after a volume goes online. -/
theorem Engine.online_port (e : Engine) (p : Fin 4) (v : Fin 16) (s : Word64) (l : Text) (q : Fin 4) :
    (e.online p v s l).destPorts[q] = if q = p then { e.destPorts[q] with state := .online } else e.destPorts[q] := by
  exact e.updateDest_port p (fun d => { d with state := .online }) q

/-- A volume goes online in an entry that is not inserted, which has its serial or is the only one to have it. -/
theorem VolumesOkBut.goOnline {e : Engine} {p : Fin 4} (h : VolumesOkBut e p) {v : Fin 16} {s : Word64} (l : Text)
    (hs : ∀ (w : Fin 16) x, e.volumes[w] = some x → x.serial = s → w = v) (hv : e.portOf v = none) : VolumesOk (e.online p v s l) := by
  have entry := e.online_entry p v s l
  have port : ∀ w, (e.online p v s l).portOf w = if w = v then some p else e.portOf w := by
    intro w
    unfold Engine.portOf
    rw [entry w]
    split <;> rfl
  have state : ∀ q : Fin 4, ((e.online p v s l).destPorts[q]).state = if q = p then .online else (e.destPorts[q]).state := by
    intro q
    rw [Engine.online_port]
    split <;> rfl
  refine ⟨fun w u x y hx hy he => ?_, fun w u x y q hx hy hq hq' => ?_, h.untrackedNodup, fun q => ?_, fun q => ?_⟩
  · rw [entry] at hx hy
    split at hx <;> split at hy
    · next h1 h2 => rw [h1, h2]
    · next h1 _ => cases hx; exact h1.trans (hs u y hy he.symm).symm
    · next _ h2 => cases hy; exact (hs w x hx he).trans h2.symm
    · exact h.serial w u x y hx hy he
  · have hw := Engine.portOf_eq_some.mpr ⟨x, hx, hq⟩
    have hu := Engine.portOf_eq_some.mpr ⟨y, hy, hq'⟩
    rw [port] at hw hu
    split at hw <;> split at hu
    · next h1 h2 => rw [h1, h2]
    · cases hw; exact absurd hu (h.notInserted u)
    · cases hu; exact absurd hw (h.notInserted w)
    · obtain ⟨x', hx', hxq⟩ := Engine.portOf_eq_some.mp hw
      obtain ⟨y', hy', hyq⟩ := Engine.portOf_eq_some.mp hu
      exact h.inserted w u x' y' q hx' hy' hxq hyq
  · rw [state q]
    by_cases hq : q = p
    · subst hq
      simp only [if_true, iff_true]
      exact ⟨v, by rw [port, if_pos rfl]⟩
    · rw [if_neg hq, ← h.online q hq]
      refine exists_congr fun w => ?_
      rw [port]
      split
      · next hw => subst hw; rw [hv]; simp [Ne.symm hq]
      · rfl
  · rw [state q]
    show q ∈ e.untracked ↔ _
    by_cases hq : q = p
    · subst hq
      simp [h.notUntracked]
    · rw [if_neg hq]
      exact h.untracked q hq

/-- What a placement does (R65): a volume goes online in an entry that is not inserted, which is its own or else a free one, or it is
left UNTRACKED. -/
theorem Engine.place_cases (e : Engine) (p : Fin 4) (s : Word64) (l : Text) :
    (∃ v : Fin 16, e.portOf v = none ∧
      ((∃ x, e.volumes[v] = some x ∧ x.serial = s) ∨ ∀ (w : Fin 16) x, e.volumes[w] = some x → x.serial ≠ s) ∧
      e.place p s l = e.online p v s l) ∨ e.place p s l = e.untrack p s l := by
  unfold Engine.place
  split
  · next v hv =>
    have own := List.find?_some hv
    rw [decide_eq_true_eq, Option.map_eq_some_iff] at own
    split
    · exact .inr rfl
    · next hp => exact .inl ⟨v, by simpa using hp, .inl own, rfl⟩
  · next hs =>
    split
    · next v hv =>
      refine .inl ⟨v, ?_, .inr fun w x hx hk => ?_, rfl⟩
      · have := List.find?_some hv
        rw [Option.isNone_iff_eq_none] at this
        rw [Engine.portOf, this]; rfl
      · have := List.find?_eq_none.mp hs w (List.mem_finRange w)
        simp [hk, hx] at this
    · exact .inr rfl

theorem VolumesOkBut.place {e : Engine} {p : Fin 4} (h : VolumesOkBut e p) (s : Word64) (l : Text) : VolumesOk (e.place p s l) := by
  obtain ⟨v, hv, own, he⟩ | he := e.place_cases p s l <;> rw [he]
  · refine h.goOnline l (fun w x hx hk => ?_) hv
    obtain ⟨y, hy, hys⟩ | free := own
    · exact h.serial w v x y hx hy (hk.trans hys.symm)
    · exact absurd hk (free w x hx)
  · exact h.untrack s l

/-- A placement leaves the inserted entries inserted, and uses the entry that it takes. -/
theorem Engine.place_portOf (e : Engine) (p : Fin 4) (s : Word64) (l : Text) (w : Fin 16) :
    ((e.place p s l).portOf w = e.portOf w ∧ (e.place p s l).volumes[w] = e.volumes[w]) ∨
      (e.portOf w = none ∧ (e.place p s l).portOf w = some p) := by
  obtain ⟨v, hv, -, he⟩ | he := e.place_cases p s l <;> rw [he]
  · by_cases hw : w = v
    · subst hw
      exact .inr ⟨hv, by rw [Engine.portOf, Engine.online_entry, if_pos rfl]; rfl⟩
    · exact .inl ⟨by rw [Engine.portOf, Engine.online_entry, if_neg hw]; rfl, by rw [Engine.online_entry, if_neg hw]⟩
  · exact .inl ⟨rfl, rfl⟩

theorem Engine.portOf_isSome {e : Engine} {v : Fin 16} (h : (e.portOf v).isSome = true) : (e.volumes[v]).isSome = true := by
  obtain ⟨p, hp⟩ := Option.isSome_iff_exists.mp h
  obtain ⟨x, hx, -⟩ := Engine.portOf_eq_some.mp hp
  rw [hx]; rfl

/-- A placement keeps the use of each entry. -/
theorem Engine.usedAt.place {e : Engine} (p : Fin 4) (s : Word64) (l : Text) {v : Fin 16} (h : e.usedAt v) :
    (e.place p s l).usedAt v := by
  have count : (e.place p s l).refCount v = e.refCount v := (e.place_move p s l).clipsQuiet.refCount v
  unfold Engine.usedAt at h ⊢
  rw [count]
  obtain ⟨hp, hv⟩ | ⟨-, hp⟩ := e.place_portOf p s l v
  · rw [hp, hv]; exact h
  · have : ((e.place p s l).portOf v).isSome = true := by rw [hp]; rfl
    exact ⟨fun _ => .inl this, fun _ => Engine.portOf_isSome this⟩

/-- A placement leaves the other ports. -/
theorem Engine.place_port (e : Engine) (p : Fin 4) (s : Word64) (l : Text) {q : Fin 4} (hq : q ≠ p) :
    (e.place p s l).destPorts[q] = e.destPorts[q] := by
  obtain ⟨v, -, -, he⟩ | he := e.place_cases p s l <;> rw [he]
  · rw [Engine.online_port, if_neg hq]
  · rw [Engine.untrack_port, if_neg hq]

/-! ## The untracked list re-evaluated -/

/-- What the examination of the untracked ports does besides (R67): the inserted entries stay inserted, the entries in use stay in use,
and the ports that are not examined stay as they are. -/
structure Replaced (ps : List (Fin 4)) (a b : Engine) : Prop where
  inserted : ∀ v p, a.portOf v = some p → b.portOf v = some p
  used : ∀ v, a.usedAt v → b.usedAt v
  ports : ∀ q : Fin 4, q ∉ ps → b.destPorts[q] = a.destPorts[q]

theorem Replaced.trans {ps qs : List (Fin 4)} {a b c : Engine} (h : Replaced ps a b) (k : Replaced qs b c) :
    Replaced (ps ++ qs) a c where
  inserted v p hp := k.inserted v p (h.inserted v p hp)
  used v hv := k.used v (h.used v hv)
  ports q hq := by
    rw [List.mem_append, not_or] at hq
    exact (k.ports q hq.2).trans (h.ports q hq.1)

theorem Engine.replaceHead_replaced (e : Engine) (p : Fin 4) : Replaced [p] e (e.replaceHead p) := by
  unfold Engine.replaceHead
  dsimp only
  split
  · next s l _ =>
    refine ⟨fun v q hv => ?_, fun v hv => ?_, fun q hq => ?_⟩
    · obtain ⟨hp, -⟩ | ⟨hn, -⟩ := Engine.place_portOf { e with untracked := e.untracked.erase p } p s l v
      · exact hp.trans hv
      · rw [show e.portOf v = none from hn] at hv; cases hv
    · exact Engine.usedAt.place (e := { e with untracked := e.untracked.erase p }) p s l hv
    · exact Engine.place_port { e with untracked := e.untracked.erase p } p s l (by simpa using hq)
  · exact ⟨fun _ _ h => h, fun _ h => h, fun _ _ => rfl⟩

theorem VolumesOk.replaceHead {e : Engine} (h : VolumesOk e) {p : Fin 4} (hp : p ∈ e.untracked) : VolumesOk (e.replaceHead p) := by
  obtain ⟨s, l, hs⟩ := (h.untracked p).mp hp
  have : e.replaceHead p = ({ e with untracked := e.untracked.erase p } : Engine).place p s l := by
    simp only [Engine.replaceHead]
    rw [hs]
  rw [this]
  exact (h.erased hp).place s l

/-- Ports of the untracked list examined in turn, each once. -/
theorem Engine.replaceHeads (ps : List (Fin 4)) (e : Engine) :
    Replaced ps e (ps.foldl Engine.replaceHead e) ∧
      (ps.Nodup → (∀ p ∈ ps, p ∈ e.untracked) → VolumesOk e → VolumesOk (ps.foldl Engine.replaceHead e)) := by
  induction ps generalizing e with
  | nil => exact ⟨⟨fun _ _ h => h, fun _ h => h, fun _ _ => rfl⟩, fun _ _ h => h⟩
  | cons p ps ih =>
    obtain ⟨rest, ok⟩ := ih (e.replaceHead p)
    refine ⟨(e.replaceHead_replaced p).trans rest, fun hn hm h => ?_⟩
    rw [List.nodup_cons] at hn
    have next := h.replaceHead (hm p (by simp))
    refine ok hn.2 (fun q hq => ?_) next
    have hne : q ≠ p := fun k => hn.1 (k ▸ hq)
    rw [next.untracked q, (e.replaceHead_replaced p).ports q (by simpa using hne), ← h.untracked q]
    exact hm q (by simp [hq])

theorem Engine.reevaluateUntracked_replaced (e : Engine) : Replaced e.untracked e e.reevaluateUntracked :=
  (Engine.replaceHeads _ e).1

theorem VolumesOk.reevaluateUntracked {e : Engine} (h : VolumesOk e) : VolumesOk e.reevaluateUntracked :=
  (Engine.replaceHeads _ e).2 h.untrackedNodup (fun _ hp => hp) h

/-! ## An entry that may be freed -/

/-- An entry is freed or everything stays (R66). -/
theorem Engine.freeIfUnused_cases (e : Engine) (v : Fin 16) :
    (e.portOf v = none ∧ e.refCount v = 0 ∧ (e.freeIfUnused v).1 = { e with volumes := e.volumes.set v none }) ∨
      ((e.freeIfUnused v).1 = e ∧ ((e.volumes[v]).isSome = true → (e.portOf v).isSome = true ∨ 0 < e.refCount v)) := by
  unfold Engine.freeIfUnused
  split
  · next x hx =>
    have port : e.portOf v = x.inserted := by rw [Engine.portOf, hx]; rfl
    split
    · next h => exact .inl ⟨port.trans h.1, h.2, rfl⟩
    · next h =>
      refine .inr ⟨rfl, fun _ => ?_⟩
      rw [port]
      by_cases hi : x.inserted = none
      · exact .inr (Nat.pos_of_ne_zero fun hr => h ⟨hi, hr⟩)
      · exact .inl (Option.isSome_iff_ne_none.mpr hi)
  · next hx => exact .inr ⟨rfl, fun h => by rw [hx] at h; cases h⟩

theorem Engine.freeEntry_entry (e : Engine) (v w : Fin 16) : (e.volumes.set v none)[w] = if w = v then none else e.volumes[w] := by
  by_cases hw : w = v
  · subst hw; simp
  · simp [Fin.val_inj, Ne.symm hw, hw]

theorem VolumesOk.freeIfUnused {e : Engine} (h : VolumesOk e) (v : Fin 16) : VolumesOk (e.freeIfUnused v).1 := by
  obtain ⟨hp, -, he⟩ | ⟨he, -⟩ := e.freeIfUnused_cases v <;> rw [he]
  · have port : ∀ w, Engine.portOf { e with volumes := e.volumes.set v none } w = e.portOf w := by
      intro w
      show ((e.volumes.set v none)[w]).bind (·.inserted) = _
      rw [Engine.freeEntry_entry]
      split
      · next hw => subst hw; rw [hp]; rfl
      · rfl
    have sub : ∀ (w : Fin 16) x, (e.volumes.set v none)[w] = some x → e.volumes[w] = some x := by
      intro w x hx
      rw [Engine.freeEntry_entry] at hx
      split at hx
      · cases hx
      · exact hx
    exact ⟨fun w u x y hx hy => h.serial w u x y (sub w x hx) (sub u y hy),
      fun w u x y q hx hy => h.inserted w u x y q (sub w x hx) (sub u y hy), h.untrackedNodup,
      fun q => by simp only [port]; exact h.online q, h.untracked⟩
  · exact h

/-- With every other entry in use, the examination of one leaves all in use: where it was free, no copy record named it. -/
theorem Engine.usedAt.freeIfUnused {e : Engine} {v : Fin 16} (others : ∀ w, w ≠ v → e.usedAt w)
    (own : (e.portOf v).isSome = true ∨ 0 < e.refCount v → (e.volumes[v]).isSome = true) (w : Fin 16) :
    (e.freeIfUnused v).1.usedAt w := by
  have count := (e.freeIfUnused_move v).clipsQuiet.refCount w
  by_cases hw : w = v
  · subst hw
    unfold Engine.usedAt
    obtain ⟨hp, hr, he⟩ | ⟨he, hs⟩ := e.freeIfUnused_cases w
    · rw [count, he]
      show ((e.volumes.set w none)[w]).isSome = true ↔ ((((e.volumes.set w none)[w]).bind _).isSome = true ∨ _)
      rw [Engine.freeEntry_entry, if_pos rfl, hr]
      simp
    · rw [he]; exact ⟨hs, own⟩
  · have := others w hw
    unfold Engine.usedAt at this ⊢
    rw [count]
    obtain ⟨-, -, he⟩ | ⟨he, -⟩ := e.freeIfUnused_cases v
    · rw [he]
      show ((e.volumes.set v none)[w]).isSome = true ↔ ((((e.volumes.set v none)[w]).bind _).isSome = true ∨ _)
      rw [Engine.freeEntry_entry, if_neg hw]
      exact this
    · rw [he]; exact this

/-- An inserted entry is not freed. -/
theorem Engine.freeIfUnused_inserted (e : Engine) (v : Fin 16) {w : Fin 16} {p : Fin 4} (hw : e.portOf w = some p) :
    (e.freeIfUnused v).1.portOf w = some p := by
  obtain ⟨hp, -, he⟩ | ⟨he, -⟩ := e.freeIfUnused_cases v <;> rw [he]
  · show ((e.volumes.set v none)[w]).bind _ = _
    rw [Engine.freeEntry_entry, if_neg (fun k => by rw [k, hp] at hw; cases hw)]
    exact hw
  · exact hw

theorem VolumesOk.settleEntry {e : Engine} (h : VolumesOk e) (v : Fin 16) : VolumesOk (e.settleEntry v) := by
  have freed := h.freeIfUnused v
  unfold Engine.settleEntry
  dsimp only
  split
  · exact freed.reevaluateUntracked
  · exact freed

theorem Engine.usedAt.settleEntry {e : Engine} {v : Fin 16} (others : ∀ w, w ≠ v → e.usedAt w)
    (own : (e.portOf v).isSome = true ∨ 0 < e.refCount v → (e.volumes[v]).isSome = true) (w : Fin 16) : (e.settleEntry v).usedAt w := by
  have freed := Engine.usedAt.freeIfUnused others own
  unfold Engine.settleEntry
  dsimp only
  split
  · exact (Engine.reevaluateUntracked_replaced _).used w (freed w)
  · exact freed w

theorem Engine.settleEntry_inserted (e : Engine) (v : Fin 16) {w : Fin 16} {p : Fin 4} (hw : e.portOf w = some p) :
    (e.settleEntry v).portOf w = some p := by
  have freed := e.freeIfUnused_inserted v hw
  unfold Engine.settleEntry
  dsimp only
  split
  · exact (Engine.reevaluateUntracked_replaced _).inserted w p freed
  · exact freed

end Sys2Proof.Machine
end

