-- ==== Sys2Proof/Proofs/Reset.lean ====
section
/-! SUPPORT. Reset: what it leaves, and that it meets the bounds that every step keeps (O13, O20). -/

namespace Sys2Proof.Machine

/-- Every clip slot is free after reset (R24). -/
theorem Engine.reset_clipIn (i : Fin 512) : Engine.reset.clipIn i = none :=
  congrArg ClipSlot.clip (Vector.getElem_replicate (a := (⟨0, none⟩ : ClipSlot)) i.isLt)

theorem Engine.reset_allClips : Engine.reset.allClips = [] :=
  List.eq_nil_iff_forall_not_mem.mpr fun c hc => by
    obtain ⟨i, hi⟩ := Engine.mem_allClips.mp hc
    rw [Engine.reset_clipIn] at hi
    cases hi

theorem Engine.reset_cards (c : Fin 32) : Engine.reset.cards[c] = none := Vector.getElem_replicate c.isLt

theorem ClipsOk.reset : ClipsOk Engine.reset where
  placed i c hc := by rw [Engine.reset_clipIn] at hc; cases hc
  copies i c hc := by rw [Engine.reset_clipIn] at hc; cases hc
  listed i c hc := by rw [Engine.reset_clipIn] at hc; cases hc
  nodup k r hr := by rw [Engine.reset_cards] at hr; cases hr
  current k r hr := by rw [Engine.reset_cards] at hr; cases hr

theorem Engine.usedAt.reset (v : Fin 16) : Engine.reset.usedAt v := by
  have free : Engine.reset.volumes[v] = none := Vector.getElem_replicate v.isLt
  have count : Engine.reset.refCount v = 0 := by rw [Engine.refCount, Engine.reset_allClips]; rfl
  rw [Engine.usedAt, Engine.portOf, free, count]
  simp

/-- Settles O13. -/
theorem resetLeavesTheStatedValues : Obligations.ResetLeavesTheStatedValues := by
  unfold Obligations.ResetLeavesTheStatedValues
  refine ⟨rfl, by decide, by decide, by decide, by decide, by decide, rfl, rfl, rfl, rfl, rfl, rfl, rfl, rfl, ?_⟩
  refine ⟨by decide, fun i => Vector.getElem_replicate i.isLt, rfl, rfl, by decide, by decide, by decide, rfl, rfl, by decide, rfl, rfl, by decide, rfl, rfl, rfl, rfl,
    rfl, rfl, rfl, rfl, rfl, rfl, rfl, rfl, rfl, by decide, rfl, rfl, rfl, rfl, ?_⟩
  intro p
  cases p <;> decide

/-- Settles O20. -/
theorem resetMeetsTheBounds : Obligations.ResetMeetsTheBounds := by
  unfold Obligations.ResetMeetsTheBounds
  refine ⟨by decide, by decide, by decide, by decide, by decide, by decide, by decide, ?_, by decide, ?_⟩
  · exact (Engine.clipsLegal_iff _).mpr .reset
  · exact (Engine.entriesUsed_iff _).mpr .reset

end Sys2Proof.Machine
end

