-- ==== Sys2Proof/Proofs/DriveEvents.lean ====
section
/-!
SUPPORT. The destination ports' events: the arrival, removal and identification of a drive keep the invariants of O41 (R64 to R69).
-/

namespace Sys2Proof.Machine

section
variable {e : Engine} {g : Settings} {p : Fin 4}

theorem Engine.portOf_entryAt {v : Fin 16} (h : e.entryAt p = some v) : e.portOf v = some p := by
  have := List.find?_some h
  exact of_decide_eq_true this

theorem Engine.entryAt_none (h : e.entryAt p = none) (v : Fin 16) : e.portOf v ≠ some p := by
  have := List.find?_eq_none.mp h v (List.mem_finRange v)
  simpa using this

/-! ## Removal -/

/-- The entry and the port of a removal, before the requesters learn of it (R69). -/
def Engine.unplugged (e : Engine) (p : Fin 4) (v : Fin 16) : Engine :=
  (e.updateDest p (fun d => { d with state := .empty, inflight := none, waiting := [] })).updateVolume v
    (fun x => { x with inserted := none })

theorem Engine.unplugged_move (v : Fin 16) : e.volumesMove (e.unplugged p v) := by
  unfold Engine.unplugged Engine.updateVolume
  split <;> rfl

theorem Engine.unplugged_entry (v w : Fin 16) : (e.unplugged p v).volumes[w] =
    (e.volumes[w]).map (fun x => if w = v then { x with inserted := none } else x) :=
  Engine.updateVolume_entry (e.updateDest p _) v _ w

theorem Engine.unplugged_port (v : Fin 16) (q : Fin 4) : ((e.unplugged p v).destPorts[q]).state =
    if q = p then .empty else (e.destPorts[q]).state := by
  unfold Engine.unplugged
  rw [Engine.updateVolume_destPorts, Engine.updateDest_port]
  split <;> rfl

theorem Engine.unplugged_portOf (v w : Fin 16) : (e.unplugged p v).portOf w = if w = v then none else e.portOf w := by
  unfold Engine.portOf
  rw [Engine.unplugged_entry]
  split <;> cases e.volumes[w] <;> rfl

/-- A volume that leaves its port leaves the tables in agreement. -/
theorem VolumesOk.unplugged (h : VolumesOk e) {v : Fin 16} (hv : e.portOf v = some p) : VolumesOk (e.unplugged p v) := by
  obtain ⟨x, hx, hp⟩ := Engine.portOf_eq_some.mp hv
  have sole : ∀ w, e.portOf w = some p → w = v := by
    intro w hw
    obtain ⟨y, hy, hq⟩ := Engine.portOf_eq_some.mp hw
    exact h.inserted w v y x p hy hx hq hp
  have online := (h.online p).mp ⟨v, hv⟩
  have list : (e.unplugged p v).untracked = e.untracked := by unfold Engine.unplugged; rw [Engine.updateVolume_untracked]; rfl
  refine ⟨fun w u y z hy hz he => ?_, fun w u y z q hy hz hq hq' => ?_, list ▸ h.untrackedNodup, fun q => ?_, fun q => ?_⟩
  · rw [Engine.unplugged_entry] at hy hz
    obtain ⟨y', hy', rfl⟩ := Option.map_eq_some_iff.mp hy
    obtain ⟨z', hz', rfl⟩ := Option.map_eq_some_iff.mp hz
    exact h.serial w u y' z' hy' hz' (by split at he <;> split at he <;> exact he)
  · have hw := Engine.portOf_eq_some.mpr ⟨y, hy, hq⟩
    have hu := Engine.portOf_eq_some.mpr ⟨z, hz, hq'⟩
    rw [Engine.unplugged_portOf] at hw hu
    split at hw
    · cases hw
    · split at hu
      · cases hu
      · obtain ⟨y', hy', hyq⟩ := Engine.portOf_eq_some.mp hw
        obtain ⟨z', hz', hzq⟩ := Engine.portOf_eq_some.mp hu
        exact h.inserted w u y' z' q hy' hz' hyq hzq
  · simp only [Engine.unplugged_port, Engine.unplugged_portOf]
    by_cases hq : q = p
    · subst hq
      rw [if_pos rfl]
      refine ⟨fun ⟨w, hw⟩ => ?_, nofun⟩
      split at hw
      · cases hw
      · next hne => exact absurd (sole w hw) hne
    · rw [if_neg hq, ← h.online q]
      refine exists_congr fun w => ?_
      split
      · next hw => subst hw; rw [hv]; simp [Ne.symm hq]
      · rfl
  · rw [list, Engine.unplugged_port, h.untracked q]
    by_cases hq : q = p
    · subst hq
      rw [if_pos rfl, online]
      exact ⟨fun ⟨_, _, k⟩ => (by cases k), fun ⟨_, _, k⟩ => (by cases k)⟩
    · rw [if_neg hq]

/-- What the requesters of a removal do after the entry and the port have changed (R69). -/
def Engine.removalTold (g : Settings) (e : Engine) (p : Fin 4) (v : Fin 16) : Engine :=
  let d := e.destPorts[p]
  let x := (d.losers.foldl (Engine.requesterLoses g p) (e.unplugged p v)).suspendedLose g v
  (match d.inflight with | some op => x.settleRequester op.who | none => x).signal (Event.ofVolume .volumeRemoved v)

theorem Engine.removeVolume_eq (v : Fin 16) :
    e.removeVolume g p v = (((e.removalTold g p v).freeIfUnused v).1.reevaluateUntracked).settleTransfer g := rfl

theorem Quiet.removalTold (v : Fin 16) : Quiet (e.unplugged p v) (e.removalTold g p v) := by
  have told := ((Quiet.refl (e.unplugged p v)).foldl (f := Engine.requesterLoses g p) (fun _ _ h => h.requesterLoses)
    (e.destPorts[p]).losers).suspendedLose (g := g) (v := v)
  unfold Engine.removalTold
  dsimp only
  split
  · exact told.settleRequester.signal
  · exact told.signal

/-- The entry whose volume has gone is freed when no copy record names it, and the untracked list is examined (R66, R67). -/
def Engine.entryLeft (e : Engine) (v : Fin 16) : Engine := (e.freeIfUnused v).1.reevaluateUntracked

theorem Engine.entryLeft_move (v : Fin 16) : e.volumesMove (e.entryLeft v) :=
  (e.freeIfUnused_move v).trans (Engine.reevaluateUntracked_move _)

theorem Engine.removeVolume_cardsQuiet (v : Fin 16) : CardsQuiet e (e.removeVolume g p v) :=
  (((Engine.unplugged_move v).cardsQuiet.trans (Quiet.removalTold v).cards).trans (Engine.entryLeft_move v).cardsQuiet).trans
    (Quiet.refl _).settleTransfer.cards

theorem Engine.removeVolume_clipsQuiet (v : Fin 16) : ClipsQuiet e (e.removeVolume g p v) :=
  (((Engine.unplugged_move v).clipsQuiet.trans (Quiet.removalTold v).clips).trans (Engine.entryLeft_move v).clipsQuiet).trans
    (Quiet.refl _).settleTransfer.clips

/-- A removal leaves the tables in agreement, and the port EMPTY. -/
theorem VolumesOk.removeVolume (h : VolumesOk e) {v : Fin 16} (hv : e.portOf v = some p) :
    VolumesOk (e.removeVolume g p v) ∧ ((e.removeVolume g p v).destPorts[p]).state = .empty := by
  have quiet := (Quiet.removalTold (e := e) (g := g) (p := p) v).volumes
  have told : VolumesOk (e.removalTold g p v) := quiet.ok (h.unplugged hv)
  have empty : ((e.removalTold g p v).destPorts[p]).state = .empty := by
    rw [quiet.state p, Engine.unplugged_port, if_pos rfl]
  have freed := told.freeIfUnused v
  have ports : ((e.removalTold g p v).freeIfUnused v).1.destPorts = (e.removalTold g p v).destPorts := by
    obtain ⟨-, -, he⟩ | ⟨he, -⟩ := (e.removalTold g p v).freeIfUnused_cases v <;> rw [he]
  have unlisted : p ∉ ((e.removalTold g p v).freeIfUnused v).1.untracked := by
    rw [freed.untracked p, ports, empty]
    exact nofun
  have settle := (Quiet.refl ((e.removalTold g p v).entryLeft v)).settleTransfer (g := g) |>.volumes
  refine ⟨settle.ok freed.reevaluateUntracked, ?_⟩
  rw [Engine.removeVolume_eq]
  refine (settle.state p).trans ?_
  rw [Engine.entryLeft, (Engine.reevaluateUntracked_replaced _).ports p unlisted, ports, empty]

theorem Engine.removeVolume_used (hu : ∀ v, e.usedAt v) {v : Fin 16} (hv : e.portOf v = some p) (w : Fin 16) :
    (e.removeVolume g p v).usedAt w := by
  have quiet := Quiet.removalTold (e := e) (g := g) (p := p) v
  have others : ∀ w, w ≠ v → (e.removalTold g p v).usedAt w := by
    intro w hw
    refine Engine.usedAt.quiet quiet.volumes quiet.clips.refCount ?_
    have := hu w
    unfold Engine.usedAt at this ⊢
    rw [(Engine.unplugged_move v).clipsQuiet.refCount, Engine.unplugged_portOf, if_neg hw, Engine.unplugged_entry]
    simpa using this
  have own : ((e.removalTold g p v).volumes[v]).isSome = true := by
    have := congrArg Option.isSome (quiet.volumes.entries v)
    simp only [Option.isSome_map] at this
    rw [this, Engine.unplugged_entry, Option.isSome_map]
    exact Engine.portOf_isSome (by rw [hv]; rfl)
  have freed := Engine.usedAt.freeIfUnused others (fun _ => own)
  have settle := (Quiet.refl ((e.removalTold g p v).entryLeft v)).settleTransfer (g := g)
  exact Engine.usedAt.quiet settle.volumes settle.clips.refCount ((Engine.reevaluateUntracked_replaced _).used w (freed w))

/-! ## A port that changes its state alone -/

/-- A port that is in none of the tables takes a state of no table. -/
theorem Keeps.settlePort {f : DestPort → DestPort} {a : Engine} (hm : e.volumesMove a) (hv : a.volumes = e.volumes)
    (hb : VolumesOk e → VolumesOkBut a p) (ho : (f a.destPorts[p]).state ≠ .online)
    (hu : ∀ s l, (f a.destPorts[p]).state ≠ .untracked s l) : Keeps e (a.updateDest p f) := by
  have count : ∀ v, (a.updateDest p f).refCount v = e.refCount v := hm.clipsQuiet.refCount
  refine ⟨(hm.cardsQuiet.trans (.of_eq (b := a.updateDest p f) rfl rfl rfl rfl)).ok,
    (hm.clipsQuiet.trans (.of_eq (b := a.updateDest p f) rfl rfl)).ok,
    fun h => (hb h).settled ho hu, fun _ _ h v => ?_⟩
  have := h v
  unfold Engine.usedAt Engine.portOf at this ⊢
  rw [count, show (a.updateDest p f).volumes = e.volumes from hv]
  exact this

/-- REMOVED keeps the invariants. -/
theorem Keeps.driveLeaves : Keeps e (e.driveLeaves g p) := by
  unfold Engine.driveLeaves
  split
  · exact .refl e
  · next hs => exact .settlePort (.refl e) (rfl) (fun h => h.but (by rw [hs]; nofun) (by rw [hs]; nofun)) nofun nofun
  · next hs => exact .settlePort (.refl e) (rfl) (fun h => h.but (by rw [hs]; nofun) (by rw [hs]; nofun)) nofun nofun
  · next s l hs =>
    exact .settlePort (a := { e with untracked := e.untracked.erase p }) rfl rfl
      (fun h => h.erased ((h.untracked p).mpr ⟨s, l, hs⟩)) nofun nofun
  · next hs =>
    split
    · next v hv =>
      have hp := Engine.portOf_entryAt hv
      exact ⟨(Engine.removeVolume_cardsQuiet v).ok, (Engine.removeVolume_clipsQuiet v).ok, fun h => (h.removeVolume hp).1,
        fun _ _ h => Engine.removeVolume_used h hp⟩
    · next hv =>
      refine .settlePort (.refl e) rfl (fun h => ?_) nofun nofun
      obtain ⟨w, hw⟩ := (h.online p).mpr hs
      exact absurd hw (Engine.entryAt_none hv w)

/-- After REMOVED the port is EMPTY. -/
theorem Engine.driveLeaves_state (h : VolumesOk e) : ((e.driveLeaves g p).destPorts[p]).state = .empty := by
  unfold Engine.driveLeaves
  split
  · assumption
  · rw [Engine.updateDest_port, if_pos rfl]
  · rw [Engine.updateDest_port, if_pos rfl]
  · rw [Engine.updateDest_port, if_pos rfl]
  · split
    · next v hv => exact (h.removeVolume (Engine.portOf_entryAt hv)).2
    · rw [Engine.updateDest_port, if_pos rfl]

/-- INSERTED keeps the invariants. -/
theorem Keeps.driveArrives : Keeps e (e.driveArrives g p) := by
  have leaves : Keeps e (e.driveLeaves g p) := .driveLeaves
  have mount : VolumesOk e → Keeps (e.driveLeaves g p) (e.driveArrives g p) := fun h =>
    .settlePort (f := fun d => { d with state := .identifying }) (.refl _) rfl
      (fun k => k.but (p := p) (by rw [Engine.driveLeaves_state (g := g) h]; nofun)
        (by rw [Engine.driveLeaves_state (g := g) h]; nofun)) nofun nofun
  have frame : (e.driveLeaves g p).volumesMove (e.driveArrives g p) := rfl
  exact ⟨fun h => frame.cardsQuiet.ok (leaves.cards h), fun h => frame.clipsQuiet.ok (leaves.clips h),
    fun h => (mount h).volumes (leaves.volumes h), fun x y z => (mount y).used (leaves.clips x) (leaves.volumes y) (leaves.used x y z)⟩

/-- A drive whose identification fails goes OFFLINE. -/
theorem Keeps.goOffline (hs : (e.destPorts[p]).state = .identifying) : Keeps e (e.goOffline p) :=
  .settlePort (.refl e) (rfl) (fun h => h.but (by rw [hs]; nofun) (by rw [hs]; nofun)) nofun nofun

theorem Keeps.place (hs : (e.destPorts[p]).state = .identifying) (s : Word64) (l : Text) : Keeps e (e.place p s l) :=
  ⟨(e.place_move p s l).cardsQuiet.ok, (e.place_move p s l).clipsQuiet.ok,
    fun h => (h.but (p := p) (by rw [hs]; nofun) (by rw [hs]; nofun)).place s l, fun _ _ h v => (h v).place p s l⟩

/-- An IDENTIFY answer keeps the invariants. -/
theorem Keeps.identified {a : IdentifyAnswer} : Keeps e (e.identified g p a) := by
  unfold Engine.identified
  split
  · next s l hs =>
    split
    · exact (Keeps.place hs s l).quiet (Quiet.refl _).settleTransfer
    · exact .goOffline hs
  · next hs => exact .goOffline hs
  · exact .refl e

theorem Keeps.enclosureTimesOut : Keeps e (e.enclosureTimesOut g p) := by
  unfold Engine.enclosureTimesOut
  split
  · next hs => exact .goOffline hs
  · exact (Quiet.refl e).operationAnswered.keeps

end

end Sys2Proof.Machine
end

