-- ==== Sys2Proof/Proofs/CopyRecords.lean ====
section
/-!
SUPPORT. The changes that add work: copy records made (R7, R8), COPYs queued (R80, R95, R96, R100, R101) and the end of a step, where the
matrix acts on the events (R195 to R199). They keep the invariants of O41, the card records as they stand and the inserted volumes inserted.
-/

namespace Sys2Proof.Machine

/-! ## Changes that add work -/

/-- A change that adds work to the queues: it keeps the invariants, the standing of the cards, and the inserted volumes. -/
structure Stocks (a b : Engine) : Prop where
  cards : CardsQuiet a b
  clips : ClipsOk a → ClipsOk b
  volumes : VolumesOk a → VolumesOk b
  used : ClipsOk a → VolumesOk a → (∀ v, a.usedAt v) → ∀ v, b.usedAt v
  inserted : ∀ v p, a.portOf v = some p → b.portOf v = some p

theorem Stocks.refl (a : Engine) : Stocks a a := ⟨.refl a, id, id, fun _ _ => id, fun _ _ => id⟩

theorem Stocks.trans {a b c : Engine} (h : Stocks a b) (k : Stocks b c) : Stocks a c :=
  ⟨h.cards.trans k.cards, k.clips ∘ h.clips, k.volumes ∘ h.volumes, fun x y z => k.used (h.clips x) (h.volumes y) (h.used x y z),
    fun v p hp => k.inserted v p (h.inserted v p hp)⟩

theorem Quiet.stocks {a b : Engine} (q : Quiet a b) : Stocks a b :=
  ⟨q.cards, q.keeps.clips, q.keeps.volumes, q.keeps.used, fun v p hp => by rw [q.volumes.portOf v, hp]⟩

theorem Stocks.quiet {a b c : Engine} (h : Stocks a b) (q : Quiet b c) : Stocks a c := h.trans q.stocks

theorem Stocks.keeps {a b : Engine} (h : Stocks a b) : Keeps a b := ⟨h.cards.ok, h.clips, h.volumes, h.used⟩

theorem Stocks.foldl {α : Type} {a e : Engine} {f : Engine → α → Engine} (hf : ∀ e x, Stocks a e → Stocks a (f e x)) (xs : List α)
    (h : Stocks a e) : Stocks a (xs.foldl f e) := by
  induction xs generalizing e with
  | nil => exact h
  | cons x xs ih => exact ih (hf e x h)

/-! ## Copy records that change -/

/-- A copy record of the catalogue names the entry. -/
def Engine.names (e : Engine) (v : Fin 16) : Prop := ∃ i c, e.clipIn i = some c ∧ v ∈ c.copies.map (·.volume)

theorem Engine.refCount_pos {e : Engine} {v : Fin 16} : 0 < e.refCount v ↔ e.names v := by
  unfold Engine.refCount Engine.names
  constructor
  · intro h
    have : ∃ n ∈ e.allClips.map (fun c => (c.copies.filter (fun r => decide (r.volume = v))).length), n ≠ 0 := by
      by_contra hn
      push Not at hn
      rw [List.sum_eq_zero hn] at h
      exact absurd h (by decide)
    obtain ⟨n, hn, h0⟩ := this
    obtain ⟨c, hc, rfl⟩ := List.mem_map.mp hn
    obtain ⟨i, hi⟩ := Engine.mem_allClips.mp hc
    obtain ⟨r, hr⟩ := List.exists_mem_of_length_pos (Nat.pos_of_ne_zero h0)
    obtain ⟨hm, hv⟩ := List.mem_filter.mp hr
    exact ⟨i, c, hi, List.mem_map.mpr ⟨r, hm, of_decide_eq_true hv⟩⟩
  · rintro ⟨i, c, hi, hv⟩
    obtain ⟨r, hr, hrv⟩ := List.mem_map.mp hv
    have pos : 0 < (c.copies.filter (fun r => decide (r.volume = v))).length :=
      List.length_pos_of_mem (List.mem_filter.mpr ⟨hr, decide_eq_true hrv⟩)
    exact pos.trans_le (List.single_le_sum (fun _ _ => Nat.zero_le _) _
      (List.mem_map.mpr ⟨c, Engine.mem_allClips.mpr ⟨i, hi⟩, rfl⟩))

theorem Engine.usedAt_iff {e : Engine} {v : Fin 16} :
    e.usedAt v ↔ ((e.volumes[v]).isSome = true ↔ ((e.portOf v).isSome = true ∨ e.names v)) := by
  rw [Engine.usedAt, Engine.refCount_pos]

section
variable {e : Engine} {h : Handle} {f : Clip → Clip}

/-- The clip records after one is updated: each is one of before, or the update of the one at the handle. -/
theorem Engine.updateClip_clipIn {i : Fin 512} {c : Clip} (hc : (e.updateClip h f).clipIn i = some c) :
    e.clipIn i = some c ∨ ∃ d, e.clipAt h = some d ∧ i = h.slot ∧ c = f d := by
  rw [Engine.clipIn] at hc
  obtain hi | ⟨d, hd, rfl, hi⟩ := e.updateClip_slot h f i <;> rw [hi] at hc
  · exact .inl hc
  · exact .inr ⟨d, hd, rfl, (Option.some.inj hc).symm⟩

/-- Each slot that held a record still holds it, or the update of it. -/
theorem Engine.clipIn_updateClip {i : Fin 512} {c : Clip} (hc : e.clipIn i = some c) :
    (e.updateClip h f).clipIn i = some c ∨ e.clipAt h = some c ∧ i = h.slot ∧ (e.updateClip h f).clipIn i = some (f c) := by
  unfold Engine.clipIn
  obtain hi | ⟨d, hd, rfl, hi⟩ := e.updateClip_slot h f i <;> rw [hi]
  · exact .inl hc
  · obtain rfl := Option.some.inj ((Engine.clipAt_eq_some.mp hd).2.symm.trans hc)
    exact .inr ⟨hd, rfl, rfl⟩

theorem Engine.updateClip_gen (i : Fin 512) : ((e.updateClip h f).clips[i]).gen = (e.clips[i]).gen := by
  obtain hi | ⟨d, hd, rfl, hi⟩ := e.updateClip_slot h f i <;> rw [hi]
  exact (Engine.clipAt_eq_some.mp hd).1.symm

/-- An update that keeps the clip's place and leaves its copy records legal keeps the clip records legal. -/
theorem ClipsOk.updateClip (k : ClipsOk e) (hf : ∀ c, (f c).handle = c.handle ∧ (f c).card = c.card)
    (hl : ∀ c, e.clipAt h = some c → c.copiesLegal = true → (f c).copiesLegal = true) : ClipsOk (e.updateClip h f) := by
  have cards : (e.updateClip h f).cards = e.cards := by simp
  refine ⟨fun i c hc => ?_, fun i c hc => ?_, fun i c hc => ?_, fun j r hr => k.nodup j r (cards ▸ hr), fun j r hr x hx => ?_⟩
  · rw [Engine.updateClip_gen]
    obtain hi | ⟨d, hd, rfl, rfl⟩ := Engine.updateClip_clipIn hc
    · exact k.placed i c hi
    · rw [(hf d).1]
      exact k.placed _ d (Engine.clipAt_eq_some.mp hd).2
  · obtain hi | ⟨d, hd, rfl, rfl⟩ := Engine.updateClip_clipIn hc
    · exact k.copies i c hi
    · exact hl d hd (k.copies _ d (Engine.clipAt_eq_some.mp hd).2)
  · rw [cards]
    obtain hi | ⟨d, hd, rfl, rfl⟩ := Engine.updateClip_clipIn hc
    · exact k.listed i c hi
    · simpa only [(hf d).1, (hf d).2] using k.listed _ d (Engine.clipAt_eq_some.mp hd).2
  · obtain ⟨d, hd, hj⟩ := k.current j r (cards ▸ hr) x hx
    obtain ⟨hg, hi⟩ := Engine.clipAt_eq_some.mp hd
    obtain hc | ⟨-, -, hc⟩ := Engine.clipIn_updateClip (h := h) (f := f) hi
    · exact ⟨d, Engine.clipAt_eq_some.mpr ⟨(Engine.updateClip_gen _).trans hg, hc⟩, hj⟩
    · exact ⟨f d, Engine.clipAt_eq_some.mpr ⟨(Engine.updateClip_gen _).trans hg, hc⟩, (hf d).2.trans hj⟩

end

/-! ## The plans of R8 -/

section
variable {copies : List CopyRecord} {busy : List (Fin 16)} {v : Fin 16} {n : Nat}

/-- What each plan says of the copy records it was made for. -/
theorem recordPlan_cases : recordPlan copies busy v = .resetRecord ∨ recordPlan copies busy v = .refuse ∨
    (v ∉ copies.map (·.volume) ∧ ((recordPlan copies busy v = .append ∧ copies.length < Config.maxCopyRecords) ∨
      ∃ r ∈ copies, recordPlan copies busy v = .replace r.volume)) := by
  unfold recordPlan
  split
  · split
    · exact .inl rfl
    · exact .inr (.inl rfl)
  · next hn =>
    have absent : v ∉ copies.map (·.volume) := by
      intro hv
      obtain ⟨r, hr, hrv⟩ := List.mem_map.mp hv
      exact absurd (decide_eq_true hrv) (List.find?_eq_none.mp hn r hr)
    split
    · next hl => exact .inr (.inr ⟨absent, .inl ⟨rfl, hl⟩⟩)
    · split
      · next r hr => exact .inr (.inr ⟨absent, .inr ⟨r, List.mem_of_find?_eq_some hr, rfl⟩⟩)
      · exact .inr (.inl rfl)

/-- A reset leaves each record its volume. -/
theorem volumes_reset : (copies.map (fun r => if r.volume = v then CopyRecord.made v n else r)).map (·.volume) = copies.map (·.volume) := by
  rw [List.map_map]
  refine List.map_congr_left fun r _ => ?_
  simp only [Function.comp]
  split
  · next hv => exact hv.symm
  · rfl

/-- The volumes of the records after one has been replaced. -/
theorem mem_volumes_replace {old w : Fin 16} :
    w ∈ (RecordPlan.apply (.replace old) copies v n).map (·.volume) ↔ (w ∈ copies.map (·.volume) ∧ w ≠ old) ∨ w = v := by
  have filtered : w ∈ (copies.filter (fun r => decide (r.volume ≠ old))).map (·.volume) ↔ w ∈ copies.map (·.volume) ∧ w ≠ old := by
    simp only [List.mem_map, List.mem_filter, decide_eq_true_eq]
    exact ⟨fun ⟨r, ⟨hr, ho⟩, hw⟩ => ⟨⟨r, hr, hw⟩, hw ▸ ho⟩, fun ⟨⟨r, hr, hw⟩, ho⟩ => ⟨r, ⟨hr, hw.symm ▸ ho⟩, hw⟩⟩
  simp only [RecordPlan.apply, List.map_append, List.mem_append, filtered]
  exact or_congr_right (by simp [CopyRecord.made])

/-- A legal list of copy records stays legal when the catalogue's answer is carried out (R8). -/
theorem Clip.copiesLegal_apply {c : Clip} (hc : c.copiesLegal = true) :
    ({ c with copies := (recordPlan c.copies busy v).apply c.copies v n } : Clip).copiesLegal = true := by
  rw [Clip.copiesLegal_iff] at hc ⊢
  obtain ⟨len, nodup, digest⟩ := hc
  have made : ∀ {r : CopyRecord}, r = CopyRecord.made v n → r.state ≠ .verified := fun h => by rw [h]; nofun
  obtain h | h | ⟨absent, ⟨h, lt⟩ | ⟨o, ho, h⟩⟩ := recordPlan_cases (copies := c.copies) (busy := busy) (v := v) <;> rw [h] <;>
    dsimp only [RecordPlan.apply]
  · refine ⟨by simpa using len, ?_, fun r hr hs => ?_⟩
    · rw [volumes_reset]
      exact nodup
    · obtain ⟨x, hx, rfl⟩ := List.mem_map.mp hr
      split at hs
      · exact absurd hs (made rfl)
      · next hv => rw [if_neg hv]; exact digest x hx hs
  · exact ⟨len, nodup, digest⟩
  · refine ⟨by simpa using lt, ?_, fun r hr hs => ?_⟩
    · rw [List.map_append, List.nodup_append]
      refine ⟨nodup, List.nodup_singleton _, ?_⟩
      rintro x hx _ hy rfl
      obtain rfl := List.mem_singleton.mp hy
      exact absent hx
    · obtain hr | hr := List.mem_append.mp hr
      · exact digest r hr hs
      · exact absurd hs (made (List.mem_singleton.mp hr))
  · have sub : (c.copies.filter (fun r => decide (r.volume ≠ o.volume))).Sublist c.copies := List.filter_sublist
    have shorter : (c.copies.filter (fun r => decide (r.volume ≠ o.volume))).length < c.copies.length :=
      List.length_filter_lt_length_iff_exists.mpr ⟨o, ho, by simp⟩
    refine ⟨?_, ?_, fun r hr hs => ?_⟩
    · rw [List.length_append]
      exact (Nat.succ_le_of_lt shorter).trans len
    · rw [List.map_append, List.nodup_append]
      refine ⟨nodup.sublist (sub.map _), List.nodup_singleton _, ?_⟩
      rintro x hx _ hy rfl
      obtain rfl := List.mem_singleton.mp hy
      exact absent ((sub.map _).subset hx)
    · obtain hr | hr := List.mem_append.mp hr
      · exact digest r (sub.subset hr) hs
      · exact absurd hs (made (List.mem_singleton.mp hr))

end

/-! ## A record made -/

section
variable {e : Engine} {g : Settings} {h : Handle} {v : Fin 16} {n : Nat}

/-- The records of a clip after the catalogue's answer is carried out. -/
def Engine.planned (e : Engine) (h : Handle) (plan : RecordPlan) (v : Fin 16) (n : Nat) : Engine :=
  e.updateClip h (fun c => { c with copies := plan.apply c.copies v n })

theorem Engine.makeRecord_none (hc : e.clipAt h = none) : Engine.makeRecord g h n e v = e := by
  unfold Engine.makeRecord
  rw [hc]

theorem Engine.makeRecord_some {c : Clip} (hc : e.clipAt h = some c) : Engine.makeRecord g h n e v =
    (match recordPlan c.copies (e.busyVolumes h) v with
      | .replace old => (e.planned h (recordPlan c.copies (e.busyVolumes h) v) v n).settleEntry old
      | .resetRecord => Engine.failReaders g h v (e.planned h (recordPlan c.copies (e.busyVolumes h) v) v n)
      | .append => e.planned h (recordPlan c.copies (e.busyVolumes h) v) v n
      | .refuse => e.planned h (recordPlan c.copies (e.busyVolumes h) v) v n) := by
  unfold Engine.makeRecord
  rw [hc]
  rfl

/-- A record that is reset keeps its volume and is not VERIFIED. -/
theorem Quiet.planned_reset {a : Engine} (q : Quiet a e) : Quiet a (e.planned h .resetRecord v n) := by
  have same : ∀ c : Clip, c.copies.map (fun r => if r.volume = v then CopyRecord.made v n else r) =
      c.copies.map (fun r => if r.volume = v then CopyRecord.made r.volume n else r) :=
    fun c => List.map_congr_left fun r _ => by split <;> simp_all
  have : e.planned h .resetRecord v n = e.updateCopy h v (fun r => CopyRecord.made r.volume n) := by
    simp only [Engine.planned, RecordPlan.apply, Engine.updateCopy, same]
  rw [this]
  exact q.updateCopyOther

theorem Quiet.planned_refuse {a : Engine} (q : Quiet a e) : Quiet a (e.planned h .refuse v n) :=
  q.updateClip (fun _ => rfl) (fun _ _ _ hc => hc)

theorem ClipsOk.planned (k : ClipsOk e) {busy : List (Fin 16)} {c : Clip} (hc : e.clipAt h = some c) :
    ClipsOk (e.planned h (recordPlan c.copies busy v) v n) := by
  refine k.updateClip (fun _ => ⟨rfl, rfl⟩) (fun d hd hl => ?_)
  obtain rfl := Option.some.inj (hc.symm.trans hd)
  exact Clip.copiesLegal_apply hl

theorem Engine.planned_names {plan : RecordPlan} {w : Fin 16}
    (hp : ∀ xs : List CopyRecord, w ∈ (plan.apply xs v n).map (·.volume) → w ∈ xs.map (·.volume)) (hw : (e.planned h plan v n).names w) :
    e.names w := by
  obtain ⟨i, c, hc, hm⟩ := hw
  obtain hi | ⟨d, hd, rfl, rfl⟩ := Engine.updateClip_clipIn hc
  · exact ⟨i, c, hi, hm⟩
  · exact ⟨_, d, (Engine.clipAt_eq_some.mp hd).2, hp _ hm⟩

theorem Engine.names_planned {plan : RecordPlan} {w : Fin 16}
    (hp : ∀ xs : List CopyRecord, w ∈ xs.map (·.volume) → w ∈ (plan.apply xs v n).map (·.volume)) (hw : e.names w) :
    (e.planned h plan v n).names w := by
  obtain ⟨i, c, hc, hm⟩ := hw
  obtain hi | ⟨-, -, hi⟩ := Engine.clipIn_updateClip (h := h) (f := fun c => { c with copies := plan.apply c.copies v n }) hc
  · exact ⟨i, c, hi, hm⟩
  · exact ⟨i, _, hi, hp _ hm⟩

/-- The use of an entry that a plan neither adds nor takes a record of. -/
theorem Engine.usedAt.planned {plan : RecordPlan} {w : Fin 16}
    (hp : ∀ xs : List CopyRecord, w ∈ (plan.apply xs v n).map (·.volume) ↔ w ∈ xs.map (·.volume)) (hu : e.usedAt w) :
    (e.planned h plan v n).usedAt w := by
  have table : (e.planned h plan v n).volumes = e.volumes := by simp [Engine.planned]
  have names : (e.planned h plan v n).names w ↔ e.names w :=
    ⟨Engine.planned_names fun xs => (hp xs).mp, Engine.names_planned fun xs => (hp xs).mpr⟩
  rw [Engine.usedAt_iff] at hu ⊢
  rw [names, Engine.portOf, table]
  exact hu

/-- An inserted entry is in use whatever names it. -/
theorem Engine.usedAt_of_inserted {p : Fin 4} (hp : e.portOf v = some p) : e.usedAt v :=
  have hs : (e.portOf v).isSome = true := by rw [hp]; rfl
  ⟨fun _ => .inl hs, fun _ => Engine.portOf_isSome hs⟩

/-- A record is made for an inserted volume. -/
theorem Stocks.makeRecord {p : Fin 4} (hp : e.portOf v = some p) : Stocks e (Engine.makeRecord g h n e v) := by
  cases hc : e.clipAt h with
  | none => rw [Engine.makeRecord_none hc]; exact .refl e
  | some c =>
    rw [Engine.makeRecord_some hc]
    have ok : ClipsOk e → ClipsOk (e.planned h (recordPlan c.copies (e.busyVolumes h) v) v n) := fun k => k.planned hc
    have cards : ∀ plan, CardsQuiet e (e.planned h plan v n) := fun plan => by
      unfold Engine.planned
      exact .of_eq (by simp) (by simp) (by simp) (by simp)
    have table : ∀ plan, (e.planned h plan v n).volumes = e.volumes := fun plan => by simp [Engine.planned]
    have volumes : ∀ plan, VolumesQuiet e (e.planned h plan v n) := fun plan => .of_eq (table plan) (by simp [Engine.planned]) (by simp [Engine.planned])
    have port : ∀ plan w, (e.planned h plan v n).portOf w = e.portOf w := fun plan => (volumes plan).portOf
    obtain hplan | hplan | ⟨-, ⟨hplan, -⟩ | ⟨o, ho, hplan⟩⟩ := recordPlan_cases (copies := c.copies) (busy := e.busyVolumes h) (v := v) <;>
      rw [hplan] at ok ⊢ <;> dsimp only
    · exact (Quiet.refl e).planned_reset.failReaders.stocks
    · exact (Quiet.refl e).planned_refuse.stocks
    · refine ⟨cards _, ok, (volumes _).ok, fun _ _ hu w => ?_, fun w q hw => (port _ w).trans hw⟩
      by_cases hw : w = v
      · subst hw
        exact Engine.usedAt_of_inserted ((port _ w).trans hp)
      · exact (hu w).planned fun xs => by simp [RecordPlan.apply, CopyRecord.made, hw]
    · have move := Engine.settleEntry_move (e.planned h (.replace o.volume) v n) o.volume
      refine ⟨(cards _).trans move.cardsQuiet, fun k => move.clipsQuiet.ok (ok k), fun k => ((volumes _).ok k).settleEntry _, fun _ _ hu => ?_,
        fun w q hw => Engine.settleEntry_inserted _ _ ((port _ w).trans hw)⟩
      refine Engine.usedAt.settleEntry (fun w hw => ?_) (fun _ => ?_)
      · by_cases hv : w = v
        · subst hv
          exact Engine.usedAt_of_inserted ((port _ w).trans hp)
        · exact (hu w).planned fun xs => by rw [mem_volumes_replace]; simp [hw, hv]
      · rw [table]
        exact (Engine.usedAt_iff.mp (hu o.volume)).mpr
          (.inr ⟨_, c, (Engine.clipAt_eq_some.mp hc).2, List.mem_map_of_mem ho⟩)

end
end Sys2Proof.Machine
end

