-- ==== Sys2Proof/Proofs/AddedWork.lean ====
section
/-!
SUPPORT. The COPYs queued by the OFFLOAD station and by the matrix, and the end of a step, add work (R80, R95 to R101, R195 to R199).
-/

namespace Sys2Proof.Machine

section
variable {e : Engine} {g : Settings} {h : Handle} {v : Fin 16} {n : Nat}

/-! ## COPYs queued -/

/-- Every volume of a list is inserted. -/
def Engine.allInserted (e : Engine) (vs : List (Fin 16)) : Prop := ∀ v ∈ vs, ∃ p, e.portOf v = some p

theorem Stocks.allInserted {a b : Engine} (k : Stocks a b) {vs : List (Fin 16)} (hv : a.allInserted vs) : b.allInserted vs :=
  fun v hm => (hv v hm).imp fun p hp => k.inserted v p hp

theorem Stocks.makeRecords {vs : List (Fin 16)} (hv : e.allInserted vs) : Stocks e (vs.foldl (Engine.makeRecord g h n) e) := by
  induction vs generalizing e with
  | nil => exact .refl e
  | cons v vs ih =>
    obtain ⟨p, hp⟩ := hv v (by simp)
    have first : Stocks e (Engine.makeRecord g h n e v) := .makeRecord hp
    exact first.trans (ih (first.allInserted fun w hw => hv w (by simp [hw])))

theorem Stocks.queueCopy {vs : List (Fin 16)} (hv : e.allInserted vs) {c : Fin 32} {src : Source} :
    Stocks e (e.queueCopy g c h src vs n) :=
  (Stocks.makeRecords hv).quiet (Quiet.refl _).addDescriptor.markQueued

theorem Engine.allInserted_volumesAt (mask : BitVec 4) : e.allInserted (e.volumesAt mask) := by
  intro v hv
  obtain ⟨p, -, hp⟩ := List.mem_filterMap.mp hv
  split at hp
  · exact ⟨p, Engine.portOf_entryAt hp⟩
  · cases hp

theorem plannedTargets_subset {busy vs : List (Fin 16)} {copies : List CopyRecord} : plannedTargets busy vs copies ⊆ vs := by
  induction vs generalizing copies with
  | nil => exact List.Subset.refl _
  | cons v vs ih =>
    simp only [plannedTargets]
    split
    · exact List.subset_cons_of_subset v ih
    · exact List.cons_subset_cons v ih

theorem Stocks.queueRecopy {c : Clip} {mask : BitVec 4} {x : Fin 64 × Source × List (Fin 16) × Engine}
    (he : e.queueRecopy g c mask n = .ok x) : Stocks e x.2.2.2 := by
  unfold Engine.queueRecopy at he
  dsimp only at he
  split at he
  · cases he
  split at he
  swap
  · cases he
  by_cases ht : e.recopyTargets c mask = []
  · rw [if_pos ht] at he; cases he
  rw [if_neg ht] at he
  split at he
  · cases he
  cases hs : e.recopySource c ‹_› with
  | none => rw [hs] at he; cases he
  | some source =>
  cases hf : e.freeDescriptor with
  | none => rw [hs, hf] at he; cases he
  | some slot =>
  rw [hs, hf] at he
  simp only [Except.ok.injEq] at he
  rw [← he]
  have inserted : e.allInserted (e.recopyTargets c mask) := fun v hv =>
    Engine.allInserted_volumesAt mask v (List.mem_of_mem_filter hv)
  have queued : Stocks e (e.queueCopy g c.card c.handle source (e.recopyTargets c mask) n) := .queueCopy inserted
  dsimp only
  exact queued.quiet (Quiet.refl _).recomputeCard

theorem Stocks.recopy {slot gen mask : Nat} {x : Fin 64 × Source × List (Fin 16) × Engine} (he : e.recopy g slot gen mask = .ok x) :
    Stocks e x.2.2.2 := by
  unfold Engine.recopy at he
  cases hk : e.checkClip slot gen with
  | error x => rw [hk] at he; cases he
  | ok c =>
    rw [hk] at he
    dsimp only at he
    by_cases hm : mask = 0 ∨ 15 < mask
    · rw [if_pos hm] at he; cases he
    rw [if_neg hm] at he
    cases hq : e.queueRecopy g c (BitVec.ofNat 4 mask) 0 with
    | error x => rw [hq] at he; cases he
    | ok y =>
      rw [hq] at he
      rw [← Except.ok.inj he]
      exact (Stocks.queueRecopy hq).quiet (Quiet.refl _).settleTransfer

theorem Stocks.requeue : Stocks e (e.requeue g h v n) := by
  unfold Engine.requeue
  split
  · split
    · next hq => exact (Stocks.queueRecopy hq).quiet (Quiet.refl _).settleTransfer
    · exact .refl e
  · exact .refl e

/-! ## START_OFFLOAD -/

theorem Engine.allInserted_work {c : Fin 32} {first : Bool} {mask : BitVec 4} {required : Nat} :
    ∀ x ∈ e.offloadWork c first (e.availableVolumes mask) required, e.allInserted x.2 := by
  have available : e.allInserted (e.availableVolumes mask) := fun v hv =>
    Engine.allInserted_volumesAt mask v (List.mem_of_mem_filter hv)
  intro x hx
  unfold Engine.offloadWork at hx
  split at hx
  · obtain ⟨c, -, rfl⟩ := List.mem_map.mp hx
    exact available
  · obtain ⟨c, -, rfl⟩ := List.mem_map.mp (List.mem_of_mem_filter hx)
    intro v hv
    dsimp only [Engine.topUpTargets] at hv
    split at hv
    · exact available v (List.mem_of_mem_filter (plannedTargets_subset hv))
    · cases hv

theorem Stocks.queueCopies {c : Fin 32} {work : List (Handle × List (Fin 16))} (hw : ∀ x ∈ work, e.allInserted x.2) :
    Stocks e (work.foldl (fun e x => e.queueCopy g c x.1 .card x.2 0) e) := by
  induction work generalizing e with
  | nil => exact .refl e
  | cons x work ih =>
    have first : Stocks e (e.queueCopy g c x.1 .card x.2 0) := .queueCopy (hw x (by simp))
    exact first.trans (ih fun y hy => first.allInserted (hw y (by simp [hy])))

/-- A card that does not wait for space does not come to wait by work. -/
theorem CardsQuiet.not_waits {a b : Engine} (q : CardsQuiet a b) {c : Fin 32} (ha : ∀ r, a.cards[c] = some r → r.state ≠ .waitSpace)
    {r : CardRecord} (hr : b.cards[c] = some r) : r.state ≠ .waitSpace := by
  obtain ⟨s, hs, -, -, hw, -⟩ := q.standing hr
  exact fun k => ha s hs (hw.mp k)

theorem Quiet.enterOffload {a : Engine} (q : Quiet a e) {c : Fin 32} (hc : ∀ r, e.cards[c] = some r → r.state ≠ .waitSpace) :
    Quiet a (e.enterOffload c) := by
  have never := e.cardStateFromQueue_ne c
  unfold Engine.enterOffload
  split
  · exact q.becomeOffloaded hc
  · exact q.setCardState never hc

theorem Stocks.beginOffload {c : Fin 32} {set : SetFields} {work : List (Handle × List (Fin 16))} (hw : ∀ x ∈ work, e.allInserted x.2)
    (hc : ∀ r, e.cards[c] = some r → r.state ≠ .waitSpace) : Stocks e (e.beginOffload g c set work) := by
  have snapshot : Stocks e ((((e.updateCard c (fun r => { r with snapshot := some set })).clipsOf c).map (·.handle)).foldl
      Engine.recomputeCopyState (e.updateCard c (fun r => { r with snapshot := some set }))) :=
    ((Quiet.refl e).updateHolds.foldl (fun _ _ h => h.recomputeCopyState) _).stocks
  have copies := snapshot.trans (Stocks.queueCopies (g := g) (c := c) fun x hx => snapshot.allInserted (hw x hx))
  exact copies.quiet ((Quiet.refl _).enterOffload fun r hr => copies.cards.not_waits hc hr).settleTransfer

theorem Stocks.startOffload {card set : Nat} {x : Nat × List (Fin 16) × Engine} (he : e.startOffload g card set = .ok x) :
    Stocks e x.2.2 := by
  unfold Engine.startOffload at he
  split at he
  · cases he
  · next c r hr =>
    split at he
    · cases he
    · dsimp only at he
      split at he
      · cases he
      · split at he
        · cases he
        · next hs =>
          repeat' split at he
          all_goals cases he
          refine .beginOffload Engine.allInserted_work fun y hy => ?_
          obtain rfl := Option.some.inj ((Engine.checkCard_ok hr).symm.trans hy)
          exact fun k => hs (by rw [k]; decide)

/-! ## The end of a step -/

theorem Stocks.requeuePair {waits : Bool} : Stocks e (e.requeuePair g h v n waits) := by
  unfold Engine.requeuePair
  split
  · exact (Quiet.frame (.refl e) rfl).stocks
  · exact .requeue

theorem Stocks.requeueFailed : Stocks e (e.requeueFailed g h v) := by
  unfold Engine.requeueFailed
  repeat' split
  · exact .requeuePair
  · exact .refl e
  · exact .refl e

theorem Stocks.requeueInserted : Stocks e (Engine.requeueInserted g v e h) := by
  unfold Engine.requeueInserted
  repeat' split
  · exact .requeuePair
  · exact .refl e
  · exact .refl e

/-- An action of the matrix adds work (R195). -/
theorem Stocks.act {x : LinkEntry} {ev : Event} : Stocks e (e.act g x ev) := by
  unfold Engine.act
  split
  · repeat' split
    · next hk => exact ((Quiet.refl e).holdCard hk).stocks
    · exact .refl e
    · exact .refl e
  · split
    · exact .requeueFailed
    · exact Stocks.foldl (fun _ _ k => k.trans .requeueInserted) _ (.refl e)
    · exact .refl e
  · repeat' split
    · next hk => exact ((Quiet.refl e).queueRender hk).stocks
    · exact .refl e
    · exact .refl e
  · split
    · exact (Quiet.refl e).cancelRenders.stocks
    · exact .refl e
  · repeat' split
    · next hk => exact ((Quiet.refl e).cueMonitor hk).stocks
    · exact .refl e
    · exact .refl e
  · exact (Quiet.frame (.refl e) rfl).stocks

theorem Stocks.takeEvent {ev : Event} : Stocks e (e.takeEvent g ev) := by
  refine Stocks.foldl (fun e x k => ?_) _ (.refl e)
  cases x with
  | none => exact k
  | some x =>
    refine k.trans ?_
    show Stocks e (if _ then _ else _)
    split
    · exact .act
    · exact .refl e

theorem Stocks.examineRequeues {n : Nat} : Stocks e (Engine.examineRequeues g n e) := by
  induction n generalizing e with
  | zero => exact .refl e
  | succ n ih =>
    unfold Engine.examineRequeues
    split
    · have listed : ∀ x, Stocks e { e with requeues := e.requeues.erase x } := fun _ => (Quiet.frame (.refl e) rfl).stocks
      exact ((listed _).trans .requeue).trans ih
    · exact .refl e

theorem Stocks.endStep : Stocks e (e.endStep g) := by
  have taken : Stocks e (e.takeEvents g) := Stocks.foldl (fun _ _ k => k.trans .takeEvent) _ (.refl e)
  unfold Engine.endStep Engine.afterRemoval
  split
  · exact taken.trans .examineRequeues
  · exact taken

theorem Quiet.beginStep {a : Engine} (q : Quiet a e) : Quiet a e.beginStep := q.frame rfl

end

end Sys2Proof.Machine
end

