-- ==== Sys2Proof/Proofs/ClipSlots.lean ====
section
/-!
SUPPORT. The clip slots: takes registered (R12, R15) and clips retired (R18 to R20) keep the clip records legal and the use of the volume
entries.
-/

namespace Sys2Proof.Machine

/-! ## Changes of the clip slots -/

/-- A change of the clip slots that leaves the Volume Table and the volumes that copy records name. -/
structure Registers (a b : Engine) : Prop where
  clips : ClipsOk a → ClipsOk b
  table : VolumesQuiet a b
  names : ∀ v, b.names v ↔ a.names v

theorem Registers.refl (a : Engine) : Registers a a := ⟨id, .refl a, fun _ => Iff.rfl⟩

theorem Registers.trans {a b c : Engine} (h : Registers a b) (k : Registers b c) : Registers a c :=
  ⟨k.clips ∘ h.clips, h.table.trans k.table, fun v => (k.names v).trans (h.names v)⟩

theorem Quiet.registers {a b : Engine} (q : Quiet a b) : Registers a b :=
  ⟨q.clips.ok, q.volumes, fun v => by rw [← Engine.refCount_pos, ← Engine.refCount_pos, q.clips.refCount]⟩

theorem Registers.used {a b : Engine} (h : Registers a b) {v : Fin 16} (hu : a.usedAt v) : b.usedAt v := by
  have there : (b.volumes[v]).isSome = (a.volumes[v]).isSome := by
    simpa using congrArg Option.isSome (h.table.entries v)
  rw [Engine.usedAt_iff] at hu ⊢
  rw [there, h.table.portOf, h.names]
  exact hu

/-- With the cards kept, a change of the clip slots keeps the invariants. -/
theorem Registers.keeps {a b : Engine} (h : Registers a b) (hc : CardsOk a → CardsOk b) : Keeps a b :=
  ⟨hc, h.clips, h.table.ok, fun _ _ hu v => h.used (hu v)⟩

/-- The clip slots, the clip lists and the Volume Table stay. -/
theorem Registers.of_eq {a b : Engine} (hl : ∀ c : Fin 32, (b.cards[c]).map (·.clips) = (a.cards[c]).map (·.clips)) (hc : b.clips = a.clips)
    (hv : b.volumes = a.volumes) (hp : b.destPorts = a.destPorts) (hu : b.untracked = a.untracked) : Registers a b where
  clips := ClipsQuiet.ok ⟨hl, fun _ => by rw [hc], fun _ => by rw [Engine.clipIn, hc],
    fun _ h i c hi => h i c (by rwa [Engine.clipIn, hc] at hi)⟩
  table := .of_eq hv hp hu
  names v := by
    unfold Engine.names Engine.clipIn
    rw [hc]

section
variable {e : Engine} {card : Fin 32} {x : Fin 512 × Take}

/-! ## A take registered -/

/-- The slots after a take is registered. -/
theorem Engine.registerTake_slot (i : Fin 512) : (Engine.registerTake card e x).clips[i] =
    if i = x.1 then ⟨(e.clips[x.1]).gen, some (Clip.made ⟨x.1, (e.clips[x.1]).gen⟩ card x.2)⟩ else e.clips[i] := by
  unfold Engine.registerTake
  simp only [Engine.updateCard_clips]
  by_cases hi : i = x.1
  · subst hi; simp
  · simp [Fin.val_inj, Ne.symm hi, hi]

/-- The cards after a take is registered. -/
theorem Engine.registerTake_card (c : Fin 32) : (Engine.registerTake card e x).cards[c] =
    (e.cards[c]).map (fun r => if c = card then { r with clips := r.clips ++ [⟨x.1, (e.clips[x.1]).gen⟩] } else r) :=
  Engine.updateCard_card _ card _ c

theorem CardsQuiet.registerTake : CardsQuiet e (Engine.registerTake card e x) where
  cards c := by
    rw [Engine.registerTake_card]
    cases e.cards[c] with
    | none => rfl
    | some r => simp only [Option.map_some]; split <;> rfl
  state p := by simp [Engine.registerTake]
  read p h := .inl (by simpa [Engine.registerTake] using h)
  noRecord := by simp [Engine.registerTake]
  waitList := by simp [Engine.registerTake]

theorem ClipsOk.registerTake (k : ClipsOk e) (hf : (e.clips[x.1]).clip = none) (hc : (e.cards[card]).isSome = true) :
    ClipsOk (Engine.registerTake card e x) := by
  have slot : ∀ {i : Fin 512} {c : Clip}, (Engine.registerTake card e x).clipIn i = some c →
      (i = x.1 ∧ c = Clip.made ⟨x.1, (e.clips[x.1]).gen⟩ card x.2) ∨ (i ≠ x.1 ∧ e.clipIn i = some c) := by
    intro i c hi
    rw [Engine.clipIn, Engine.registerTake_slot] at hi
    split at hi
    · next h => exact .inl ⟨h, (Option.some.inj hi).symm⟩
    · next h => exact .inr ⟨h, hi⟩
  have gen : ∀ i : Fin 512, ((Engine.registerTake card e x).clips[i]).gen = (e.clips[i]).gen := by
    intro i
    rw [Engine.registerTake_slot]
    split
    · next h => subst h; rfl
    · rfl
  have stays : ∀ {h : Handle} {c : Clip}, e.clipAt h = some c → h.slot ≠ x.1 ∧ (Engine.registerTake card e x).clipAt h = some c := by
    intro h c hk
    obtain ⟨hg, hi⟩ := Engine.clipAt_eq_some.mp hk
    have ne : h.slot ≠ x.1 := fun hs => by
      rw [Engine.clipIn, hs, hf] at hi
      cases hi
    refine ⟨ne, Engine.clipAt_eq_some.mpr ⟨(gen _).trans hg, ?_⟩⟩
    rw [Engine.clipIn, Engine.registerTake_slot, if_neg ne]
    exact hi
  refine ⟨fun i c hi => ?_, fun i c hi => ?_, fun i c hi => ?_, fun d r hr => ?_, fun d r hr h hm => ?_⟩
  · rw [gen]
    obtain ⟨rfl, rfl⟩ | ⟨-, hi⟩ := slot hi
    · rfl
    · exact k.placed i c hi
  · obtain ⟨rfl, rfl⟩ | ⟨-, hi⟩ := slot hi
    · rw [Clip.copiesLegal_iff]
      exact ⟨Nat.zero_le _, List.nodup_nil, nofun⟩
    · exact k.copies i c hi
  · rw [Engine.registerTake_card]
    obtain ⟨rfl, rfl⟩ | ⟨-, hi⟩ := slot hi
    · obtain ⟨r, hr⟩ := Option.isSome_iff_exists.mp hc
      refine ⟨_, Option.map_eq_some_iff.mpr ⟨r, hr, rfl⟩, ?_⟩
      rw [if_pos (show (Clip.made _ card _).card = card from rfl)]
      exact List.mem_append_right _ (List.mem_singleton.mpr rfl)
    · obtain ⟨r, hr, hm⟩ := k.listed i c hi
      refine ⟨_, Option.map_eq_some_iff.mpr ⟨r, hr, rfl⟩, ?_⟩
      split
      · exact List.mem_append_left _ hm
      · exact hm
  · rw [Engine.registerTake_card] at hr
    obtain ⟨s, hs, rfl⟩ := Option.map_eq_some_iff.mp hr
    have nodup := k.nodup d s hs
    split
    · rw [List.nodup_append]
      refine ⟨nodup, List.nodup_singleton _, fun h hm y hy hxy => ?_⟩
      obtain rfl := List.mem_singleton.mp hy
      obtain ⟨c, hk, -⟩ := k.current d s hs h hm
      exact (stays hk).1 (by rw [hxy])
    · exact nodup
  · rw [Engine.registerTake_card] at hr
    obtain ⟨s, hs, rfl⟩ := Option.map_eq_some_iff.mp hr
    have old : h ∈ s.clips → ∃ c, (Engine.registerTake card e x).clipAt h = some c ∧ c.card = d := by
      intro hm
      obtain ⟨c, hk, hd⟩ := k.current d s hs h hm
      exact ⟨c, (stays hk).2, hd⟩
    split at hm
    · next hd =>
      obtain hm | hm := List.mem_append.mp hm
      · exact old hm
      · obtain rfl := List.mem_singleton.mp hm
        refine ⟨Clip.made ⟨x.1, (e.clips[x.1]).gen⟩ card x.2, Engine.clipAt_eq_some.mpr ⟨gen _, ?_⟩, hd.symm⟩
        rw [Engine.clipIn, Engine.registerTake_slot, if_pos rfl]
    · exact old hm

/-- A take is registered in a free slot for a card record. -/
theorem Registers.registerTake (hf : (e.clips[x.1]).clip = none) (hc : (e.cards[card]).isSome = true) :
    Registers e (Engine.registerTake card e x) := by
  refine ⟨fun k => k.registerTake hf hc, .of_eq (by simp [Engine.registerTake]) (by simp [Engine.registerTake]) (by simp [Engine.registerTake]),
    fun v => ⟨?_, ?_⟩⟩
  · rintro ⟨i, c, hi, hv⟩
    rw [Engine.clipIn, Engine.registerTake_slot] at hi
    split at hi
    · obtain rfl := Option.some.inj hi
      cases hv
    · exact ⟨i, c, hi, hv⟩
  · rintro ⟨i, c, hi, hv⟩
    refine ⟨i, c, ?_, hv⟩
    rw [Engine.clipIn, Engine.registerTake_slot, if_neg]
    · exact hi
    · rintro rfl
      rw [Engine.clipIn, hf] at hi
      cases hi

/-! ## Takes registered -/

theorem CardsQuiet.registerTakes {takes : List Take} : CardsQuiet e (e.registerTakes card takes) := by
  unfold Engine.registerTakes
  generalize e.freeClips.zip takes = xs
  induction xs generalizing e with
  | nil => exact .refl e
  | cons x xs ih => exact CardsQuiet.registerTake.trans ih

theorem CardsQuiet.isSome {a b : Engine} (q : CardsQuiet a b) (c : Fin 32) : (b.cards[c]).isSome = (a.cards[c]).isSome := by
  simpa using congrArg Option.isSome (q.cards c)

/-- Takes registered in free slots, each in one of its own. -/
theorem Registers.registerAll {xs : List (Fin 512 × Take)} (hn : xs.Pairwise (fun x y => x.1 ≠ y.1))
    (hf : ∀ x ∈ xs, (e.clips[x.1]).clip = none) (hc : (e.cards[card]).isSome = true) :
    Registers e (xs.foldl (Engine.registerTake card) e) := by
  induction xs generalizing e with
  | nil => exact .refl e
  | cons x xs ih =>
    rw [List.pairwise_cons] at hn
    refine (Registers.registerTake (hf x (by simp)) hc).trans (ih hn.2 (fun y hy => ?_) (by rw [CardsQuiet.registerTake.isSome, hc]))
    rw [Engine.registerTake_slot, if_neg (hn.1 y hy).symm]
    exact hf y (by simp [hy])

theorem pairwise_fst_zip {α β : Type} {l : List α} (hl : l.Nodup) (m : List β) : (l.zip m).Pairwise (fun x y => x.1 ≠ y.1) := by
  induction l generalizing m with
  | nil => simp
  | cons a l ih =>
    cases m with
    | nil => simp
    | cons b m =>
      rw [List.nodup_cons] at hl
      rw [List.zip_cons_cons, List.pairwise_cons]
      refine ⟨fun y hy hay => hl.1 ?_, ih hl.2 m⟩
      rw [show a = y.1 from hay]
      exact (List.of_mem_zip hy).1

theorem Engine.freeClips_nodup : e.freeClips.Nodup := by
  unfold Engine.freeClips
  exact List.Nodup.filter _ (List.nodup_finRange 512)

theorem Engine.mem_freeClips {i : Fin 512} : i ∈ e.freeClips ↔ (e.clips[i]).clip = none := by
  unfold Engine.freeClips
  rw [List.mem_filter]
  simp

theorem Registers.registerTakes {takes : List Take} (hc : (e.cards[card]).isSome = true) : Registers e (e.registerTakes card takes) := by
  unfold Engine.registerTakes
  exact .registerAll (pairwise_fst_zip Engine.freeClips_nodup takes) (fun x hx => Engine.mem_freeClips.mp (List.of_mem_zip hx).1) hc

/-- A card state that is set changes the record alone, and the outputs of its port. -/
theorem Engine.setCardState_cards (e : Engine) (c : Fin 32) (x : CardState) :
    (e.setCardState c x).cards = (e.updateCard c (fun r => { r with state := x })).cards := by
  unfold Engine.setCardState
  dsimp only
  split <;> rfl

/-- A waiting registration completes. -/
theorem Registers.completeRegistration {takes : List Take} (hc : (e.cards[card]).isSome = true) :
    Registers e (e.completeRegistration card takes) := by
  refine (Registers.registerTakes (takes := takes) hc).trans (.of_eq (fun c => ?_) ?_ ?_ ?_ ?_)
  · unfold Engine.completeRegistration
    dsimp only
    rw [Engine.setCardState_cards, Engine.updateCard_card, Engine.updateCard_card, Option.map_map, Option.map_map]
    cases (e.registerTakes card takes).cards[c] with
    | none => rfl
    | some r => simp only [Option.map_some, Function.comp]; split <;> rfl
  all_goals simp [Engine.completeRegistration]

theorem Registers.completeRegistrations (n : Nat) : Registers e (Engine.completeRegistrations n e) := by
  induction n generalizing e with
  | zero => exact .refl e
  | succ n ih =>
    unfold Engine.completeRegistrations
    split
    · next c _ _ =>
      split
      · next takes ht =>
        split
        · obtain ⟨r, hr, -⟩ := Option.bind_eq_some_iff.mp ht
          exact (Registers.completeRegistration (by rw [hr]; rfl)).trans ih
        · exact .refl e
      · exact .refl e
    · exact .refl e

theorem Registers.clipsFreed : Registers e e.clipsFreed := .completeRegistrations _

end

end Sys2Proof.Machine
end

