-- ==== Sys2Proof/Proofs/CardRecords.lean ====
section
/-!
SUPPORT. Card records and card ports: attachment, the no-record list and the waiting registrations (R12 to R17, R29, R33) keep the invariants
of O41.
-/

namespace Sys2Proof.Machine

/-! ## A port whose card is in hand -/

/-- No card record is attached at the port. -/
def Engine.vacant (e : Engine) (p : Fin 4) : Prop := ∀ (c : Fin 32) r, e.cards[c] = some r → r.attached ≠ some p

/-- The card records and the card ports agree but for one port: it is off the no-record list, and no record is attached there but, perhaps, one that is being attached. -/
structure CardsOkBut (e : Engine) (p : Fin 4) (own : Option (Fin 32)) : Prop where
  identity : ∀ (c d : Fin 32) r s, e.cards[c] = some r → e.cards[d] = some s → r.identity = s.identity → c = d
  attached : ∀ (c d : Fin 32) r s q, e.cards[c] = some r → e.cards[d] = some s → r.attached = some q → s.attached = some q → c = d
  ported : ∀ (c : Fin 32) r (q : Fin 4), q ≠ p → e.cards[c] = some r → r.attached = some q → (e.cardPorts[q]).state.holdsCard
  reading : ∀ q : Fin 4, q ≠ p → (e.cardPorts[q]).read.isSome = true → (e.cardPorts[q]).state = .attached
  noRecordNodup : e.noRecord.Nodup
  noRecord : ∀ q ∈ e.noRecord, (e.cardPorts[q]).state = .noRecord
  waitNodup : e.waitList.Nodup
  waits : ∀ c : Fin 32, c ∈ e.waitList ↔ ∃ r, e.cards[c] = some r ∧ r.state = .waitSpace
  pending : ∀ (c : Fin 32) r, e.cards[c] = some r → (r.pendingDir.isSome = true ↔ r.state = .waitSpace)
  alone : ∀ (c : Fin 32) r, e.cards[c] = some r → r.attached = some p → own = some c
  unlisted : p ∉ e.noRecord

section
variable {e : Engine} {g : Settings} {p : Fin 4} {own : Option (Fin 32)} {card : Fin 32}

/-- No read is outstanding but at an ATTACHED port. -/
theorem CardsOk.unread (h : CardsOk e) (hs : (e.cardPorts[p]).state ≠ .attached) : (e.cardPorts[p]).read = none :=
  Option.not_isSome_iff_eq_none.mp fun k => hs (h.reading p k)

/-- A port without a card record and off the list is set apart. -/
theorem CardsOk.but (h : CardsOk e) (hv : e.vacant p) (hn : p ∉ e.noRecord) : CardsOkBut e p none :=
  ⟨h.identity, h.attached, fun c r q _ => h.ported c r q, fun q _ => h.reading q, h.noRecordNodup, h.noRecord, h.waitNodup, h.waits,
    h.pending, fun c r hc hp => absurd hp (hv c r hc), hn⟩

/-- A port that neither holds a card record's card nor waits for a record is free of both. -/
theorem CardsOk.free (h : CardsOk e) (hs : ¬ (e.cardPorts[p]).state.holdsCard) (hn : (e.cardPorts[p]).state ≠ .noRecord) :
    CardsOkBut e p none :=
  h.but (fun c r hc hp => hs (h.ported c r p hc hp)) (fun k => hn (h.noRecord p k))

/-- A port taken off the no-record list. -/
theorem CardsOk.offList (h : CardsOk e) (hp : p ∈ e.noRecord) :
    CardsOkBut { e with noRecord := e.noRecord.erase p } p none where
  identity := h.identity
  attached := h.attached
  ported c r q _ := h.ported c r q
  reading q _ := h.reading q
  noRecordNodup := h.noRecordNodup.erase p
  noRecord q hq := h.noRecord q (List.mem_of_mem_erase hq)
  waitNodup := h.waitNodup
  waits := h.waits
  pending := h.pending
  alone c r hc hp' := by
    obtain k | k := h.ported c r p hc hp' <;> rw [h.noRecord p hp] at k <;> cases k
  unlisted := h.noRecordNodup.not_mem_erase

/-- The port takes a state again, with a read in ATTACHED alone. -/
theorem CardsOkBut.settled (h : CardsOkBut e p none) {f : CardPort → CardPort}
    (hr : (f e.cardPorts[p]).read.isSome = true → (f e.cardPorts[p]).state = .attached) : CardsOk (e.updatePort p f) where
  identity := h.identity
  attached := h.attached
  ported c r q hc hq := by
    rw [Engine.updatePort_port]
    split
    · next k => subst k; cases h.alone c r hc hq
    · next k => exact h.ported c r q k hc hq
  reading q hq := by
    rw [Engine.updatePort_port] at hq ⊢
    split at hq <;> rename_i k
    · subst k; rw [if_pos rfl]; exact hr hq
    · rw [if_neg k]; exact h.reading q k hq
  noRecordNodup := h.noRecordNodup
  noRecord q hq := by
    have k : q ≠ p := fun k => h.unlisted (by rwa [k] at hq)
    rw [Engine.updatePort_port, if_neg k]
    exact h.noRecord q hq
  waitNodup := h.waitNodup
  waits := h.waits
  pending := h.pending

/-- The same with a change that leaves the card ports, the no-record list and the wait list, and the standing of the cards. -/
theorem CardsOkBut.of_quiet {a : Engine} (h : CardsOkBut e p own) (q : CardsQuiet e a) (hp : a.cardPorts = e.cardPorts) :
    CardsOkBut a p own where
  identity c d r s hr hs he := by
    obtain ⟨r', hr', ir, -⟩ := q.standing hr
    obtain ⟨s', hs', is, -⟩ := q.standing hs
    exact h.identity c d r' s' hr' hs' (by rw [← ir, ← is, he])
  attached c d r s x hr hs hx hx' := by
    obtain ⟨r', hr', -, ar, -⟩ := q.standing hr
    obtain ⟨s', hs', -, as, -⟩ := q.standing hs
    exact h.attached c d r' s' x hr' hs' (by rw [← ar, hx]) (by rw [← as, hx'])
  ported c r x hx hr hq := by
    obtain ⟨r', hr', -, ar, -⟩ := q.standing hr
    rw [hp]
    exact h.ported c r' x hx hr' (by rw [← ar, hq])
  reading := hp ▸ h.reading
  noRecordNodup := q.noRecord ▸ h.noRecordNodup
  noRecord := by rw [q.noRecord, hp]; exact h.noRecord
  waitNodup := q.waitList ▸ h.waitNodup
  waits c := by
    rw [q.waitList, h.waits c]
    constructor
    · rintro ⟨s, hs, hw⟩
      obtain ⟨r, hr, -, -, hk⟩ := q.symm_cards hs
      exact ⟨r, hr, hk.mpr hw⟩
    · rintro ⟨r, hr, hw⟩
      obtain ⟨s, hs, -, -, hk, -⟩ := q.standing hr
      exact ⟨s, hs, hk.mp hw⟩
  pending c r hr := by
    obtain ⟨s, hs, -, -, hk, hd⟩ := q.standing hr
    rw [hd, hk]
    exact h.pending c s hs
  alone c r hr hq := by
    obtain ⟨r', hr', -, ar, -⟩ := q.standing hr
    exact h.alone c r' hr' (by rw [← ar, hq])
  unlisted := q.noRecord ▸ h.unlisted

/-! ## Attachment -/

/-- The record and the port of an attachment, before the port's outputs and the hold flags follow (R12, R29). -/
def Engine.joined (e : Engine) (p : Fin 4) (card : Fin 32) : Engine :=
  (e.updateCard card (fun r => { r with attached := some p })).updatePort p (fun x => { x with state := .attached })

theorem Quiet.attachCard : Quiet (e.joined p card) (e.attachCard p card) :=
  ((Quiet.refl (e.joined p card)).drivePort.changeHolds).signal

theorem Engine.joined_card (c : Fin 32) :
    (e.joined p card).cards[c] = (e.cards[c]).map (fun r => if c = card then { r with attached := some p } else r) :=
  Engine.updateCard_card e card _ c

theorem Engine.joined_port (q : Fin 4) :
    (e.joined p card).cardPorts[q] = if q = p then { e.cardPorts[q] with state := .attached } else e.cardPorts[q] := by
  refine (Engine.updatePort_port _ p _ q).trans ?_
  rw [Engine.updateCard_cardPorts]

theorem Engine.joined_noRecord : (e.joined p card).noRecord = e.noRecord := by simp [Engine.joined]

theorem CardsOkBut.joined (h : CardsOkBut e p own) (ho : ∀ c, own = some c → c = card) : CardsOk (e.joined p card) := by
  have from' : ∀ {c : Fin 32} {r : CardRecord}, (e.joined p card).cards[c] = some r → ∃ s, e.cards[c] = some s ∧ r.identity = s.identity ∧
      r.state = s.state ∧ r.pendingDir = s.pendingDir ∧ (c = card ∧ r.attached = some p ∨ c ≠ card ∧ r = s) := by
    intro c r hr
    rw [Engine.joined_card] at hr
    obtain ⟨s, hs, rfl⟩ := Option.map_eq_some_iff.mp hr
    refine ⟨s, hs, ?_⟩
    split
    · next k => exact ⟨rfl, rfl, rfl, .inl ⟨k, rfl⟩⟩
    · next k => exact ⟨rfl, rfl, rfl, .inr ⟨k, rfl⟩⟩
  refine ⟨fun c d r s hr hs he => ?_, fun c d r s q hr hs hq hq' => ?_, fun c r q hr hq => ?_, fun q hq => ?_, ?_, fun q hq => ?_, ?_,
    fun c => ?_, fun c r hr => ?_⟩
  · obtain ⟨r', hr', ir, -⟩ := from' hr
    obtain ⟨s', hs', is, -⟩ := from' hs
    exact h.identity c d r' s' hr' hs' (by rw [← ir, ← is, he])
  · obtain ⟨r', hr', -, -, -, ⟨rfl, ar⟩ | ⟨nr, rfl⟩⟩ := from' hr <;> obtain ⟨s', hs', -, -, -, ⟨rfl, as⟩ | ⟨ns, rfl⟩⟩ := from' hs
    · rfl
    · obtain rfl := Option.some.inj (ar.symm.trans hq)
      exact (ho d (h.alone d s hs' hq')).symm
    · obtain rfl := Option.some.inj (as.symm.trans hq')
      exact ho c (h.alone c r hr' hq)
    · exact h.attached c d r s q hr' hs' hq hq'
  · rw [Engine.joined_port]
    split
    · exact .inl rfl
    · next k =>
      obtain ⟨r', hr', -, -, -, ⟨-, ar⟩ | ⟨-, rfl⟩⟩ := from' hr
      · exact absurd (Option.some.inj (ar.symm.trans hq)).symm k
      · exact h.ported c r q k hr' hq
  · rw [Engine.joined_port] at hq ⊢
    split
    · rfl
    · next k => rw [if_neg k] at hq; exact h.reading q k hq
  · rw [Engine.joined_noRecord]; exact h.noRecordNodup
  · rw [Engine.joined_noRecord] at hq
    have k : q ≠ p := fun k => h.unlisted (by rwa [k] at hq)
    rw [Engine.joined_port, if_neg k]
    exact h.noRecord q hq
  · rw [show (e.joined p card).waitList = e.waitList by simp [Engine.joined]]; exact h.waitNodup
  · rw [show (e.joined p card).waitList = e.waitList by simp [Engine.joined], h.waits c]
    constructor
    · rintro ⟨s, hs, hw⟩
      refine ⟨_, (Engine.joined_card c).trans (by rw [hs]; rfl), ?_⟩
      split <;> exact hw
    · rintro ⟨r, hr, hw⟩
      obtain ⟨s, hs, -, state, -⟩ := from' hr
      exact ⟨s, hs, state ▸ hw⟩
  · obtain ⟨s, hs, -, state, pend, -⟩ := from' hr
    rw [state, pend]
    exact h.pending c s hs

theorem CardsOkBut.attachCard (h : CardsOkBut e p own) (ho : ∀ c, own = some c → c = card) : CardsOk (e.attachCard p card) :=
  Quiet.attachCard.cards.ok (h.joined ho)

theorem Registers.attachCard : Registers e (e.attachCard p card) := by
  have joined : Registers e (e.joined p card) := by
    refine .of_eq (fun c => ?_) (by simp [Engine.joined]) (by simp [Engine.joined]) (by simp [Engine.joined]) (by simp [Engine.joined])
    rw [Engine.joined_card]
    cases e.cards[c] with
    | none => rfl
    | some r => simp only [Option.map_some]; split <;> rfl
  exact joined.trans Quiet.attachCard.registers

/-! ## What the hand-over of a directory leaves -/

/-- A change at some ports leaves the state of the other ports, their places in the no-record list, and whether a record is attached there. -/
structure OtherPorts (ps : List (Fin 4)) (a b : Engine) : Prop where
  state : ∀ q, q ∉ ps → (b.cardPorts[q]).state = (a.cardPorts[q]).state
  listed : ∀ q, q ∉ ps → (q ∈ b.noRecord ↔ q ∈ a.noRecord)
  vacant : ∀ q, q ∉ ps → a.vacant q → b.vacant q

theorem OtherPorts.trans {ps qs : List (Fin 4)} {a b c : Engine} (h : OtherPorts ps a b) (k : OtherPorts qs b c) :
    OtherPorts (ps ++ qs) a c where
  state q hq := by
    rw [List.mem_append, not_or] at hq
    exact (k.state q hq.2).trans (h.state q hq.1)
  listed q hq := by
    rw [List.mem_append, not_or] at hq
    exact (k.listed q hq.2).trans (h.listed q hq.1)
  vacant q hq hv := by
    rw [List.mem_append, not_or] at hq
    exact k.vacant q hq.2 (h.vacant q hq.1 hv)

theorem OtherPorts.trans_same {ps : List (Fin 4)} {a b c : Engine} (h : OtherPorts ps a b) (k : OtherPorts ps b c) : OtherPorts ps a c :=
  ⟨fun q hq => (k.state q hq).trans (h.state q hq), fun q hq => (k.listed q hq).trans (h.listed q hq),
    fun q hq hv => k.vacant q hq (h.vacant q hq hv)⟩

theorem CardsQuiet.otherPorts {a b : Engine} (q : CardsQuiet a b) (ps : List (Fin 4)) : OtherPorts ps a b where
  state x _ := q.state x
  listed x _ := by rw [q.noRecord]
  vacant x _ hv c r hr hx := by
    obtain ⟨s, hs, -, as, -⟩ := q.standing hr
    exact hv c s hs (by rw [← as, hx])

theorem OtherPorts.attachCard : OtherPorts [p] e (e.attachCard p card) := by
  have joined : OtherPorts [p] e (e.joined p card) := by
    refine ⟨fun q hq => ?_, fun q _ => by rw [Engine.joined_noRecord], fun q hq hv c r hr hx => ?_⟩
    · rw [Engine.joined_port, if_neg (by simpa using hq)]
    · rw [Engine.joined_card] at hr
      obtain ⟨s, hs, rfl⟩ := Option.map_eq_some_iff.mp hr
      split at hx
      · exact hq (by simpa using (Option.some.inj hx).symm)
      · exact hv c s hs hx
  exact joined.trans_same (Quiet.attachCard.cards.otherPorts _)

/-! ## A record made, and a card refused -/

/-- The ports after a card is refused. -/
theorem Engine.refuseCard_port (q : Fin 4) :
    (e.refuseCard p).cardPorts[q] = if q = p then { e.cardPorts[q] with state := .noRecord } else e.cardPorts[q] :=
  Engine.updatePort_port e p (fun x => { x with state := .noRecord }) q

theorem CardsOkBut.refuseCard (h : CardsOkBut e p none) (hr : (e.cardPorts[p]).read = none) : CardsOk (e.refuseCard p) := by
  have settled : CardsOk (e.updatePort p (fun x => { x with state := .noRecord })) :=
    h.settled fun k => by rw [show _ = (e.cardPorts[p]).read from rfl, hr] at k; cases k
  refine ⟨settled.identity, settled.attached, settled.ported, settled.reading, ?_, fun q hq => ?_, settled.waitNodup, settled.waits,
    settled.pending⟩
  · show (e.noRecord ++ [p]).Nodup
    rw [List.nodup_append]
    refine ⟨h.noRecordNodup, List.nodup_singleton _, ?_⟩
    rintro q hq _ hr rfl
    obtain rfl := List.mem_singleton.mp hr
    exact h.unlisted hq
  · obtain hq | hq := List.mem_append.mp (show q ∈ e.noRecord ++ [p] from hq)
    · exact settled.noRecord q hq
    · obtain rfl := List.mem_singleton.mp hq
      rw [Engine.refuseCard_port, if_pos rfl]

theorem Registers.refuseCard : Registers e (e.refuseCard p) := .of_eq (fun _ => rfl) rfl rfl rfl rfl

theorem OtherPorts.refuseCard : OtherPorts [p] e (e.refuseCard p) := by
  refine ⟨fun q hq => ?_, fun q hq => ?_, fun q _ hv => hv⟩
  · rw [Engine.refuseCard_port, if_neg (by simpa using hq)]
  · show q ∈ e.noRecord ++ [p] ↔ _
    rw [List.mem_append]
    exact or_iff_left hq

/-- A record put in a card slot. -/
theorem Engine.setCard_card (cards : Vector (Option CardRecord) 32) (r : Option CardRecord) (c : Fin 32) :
    (cards.set card r)[c] = if c = card then r else cards[c] := by
  by_cases hc : c = card
  · subst hc; simp
  · simp [Fin.val_inj, Ne.symm hc, hc]

/-- A card record put in a slot, with the wait list. -/
def Engine.withCard (e : Engine) (card : Fin 32) (r : CardRecord) (wait : List (Fin 32)) : Engine :=
  { e with cards := e.cards.set card (some r), waitList := wait }

theorem Engine.withCard_card (r : CardRecord) (wait : List (Fin 32)) (c : Fin 32) :
    (e.withCard card r wait).cards[c] = if c = card then some r else e.cards[c] := Engine.setCard_card e.cards (some r) c

theorem Engine.withCard_cases {r s : CardRecord} {wait : List (Fin 32)} {c : Fin 32} (hs : (e.withCard card r wait).cards[c] = some s) :
    c = card ∧ s = r ∨ c ≠ card ∧ e.cards[c] = some s := by
  rw [Engine.withCard_card] at hs
  split at hs
  · next k => exact .inl ⟨k, (Option.some.inj hs).symm⟩
  · next k => exact .inr ⟨k, hs⟩

/-- A new record of an identity that no record has, in a free card slot, registered or waiting. -/
theorem CardsOkBut.newCard (h : CardsOkBut e p none) {r : CardRecord} {wait : List (Fin 32)} (hc : e.cards[card] = none)
    (hi : ∀ (c : Fin 32) s, e.cards[c] = some s → s.identity ≠ r.identity) (ha : r.attached = some p)
    (hw : (wait = e.waitList ∧ r.state ≠ .waitSpace ∧ r.pendingDir = none) ∨
      (wait = e.waitList ++ [card] ∧ r.state = .waitSpace ∧ r.pendingDir.isSome = true)) :
    CardsOkBut (e.withCard card r wait) p (some card) := by
  have unseen : card ∉ e.waitList := fun k => by
    obtain ⟨s, hs, -⟩ := (h.waits card).mp k
    rw [hc] at hs
    cases hs
  refine ⟨fun c d x y hx hy he => ?_, fun c d x y q hx hy hq hq' => ?_, fun c x q hq hx hxq => ?_, h.reading, h.noRecordNodup, h.noRecord,
    ?_, fun c => ?_, fun c x hx => ?_, fun c x hx hxp => ?_, h.unlisted⟩
  · obtain ⟨rfl, rfl⟩ | ⟨-, kx⟩ := Engine.withCard_cases hx <;> obtain ⟨rfl, rfl⟩ | ⟨-, ky⟩ := Engine.withCard_cases hy
    · rfl
    · exact absurd he.symm (hi d y ky)
    · exact absurd he (hi c x kx)
    · exact h.identity c d x y kx ky he
  · obtain ⟨rfl, rfl⟩ | ⟨-, kx⟩ := Engine.withCard_cases hx <;> obtain ⟨rfl, rfl⟩ | ⟨-, ky⟩ := Engine.withCard_cases hy
    · rfl
    · obtain rfl := Option.some.inj (ha.symm.trans hq)
      cases h.alone d y ky hq'
    · obtain rfl := Option.some.inj (ha.symm.trans hq')
      cases h.alone c x kx hq
    · exact h.attached c d x y q kx ky hq hq'
  · obtain ⟨rfl, rfl⟩ | ⟨-, hx⟩ := Engine.withCard_cases hx
    · exact absurd (Option.some.inj (ha.symm.trans hxq)).symm hq
    · exact h.ported c x q hq hx hxq
  · obtain ⟨rfl, -⟩ | ⟨rfl, -⟩ := hw
    · exact h.waitNodup
    · show (e.waitList ++ [card]).Nodup
      rw [List.nodup_append]
      refine ⟨h.waitNodup, List.nodup_singleton _, ?_⟩
      rintro d hd _ hy rfl
      obtain rfl := List.mem_singleton.mp hy
      exact unseen hd
  · show c ∈ wait ↔ _
    rw [Engine.withCard_card]
    by_cases k : c = card
    · subst k
      simp only [if_pos, Option.some.injEq, exists_eq_left']
      obtain ⟨rfl, hs, -⟩ | ⟨rfl, hs, -⟩ := hw
      · exact ⟨fun m => absurd m unseen, fun m => absurd m hs⟩
      · exact ⟨fun _ => hs, fun _ => by simp⟩
    · rw [if_neg k, ← h.waits c]
      obtain ⟨rfl, -⟩ | ⟨rfl, -⟩ := hw
      · rfl
      · simp [k]
  · obtain ⟨rfl, rfl⟩ | ⟨-, hx⟩ := Engine.withCard_cases hx
    · obtain ⟨-, hs, hd⟩ | ⟨-, hs, hd⟩ := hw
      · rw [hd]
        exact ⟨nofun, fun m => absurd m hs⟩
      · exact ⟨fun _ => hs, fun _ => hd⟩
    · exact h.pending c x hx
  · obtain ⟨rfl, -⟩ | ⟨-, hx⟩ := Engine.withCard_cases hx
    · rfl
    · cases h.alone c x hx hxp

/-- A new record without clips in a free card slot leaves the clip records legal. -/
theorem ClipsOk.newCard (h : ClipsOk e) {r : CardRecord} {wait : List (Fin 32)} (hc : e.cards[card] = none) (hl : r.clips = []) :
    ClipsOk (e.withCard card r wait) := by
  refine ⟨h.placed, h.copies, fun i c hi => ?_, fun d x hx => ?_, fun d x hx y hy => ?_⟩
  · obtain ⟨s, hs, hm⟩ := h.listed i c hi
    refine ⟨s, ?_, hm⟩
    rw [Engine.withCard_card, if_neg (fun k => by simp only [k, hc] at hs; cases hs)]
    exact hs
  · obtain ⟨-, rfl⟩ | ⟨-, hx⟩ := Engine.withCard_cases hx
    · rw [hl]; exact List.nodup_nil
    · exact h.nodup d x hx
  · obtain ⟨-, rfl⟩ | ⟨-, hx⟩ := Engine.withCard_cases hx
    · rw [hl] at hy; cases hy
    · exact h.current d x hx y hy

theorem Registers.newCard {r : CardRecord} {wait : List (Fin 32)} (hc : e.cards[card] = none) (hl : r.clips = []) :
    Registers e (e.withCard card r wait) :=
  ⟨fun h => h.newCard hc hl, .of_eq rfl rfl rfl, fun _ => Iff.rfl⟩

theorem OtherPorts.newCard {r : CardRecord} {wait : List (Fin 32)} (ha : r.attached = some p) :
    OtherPorts [p] e (e.withCard card r wait) := by
  refine ⟨fun _ _ => rfl, fun _ _ => Iff.rfl, fun q hq hv c s hs hsq => ?_⟩
  obtain ⟨-, rfl⟩ | ⟨-, hs⟩ := Engine.withCard_cases hs
  · exact hq (by simpa using (Option.some.inj (ha.symm.trans hsq)).symm)
  · exact hv c s hs hsq

/-- What the hand-over of a directory does to the invariants and to the other ports. -/
structure HandedOver (ps : List (Fin 4)) (a b : Engine) : Prop where
  registers : Registers a b
  others : OtherPorts ps a b

/-- A record is made in one of two forms, with its takes registered or waiting (R12, R13). -/
theorem Engine.createCard_cases (d : Directory) :
    e.createCard p d card = ((e.withCard card (CardRecord.made d p .ready none) e.waitList).registerTakes card d.takes).attachCard p card ∨
      e.createCard p d card =
        (e.withCard card (CardRecord.made d p .waitSpace (some d.takes)) (e.waitList ++ [card])).attachCard p card := by
  unfold Engine.createCard
  split
  · exact .inl rfl
  · exact .inr rfl

theorem HandedOver.createCard {d : Directory} (hc : e.cards[card] = none) : HandedOver [p] e (e.createCard p d card) := by
  obtain he | he := Engine.createCard_cases (e := e) (p := p) (card := card) d <;> rw [he]
  · have there : ((e.withCard card (CardRecord.made d p .ready none) e.waitList).cards[card]).isSome = true := by
      rw [Engine.withCard_card, if_pos rfl]; rfl
    have new : Registers e (e.withCard card (CardRecord.made d p .ready none) e.waitList) := .newCard hc rfl
    have others : OtherPorts [p] e (e.withCard card (CardRecord.made d p .ready none) e.waitList) := .newCard rfl
    exact ⟨(new.trans (.registerTakes there)).trans .attachCard,
      (others.trans_same (CardsQuiet.registerTakes.otherPorts _)).trans_same .attachCard⟩
  · exact ⟨(Registers.newCard hc rfl).trans .attachCard, (OtherPorts.newCard rfl).trans_same .attachCard⟩

theorem Engine.registerTakes_cardPorts (takes : List Take) : (e.registerTakes card takes).cardPorts = e.cardPorts := by
  unfold Engine.registerTakes
  generalize e.freeClips.zip takes = xs
  induction xs generalizing e with
  | nil => rfl
  | cons x xs ih => exact ih.trans (by simp [Engine.registerTake])

theorem CardsOkBut.createCard (h : CardsOkBut e p none) {d : Directory} (hc : e.cards[card] = none)
    (hi : ∀ (c : Fin 32) s, e.cards[c] = some s → s.identity ≠ (d.serial, d.format)) : CardsOk (e.createCard p d card) := by
  have own : ∀ c, some card = some c → c = card := fun c k => (Option.some.inj k).symm
  obtain he | he := Engine.createCard_cases (e := e) (p := p) (card := card) d <;> rw [he]
  · have new := h.newCard (r := CardRecord.made d p .ready none) (wait := e.waitList) hc hi rfl (.inl ⟨rfl, nofun, rfl⟩)
    exact (new.of_quiet .registerTakes (Engine.registerTakes_cardPorts _)).attachCard own
  · have new := h.newCard (r := CardRecord.made d p .waitSpace (some d.takes)) (wait := e.waitList ++ [card]) hc hi rfl
      (.inr ⟨rfl, rfl, rfl⟩)
    exact new.attachCard own

end

end Sys2Proof.Machine
end

