-- ==== Sys2Proof/Proofs/CardEvents.lean ====
section
/-!
SUPPORT. The card ports' events (R28 to R37): the arrival and departure of a card, its directory, its reads and stalls keep the invariants
of O41.
-/

namespace Sys2Proof.Machine

section
variable {e : Engine} {g : Settings} {p : Fin 4} {card : Fin 32}

/-! ## A directory handed over -/

theorem Engine.cardOfIdentity_none {d : Directory} (h : e.cardOfIdentity d = none) (c : Fin 32) (r : CardRecord) (hr : e.cards[c] = some r) :
    r.identity ≠ (d.serial, d.format) := by
  have := List.find?_eq_none.mp h c (List.mem_finRange c)
  simp only [hr, Option.map_some, Option.some.injEq, decide_eq_true_eq] at this
  exact this

theorem Engine.freeCard_some (h : e.freeCard = some card) : e.cards[card] = none := by
  have := List.find?_some h
  simpa using this

theorem CardsOkBut.handDirectory (h : CardsOkBut e p none) (hr : (e.cardPorts[p]).read = none) (d : Directory) : CardsOk (e.handDirectory p d) := by
  unfold Engine.handDirectory
  split
  · split
    · exact h.attachCard nofun
    · exact h.refuseCard hr
  · next hn =>
    split
    · next hc => exact h.createCard (Engine.freeCard_some hc) (Engine.cardOfIdentity_none hn)
    · exact h.refuseCard hr

theorem HandedOver.handDirectory (d : Directory) : HandedOver [p] e (e.handDirectory p d) := by
  unfold Engine.handDirectory
  split
  · split
    · exact ⟨.attachCard, .attachCard⟩
    · exact ⟨.refuseCard, .refuseCard⟩
  · split
    · next hc => exact .createCard (Engine.freeCard_some hc)
    · exact ⟨.refuseCard, .refuseCard⟩

/-! ## The no-record list examined -/

theorem HandedOver.reexaminePort : HandedOver [p] e (e.reexaminePort p) := by
  have off : HandedOver [p] e { e with noRecord := e.noRecord.erase p } :=
    ⟨.of_eq (fun _ => rfl) rfl rfl rfl rfl, fun _ _ => rfl,
      fun q hq => List.mem_erase_of_ne (by simpa using hq), fun _ _ hv => hv⟩
  unfold Engine.reexaminePort
  dsimp only
  split
  · next d _ =>
    have handed : HandedOver [p] { e with noRecord := e.noRecord.erase p } (Engine.handDirectory _ p d) := .handDirectory d
    exact ⟨off.registers.trans handed.registers, off.others.trans_same handed.others⟩
  · exact off

/-- A port whose held directory is gone stays off the list. -/
theorem CardsOk.reexaminePort (h : CardsOk e) (hp : p ∈ e.noRecord) : CardsOk (e.reexaminePort p) := by
  unfold Engine.reexaminePort
  dsimp only
  split
  · exact (h.offList hp).handDirectory (h.unread (by rw [h.noRecord p hp]; exact nofun)) _
  · exact ⟨h.identity, h.attached, h.ported, h.reading, h.noRecordNodup.erase p, fun q hq => h.noRecord q (List.mem_of_mem_erase hq),
      h.waitNodup, h.waits, h.pending⟩

/-- Ports of the no-record list examined in turn, each once. -/
theorem Engine.reexaminePorts (ps : List (Fin 4)) (e : Engine) :
    HandedOver ps e (ps.foldl Engine.reexaminePort e) ∧
      (ps.Nodup → (∀ p ∈ ps, p ∈ e.noRecord) → CardsOk e → CardsOk (ps.foldl Engine.reexaminePort e)) := by
  induction ps generalizing e with
  | nil => exact ⟨⟨.refl e, fun _ _ => rfl, fun _ _ => Iff.rfl, fun _ _ hv => hv⟩, fun _ _ h => h⟩
  | cons p ps ih =>
    obtain ⟨rest, ok⟩ := ih (e.reexaminePort p)
    have first : HandedOver [p] e (e.reexaminePort p) := .reexaminePort
    refine ⟨⟨first.registers.trans rest.registers, first.others.trans rest.others⟩, fun hn hm h => ?_⟩
    rw [List.nodup_cons] at hn
    refine ok hn.2 (fun q hq => ?_) (h.reexaminePort (hm p (by simp)))
    have hne : q ∉ [p] := by
      rw [List.mem_singleton]
      exact fun k => hn.1 (k ▸ hq)
    exact (first.others.listed q hne).mpr (hm q (by simp [hq]))

theorem CardsOk.reevaluateNoRecord (h : CardsOk e) : CardsOk e.reevaluateNoRecord :=
  (Engine.reexaminePorts _ e).2 h.noRecordNodup (fun _ hp => hp) h

theorem HandedOver.reevaluateNoRecord : HandedOver e.noRecord e e.reevaluateNoRecord := (Engine.reexaminePorts _ e).1

/-! ## Ports that change their state -/

theorem Registers.updatePort {f : CardPort → CardPort} : Registers e (e.updatePort p f) := .of_eq (fun _ => rfl) rfl rfl rfl rfl

/-- A card port that is free of records takes a state, with a read in ATTACHED alone. -/
theorem Keeps.settleCardPort {a : Engine} {f : CardPort → CardPort} (hr : Registers e a) (hb : CardsOk e → CardsOkBut a p none)
    (hf : CardsOk e → (f a.cardPorts[p]).read.isSome = true → (f a.cardPorts[p]).state = .attached) : Keeps e (a.updatePort p f) :=
  (hr.trans .updatePort).keeps fun h => (hb h).settled (hf h)

theorem Keeps.unreadable (hs : (e.cardPorts[p]).state = .reading) : Keeps e (e.unreadable p) := by
  refine .settleCardPort (.refl e) (fun h => h.free (by rw [hs]; exact nofun) (by rw [hs]; exact nofun)) fun h k => ?_
  rw [show _ = (e.cardPorts[p]).read from rfl, h.unread (by rw [hs]; exact nofun)] at k
  cases k

theorem Keeps.directoryTimesOut : Keeps e (e.directoryTimesOut p) := by
  unfold Engine.directoryTimesOut
  split
  · next hs => exact .unreadable hs
  · exact .refl e

/-- A directory answer keeps the invariants (R29, R30). -/
theorem Keeps.directoryArrives {a : DirectoryAnswer} : Keeps e (e.directoryArrives g p a) := by
  unfold Engine.directoryArrives
  split
  · next d hs =>
    split
    · have held : Quiet e (e.updatePort p (fun x => { x with held := some d })) := (Quiet.refl e).updatePort rfl .inl
      have state : ((e.updatePort p (fun x => { x with held := some d })).cardPorts[p]).state = .reading := (held.cards.state p).trans hs
      have handed : HandedOver [p] _ ((e.updatePort p (fun x => { x with held := some d })).handDirectory p d) := .handDirectory d
      have kept : Keeps e ((e.updatePort p (fun x => { x with held := some d })).handDirectory p d) :=
        (held.registers.trans handed.registers).keeps fun h =>
          ((held.cards.ok h).free (by rw [state]; exact nofun) (by rw [state]; exact nofun)).handDirectory
            ((held.cards.ok h).unread (by rw [state]; exact nofun)) d
      exact kept.quiet (Quiet.refl _).settleTransfer
    · exact .unreadable hs
  · next hs => exact .unreadable hs
  · exact .refl e

/-! ## Departure -/

theorem Engine.cardAt_some (h : e.cardAt p = some card) : ∃ r, e.cards[card] = some r ∧ r.attached = some p := by
  have := List.find?_some h
  exact Option.bind_eq_some_iff.mp (of_decide_eq_true this)

theorem Engine.vacant_of_cardAt (h : e.cardAt p = none) : e.vacant p := by
  intro c r hr hp
  have := List.find?_eq_none.mp h c (List.mem_finRange c)
  simp only [hr, Option.bind_some, decide_eq_true_eq] at this
  exact this hp

/-- The ports after one enters EMPTY. -/
theorem Engine.emptyPort_port (q : Fin 4) :
    (e.emptyPort p).cardPorts[q] = if q = p then { e.cardPorts[q] with state := .empty, held := none, read := none } else e.cardPorts[q] :=
  Engine.updatePort_port e p (fun x => { x with state := .empty, held := none, read := none }) q

/-- What the departure of a card leaves: an EMPTY port, and the invariants. -/
structure Departed (p : Fin 4) (a b : Engine) : Prop where
  keeps : Keeps a b
  empty : CardsOk a → (b.cardPorts[p]).state = .empty

/-- A port that is free of records is emptied. -/
theorem Departed.emptyPort {a : Engine} (hr : Registers e a) (hb : CardsOk e → CardsOkBut a p none) : Departed p e (a.emptyPort p) :=
  ⟨.settleCardPort hr hb fun _ => nofun, fun _ => by rw [Engine.emptyPort_port, if_pos rfl]⟩

/-- A port that lets no more reads begin, and whose card's COPYs have been told (R32). -/
def Engine.unread (g : Settings) (e : Engine) (p : Fin 4) (card : Fin 32) : Engine :=
  (Engine.detachLanes g card (e.updatePort p (fun x => { x with read := none }))).holdForAbsence card

/-- The record off its port, and the port EMPTY (R17, R31). -/
def Engine.parted (e : Engine) (p : Fin 4) (card : Fin 32) : Engine := (e.detachCard p card).emptyPort p

theorem Engine.removeAttached_eq :
    e.removeAttached g p card = (((e.unread g p card).parted p card).signal (Event.ofCard .cardRemoved card)).reevaluateNoRecord := rfl

theorem Quiet.unread : Quiet e (e.unread g p card) :=
  ((Quiet.refl e).updatePort (f := fun x => { x with read := none }) rfl nofun).detachLanes.holdForAbsence

theorem Engine.parted_card (c : Fin 32) :
    (e.parted p card).cards[c] = (e.cards[c]).map (fun r => if c = card then { r with attached := none } else r) :=
  Engine.updateCard_card e card (fun r => { r with attached := none }) c

theorem Engine.parted_port (q : Fin 4) : (q ≠ p → ((e.parted p card).cardPorts[q]) = e.cardPorts[q]) ∧
    ((e.parted p card).cardPorts[p]).state = .empty ∧ ((e.parted p card).cardPorts[p]).read = none := by
  unfold Engine.parted
  rw [Engine.emptyPort_port, Engine.emptyPort_port, if_pos rfl]
  refine ⟨fun hq => ?_, rfl, rfl⟩
  rw [if_neg hq]
  unfold Engine.detachCard Engine.drivePort
  rw [Engine.updatePort_port, if_neg hq, Engine.updateCard_cardPorts]

theorem CardsOk.parted (h : CardsOk e) (hc : ∃ r, e.cards[card] = some r ∧ r.attached = some p) : CardsOk (e.parted p card) := by
  obtain ⟨own, hown, hp⟩ := hc
  have held := h.ported card own p hown hp
  have back : ∀ {c : Fin 32} {r : CardRecord}, (e.parted p card).cards[c] = some r → ∃ s, e.cards[c] = some s ∧ r.identity = s.identity ∧
      r.state = s.state ∧ r.pendingDir = s.pendingDir ∧ ∀ q, r.attached = some q → q ≠ p ∧ s.attached = some q := by
    intro c r hr
    rw [Engine.parted_card] at hr
    obtain ⟨s, hs, rfl⟩ := Option.map_eq_some_iff.mp hr
    refine ⟨s, hs, ?_⟩
    split
    · exact ⟨rfl, rfl, rfl, nofun⟩
    · next k => exact ⟨rfl, rfl, rfl, fun q hq => ⟨fun hqp => k (h.attached c card s own p hs hown (hqp ▸ hq) hp), hq⟩⟩
  have list : (e.parted p card).noRecord = e.noRecord := by simp [Engine.parted, Engine.emptyPort, Engine.detachCard]
  have wait : (e.parted p card).waitList = e.waitList := by simp [Engine.parted, Engine.emptyPort, Engine.detachCard]
  refine ⟨fun c d r s hr hs he => ?_, fun c d r s q hr hs hq hq' => ?_, fun c r q hr hq => ?_, fun q hq => ?_, list ▸ h.noRecordNodup,
    fun q hq => ?_, wait ▸ h.waitNodup, fun c => ?_, fun c r hr => ?_⟩
  · obtain ⟨r', hr', ir, -⟩ := back hr
    obtain ⟨s', hs', is, -⟩ := back hs
    exact h.identity c d r' s' hr' hs' (by rw [← ir, ← is, he])
  · obtain ⟨r', hr', -, -, -, ar⟩ := back hr
    obtain ⟨s', hs', -, -, -, as⟩ := back hs
    exact h.attached c d r' s' q hr' hs' (ar q hq).2 (as q hq').2
  · obtain ⟨r', hr', -, -, -, ar⟩ := back hr
    rw [(Engine.parted_port q).1 (ar q hq).1]
    exact h.ported c r' q hr' (ar q hq).2
  · by_cases k : q = p
    · subst k
      rw [(Engine.parted_port q).2.2] at hq
      cases hq
    · rw [(Engine.parted_port q).1 k] at hq ⊢
      exact h.reading q hq
  · rw [list] at hq
    have k : q ≠ p := by
      rintro rfl
      obtain k | k := held <;> rw [h.noRecord q hq] at k <;> cases k
    rw [(Engine.parted_port q).1 k]
    exact h.noRecord q hq
  · rw [wait, h.waits c]
    constructor
    · rintro ⟨s, hs, hw⟩
      refine ⟨_, (Engine.parted_card c).trans (by rw [hs]; rfl), ?_⟩
      split <;> exact hw
    · rintro ⟨r, hr, hw⟩
      obtain ⟨s, hs, -, state, -⟩ := back hr
      exact ⟨s, hs, state ▸ hw⟩
  · obtain ⟨s, hs, -, state, pend, -⟩ := back hr
    rw [state, pend]
    exact h.pending c s hs

theorem Registers.parted : Registers e (e.parted p card) := by
  refine .of_eq (fun c => ?_) ?_ ?_ ?_ ?_
  · rw [Engine.parted_card]
    cases e.cards[c] with
    | none => rfl
    | some r => simp only [Option.map_some]; split <;> rfl
  all_goals simp [Engine.parted, Engine.emptyPort, Engine.detachCard]

/-- An attached card leaves its port (R32). -/
theorem Departed.removeAttached (hc : e.cardAt p = some card) : Departed p e (e.removeAttached g p card) := by
  have quiet : Quiet e (e.unread g p card) := .unread
  have away : CardsOk e → CardsOk (((e.unread g p card).parted p card).signal (Event.ofCard .cardRemoved card)) := by
    intro h
    obtain ⟨r, hr, hp⟩ := Engine.cardAt_some hc
    obtain ⟨s, hs, -, as, -⟩ := quiet.cards.symm_cards hr
    exact (Quiet.refl _).signal.cards.ok ((quiet.cards.ok h).parted ⟨s, hs, as.trans hp⟩)
  rw [Engine.removeAttached_eq]
  refine ⟨((quiet.registers.trans .parted).trans ((Quiet.refl _).signal.registers.trans HandedOver.reevaluateNoRecord.registers)).keeps
    fun h => (away h).reevaluateNoRecord, fun h => ?_⟩
  have empty : ((((e.unread g p card).parted p card).signal (Event.ofCard .cardRemoved card)).cardPorts[p]).state = .empty := by
    rw [Engine.signal_cardPorts]
    exact (Engine.parted_port (e := e.unread g p card) p).2.1
  rw [HandedOver.reevaluateNoRecord.others.state p fun k => by rw [(away h).noRecord p k] at empty; cases empty]
  exact empty

/-- ABSENT keeps the invariants, and leaves the port EMPTY (R28, R31, R32). -/
theorem Departed.cardLeaves : Departed p e (e.cardLeaves g p) := by
  unfold Engine.cardLeaves
  have vacated : e.cardAt p = none → (e.cardPorts[p]).state.holdsCard → Departed p e (e.emptyPort p) := fun hn hs =>
    .emptyPort (.refl e) fun h => h.but (Engine.vacant_of_cardAt hn) fun k => by
      obtain j | j := hs <;> rw [h.noRecord p k] at j <;> cases j
  split
  · next hs => exact ⟨.refl e, fun _ => hs⟩
  · next hs => exact .emptyPort (.refl e) fun h => h.free (by rw [hs]; exact nofun) (by rw [hs]; exact nofun)
  · next hs => exact .emptyPort (.refl e) fun h => h.free (by rw [hs]; exact nofun) (by rw [hs]; exact nofun)
  · next hs =>
    have off : Registers e { e with noRecord := e.noRecord.erase p } := .of_eq (fun _ => rfl) rfl rfl rfl rfl
    refine .emptyPort off fun h => ?_
    by_cases hp : p ∈ e.noRecord
    · exact h.offList hp
    · rw [List.erase_of_not_mem hp]
      exact h.but (fun c r hc hq => by obtain j | j := h.ported c r p hc hq <;> rw [hs] at j <;> cases j) hp
  · next hs =>
    split
    · next hc => exact .removeAttached hc
    · next hc => exact vacated hc (.inl hs)
  · next hs =>
    split
    · next hc => exact .removeAttached hc
    · next hc => exact vacated hc (.inr hs)

/-- PRESENT keeps the invariants (R28). -/
theorem Keeps.cardArrives : Keeps e (e.cardArrives g p) := by
  have gone : Departed p e (e.cardLeaves g p) := .cardLeaves
  have seated : Registers (e.cardLeaves g p) ((e.cardLeaves g p).seat p) := .updatePort
  have kept : Keeps e ((e.cardLeaves g p).seat p) := by
    refine ⟨fun h => ?_, fun h => seated.clips (gone.keeps.clips h), fun h => seated.table.ok (gone.keeps.volumes h),
      fun x y z v => seated.used (gone.keeps.used x y z v)⟩
    have empty := gone.empty h
    have ok := gone.keeps.cards h
    refine (ok.free (by rw [empty]; exact nofun) (by rw [empty]; exact nofun)).settled fun k => ?_
    rw [show _ = ((e.cardLeaves g p).cardPorts[p]).read from rfl, ok.unread (by rw [empty]; exact nofun)] at k
    cases k
  exact kept.quiet (Quiet.refl _).settleTransfer

/-! ## Reads and stalls -/

/-- A port of a card record takes another such state, and lets a read stand in ATTACHED alone. -/
theorem CardsOk.movePort (h : CardsOk e) {f : CardPort → CardPort} (hs : (e.cardPorts[p]).state.holdsCard)
    (hf : (f e.cardPorts[p]).state.holdsCard) (hr : (f e.cardPorts[p]).read.isSome = true → (f e.cardPorts[p]).state = .attached) :
    CardsOk (e.updatePort p f) where
  identity := h.identity
  attached := h.attached
  ported c r q hc hq := by
    rw [Engine.updatePort_port]
    split
    · next k => subst k; exact hf
    · exact h.ported c r q hc hq
  reading q hq := by
    rw [Engine.updatePort_port] at hq ⊢
    split at hq <;> rename_i k
    · subst k; rw [if_pos rfl]; exact hr hq
    · rw [if_neg k]; exact h.reading q hq
  noRecordNodup := h.noRecordNodup
  noRecord q hq := by
    have k : q ≠ p := by
      rintro rfl
      obtain k | k := hs <;> rw [h.noRecord q hq] at k <;> cases k
    rw [Engine.updatePort_port, if_neg k]
    exact h.noRecord q hq
  waitNodup := h.waitNodup
  waits := h.waits
  pending := h.pending

/-- A port with a read outstanding stalls (R36). -/
theorem Keeps.stall {r : CardRead} (hr : (e.cardPorts[p]).read.isSome = true) : Keeps e (e.stall g p r) := by
  have stopped : Keeps e (e.updatePort p (fun x => { x with state := .stalled, read := none })) :=
    Registers.updatePort.keeps fun h => h.movePort (.inl (h.reading p hr)) (.inr rfl) nofun
  unfold Engine.stall
  dsimp only
  split
  · exact stopped.quiet ((Quiet.refl _).cardLost.changeHolds).signal
  · exact stopped.quiet (Quiet.refl _).cardLost

theorem Keeps.attemptFails {r : CardRead} (hr : (e.cardPorts[p]).read.isSome = true) : Keeps e (e.attemptFails g p r) := by
  unfold Engine.attemptFails
  split
  · exact ((Quiet.refl e).updatePort rfl fun _ => .inl hr).keeps
  · exact .stall hr

theorem Keeps.readArrives {a : ReadAnswer} : Keeps e (e.readArrives g p a) := by
  unfold Engine.readArrives
  split
  · next r bytes hr =>
    split
    · exact ((Quiet.refl e).updatePort (f := fun x => { x with read := none }) rfl nofun).copyBlock.settleTransfer.keeps
    · exact (Keeps.attemptFails (by rw [hr]; rfl)).quiet (Quiet.refl _).settleTransfer
  · next r hr => exact (Keeps.attemptFails (by rw [hr]; rfl)).quiet (Quiet.refl _).settleTransfer
  · exact .refl e

theorem Keeps.stallExpires : Keeps e (e.stallExpires g p) := by
  unfold Engine.stallExpires
  split
  · next r hr => exact (Keeps.attemptFails (by rw [hr]; rfl)).quiet (Quiet.refl _).settleTransfer
  · exact .refl e

/-- The port of a resumed card returns to ATTACHED (R37). -/
theorem Keeps.unstall {r : CardRecord} (hc : e.cards[card] = some r) : Keeps e (e.unstall r) := by
  unfold Engine.unstall
  split
  · next p hp =>
    refine Registers.updatePort.keeps fun h => ?_
    have held := h.ported card r p hc hp
    have state : (if (e.cardPorts[p]).state = .stalled then CardPortState.attached else (e.cardPorts[p]).state) = .attached := by
      obtain k | k := held <;> rw [k] <;> rfl
    exact h.movePort held (.inl state) fun _ => state
  · exact .refl e

theorem Keeps.resumeCard {n : Nat} {x : Engine} (he : e.resumeCard g n = .ok x) : Keeps e x := by
  unfold Engine.resumeCard at he
  cases hk : e.checkCard n with
  | error y => rw [hk] at he; cases he
  | ok cr =>
    obtain ⟨c, r⟩ := cr
    rw [hk] at he
    dsimp only at he
    by_cases hw : r.state.workable = true
    · rw [if_pos hw] at he
      rw [← Except.ok.inj he]
      have port : Keeps e (if r.heldByStall then e.unstall r else e) := by
        split
        · exact .unstall (Engine.checkCard_ok hk)
        · exact .refl e
      exact port.quiet (Quiet.refl _).changeHolds.settleTransfer
    · rw [if_neg hw] at he
      cases he

end

end Sys2Proof.Machine
end

