-- ==== Sys2Proof/Proofs/Registrations.lean ====
section
/-!
SUPPORT. Registrations that complete (R15), and clips and cards retired (R18 to R21), keep the invariants of O41.
-/

namespace Sys2Proof.Machine

section
variable {e : Engine} {g : Settings} {p : Fin 4} {card : Fin 32}

/-! ## Waiting registrations -/

/-- The outputs that follow a card state leave the ports' states and reads. -/
theorem Engine.setCardState_port (x : CardState) (q : Fin 4) : ((e.setCardState card x).cardPorts[q]).state = (e.cardPorts[q]).state ∧
    ((e.setCardState card x).cardPorts[q]).read = (e.cardPorts[q]).read := by
  unfold Engine.setCardState
  dsimp only
  split
  · unfold Engine.drivePort
    rw [Engine.updatePort_port, Engine.updateCard_cardPorts]
    split <;> exact ⟨rfl, rfl⟩
  · rw [Engine.updateCard_cardPorts]
    exact ⟨rfl, rfl⟩

/-- A card record leaves the wait list (R15). -/
def Engine.admitted (e : Engine) (card : Fin 32) : Engine :=
  { (e.updateCard card (fun r => { r with pendingDir := none })).setCardState card .ready with waitList := e.waitList.erase card }

theorem Engine.admitted_card (c : Fin 32) : (e.admitted card).cards[c] =
    (e.cards[c]).map (fun r => if c = card then { r with pendingDir := none, state := .ready } else r) := by
  refine (congrArg (fun v : Vector (Option CardRecord) 32 => v[c]) (Engine.setCardState_cards _ card .ready)).trans ?_
  rw [Engine.updateCard_card, Engine.updateCard_card, Option.map_map]
  cases e.cards[c] with
  | none => rfl
  | some r => simp only [Option.map_some, Function.comp]; split <;> rfl

theorem Engine.admitted_port (q : Fin 4) : ((e.admitted card).cardPorts[q]).state = (e.cardPorts[q]).state ∧
    ((e.admitted card).cardPorts[q]).read = (e.cardPorts[q]).read := by
  have := Engine.setCardState_port (e := e.updateCard card (fun r => { r with pendingDir := none })) (card := card) .ready q
  rw [Engine.updateCard_cardPorts] at this
  exact this

theorem Engine.completeRegistration_eq (takes : List Take) : e.completeRegistration card takes = (e.registerTakes card takes).admitted card := by
  unfold Engine.completeRegistration Engine.admitted
  simp only [Engine.updateCard_waitList]

theorem CardsOk.admitted (h : CardsOk e) : CardsOk (e.admitted card) := by
  have back : ∀ {c : Fin 32} {r : CardRecord}, (e.admitted card).cards[c] = some r → ∃ s, e.cards[c] = some s ∧ r.identity = s.identity ∧
      r.attached = s.attached ∧ (c = card ∧ r.state = .ready ∧ r.pendingDir = none ∨ c ≠ card ∧ r = s) := by
    intro c r hr
    rw [Engine.admitted_card] at hr
    obtain ⟨s, hs, rfl⟩ := Option.map_eq_some_iff.mp hr
    refine ⟨s, hs, ?_⟩
    split
    · next k => exact ⟨rfl, rfl, .inl ⟨k, rfl, rfl⟩⟩
    · next k => exact ⟨rfl, rfl, .inr ⟨k, rfl⟩⟩
  have list : (e.admitted card).noRecord = e.noRecord := by simp [Engine.admitted]
  refine ⟨fun c d r s hr hs he => ?_, fun c d r s q hr hs hq hq' => ?_, fun c r q hr hq => ?_, fun q hq => ?_, list ▸ h.noRecordNodup,
    fun q hq => ?_, h.waitNodup.erase card, fun c => ?_, fun c r hr => ?_⟩
  · obtain ⟨r', hr', ir, -⟩ := back hr
    obtain ⟨s', hs', is, -⟩ := back hs
    exact h.identity c d r' s' hr' hs' (by rw [← ir, ← is, he])
  · obtain ⟨r', hr', -, ar, -⟩ := back hr
    obtain ⟨s', hs', -, as, -⟩ := back hs
    exact h.attached c d r' s' q hr' hs' (by rw [← ar, hq]) (by rw [← as, hq'])
  · obtain ⟨r', hr', -, ar, -⟩ := back hr
    rw [(Engine.admitted_port q).1]
    exact h.ported c r' q hr' (by rw [← ar, hq])
  · rw [(Engine.admitted_port q).1]
    rw [(Engine.admitted_port q).2] at hq
    exact h.reading q hq
  · rw [(Engine.admitted_port q).1]
    exact h.noRecord q (list ▸ hq)
  · show c ∈ e.waitList.erase card ↔ _
    by_cases k : c = card
    · subst k
      refine ⟨fun m => absurd m h.waitNodup.not_mem_erase, fun ⟨r, hr, hw⟩ => ?_⟩
      obtain ⟨s, -, -, -, ⟨-, ready, -⟩ | ⟨k, -⟩⟩ := back hr
      · rw [ready] at hw; cases hw
      · exact absurd rfl k
    · rw [List.mem_erase_of_ne k, h.waits c, Engine.admitted_card]
      cases e.cards[c] with
      | none => simp
      | some s => simp [k]
  · obtain ⟨s, hs, -, -, ⟨-, ready, pend⟩ | ⟨-, rfl⟩⟩ := back hr
    · rw [ready, pend]
      exact ⟨nofun, nofun⟩
    · exact h.pending c r hs

theorem CardsOk.completeRegistrations (h : CardsOk e) (n : Nat) : CardsOk (Engine.completeRegistrations n e) := by
  induction n generalizing e with
  | zero => exact h
  | succ n ih =>
    unfold Engine.completeRegistrations
    split
    · split
      · split
        · rw [Engine.completeRegistration_eq]
          exact ih (CardsQuiet.registerTakes.ok h).admitted
        · exact h
      · exact h
    · exact h

theorem OtherPorts.admitted : OtherPorts [] e (e.admitted card) := by
  refine ⟨fun q _ => (Engine.admitted_port q).1, fun q _ => by simp [Engine.admitted], fun q _ hv c r hr hq => ?_⟩
  rw [Engine.admitted_card] at hr
  obtain ⟨s, hs, rfl⟩ := Option.map_eq_some_iff.mp hr
  exact hv c s hs (by split at hq <;> exact hq)

theorem OtherPorts.completeRegistrations (n : Nat) : OtherPorts [] e (Engine.completeRegistrations n e) := by
  have same : OtherPorts [] e e := (CardsQuiet.refl e).otherPorts []
  induction n generalizing e with
  | zero => exact same
  | succ n ih =>
    unfold Engine.completeRegistrations
    split
    · split
      · split
        · rw [Engine.completeRegistration_eq]
          exact ((CardsQuiet.registerTakes.otherPorts []).trans_same .admitted).trans_same (ih ((CardsQuiet.refl _).otherPorts []))
        · exact same
      · exact same
    · exact same

/-! ## Copy records removed with their clip -/

variable {h : Handle}

/-- One copy record of a clip is dropped, before its entry is examined (R19). -/
def Engine.dropCopy (e : Engine) (h : Handle) (v : Fin 16) : Engine :=
  e.updateClip h (fun c => { c with copies := c.copies.filter (fun x => decide (x.volume ≠ v)) })

theorem Engine.removeCopy_eq (r : CopyRecord) : Engine.removeCopy h e r = (e.dropCopy h r.volume).settleEntry r.volume := rfl

theorem Engine.removeCopy_cards (r : CopyRecord) : (Engine.removeCopy h e r).cards = e.cards := by
  rw [Engine.removeCopy_eq, (Engine.settleEntry_move _ _).cards]
  simp [Engine.dropCopy]

theorem Engine.removeCopy_clips (r : CopyRecord) : (Engine.removeCopy h e r).clips = (e.dropCopy h r.volume).clips := by
  rw [Engine.removeCopy_eq, (Engine.settleEntry_move _ _).clips]

theorem Keeps.removeCopy (r : CopyRecord) : Keeps e (Engine.removeCopy h e r) := by
  have cards : CardsQuiet e (e.dropCopy h r.volume) := .of_eq (by simp [Engine.dropCopy]) (by simp [Engine.dropCopy])
    (by simp [Engine.dropCopy]) (by simp [Engine.dropCopy])
  have table : (e.dropCopy h r.volume).volumes = e.volumes := by simp [Engine.dropCopy]
  have volumes : VolumesQuiet e (e.dropCopy h r.volume) := .of_eq table (by simp [Engine.dropCopy]) (by simp [Engine.dropCopy])
  have names : ∀ {w : Fin 16}, (e.dropCopy h r.volume).names w → e.names w := by
    rintro w ⟨i, c, hc, hm⟩
    obtain hi | ⟨d, hd, rfl, rfl⟩ := Engine.updateClip_clipIn hc
    · exact ⟨i, c, hi, hm⟩
    · exact ⟨_, d, (Engine.clipAt_eq_some.mp hd).2, (List.filter_sublist.map _).subset hm⟩
  have kept : ∀ {w : Fin 16}, w ≠ r.volume → e.names w → (e.dropCopy h r.volume).names w := by
    rintro w hw ⟨i, c, hc, hm⟩
    obtain hi | ⟨-, -, hi⟩ := Engine.clipIn_updateClip (h := h)
      (f := fun c => { c with copies := c.copies.filter (fun x => decide (x.volume ≠ r.volume)) }) hc
    · exact ⟨i, c, hi, hm⟩
    · refine ⟨i, _, hi, ?_⟩
      obtain ⟨x, hx, rfl⟩ := List.mem_map.mp hm
      exact List.mem_map_of_mem (List.mem_filter.mpr ⟨hx, decide_eq_true hw⟩)
  have move := Engine.settleEntry_move (e.dropCopy h r.volume) r.volume
  rw [Engine.removeCopy_eq]
  refine ⟨fun k => move.cardsQuiet.ok (cards.ok k), fun k => move.clipsQuiet.ok (k.updateClip (fun _ => ⟨rfl, rfl⟩) fun c _ hl => ?_),
    fun k => (volumes.ok k).settleEntry _, fun _ _ hu => Engine.usedAt.settleEntry (fun w hw => ?_) fun k => ?_⟩
  · rw [Clip.copiesLegal_iff] at hl ⊢
    obtain ⟨len, nodup, digest⟩ := hl
    exact ⟨(List.length_filter_le _ _).trans len, nodup.sublist (List.filter_sublist.map _), fun x hx => digest x (List.mem_of_mem_filter hx)⟩
  · have := hu w
    rw [Engine.usedAt_iff] at this ⊢
    rw [volumes.portOf, table, this]
    exact or_congr_right ⟨kept hw, names⟩
  · rw [volumes.portOf, Engine.refCount_pos] at k
    rw [table]
    exact (Engine.usedAt_iff.mp (hu r.volume)).mpr (k.imp_right names)

theorem Engine.dropCopy_other (v : Fin 16) {i : Fin 512} (hi : i ≠ h.slot) : (e.dropCopy h v).clips[i] = e.clips[i] := by
  obtain k | ⟨-, -, k, -⟩ := e.updateClip_slot h _ i
  · exact k
  · exact absurd k hi

theorem Engine.dropCopy_own {d : Clip} (v : Fin 16) (hd : e.clipAt h = some d) :
    (e.dropCopy h v).clipAt h = some { d with copies := d.copies.filter (fun x => decide (x.volume ≠ v)) } := by
  obtain ⟨hg, hi⟩ := Engine.clipAt_eq_some.mp hd
  refine Engine.clipAt_eq_some.mpr ⟨(Engine.updateClip_gen _).trans hg, ?_⟩
  unfold Engine.clipIn Engine.dropCopy Engine.updateClip
  rw [hd]
  simp

/-- A clip's copy records removed: the clip is left without any, and the other slots as they are. -/
theorem Engine.removeCopies (rs : List CopyRecord) {d : Clip} (hd : e.clipAt h = some d)
    (hr : ∀ x ∈ d.copies, x.volume ∈ rs.map (·.volume)) :
    (∃ x, (rs.foldl (Engine.removeCopy h) e).clipAt h = some x ∧ x.card = d.card ∧ x.copies = []) ∧
      (∀ i, i ≠ h.slot → (rs.foldl (Engine.removeCopy h) e).clips[i] = e.clips[i]) := by
  induction rs generalizing e d with
  | nil =>
    refine ⟨⟨d, hd, rfl, List.eq_nil_iff_forall_not_mem.mpr fun x hx => ?_⟩, fun _ _ => rfl⟩
    cases hr x hx
  | cons r rs ih =>
    have clips := Engine.removeCopy_clips (e := e) (h := h) r
    have own : (Engine.removeCopy h e r).clipAt h = some { d with copies := d.copies.filter (fun x => decide (x.volume ≠ r.volume)) } := by
      rw [Engine.clipAt_eq_some, Engine.clipIn, clips]
      exact Engine.clipAt_eq_some.mp (Engine.dropCopy_own r.volume hd)
    obtain ⟨⟨x, hx, hcard, hnil⟩, others⟩ := ih own fun x hx => by
      obtain ⟨hm, hne⟩ := List.mem_filter.mp hx
      have := hr x hm
      rw [List.map_cons, List.mem_cons] at this
      exact this.resolve_left (of_decide_eq_true hne)
    refine ⟨⟨x, hx, hcard, hnil⟩, fun i hi => (others i hi).trans ?_⟩
    rw [clips]
    exact Engine.dropCopy_other _ hi

theorem Keeps.removeCopies (rs : List CopyRecord) : Keeps e (rs.foldl (Engine.removeCopy h) e) :=
  Keeps.foldl (fun _ r k => k.trans (.removeCopy r)) rs (.refl e)

theorem Engine.removeCopies_cards (rs : List CopyRecord) : (rs.foldl (Engine.removeCopy h) e).cards = e.cards := by
  induction rs generalizing e with
  | nil => rfl
  | cons r rs ih => exact ih.trans (Engine.removeCopy_cards r)

end

end Sys2Proof.Machine
end

