-- ==== Sys2Proof/Proofs/Retirement.lean ====
section
/-!
SUPPORT. RETIRE_CLIP and RETIRE_CARD (R18 to R21) keep the invariants of O41.
-/

namespace Sys2Proof.Machine

section
variable {e : Engine} {p : Fin 4} {card : Fin 32}

/-! ## A clip's slot freed -/

/-- A clip's slot freed, at its next generation, and the handle off its card's list (R19). -/
def Engine.forget (e : Engine) (c : Clip) : Engine :=
  { e with clips := e.clips.set c.handle.slot ⟨c.handle.gen + 1, none⟩ }.updateCard c.card
    (fun r => { r with clips := r.clips.erase c.handle })

theorem Engine.retireOne_eq (c : Clip) :
    e.retireOne c = (c.copies.foldl (Engine.removeCopy c.handle) (e.removeFaults c.handle)).forget c := rfl

theorem Engine.forget_card (c : Clip) (k : Fin 32) : (e.forget c).cards[k] =
    (e.cards[k]).map (fun r => if k = c.card then { r with clips := r.clips.erase c.handle } else r) :=
  Engine.updateCard_card _ c.card _ k

theorem Engine.forget_slot (c : Clip) (i : Fin 512) : (e.forget c).clips[i] =
    if i = c.handle.slot then ⟨c.handle.gen + 1, none⟩ else e.clips[i] := by
  unfold Engine.forget
  simp only [Engine.updateCard_clips]
  by_cases hi : i = c.handle.slot
  · simp [hi]
  · simp [Fin.val_inj, Ne.symm hi, hi]

theorem Engine.forget_cardPorts (c : Clip) : (e.forget c).cardPorts = e.cardPorts := by simp [Engine.forget]

theorem CardsQuiet.forget (c : Clip) : CardsQuiet e (e.forget c) where
  cards k := by
    rw [Engine.forget_card]
    cases e.cards[k] with
    | none => rfl
    | some r => simp only [Option.map_some]; split <;> rfl
  state q := by rw [Engine.forget_cardPorts]
  read q hq := .inl (by rwa [Engine.forget_cardPorts] at hq)
  noRecord := by simp [Engine.forget]
  waitList := by simp [Engine.forget]

theorem VolumesQuiet.forget (c : Clip) : VolumesQuiet e (e.forget c) :=
  .of_eq (by simp [Engine.forget]) (by simp [Engine.forget]) (by simp [Engine.forget])

theorem Engine.forget_clipIn {c d : Clip} {i : Fin 512} (hi : (e.forget c).clipIn i = some d) : i ≠ c.handle.slot ∧ e.clipIn i = some d := by
  rw [Engine.clipIn, Engine.forget_slot] at hi
  split at hi
  · cases hi
  · next k => exact ⟨k, hi⟩

/-- A handle of another slot, or of another generation, is as it was. -/
theorem Engine.forget_clipAt {c d x : Clip} {h : Handle} (hd : e.clipAt c.handle = some d) (hx : e.clipAt h = some x)
    (hne : h ≠ c.handle) : (e.forget c).clipAt h = some x := by
  obtain ⟨hg, hi⟩ := Engine.clipAt_eq_some.mp hx
  have slot : h.slot ≠ c.handle.slot := by
    intro k
    refine hne ?_
    have gen : h.gen = c.handle.gen := by
      rw [← hg, ← (Engine.clipAt_eq_some.mp hd).1]
      simp only [k]
    cases h; cases hc : c.handle
    simp_all
  rw [Engine.clipAt_eq_some, Engine.clipIn, Engine.forget_slot, if_neg slot]
  exact ⟨hg, hi⟩

theorem ClipsOk.forget (k : ClipsOk e) {c d : Clip} (hd : e.clipAt c.handle = some d) (hc : d.card = c.card) : ClipsOk (e.forget c) := by
  have list : ∀ {j : Fin 32} {r : CardRecord}, (e.forget c).cards[j] = some r → ∃ s, e.cards[j] = some s ∧
      (j = c.card ∧ r.clips = s.clips.erase c.handle ∨ j ≠ c.card ∧ r = s) := by
    intro j r hr
    rw [Engine.forget_card] at hr
    obtain ⟨s, hs, rfl⟩ := Option.map_eq_some_iff.mp hr
    refine ⟨s, hs, ?_⟩
    split
    · next hj => exact .inl ⟨hj, rfl⟩
    · next hj => exact .inr ⟨hj, rfl⟩
  refine ⟨fun i x hx => ?_, fun i x hx => ?_, fun i x hx => ?_, fun j r hr => ?_, fun j r hr h hm => ?_⟩
  · obtain ⟨hi, hx⟩ := Engine.forget_clipIn hx
    rw [Engine.forget_slot, if_neg hi]
    exact k.placed i x hx
  · exact k.copies i x (Engine.forget_clipIn hx).2
  · obtain ⟨hi, hx⟩ := Engine.forget_clipIn hx
    obtain ⟨s, hs, hm⟩ := k.listed i x hx
    have hne : x.handle ≠ c.handle := by
      rw [k.placed i x hx]
      exact fun hk => hi (congrArg Handle.slot hk)
    refine ⟨_, (Engine.forget_card c x.card).trans (by rw [hs]; rfl), ?_⟩
    split
    · exact (List.mem_erase_of_ne hne).mpr hm
    · exact hm
  · obtain ⟨s, hs, ⟨-, hl⟩ | ⟨-, rfl⟩⟩ := list hr
    · rw [hl]
      exact (k.nodup j s hs).erase _
    · exact k.nodup j r hs
  · obtain ⟨s, hs, hor⟩ := list hr
    have there : h ∈ s.clips := by
      obtain ⟨-, hl⟩ | ⟨-, rfl⟩ := hor
      · exact List.mem_of_mem_erase (hl ▸ hm)
      · exact hm
    obtain ⟨x, hx, hj⟩ := k.current j s hs h there
    refine ⟨x, Engine.forget_clipAt hd hx ?_, hj⟩
    rintro rfl
    obtain rfl := Option.some.inj (hd.symm.trans hx)
    obtain ⟨-, hl⟩ | ⟨hne, -⟩ := hor
    · rw [hl] at hm
      exact (k.nodup j s hs).not_mem_erase hm
    · exact hne (hj.symm.trans hc)

/-- A clip without copy records is forgotten. -/
theorem Registers.forget {c d : Clip} (hd : e.clipAt c.handle = some d) (hc : d.card = c.card) (hn : d.copies = []) :
    Registers e (e.forget c) := by
  refine ⟨fun k => k.forget hd hc, .forget c, fun v => ⟨?_, ?_⟩⟩
  · rintro ⟨i, x, hx, hv⟩
    exact ⟨i, x, (Engine.forget_clipIn hx).2, hv⟩
  · rintro ⟨i, x, hx, hv⟩
    refine ⟨i, x, ?_, hv⟩
    rw [Engine.clipIn, Engine.forget_slot, if_neg]
    · exact hx
    · rintro rfl
      obtain rfl := Option.some.inj ((Engine.clipAt_eq_some.mp hd).2.symm.trans hx)
      rw [hn] at hv
      cases hv

/-! ## A clip retired -/

/-- A clip of the catalogue is retired: the invariants are kept, and the other slots. -/
theorem Keeps.retireOne {c : Clip} (hc : e.clipAt c.handle = some c) : Keeps e (e.retireOne c) := by
  obtain ⟨⟨d, hd, hcard, hn⟩, -⟩ := Engine.removeCopies (e := e.removeFaults c.handle) c.copies hc
    fun x hx => List.mem_map_of_mem hx
  have removed : Keeps e (c.copies.foldl (Engine.removeCopy c.handle) (e.removeFaults c.handle)) :=
    (Quiet.refl e).removeFaults.keeps.trans (.removeCopies c.copies)
  rw [Engine.retireOne_eq]
  exact removed.trans ((Registers.forget hd hcard hn).keeps (CardsQuiet.forget c).ok)

theorem Engine.retireOne_other {c x : Clip} (hc : e.clipAt c.handle = some c) (hx : e.clipAt x.handle = some x)
    (hs : x.handle.slot ≠ c.handle.slot) : (e.retireOne c).clipAt x.handle = some x := by
  obtain ⟨⟨d, hd, -, -⟩, others⟩ := Engine.removeCopies (e := e.removeFaults c.handle) c.copies hc
    fun x hx => List.mem_map_of_mem hx
  rw [Engine.retireOne_eq]
  refine Engine.forget_clipAt hd ?_ fun k => hs (congrArg Handle.slot k)
  have same := others x.handle.slot hs
  rw [Engine.clipAt_eq_some, Engine.clipIn, same]
  exact Engine.clipAt_eq_some.mp hx

theorem CardsQuiet.retireOne (c : Clip) : CardsQuiet e (e.retireOne c) := by
  have step : ∀ {a : Engine} (r : CopyRecord), CardsQuiet a (Engine.removeCopy c.handle a r) := by
    intro a r
    rw [Engine.removeCopy_eq]
    refine CardsQuiet.trans (.of_eq ?_ ?_ ?_ ?_) (Engine.settleEntry_move _ _).cardsQuiet <;> simp [Engine.dropCopy]
  have removed : ∀ (rs : List CopyRecord) (a : Engine), CardsQuiet a (rs.foldl (Engine.removeCopy c.handle) a) := by
    intro rs
    induction rs with
    | nil => exact fun a => .refl a
    | cons r rs ih => exact fun a => (step r).trans (ih _)
  rw [Engine.retireOne_eq]
  exact ((Quiet.refl e).removeFaults.cards.trans (removed _ _)).trans (.forget c)

theorem VolumesOk.retireOne (h : VolumesOk e) (c : Clip) : VolumesOk (e.retireOne c) := by
  rw [Engine.retireOne_eq]
  exact (VolumesQuiet.forget c).ok ((Keeps.removeCopies c.copies).volumes ((Quiet.refl e).removeFaults.volumes.ok h))

/-- Clips of the catalogue, of different slots, retired in turn. -/
theorem Keeps.retireAll {cs : List Clip} (hc : ∀ c ∈ cs, e.clipAt c.handle = some c)
    (hs : cs.Pairwise (fun c d => c.handle.slot ≠ d.handle.slot)) : Keeps e (cs.foldl Engine.retireOne e) := by
  induction cs generalizing e with
  | nil => exact .refl e
  | cons c cs ih =>
    rw [List.pairwise_cons] at hs
    have first := hc c (by simp)
    exact (Keeps.retireOne first).trans
      (ih (fun d hd => Engine.retireOne_other first (hc d (by simp [hd])) (hs.1 d hd).symm) hs.2)

/-! ## A card record freed -/

theorem Engine.freeCardRecord_card (r : CardRecord) (c : Fin 32) :
    (e.freeCardRecord card r).cards[c] = if c = card then none else e.cards[c] := by
  rw [← Engine.setCard_card e.cards none c]
  unfold Engine.freeCardRecord
  dsimp only
  split <;> rfl

theorem Engine.freeCardRecord_port (r : CardRecord) (q : Fin 4) :
    ((e.freeCardRecord card r).cardPorts[q]).state = (e.cardPorts[q]).state ∧
      ((e.freeCardRecord card r).cardPorts[q]).read = (e.cardPorts[q]).read := by
  unfold Engine.freeCardRecord
  dsimp only
  split
  · unfold Engine.drivePort
    rw [Engine.updatePort_port]
    split <;> exact ⟨rfl, rfl⟩
  · exact ⟨rfl, rfl⟩

/-- What the record's end leaves alone. -/
theorem Engine.freeCardRecord_frame (r : CardRecord) : (e.freeCardRecord card r).clips = e.clips ∧
    (e.freeCardRecord card r).noRecord = e.noRecord ∧ (e.freeCardRecord card r).waitList = e.waitList ∧
    VolumesQuiet e (e.freeCardRecord card r) := by
  unfold Engine.freeCardRecord
  dsimp only
  split <;> exact ⟨rfl, rfl, rfl, .of_eq rfl rfl rfl⟩

theorem Engine.freeCardRecord_some {r s : CardRecord} {c : Fin 32} (hs : (e.freeCardRecord card r).cards[c] = some s) :
    c ≠ card ∧ e.cards[c] = some s := by
  rw [Engine.freeCardRecord_card] at hs
  split at hs
  · cases hs
  · next k => exact ⟨k, hs⟩

theorem CardsOk.freeCardRecord (h : CardsOk e) {r : CardRecord} (hc : e.cards[card] = some r) (hw : r.state ≠ .waitSpace) :
    CardsOk (e.freeCardRecord card r) := by
  obtain ⟨-, list, wait, -⟩ := Engine.freeCardRecord_frame (e := e) (card := card) r
  refine ⟨fun c d x y hx hy => h.identity c d x y (Engine.freeCardRecord_some hx).2 (Engine.freeCardRecord_some hy).2,
    fun c d x y q hx hy => h.attached c d x y q (Engine.freeCardRecord_some hx).2 (Engine.freeCardRecord_some hy).2,
    fun c x q hx hq => ?_, fun q hq => ?_, list ▸ h.noRecordNodup, fun q hq => ?_, wait ▸ h.waitNodup, fun c => ?_,
    fun c x hx => h.pending c x (Engine.freeCardRecord_some hx).2⟩
  · rw [(Engine.freeCardRecord_port r q).1]
    exact h.ported c x q (Engine.freeCardRecord_some hx).2 hq
  · rw [(Engine.freeCardRecord_port r q).2] at hq
    rw [(Engine.freeCardRecord_port r q).1]
    exact h.reading q hq
  · rw [(Engine.freeCardRecord_port r q).1]
    exact h.noRecord q (list ▸ hq)
  · rw [wait, h.waits c, Engine.freeCardRecord_card]
    by_cases k : c = card
    · subst k
      simp [hc, hw]
    · rw [if_neg k]

theorem Registers.freeCardRecord {r : CardRecord} (hc : e.cards[card] = some r) (hl : r.clips = []) :
    Registers e (e.freeCardRecord card r) := by
  obtain ⟨clips, -, -, table⟩ := Engine.freeCardRecord_frame (e := e) (card := card) r
  have slot : ∀ i, (e.freeCardRecord card r).clipIn i = e.clipIn i := fun i => by rw [Engine.clipIn, clips]
  refine ⟨fun k => ⟨fun i x hx => ?_, fun i x hx => k.copies i x (slot i ▸ hx), fun i x hx => ?_,
    fun j s hs => k.nodup j s (Engine.freeCardRecord_some hs).2, fun j s hs h hm => ?_⟩, table, fun v => ?_⟩
  · rw [clips]
    exact k.placed i x (slot i ▸ hx)
  · obtain ⟨s, hs, hm⟩ := k.listed i x (slot i ▸ hx)
    refine ⟨s, ?_, hm⟩
    rw [Engine.freeCardRecord_card, if_neg]
    · exact hs
    · intro hk
      simp only [hk] at hs
      obtain rfl := Option.some.inj (hc.symm.trans hs)
      rw [hl] at hm
      cases hm
  · obtain ⟨x, hx, hj⟩ := k.current j s (Engine.freeCardRecord_some hs).2 h hm
    refine ⟨x, ?_, hj⟩
    rw [Engine.clipAt_eq_some, slot, clips]
    exact Engine.clipAt_eq_some.mp hx
  · unfold Engine.names
    simp only [slot]

theorem Engine.freeCardRecord_vacant (h : CardsOk e) {r : CardRecord} (hc : e.cards[card] = some r) (hp : r.attached = some p) :
    (e.freeCardRecord card r).vacant p := by
  intro c s hs hq
  obtain ⟨hne, hs⟩ := Engine.freeCardRecord_some hs
  exact hne (h.attached c card s r p hs hc hq hp)

/-! ## What follows a retire -/

theorem Registers.handOver : Registers e (e.handOver p) := by
  unfold Engine.handOver
  split
  · next d _ => exact Registers.updatePort.trans (HandedOver.handDirectory d).registers
  · exact .refl e

theorem CardsOk.handOver (h : CardsOk e) (hv : e.vacant p) (hn : p ∉ e.noRecord) : CardsOk (e.handOver p) := by
  unfold Engine.handOver
  split
  · next d _ =>
    have idle : Quiet e (e.updatePort p (fun x => { x with read := none })) := (Quiet.refl e).updatePort rfl nofun
    have none : ((e.updatePort p (fun x => { x with read := none })).cardPorts[p]).read = none := by
      rw [Engine.updatePort_port, if_pos rfl]
    exact ((idle.cards.ok h).but hv hn).handDirectory none d
  · exact h

/-- A card that does not wait for space is freed when no clip of it is left, and what follows (R15, R16, R21). -/
theorem Keeps.afterRetire (hw : ∀ r, e.cards[card] = some r → r.state ≠ .waitSpace) : Keeps e (e.afterRetire card) := by
  unfold Engine.afterRetire
  split
  · next r hr =>
    split
    · next hl =>
      have rest : Registers e ((e.freeCardRecord card r).clipsFreed.reevaluateNoRecord) :=
        ((Registers.freeCardRecord hr hl).trans .clipsFreed).trans HandedOver.reevaluateNoRecord.registers
      have freed : CardsOk e → CardsOk (e.freeCardRecord card r).clipsFreed := fun h =>
        (h.freeCardRecord hr (hw r hr)).completeRegistrations _
      dsimp only
      split
      · next p hp =>
        refine (rest.trans .handOver).keeps fun h => ?_
        have clips : OtherPorts [] (e.freeCardRecord card r) (e.freeCardRecord card r).clipsFreed := .completeRegistrations _
        have unlisted : p ∉ (e.freeCardRecord card r).clipsFreed.noRecord := by
          rw [clips.listed p (by simp), (Engine.freeCardRecord_frame r).2.1]
          intro k
          obtain j | j := h.ported card r p hr hp <;> rw [h.noRecord p k] at j <;> cases j
        have others := (HandedOver.reevaluateNoRecord (e := (e.freeCardRecord card r).clipsFreed)).others
        exact (freed h).reevaluateNoRecord.handOver
          (others.vacant p unlisted (clips.vacant p (by simp) (Engine.freeCardRecord_vacant h hr hp)))
          fun k => unlisted ((others.listed p unlisted).mp k)
      · exact rest.keeps fun h => (freed h).reevaluateNoRecord
    · exact Registers.clipsFreed.keeps fun h => h.completeRegistrations _
  · exact .refl e

/-! ## RETIRE_CLIP and RETIRE_CARD -/

theorem Engine.checkClip_ok {slot gen : Nat} {c : Clip} (h : e.checkClip slot gen = .ok c) : ∃ x, e.clipAt x = some c := by
  unfold Engine.checkClip at h
  split at h
  · split at h
    · next x hx =>
      obtain rfl := Except.ok.inj h
      exact ⟨_, hx⟩
    · cases h
  · cases h

/-- In a legal catalogue a clip record's handle finds it. -/
theorem ClipsOk.clipAt_handle (k : ClipsOk e) {x : Handle} {c : Clip} (hc : e.clipAt x = some c) : c.handle = x := by
  obtain ⟨hg, hi⟩ := Engine.clipAt_eq_some.mp hc
  rw [k.placed x.slot c hi, hg]

/-- Clips retired from a catalogue that was legal, and what follows for their card. -/
theorem Keeps.retired {a : Engine} (hq : CardsQuiet e a) (hv : VolumesOk e → VolumesOk a) (hk : ClipsOk e → Keeps e a) {r : CardRecord}
    (hr : e.cards[card] = some r) (hs : r.state ≠ .waitSpace) : Keeps e (a.afterRetire card) := by
  have after : Keeps a (a.afterRetire card) := .afterRetire fun y hy =>
    hq.not_waits (fun s hs' => (Option.some.inj (hr.symm.trans hs')) ▸ hs) hy
  exact ⟨fun h => after.cards (hq.ok h), fun h => after.clips ((hk h).clips h), fun h => after.volumes (hv h),
    fun x y z => after.used ((hk x).clips x) (hv y) ((hk x).used x y z)⟩

theorem CardState.released_not_waits {s : CardState} (h : ¬ s ≠ .released) : s ≠ .waitSpace := by
  rw [not_not.mp h]; decide

theorem Keeps.retireClip {slot gen : Nat} {x : Engine} (he : e.retireClip slot gen = .ok x) : Keeps e x := by
  unfold Engine.retireClip at he
  cases hk : e.checkClip slot gen with
  | error y => rw [hk] at he; cases he
  | ok c =>
    rw [hk] at he
    dsimp only at he
    split at he
    · next r hr =>
      by_cases hs : r.state ≠ .released
      · rw [if_pos hs] at he; cases he
      rw [if_neg hs] at he
      split at he
      · cases he
      rw [← Except.ok.inj he]
      refine .retired (.retireOne c) (fun h => h.retireOne c) (fun k => ?_) hr (CardState.released_not_waits hs)
      obtain ⟨h, hc⟩ := Engine.checkClip_ok hk
      exact .retireOne ((k.clipAt_handle hc).symm ▸ hc)
    · cases he

/-- The clips of a card are in the catalogue, in slots of their own. -/
theorem ClipsOk.clipsOf (k : ClipsOk e) (card : Fin 32) : (∀ c ∈ e.clipsOf card, e.clipAt c.handle = some c) ∧
    (e.clipsOf card).Pairwise (fun c d => c.handle.slot ≠ d.handle.slot) := by
  unfold Engine.clipsOf
  cases hr : e.cards[card] with
  | none =>
    dsimp only
    exact ⟨fun c hc => absurd hc List.not_mem_nil, .nil⟩
  | some r =>
    dsimp only
    refine ⟨fun c hc => ?_, List.pairwise_filterMap.mpr ((k.nodup card r hr).imp fun {x y} hxy c hc d hd hs => hxy ?_)⟩
    · obtain ⟨x, -, hx⟩ := List.mem_filterMap.mp hc
      exact (k.clipAt_handle hx).symm ▸ hx
    · rw [k.clipAt_handle hc, k.clipAt_handle hd] at hs
      have gen : x.gen = y.gen := by
        rw [← (Engine.clipAt_eq_some.mp hc).1, ← (Engine.clipAt_eq_some.mp hd).1]
        simp only [hs]
      cases x; cases y
      simp_all

theorem CardsQuiet.retireAll (cs : List Clip) : CardsQuiet e (cs.foldl Engine.retireOne e) := by
  induction cs generalizing e with
  | nil => exact .refl e
  | cons c cs ih => exact (CardsQuiet.retireOne c).trans ih

theorem VolumesOk.retireAll (h : VolumesOk e) (cs : List Clip) : VolumesOk (cs.foldl Engine.retireOne e) := by
  induction cs generalizing e with
  | nil => exact h
  | cons c cs ih => exact ih (h.retireOne c)

theorem Keeps.retireCard {n : Nat} {x : Engine} (he : e.retireCard n = .ok x) : Keeps e x := by
  unfold Engine.retireCard at he
  cases hk : e.checkCard n with
  | error y => rw [hk] at he; cases he
  | ok cr =>
    obtain ⟨card, r⟩ := cr
    rw [hk] at he
    dsimp only at he
    by_cases hs : r.state ≠ .released
    · rw [if_pos hs] at he; cases he
    rw [if_neg hs] at he
    split at he
    · cases he
    rw [← Except.ok.inj he]
    exact .retired (.retireAll _) (fun h => h.retireAll _) (fun k => .retireAll (k.clipsOf card).1 (k.clipsOf card).2)
      (Engine.checkCard_ok hk) (CardState.released_not_waits hs)

end

end Sys2Proof.Machine
end

