-- ==== Sys2Proof/Proofs/Commands.lean ====
section
/-!
SUPPORT. The commands: each step of the part keeps the invariants of O41.
-/

namespace Sys2Proof.Machine

/-! ## Steps of the blocks -/

section
variable {s : State}

/-- A step of the part keeps the invariants of O41. -/
def State.keeps (s t : State) : Prop := Keeps s.engine t.engine

theorem State.keeps_closeStep (a : Engine) (h : Keeps a s.engine) : Keeps a s.closeStep.engine := h.trans Stocks.endStep.keeps

theorem State.keeps_run {f : Settings → Engine → Engine} (hf : ∀ g e, Keeps e (f g e)) : s.keeps (s.run f) := by
  unfold State.run
  split
  · exact .refl _
  · exact State.keeps_closeStep _ ((Quiet.refl _).beginStep.keeps.trans (hf _ _))

theorem State.keeps_runAt {time : Nat} {f : Settings → Engine → Engine} (hf : ∀ g e, Keeps e (f g e)) : s.keeps (s.runAt time f) := by
  unfold State.runAt
  split
  · exact .refl _
  · exact State.keeps_run (s := { s with now := time }) hf

theorem State.keeps_answered {x : AnswerTo} {f : Settings → Engine → Engine} (hf : ∀ g e, Keeps e (f g e)) : s.keeps (s.answered x f) := by
  cases x with
  | outstanding => exact State.keeps_run hf
  | abandoned => exact .refl _

theorem State.keeps_atStation {p : StationPort} {f : Station → Station} : s.keeps (s.atStation p f) := by
  unfold State.atStation
  split <;> exact .refl _

/-! ## Requests -/

/-- A rule of a request keeps the invariants. -/
def RuleKeeps (rule : State → Answer × State) : Prop := ∀ s : State, s.keeps (rule s).2

theorem RuleKeeps.refuse (x : Status) : RuleKeeps (refuseWith x) := fun _ => Keeps.refl _

theorem RuleKeeps.read (f : State → Answer) : RuleKeeps (readRule f) := fun _ => Keeps.refl _

theorem RuleKeeps.plain {f : Settings → Engine → Except Status Engine} (hf : ∀ g e x, f g e = .ok x → Keeps e x) :
    RuleKeeps (plainRule f) := by
  intro s
  unfold plainRule
  split
  · next x hx => exact hf _ _ x hx
  · exact .refl _

theorem RuleKeeps.block {α : Type} {f : Settings → Engine → Except Status (α × Engine)} {results : α → List Byte}
    (hf : ∀ g e x, f g e = .ok x → Keeps e x.2) : RuleKeeps (blockRule f results) := by
  intro s
  unfold blockRule
  split
  · next a x hx => exact hf _ _ (a, x) hx
  · exact .refl _

theorem RuleKeeps.setting {α : Type} {f : Settings → Except Status (α × Settings)} {results : α → List Byte} :
    RuleKeeps (settingRule f results) := by
  intro s
  unfold settingRule
  split <;> exact .refl _

theorem RuleKeeps.plainSetting {f : Settings → Except Status Settings} : RuleKeeps (plainSetting f) := by
  intro s
  unfold Sys2Proof.Machine.plainSetting
  split <;> exact .refl _

theorem State.keeps_answerBy {o : Origin} {kind : Nat} {rest : List Request} {rule : State → Answer × State} (hr : RuleKeeps rule) :
    s.keeps (s.answerBy o kind rest rule) := by
  have ruled := hr { s.openStep with stations := s.stations.set o.port { s.stations.get o.port with untaken := rest } }
  exact State.keeps_closeStep _ ((Quiet.refl s.engine).beginStep.keeps.trans ruled)

theorem State.keeps_take {α : Type} [DecidableEq α] {o : Origin} {kind : Nat} {read : Reader α} {args : α} {rule : State → Answer × State}
    (hr : RuleKeeps rule) : s.keeps (s.take o kind read args rule) := by
  have refused : ∀ x rest, s.keeps (s.answerBy o kind rest (refuseWith x)) := fun x _ => State.keeps_answerBy (.refuse x)
  unfold State.take
  split
  · split
    · split
      · exact State.keeps_answerBy hr
      · exact refused _ _
    · split
      · split
        · split
          · exact refused _ _
          · split
            · exact State.keeps_answerBy hr
            · exact .refl _
        · exact refused _ _
      · exact .refl _
  · exact .refl _

theorem State.keeps_takeUnknown {o : Origin} {kind : Nat} {payload : List Byte} : s.keeps (s.takeUnknown o kind payload) := by
  have refused : ∀ rest, s.keeps (s.answerBy o kind rest (refuseWith .badArgument)) := fun _ => State.keeps_answerBy (.refuse _)
  unfold State.takeUnknown
  split
  · split
    · exact refused _
    · split
      · exact refused _
      · exact .refl _
  · exact .refl _

/-! ## The rules of single requests -/

theorem RuleKeeps.readFaults {start count : Nat} : RuleKeeps (readFaultsRule start count) := by
  intro s
  unfold readFaultsRule
  split
  · exact (Quiet.frame (.refl s.engine) rfl).keeps
  · exact .refl _

theorem RuleKeeps.setNotices {p : StationPort} {mask : Nat} : RuleKeeps (setNoticesRule p mask) := by
  intro s
  unfold setNoticesRule
  split <;> exact .refl _

theorem RuleKeeps.setMonitor {rate decimation reference time : Nat} : RuleKeeps (setMonitorRule rate decimation reference time) := by
  intro s
  unfold setMonitorRule
  split
  · exact (Quiet.refl s.engine).updateMonitor (f := fun m => (m.takeRate _ _).takeReference _ _ _) |>.keeps
  · exact .refl _

theorem RuleKeeps.writeLook {a : LookArgs} : RuleKeeps (writeLookRule a) := by
  intro s
  unfold writeLookRule
  split
  · split
    · exact (Quiet.refl s.engine).staleSlot.keeps
    · exact .refl _
  · exact .refl _

theorem RuleKeeps.clearLook {slot : Nat} : RuleKeeps (clearLookRule slot) := by
  intro s
  unfold clearLookRule
  split
  · exact .refl _
  · split
    · exact .refl _
    · exact (Quiet.refl s.engine).staleSlot.keeps

theorem RuleKeeps.releaseCard {card : Nat} : RuleKeeps (releaseCardRule card) := by
  intro s
  unfold releaseCardRule
  split
  · next x hx => exact ((Quiet.refl s.engine).releaseCard hx).keeps
  · exact .refl _
  · exact .refl _

theorem RuleKeeps.startOffload {card set : Nat} : RuleKeeps (startOffloadRule card set) := by
  refine .block fun g e x hx => ?_
  split at hx
  · next y hy =>
    obtain rfl := Except.ok.inj hx
    exact (Stocks.startOffload hy).keeps
  · cases hx

theorem RuleKeeps.recopy {slot generation mask : Nat} : RuleKeeps (recopyRule slot generation mask) := by
  refine .block fun g e x hx => ?_
  split at hx
  · next y hy =>
    obtain rfl := Except.ok.inj hx
    exact (Stocks.recopy hy).keeps
  · cases hx

/-! ## The fault requests and the looks -/

variable {e : Engine}

theorem Quiet.ackFault {n : Nat} {x : Engine} (he : e.ackFault n = .ok x) : Quiet e x := by
  unfold Engine.ackFault at he
  repeat' split at he
  all_goals cases he
  · exact (Quiet.refl e).putFault
  · exact .refl e

theorem Quiet.waiveFault {n : Nat} {x : Engine} (he : e.waiveFault n = .ok x) : Quiet e x := by
  unfold Engine.waiveFault at he
  repeat' split at he
  all_goals cases he
  · exact (Quiet.refl e).putFault
  · exact (Quiet.refl e).putFault
  · exact .refl e

theorem Quiet.waiveOverflow {slot gen : Nat} {x : Engine} (he : e.waiveOverflow slot gen = .ok x) : Quiet e x := by
  unfold Engine.waiveOverflow at he
  split at he
  · cases he
  · obtain rfl := Except.ok.inj he
    exact (Quiet.refl e).updateClipRest

theorem Quiet.bindLook {slot gen look : Nat} {x : Engine} (he : e.bindLook slot gen look = .ok x) : Quiet e x := by
  unfold Engine.bindLook at he
  split at he
  · cases he
  · split at he
    · cases he
    · obtain rfl := Except.ok.inj he
      exact (Quiet.refl e).bind

/-! ## Reset -/

theorem Keeps.reset (e : Engine) : Keeps e Engine.reset :=
  ⟨fun _ => (Engine.cardsLegal_iff _).mp (by decide), fun _ => .reset, fun _ => (Engine.volumesLegal_iff _).mp (by decide),
    fun _ _ _ => .reset⟩

/-- A card seated in an EMPTY port that the reset left. -/
theorem Keeps.seatCard {seated : Vector Bool 4} {p : Fin 4} (hs : (e.cardPorts[p]).state = .empty) :
    Keeps e (Engine.seatCard seated e p) := by
  unfold Engine.seatCard
  split
  · refine Registers.updatePort.keeps fun h => (h.free (by rw [hs]; exact nofun) (by rw [hs]; exact nofun)).settled fun k => ?_
    rw [show _ = (e.cardPorts[p]).read from rfl, h.unread (by rw [hs]; exact nofun)] at k
    cases k
  · exact .refl e

theorem Keeps.mountDrive {mounted : Vector Bool 4} {p : Fin 4} (hs : (e.destPorts[p]).state = .empty) :
    Keeps e (Engine.mountDrive mounted e p) := by
  unfold Engine.mountDrive
  split
  · exact .settlePort (f := fun d => { d with state := .identifying }) (.refl e) rfl
      (fun h => h.but (by rw [hs]; exact nofun) (by rw [hs]; exact nofun)) nofun nofun
  · exact .refl e

theorem Keeps.seatCards {seated : Vector Bool 4} {ps : List (Fin 4)} (hn : ps.Nodup)
    (hs : ∀ p ∈ ps, (e.cardPorts[p]).state = .empty) : Keeps e (ps.foldl (Engine.seatCard seated) e) := by
  induction ps generalizing e with
  | nil => exact .refl e
  | cons p ps ih =>
    rw [List.nodup_cons] at hn
    refine (Keeps.seatCard (hs p (by simp))).trans (ih hn.2 fun q hq => ?_)
    have k : q ≠ p := fun k => hn.1 (k ▸ hq)
    have same : (Engine.seatCard seated e p).cardPorts[q] = e.cardPorts[q] := by
      unfold Engine.seatCard
      split
      · exact (Engine.updatePort_port e p (fun x => { x with state := .reading }) q).trans (if_neg k)
      · rfl
    rw [same]
    exact hs q (by simp [hq])

theorem Keeps.mountDrives {mounted : Vector Bool 4} {ps : List (Fin 4)} (hn : ps.Nodup)
    (hs : ∀ p ∈ ps, (e.destPorts[p]).state = .empty) : Keeps e (ps.foldl (Engine.mountDrive mounted) e) := by
  induction ps generalizing e with
  | nil => exact .refl e
  | cons p ps ih =>
    rw [List.nodup_cons] at hn
    refine (Keeps.mountDrive (hs p (by simp))).trans (ih hn.2 fun q hq => ?_)
    have k : q ≠ p := fun k => hn.1 (k ▸ hq)
    have same : (Engine.mountDrive mounted e p).destPorts[q] = e.destPorts[q] := by
      unfold Engine.mountDrive
      split
      · exact (Engine.updateDest_port e p (fun d => { d with state := .identifying }) q).trans (if_neg k)
      · rfl
    rw [same]
    exact hs q (by simp [hq])

theorem Engine.seatCards_destPorts (seated : Vector Bool 4) (ps : List (Fin 4)) :
    (ps.foldl (Engine.seatCard seated) e).destPorts = e.destPorts := by
  induction ps generalizing e with
  | nil => rfl
  | cons p ps ih =>
    refine ih.trans ?_
    unfold Engine.seatCard
    split <;> rfl

/-- The blocks as reset ends meet the invariants (R41, R78, R210). -/
theorem Keeps.restarted (seated mounted : Vector Bool 4) : Keeps e (Engine.restarted seated mounted) := by
  have ports : ∀ p : Fin 4, (Engine.reset.cardPorts[p]).state = .empty := by decide
  have drives : ∀ p : Fin 4, (Engine.reset.destPorts[p]).state = .empty := by decide
  refine ((Keeps.reset e).trans (.seatCards (List.nodup_finRange 4) fun p _ => ports p)).trans
    (.mountDrives (List.nodup_finRange 4) fun p _ => ?_)
  rw [Engine.seatCards_destPorts]
  exact drives p

end

end Sys2Proof.Machine
end

