-- ==== Sys2Proof/Proofs/EveryStep.lean ====
section
/-!
O41: each command of the part keeps the card, clip and copy records and the Volume Table legal.
-/

namespace Sys2Proof.Machine

/-- A command answers a next state, and keeps the invariants of O41. -/
def Keeping (f : State → Host.Outcome State Fault Refusal) : Prop := ∀ s : State, ∃ t, f s = .next t ∧ s.keeps t

/-- A request keeps the invariants where its rule does. -/
theorem Keeping.take {α : Type} [DecidableEq α] {o : Origin} {kind : Nat} {read : Reader α} {args : α} {rule : State → Answer × State}
    (hr : RuleKeeps rule) : Keeping (fun s => .next (s.take o kind read args rule)) := fun _ => ⟨_, rfl, State.keeps_take hr⟩

/-- An event of the blocks keeps the invariants where its change does. -/
theorem Keeping.run {f : Settings → Engine → Engine} (hf : ∀ g e, Keeps e (f g e)) : Keeping (fun s => .next (s.run f)) :=
  fun _ => ⟨_, rfl, State.keeps_run hf⟩

theorem Keeping.answered {x : AnswerTo} {f : Settings → Engine → Engine} (hf : ∀ g e, Keeps e (f g e)) :
    Keeping (fun s => .next (s.answered x f)) := fun _ => ⟨_, rfl, State.keeps_answered hf⟩

theorem Keeping.atStation {p : StationPort} {f : Station → Station} : Keeping (fun s => .next (s.atStation p f)) :=
  fun _ => ⟨_, rfl, State.keeps_atStation⟩

/-- An answer to an object operation keeps the invariants (R73). -/
theorem Keeping.operation {p : Fin 4} {x : AnswerTo} {f : OpRequest → Option Reply} :
    Keeping (fun s => .next (s.answered x (fun g e => e.operationAnswered g p f))) :=
  .answered fun _ _ => (Quiet.refl _).operationAnswered.keeps

theorem Keeping.resetRelease : Keeping execResetRelease := by
  intro s
  refine ⟨_, rfl, ?_⟩
  unfold State.keeps
  split
  · exact .restarted _ _
  · exact .refl _

theorem Keeping.queueRender {o : Origin} {slot gen port : Nat} {range : Range} : Keeping (execQueueRender o slot gen range port) :=
  .take (.block fun _ _ _ hx => ((Quiet.refl _).queueRender hx).keeps)

theorem Keeping.cueMonitor {o : Origin} {slot gen port : Nat} {range : Range} {loop : Bool} :
    Keeping (execCueMonitor o slot gen range loop port) :=
  .take (.block fun _ _ _ hx => ((Quiet.refl _).cueMonitor hx).keeps)

theorem Keeping.resumeRenders {o : Origin} : Keeping (execResumeRenders o) := by
  refine .take (.plain fun g e x hx => ?_)
  rw [← Except.ok.inj hx]
  exact (Quiet.settleRender (Quiet.frame (.refl e) rfl)).keeps

theorem Keeping.stopMonitor {o : Origin} : Keeping (execStopMonitor o) := by
  refine .take (.plain fun g e x hx => ?_)
  rw [← Except.ok.inj hx]
  exact (Quiet.refl e).stopMonitor.keeps

theorem Keeping.absent {p : Fin 4} : Keeping (execAbsent p) := fun s =>
  ⟨_, rfl, State.keeps_run (s := { s with seated := s.seated.set p false }) fun _ _ => Departed.cardLeaves.keeps.quiet (Quiet.refl _).settleTransfer⟩

theorem Keeping.present {p : Fin 4} : Keeping (execPresent p) := fun s =>
  ⟨_, rfl, State.keeps_run (s := { s with seated := s.seated.set p true }) fun _ _ => .cardArrives⟩

theorem Keeping.inserted {p : Fin 4} : Keeping (execInserted p) := fun s =>
  ⟨_, rfl, State.keeps_run (s := { s with mounted := s.mounted.set p true }) fun _ _ => .driveArrives⟩

theorem Keeping.removed {p : Fin 4} : Keeping (execRemoved p) := fun s =>
  ⟨_, rfl, State.keeps_run (s := { s with mounted := s.mounted.set p false }) fun _ _ => .driveLeaves⟩

/-- Each command answers a next state that keeps the invariants. -/
theorem exec_keeps (c : Instr) : Keeping (exec c) := by
  cases c with
  | resetAssert => exact fun s => ⟨_, rfl, Keeps.reset s.engine⟩
  | resetRelease => exact .resetRelease
  | linkUp p => exact .atStation
  | linkLost p => exact .atStation
  | requestArrival o kind payload => exact .atStation
  | messageSent p => exact .atStation
  | unknownRequestKind o kind payload => exact fun _ => ⟨_, rfl, State.keeps_takeUnknown⟩
  | status o => exact .take (.read _)
  | readClip o slot generation => exact .take (.read _)
  | listClips o start count => exact .take (.read _)
  | readCard o card => exact .take (.read _)
  | readVolumes o => exact .take (.read _)
  | readFaults o start count => exact .take .readFaults
  | readLook o selector => exact .take (.read _)
  | readLinks o => exact .take (.read _)
  | setNotices o mask => exact .take .setNotices
  | writeLink o entry kind camera severity action parameter enabled => exact .take .plainSetting
  | clearLink o entry => exact .take .plainSetting
  | ackFault o number => exact .take (.plain fun _ _ _ hx => (Quiet.ackFault hx).keeps)
  | startOffload o card set => exact .take .startOffload
  | holdCard o card => exact .take (.plain fun _ _ _ hx => ((Quiet.refl _).holdCard hx).keeps)
  | resumeCard o card => exact .take (.plain fun _ _ _ hx => .resumeCard hx)
  | abortCard o card => exact .take (.plain fun _ _ _ hx => ((Quiet.refl _).abortCard hx).keeps)
  | releaseCard o card => exact .take .releaseCard
  | recopy o slot generation mask => exact .take .recopy
  | retireClip o slot generation => exact .take (.plain fun _ _ _ hx => .retireClip hx)
  | retireCard o card => exact .take (.plain fun _ _ _ hx => .retireCard hx)
  | defineSet o set mask copies mode => exact .take .plainSetting
  | setStall o port period retries => exact .take .setting
  | writeLook o a => exact .take .writeLook
  | clearLook o slot => exact .take .clearLook
  | writeBinding o entry camera reelLow reelHigh look enabled => exact .take .plainSetting
  | bindLook o slot generation look => exact .take (.plain fun _ _ _ hx => (Quiet.bindLook hx).keeps)
  | queueRender o slot generation range port => exact .queueRender
  | resumeRenders o => exact .resumeRenders
  | cueMonitor o slot generation range loop port => exact .cueMonitor
  | stopMonitor o => exact .stopMonitor
  | setMonitor o rate decimation reference time => exact .take .setMonitor
  | cancelRender o job => exact .take (.plain fun _ _ _ hx => ((Quiet.refl _).cancelRender hx).keeps)
  | waiveFault o number => exact .take (.plain fun _ _ _ hx => (Quiet.waiveFault hx).keeps)
  | waiveOverflow o slot generation => exact .take (.plain fun _ _ _ hx => (Quiet.waiveOverflow hx).keeps)
  | writeProfile o a => exact .take .setting
  | present p => exact .present
  | absent p => exact .absent
  | directoryAnswer p x a => exact .answered fun _ _ => .directoryArrives
  | directoryTimeout p => exact .run fun _ _ => .directoryTimesOut
  | readAnswer p x a => exact .answered fun _ _ => .readArrives
  | stallTimerExpiry p => exact .run fun _ _ => .stallExpires
  | inserted p => exact .inserted
  | removed p => exact .removed
  | identifyAnswer p x a => exact .answered fun _ _ => .identified
  | enclosureTimeout p => exact .run fun _ _ => .enclosureTimesOut
  | openWriteAnswer p x a => exact .operation
  | appendAnswer p x a => exact .operation
  | closeAnswer p x a => exact .operation
  | openReadAnswer p x a => exact .operation
  | volumeReadAnswer p x a => exact .operation
  | samplerCompletion lane => exact .run fun _ _ => (Quiet.refl _).sampleComplete.keeps
  | sync damage => exact fun _ => ⟨_, rfl, State.keeps_runAt fun _ _ => (Quiet.refl _).syncArrives.keeps⟩
  | referencePulse time damage => exact fun _ => ⟨_, rfl, State.keeps_runAt fun _ _ => (Quiet.refl _).pulse.keeps⟩
  | referenceTimeout damage => exact fun _ => ⟨_, rfl, State.keeps_runAt fun _ _ => (Quiet.refl _).referenceExpires.keeps⟩

/-- A step keeps the invariants. -/
theorem step_keeps {s t : State} (h : step s = .next t) : Keeps s.engine t.engine := by
  unfold step at h
  split at h
  · obtain rfl := Host.Outcome.next.inj h
    exact .refl _
  · next c rest _ =>
    obtain ⟨u, hu, k⟩ := exec_keeps c { s with pending := rest }
    obtain rfl := Host.Outcome.next.inj (hu.symm.trans h)
    exact k

/-- Settles O41: the four invariants are kept by every change of the blocks, most of them quiet, and so by every command. -/
theorem everyStepKeepsTheCatalogueAndTheVolumeTable : Obligations.EveryStepKeepsTheCatalogueAndTheVolumeTable := by
  unfold Obligations.EveryStepKeepsTheCatalogueAndTheVolumeTable
  intro s t h
  simp only [Engine.cardsLegal_iff, Engine.clipsLegal_iff, Engine.volumesLegal_iff, Engine.entriesUsed_iff]
  obtain ⟨cards, clips, volumes, used⟩ := step_keeps h
  exact ⟨cards, clips, volumes, used⟩

end Sys2Proof.Machine
end

