-- ==== Sys2Proof/Proofs/ReadRequests.lean ====
section
/-!
O26: the read requests answer the records as they stand (R22, R23, R74, R110, R188, R193).
-/

namespace Sys2Proof.Machine

/-! ## The walk of LIST_CLIPS -/

/-- The slot that stands some places after another, wrapping from 511 to 0 (R23). -/
def slotAfter (i : Fin 512) (k : Nat) : Fin 512 := ⟨(i.val + k) % 512, Nat.mod_lt _ (by decide)⟩

theorem slotAfter_zero (i : Fin 512) : slotAfter i 0 = i := Fin.ext (Nat.mod_eq_of_lt i.isLt)

theorem slotAfter_succ (i : Fin 512) (k : Nat) : slotAfter (i + 1) k = slotAfter i (k + 1) := by
  refine Fin.ext ?_
  show ((i + 1 : Fin 512).val + k) % 512 = (i.val + (k + 1)) % 512
  rw [Fin.val_add]
  show ((i.val + 1) % 512 + k) % 512 = _
  omega

/-- The records of the slots examined, `n` of them from a slot upward (R23). -/
def Engine.foundFrom (e : Engine) (i : Fin 512) (n : Nat) : List Clip := (List.range n).filterMap (fun k => e.clipIn (slotAfter i k))

theorem Engine.foundFrom_succ (e : Engine) (i : Fin 512) (n : Nat) :
    e.foundFrom i (n + 1) = (e.clipIn i).toList ++ e.foundFrom (i + 1) n := by
  unfold Engine.foundFrom
  rw [List.range_succ_eq_map, List.filterMap_cons, List.filterMap_map, slotAfter_zero]
  simp only [Function.comp_def, slotAfter_succ]
  cases e.clipIn i <;> rfl

/-- Where a walk stops (R23): it has examined `n` slots, and found no more records than it wants; with fewer it has examined them all, and
with all it wants the last one was occupied. -/
structure WalkStops (e : Engine) (left : Nat) (i : Fin 512) (want n : Nat) : Prop where
  most : n ≤ left
  found : (e.foundFrom i n).length ≤ want
  all : (e.foundFrom i n).length < want → n = left
  last : (e.foundFrom i n).length = want → want = 0 ∧ n = 0 ∨ 1 ≤ n ∧ (e.clipIn (slotAfter i (n - 1))).isSome = true

theorem WalkStops.next {e : Engine} {left want want' n : Nat} {i : Fin 512} (h : WalkStops e left (i + 1) want' n)
    (hw : want = (e.clipIn i).toList.length + want') (hp : 0 < want) : WalkStops e (left + 1) i want (n + 1) := by
  have length : (e.foundFrom i (n + 1)).length = (e.clipIn i).toList.length + (e.foundFrom (i + 1) n).length := by
    rw [Engine.foundFrom_succ, List.length_append]
  refine ⟨Nat.succ_le_succ h.most, ?_, fun k => ?_, fun k => .inr ⟨Nat.succ_pos n, ?_⟩⟩
  · have := h.found
    omega
  · have := h.all (by omega)
    omega
  · rw [Nat.add_sub_cancel]
    obtain ⟨h0, rfl⟩ | ⟨hn, hs⟩ := h.last (by omega)
    · rw [slotAfter_zero]
      cases hc : e.clipIn i with
      | some c => rfl
      | none => rw [hc, h0] at hw; rw [hw] at hp; exact absurd hp (by decide)
    · obtain ⟨m, rfl⟩ : ∃ m, n = m + 1 := ⟨n - 1, by omega⟩
      rw [Nat.add_sub_cancel, slotAfter_succ] at hs
      exact hs

/-- A walk that wants nothing examines nothing. -/
theorem WalkStops.stay (e : Engine) (left : Nat) (i : Fin 512) : WalkStops e left i 0 0 :=
  ⟨Nat.zero_le _, Nat.le_refl _, fun h => absurd h (Nat.not_lt_zero _), fun _ => .inl ⟨rfl, rfl⟩⟩

theorem Engine.walkSlots_eq (e : Engine) (left : Nat) (i : Fin 512) (want : Nat) :
    ∃ n, WalkStops e left i want n ∧ e.walkSlots left i want = (e.foundFrom i n, slotAfter i n, left - n) := by
  induction left generalizing i want with
  | zero =>
    refine ⟨0, ⟨Nat.le_refl _, Nat.zero_le _, fun _ => rfl, fun h => .inl ⟨h.symm, rfl⟩⟩, ?_⟩
    rw [slotAfter_zero]
    rfl
  | succ left ih =>
    cases want with
    | zero =>
      refine ⟨0, .stay e _ i, ?_⟩
      rw [slotAfter_zero]
      rfl
    | succ want =>
      cases hc : e.clipIn i with
      | some c =>
        have slot : (e.clips[i]).clip = some c := hc
        obtain ⟨n, hn, he⟩ := ih (i + 1) want
        refine ⟨n + 1, hn.next (by rw [hc]; exact Nat.add_comm _ _) (Nat.succ_pos _), ?_⟩
        rw [Engine.walkSlots, slot, he, Engine.foundFrom_succ, hc, slotAfter_succ, Nat.add_sub_add_right]
        rfl
      | none =>
        have slot : (e.clips[i]).clip = none := hc
        obtain ⟨n, hn, he⟩ := ih (i + 1) (want + 1)
        refine ⟨n + 1, hn.next (by rw [hc]; exact (Nat.zero_add _).symm) (Nat.succ_pos _), ?_⟩
        rw [Engine.walkSlots, slot, Engine.foundFrom_succ, hc, Nat.add_sub_add_right, ← slotAfter_succ]
        exact he

/-- The slots written out as O26 writes them. -/
theorem Engine.foundFrom_getD (e : Engine) (i : Fin 512) (n : Nat) :
    e.foundFrom i n = (List.range n).filterMap (fun k => (e.clips.toList.getD ((i.val + k) % 512) ⟨0, none⟩).clip) := by
  unfold Engine.foundFrom
  refine congrFun (congrArg List.filterMap (funext fun k => ?_)) _
  have bound : (i.val + k) % 512 < e.clips.toList.length := by
    rw [Vector.length_toList]; exact Nat.mod_lt _ (by decide)
  rw [List.getD_eq_getElem _ _ bound]
  rfl

/-! ## The requests -/

section
variable {o : Origin} {s : State}

/-- A request that every station may issue. -/
theorem permitted_of_le {p : StationPort} {k : Nat} (h : k ≤ 12) : permitted p k = true := by
  simp [permitted, h]

/-- A read request answers by its function, and changes nothing. -/
theorem take_reads (h : s.accepts o = true) {α : Type} [DecidableEq α] {kind : Nat} (hk : kind ≤ 12) (read : Reader α) (args : α)
    {f : State → Answer} {a : Answer} (hf : ∀ ss, f { s with engine := s.blocks, stations := ss } = a) :
    ∃ t, Host.Outcome.next (φ := Fault) (ρ := Refusal) (s.take o kind read args (readRule f)) = .next t ∧ s.onlyAnswered t o kind a ∧
      t.settings = s.settings ∧ t.engine = s.blocks :=
  State.take_keep h read args (permitted_of_le hk) fun ss => by rw [readRule, hf]

theorem readFaults_reads (h : s.accepts o = true) {start count : Nat} (h1 : start ≤ 255) (h2 : 1 ≤ count) (h3 : count ≤ 16) :
    ∃ t, exec (.readFaults o start count) s = .next t ∧ s.onlyAnswered t o 6 (.done, wFaults s.settings s.engine start count) ∧
      t.settings = s.settings ∧ t.engine = { s.blocks with dropped := false } := by
  refine State.take_plain h _ _ (permitted_of_le (by decide)) (fun ss => ?_) rfl rfl
  rw [readFaultsRule, if_pos ⟨h1, h2, h3⟩]
  rfl

theorem listClips_refused (h : s.accepts o = true) {start count : Nat} (hb : 511 < start ∨ count = 0 ∨ 16 < count) :
    ∃ t, exec (.listClips o start count) s = .next t ∧ s.onlyAnswered t o 3 (.badArgument, []) ∧ t.settings = s.settings ∧
      t.engine = s.blocks := by
  refine take_reads h (by decide) _ _ fun ss => ?_
  unfold listAnswer
  split
  · rw [if_neg (by omega)]
    rfl
  · rfl

/-- The answer of LIST_CLIPS for the records found by a walk of `n` slots from `start` (R23). -/
def listDone (e : Engine) (start n : Nat) (found : List Clip) : Answer :=
  (.done, w8 found.length ++ (found.map (wSummary e)).flatten ++ w16 ((start + n) % 512) ++ w8 (if n = 512 then 1 else 0))

/-- The bytes of a list of clips as LIST_CLIPS writes them, after a walk of `n` slots from `start` (R23, R202). -/
theorem listAnswer_walk {start count n : Nat} (hs : start < 512) (h1 : 1 ≤ count) (h2 : count ≤ 16)
    (hn : WalkStops s.engine 512 ⟨start, hs⟩ count n)
    (he : s.engine.walkSlots 512 ⟨start, hs⟩ count = (s.engine.foundFrom ⟨start, hs⟩ n, slotAfter ⟨start, hs⟩ n, 512 - n)) :
    listAnswer start count s = listDone s.engine start n (s.engine.foundFrom ⟨start, hs⟩ n) := by
  have flag : wFlag (decide (512 - n = 0)) = w8 (if n = 512 then 1 else 0) := by
    have := hn.most
    by_cases k : n = 512
    · subst k; rfl
    · rw [if_neg k, decide_eq_false (by omega)]; rfl
  unfold listAnswer
  rw [dif_pos hs, if_pos ⟨h1, h2⟩, he]
  dsimp only
  rw [flag, listDone]
  rfl

theorem listClips_walks (h : s.accepts o = true) {start count : Nat} (hs : start < 512) (h1 : 1 ≤ count) (h2 : count ≤ 16) :
    ∃ (n : Nat) (t : State) (found : List Clip),
      exec (.listClips o start count) s = .next t ∧ t.settings = s.settings ∧ t.engine = s.blocks ∧
      found = (List.range n).filterMap (fun k => (s.engine.clips.toList.getD ((start + k) % 512) ⟨0, none⟩).clip) ∧
      1 ≤ n ∧ n ≤ 512 ∧ found.length ≤ count ∧ (found.length < count → n = 512) ∧
      (found.length = count → (s.engine.clips.toList.getD ((start + (n - 1)) % 512) ⟨0, none⟩).clip.isSome = true) ∧
      s.onlyAnswered t o 3
        (.done, w8 found.length ++ (found.map (wSummary s.engine)).flatten ++ w16 ((start + n) % 512) ++
          w8 (if n = 512 then 1 else 0)) := by
  obtain ⟨n, hn, he⟩ := s.blocks.walkSlots_eq 512 ⟨start, hs⟩ count
  obtain ⟨t, ht, answered, settings, blocks⟩ := take_reads h (kind := 3) (by decide) (readPair read16 read8) (start, count)
    (f := listAnswer start count) (a := listDone s.blocks start n (s.blocks.foundFrom ⟨start, hs⟩ n)) fun ss =>
      listAnswer_walk (s := { s with engine := s.blocks, stations := ss }) hs h1 h2 hn he
  have pos : 1 ≤ n := by
    by_contra k
    have zero : n = 0 := by omega
    subst zero
    have := hn.all (show 0 < count from h1)
    omega
  refine ⟨n, t, s.blocks.foundFrom ⟨start, hs⟩ n, ht, settings, blocks, Engine.foundFrom_getD _ _ _, pos, hn.most, hn.found, hn.all,
    fun k => ?_, answered⟩
  obtain ⟨-, rfl⟩ | ⟨-, last⟩ := hn.last k
  · exact absurd pos (by decide)
  · have bound : (start + (n - 1)) % 512 < s.engine.clips.toList.length := by
      rw [Vector.length_toList]; exact Nat.mod_lt _ (by decide)
    rw [List.getD_eq_getElem _ _ bound]
    exact last

end

/-- Settles O26: every read answers by its function of the records, and LIST_CLIPS by the walk that `Engine.walkSlots_eq` describes. -/
theorem readsAnswerTheRecordsAsTheyStand : Obligations.ReadsAnswerTheRecordsAsTheyStand := by
  unfold Obligations.ReadsAnswerTheRecordsAsTheyStand
  intro o s h
  refine ⟨fun x c hc => ?_, fun c r hr => ?_, ?_, fun _ _ h1 h2 h3 => readFaults_reads h h1 h2 h3, fun i => ?_, ?_, ?_,
    fun _ _ => ⟨listClips_refused h, fun hs h1 h2 => listClips_walks h hs h1 h2⟩⟩
  · refine take_reads h (by decide) _ _ fun ss => ?_
    rw [show Engine.checkClip _ _ _ = _ from Engine.checkClip_val (e := s.blocks) hc]
    rfl
  · refine take_reads h (by decide) _ _ fun ss => ?_
    rw [show Engine.checkCard _ _ = _ from Engine.checkCard_val (e := s.blocks) hr]
    rfl
  · exact take_reads h (by decide) _ _ fun _ => rfl
  · refine take_reads h (by decide) _ _ fun ss => ?_
    rw [lookAnswer, if_neg (by unfold namedByte; omega), checkIndex_val]
    rfl
  · exact take_reads h (by decide) _ _ fun _ => rfl
  · exact take_reads h (by decide) _ _ fun _ => rfl

end Sys2Proof.Machine
end

