-- ==== Sys2Proof/Proofs/HoldFlags.lean ====
section
/-!
SUPPORT. What the hold flags' followers do exactly: the outputs of card ports, the descriptors' states and the card's state (R39, R40, R81,
R94); and that the catalogue's changes leave a calm part nothing to start.
-/

namespace Sys2Proof.Machine

section
variable {e : Engine} {g : Settings} {p : Fin 4} {card : Fin 32}

/-! ## Frames -/

/-- The change leaves everything but the card and clip records, the wait list and the no-record list, the card ports, the copy queue and the
events. -/
def Engine.cardsMove (a b : Engine) : Prop :=
  b = { a with cards := b.cards, clips := b.clips, waitList := b.waitList, noRecord := b.noRecord, cardPorts := b.cardPorts,
               queue := b.queue, events := b.events }

theorem Engine.cardsMove.refl (a : Engine) : a.cardsMove a := rfl

theorem Engine.cardsMove.trans {a b c : Engine} (h : a.cardsMove b) (k : b.cardsMove c) : a.cardsMove c := by
  unfold Engine.cardsMove at *
  rw [k, h]

theorem Engine.cardsMove.removed {a b : Engine} (h : a.cardsMove b) : b.removed = a.removed := by rw [h]

/-- Such a change gives a calm part nothing to start. -/
theorem Engine.cardsMove.settleTransfer {a b : Engine} (h : a.cardsMove b) (hl : a.lanesTaken = true) (hr : a.renderIdle = true) :
    b.settleTransfer g = b :=
  Engine.settleTransfer_like hl hr (by rw [h]) (by rw [h]) (by rw [h])

theorem Engine.updateCard_move (f : CardRecord → CardRecord) : e.cardsMove (e.updateCard card f) := by
  unfold Engine.updateCard
  split <;> rfl

theorem Engine.setCardState_move (x : CardState) : e.cardsMove (e.setCardState card x) := by
  have updated : e.cardsMove (e.updateCard card (fun r => { r with state := x })) := Engine.updateCard_move _
  unfold Engine.setCardState
  dsimp only
  split
  · exact updated.trans rfl
  · exact updated

theorem Engine.signalSecured_move : e.cardsMove (e.signalSecured card) := by
  unfold Engine.signalSecured
  split <;> rfl

theorem Engine.becomeOffloaded_move : e.cardsMove (e.becomeOffloaded card) :=
  ((Engine.setCardState_move _).trans (Engine.updateCard_move _)).trans Engine.signalSecured_move

/-- A card's state follows its descriptors in one of three ways (R94). -/
theorem Engine.recomputeCard_cases (e : Engine) (card : Fin 32) : e.recomputeCard card = e ∨
    (e.recomputeCard card = e.becomeOffloaded card ∧ e.cardStateFromQueue card = .offloaded) ∨
    ∃ x, e.recomputeCard card = e.setCardState card x := by
  unfold Engine.recomputeCard
  split
  · split
    · dsimp only
      split
      · exact .inl rfl
      · split
        · next hx => exact .inr (.inl ⟨rfl, hx⟩)
        · exact .inr (.inr ⟨_, rfl⟩)
    · exact .inl rfl
  · exact .inl rfl

theorem Engine.recomputeCard_move : e.cardsMove (e.recomputeCard card) := by
  obtain he | ⟨he, -⟩ | ⟨x, he⟩ := e.recomputeCard_cases card <;> rw [he]
  · rfl
  · exact Engine.becomeOffloaded_move
  · exact Engine.setCardState_move x

theorem Engine.recomputeHolds_move : e.cardsMove (e.recomputeHolds card) := by
  unfold Engine.recomputeHolds
  split <;> rfl

theorem Engine.changeHolds_move (f : CardRecord → CardRecord) : e.cardsMove (e.changeHolds card f) :=
  ((Engine.updateCard_move f).trans Engine.recomputeHolds_move).trans Engine.recomputeCard_move

theorem Engine.joined_move : e.cardsMove (e.joined p card) := by
  have ported : ∀ a : Engine, a.cardsMove (a.updatePort p (fun x => { x with state := .attached })) := fun _ => rfl
  exact (Engine.updateCard_move _).trans (ported _)

theorem Engine.attachCard_move : e.cardsMove (e.attachCard p card) := by
  have driven : (e.joined p card).cardsMove ((e.joined p card).drivePort p) := rfl
  have signaled : ∀ a : Engine, a.cardsMove (a.signal (Event.ofCard .cardAttached card)) := fun _ => rfl
  exact ((Engine.joined_move.trans driven).trans (Engine.changeHolds_move _)).trans (signaled _)

theorem Engine.registerTake_move (x : Fin 512 × Take) : e.cardsMove (Engine.registerTake card e x) := by
  unfold Engine.registerTake
  exact Engine.cardsMove.trans (b := { e with clips := _ }) rfl (Engine.updateCard_move _)

theorem Engine.registerTakes_move (takes : List Take) : e.cardsMove (e.registerTakes card takes) := by
  unfold Engine.registerTakes
  generalize e.freeClips.zip takes = xs
  induction xs generalizing e with
  | nil => rfl
  | cons x xs ih => exact (Engine.registerTake_move x).trans ih

theorem Engine.handDirectory_move (d : Directory) : e.cardsMove (e.handDirectory p d) := by
  unfold Engine.handDirectory
  split
  · split
    · exact Engine.attachCard_move
    · rfl
  · split
    · next card _ =>
      obtain he | he := Engine.createCard_cases (e := e) (p := p) (card := card) d <;> rw [he]
      · exact (Engine.cardsMove.trans (b := e.withCard card _ _) rfl (Engine.registerTakes_move _)).trans Engine.attachCard_move
      · exact Engine.cardsMove.trans (b := e.withCard card _ _) rfl Engine.attachCard_move
    · rfl

/-! ## The outputs of the card ports -/

/-- The port is as it was but for its outputs, which a port that is not the card's keeps too. -/
def CardPort.outputsOnly (x y : CardPort) : Prop := y = { x with lock := y.lock, lit := y.lit }

theorem CardPort.outputsOnly.trans {x y z : CardPort} (h : x.outputsOnly y) (k : y.outputsOnly z) : x.outputsOnly z := by
  unfold CardPort.outputsOnly at *
  rw [k, h]

theorem Engine.drivePort_port (q : Fin 4) : (e.drivePort p).cardPorts[q] =
    if q = p then { e.cardPorts[q] with lock := e.lockWanted p, lit := e.litWanted p } else e.cardPorts[q] :=
  Engine.updatePort_port e p (fun x => { x with lock := e.lockWanted p, lit := e.litWanted p }) q

theorem Engine.drivePort_outputs (q : Fin 4) : (e.cardPorts[q]).outputsOnly (e.drivePort p).cardPorts[q] := by
  rw [Engine.drivePort_port]
  split <;> rfl

/-- The ports that follow a card's state: its own alone. -/
theorem Engine.setCardState_ports (x : CardState) (q : Fin 4) : (e.cardPorts[q]).outputsOnly (e.setCardState card x).cardPorts[q] ∧
    ((e.cards[card]).bind (·.attached) ≠ some q → (e.setCardState card x).cardPorts[q] = e.cardPorts[q]) := by
  have own : ((e.updateCard card (fun r => { r with state := x })).cards[card]).bind (·.attached) = (e.cards[card]).bind (·.attached) := by
    rw [Engine.updateCard_card]
    cases e.cards[card] <;> simp
  unfold Engine.setCardState
  dsimp only
  split
  · next p hp =>
    rw [own] at hp
    refine ⟨?_, fun hq => ?_⟩
    · have := (e.updateCard card (fun r => { r with state := x })).drivePort_outputs (p := p) q
      rwa [Engine.updateCard_cardPorts] at this
    · rw [Engine.drivePort_port, Engine.updateCard_cardPorts, if_neg (fun k : q = p => hq (by rw [k, hp]))]
  · rw [Engine.updateCard_cardPorts]
    exact ⟨rfl, fun _ => rfl⟩

theorem Engine.becomeOffloaded_cardPorts : (e.becomeOffloaded card).cardPorts = (e.setCardState card .offloaded).cardPorts := by
  unfold Engine.becomeOffloaded Engine.signalSecured
  split <;> simp

theorem Engine.recomputeCard_ports (q : Fin 4) : (e.cardPorts[q]).outputsOnly (e.recomputeCard card).cardPorts[q] ∧
    ((e.cards[card]).bind (·.attached) ≠ some q → (e.recomputeCard card).cardPorts[q] = e.cardPorts[q]) := by
  obtain he | ⟨he, -⟩ | ⟨x, he⟩ := e.recomputeCard_cases card <;> rw [he]
  · exact ⟨rfl, fun _ => rfl⟩
  · have := Engine.setCardState_ports (e := e) (card := card) .offloaded q
    simpa only [← Engine.becomeOffloaded_cardPorts] using this
  · exact Engine.setCardState_ports x q

theorem Engine.recomputeHolds_cards : (e.recomputeHolds card).cards = e.cards := by
  unfold Engine.recomputeHolds
  split <;> rfl

theorem Engine.recomputeHolds_cardPorts : (e.recomputeHolds card).cardPorts = e.cardPorts := by
  unfold Engine.recomputeHolds
  split <;> rfl

theorem Engine.changeHolds_ports {f : CardRecord → CardRecord} (hf : ∀ r, (f r).attached = r.attached) (q : Fin 4) :
    (e.cardPorts[q]).outputsOnly (e.changeHolds card f).cardPorts[q] ∧
      ((e.cards[card]).bind (·.attached) ≠ some q → (e.changeHolds card f).cardPorts[q] = e.cardPorts[q]) := by
  have own : (((e.updateCard card f).recomputeHolds card).cards[card]).bind (·.attached) = (e.cards[card]).bind (·.attached) := by
    rw [Engine.recomputeHolds_cards, Engine.updateCard_card]
    cases e.cards[card] <;> simp [hf]
  have := Engine.recomputeCard_ports (e := (e.updateCard card f).recomputeHolds card) (card := card) q
  rw [own, Engine.recomputeHolds_cardPorts, Engine.updateCard_cardPorts] at this
  exact this

/-! ## The card records -/

theorem Engine.setCardState_card (x : CardState) (c : Fin 32) : (e.setCardState card x).cards[c] =
    (e.cards[c]).map (fun r => if c = card then { r with state := x } else r) := by
  rw [Engine.setCardState_cards, Engine.updateCard_card]

/-- A card becomes OFFLOADED (R94). -/
theorem Engine.becomeOffloaded_card (c : Fin 32) : (e.becomeOffloaded card).cards[c] =
    (e.cards[c]).map (fun r => if c = card then { r with state := .offloaded, heldByRequest := false } else r) := by
  have : (e.becomeOffloaded card).cards = ((e.setCardState card .offloaded).updateCard card (fun r => { r with heldByRequest := false })).cards := by
    unfold Engine.becomeOffloaded Engine.signalSecured
    split <;> rfl
  rw [this, Engine.updateCard_card, Engine.setCardState_card, Option.map_map]
  cases e.cards[c] with
  | none => rfl
  | some r => simp only [Option.map_some, Function.comp]; split <;> rfl

/-- The other records keep. -/
theorem Engine.recomputeCard_other {c : Fin 32} (hc : c ≠ card) : (e.recomputeCard card).cards[c] = e.cards[c] := by
  obtain he | ⟨he, -⟩ | ⟨x, he⟩ := e.recomputeCard_cases card <;> rw [he]
  · rw [Engine.becomeOffloaded_card]
    simp [hc]
  · rw [Engine.setCardState_card]
    simp [hc]

/-- The record whose state follows its descriptors: HELD_BY_REQUEST is cleared at most as it becomes OFFLOADED. -/
theorem Engine.recomputeCard_own {r : CardRecord} (hr : e.cards[card] = some r) :
    ∃ x, (e.recomputeCard card).cards[card] = some { r with state := x } ∨
      ((e.recomputeCard card).cards[card] = some { r with state := x, heldByRequest := false } ∧ e.cardStateFromQueue card = .offloaded) := by
  obtain he | ⟨he, hq⟩ | ⟨x, he⟩ := e.recomputeCard_cases card <;> rw [he]
  · exact ⟨r.state, .inl hr⟩
  · refine ⟨.offloaded, .inr ⟨?_, hq⟩⟩
    rw [Engine.becomeOffloaded_card, hr]
    simp
  · refine ⟨x, .inl ?_⟩
    rw [Engine.setCardState_card, hr]
    simp

/-- A card that is READY, waits for space, or has been released takes no state from its descriptors (R94). -/
theorem Engine.recomputeCard_apart {r : CardRecord} (hr : e.cards[card] = some r)
    (hs : ¬ (r.state = .offloading ∨ r.state = .held ∨ r.state = .offloaded)) : e.recomputeCard card = e := by
  unfold Engine.recomputeCard
  rw [hr]
  dsimp only
  rw [if_neg hs]

end

end Sys2Proof.Machine
end

