-- ==== Sys2Proof/Proofs/DirectoryAnswers.lean ====
section
/-!
THEOREM. What a directory answer does (R12 to R14, R26 to R30): O46.
-/

namespace Sys2Proof.Machine

section
variable {e : Engine} {g : Settings} {p : Fin 4} {card : Fin 32} {r : CardRecord}

/-! ## Attachment -/

theorem Engine.recomputeHolds_clips : (e.recomputeHolds card).clips = e.clips := by
  unfold Engine.recomputeHolds
  split <;> rfl

theorem Engine.recomputeHolds_events : (e.recomputeHolds card).events = e.events := by
  unfold Engine.recomputeHolds
  split <;> rfl

theorem Engine.recomputeCard_clips : (e.recomputeCard card).clips = e.clips := by
  obtain he | ⟨he, -⟩ | ⟨x, he⟩ := e.recomputeCard_cases card <;> rw [he]
  · unfold Engine.becomeOffloaded Engine.signalSecured
    split <;> simp
  · simp

theorem Engine.changeHolds_clips (f : CardRecord → CardRecord) : (e.changeHolds card f).clips = e.clips := by
  unfold Engine.changeHolds
  rw [Engine.recomputeCard_clips, Engine.recomputeHolds_clips, Engine.updateCard_clips]

/-- A card that takes no state from its descriptors: its flags change, and its waiting descriptors follow. -/
theorem Engine.changeHolds_apart {f : CardRecord → CardRecord} (hr : e.cards[card] = some r)
    (hs : ¬ ((f r).state = .offloading ∨ (f r).state = .held ∨ (f r).state = .offloaded)) :
    e.changeHolds card f = (e.updateCard card f).recomputeHolds card := by
  refine Engine.recomputeCard_apart (r := f r) ?_ hs
  rw [Engine.recomputeHolds_cards, Engine.updateCard_card, hr]
  simp

/-- The record that changes its flags: they are as set, but that HELD_BY_REQUEST may be cleared, and the state may change. -/
theorem Engine.changeHolds_own (f : CardRecord → CardRecord) (hr : e.cards[card] = some r) :
    ∃ x k, (e.changeHolds card f).cards[card] = some { f r with state := x, heldByRequest := k } := by
  have set : ((e.updateCard card f).recomputeHolds card).cards[card] = some (f r) := by
    rw [Engine.recomputeHolds_cards, Engine.updateCard_card, hr]
    simp
  obtain ⟨x, hx | ⟨hx, -⟩⟩ := Engine.recomputeCard_own set
  · exact ⟨x, (f r).heldByRequest, hx⟩
  · exact ⟨x, false, hx⟩

/-- The blocks of an attachment, before the absence hold is lifted: the record and the port joined, and the port's outputs driven. -/
def Engine.joinedOutputs (e : Engine) (p : Fin 4) (card : Fin 32) : Engine := (e.joined p card).drivePort p

theorem Engine.attachCard_eq : e.attachCard p card =
    ((e.joinedOutputs p card).changeHolds card (fun r => { r with heldByAbsence := false })).signal (Event.ofCard .cardAttached card) := rfl

theorem Engine.joinedOutputs_card (c : Fin 32) : (e.joinedOutputs p card).cards[c] =
    (e.cards[c]).map (fun r => if c = card then { r with attached := some p } else r) := Engine.joined_card c

theorem CardPort.outputsOnly.fields {x y : CardPort} (h : x.outputsOnly y) : y.state = x.state ∧ y.held = x.held := by
  rw [h]
  exact ⟨rfl, rfl⟩

theorem Engine.attachCard_port : ((e.attachCard p card).cardPorts[p]).state = .attached ∧
    ((e.attachCard p card).cardPorts[p]).held = (e.cardPorts[p]).held := by
  have driven := (e.joined p card).drivePort_outputs (p := p) p
  have follows := (Engine.changeHolds_ports (e := e.joinedOutputs p card) (card := card)
    (f := fun r => { r with heldByAbsence := false }) (fun _ => rfl) p).1
  obtain ⟨state, held⟩ := (driven.trans follows).fields
  rw [Engine.joined_port, if_pos rfl] at state held
  rw [Engine.attachCard_eq, Engine.signal_cardPorts]
  exact ⟨state, held⟩

theorem Engine.attachCard_clips : (e.attachCard p card).clips = e.clips := by
  rw [Engine.attachCard_eq, Engine.signal_clips, Engine.changeHolds_clips]
  simp [Engine.joinedOutputs, Engine.joined]

theorem Engine.attachCard_waitList : (e.attachCard p card).waitList = e.waitList := by
  rw [(Quiet.attachCard (e := e)).cards.waitList]
  simp [Engine.joined]

theorem Engine.attachCard_own (hr : e.cards[card] = some r) : ((e.attachCard p card).cards[card]).map (fun x => (x.attached, x.heldByAbsence)) =
    some (some p, false) := by
  have joined : (e.joinedOutputs p card).cards[card] = some { r with attached := some p } := by
    rw [Engine.joinedOutputs_card, hr]
    simp
  obtain ⟨x, k, hx⟩ := Engine.changeHolds_own (fun r => { r with heldByAbsence := false }) joined
  rw [Engine.attachCard_eq]
  exact congrArg (Option.map _) hx

theorem Engine.attachCard_signals : Event.ofCard .cardAttached card ∈ (e.attachCard p card).events :=
  List.mem_append_right _ (List.mem_singleton.mpr rfl)

/-- A record that takes no state from its descriptors attaches. -/
theorem Engine.attachCard_apart (hr : e.cards[card] = some r) (hs : ¬ (r.state = .offloading ∨ r.state = .held ∨ r.state = .offloaded)) :
    (e.attachCard p card).events = e.events ++ [Event.ofCard .cardAttached card] ∧
      ∀ c : Fin 32, (e.attachCard p card).cards[c] =
        if c = card then some { r with attached := some p, heldByAbsence := false } else e.cards[c] := by
  have joined : (e.joinedOutputs p card).cards[card] = some { r with attached := some p } := by
    rw [Engine.joinedOutputs_card, hr]
    simp
  rw [Engine.attachCard_eq, Engine.changeHolds_apart joined hs]
  refine ⟨?_, fun c => ?_⟩
  · show ((Engine.updateCard (e.joinedOutputs p card) card _).recomputeHolds card).events ++ _ = _
    rw [Engine.recomputeHolds_events, Engine.updateCard_events]
    simp [Engine.joinedOutputs, Engine.joined]
  · show ((Engine.updateCard (e.joinedOutputs p card) card _).recomputeHolds card).cards[c] = _
    rw [Engine.recomputeHolds_cards, Engine.updateCard_card, Engine.joinedOutputs_card]
    split
    · next k => rw [k, hr]; rfl
    · simp

/-! ## Takes registered -/

/-- The handle of a clip slot at its generation. -/
def Engine.handleOf (e : Engine) (i : Fin 512) : Handle := ⟨i, (e.clips[i]).gen⟩

theorem Engine.registerTake_handleOf (x : Fin 512 × Take) (i : Fin 512) : (Engine.registerTake card e x).handleOf i = e.handleOf i := by
  unfold Engine.handleOf
  rw [Engine.registerTake_slot]
  split
  · next k => rw [k]
  · rfl

/-- A slot that no take is registered in keeps. -/
theorem Engine.registerAll_others {xs : List (Fin 512 × Take)} {i : Fin 512} (hi : i ∉ xs.map Prod.fst) :
    (xs.foldl (Engine.registerTake card) e).clips[i] = e.clips[i] := by
  induction xs generalizing e with
  | nil => rfl
  | cons x xs ih =>
    rw [List.map_cons, List.mem_cons, not_or] at hi
    exact (ih hi.2).trans (by rw [Engine.registerTake_slot, if_neg hi.1])

/-- A slot that a take is registered in: the clip of the take, at the slot's generation. -/
theorem Engine.registerAll_slot {xs : List (Fin 512 × Take)} (hn : xs.Pairwise (fun x y => x.1 ≠ y.1)) {x : Fin 512 × Take} (hx : x ∈ xs) :
    (xs.foldl (Engine.registerTake card) e).clips[x.1] = ⟨(e.clips[x.1]).gen, some (Clip.made (e.handleOf x.1) card x.2)⟩ := by
  induction xs generalizing e with
  | nil => cases hx
  | cons y ys ih =>
    obtain ⟨first, rest⟩ := List.pairwise_cons.mp hn
    obtain rfl | hx := List.mem_cons.mp hx
    · have apart : x.1 ∉ ys.map Prod.fst := fun k => by
        obtain ⟨z, hz, same⟩ := List.mem_map.mp k
        exact first z hz same.symm
      rw [List.foldl_cons, Engine.registerAll_others apart, Engine.registerTake_slot, if_pos rfl]
      rfl
    · rw [List.foldl_cons, ih rest hx, Engine.registerTake_handleOf, Engine.registerTake_slot, if_neg (first x hx).symm]

/-- The card's clip list takes the handles in the order of the takes. -/
theorem Engine.registerAll_card (xs : List (Fin 512 × Take)) (c : Fin 32) : (xs.foldl (Engine.registerTake card) e).cards[c] =
    (e.cards[c]).map (fun r => if c = card then { r with clips := r.clips ++ xs.map (fun x => e.handleOf x.1) } else r) := by
  induction xs generalizing e with
  | nil => cases he : e.cards[c] <;> simp [he]
  | cons x xs ih =>
    rw [List.foldl_cons, ih, Engine.registerTake_card, Option.map_map]
    simp only [Engine.registerTake_handleOf]
    cases e.cards[c] with
    | none => rfl
    | some r => by_cases k : c = card <;> simp [k, Engine.handleOf]

theorem Engine.registerAll_events (xs : List (Fin 512 × Take)) : (xs.foldl (Engine.registerTake card) e).events = e.events := by
  induction xs generalizing e with
  | nil => rfl
  | cons x xs ih => exact ih.trans (by simp [Engine.registerTake])

/-- The slots that the takes of a directory go to, when they fit. -/
theorem freeSlots_of_takes {α β : Type} {free : List α} {takes : List β} (h : takes.length ≤ free.length) :
    (free.zip takes).map Prod.fst = free.take takes.length := by
  rw [List.zip_eq_zip_take_min, Nat.min_eq_right h, List.take_length]
  exact List.map_fst_zip (by simp)

/-! ## The hand-over -/

theorem Engine.updatePort_twice (f h : CardPort → CardPort) : (e.updatePort p f).updatePort p h = e.updatePort p (h ∘ f) := by
  simp [Engine.updatePort]

/-- The port keeps the directory that it hands over (R29). -/
theorem Engine.handDirectory_held (d : Directory) : ((e.handDirectory p d).cardPorts[p]).held = (e.cardPorts[p]).held := by
  have refused : ((e.refuseCard p).cardPorts[p]).held = (e.cardPorts[p]).held := by rw [Engine.refuseCard_port, if_pos rfl]
  unfold Engine.handDirectory
  split
  · split
    · exact Engine.attachCard_port.2
    · exact refused
  · split
    · next card _ =>
      obtain he | he := Engine.createCard_cases (e := e) (p := p) (card := card) d <;> rw [he, Engine.attachCard_port.2]
      · rw [Engine.registerTakes_cardPorts]
        rfl
      · rfl
    · exact refused

theorem Engine.handDirectory_known {d : Directory} (hd : e.cardOfIdentity d = some card) (hr : e.cards[card] = some r)
    (ha : r.attached = none) : e.handDirectory p d = e.attachCard p card := by
  unfold Engine.handDirectory
  simp [hd, hr, ha]

theorem Engine.handDirectory_elsewhere {d : Directory} (hd : e.cardOfIdentity d = some card) (hr : e.cards[card] = some r)
    (ha : r.attached ≠ none) : e.handDirectory p d = e.refuseCard p := by
  obtain ⟨q, hq⟩ := Option.ne_none_iff_exists'.mp ha
  unfold Engine.handDirectory
  simp [hd, hr, hq]

theorem Engine.handDirectory_full {d : Directory} (hd : e.cardOfIdentity d = none) (hf : e.freeCard = none) :
    e.handDirectory p d = e.refuseCard p := by
  unfold Engine.handDirectory
  rw [hd, hf]

theorem Engine.handDirectory_new {d : Directory} (hd : e.cardOfIdentity d = none) (hf : e.freeCard = some card) :
    e.handDirectory p d = e.createCard p d card := by
  unfold Engine.handDirectory
  rw [hd, hf]

/-- A new record attaches, alone, and registers its takes or waits for space (R12, R13). -/
theorem Engine.createCard_does (d : Directory) (ht : d.takeCount = d.takes.length) :
    ((e.createCard p d card).cardPorts[p]).state = .attached ∧
      (e.createCard p d card).events = e.events ++ [Event.ofCard .cardAttached card] ∧
      (∀ c, c ≠ card → (e.createCard p d card).cards[c] = e.cards[c]) ∧
      if e.waitList = [] ∧ d.takeCount ≤ e.freeClips.length then
        (e.createCard p d card).waitList = [] ∧
          (e.createCard p d card).cards[card] = some { CardRecord.made d p .ready none with
            clips := (e.freeClips.take d.takes.length).map e.handleOf } ∧
          (∀ (k : Nat) (i : Fin 512) (take : Take), e.freeClips[k]? = some i → d.takes[k]? = some take →
            (e.createCard p d card).clips[i] = ⟨(e.clips[i]).gen, some (Clip.made (e.handleOf i) card take)⟩) ∧
          (∀ i : Fin 512, i ∉ e.freeClips.take d.takes.length → (e.createCard p d card).clips[i] = e.clips[i])
      else
        (e.createCard p d card).waitList = e.waitList ++ [card] ∧ (e.createCard p d card).clips = e.clips ∧
          (e.createCard p d card).cards[card] = some (CardRecord.made d p .waitSpace (some d.takes)) := by
  by_cases fits : e.waitList = [] ∧ d.takeCount ≤ e.freeClips.length
  · have room : d.takes.length ≤ e.freeClips.length := by rw [← ht]; exact fits.2
    have slots := freeSlots_of_takes room
    have he : e.createCard p d card =
        ((e.withCard card (CardRecord.made d p .ready none) e.waitList).registerTakes card d.takes).attachCard p card := if_pos fits
    generalize ha : e.withCard card (CardRecord.made d p .ready none) e.waitList = a at he
    have clips : a.clips = e.clips := by rw [← ha]; rfl
    have free : a.freeClips = e.freeClips := by unfold Engine.freeClips; rw [clips]
    have handles : a.handleOf = e.handleOf := by unfold Engine.handleOf; rw [clips]
    have own : ∀ c, a.cards[c] = if c = card then some (CardRecord.made d p .ready none) else e.cards[c] := by
      rw [← ha]; exact Engine.withCard_card _ _
    have cards : ∀ c, (a.registerTakes card d.takes).cards[c] = if c = card then
        some { CardRecord.made d p .ready none with clips := (e.freeClips.take d.takes.length).map e.handleOf } else e.cards[c] := by
      intro c
      refine (Engine.registerAll_card _ c).trans ?_
      rw [own, free, handles, ← slots, List.map_map]
      split <;> simp [CardRecord.made, Function.comp_def]
    obtain ⟨events, others⟩ := Engine.attachCard_apart (p := p) ((cards card).trans (if_pos rfl)) (by simp [CardRecord.made])
    rw [he, if_pos fits]
    refine ⟨Engine.attachCard_port.1, ?_, fun c hc => ?_, ?_, ?_, fun k i take hk ht => ?_, fun i hi => ?_⟩
    · rw [events, show (a.registerTakes card d.takes).events = a.events from Engine.registerAll_events _, ← ha]
      rfl
    · rw [others, if_neg hc, cards, if_neg hc]
    · rw [Engine.attachCard_waitList, CardsQuiet.registerTakes.waitList, ← fits.1, ← ha]
      rfl
    · rw [others, if_pos rfl]
      rfl
    · have mem : (i, take) ∈ a.freeClips.zip d.takes :=
        List.mem_of_getElem? (List.getElem?_zip_eq_some.mpr ⟨by rw [free]; exact hk, ht⟩)
      rw [Engine.attachCard_clips, ← handles, ← clips]
      exact Engine.registerAll_slot (x := (i, take)) (pairwise_fst_zip Engine.freeClips_nodup _) mem
    · rw [Engine.attachCard_clips, ← clips]
      refine Engine.registerAll_others ?_
      rw [free, slots]
      exact hi
  · have he : e.createCard p d card =
        (e.withCard card (CardRecord.made d p .waitSpace (some d.takes)) (e.waitList ++ [card])).attachCard p card := if_neg fits
    have cards := fun c => Engine.withCard_card (e := e) (card := card) (CardRecord.made d p .waitSpace (some d.takes)) (e.waitList ++ [card]) c
    obtain ⟨events, others⟩ := Engine.attachCard_apart (p := p) ((cards card).trans (if_pos rfl)) (by simp [CardRecord.made])
    rw [he, if_neg fits]
    refine ⟨Engine.attachCard_port.1, events, fun c hc => ?_, Engine.attachCard_waitList, Engine.attachCard_clips, ?_⟩
    · rw [others, if_neg hc, cards, if_neg hc]
    · rw [others, if_pos rfl]
      rfl

/-! ## The answer -/

theorem Engine.directoryArrives_apart (a : DirectoryAnswer) (hp : (e.cardPorts[p]).state ≠ .reading) : e.directoryArrives g p a = e := by
  unfold Engine.directoryArrives
  split
  · next k => exact absurd k hp
  · next k => exact absurd k hp
  · rfl

theorem Engine.directoryTimesOut_apart (hp : (e.cardPorts[p]).state ≠ .reading) : e.directoryTimesOut p = e := by
  unfold Engine.directoryTimesOut
  split
  · next k => exact absurd k hp
  · rfl

theorem Engine.directoryTimesOut_reading (hp : (e.cardPorts[p]).state = .reading) : e.directoryTimesOut p = e.unreadable p := by
  unfold Engine.directoryTimesOut
  rw [hp]

theorem Engine.directoryArrives_error (hp : (e.cardPorts[p]).state = .reading) : e.directoryArrives g p .error = e.unreadable p := by
  unfold Engine.directoryArrives
  rw [hp]

theorem Engine.directoryArrives_invalid {d : Directory} (hp : (e.cardPorts[p]).state = .reading) (hd : directoryValid d = false) :
    e.directoryArrives g p (.directory d) = e.unreadable p := by
  unfold Engine.directoryArrives
  rw [hp]
  exact if_neg (by rw [hd]; nofun)

/-- The port holds the directory of an answer (R29). -/
def Engine.holding (e : Engine) (p : Fin 4) (d : Directory) : Engine := e.updatePort p (fun x => { x with held := some d })

theorem Engine.directoryArrives_valid {d : Directory} (hp : (e.cardPorts[p]).state = .reading) (hd : directoryValid d = true)
    (hl : e.lanesTaken = true) (hr : e.renderIdle = true) :
    e.directoryArrives g p (.directory d) = (e.holding p d).handDirectory p d := by
  have arrives : e.directoryArrives g p (.directory d) = ((e.holding p d).handDirectory p d).settleTransfer g := by
    unfold Engine.directoryArrives
    rw [hp]
    dsimp only
    rw [if_pos hd]
    rfl
  rw [arrives]
  exact (Engine.handDirectory_move d).settleTransfer hl hr

theorem directoryValid_takeCount {d : Directory} (h : directoryValid d = true) : d.takeCount = d.takes.length := by
  simp only [directoryValid, Bool.and_eq_true, decide_eq_true_eq] at h
  obtain ⟨⟨⟨⟨-, count⟩, -⟩, -⟩, -⟩ := h
  exact count

/-- The port without the directory it held, refused. -/
theorem Engine.refuseCard_holding (d : Directory) : (e.holding p d).refuseCard p =
    { e with cardPorts := e.cardPorts.set p { e.cardPorts[p] with state := .noRecord, held := some d }, noRecord := e.noRecord ++ [p] } := by
  unfold Engine.refuseCard Engine.holding
  rw [Engine.updatePort_twice]
  rfl

end

/-- Settles O46, answer by answer: the hand-over of a valid directory by the record of its identity, and the others by the port's state alone. -/
theorem directoryAnswerAttachesOrRefuses : Obligations.DirectoryAnswerAttachesOrRefuses := by
  unfold Obligations.DirectoryAnswerAttachesOrRefuses
  intro p s hs
  obtain ⟨h1, h2, hl, hr⟩ := State.calm_parts hs
  have answers : ∀ (a : DirectoryAnswer) (e : Engine), s.blocks.directoryArrives s.settings p a = e → e.removed = false →
      ∃ t, exec (.directoryAnswer p .outstanding a) s = .next t ∧ s.ranInPlace t ∧ t.engine = e := fun a _ he hm =>
    State.run_silent (f := fun g e => e.directoryArrives g p a) h1 h2 he (.inl hm)
  have timesOut : ∀ e : Engine, s.blocks.directoryTimesOut p = e → e.removed = false →
      ∃ t, exec (.directoryTimeout p) s = .next t ∧ s.ranInPlace t ∧ t.engine = e := fun _ he hm =>
    State.run_silent (f := fun _ e => e.directoryTimesOut p) h1 h2 he (.inl hm)
  refine ⟨fun a => rfl, fun hp => ⟨fun a => ?_, ?_⟩, fun hp => ?_⟩
  · exact answers a _ (Engine.directoryArrives_apart a hp) rfl
  · exact timesOut _ (Engine.directoryTimesOut_apart hp) rfl
  · refine ⟨timesOut _ (Engine.directoryTimesOut_reading hp) rfl, answers .error _ (Engine.directoryArrives_error hp) rfl,
      fun d hd => answers _ _ (Engine.directoryArrives_invalid hp hd) rfl, fun d hd => ?_⟩
    have move := Engine.handDirectory_move (e := s.blocks.holding p d) (p := p) d
    obtain ⟨t, ht, hrun, he⟩ := answers (.directory d) _ (Engine.directoryArrives_valid hp hd hl hr) move.removed
    have holds : ((s.blocks.holding p d).cardPorts[p]).held = some d := by
      unfold Engine.holding
      rw [Engine.updatePort_port, if_pos rfl]
    refine ⟨t, ht, hrun, ?_, fun card r hk hc ha => ?_, fun hk => ?_, fun card hk hf => ?_⟩
    · rw [he, Engine.handDirectory_held, holds]
    · rw [he, Engine.handDirectory_known (e := s.blocks.holding p d) hk hc ha]
      exact ⟨Engine.attachCard_port.1, Engine.attachCard_signals, Engine.attachCard_own hc⟩
    · have refused : (s.blocks.holding p d).handDirectory p d = (s.blocks.holding p d).refuseCard p := by
        obtain ⟨card, r, hk, hc, ha⟩ | ⟨hk, hf⟩ := hk
        · exact Engine.handDirectory_elsewhere hk hc ha
        · exact Engine.handDirectory_full hk hf
      rw [he, refused]
      exact Engine.refuseCard_holding d
    · rw [he, Engine.handDirectory_new (e := s.blocks.holding p d) hk hf]
      exact Engine.createCard_does d (directoryValid_takeCount hd)

end Sys2Proof.Machine
end

