-- ==== Sys2Proof/Proofs/CardsLeave.lean ====
section
/-!
THEOREM. What a card's arrival and departure at a card port do (R17, R28, R31, R32, R39, R40, R81): O45.
-/

namespace Sys2Proof.Machine

section
variable {e : Engine} {g : Settings} {p : Fin 4} {card : Fin 32} {r : CardRecord}

/-! ## The absence hold -/

/-- A card-sourced COPY of the card waits (R32). -/
def Engine.copyWaits (e : Engine) (card : Fin 32) : Bool :=
  e.queue.any (fun d => d.cardSourced && decide (d.card = card) && decide (d.state ≠ .running))

/-- The absence hold set, and the waiting descriptors after it. -/
def Engine.absenceHeld (e : Engine) (card : Fin 32) : Engine :=
  (e.updateCard card (fun r => { r with heldByAbsence := true })).recomputeHolds card

theorem Engine.holdForAbsence_waiting (hw : e.copyWaits card = true) : e.holdForAbsence card = (e.absenceHeld card).recomputeCard card :=
  if_pos hw

theorem Engine.holdForAbsence_idle (hw : e.copyWaits card = false) : e.holdForAbsence card = e :=
  if_neg (by rw [show e.queue.any _ = false from hw]; nofun)

theorem Engine.absenceHeld_card (c : Fin 32) : (e.absenceHeld card).cards[c] =
    (e.cards[c]).map (fun r => if c = card then { r with heldByAbsence := true } else r) := by
  unfold Engine.absenceHeld
  rw [Engine.recomputeHolds_cards, Engine.updateCard_card]

/-- The waiting descriptors of the card follow its flags (R81). -/
theorem Engine.recomputeHolds_queue (hr : e.cards[card] = some r) : (e.recomputeHolds card).queue =
    e.queue.map (fun d => if d.card = card ∧ d.state ≠ .running then { d with state := r.waitingState d } else d) := by
  unfold Engine.recomputeHolds
  rw [hr]

theorem Engine.absenceHeld_queue (hr : e.cards[card] = some r) : (e.absenceHeld card).queue =
    e.queue.map (fun d => if d.card = card ∧ d.state ≠ .running then
      { d with state := CardRecord.waitingState { r with heldByAbsence := true } d } else d) := by
  have held : (e.updateCard card (fun r => { r with heldByAbsence := true })).cards[card] = some { r with heldByAbsence := true } := by
    rw [Engine.updateCard_card, hr]
    simp
  unfold Engine.absenceHeld
  rw [Engine.recomputeHolds_queue held, Engine.updateCard_queue]

/-- A card with a COPY in the queue does not take OFFLOADED from it (R94). -/
theorem Engine.cardStateFromQueue_working {d : Descriptor} (hd : d ∈ e.queue) (hw : d.worksFor card = true) :
    e.cardStateFromQueue card ≠ .offloaded := by
  have some_work : (e.queue.filter (·.worksFor card)).isEmpty = false := by
    rw [List.isEmpty_eq_false_iff_exists_mem]
    exact ⟨d, List.mem_filter.mpr ⟨hd, hw⟩⟩
  unfold Engine.cardStateFromQueue
  dsimp only
  rw [some_work]
  split
  · contradiction
  · split <;> nofun

theorem Descriptor.worksFor_of_cardSourced {d : Descriptor} (hs : d.cardSourced = true) (hc : d.card = card) : d.worksFor card = true := by
  unfold Descriptor.cardSourced at hs
  simp only [Bool.and_eq_true, decide_eq_true_eq] at hs
  simp [Descriptor.worksFor, hc, hs.1]

theorem Engine.absenceHeld_working (hw : e.copyWaits card = true) (hr : e.cards[card] = some r) :
    (e.absenceHeld card).cardStateFromQueue card ≠ .offloaded := by
  unfold Engine.copyWaits at hw
  obtain ⟨d, hd, hw⟩ := List.any_eq_true.mp hw
  simp only [Bool.and_eq_true, decide_eq_true_eq] at hw
  obtain ⟨⟨source, own⟩, -⟩ := hw
  refine Engine.cardStateFromQueue_working (d := if d.card = card ∧ d.state ≠ .running then
    { d with state := CardRecord.waitingState { r with heldByAbsence := true } d } else d) ?_ ?_
  · rw [Engine.absenceHeld_queue hr]
    exact List.mem_map_of_mem hd
  · have works := Descriptor.worksFor_of_cardSourced source own
    split <;> exact works

/-- The change leaves everything but the card records, the card ports and the copy queue. -/
def Engine.holdsMove (a b : Engine) : Prop := b = { a with cards := b.cards, cardPorts := b.cardPorts, queue := b.queue }

theorem Engine.holdsMove.trans {a b c : Engine} (h : a.holdsMove b) (k : b.holdsMove c) : a.holdsMove c := by
  unfold Engine.holdsMove at *
  rw [k, h]

theorem Engine.updateCard_holdsMove (f : CardRecord → CardRecord) : e.holdsMove (e.updateCard card f) := by
  unfold Engine.updateCard
  split <;> rfl

theorem Engine.setCardState_holdsMove (x : CardState) : e.holdsMove (e.setCardState card x) := by
  have updated : e.holdsMove (e.updateCard card (fun r => { r with state := x })) := Engine.updateCard_holdsMove _
  unfold Engine.setCardState
  dsimp only
  split
  · exact updated.trans rfl
  · exact updated

theorem Engine.absenceHeld_holdsMove : e.holdsMove (e.absenceHeld card) := by
  have follows : ∀ a : Engine, a.holdsMove (a.recomputeHolds card) := fun a => by
    unfold Engine.recomputeHolds
    split <;> rfl
  exact (Engine.updateCard_holdsMove (fun r => { r with heldByAbsence := true })).trans (follows _)

/-- What the departure of a card does to its descriptors' states (R81). -/
def absenceState (r : CardRecord) (card : Fin 32) (waits : Bool) (d : Descriptor) : DescState :=
  if waits = true ∧ d.card = card ∧ d.state ≠ .running then CardRecord.waitingState { r with heldByAbsence := true } d else d.state

theorem CardRecord.waitingState_held {d : Descriptor} (hr : r.heldByAbsence = true) (hd : d.cardSourced = true) :
    r.waitingState d = .held := by
  have kind := hd
  unfold Descriptor.cardSourced at kind
  simp only [Bool.and_eq_true, decide_eq_true_eq] at kind
  simp [CardRecord.waitingState, CardRecord.covers, kind.1, hr, hd]

/-- What the absence hold of a card leaves and makes (R32, R81, R94). -/
structure AbsenceHeld (p : Fin 4) (card : Fin 32) (r : CardRecord) (a b : Engine) : Prop where
  move : a.holdsMove b
  others : ∀ c : Fin 32, c ≠ card → b.cards[c] = a.cards[c]
  own : ∃ x, b.cards[card] = some { r with heldByAbsence := r.heldByAbsence || a.copyWaits card, state := x }
  ports : ∀ q : Fin 4, q ≠ p → b.cardPorts[q] = a.cardPorts[q]
  queue : b.queue = a.queue.map (fun d => { d with state := absenceState r card (a.copyWaits card) d })

theorem AbsenceHeld.of_idle (hr : e.cards[card] = some r) (hw : e.copyWaits card = false) : AbsenceHeld p card r e e where
  move := rfl
  others _ _ := rfl
  own := ⟨r.state, by rw [hr, hw, Bool.or_false]⟩
  ports _ _ := rfl
  queue := by
    rw [hw]
    exact (List.map_id _).symm

theorem AbsenceHeld.of_waiting (hr : e.cards[card] = some r) (hp : r.attached = some p) (hw : e.copyWaits card = true) :
    AbsenceHeld p card r e (e.holdForAbsence card) := by
  have own : (e.absenceHeld card).cards[card] = some { r with heldByAbsence := true } := by
    rw [Engine.absenceHeld_card, hr]
    simp
  have cases : e.holdForAbsence card = e.absenceHeld card ∨ ∃ x, e.holdForAbsence card = (e.absenceHeld card).setCardState card x := by
    rw [Engine.holdForAbsence_waiting hw]
    obtain he | ⟨-, hq⟩ | hx := (e.absenceHeld card).recomputeCard_cases card
    · exact .inl he
    · exact absurd hq (Engine.absenceHeld_working hw hr)
    · exact .inr hx
  have ports := Engine.changeHolds_ports (e := e) (card := card) (f := fun r => { r with heldByAbsence := true }) (fun _ => rfl)
  refine ⟨?_, fun c hc => ?_, ?_, fun q hq => ?_, ?_⟩
  · obtain he | ⟨x, he⟩ := cases <;> rw [he]
    · exact Engine.absenceHeld_holdsMove
    · exact Engine.absenceHeld_holdsMove.trans (Engine.setCardState_holdsMove x)
  · rw [Engine.holdForAbsence_waiting hw, Engine.recomputeCard_other hc, Engine.absenceHeld_card]
    simp [hc]
  · rw [hw, Bool.or_true]
    obtain he | ⟨x, he⟩ := cases <;> rw [he]
    · exact ⟨r.state, own⟩
    · refine ⟨x, ?_⟩
      rw [Engine.setCardState_card, own]
      simp
  · rw [show e.holdForAbsence card = e.changeHolds card _ from if_pos hw]
    refine (ports q).2 ?_
    rw [hr, Option.bind_some, hp]
    exact fun k => hq (Option.some.inj k).symm
  · have states : (e.holdForAbsence card).queue = (e.absenceHeld card).queue := by
      obtain he | ⟨x, he⟩ := cases <;> rw [he]
      exact Engine.setCardState_queue _ _ _
    rw [states, Engine.absenceHeld_queue hr, hw]
    refine List.map_congr_left fun d _ => ?_
    unfold absenceState
    by_cases k : d.card = card ∧ d.state ≠ .running
    · rw [if_pos k, if_pos ⟨rfl, k⟩]
    · rw [if_neg k, if_neg (fun h => k h.2)]

theorem AbsenceHeld.holdForAbsence (hr : e.cards[card] = some r) (hp : r.attached = some p) :
    AbsenceHeld p card r e (e.holdForAbsence card) := by
  cases hw : e.copyWaits card with
  | false => rw [Engine.holdForAbsence_idle hw]; exact .of_idle hr hw
  | true => exact .of_waiting hr hp hw

/-! ## An attached card leaves -/

/-- Two DRAINING lanes carry nothing that a departure stops (R89). -/
theorem Engine.detachLanes_draining (hl : ∀ l : Fin 2, e.lanes[l] = .draining) : e.detachLanes g card = e := by
  have none_works : ∀ l : Fin 2, e.laneWork l = none := fun l => by simp [Engine.laneWork, Engine.laneRun, hl l]
  unfold Engine.detachLanes
  rw [show List.finRange 2 = [0, 1] from rfl]
  simp only [List.foldl_cons, List.foldl_nil, none_works]

theorem Engine.cardAt_vacant (h : e.vacant p) : e.cardAt p = none := by
  unfold Engine.cardAt
  rw [List.find?_eq_none]
  intro c _
  rw [decide_eq_true_eq]
  intro k
  obtain ⟨r, hr, hp⟩ := Option.bind_eq_some_iff.mp k
  exact h c r hr hp

/-- With no card at the port, its outputs are off (R39, R40). -/
theorem Engine.drivePort_vacant (h : e.vacant p) : e.drivePort p = e.updatePort p (fun x => { x with lock := false, lit := false }) := by
  unfold Engine.drivePort Engine.lockWanted Engine.litWanted
  rw [Engine.cardAt_vacant h]
  rfl

/-- The port of a card that has gone. -/
def CardPort.cleared : CardPort := ⟨.empty, none, none, false, false⟩

theorem Engine.emptyPort_vacant (h : e.vacant p) : (e.drivePort p).emptyPort p = { e with cardPorts := e.cardPorts.set p .cleared } := by
  rw [Engine.drivePort_vacant h]
  unfold Engine.emptyPort
  rw [Engine.updatePort_twice]
  rfl

theorem Engine.reevaluateNoRecord_nil (h : e.noRecord = []) : e.reevaluateNoRecord = e := by
  unfold Engine.reevaluateNoRecord
  rw [h]
  rfl

/-- Two sets of ports that differ at one, set there alike. -/
theorem Vector.set_eq_of_others {α : Type} {u v : Vector α 4} (h : ∀ q : Fin 4, q ≠ p → u[q] = v[q]) (x : α) : u.set p x = v.set p x := by
  refine Vector.ext fun i hi => ?_
  by_cases k : p.val = i
  · subst k
    simp
  · have := h ⟨i, hi⟩ (fun hp => k (congrArg Fin.val hp).symm)
    rw [Vector.getElem_set_ne _ _ k, Vector.getElem_set_ne _ _ k]
    exact this

/-- The blocks before the absence hold of a departure: the port's read is abandoned (R32). -/
def Engine.readAbandoned (e : Engine) (p : Fin 4) : Engine := e.updatePort p (fun x => { x with read := none })

/-- The record that has lost its port, and the states of its descriptors. -/
def Engine.departed (e : Engine) (p : Fin 4) (card : Fin 32) : Engine :=
  ((e.readAbandoned p).holdForAbsence card).updateCard card (fun r => { r with attached := none })

theorem Engine.departed_vacant (hr : e.cards[card] = some r) (hp : r.attached = some p)
    (ho : ∀ (c : Fin 32) x, e.cards[c] = some x → x.attached = some p → c = card) : (e.departed p card).vacant p := by
  have held : AbsenceHeld p card r (e.readAbandoned p) _ := .holdForAbsence hr hp
  intro c x hx hxp
  unfold Engine.departed at hx
  rw [Engine.updateCard_card] at hx
  obtain ⟨y, hy, rfl⟩ := Option.map_eq_some_iff.mp hx
  split at hxp
  · cases hxp
  · next k =>
    rw [held.others c k] at hy
    exact k (ho c y hy hxp)

theorem Engine.removeAttached_draining (hl : ∀ l : Fin 2, e.lanes[l] = .draining) (hn : e.noRecord = []) (hr : e.cards[card] = some r)
    (hp : r.attached = some p) (ho : ∀ (c : Fin 32) x, e.cards[c] = some x → x.attached = some p → c = card) :
    e.removeAttached g p card = { e.departed p card with
      cardPorts := e.cardPorts.set p .cleared, events := e.events ++ [Event.ofCard .cardRemoved card] } := by
  have held : AbsenceHeld p card r (e.readAbandoned p) _ := .holdForAbsence hr hp
  have gone : (e.departed p card).cardPorts.set p .cleared = e.cardPorts.set p .cleared := by
    refine Vector.set_eq_of_others (fun q hq => ?_) _
    unfold Engine.departed
    rw [Engine.updateCard_cardPorts, held.ports q hq]
    unfold Engine.readAbandoned
    rw [Engine.updatePort_port, if_neg hq]
  have events : (e.departed p card).events = e.events := by
    unfold Engine.departed
    rw [Engine.updateCard_events, held.move]
    rfl
  have list : (e.departed p card).noRecord = [] := by
    unfold Engine.departed
    rw [Engine.updateCard_noRecord, held.move]
    exact hn
  have removed : e.removeAttached g p card =
      ((((e.departed p card).drivePort p).emptyPort p).signal (Event.ofCard .cardRemoved card)).reevaluateNoRecord := by
    unfold Engine.removeAttached Engine.departed Engine.detachCard
    dsimp only
    rw [Engine.detachLanes_draining (e := e.updatePort p (fun x => { x with read := none })) hl]
    rfl
  rw [removed, Engine.emptyPort_vacant (Engine.departed_vacant hr hp ho), gone, ← events]
  exact Engine.reevaluateNoRecord_nil list

/-- The departure of a card that two DRAINING lanes do not carry, with no port waiting for a record (R17, R32). -/
theorem Engine.removeAttached_does (hl : ∀ l : Fin 2, e.lanes[l] = .draining) (hn : e.noRecord = []) (hr : e.cards[card] = some r)
    (hp : r.attached = some p) (ho : ∀ (c : Fin 32) x, e.cards[c] = some x → x.attached = some p → c = card) :
    e.removeAttached g p card = { e with
      cards := (e.departed p card).cards, cardPorts := e.cardPorts.set p .cleared, queue := (e.departed p card).queue,
      events := e.events ++ [Event.ofCard .cardRemoved card] } ∧
    (∀ c : Fin 32, c ≠ card → (e.departed p card).cards[c] = e.cards[c]) ∧
    (∃ x, (e.departed p card).cards[card] =
      some { r with attached := none, heldByAbsence := r.heldByAbsence || e.copyWaits card, state := x }) ∧
    (e.departed p card).queue = e.queue.map (fun d => { d with state := absenceState r card (e.copyWaits card) d }) := by
  have held : AbsenceHeld p card r (e.readAbandoned p) _ := .holdForAbsence hr hp
  have move : (e.readAbandoned p).holdsMove (e.departed p card) := held.move.trans (Engine.updateCard_holdsMove _)
  refine ⟨?_, fun c hc => ?_, ?_, ?_⟩
  · rw [Engine.removeAttached_draining hl hn hr hp ho, move]
    rfl
  · unfold Engine.departed
    rw [Engine.updateCard_card, held.others c hc]
    simp only [hc, if_false]
    exact Option.map_id'
  · obtain ⟨x, hx⟩ := held.own
    refine ⟨x, ?_⟩
    unfold Engine.departed
    rw [Engine.updateCard_card, hx]
    simp only [Option.map_some, if_true]
    rfl
  · unfold Engine.departed
    rw [Engine.updateCard_queue, held.queue]
    rfl

theorem absenceState_keeps {waits : Bool} {d : Descriptor} (h : d.card ≠ card ∨ d.state = .running ∨ waits = false) :
    absenceState r card waits d = d.state := by
  unfold absenceState
  refine if_neg ?_
  rintro ⟨hw, hc, hs⟩
  obtain h | h | h := h
  · exact h hc
  · exact hs h
  · rw [hw] at h
    cases h

theorem absenceState_holds {waits : Bool} {d : Descriptor} (hc : d.card = card) (hs : d.state ≠ .running) (hw : waits = true)
    (hd : d.cardSourced = true) : absenceState r card waits d = .held := by
  unfold absenceState
  rw [if_pos ⟨hw, hc, hs⟩]
  exact CardRecord.waitingState_held rfl hd

/-! ## A port without an attached card -/

/-- The no-record list without a port that leaves it. -/
def Engine.listWithout (e : Engine) (p : Fin 4) : List (Fin 4) :=
  if (e.cardPorts[p]).state = .noRecord then e.noRecord.erase p else e.noRecord

theorem Engine.cardLeaves_empty (hp : (e.cardPorts[p]).state = .empty) : e.cardLeaves g p = e := by
  unfold Engine.cardLeaves
  rw [hp]

theorem Engine.cardLeaves_unattached
    (hp : (e.cardPorts[p]).state = .reading ∨ (e.cardPorts[p]).state = .unreadable ∨ (e.cardPorts[p]).state = .noRecord) :
    e.cardLeaves g p = { e with noRecord := e.listWithout p }.emptyPort p := by
  unfold Engine.cardLeaves Engine.listWithout
  obtain hp | hp | hp := hp <;> rw [hp] <;> rfl

theorem Engine.cardAt_only (hr : e.cards[card] = some r) (hp : r.attached = some p)
    (ho : ∀ (c : Fin 32) x, e.cards[c] = some x → x.attached = some p → c = card) : e.cardAt p = some card := by
  unfold Engine.cardAt
  cases h : (List.finRange 32).find? (fun c => decide ((e.cards[c]).bind (·.attached) = some p)) with
  | none =>
    have := List.find?_eq_none.mp h card (List.mem_finRange card)
    rw [hr] at this
    exact absurd (by simpa using hp) this
  | some c =>
    have := List.find?_some h
    rw [decide_eq_true_eq] at this
    obtain ⟨x, hx, hxp⟩ := Option.bind_eq_some_iff.mp this
    rw [ho c x hx hxp]

theorem Engine.cardLeaves_attached (hp : (e.cardPorts[p]).state = .attached ∨ (e.cardPorts[p]).state = .stalled)
    (hc : e.cardAt p = some card) : e.cardLeaves g p = e.removeAttached g p card := by
  unfold Engine.cardLeaves
  obtain hp | hp := hp <;> rw [hp] <;> dsimp only <;> rw [hc]

/-- A step of the blocks at a seated or an emptied port, under a silent matrix. -/
theorem State.run_seated {s : State} (hs : s.calm = true) (b : Bool) {f : Settings → Engine → Engine} {e : Engine}
    (hf : f s.settings s.blocks = e) (hm : e.removed = false) :
    ∃ t, Host.Outcome.next (φ := Fault) (ρ := Refusal) (State.run { s with seated := s.seated.set p b } f) = .next t ∧ s.ranBlocks t ∧
      t.now = s.now ∧ t.seated = s.seated.set p b ∧ t.mounted = s.mounted ∧ t.engine = e := by
  obtain ⟨h1, h2, -, -⟩ := State.calm_parts hs
  obtain ⟨t, ht, ⟨ran, now, seated, mounted⟩, he⟩ :=
    State.run_silent (s := { s with seated := s.seated.set p b }) h1 h2 hf (.inl hm)
  exact ⟨t, ht, ran, now, seated, mounted, he⟩

end

/-- Settles O45: each arrival and departure by the port's state; an attached card's by the absence hold, the detachment and the empty port. -/
theorem cardsArriveAndLeave : Obligations.CardsArriveAndLeave := by
  unfold Obligations.CardsArriveAndLeave
  refine ⟨fun p s hs => ?_, fun p card r s hs hl hn hr hp ho hq => ?_⟩
  · obtain ⟨-, -, hl, hr⟩ := State.calm_parts hs
    have arrives : ∀ e : Engine, (s.blocks.cardLeaves s.settings p).seat p = e → e.removed = false → s.blocks.cardsMove e →
        ∃ t, exec (.present p) s = .next t ∧ s.ranBlocks t ∧ t.now = s.now ∧ t.seated = s.seated.set p true ∧ t.mounted = s.mounted ∧
          t.engine = e := fun e he hm hv =>
      State.run_seated (f := fun g e => e.cardArrives g p) hs true
        (by unfold Engine.cardArrives; rw [he]; exact hv.settleTransfer hl hr) hm
    have leaves : ∀ e : Engine, s.blocks.cardLeaves s.settings p = e → e.removed = false → s.blocks.cardsMove e →
        ∃ t, exec (.absent p) s = .next t ∧ s.ranBlocks t ∧ t.now = s.now ∧ t.seated = s.seated.set p false ∧ t.mounted = s.mounted ∧
          t.engine = e := fun e he hm hv =>
      State.run_seated (f := fun g e => (e.cardLeaves g p).settleTransfer g) hs false
        (by rw [he]; exact hv.settleTransfer hl hr) hm
    refine ⟨fun hp => ⟨?_, ?_⟩, fun hp => ⟨?_, ?_⟩⟩
    · exact arrives _ (by rw [Engine.cardLeaves_empty (e := s.blocks) hp]; rfl) rfl rfl
    · exact leaves _ (Engine.cardLeaves_empty hp) rfl rfl
    · refine arrives _ ?_ rfl rfl
      rw [Engine.cardLeaves_unattached (e := s.blocks) hp]
      exact Engine.updatePort_twice _ _
    · exact leaves _ (Engine.cardLeaves_unattached hp) rfl rfl
  · obtain ⟨-, -, hlt, hri⟩ := State.calm_parts hs
    obtain ⟨he, others, own, queue⟩ := Engine.removeAttached_does (e := s.blocks) (g := s.settings) hl hn hr hp ho
    have left : s.blocks.cardLeaves s.settings p = s.blocks.removeAttached s.settings p card :=
      Engine.cardLeaves_attached hq (Engine.cardAt_only hr hp ho)
    have settles : (s.blocks.cardLeaves s.settings p).settleTransfer s.settings = _ :=
      (congrArg (Engine.settleTransfer s.settings) (left.trans he)).trans (Engine.cardsMove.settleTransfer (a := s.blocks) rfl hlt hri)
    obtain ⟨t, ht, ran, now, seated, mounted, hte⟩ :=
      State.run_seated (p := p) (f := fun g e => (e.cardLeaves g p).settleTransfer g) hs false settles rfl
    refine ⟨t, ht, ran, now, seated, mounted, ?_, ?_, ?_, absenceState r card (s.engine.copyWaits card), ?_, fun d _ => ⟨?_, ?_⟩⟩
    · rw [hte]
      rfl
    · rw [hte]
      exact others
    · rw [hte]
      exact own
    · rw [hte]
      exact queue
    · exact absenceState_keeps
    · exact absenceState_holds

end Sys2Proof.Machine
end

