-- ==== Sys2Proof/Proofs/Releases.lean ====
section
/-!
SUPPORT. Descriptors that join the copy queue (R79, R80), and RELEASE_CARD (R102, R104, R176), the first part of O40.
-/

namespace Sys2Proof.Machine

section
variable {e : Engine} {g : Settings} {card : Fin 32} {r : CardRecord}

/-! ## A descriptor joins the queue -/

/-- A slot without a descriptor is in no descriptor of the queue. -/
theorem Engine.descriptor_isNone {slot : Fin 64} : (e.descriptor slot).isNone = true ↔ slot ∉ e.queue.map (·.slot) := by
  unfold Engine.descriptor
  rw [Option.isNone_iff_eq_none, List.find?_eq_none]
  simp

/-- A queue that is not full leaves a descriptor slot free (R80). -/
theorem Engine.freeDescriptor_some (h : e.queue.length < 64) : ∃ slot, e.freeDescriptor = some slot := by
  refine Option.ne_none_iff_exists'.mp fun none => ?_
  have taken : List.finRange 64 ⊆ e.queue.map (·.slot) := fun slot _ => by
    have := List.find?_eq_none.mp none slot (List.mem_finRange slot)
    rwa [Engine.descriptor_isNone, not_not] at this
  have := ((List.nodup_finRange 64).subperm taken).length_le
  rw [List.length_finRange, List.length_map] at this
  exact absurd h (Nat.not_lt.mpr this)

/-- The descriptor that a queueing makes in a slot (R79). -/
def NewDescriptor.inSlot (n : NewDescriptor) (slot : Fin 64) (x : DescState) : Descriptor :=
  { slot := slot, kind := n.kind, clip := n.clip, card := n.card, source := n.source, targets := n.targets, serial := n.serial,
    generation := n.generation, progress := 0, state := x }

/-- The state of a descriptor as it joins (R81). -/
def Engine.joiningState (e : Engine) (n : NewDescriptor) (slot : Fin 64) : DescState :=
  match e.cards[n.card] with
  | some r => r.waitingState (n.inSlot slot .queued)
  | none => .queued

/-- A descriptor joins the tail of a queue that is not full. -/
theorem Engine.addDescriptor_room (n : NewDescriptor) (h : e.queue.length < 64) :
    ∃ slot, e.addDescriptor n = { e with queue := e.queue ++ [n.inSlot slot (e.joiningState n slot)] } := by
  obtain ⟨slot, hs⟩ := Engine.freeDescriptor_some h
  refine ⟨slot, ?_⟩
  unfold Engine.addDescriptor
  rw [hs]
  rfl

theorem CardRecord.waitingState_ne_running (d : Descriptor) : r.waitingState d ≠ .running := by
  unfold CardRecord.waitingState
  split <;> nofun

theorem Engine.joiningState_ne_running (n : NewDescriptor) (slot : Fin 64) : e.joiningState n slot ≠ .running := by
  unfold Engine.joiningState
  split
  · exact CardRecord.waitingState_ne_running _
  · nofun

/-- No hold covers a MANIFEST (R81). -/
theorem Engine.joiningState_manifest {n : NewDescriptor} (hn : n.kind = .manifest) (slot : Fin 64) : e.joiningState n slot = .queued := by
  unfold Engine.joiningState
  split
  · unfold CardRecord.waitingState CardRecord.covers NewDescriptor.inSlot
    rw [hn]
    rfl
  · rfl

/-! ## The manifests of a release -/

/-- A MANIFEST of a card for a volume, as it joins the queue (R79, R102). -/
def Descriptor.manifestFor (d : Descriptor) (card : Fin 32) : Prop :=
  d.kind = .manifest ∧ d.clip = none ∧ d.card = card ∧ d.source = none ∧ d.state = .queued

/-- The MANIFEST of a card that a release queues for a volume (R79, R102). -/
def Engine.manifestOf (e : Engine) (card : Fin 32) (v : Fin 16) : NewDescriptor where
  kind := .manifest
  clip := none
  card := card
  source := none
  targets := [v]
  serial := some (e.serialOf v)
  generation := 0

/-- The manifests of a release join the queue, one for each volume, and nothing else changes. -/
theorem Engine.queueManifests (volumes : List (Fin 16)) (h : e.queue.length + volumes.length ≤ 64) :
    ∃ ds, volumes.foldl (Engine.queueManifest card) e = { e with queue := e.queue ++ ds } ∧
      ds.map (·.targets) = volumes.map (fun v => [v]) ∧ ∀ d ∈ ds, d.manifestFor card := by
  induction volumes generalizing e with
  | nil => exact ⟨[], by simp, rfl, nofun⟩
  | cons v vs ih =>
    rw [List.length_cons] at h
    obtain ⟨slot, first⟩ := e.addDescriptor_room (e.manifestOf card v) (by omega)
    have first : Engine.queueManifest card e v = _ := first
    obtain ⟨ds, rest, targets, made⟩ := ih (e := Engine.queueManifest card e v) (by
      rw [first]
      simp only [List.length_append, List.length_singleton]
      omega)
    have joins : ((e.manifestOf card v).inSlot slot (e.joiningState (e.manifestOf card v) slot)).manifestFor card :=
      ⟨rfl, rfl, rfl, rfl, Engine.joiningState_manifest rfl slot⟩
    refine ⟨_ :: ds, ?_, ?_, List.forall_mem_cons.mpr ⟨joins, made⟩⟩
    · rw [List.foldl_cons, rest, first]
      simp only [List.append_assoc, List.singleton_append]
    · rw [List.map_cons, List.map_cons, targets]
      rfl

/-! ## The release -/

/-- A card as its release is granted, before its manifests: RELEASING, with its BLOCK fault records lowered (R102, R176). -/
def Engine.releasing (e : Engine) (card : Fin 32) : Engine := (e.setCardState card .releasing).lowerFaults card

/-- The fault records after those of the card in BLOCK have become WARN (R176). -/
def loweredFaults (card : Fin 32) (fs : List FaultRecord) : List FaultRecord :=
  fs.map (fun x => if x.card = card ∧ x.severity = .block then { x with severity := .warn } else x)

theorem Engine.releasing_card (hr : e.cards[card] = some r) : (e.releasing card).cards[card] = some { r with state := .releasing } := by
  refine (Engine.setCardState_card .releasing card).trans ?_
  rw [hr]
  simp

theorem Engine.releasing_faults : (e.releasing card).faults = loweredFaults card e.faults :=
  congrArg (loweredFaults card) (Engine.setCardState_faults e card .releasing)

/-- What a release leaves: the blocks that the lanes and renders go by, and the clips. -/
theorem Engine.releasing_frame : (e.releasing card).queue = e.queue ∧ (e.releasing card).clips = e.clips ∧
    (e.releasing card).events = e.events ∧ (e.releasing card).removed = e.removed :=
  ⟨Engine.setCardState_queue e card _, Engine.setCardState_clips e card _, Engine.setCardState_events e card _,
    Engine.setCardState_removed e card _⟩

theorem Engine.releasing_settled (hl : e.lanesTaken = true) (hi : e.renderIdle = true) :
    (e.releasing card).lanesTaken = true ∧ (e.releasing card).renderIdle = true := by
  refine ⟨(Engine.lanesTaken_congr ?_).trans hl, (Engine.renderIdle_congr ?_ ?_).trans hi⟩
  · exact Engine.setCardState_lanes e card _
  · exact Engine.setCardState_jobs e card _
  · exact Engine.setCardState_contexts e card _

/-- A RELEASING card with a manifest stays so (R104). -/
theorem Engine.settleRelease_waiting (hr : e.cards[card] = some r) {d : Descriptor} (hd : d ∈ e.queue) (hm : d.manifestFor card) :
    e.settleRelease card = e := by
  obtain ⟨kind, -, own, -⟩ := hm
  unfold Engine.settleRelease
  rw [hr]
  refine if_neg fun ⟨_, gone⟩ => ?_
  rw [List.any_eq_false] at gone
  exact gone d hd (by simp [kind, own])

/-- A RELEASING card without a descriptor becomes RELEASED (R104). -/
theorem Engine.settleRelease_done (hr : e.cards[card] = some r) (hs : r.state = .releasing) (hq : ∀ d ∈ e.queue, d.card ≠ card) :
    e.settleRelease card = e.becomeReleased card := by
  unfold Engine.settleRelease
  rw [hr]
  refine if_pos ⟨hs, ?_⟩
  rw [List.any_eq_false]
  intro d hd
  simp [hq d hd]

/-- What a release that is granted does, in a part with nothing else to start (R102, R104, R176). -/
theorem Engine.release_does {volumes : List (Fin 16)} (hl : e.lanesTaken = true) (hi : e.renderIdle = true) (hr : e.cards[card] = some r)
    (hq : ∀ d ∈ e.queue, d.card ≠ card) (hn : e.queue.length + volumes.length ≤ 64) :
    (e.release g card volumes).removed = e.removed ∧
      (e.release g card volumes).faults = loweredFaults card e.faults ∧
      (e.release g card volumes).cards[card] = some { r with state := if volumes = [] then .released else .releasing } ∧
      (volumes = [] → (e.release g card volumes).events = e.events ++ [Event.ofCard .cardReleased card]) ∧
      (e.release g card volumes).clips = e.clips ∧
      ∃ ds, (e.release g card volumes).queue = e.queue ++ ds ∧ ds.map (·.targets) = volumes.map (fun v => [v]) ∧
        ∀ d ∈ ds, d.manifestFor card := by
  obtain ⟨queue, clips, events, removed⟩ := Engine.releasing_frame (e := e) (card := card)
  have own := Engine.releasing_card hr
  have faults := Engine.releasing_faults (e := e) (card := card)
  obtain ⟨lanes, idle⟩ := Engine.releasing_settled (card := card) hl hi
  have granted : e.release g card volumes =
      ((volumes.foldl (Engine.queueManifest card) (e.releasing card)).settleRelease card).settleTransfer g := rfl
  obtain ⟨ds, joined, targets, made⟩ := Engine.queueManifests (e := e.releasing card) (card := card) volumes (by rwa [queue])
  rw [queue] at joined
  generalize e.releasing card = a at *
  rw [joined] at granted
  cases volumes with
  | nil =>
    obtain rfl : ds = [] := List.map_eq_nil_iff.mp targets
    have settles : ({ a with queue := e.queue ++ [] } : Engine).settleRelease card = { a with queue := e.queue ++ [] }.becomeReleased card :=
      Engine.settleRelease_done own rfl (by simpa using hq)
    have still : (({ a with queue := e.queue ++ [] } : Engine).becomeReleased card).settleTransfer g =
        { a with queue := e.queue ++ [] }.becomeReleased card := by
      refine Engine.settleTransfer_like lanes idle ?_ ?_ ?_ <;> simp [Engine.becomeReleased, Engine.signal]
    rw [granted, settles, still]
    unfold Engine.becomeReleased
    refine ⟨?_, ?_, ?_, fun _ => ?_, ?_, [], ?_, rfl, nofun⟩
    · simpa [Engine.signal] using removed
    · simpa [Engine.signal] using faults
    · refine (Engine.setCardState_card .released card).trans ?_
      rw [own]
      simp
    · simpa [Engine.signal] using events
    · simpa using clips
    · simp [Engine.signal]
  | cons v vs =>
    obtain ⟨d, ds', rfl⟩ := List.exists_cons_of_length_eq_add_one (l := ds) (n := vs.length) (by
      simpa using congrArg List.length targets)
    have waits : ({ a with queue := e.queue ++ d :: ds' } : Engine).settleRelease card = { a with queue := e.queue ++ d :: ds' } :=
      Engine.settleRelease_waiting own (List.mem_append_right _ List.mem_cons_self) (made d List.mem_cons_self)
    have still : ({ a with queue := e.queue ++ d :: ds' } : Engine).settleTransfer g = { a with queue := e.queue ++ d :: ds' } :=
      Engine.settleTransfer_like lanes idle rfl rfl rfl
    rw [granted, waits, still]
    refine ⟨removed, faults, ?_, nofun, clips, _, rfl, targets, made⟩
    rw [if_neg (by simp)]
    exact own

/-! ## The checks of RELEASE_CARD -/

/-- With a short or a blocked clip the release is refused, with both counts (R102). -/
theorem Engine.releaseCard_notSecured {sn : SetFields} (hr : e.cards[card] = some r) (hs : r.state = .offloaded) (hn : r.snapshot = some sn)
    (hb : 0 < e.shortClips card sn.copies ∨ 0 < e.blockedClips card) :
    e.releaseCard g card = .error (.notSecured, some (e.shortClips card sn.copies, e.blockedClips card)) := by
  unfold Engine.releaseCard
  rw [Engine.checkCard_val hr]
  dsimp only
  rw [hs, hn]
  exact if_pos hb

/-- With neither, and a descriptor slot for each volume in place, it is granted (R102). -/
theorem Engine.releaseCard_granted {sn : SetFields} (hr : e.cards[card] = some r) (hs : r.state = .offloaded) (hn : r.snapshot = some sn)
    (hb : ¬ (0 < e.shortClips card sn.copies ∨ 0 < e.blockedClips card)) (hq : e.queue.length + (e.volumesAt sn.mask).length ≤ 64) :
    e.releaseCard g card = .ok ((e.volumesAt sn.mask).length, e.release g card (e.volumesAt sn.mask)) := by
  have room : ¬ e.freeDescriptors < (e.volumesAt sn.mask).length := by
    unfold Engine.freeDescriptors Config.maxDescriptors
    omega
  unfold Engine.releaseCard
  rw [Engine.checkCard_val hr]
  dsimp only
  rw [hs, hn]
  dsimp only
  rw [if_neg hb, if_neg room]

end

/-- RELEASE_CARD of an OFFLOADED card (R102, R104, R176), as O40 states it. -/
theorem releaseCard_answers {o : Origin} {c : Fin 32} {r : CardRecord} {sn : SetFields} {s : State} (ha : s.accepts o = true)
    (ho : o.port = .A) (hr : s.engine.cards[c] = some r) (hs : r.state = .offloaded) (hn : r.snapshot = some sn) :
    ((0 < s.engine.shortClips c sn.copies ∨ 0 < s.engine.blockedClips c) →
      ∃ t, exec (.releaseCard o c) s = .next t ∧
        s.onlyAnswered t o 17 (.notSecured, w16 (s.engine.shortClips c sn.copies) ++ w16 (s.engine.blockedClips c)) ∧
        t.settings = s.settings ∧ t.engine = s.blocks) ∧
    (s.engine.shortClips c sn.copies = 0 → s.engine.blockedClips c = 0 →
      s.engine.queue.length + (s.engine.volumesAt sn.mask).length ≤ 64 →
      ∃ t, exec (.releaseCard o c) s = .next t ∧
        s.answeredWith t o 17 (.done, [BitVec.ofNat 8 (s.engine.volumesAt sn.mask).length]) ∧
        t.engine = (s.blocks.release s.settings c (s.engine.volumesAt sn.mask)).endStep s.settings) := by
  have permits : permitted o.port 17 = true := by rw [ho]; rfl
  refine ⟨fun hb => ?_, fun h0 h1 hq => ?_⟩
  · refine State.take_keep ha read8 c permits fun ss => ?_
    unfold releaseCardRule
    rw [Engine.releaseCard_notSecured (e := s.blocks) hr hs hn hb]
    rfl
  · refine State.take_answered ha read8 c permits fun ss => ?_
    unfold releaseCardRule
    rw [Engine.releaseCard_granted (e := s.blocks) hr hs hn (not_or.mpr ⟨Nat.not_lt.mpr (Nat.le_of_eq h0), Nat.not_lt.mpr (Nat.le_of_eq h1)⟩) hq]
    rfl

end Sys2Proof.Machine
end

