-- ==== Sys2Proof/Proofs/Retires.lean ====
section
/-!
THEOREM. RETIRE_CLIP and RETIRE_CARD (R4, R18 to R21, R187) and, with RELEASE_CARD, O40.
-/

namespace Sys2Proof.Machine

section
variable {e : Engine} {p : Fin 4} {card : Fin 32} {r : CardRecord}

/-! ## What follows a retire -/

/-- The change leaves everything but the catalogue's parts, and each clip slot at its generation. -/
structure Refills (a b : Engine) : Prop where
  move : a.cardsMove b
  gens : ∀ i : Fin 512, b.handleOf i = a.handleOf i

theorem Refills.of_clips {a b : Engine} (h : a.cardsMove b) (hc : b.clips = a.clips) : Refills a b :=
  ⟨h, fun i => by unfold Engine.handleOf; rw [hc]⟩

theorem Refills.refl (a : Engine) : Refills a a := ⟨rfl, fun _ => rfl⟩

theorem Refills.trans {a b c : Engine} (h : Refills a b) (k : Refills b c) : Refills a c :=
  ⟨h.move.trans k.move, fun i => (k.gens i).trans (h.gens i)⟩

theorem Refills.faults {a b : Engine} (h : Refills a b) : b.faults = a.faults := by rw [h.move]

theorem Refills.gen {a b : Engine} (h : Refills a b) (i : Fin 512) : (b.clips[i]).gen = (a.clips[i]).gen := congrArg Handle.gen (h.gens i)

theorem Refills.foldl {α : Type} {f : Engine → α → Engine} (hf : ∀ (e : Engine) (x : α), Refills e (f e x)) (xs : List α) (e : Engine) :
    Refills e (xs.foldl f e) := by
  induction xs generalizing e with
  | nil => exact .refl e
  | cons x xs ih => exact (hf e x).trans (ih _)

theorem Refills.registerTakes (takes : List Take) : Refills e (e.registerTakes card takes) :=
  .foldl (fun _ x => ⟨Engine.registerTake_move x, Engine.registerTake_handleOf x⟩) _ e

theorem Refills.admitted : Refills e (e.admitted card) := by
  have ready : ∀ a : Engine, a.cardsMove { a.setCardState card .ready with waitList := e.waitList.erase card } :=
    fun a => (Engine.setCardState_move _).trans rfl
  exact .of_clips ((Engine.updateCard_move _).trans (ready _)) (by simp [Engine.admitted])

/-- Each registration that completes is of a card that has its takes to register (R15). -/
theorem Engine.completeRegistrations_succ (n : Nat) (e : Engine) : Engine.completeRegistrations (n + 1) e = e ∨
    ∃ other takes, (e.cards[other]).bind (·.pendingDir) = some takes ∧
      Engine.completeRegistrations (n + 1) e = Engine.completeRegistrations n ((e.registerTakes other takes).admitted other) := by
  rw [Engine.completeRegistrations]
  split
  · next other _ _ =>
    split
    · next takes hp =>
      split
      · exact .inr ⟨other, takes, hp, by rw [Engine.completeRegistration_eq]⟩
      · exact .inl rfl
    · exact .inl rfl
  · exact .inl rfl

theorem Refills.completeRegistrations (n : Nat) (e : Engine) : Refills e (Engine.completeRegistrations n e) := by
  induction n generalizing e with
  | zero => exact .refl e
  | succ n ih =>
    obtain he | ⟨other, takes, -, he⟩ := e.completeRegistrations_succ n <;> rw [he]
    · exact .refl e
    · exact ((Refills.registerTakes _).trans .admitted).trans (ih _)

theorem Refills.attachCard : Refills e (e.attachCard p card) := .of_clips Engine.attachCard_move Engine.attachCard_clips

theorem Refills.handDirectory (d : Directory) : Refills e (e.handDirectory p d) := by
  unfold Engine.handDirectory
  split
  · split
    · exact .attachCard
    · exact .of_clips rfl rfl
  · split
    · next card _ =>
      have placed : ∀ r wait, Refills e (e.withCard card r wait) := fun r wait => .of_clips rfl rfl
      obtain he | he := Engine.createCard_cases (e := e) (p := p) (card := card) d <;> rw [he]
      · exact ((placed _ _).trans (.registerTakes _)).trans .attachCard
      · exact (placed _ _).trans .attachCard
    · exact .of_clips rfl rfl

theorem Refills.reevaluateNoRecord : Refills e e.reevaluateNoRecord := by
  refine .foldl (fun a q => ?_) _ e
  have taken : Refills a { a with noRecord := a.noRecord.erase q } := .of_clips rfl rfl
  unfold Engine.reexaminePort
  dsimp only
  split
  · exact taken.trans (.handDirectory _)
  · exact taken

theorem Refills.freeCardRecord (r : CardRecord) : Refills e (e.freeCardRecord card r) := by
  unfold Engine.freeCardRecord
  dsimp only
  split <;> exact .of_clips rfl rfl

theorem Refills.handOver : Refills e (e.handOver p) := by
  have idle : Refills e (e.updatePort p (fun x => { x with read := none })) := .of_clips rfl rfl
  unfold Engine.handOver
  split
  · exact idle.trans (.handDirectory _)
  · exact .refl e

theorem Refills.afterRetire : Refills e (e.afterRetire card) := by
  unfold Engine.afterRetire
  split
  · next r _ =>
    split
    · have rest : Refills e (e.freeCardRecord card r).clipsFreed.reevaluateNoRecord :=
        ((Refills.freeCardRecord r).trans (.completeRegistrations _ _)).trans .reevaluateNoRecord
      dsimp only
      split
      · exact rest.trans .handOver
      · exact rest
    · exact .completeRegistrations _ e
  · exact .refl e

/-! ## The card's record after a retire -/

/-- A card that has nothing to register is left as it is by the registrations that complete (R15). -/
theorem Engine.completeRegistrations_card (n : Nat) (h : (e.cards[card]).bind (·.pendingDir) = none) :
    (Engine.completeRegistrations n e).cards[card] = e.cards[card] := by
  induction n generalizing e with
  | zero => rfl
  | succ n ih =>
    obtain he | ⟨other, takes, hp, he⟩ := e.completeRegistrations_succ n <;> rw [he]
    have apart : card ≠ other := fun k => by rw [k, hp] at h; cases h
    have kept : ((e.registerTakes other takes).admitted other).cards[card] = e.cards[card] := by
      rw [Engine.admitted_card]
      refine (congrArg _ (Engine.registerAll_card _ card)).trans ?_
      cases e.cards[card] <;> simp [apart]
    exact (ih (by rw [kept]; exact h)).trans kept

theorem Engine.completeRegistrations_noRecord (n : Nat) (e : Engine) : (Engine.completeRegistrations n e).noRecord = e.noRecord := by
  induction n generalizing e with
  | zero => rfl
  | succ n ih =>
    obtain he | ⟨other, takes, -, he⟩ := e.completeRegistrations_succ n <;> rw [he]
    have kept : ((e.registerTakes other takes).admitted other).noRecord = (e.registerTakes other takes).noRecord := by simp [Engine.admitted]
    rw [ih, kept, CardsQuiet.registerTakes.noRecord]

/-- With clips left, the card keeps its record (R19). -/
theorem Engine.afterRetire_left (hr : e.cards[card] = some r) (hl : r.clips ≠ []) (hp : r.pendingDir = none) :
    (e.afterRetire card).cards[card] = some r := by
  unfold Engine.afterRetire
  rw [hr]
  dsimp only
  rw [if_neg hl]
  exact (Engine.completeRegistrations_card _ (by rw [hr]; exact hp)).trans hr

/-- With no clip left, a card that is in no port is freed (R19). -/
theorem Engine.afterRetire_gone (hr : e.cards[card] = some r) (hl : r.clips = []) (ha : r.attached = none) (hn : e.noRecord = []) :
    (e.afterRetire card).cards[card] = none := by
  have freed : (e.freeCardRecord card r).cards[card] = none := by rw [Engine.freeCardRecord_card, if_pos rfl]
  have list : (e.freeCardRecord card r).clipsFreed.noRecord = [] := by
    unfold Engine.clipsFreed
    rw [Engine.completeRegistrations_noRecord, (Engine.freeCardRecord_frame r).2.1, hn]
  unfold Engine.afterRetire
  rw [hr]
  dsimp only
  rw [if_pos hl, ha]
  dsimp only
  rw [Engine.reevaluateNoRecord_nil list]
  exact (Engine.completeRegistrations_card _ (by rw [freed]; rfl)).trans freed

/-! ## A clip retired -/

theorem Engine.handle_of_clipAt {h : Handle} {c : Clip} (hw : e.clipsWellPlaced = true) (hc : e.clipAt h = some c) : c.handle = h := by
  obtain ⟨hg, hi⟩ := Engine.clipAt_eq_some.mp hc
  rw [e.clipsWellPlaced_iff.mp hw h.slot c hi, hg]

theorem Engine.removeCopies_frame (h : Handle) (rs : List CopyRecord) : (rs.foldl (Engine.removeCopy h) e).faults = e.faults ∧
    (rs.foldl (Engine.removeCopy h) e).removed = e.removed ∧
    ∀ i : Fin 512, i ≠ h.slot → (rs.foldl (Engine.removeCopy h) e).clips[i] = e.clips[i] := by
  induction rs generalizing e with
  | nil => exact ⟨rfl, rfl, fun _ _ => rfl⟩
  | cons r rs ih =>
    obtain ⟨faults, removed, slots⟩ := ih (e := Engine.removeCopy h e r)
    have move := Engine.settleEntry_move (e.dropCopy h r.volume) r.volume
    refine ⟨faults.trans ?_, removed.trans ?_, fun i hi => (slots i hi).trans ?_⟩
    · rw [Engine.removeCopy_eq, move]
      simp [Engine.dropCopy]
    · rw [Engine.removeCopy_eq, move]
      simp [Engine.dropCopy]
    · rw [Engine.removeCopy_clips]
      exact Engine.dropCopy_other _ hi

theorem Engine.retireOne_frame (c : Clip) : (e.retireOne c).faults = e.faults.filter (fun x => decide (x.clip ≠ c.handle)) ∧
    (e.retireOne c).removed = e.removed ∧ (e.retireOne c).noRecord = e.noRecord := by
  obtain ⟨faults, removed, -⟩ := Engine.removeCopies_frame (e := e.removeFaults c.handle) c.handle c.copies
  refine ⟨?_, ?_, (CardsQuiet.retireOne c).noRecord⟩
  · rw [Engine.retireOne_eq]
    exact (Engine.updateCard_faults _ _ _).trans faults
  · rw [Engine.retireOne_eq]
    exact (Engine.updateCard_removed _ _ _).trans removed

/-- The clip slots after a retire: the clip's is free, at the next generation (R19). -/
theorem Engine.retireOne_slot (c : Clip) (i : Fin 512) :
    (e.retireOne c).clips[i] = if i = c.handle.slot then ⟨c.handle.gen + 1, none⟩ else e.clips[i] := by
  rw [Engine.retireOne_eq, Engine.forget_slot]
  split
  · rfl
  · next hi => exact (Engine.removeCopies_frame (e := e.removeFaults c.handle) c.handle c.copies).2.2 i hi

theorem Engine.retireOne_card (c : Clip) (hr : e.cards[c.card] = some r) :
    (e.retireOne c).cards[c.card] = some { r with clips := r.clips.erase c.handle } := by
  have same : (c.copies.foldl (Engine.removeCopy c.handle) (e.removeFaults c.handle)).cards[c.card] = some r := by
    rw [Engine.removeCopies_cards]
    exact hr
  rw [Engine.retireOne_eq, Engine.forget_card, same]
  simp

/-- A handle whose slot has gone on to the next generation is stale (R5). -/
theorem Engine.clipAt_stale {h : Handle} (hg : (e.clips[h.slot]).gen = h.gen + 1) : e.clipAt h = none := by
  refine Option.eq_none_iff_forall_ne_some.mpr fun c hc => ?_
  have now := (Engine.clipAt_eq_some.mp hc).1
  rw [hg] at now
  have := congrArg Fin.val now
  rw [Fin.val_add_one] at this
  split at this <;> omega

/-! ## Clips retired in turn -/

theorem Engine.retireAll_frame (cs : List Clip) :
    (cs.foldl Engine.retireOne e).faults = e.faults.filter (fun x => decide (x.clip ∉ cs.map (·.handle))) ∧
    (cs.foldl Engine.retireOne e).removed = e.removed ∧ (cs.foldl Engine.retireOne e).noRecord = e.noRecord := by
  induction cs generalizing e with
  | nil => exact ⟨(List.filter_eq_self.mpr fun _ _ => by simp).symm, rfl, rfl⟩
  | cons c cs ih =>
    obtain ⟨faults, removed, list⟩ := Engine.retireOne_frame (e := e) c
    obtain ⟨faults', removed', list'⟩ := ih (e := e.retireOne c)
    refine ⟨?_, removed'.trans removed, list'.trans list⟩
    rw [List.foldl_cons, faults', faults, List.filter_filter]
    refine List.filter_congr fun x _ => ?_
    rw [Bool.eq_iff_iff]
    simp [and_comm]

/-- A slot of none of the clips keeps. -/
theorem Engine.retireAll_others {cs : List Clip} {i : Fin 512} (hi : ∀ c ∈ cs, i ≠ c.handle.slot) :
    (cs.foldl Engine.retireOne e).clips[i] = e.clips[i] := by
  induction cs generalizing e with
  | nil => rfl
  | cons c cs ih =>
    obtain ⟨first, rest⟩ := List.forall_mem_cons.mp hi
    exact (ih rest).trans ((Engine.retireOne_slot c i).trans (if_neg first))

theorem Engine.retireAll_slot {cs : List Clip} (hn : cs.Pairwise (fun c d => c.handle.slot ≠ d.handle.slot)) {c : Clip} (hc : c ∈ cs) :
    (cs.foldl Engine.retireOne e).clips[c.handle.slot] = ⟨c.handle.gen + 1, none⟩ := by
  induction cs generalizing e with
  | nil => cases hc
  | cons d cs ih =>
    obtain ⟨first, rest⟩ := List.pairwise_cons.mp hn
    obtain rfl | hc := List.mem_cons.mp hc
    · rw [List.foldl_cons, Engine.retireAll_others first, Engine.retireOne_slot, if_pos rfl]
    · exact ih rest hc

/-- The card whose clips are all retired keeps its record, without clips. -/
theorem Engine.retireAll_card {cs : List Clip} (hc : ∀ c ∈ cs, c.card = card)
    (hr : e.cards[card] = some { r with clips := cs.map (·.handle) }) :
    (cs.foldl Engine.retireOne e).cards[card] = some { r with clips := [] } := by
  induction cs generalizing e with
  | nil => exact hr
  | cons c cs ih =>
    obtain ⟨rfl, rest⟩ := List.forall_mem_cons.mp hc
    refine ih rest ((Engine.retireOne_card c hr).trans ?_)
    simp

/-! ## The clips of a card -/

/-- The clip records that a list of current handles finds are theirs, in their order. -/
theorem handles_found {l : List Handle} (hw : ∀ h c, e.clipAt h = some c → c.handle = h)
    (hl : ∀ h ∈ l, (e.clipAt h).map (·.card) = some card) :
    (l.filterMap e.clipAt).map (·.handle) = l ∧ ∀ c ∈ l.filterMap e.clipAt, c.card = card := by
  induction l with
  | nil =>
    rw [List.filterMap_nil]
    exact ⟨rfl, fun c hc => absurd hc List.not_mem_nil⟩
  | cons h l ih =>
    obtain ⟨first, rest⟩ := List.forall_mem_cons.mp hl
    obtain ⟨c, hc, own⟩ := Option.map_eq_some_iff.mp first
    obtain ⟨handles, cards⟩ := ih rest
    rw [List.filterMap_cons_some hc]
    exact ⟨by rw [List.map_cons, handles, hw h c hc], List.forall_mem_cons.mpr ⟨own, cards⟩⟩

/-- Current handles of one slot are one. -/
theorem handle_eq_of_slot {x y : Handle} (hx : (e.clipAt x).isSome = true) (hy : (e.clipAt y).isSome = true) (hs : x.slot = y.slot) :
    x = y := by
  obtain ⟨c, hc⟩ := Option.isSome_iff_exists.mp hx
  obtain ⟨d, hd⟩ := Option.isSome_iff_exists.mp hy
  have gen : x.gen = y.gen := by
    rw [← (Engine.clipAt_eq_some.mp hc).1, ← (Engine.clipAt_eq_some.mp hd).1]
    simp only [hs]
  cases x; cases y
  simp_all

/-- The clips of a card whose handles are current and different. -/
theorem Engine.clipsOf_current (hw : e.clipsWellPlaced = true) (hr : e.cards[card] = some r) (hn : r.clips.Nodup)
    (hl : ∀ h ∈ r.clips, (e.clipAt h).map (·.card) = some card) :
    (e.clipsOf card).map (·.handle) = r.clips ∧ (∀ c ∈ e.clipsOf card, c.card = card) ∧
      (e.clipsOf card).Pairwise (fun c d => c.handle.slot ≠ d.handle.slot) := by
  have found : (e.clipsOf card) = r.clips.filterMap e.clipAt := by
    unfold Engine.clipsOf
    rw [hr]
  obtain ⟨handles, cards⟩ := handles_found (fun h c hc => Engine.handle_of_clipAt hw hc) hl
  rw [found]
  refine ⟨handles, cards, ?_⟩
  have here : ∀ h ∈ r.clips, (e.clipAt h).isSome = true := fun h hm => by
    obtain ⟨c, hc, -⟩ := Option.map_eq_some_iff.mp (hl h hm)
    rw [hc]
    rfl
  have slots : r.clips.Pairwise (fun x y => x.slot ≠ y.slot) :=
    List.Pairwise.imp_of_mem (fun {x y} hx hy hxy hs => hxy (handle_eq_of_slot (here x hx) (here y hy) hs)) hn
  rw [← handles, List.pairwise_map] at slots
  exact slots

/-! ## The checks -/

theorem Engine.retireClip_granted {h : Handle} {c : Clip} (hw : e.clipsWellPlaced = true) (hc : e.clipAt h = some c)
    (hr : e.cards[c.card] = some r) (hs : r.state = .released) (hu : e.clipInUse h = false) :
    e.retireClip h.slot h.gen = .ok ((e.retireOne c).afterRetire c.card) := by
  have own : c.handle = h := Engine.handle_of_clipAt hw hc
  unfold Engine.retireClip
  rw [Engine.checkClip_val hc]
  dsimp only
  rw [hr]
  dsimp only
  rw [if_neg (by simp [hs]), if_neg (by rw [own, hu]; nofun)]

theorem Engine.retireCard_granted (hr : e.cards[card] = some r) (hs : r.state = .released)
    (hu : ∀ c ∈ e.clipsOf card, e.clipInUse c.handle = false) :
    e.retireCard card = .ok (((e.clipsOf card).foldl Engine.retireOne e).afterRetire card) := by
  have idle : (e.clipsOf card).any (fun c => e.clipInUse c.handle) = false := by
    rw [List.any_eq_false]
    intro c hc
    rw [hu c hc]
    nofun
  unfold Engine.retireCard
  rw [Engine.checkCard_val hr]
  dsimp only
  rw [if_neg (by simp [hs]), if_neg (by rw [idle]; nofun)]

end

section
variable {o : Origin} {s : State}

/-- RETIRE_CLIP of a RELEASED card (R4, R18, R19, R187), as O40 states it. -/
theorem retireClip_answers {h : Handle} {c : Clip} {r : CardRecord} (ha : s.accepts o = true) (ho : o.port = .A)
    (hw : s.engine.clipsWellPlaced = true) (hc : s.engine.clipAt h = some c) (hr : s.engine.cards[c.card] = some r)
    (hs : r.state = .released) (hu : s.engine.clipInUse h = false) :
    ∃ t, exec (.retireClip o h.slot h.gen) s = .next t ∧ s.answeredWith t o 19 (.done, []) ∧
      (s.settings.silent = true →
        t.engine.clipAt h = none ∧ (t.engine.clips[h.slot]).gen = h.gen + 1 ∧
          t.engine.faults = s.engine.faults.filter (fun x => decide (x.clip ≠ h)) ∧
          (r.clips.erase h ≠ [] → r.pendingDir = none →
            t.engine.cards[c.card] = some { r with clips := r.clips.erase h }) ∧
          (r.clips.erase h = [] → r.attached = none → s.engine.noRecord = [] → t.engine.cards[c.card] = none)) := by
  obtain rfl : c.handle = h := Engine.handle_of_clipAt hw hc
  have permits : permitted o.port 19 = true := by rw [ho]; rfl
  obtain ⟨t, ht, answered, he⟩ := State.take_answered (a := (.done, [])) (e := (s.blocks.retireOne c).afterRetire c.card)
    (rule := plainRule (fun _ e => e.retireClip c.handle.slot c.handle.gen)) ha readHandle (c.handle.slot.val, c.handle.gen.val) permits
    fun ss => by
      unfold plainRule
      dsimp only
      rw [Engine.retireClip_granted (e := s.blocks) hw hc hr hs hu]
      rfl
  refine ⟨t, ht, answered, fun quiet => ?_⟩
  have refills : Refills (s.blocks.retireOne c) ((s.blocks.retireOne c).afterRetire c.card) := .afterRetire
  obtain ⟨faults, removed, list⟩ := Engine.retireOne_frame (e := s.blocks) c
  have own := Engine.retireOne_card (e := s.blocks) c hr
  have still : ((s.blocks.retireOne c).afterRetire c.card).removed = false := refills.move.removed.trans removed
  rw [he, Engine.endStep_silent quiet (.inl still)]
  have gen : (((s.blocks.retireOne c).afterRetire c.card).clips[c.handle.slot]).gen = c.handle.gen + 1 := by
    rw [refills.gen, Engine.retireOne_slot, if_pos rfl]
  refine ⟨Engine.clipAt_stale gen, gen, ?_, fun hl hp => Engine.afterRetire_left own hl hp,
    fun hl hat hn => Engine.afterRetire_gone own hl hat (list.trans hn)⟩
  rw [refills.faults]
  exact faults

/-- RETIRE_CARD of a RELEASED card (R4, R20, R187), as O40 states it. -/
theorem retireCard_answers {c : Fin 32} {r : CardRecord} (ha : s.accepts o = true) (ho : o.port = .A)
    (hw : s.engine.clipsWellPlaced = true) (hr : s.engine.cards[c] = some r) (hs : r.state = .released) (hn : r.clips.Nodup)
    (hu : ∀ h ∈ r.clips, s.engine.clipInUse h = false) (hl : ∀ h ∈ r.clips, (s.engine.clipAt h).map (·.card) = some c) :
    ∃ t, exec (.retireCard o c) s = .next t ∧ s.answeredWith t o 20 (.done, []) ∧
      (s.settings.silent = true →
        (∀ h ∈ r.clips, t.engine.clipAt h = none ∧ (t.engine.clips[h.slot]).gen = h.gen + 1) ∧
          t.engine.faults = s.engine.faults.filter (fun x => decide (x.clip ∉ r.clips)) ∧
          (r.attached = none → s.engine.noRecord = [] → t.engine.cards[c] = none)) := by
  obtain ⟨handles, cards, slots⟩ := Engine.clipsOf_current hw hr hn hl
  have permits : permitted o.port 20 = true := by rw [ho]; rfl
  have idle : ∀ x ∈ s.engine.clipsOf c, s.engine.clipInUse x.handle = false := fun x hx =>
    hu x.handle (by rw [← handles]; exact List.mem_map_of_mem hx)
  generalize hx : ((s.engine.clipsOf c).foldl Engine.retireOne s.blocks) = x
  obtain ⟨t, ht, answered, he⟩ := State.take_answered (a := (.done, [])) (e := x.afterRetire c)
    (rule := plainRule (fun _ e => e.retireCard c)) ha read8 c.val permits
    fun ss => by
      unfold plainRule
      dsimp only
      rw [Engine.retireCard_granted (e := s.blocks) hr hs idle, ← hx]
      rfl
  refine ⟨t, ht, answered, fun quiet => ?_⟩
  have refills : Refills x (x.afterRetire c) := .afterRetire
  obtain ⟨faults, removed, list⟩ := Engine.retireAll_frame (e := s.blocks) (s.engine.clipsOf c)
  have own : x.cards[c] = some { r with clips := [] } := by
    rw [← hx]
    refine Engine.retireAll_card cards ?_
    rw [handles]
    exact hr
  have freed : ∀ y ∈ s.engine.clipsOf c, x.clips[y.handle.slot] = ⟨y.handle.gen + 1, none⟩ := fun y hy => by
    rw [← hx]
    exact Engine.retireAll_slot slots hy
  rw [hx] at faults removed list
  rw [he, Engine.endStep_silent quiet (.inl (refills.move.removed.trans removed))]
  refine ⟨fun h hm => ?_, ?_, fun hat hn => Engine.afterRetire_gone own rfl hat (list.trans hn)⟩
  · obtain ⟨y, hy, rfl⟩ := List.mem_map.mp (handles ▸ hm)
    have gen : ((x.afterRetire c).clips[y.handle.slot]).gen = y.handle.gen + 1 := by rw [refills.gen, freed y hy]
    exact ⟨Engine.clipAt_stale gen, gen⟩
  · rw [refills.faults, faults, handles]
    rfl

end

/-- Settles O40: the release by its counts and its manifests, the retires by the slots they free. -/
theorem releaseNeedsEveryClipSecured : Obligations.ReleaseNeedsEveryClipSecured := by
  unfold Obligations.ReleaseNeedsEveryClipSecured
  refine ⟨fun o c r sn s ha ho hr hs hn => ?_, fun o s ha ho hw =>
    ⟨fun h c r => retireClip_answers ha ho hw, fun c r => retireCard_answers ha ho hw⟩⟩
  obtain ⟨refused, granted⟩ := releaseCard_answers ha ho hr hs hn
  refine ⟨refused, fun h0 h1 hq => ?_⟩
  obtain ⟨t, ht, answered, he⟩ := granted h0 h1 hq
  refine ⟨t, ht, answered, fun quiet hl hi others => ?_⟩
  have apart : ∀ d ∈ s.blocks.queue, d.card ≠ c := fun d hd => of_decide_eq_true (List.all_eq_true.mp others d hd)
  obtain ⟨removed, does⟩ := Engine.release_does (e := s.blocks) (g := s.settings) (volumes := s.engine.volumesAt sn.mask) hl hi hr apart hq
  rw [he, Engine.endStep_silent quiet (.inl removed)]
  exact does

end Sys2Proof.Machine
end

