-- ==== Sys2Proof/Proofs/TopUpTargets.lean ====
section
/-!
SUPPORT. The targets that START_OFFLOAD plans for a clip (R8, R95, R96), for O38.
-/

namespace Sys2Proof.Machine

section
variable {busy vs : List (Fin 16)} {copies : List CopyRecord} {v : Fin 16}

/-! ## The targets planned in turn -/

/-- The first record on a volume (R7: at most one). -/
def recordOn (copies : List CopyRecord) (v : Fin 16) : Option CopyRecord := copies.find? (fun r => decide (r.volume = v))

theorem recordPlan_present {r : CopyRecord} (h : recordOn copies v = some r) :
    recordPlan copies busy v = if r.resettable then .resetRecord else .refuse := by
  unfold recordPlan
  rw [show copies.find? _ = some r from h]

theorem recordPlan_absent (h : recordOn copies v = none) (hl : copies.length < 6) : recordPlan copies busy v = .append := by
  unfold recordPlan
  rw [show copies.find? _ = none from h]
  exact if_pos hl

theorem plannedTargets_refused (h : recordPlan copies busy v = .refuse) : plannedTargets busy (v :: vs) copies = plannedTargets busy vs copies := by
  rw [plannedTargets, h]

theorem plannedTargets_taken (h : recordPlan copies busy v ≠ .refuse) :
    plannedTargets busy (v :: vs) copies = v :: plannedTargets busy vs ((recordPlan copies busy v).apply copies v 0) := by
  rw [plannedTargets]
  split
  · next hr => exact absurd hr h
  · rfl

theorem plannedTargets_sublist : (plannedTargets busy vs copies).Sublist vs := by
  induction vs generalizing copies with
  | nil => exact .slnil
  | cons v vs ih =>
    by_cases h : recordPlan copies busy v = .refuse
    · rw [plannedTargets_refused h]
      exact ih.cons v
    · rw [plannedTargets_taken h]
      exact ih.cons_cons v

theorem recordOn_cons (r : CopyRecord) (w : Fin 16) : recordOn (r :: copies) w = if r.volume = w then some r else recordOn copies w := by
  unfold recordOn
  rw [List.find?_cons]
  by_cases h : r.volume = w <;> simp [h]

/-- A reset of one volume's record leaves the others'. -/
theorem recordOn_reset {w : Fin 16} (hw : w ≠ v) : recordOn (RecordPlan.resetRecord.apply copies v 0) w = recordOn copies w := by
  have made : (CopyRecord.made v 0).volume ≠ w := hw.symm
  unfold RecordPlan.apply
  dsimp only
  induction copies with
  | nil => rfl
  | cons r rs ih =>
    rw [List.map_cons, recordOn_cons, recordOn_cons, ih]
    by_cases hr : r.volume = v
    · rw [if_pos hr, if_neg made, if_neg (by rw [hr]; exact hw.symm)]
    · rw [if_neg hr]

/-- A record added for one volume leaves the others'. -/
theorem recordOn_append {w : Fin 16} (hw : w ≠ v) : recordOn (RecordPlan.append.apply copies v 0) w = recordOn copies w := by
  have made : recordOn [CopyRecord.made v 0] w = none := (recordOn_cons _ w).trans (if_neg hw.symm)
  unfold recordOn at made ⊢
  unfold RecordPlan.apply
  rw [List.find?_append, made, Option.or_none]

/-- A volume that takes a copy: without a record, or with one that can be reset (R96). -/
def takesCopy (copies : List CopyRecord) (v : Fin 16) : Bool := ((recordOn copies v).map (·.resettable)).getD true

/-- With room for the new records, every volume that takes a copy is planned (R8, R96). -/
theorem plannedTargets_room (hn : vs.Nodup) (hl : copies.length + (vs.filter (fun v => decide (recordOn copies v = none))).length ≤ 6) :
    plannedTargets busy vs copies = vs.filter (takesCopy copies) := by
  induction vs generalizing copies with
  | nil => rfl
  | cons v vs ih =>
    obtain ⟨absent, rest⟩ := List.nodup_cons.mp hn
    have others : ∀ w ∈ vs, w ≠ v := fun w hw k => absent (k ▸ hw)
    have next : ∀ cs : List CopyRecord, (∀ w ∈ vs, recordOn cs w = recordOn copies w) →
        cs.length + (vs.filter (fun v => decide (recordOn copies v = none))).length ≤ 6 →
        plannedTargets busy vs cs = vs.filter (takesCopy copies) := by
      intro cs hcs hlen
      have news : vs.filter (fun v => decide (recordOn cs v = none)) = vs.filter (fun v => decide (recordOn copies v = none)) :=
        List.filter_congr fun w hw => by rw [hcs w hw]
      rw [ih rest (by rw [news]; exact hlen)]
      exact List.filter_congr fun w hw => by unfold takesCopy; rw [hcs w hw]
    cases hr : recordOn copies v with
    | none =>
      rw [List.filter_cons_of_pos (by simpa using hr), List.length_cons] at hl
      have plan := recordPlan_absent (busy := busy) hr (by omega)
      rw [plannedTargets_taken (by rw [plan]; nofun), plan, List.filter_cons_of_pos (by simp [takesCopy, hr])]
      refine congrArg _ (next _ (fun w hw => recordOn_append (others w hw)) ?_)
      simp only [RecordPlan.apply, List.length_append, List.length_singleton]
      omega
    | some r =>
      rw [List.filter_cons_of_neg (by simp [hr])] at hl
      have plan := recordPlan_present (busy := busy) hr
      by_cases hs : r.resettable = true
      · rw [if_pos hs] at plan
        rw [plannedTargets_taken (by rw [plan]; nofun), plan, List.filter_cons_of_pos (by simp [takesCopy, hr, hs])]
        refine congrArg _ (next _ (fun w hw => recordOn_reset (others w hw)) ?_)
        simpa only [RecordPlan.apply, List.length_map] using hl
      · rw [if_neg hs] at plan
        rw [plannedTargets_refused plan, List.filter_cons_of_neg (by simp [takesCopy, hr, hs])]
        exact next _ (fun _ _ => rfl) hl

/-! ## Secured copies -/

theorem CopyRecord.resettable_unsecured {r : CopyRecord} (h : r.resettable = true) : r.secured = false := by
  unfold CopyRecord.resettable at h
  unfold CopyRecord.secured
  split at h <;> simp_all

/-- A volume that takes a copy holds no secured one, where a volume has one record. -/
theorem Clip.unsecured_of_takesCopy {x : Clip} (hn : (x.copies.map (·.volume)).Nodup) (h : takesCopy x.copies v = true) :
    x.securedOn v = false := by
  unfold Clip.securedOn
  rw [List.any_eq_false]
  intro r hr
  rw [Bool.and_eq_true, decide_eq_true_eq]
  rintro ⟨hv, secured⟩
  have here : recordOn x.copies v = some r := by
    cases hf : recordOn x.copies v with
    | none =>
      have := List.find?_eq_none.mp hf r hr
      exact absurd (decide_eq_true hv) this
    | some y =>
      have hy : y.volume = v := of_decide_eq_true (List.find?_some (p := fun r : CopyRecord => decide (r.volume = v)) hf)
      rw [List.inj_on_of_nodup_map hn (List.mem_of_find?_eq_some (p := fun r : CopyRecord => decide (r.volume = v)) hf) hr (hy.trans hv.symm)]
  unfold takesCopy at h
  rw [here] at h
  exact absurd (CopyRecord.resettable_unsecured h) (by rw [secured]; nofun)

/-- The targets of a clip in a top-up, when there is room for the new records (R96). -/
theorem Engine.topUpTargets_room {e : Engine} {x : Clip} {required : Nat} (hs : x.securedCount < required)
    (hv : vs.Nodup) (hn : (x.copies.map (·.volume)).Nodup)
    (hl : x.copies.length + (vs.filter (fun v => decide (x.copyOn v = none))).length ≤ 6) :
    e.topUpTargets vs required x = vs.filter (takesCopy x.copies) := by
  have fewer : ((vs.filter (fun v => !x.securedOn v)).filter (fun v => decide (recordOn x.copies v = none))).length ≤
      (vs.filter (fun v => decide (x.copyOn v = none))).length :=
    (List.filter_sublist.filter _).length_le
  unfold Engine.topUpTargets
  rw [if_pos hs, plannedTargets_room (hv.filter _) ((Nat.add_le_add_left fewer _).trans hl), List.filter_filter]
  refine List.filter_congr fun v _ => ?_
  cases h : takesCopy x.copies v with
  | false => rfl
  | true => rw [Clip.unsecured_of_takesCopy hn h]; rfl

end

end Sys2Proof.Machine
end

