-- ==== Sys2Proof/Proofs/StartOffload.lean ====
section
/-!
THEOREM. START_OFFLOAD of a first offload and of a top-up (R8, R95, R96): O38.
-/

namespace Sys2Proof.Machine

section
variable {e : Engine} {g : Settings} {card : Fin 32} {h : Handle}

/-! ## Frames -/

/-- The change leaves everything but the clip records, the Volume Table, the destination ports, the untracked list and the events. -/
def Engine.copiesMove (a b : Engine) : Prop :=
  b = { a with clips := b.clips, volumes := b.volumes, destPorts := b.destPorts, untracked := b.untracked, events := b.events }

theorem Engine.copiesMove.trans {a b c : Engine} (h : a.copiesMove b) (k : b.copiesMove c) : a.copiesMove c := by
  unfold Engine.copiesMove at *
  rw [k, h]

theorem Engine.copiesMove.foldl {α : Type} {f : Engine → α → Engine} {P : Engine → Prop}
    (hP : ∀ a b : Engine, a.copiesMove b → P a → P b) (hf : ∀ (e : Engine) (x : α), P e → e.copiesMove (f e x)) (xs : List α) {e : Engine} (he : P e) : e.copiesMove (xs.foldl f e) := by
  induction xs generalizing e with
  | nil => rfl
  | cons x xs ih => exact (hf e x he).trans (ih (hP _ _ (hf e x he) he))

theorem Engine.copiesMove.renderIdle {a b : Engine} (h : a.copiesMove b) (hi : a.renderIdle = true) : b.renderIdle = true :=
  (Engine.renderIdle_congr (by rw [h]) (by rw [h])).trans hi

theorem Engine.volumesMove.copiesMove {a b : Engine} (h : a.volumesMove b) : a.copiesMove b := by
  unfold Engine.copiesMove
  rw [h]

theorem Engine.updateClip_copiesMove (f : Clip → Clip) : e.copiesMove (e.updateClip h f) := by
  unfold Engine.updateClip
  split <;> rfl

theorem Engine.recomputeCopyState_copiesMove : e.copiesMove (e.recomputeCopyState h) := by
  have signaled : ∀ (a : Engine) ev, a.copiesMove (a.signal ev) := fun _ _ => rfl
  unfold Engine.recomputeCopyState
  split
  · dsimp only
    split
    · exact (Engine.updateClip_copiesMove _).trans (signaled _ _)
    · exact Engine.updateClip_copiesMove _
  · rfl

/-- With no context running, no job reads a copy that is reset (R140). -/
theorem Engine.failReaders_idle (hi : e.renderIdle = true) (v : Fin 16) : Engine.failReaders g h v e = e := by
  have none_runs : ∀ c : Fin 2, e.contextRun c = none := by
    unfold Engine.renderIdle at hi
    simp only [Bool.and_eq_true, decide_eq_true_eq] at hi
    exact hi.2
  unfold Engine.failReaders
  rw [show List.finRange 2 = [0, 1] from rfl]
  simp only [List.foldl_cons, List.foldl_nil, none_runs]

theorem Engine.makeRecord_copiesMove (n : Nat) (v : Fin 16) (hi : e.renderIdle = true) : e.copiesMove (Engine.makeRecord g h n e v) := by
  cases hc : e.clipAt h with
  | none =>
    rw [Engine.makeRecord_none hc]
    rfl
  | some c =>
    rw [Engine.makeRecord_some hc]
    have planned : ∀ plan, e.copiesMove (e.planned h plan v n) := fun _ => Engine.updateClip_copiesMove _
    split
    · exact (planned _).trans (Engine.settleEntry_move _ _).copiesMove
    · rw [Engine.failReaders_idle ((planned _).renderIdle hi)]
      exact planned _
    · exact planned _
    · exact planned _

theorem Engine.makeRecords_copiesMove (n : Nat) (vs : List (Fin 16)) (hi : e.renderIdle = true) :
    e.copiesMove (vs.foldl (Engine.makeRecord g h n) e) :=
  .foldl (P := fun a => a.renderIdle = true) (fun _ _ k ha => k.renderIdle ha) (fun _ v ha => Engine.makeRecord_copiesMove n v ha) vs hi

theorem Engine.recomputeCopyStates_copiesMove (hs : List Handle) : e.copiesMove (hs.foldl Engine.recomputeCopyState e) :=
  .foldl (P := fun _ => True) (fun _ _ _ _ => trivial) (fun _ _ _ => Engine.recomputeCopyState_copiesMove) hs trivial

theorem Engine.markQueued_copiesMove : e.copiesMove (e.markQueued h) :=
  (Engine.updateClip_copiesMove _).trans Engine.recomputeCopyState_copiesMove

/-- The change leaves everything but what `copiesMove` names and the copy queue. -/
def Engine.queueMove (a b : Engine) : Prop :=
  b = { a with clips := b.clips, volumes := b.volumes, destPorts := b.destPorts, untracked := b.untracked, events := b.events,
               queue := b.queue }

theorem Engine.queueMove.trans {a b c : Engine} (h : a.queueMove b) (k : b.queueMove c) : a.queueMove c := by
  unfold Engine.queueMove at *
  rw [k, h]

theorem Engine.copiesMove.queueMove {a b : Engine} (h : a.copiesMove b) : a.queueMove b := by
  unfold Engine.queueMove
  rw [h]

theorem Engine.copiesMove.queue {a b : Engine} (h : a.copiesMove b) : b.queue = a.queue := by rw [h]

theorem Engine.queueMove.renderIdle {a b : Engine} (h : a.queueMove b) (hi : a.renderIdle = true) : b.renderIdle = true :=
  (Engine.renderIdle_congr (by rw [h]) (by rw [h])).trans hi

/-! ## COPYs queued -/

/-- The descriptor of a COPY from a card to some volumes, as it joins the queue (R79, R80). -/
structure Descriptor.CopyOf (d : Descriptor) (card : Fin 32) (x : Handle × List (Fin 16)) : Prop where
  kind : d.kind = .copy
  clip : d.clip = some x.1
  card : d.card = card
  source : d.source = some .card
  targets : d.targets = x.2
  generation : d.generation = 0
  progress : d.progress = 0
  serial : d.serial = none
  waits : d.state ≠ .running

/-- The COPY from a card that some work asks for (R79, R80). -/
def copyWork (card : Fin 32) (x : Handle × List (Fin 16)) : NewDescriptor where
  kind := .copy
  clip := some x.1
  card := card
  source := some .card
  targets := x.2
  serial := none
  generation := 0

theorem Engine.queueCopy_eq (x : Handle × List (Fin 16)) : e.queueCopy g card x.1 .card x.2 0 =
    ((x.2.foldl (Engine.makeRecord g x.1 0) e).addDescriptor (copyWork card x)).markQueued x.1 := rfl

theorem Engine.queueCopy_joins (x : Handle × List (Fin 16)) (hi : e.renderIdle = true) (hq : e.queue.length < 64) :
    e.queueMove (e.queueCopy g card x.1 .card x.2 0) ∧
      ∃ d : Descriptor, (e.queueCopy g card x.1 .card x.2 0).queue = e.queue ++ [d] ∧ d.CopyOf card x := by
  have records := Engine.makeRecords_copiesMove (g := g) (h := x.1) 0 x.2 hi
  rw [Engine.queueCopy_eq]
  generalize x.2.foldl (Engine.makeRecord g x.1 0) e = a at *
  obtain ⟨slot, joins⟩ := a.addDescriptor_room (copyWork card x) (by rwa [records.queue])
  rw [joins]
  have joined : ∀ q, a.queueMove { a with queue := q } := fun _ => rfl
  have made : Descriptor.CopyOf ((copyWork card x).inSlot slot (a.joiningState (copyWork card x) slot)) card x :=
    ⟨rfl, rfl, rfl, rfl, rfl, rfl, rfl, rfl, Engine.joiningState_ne_running _ slot⟩
  refine ⟨(records.queueMove.trans (joined _)).trans Engine.markQueued_copiesMove.queueMove, _, ?_, made⟩
  rw [Engine.markQueued_copiesMove.queue, records.queue]

/-- The COPYs of some work join the queue in its order, each with its clip and targets (R95, R96). -/
theorem Engine.queueCopies_join (work : List (Handle × List (Fin 16))) (hi : e.renderIdle = true) (hq : e.queue.length + work.length ≤ 64) :
    e.queueMove (work.foldl (fun e x => e.queueCopy g card x.1 .card x.2 0) e) ∧
      ∃ ds, (work.foldl (fun e x => e.queueCopy g card x.1 .card x.2 0) e).queue = e.queue ++ ds ∧
        List.Forall₂ (fun d x => Descriptor.CopyOf d card x) ds work := by
  induction work generalizing e with
  | nil => exact ⟨rfl, [], by simp, .nil⟩
  | cons x xs ih =>
    rw [List.length_cons] at hq
    obtain ⟨move, d, queue, made⟩ := Engine.queueCopy_joins (g := g) (card := card) x hi (by omega)
    obtain ⟨moves, ds, queues, all⟩ := ih (move.renderIdle hi) (by
      rw [queue, List.length_append, List.length_singleton]
      omega)
    refine ⟨move.trans moves, d :: ds, ?_, .cons made all⟩
    rw [List.foldl_cons, queues, queue, List.append_assoc, List.singleton_append]

/-- What the descriptors of some work say of it. -/
theorem copies_of_work {ds : List Descriptor} {work : List (Handle × List (Fin 16))}
    (h : List.Forall₂ (fun d x => Descriptor.CopyOf d card x) ds work) :
    ds.map (fun d => (d.kind, d.clip, d.card)) = work.map (fun x => (DescKind.copy, some x.1, card)) ∧
      ds.map (fun d => (d.source, d.targets)) = work.map (fun x => (some Source.card, x.2)) ∧
      ∀ d ∈ ds, d.generation = 0 ∧ d.progress = 0 ∧ d.serial = none ∧ d.state ≠ .running := by
  induction h with
  | nil => exact ⟨rfl, rfl, nofun⟩
  | cons made _ ih =>
    obtain ⟨clips, targets, rest⟩ := ih
    refine ⟨?_, ?_, List.forall_mem_cons.mpr ⟨⟨made.generation, made.progress, made.serial, made.waits⟩, rest⟩⟩
    · rw [List.map_cons, List.map_cons, clips, made.kind, made.clip, made.card]
    · rw [List.map_cons, List.map_cons, targets, made.source, made.targets]

/-! ## START_OFFLOAD carried out -/

/-- The card enters the offload: it keeps its snapshot, and the queue, and nothing else of the others changes (R94). -/
theorem Engine.enterOffload_cases (e : Engine) (card : Fin 32) :
    e.enterOffload card = e.becomeOffloaded card ∨ ∃ x, e.enterOffload card = e.setCardState card x := by
  unfold Engine.enterOffload
  split
  · exact .inl rfl
  · exact .inr ⟨_, rfl⟩

theorem Engine.becomeOffloaded_queue : (e.becomeOffloaded card).queue = e.queue := by
  unfold Engine.becomeOffloaded Engine.signalSecured
  split <;> simp

theorem Engine.enterOffload_does {r : CardRecord} (hr : e.cards[card] = some r) : e.cardsMove (e.enterOffload card) ∧
    (e.enterOffload card).queue = e.queue ∧ ∃ x, (e.enterOffload card).cards[card] = some x ∧ x.snapshot = r.snapshot := by
  obtain he | ⟨x, he⟩ := e.enterOffload_cases card <;> rw [he]
  · refine ⟨Engine.becomeOffloaded_move, Engine.becomeOffloaded_queue, { r with state := .offloaded, heldByRequest := false }, ?_, rfl⟩
    rw [Engine.becomeOffloaded_card, hr]
    simp
  · refine ⟨Engine.setCardState_move x, Engine.setCardState_queue _ _ _, { r with state := x }, ?_, rfl⟩
    rw [Engine.setCardState_card, hr]
    simp

/-- What START_OFFLOAD does, in a part with nothing else to start: the snapshot, and the COPYs of its work (R95, R96). -/
theorem Engine.beginOffload_does {r : CardRecord} {set : SetFields} {work : List (Handle × List (Fin 16))} (hl : e.lanesTaken = true)
    (hi : e.renderIdle = true) (hr : e.cards[card] = some r) (hq : e.queue.length + work.length ≤ 64) :
    (e.beginOffload g card set work).removed = e.removed ∧
      (∃ x, (e.beginOffload g card set work).cards[card] = some x ∧ x.snapshot = some set) ∧
      ∃ ds, (e.beginOffload g card set work).queue = e.queue ++ ds ∧ List.Forall₂ (fun d x => Descriptor.CopyOf d card x) ds work := by
  generalize ha : e.updateCard card (fun r => { r with snapshot := some set }) = a
  have snapshot : e.cardsMove a := ha ▸ Engine.updateCard_move _
  have held : a.cards[card] = some { r with snapshot := some set } := by
    rw [← ha, Engine.updateCard_card, hr]
    simp
  have same : a.queue = e.queue := by rw [← ha, Engine.updateCard_queue]
  generalize hb : ((a.clipsOf card).map (·.handle)).foldl Engine.recomputeCopyState a = b
  have states : a.copiesMove b := hb ▸ Engine.recomputeCopyStates_copiesMove _
  have idle : b.renderIdle = true := states.renderIdle ((Engine.renderIdle_congr (by rw [snapshot]) (by rw [snapshot])).trans hi)
  obtain ⟨move, ds, queue, made⟩ := Engine.queueCopies_join (e := b) (g := g) (card := card) work idle (by rwa [states.queue, same])
  generalize hc : work.foldl (fun e x => e.queueCopy g card x.1 .card x.2 0) b = c at move queue
  have own : c.cards[card] = some { r with snapshot := some set } := by
    rw [show c.cards = a.cards by rw [move, states]]
    exact held
  obtain ⟨enters, queue', x, hx, hs⟩ := Engine.enterOffload_does own
  have lanes : (c.enterOffload card).lanes = e.lanes := by rw [enters, move, states, snapshot]
  have jobs : (c.enterOffload card).jobs = e.jobs := by rw [enters, move, states, snapshot]
  have contexts : (c.enterOffload card).contexts = e.contexts := by rw [enters, move, states, snapshot]
  have begun : e.beginOffload g card set work = c.enterOffload card := by
    rw [← Engine.settleTransfer_like (g := g) hl hi lanes jobs contexts, ← hc, ← hb, ← ha]
    rfl
  rw [begun]
  refine ⟨by rw [enters, move, states, snapshot], ⟨x, hx, hs⟩, ds, ?_, made⟩
  rw [queue', queue, states.queue, same]

/-! ## The work -/

/-- The clips of a card that are short under a set (R96). -/
def Engine.shortUnder (e : Engine) (card : Fin 32) (required : Nat) : List Clip :=
  (e.clipsOf card).filter (fun x => decide (x.securedCount < required))

variable {volumes : List (Fin 16)} {required : Nat}

theorem Engine.topUpTargets_enough {x : Clip} (hs : ¬ x.securedCount < required) : e.topUpTargets volumes required x = [] := if_neg hs

/-- A top-up's work is of the short clips (R96). -/
theorem Engine.offloadWork_topUp : e.offloadWork card false volumes required =
    ((e.shortUnder card required).map (fun x => (x.handle, e.topUpTargets volumes required x))).filter (fun w => decide (w.2 ≠ [])) := by
  unfold Engine.offloadWork Engine.shortUnder
  rw [if_neg (by nofun), List.filter_map, List.filter_map, List.filter_filter]
  refine congrArg _ (List.filter_congr fun x _ => ?_)
  by_cases hs : x.securedCount < required
  · simp [hs]
  · simp [hs, Engine.topUpTargets_enough]

theorem Engine.topUpTargets_sublist {x : Clip} :
    (e.topUpTargets volumes required x).Sublist (volumes.filter (fun v => !x.securedOn v)) := by
  unfold Engine.topUpTargets
  split
  · exact plannedTargets_sublist
  · exact List.nil_sublist _

/-- What a top-up's work is of, and to (R96). -/
theorem Engine.offloadWork_targets {w : Handle × List (Fin 16)} (hw : w ∈ e.offloadWork card false volumes required) :
    w.2 ≠ [] ∧ ∃ x ∈ e.shortUnder card required, w.1 = x.handle ∧ w.2.Sublist (volumes.filter (fun v => !x.securedOn v)) := by
  rw [Engine.offloadWork_topUp] at hw
  obtain ⟨hw, ne⟩ := List.mem_filter.mp hw
  obtain ⟨x, hx, rfl⟩ := List.mem_map.mp hw
  exact ⟨of_decide_eq_true ne, x, hx, rfl, Engine.topUpTargets_sublist⟩

theorem Engine.offloadWork_order :
    ((e.offloadWork card false volumes required).map (·.1)).Sublist ((e.shortUnder card required).map (·.handle)) := by
  rw [Engine.offloadWork_topUp]
  have := (List.filter_sublist (p := fun w : Handle × List (Fin 16) => decide (w.2 ≠ []))
    (l := (e.shortUnder card required).map (fun x => (x.handle, e.topUpTargets volumes required x)))).map Prod.fst
  rwa [List.map_map] at this

/-- With room for the new records of each short clip, a top-up's work is to every volume that takes a copy (R96). -/
theorem Engine.offloadWork_room (hv : volumes.Nodup)
    (hl : ∀ x ∈ e.shortUnder card required, (x.copies.map (·.volume)).Nodup ∧
      x.copies.length + (volumes.filter (fun v => decide (x.copyOn v = none))).length ≤ 6) :
    e.offloadWork card false volumes required =
      ((e.shortUnder card required).map (fun x => (x.handle, volumes.filter (takesCopy x.copies)))).filter (fun w => decide (w.2 ≠ [])) := by
  rw [Engine.offloadWork_topUp]
  refine congrArg _ (List.map_congr_left fun x hx => ?_)
  obtain ⟨nodup, room⟩ := hl x hx
  rw [Engine.topUpTargets_room (of_decide_eq_true (List.mem_filter.mp hx).2) hv nodup room]

/-- The records that R8 resets. -/
theorem CopyRecord.resettable_iff (y : CopyRecord) : y.resettable = decide (y.state = .partialCopy ∨ y.state = .failed ∨
    y.state = .mismatch ∨ (y.state = .written ∧ y.verifyWaived = false)) := by
  unfold CopyRecord.resettable
  cases y.state with
  | written => cases y.verifyWaived <;> rfl
  | _ => rfl

/-! ## The volumes of a set -/

/-- No volume is at two ports. -/
theorem Engine.volumesAt_nodup (mask : BitVec 4) : (e.volumesAt mask).Nodup := by
  refine List.Nodup.filterMap (fun p q v hp hq => ?_) (List.nodup_finRange 4)
  have port : ∀ {p : Fin 4}, v ∈ (if mask.getLsbD p.val then e.entryAt p else none) → e.portOf v = some p := by
    intro p hp
    split at hp
    · exact Engine.portOf_entryAt hp
    · cases hp
  exact Option.some.inj ((port hp).symm.trans (port hq))

theorem Engine.availableVolumes_nodup (mask : BitVec 4) : (e.availableVolumes mask).Nodup := (Engine.volumesAt_nodup mask).filter _

/-- The available volumes of a set, port by port (R95). -/
theorem Engine.availableVolumes_eq (mask : BitVec 4) : e.availableVolumes mask = (List.finRange 4).filterMap (fun p : Fin 4 =>
    if mask.getLsbD p.val then (e.entryAt p).filter (fun v => decide ((e.volumes[v]).map (·.full) = some false)) else none) := by
  unfold Engine.availableVolumes Engine.volumesAt
  rw [List.filter_filterMap]
  refine congrArg (fun f => List.filterMap f (List.finRange 4)) (funext fun p => ?_)
  split <;> rfl

/-! ## The checks of START_OFFLOAD -/

theorem Engine.startOffload_granted {i : Fin 4} {r : CardRecord} (hr : e.cards[card] = some r) (hs : r.state = .ready ∨ r.state = .offloaded)
    (ha : r.attached.isSome = true) (hm : (g.sets[i]).mask ≠ 0) (hc : (g.sets[i]).copies ≤ (e.availableVolumes (g.sets[i]).mask).length)
    {work : List (Handle × List (Fin 16))}
    (hw : e.offloadWork card (decide (r.state = .ready)) (e.availableVolumes (g.sets[i]).mask) (g.sets[i]).copies = work)
    (hq : e.queue.length + work.length ≤ 64) :
    e.startOffload g card i = .ok (work.length, e.availableVolumes (g.sets[i]).mask, e.beginOffload g card g.sets[i] work) := by
  have state : ¬ (r.state ≠ .ready ∧ r.state ≠ .offloaded) := fun ⟨h1, h2⟩ => hs.elim h1 h2
  have port : r.attached ≠ none := Option.isSome_iff_ne_none.mp ha
  have room : ¬ e.freeDescriptors < work.length := by
    unfold Engine.freeDescriptors Config.maxDescriptors
    omega
  unfold Engine.startOffload
  rw [Engine.checkCard_val hr, checkIndex_val]
  dsimp only
  rw [if_neg hm, if_neg state, if_neg port, if_neg (Nat.not_lt.mpr hc), hw, if_neg room]

theorem wAll_bytes (vs : List (Fin 16)) : wAll (fun v : Fin 16 => w8 v) vs = vs.map (fun v => BitVec.ofNat 8 v.val) := by
  unfold wAll
  induction vs with
  | nil => rfl
  | cons v vs ih =>
    rw [List.map_cons, List.flatten_cons, ih]
    rfl

end

/-- Settles O38: the answer by the checks, the work by the plan of R8 in turn, and its COPYs by the queueing of each. -/
theorem startOffloadQueuesTheCopies : Obligations.StartOffloadQueuesTheCopies := by
  unfold Obligations.StartOffloadQueuesTheCopies
  intro o c i r s ha ho hr hs hat set volumes work hm hc hq
  have permits : permitted o.port 13 = true := by rw [ho]; rfl
  have available : s.blocks.availableVolumes set.mask = volumes := Engine.availableVolumes_eq _
  have nodup : volumes.Nodup := available ▸ Engine.availableVolumes_nodup _
  obtain ⟨t, ht, answered, he⟩ := State.take_answered
    (a := (.done, [BitVec.ofNat 8 work.length, BitVec.ofNat 8 volumes.length] ++ volumes.map (fun v => BitVec.ofNat 8 v.val)))
    (e := s.blocks.beginOffload s.settings c set work) (rule := startOffloadRule c i) ha (readPair read8 read8) (c.val, i.val) permits
    fun ss => by
      unfold startOffloadRule blockRule
      dsimp only
      rw [Engine.startOffload_granted (e := s.blocks) (g := s.settings) (work := work) hr hs hat hm (by rw [available]; exact hc)
        (by rw [available]; rfl) hq, available]
      dsimp only
      unfold wList
      rw [wAll_bytes]
      rfl
  refine ⟨t, ht, answered, fun ready => ?_, fun offloaded => ?_, fun quiet hl hi => ?_⟩
  · exact if_pos (by rw [ready]; rfl)
  · have topUp : work = s.engine.offloadWork c false volumes set.copies := by
      show s.engine.offloadWork c (decide (r.state = .ready)) volumes set.copies = _
      rw [offloaded]
      rfl
    refine ⟨topUp ▸ Engine.offloadWork_order, fun w hw => Engine.offloadWork_targets (topUp ▸ hw), fun room => ?_⟩
    rw [topUp, Engine.offloadWork_room nodup room]
    simp only [← CopyRecord.resettable_iff]
    rfl
  · obtain ⟨removed, snapshot, ds, queue, made⟩ := Engine.beginOffload_does (e := s.blocks) (g := s.settings) (set := set) hl hi hr hq
    obtain ⟨clips, targets, rest⟩ := copies_of_work made
    rw [he, Engine.endStep_silent quiet (.inl removed)]
    exact ⟨snapshot, ds, queue, clips, targets, rest⟩

end Sys2Proof.Machine
end

