-- ==== Sys2Proof/Proofs/LegalSettings.lean ====
section
/-!
SUPPORT. The settings stay in their ranges (R38, R75, R76, R106, R107, R113, R173, R175, R191, R192): each request that writes a setting checks
or clamps it first.
-/

namespace Sys2Proof.Machine

/-! ## Legal settings, field by field -/

/-- What `Settings.legal` says. -/
structure SettingsOk (g : Settings) : Prop where
  sets : ∀ i : Fin 4, (g.sets[i]).legal = true
  looks : ∀ i : Fin 32, (g.looks[i]).legal = true
  rules : ∀ i : Fin 16, (g.rules[i]).legal = true
  profile : g.profile.legal = true
  links : ∀ i : Fin 16, ∀ x, g.links[i] = some x → x.legal = true

theorem Settings.legal_iff (g : Settings) : g.legal = true ↔ SettingsOk g := by
  unfold Settings.legal
  simp only [Bool.and_eq_true, decide_eq_true_eq, and_assoc]
  exact ⟨fun ⟨a, b, c, d, e⟩ => ⟨a, b, c, d, e⟩, fun ⟨a, b, c, d, e⟩ => ⟨a, b, c, d, e⟩⟩

/-- A vector of which one entry is replaced has the property of its entries still. -/
theorem forall_getElem_set {α : Type} {n : Nat} {P : α → Prop} {v : Vector α n} (h : ∀ i : Fin n, P v[i]) (j : Fin n) {x : α} (hx : P x)
    (i : Fin n) : P (v.set j x)[i] := by
  by_cases hij : j = i
  · subst hij
    simpa using hx
  · have other : (v.set j x)[i] = v[i] := Vector.getElem_set_ne _ _ (fun k => hij (Fin.ext k))
    rw [other]
    exact h i

theorem checkIndex_ok {n x : Nat} {i : Fin n} (h : checkIndex n x = .ok i) : i.val = x := by
  unfold checkIndex at h
  split at h
  · rw [← Except.ok.inj h]
  · cases h

/-! ## What the checks let through -/

/-- The fields of a set as DEFINE_SET takes them (R76). -/
theorem setFields_legal {mask copies : Nat} {mode : VerifyMode} {x : SetFields} (hm : mask ≤ 15)
    (hx : setFields mask copies mode = .ok x) : x.legal = true := by
  unfold setFields at hx
  split at hx
  · obtain rfl := Except.ok.inj hx
    rfl
  · next nonzero =>
    split at hx
    · next counts =>
      obtain rfl := Except.ok.inj hx
      have some_port : BitVec.ofNat 4 mask ≠ 0#4 := by bv_omega
      simp [SetFields.legal, some_port, counts]
    · cases hx

/-- A camera argument that is read is a letter or ANY (R114, R192). -/
theorem cameraOf_some {x : Nat} {c : Option Byte} (h : cameraOf x = some c) : cameraLegal c = true := by
  unfold cameraOf at h
  split at h
  · obtain rfl := Option.some.inj h
    rfl
  · split at h
    · next letter =>
      obtain rfl := Option.some.inj h
      have byte : x % 256 = x := Nat.mod_eq_of_lt (by omega)
      simp [cameraLegal, byte, letter]
    · cases h

/-- The version after a last version is one of 1 to 65535 (R107). -/
theorem nextVersion_bounds (last : Nat) : 1 ≤ nextVersion last ∧ nextVersion last ≤ 65535 := by
  unfold nextVersion
  split <;> omega

theorem LookSlot.written_legal (x : LookSlot) {a : LookArgs} (range : OutputRange) (hn : lookNameValid a.name = true) (hb : a.black ≤ 1023) :
    (x.written a range).legal = true := by
  have version := nextVersion_bounds x.lastVersion
  simp [LookSlot.legal, LookSlot.written, hn, hb, version]

theorem LookSlot.cleared_legal {x : LookSlot} (h : x.legal = true) : x.cleared.legal = true := by
  unfold LookSlot.legal at h
  rw [Bool.and_eq_true, decide_eq_true_eq] at h
  simp [LookSlot.legal, LookSlot.cleared, h.1]

/-- A parameter is stored for QUEUE_RENDER alone (R192). -/
theorem storedParameter_zero {a : LinkAction} {n : Nat} {x : Fin 4} (h : storedParameter a n = .ok x) : a = .queueRender ∨ x = 0 := by
  cases a
  case queueRender => exact .inl rfl
  all_goals exact .inr (Except.ok.inj h).symm

theorem linkFields_legal {p : StationPort} {kind camera severity action parameter : Nat} {enabled : Bool} {x : LinkEntry}
    (hx : linkFields p kind camera severity action parameter enabled = .ok x) : x.legal = true := by
  unfold linkFields at hx
  split at hx
  · next k c v a _ hc _ _ =>
    split at hx
    · next allowed =>
      split at hx
      · next n stored =>
        obtain rfl := Except.ok.inj hx
        have severity : k = .faultRaised ∨ ¬ k = .faultRaised ∨ v = .note := (Classical.em _).imp_right .inl
        simp [LinkEntry.legal, cameraOf_some hc, allowed, severity, storedParameter_zero stored]
      · cases hx
    · cases hx
  · cases hx

/-! ## The profile -/

theorem clampNat_bounds {lo hi : Nat} (h : lo ≤ hi) (x : Nat) : lo ≤ clampNat lo hi x ∧ clampNat lo hi x ≤ hi := by
  unfold clampNat
  omega

theorem severityOfRank_rank {n : Nat} (h : n ≤ 2) : (severityOfRank n).rank = n := by
  match n, h with
  | 0, _ => rfl
  | 1, _ => rfl
  | 2, _ => rfl

/-- A clamped severity is one of its kind's set (R174, R175). -/
theorem clampSeverity_between {low high : Severity} (h : low.rank ≤ high.rank) (asked : Nat) :
    (clampSeverity low high asked).between low high = true := by
  have bounds := clampNat_bounds h asked
  have top : high.rank ≤ 2 := by cases high <;> decide
  unfold Severity.between clampSeverity
  rw [severityOfRank_rank (by omega)]
  simp [bounds]

theorem severitiesTaken_legal {old : Vector Severity 16} (h : severitiesLegal old = true) (x : Vector Nat 12) :
    severitiesLegal (severitiesTaken old x) = true := by
  have warnBlock : ∀ n, (clampSeverity .warn .block n).between .warn .block = true := clampSeverity_between (by decide)
  have noteBlock : ∀ n, (clampSeverity .note .block n).between .note .block = true := clampSeverity_between (by decide)
  have noteWarn : ∀ n, (clampSeverity .note .warn n).between .note .warn = true := clampSeverity_between (by decide)
  unfold severitiesLegal at h ⊢
  simp only [Bool.and_eq_true] at h
  simp only [severitiesTaken, Vector.getElem_mk, List.getElem_toArray, List.getElem_cons_zero, List.getElem_cons_succ, Bool.and_eq_true]
  simp [warnBlock, noteBlock, noteWarn, h]

theorem Profile.taken_legal {p : Profile} (h : p.legal = true) (a : ProfileArgs) : (p.taken a).legal = true := by
  have severities : severitiesLegal p.severities = true := by
    unfold Profile.legal at h
    exact (Bool.and_eq_true _ _ ▸ h).2
  have bounds : ∀ {lo hi : Nat}, lo ≤ hi → ∀ x, lo ≤ clampNat lo hi x ∧ clampNat lo hi x ≤ hi := clampNat_bounds
  simp [Profile.legal, Profile.taken, bounds, severitiesTaken_legal severities]

/-! ## Single settings replaced -/

section
variable {g g' : Settings}

theorem SettingsOk.defineSet {set mask copies mode : Nat} (h : SettingsOk g) (hg : g.defineSet set mask copies mode = .ok g') :
    SettingsOk g' := by
  unfold Settings.defineSet at hg
  split at hg
  · split at hg
    · next low =>
      split at hg
      · next x hx =>
        obtain rfl := Except.ok.inj hg
        exact { h with sets := forall_getElem_set (P := fun x : SetFields => x.legal = true) h.sets _ (setFields_legal low hx) }
      · cases hg
    · cases hg
  · cases hg

theorem SettingsOk.setStall {port period retries : Nat} {x : StallSettings} (h : SettingsOk g)
    (hg : g.setStall port period retries = .ok (x, g')) : SettingsOk g' := by
  unfold Settings.setStall at hg
  split at hg
  · cases hg
  · obtain ⟨-, rfl⟩ := Prod.mk.inj (Except.ok.inj hg)
    exact { h with }

theorem SettingsOk.setLook (h : SettingsOk g) (i : Fin 32) {x : LookSlot} (hx : x.legal = true) :
    SettingsOk { g with looks := g.looks.set i x } :=
  { h with looks := forall_getElem_set (P := fun x : LookSlot => x.legal = true) h.looks i hx }

theorem SettingsOk.setLink (h : SettingsOk g) (i : Fin 16) {x : Option LinkEntry} (hx : ∀ y, x = some y → y.legal = true) :
    SettingsOk { g with links := g.links.set i x } :=
  { h with links := forall_getElem_set (P := fun x : Option LinkEntry => ∀ y, x = some y → y.legal = true) h.links i hx }

theorem SettingsOk.writeBinding {entry camera reelLow reelHigh look : Nat} {enabled : Bool} (h : SettingsOk g)
    (hg : g.writeBinding entry camera reelLow reelHigh look enabled = .ok g') : SettingsOk g' := by
  unfold Settings.writeBinding at hg
  split at hg
  · next i c k _ hc _ =>
    split at hg
    · next reels =>
      obtain rfl := Except.ok.inj hg
      have rule : BindingRule.legal ⟨c, reelLow, reelHigh, k, enabled⟩ = true := by simp [BindingRule.legal, cameraOf_some hc, reels]
      exact { h with rules := forall_getElem_set (P := fun x : BindingRule => x.legal = true) h.rules i rule }
    · cases hg
  · cases hg

theorem SettingsOk.writeProfile {a : ProfileArgs} {p : Profile} (h : SettingsOk g) (hg : g.writeProfile a = .ok (p, g')) :
    SettingsOk g' := by
  obtain ⟨-, rfl⟩ := Prod.mk.inj (Except.ok.inj hg)
  exact { h with profile := Profile.taken_legal h.profile a }

theorem SettingsOk.writeLink {p : StationPort} {entry kind camera severity action parameter : Nat} {enabled : Bool} (h : SettingsOk g)
    (hg : g.writeLink p entry kind camera severity action parameter enabled = .ok g') : SettingsOk g' := by
  unfold Settings.writeLink at hg
  split at hg
  · cases hg
  · split at hg
    · split at hg
      · next x hx =>
        obtain rfl := Except.ok.inj hg
        exact h.setLink _ fun y hy => Option.some.inj hy ▸ linkFields_legal hx
      · cases hg
    · cases hg

theorem SettingsOk.clearLink {p : StationPort} {entry : Nat} (h : SettingsOk g) (hg : g.clearLink p entry = .ok g') : SettingsOk g' := by
  unfold Settings.clearLink at hg
  split at hg
  · cases hg
  · split at hg
    · obtain rfl := Except.ok.inj hg
      exact h.setLink _ nofun
    · cases hg

theorem SettingsOk.reset : SettingsOk Settings.reset := (Settings.legal_iff _).mp resetMeetsTheBounds.2.1

end

end Sys2Proof.Machine
end

