-- ==== Sys2Proof/Proofs/CommandsFollow.lean ====
section
/-!
THEOREM. What a command can do, said once: a step of the blocks, an event of a station port, a request answered by a rule, or nothing. Each
rule keeps the settings in their ranges, and so does every step: O19.
-/

namespace Sys2Proof.Machine

/-! ## The rules of requests -/

/-- A rule of a request keeps the settings in their ranges. -/
def RuleLegal (rule : State → Answer × State) : Prop := ∀ s : State, SettingsOk s.settings → SettingsOk (rule s).2.settings

theorem RuleLegal.refuse (x : Status) : RuleLegal (refuseWith x) := fun _ h => h

theorem RuleLegal.read (f : State → Answer) : RuleLegal (readRule f) := fun _ h => h

theorem RuleLegal.block {α : Type} (f : Settings → Engine → Except Status (α × Engine)) (results : α → List Byte) :
    RuleLegal (blockRule f results) := by
  intro s h
  unfold blockRule
  split <;> exact h

theorem RuleLegal.plain (f : Settings → Engine → Except Status Engine) : RuleLegal (plainRule f) := by
  intro s h
  unfold plainRule
  split <;> exact h

theorem RuleLegal.setting {α : Type} {f : Settings → Except Status (α × Settings)} (results : α → List Byte)
    (hf : ∀ g a g', SettingsOk g → f g = .ok (a, g') → SettingsOk g') : RuleLegal (settingRule f results) := by
  intro s h
  unfold settingRule
  split
  · next a g' hg => exact hf _ a g' h hg
  · exact h

theorem RuleLegal.plainSetting {f : Settings → Except Status Settings} (hf : ∀ g g', SettingsOk g → f g = .ok g' → SettingsOk g') :
    RuleLegal (plainSetting f) := by
  intro s h
  unfold Sys2Proof.Machine.plainSetting
  split
  · next g' hg => exact hf _ g' h hg
  · exact h

theorem RuleLegal.readFaults (start count : Nat) : RuleLegal (readFaultsRule start count) := by
  intro s h
  unfold readFaultsRule
  split <;> exact h

theorem RuleLegal.setNotices (p : StationPort) (mask : Nat) : RuleLegal (setNoticesRule p mask) := by
  intro s h
  unfold setNoticesRule
  split <;> exact h

theorem RuleLegal.releaseCard (card : Nat) : RuleLegal (releaseCardRule card) := by
  intro s h
  unfold releaseCardRule
  split <;> exact h

theorem RuleLegal.setMonitor (rate decimation reference time : Nat) : RuleLegal (setMonitorRule rate decimation reference time) := by
  intro s h
  unfold setMonitorRule
  split
  · exact { h with }
  · exact h

theorem RuleLegal.writeLook (a : LookArgs) : RuleLegal (writeLookRule a) := by
  intro s h
  unfold writeLookRule
  split
  · next i range _ _ =>
    split
    · next valid => exact h.setLook i (LookSlot.written_legal _ range valid.1 valid.2)
    · exact h
  · exact h

theorem RuleLegal.clearLook (slot : Nat) : RuleLegal (clearLookRule slot) := by
  intro s h
  unfold clearLookRule
  split
  · exact h
  · next i _ =>
    split
    · exact h
    · exact h.setLook i (LookSlot.cleared_legal (h.looks i))

/-! ## What a command can do -/

/-- What a command other than those of the reset input can leave (R190, R203): a step of the blocks, with cards and drives in place or not, and
at a time or not; an event of a station port; a request answered by a rule, with the reset input not held; or nothing. -/
inductive State.Follows (s : State) : State → Prop
  | runs (seated mounted : Vector Bool 4) (f : Settings → Engine → Engine) :
      s.Follows ({ s with seated := seated, mounted := mounted }.run f)
  | runsAt (time : Nat) (f : Settings → Engine → Engine) : s.Follows (s.runAt time f)
  | station (p : StationPort) (f : Station → Station) : s.Follows (s.atStation p f)
  | answers (o : Origin) (kind : Nat) (rest : List Request) {rule : State → Answer × State} (running : s.resetHeld = false)
      (legal : RuleLegal rule) : s.Follows (s.answerBy o kind rest rule)
  | stays : s.Follows s

section
variable {s : State}

theorem State.canTake_running {p : StationPort} (h : s.canTake p = true) : s.resetHeld = false := by
  unfold State.canTake at h
  simp only [Bool.and_eq_true, Bool.not_eq_true'] at h
  exact h.1.1

theorem State.Follows.answered (x : AnswerTo) (f : Settings → Engine → Engine) : s.Follows (s.answered x f) := by
  cases x with
  | outstanding => exact .runs s.seated s.mounted f
  | abandoned => exact .stays

/-- A request is answered by its rule or by a refusal, or describes no step of the part (R203, R205). -/
theorem State.Follows.take {α : Type} [DecidableEq α] {o : Origin} {kind : Nat} {read : Reader α} {args : α}
    {rule : State → Answer × State} (hr : RuleLegal rule) : s.Follows (s.take o kind read args rule) := by
  unfold State.take
  split
  · next can =>
    have running := State.canTake_running can
    have refused : ∀ x rest, s.Follows (s.answerBy o kind rest (refuseWith x)) := fun x rest => .answers o kind rest running (.refuse x)
    split
    · split
      · exact .answers o kind [] running hr
      · exact refused _ _
    · next rest _ =>
      split
      · split
        · split
          · exact refused _ _
          · split
            · exact .answers o kind rest running hr
            · exact .stays
        · exact refused _ _
      · exact .stays
  · exact .stays

theorem State.Follows.takeUnknown {o : Origin} {kind : Nat} {payload : List Byte} : s.Follows (s.takeUnknown o kind payload) := by
  unfold State.takeUnknown
  split
  · next can =>
    have refused : ∀ rest, s.Follows (s.answerBy o kind rest (refuseWith .badArgument)) := fun rest =>
      .answers o kind rest (State.canTake_running can.1) (.refuse _)
    split
    · exact refused _
    · split
      · exact refused _
      · exact .stays
  · exact .stays

/-- Settings in their ranges stay so. -/
theorem State.Follows.settingsOk {t : State} (h : s.Follows t) (ok : SettingsOk s.settings) : SettingsOk t.settings := by
  cases h with
  | runs seated mounted f => rwa [State.run_settings]
  | runsAt time f =>
    unfold State.runAt
    split
    · exact ok
    · rwa [State.run_settings]
  | station p f =>
    unfold State.atStation
    split <;> exact ok
  | answers o kind rest running legal => exact legal _ ok
  | stays => exact ok

/-- While the reset input is held, nothing but the presence of cards and drives changes (R210). -/
theorem State.Follows.held {t : State} (h : s.Follows t) (held : s.resetHeld = true) :
    t = { s with seated := t.seated, mounted := t.mounted } := by
  cases h with
  | runs seated mounted f =>
    have none_runs : State.run { s with seated := seated, mounted := mounted } f = { s with seated := seated, mounted := mounted } :=
      if_pos held
    rw [none_runs]
  | runsAt time f => rw [show s.runAt time f = s from if_pos held]
  | station p f => rw [show s.atStation p f = s from if_pos held]
  | answers o kind rest running legal => rw [running] at held; cases held
  | stays => rfl

end

/-- Each command but those of the reset input answers a next state that follows. -/
theorem exec_follows (c : Instr) (s : State) (ha : c ≠ .resetAssert) (hr : c ≠ .resetRelease) : ∃ t, exec c s = .next t ∧ s.Follows t := by
  cases c with
  | resetAssert => exact absurd rfl ha
  | resetRelease => exact absurd rfl hr
  | linkUp p => exact ⟨_, rfl, .station p _⟩
  | linkLost p => exact ⟨_, rfl, .station p _⟩
  | requestArrival o kind payload => exact ⟨_, rfl, .station o.port _⟩
  | messageSent p => exact ⟨_, rfl, .station p _⟩
  | unknownRequestKind o kind payload => exact ⟨_, rfl, .takeUnknown⟩
  | status o => exact ⟨_, rfl, .take (.read _)⟩
  | readClip o slot generation => exact ⟨_, rfl, .take (.read _)⟩
  | listClips o start count => exact ⟨_, rfl, .take (.read _)⟩
  | readCard o card => exact ⟨_, rfl, .take (.read _)⟩
  | readVolumes o => exact ⟨_, rfl, .take (.read _)⟩
  | readFaults o start count => exact ⟨_, rfl, .take (.readFaults start count)⟩
  | readLook o selector => exact ⟨_, rfl, .take (.read _)⟩
  | readLinks o => exact ⟨_, rfl, .take (.read _)⟩
  | setNotices o mask => exact ⟨_, rfl, .take (.setNotices o.port mask)⟩
  | writeLink o entry kind camera severity action parameter enabled => exact ⟨_, rfl, .take (.plainSetting fun _ _ => .writeLink)⟩
  | clearLink o entry => exact ⟨_, rfl, .take (.plainSetting fun _ _ => .clearLink)⟩
  | ackFault o number => exact ⟨_, rfl, .take (.plain _)⟩
  | startOffload o card set => exact ⟨_, rfl, .take (.block _ _)⟩
  | holdCard o card => exact ⟨_, rfl, .take (.plain _)⟩
  | resumeCard o card => exact ⟨_, rfl, .take (.plain _)⟩
  | abortCard o card => exact ⟨_, rfl, .take (.plain _)⟩
  | releaseCard o card => exact ⟨_, rfl, .take (.releaseCard card)⟩
  | recopy o slot generation mask => exact ⟨_, rfl, .take (.block _ _)⟩
  | retireClip o slot generation => exact ⟨_, rfl, .take (.plain _)⟩
  | retireCard o card => exact ⟨_, rfl, .take (.plain _)⟩
  | defineSet o set mask copies mode => exact ⟨_, rfl, .take (.plainSetting fun _ _ => .defineSet)⟩
  | setStall o port period retries => exact ⟨_, rfl, .take (.setting _ fun _ _ _ => .setStall)⟩
  | writeLook o a => exact ⟨_, rfl, .take (.writeLook a)⟩
  | clearLook o slot => exact ⟨_, rfl, .take (.clearLook slot)⟩
  | writeBinding o entry camera reelLow reelHigh look enabled => exact ⟨_, rfl, .take (.plainSetting fun _ _ => .writeBinding)⟩
  | bindLook o slot generation look => exact ⟨_, rfl, .take (.plain _)⟩
  | queueRender o slot generation range port => exact ⟨_, rfl, .take (.block _ _)⟩
  | resumeRenders o => exact ⟨_, rfl, .take (.plain _)⟩
  | cueMonitor o slot generation range loop port => exact ⟨_, rfl, .take (.block _ _)⟩
  | stopMonitor o => exact ⟨_, rfl, .take (.plain _)⟩
  | setMonitor o rate decimation reference time => exact ⟨_, rfl, .take (.setMonitor rate decimation reference time)⟩
  | cancelRender o job => exact ⟨_, rfl, .take (.plain _)⟩
  | waiveFault o number => exact ⟨_, rfl, .take (.plain _)⟩
  | waiveOverflow o slot generation => exact ⟨_, rfl, .take (.plain _)⟩
  | writeProfile o a => exact ⟨_, rfl, .take (.setting _ fun _ _ _ => .writeProfile)⟩
  | present p => exact ⟨_, rfl, .runs (s.seated.set p true) s.mounted _⟩
  | absent p => exact ⟨_, rfl, .runs (s.seated.set p false) s.mounted _⟩
  | directoryAnswer p x a => exact ⟨_, rfl, .answered x _⟩
  | directoryTimeout p => exact ⟨_, rfl, .runs s.seated s.mounted _⟩
  | readAnswer p x a => exact ⟨_, rfl, .answered x _⟩
  | stallTimerExpiry p => exact ⟨_, rfl, .runs s.seated s.mounted _⟩
  | inserted p => exact ⟨_, rfl, .runs s.seated (s.mounted.set p true) _⟩
  | removed p => exact ⟨_, rfl, .runs s.seated (s.mounted.set p false) _⟩
  | identifyAnswer p x a => exact ⟨_, rfl, .answered x _⟩
  | enclosureTimeout p => exact ⟨_, rfl, .runs s.seated s.mounted _⟩
  | openWriteAnswer p x a => exact ⟨_, rfl, .answered x _⟩
  | appendAnswer p x a => exact ⟨_, rfl, .answered x _⟩
  | closeAnswer p x a => exact ⟨_, rfl, .answered x _⟩
  | openReadAnswer p x a => exact ⟨_, rfl, .answered x _⟩
  | volumeReadAnswer p x a => exact ⟨_, rfl, .answered x _⟩
  | samplerCompletion lane => exact ⟨_, rfl, .runs s.seated s.mounted _⟩
  | sync damage => exact ⟨_, rfl, .runsAt _ _⟩
  | referencePulse time damage => exact ⟨_, rfl, .runsAt _ _⟩
  | referenceTimeout damage => exact ⟨_, rfl, .runsAt _ _⟩

/-- A command keeps the settings in their ranges. -/
theorem exec_settingsOk {c : Instr} {s t : State} (ok : SettingsOk s.settings) (h : exec c s = .next t) : SettingsOk t.settings := by
  by_cases ha : c = .resetAssert
  · subst ha
    obtain rfl := Host.Outcome.next.inj h
    exact .reset
  · by_cases hr : c = .resetRelease
    · subst hr
      obtain rfl := Host.Outcome.next.inj h
      split
      · exact .reset
      · exact ok
    · obtain ⟨u, hu, follows⟩ := exec_follows c s ha hr
      obtain rfl := Host.Outcome.next.inj (hu.symm.trans h)
      exact follows.settingsOk ok

/-- Settles O19: the idle step leaves the settings, and each command keeps them in their ranges. -/
theorem settingsStayLegal : Obligations.SettingsStayLegal := by
  unfold Obligations.SettingsStayLegal
  intro s t h hs
  rw [Settings.legal_iff] at h ⊢
  unfold step at hs
  split at hs
  · obtain rfl := Host.Outcome.next.inj hs
    exact h
  · next c rest _ => exact exec_settingsOk (s := { s with pending := rest }) h hs

end Sys2Proof.Machine
end

