-- ==== Sys2Proof/Proofs/ResetInput.lean ====
section
/-!
THEOREM. The reset input (R41, R78, R210): O14. The blocks as reset ends are those of reset, but for the ports of the cards and the drives that
are in place.
-/

namespace Sys2Proof.Machine

section
variable {e : Engine} {seated mounted : Vector Bool 4}

/-! ## Cards seated and drives mounted as reset ends -/

/-- A card port after a card that is in place has reported (R41). -/
def CardPort.reports (x : CardPort) (inPlace : Bool) : CardPort := if inPlace then { x with state := .reading } else x

/-- A destination port after a drive that is in place has reported (R78). -/
def DestPort.reports (x : DestPort) (inPlace : Bool) : DestPort := if inPlace then { x with state := .identifying } else x

theorem Engine.seatCard_eq (p : Fin 4) : Engine.seatCard seated e p = e.updatePort p (fun x => x.reports seated[p]) := by
  unfold Engine.seatCard CardPort.reports
  split
  · rfl
  · simp [Engine.updatePort]

theorem Engine.mountDrive_eq (p : Fin 4) : Engine.mountDrive mounted e p = e.updateDest p (fun x => x.reports mounted[p]) := by
  unfold Engine.mountDrive DestPort.reports
  split
  · rfl
  · simp [Engine.updateDest]

/-- Each card that is in place has reported at its port, and nothing else has changed. -/
theorem Engine.seatCards_does {ps : List (Fin 4)} (hn : ps.Nodup) :
    ps.foldl (Engine.seatCard seated) e = { e with cardPorts := (ps.foldl (Engine.seatCard seated) e).cardPorts } ∧
      ∀ q : Fin 4, (ps.foldl (Engine.seatCard seated) e).cardPorts[q] =
        if q ∈ ps then (e.cardPorts[q]).reports seated[q] else e.cardPorts[q] := by
  induction ps generalizing e with
  | nil => exact ⟨rfl, fun _ => rfl⟩
  | cons p ps ih =>
    rw [List.nodup_cons] at hn
    obtain ⟨frame, ports⟩ := ih (e := Engine.seatCard seated e p) hn.2
    refine ⟨?_, fun q => (ports q).trans ?_⟩
    · rw [List.foldl_cons, frame, Engine.seatCard_eq]
      rfl
    · rw [Engine.seatCard_eq, Engine.updatePort_port]
      by_cases hq : q = p
      · subst hq
        simp [hn.1]
      · simp [hq]

/-- Each drive that is in place has reported at its port, and nothing else has changed. -/
theorem Engine.mountDrives_does {ps : List (Fin 4)} (hn : ps.Nodup) :
    ps.foldl (Engine.mountDrive mounted) e = { e with destPorts := (ps.foldl (Engine.mountDrive mounted) e).destPorts } ∧
      ∀ q : Fin 4, (ps.foldl (Engine.mountDrive mounted) e).destPorts[q] =
        if q ∈ ps then (e.destPorts[q]).reports mounted[q] else e.destPorts[q] := by
  induction ps generalizing e with
  | nil => exact ⟨rfl, fun _ => rfl⟩
  | cons p ps ih =>
    rw [List.nodup_cons] at hn
    obtain ⟨frame, ports⟩ := ih (e := Engine.mountDrive mounted e p) hn.2
    refine ⟨?_, fun q => (ports q).trans ?_⟩
    · rw [List.foldl_cons, frame, Engine.mountDrive_eq]
      rfl
    · rw [Engine.mountDrive_eq, Engine.updateDest_port]
      by_cases hq : q = p
      · subst hq
        simp [hn.1]
      · simp [hq]

/-- The blocks as reset ends (R41, R78, R210). -/
theorem Engine.restarted_does (seated mounted : Vector Bool 4) :
    (∀ p : Fin 4, (Engine.restarted seated mounted).cardPorts[p] = (Engine.reset.cardPorts[p]).reports seated[p]) ∧
      (∀ p : Fin 4, (Engine.restarted seated mounted).destPorts[p] = (Engine.reset.destPorts[p]).reports mounted[p]) ∧
      { Engine.restarted seated mounted with cardPorts := Engine.reset.cardPorts, destPorts := Engine.reset.destPorts } = Engine.reset := by
  obtain ⟨seats, cards⟩ := Engine.seatCards_does (e := Engine.reset) (seated := seated) (List.nodup_finRange 4)
  obtain ⟨mounts, drives⟩ := Engine.mountDrives_does (mounted := mounted) (e := (List.finRange 4).foldl (Engine.seatCard seated) Engine.reset)
    (List.nodup_finRange 4)
  unfold Engine.restarted
  refine ⟨fun p => ?_, fun p => ?_, ?_⟩
  · rw [mounts, cards p, if_pos (List.mem_finRange p)]
  · rw [drives p, if_pos (List.mem_finRange p), seats]
  · rw [mounts, seats]

end

theorem CardPort.reports_reset (p : Fin 4) (b : Bool) :
    (Engine.reset.cardPorts[p]).reports b = ⟨if b then .reading else .empty, none, none, false, false⟩ := by
  rw [show Engine.reset.cardPorts[p] = ⟨.empty, none, none, false, false⟩ from Vector.getElem_replicate p.isLt]
  cases b <;> rfl

theorem DestPort.reports_reset (p : Fin 4) (b : Bool) :
    (Engine.reset.destPorts[p]).reports b = ⟨if b then .identifying else .empty, none, [], .context 1⟩ := by
  rw [show Engine.reset.destPorts[p] = ⟨.empty, none, [], .context 1⟩ from Vector.getElem_replicate p.isLt]
  cases b <;> rfl

/-- Settles O14: the reset by its values, the release by the blocks restarted, and the held input by what a command can do. -/
theorem resetInputHoldsAndReleasesThePart : Obligations.ResetInputHoldsAndReleasesThePart := by
  unfold Obligations.ResetInputHoldsAndReleasesThePart
  refine ⟨fun s => ⟨⟨_, rfl, rfl, rfl, rfl, rfl, rfl, rfl, rfl⟩, fun held => ?_⟩, fun c s held ha hr => ?_⟩
  · obtain ⟨cards, drives, others⟩ := Engine.restarted_does s.seated s.mounted
    refine ⟨{ s.afterReset false with engine := Engine.restarted s.seated s.mounted }, congrArg Host.Outcome.next (if_pos held), rfl, rfl, rfl,
      rfl, rfl, rfl, rfl, fun p => ?_, fun p => ?_, others⟩
    · rw [← CardPort.reports_reset]
      exact cards p
    · rw [← DestPort.reports_reset]
      exact drives p
  · obtain ⟨t, ht, follows⟩ := exec_follows c s ha hr
    refine ⟨t, ht, ?_⟩
    rw [follows.held held]
    exact ⟨rfl, rfl, rfl, held, rfl, rfl⟩

end Sys2Proof.Machine
end

