-- ==== Sys2Proof/Proofs/OffloadSettings.lean ====
section
/-!
THEOREM. DEFINE_SET and SET_STALL (R38, R75, R76): O29.
-/

namespace Sys2Proof.Machine

section
variable {g : Settings} {i : Fin 4} {mask : BitVec 4} {copies : Nat} {m : VerifyMode}

/-- The ports of a mask, bit by bit (R75). -/
theorem portCount_bits (mask : BitVec 4) : portCount mask = (if mask.getLsbD 0 then 1 else 0) + (if mask.getLsbD 1 then 1 else 0) +
    (if mask.getLsbD 2 then 1 else 0) + (if mask.getLsbD 3 then 1 else 0) := by
  revert mask
  decide

/-! ## The fields of a set -/

theorem setFields_empty : setFields (0 : BitVec 4).toNat copies m = .ok ⟨0, 1, .readback⟩ := rfl

theorem setFields_nonempty (hm : mask ≠ 0) : setFields mask.toNat copies m =
    if 1 ≤ copies ∧ copies ≤ 4 ∧ copies ≤ portCount mask then .ok ⟨mask, copies, m⟩ else .error .badArgument := by
  have nonzero : mask.toNat ≠ 0 := fun h => hm (BitVec.eq_of_toNat_eq h)
  unfold setFields
  rw [if_neg nonzero, BitVec.ofNat_toNat, BitVec.setWidth_eq]

/-- DEFINE_SET of a set, a mask and a mode that exist is taken as its fields are (R76). -/
theorem Settings.defineSet_eq : g.defineSet i mask.toNat copies m.number =
    (setFields mask.toNat copies m).map (fun x => { g with sets := g.sets.set i x }) := by
  have low : mask.toNat ≤ 15 := by omega
  unfold Settings.defineSet
  rw [checkIndex_val, verifyModeOf_number]
  dsimp only
  rw [if_pos low]
  cases setFields mask.toNat copies m <;> rfl

/-! ## The stall settings -/

/-- The stall settings that a SET_STALL gives (R38). -/
def StallSettings.clamped (period retries : Nat) : StallSettings := ⟨clampIndex 7 period, clampIndex 3 retries⟩

theorem Settings.setStall_port {port : Nat} (h : port < 4) (period retries : Nat) : g.setStall port period retries =
    .ok (.clamped period retries, { g with stall := g.stall.set port (.clamped period retries) }) := by
  unfold Settings.setStall
  rw [show checkIndex 4 port = .ok ⟨port, h⟩ from checkIndex_val ⟨port, h⟩]
  rfl

theorem Settings.setStall_noPort {port : Nat} (h : 4 ≤ port) (period retries : Nat) :
    g.setStall port period retries = .error .badArgument := by
  unfold Settings.setStall
  rw [checkIndex_big h]

end

/-! ## The requests answered -/

section
variable {s : State} {o : Origin}

/-- A request whose rule takes new settings is answered DONE, and leaves the blocks. -/
theorem State.take_newSettings {α : Type} [DecidableEq α] (ha : s.accepts o = true) {kind : Nat} (read : Reader α) (args : α)
    (hp : permitted o.port kind = true) {f : Settings → Except Status Settings} {g : Settings} (hf : f s.settings = .ok g) :
    ∃ t, Host.Outcome.next (φ := Fault) (ρ := Refusal) (s.take o kind read args (plainSetting f)) = .next t ∧
      s.onlyAnswered t o kind (.done, []) ∧ t.engine = s.blocks ∧ t.settings = g := by
  obtain ⟨t, ht, answered, settings, engine⟩ := State.take_plain ha read args (g := g) (e := s.blocks) hp
    (rule := plainSetting f) (a := (.done, [])) (fun ss => by unfold plainSetting; dsimp only; rw [hf]; rfl) rfl rfl
  exact ⟨t, ht, answered, engine, settings⟩

/-- A request whose rule refuses new settings is answered with the refusal, and leaves settings and blocks. -/
theorem State.take_refusedSettings {α : Type} [DecidableEq α] (ha : s.accepts o = true) {kind : Nat} (read : Reader α) (args : α)
    (hp : permitted o.port kind = true) {f : Settings → Except Status Settings} {x : Status} (hf : f s.settings = .error x) :
    ∃ t, Host.Outcome.next (φ := Fault) (ρ := Refusal) (s.take o kind read args (plainSetting f)) = .next t ∧
      s.onlyAnswered t o kind (x, []) ∧ t.engine = s.blocks ∧ t.settings = s.settings := by
  obtain ⟨t, ht, answered, settings, engine⟩ := State.take_keep ha read args hp (rule := plainSetting f) (a := (x, []))
    (fun ss => by unfold plainSetting; dsimp only; rw [hf]; rfl)
  exact ⟨t, ht, answered, engine, settings⟩

/-- SET_STALL of a port answers the settings as it has stored them (R38). -/
theorem setStall_stores (ha : s.accepts o = true) (ho : o.port = .A) {port : Nat} (h : port < 4) (period retries : Nat) :
    ∃ t x, exec (.setStall o port period retries) s = .next t ∧ t.engine = s.blocks ∧
      t.settings = { s.settings with stall := s.settings.stall.set port x } ∧ x.period.val = min period 7 ∧
      x.retries.val = min retries 3 ∧
      s.onlyAnswered t o 22 (.done, [BitVec.ofNat 8 (min period 7), BitVec.ofNat 8 (min retries 3)]) := by
  have permits : permitted o.port 22 = true := by rw [ho]; rfl
  obtain ⟨t, ht, answered, settings, engine⟩ := State.take_plain ha (readPair read8 (readPair read8 read8)) (port, period, retries)
    (g := { s.settings with stall := s.settings.stall.set port (.clamped period retries) }) (e := s.blocks) permits
    (rule := settingRule (Settings.setStall port period retries) (fun x => w8 x.period ++ w8 x.retries))
    (a := (.done, w8 (StallSettings.clamped period retries).period ++ w8 (StallSettings.clamped period retries).retries))
    (fun ss => by unfold settingRule; dsimp only; rw [Settings.setStall_port h]) rfl rfl
  refine ⟨t, .clamped period retries, ht, engine, settings, Nat.min_comm _ _, Nat.min_comm _ _, ?_⟩
  rwa [Nat.min_comm period, Nat.min_comm retries]

/-- SET_STALL of a port that does not exist is refused (R38). -/
theorem setStall_refused (ha : s.accepts o = true) (ho : o.port = .A) {port : Nat} (h : 4 ≤ port) (period retries : Nat) :
    ∃ t, exec (.setStall o port period retries) s = .next t ∧ s.onlyAnswered t o 22 (.badArgument, []) ∧ t.engine = s.blocks ∧
      t.settings = s.settings := by
  have permits : permitted o.port 22 = true := by rw [ho]; rfl
  obtain ⟨t, ht, answered, settings, engine⟩ := State.take_keep ha (readPair read8 (readPair read8 read8)) (port, period, retries) permits
    (rule := settingRule (Settings.setStall port period retries) (fun x => w8 x.period ++ w8 x.retries)) (a := (.badArgument, []))
    (fun ss => by unfold settingRule; dsimp only; rw [Settings.setStall_noPort h]; rfl)
  exact ⟨t, ht, answered, engine, settings⟩

end

/-- Settles O29: DEFINE_SET by the fields of the set, SET_STALL by its port. -/
theorem offloadSettingsAreStored : Obligations.OffloadSettingsAreStored := by
  unfold Obligations.OffloadSettingsAreStored
  refine ⟨fun o i mask copies m s ha ho => ?_, fun o port period retries s ha ho =>
    ⟨fun h => setStall_stores ha ho h period retries, fun h => setStall_refused ha ho h period retries⟩⟩
  have permits : permitted o.port 21 = true := by rw [ho]; rfl
  dsimp only
  rw [← portCount_bits]
  refine ⟨fun empty => ?_, fun some_port h1 h4 room => ?_, fun some_port bad => ?_⟩
  · subst empty
    exact State.take_newSettings ha _ _ permits (Settings.defineSet_eq.trans (by rw [setFields_empty]; rfl))
  · exact State.take_newSettings ha _ _ permits
      (Settings.defineSet_eq.trans (by rw [setFields_nonempty some_port, if_pos ⟨h1, h4, room⟩]; rfl))
  · have outside : ¬ (1 ≤ copies ∧ copies ≤ 4 ∧ copies ≤ portCount mask) := by omega
    exact State.take_refusedSettings ha _ _ permits
      (Settings.defineSet_eq.trans (by rw [setFields_nonempty some_port, if_neg outside]; rfl))

end Sys2Proof.Machine
end

