-- ==== Sys2Proof/Proofs/ReadAnswers.lean ====
section
/-!
THEOREM. What a reader's answer to a card-sourced COPY does while its attempts last (R34, R35, R84, R86): O47.
-/

namespace Sys2Proof.Machine

section
variable {a e : Engine} {g : Settings} {l : Fin 2}

/-! ## A running lane updated -/

/-- What a lane holds is updated, where it runs. -/
def Lane.update (f : LaneRun → LaneRun) : Lane → Lane
  | .running r => .running (f r)
  | x => x

/-- The lanes after one is updated. -/
theorem Engine.updateLane_lane (f : LaneRun → LaneRun) (m : Fin 2) :
    (e.updateLane l f).lanes[m] = if m = l then (e.lanes[m]).update f else e.lanes[m] := by
  unfold Engine.updateLane
  by_cases hm : m = l
  · subst hm
    rw [if_pos rfl]
    cases hl : e.lanes[m] with
    | running r => exact Vector.getElem_set_self _
    | _ => exact hl
  · rw [if_neg hm]
    split
    · exact Vector.getElem_set_ne l.isLt m.isLt (fun k => hm (Fin.ext k.symm))
    · rfl

theorem Engine.updateLane_frame (f : LaneRun → LaneRun) : e.updateLane l f = { e with lanes := (e.updateLane l f).lanes } := by
  unfold Engine.updateLane
  split <;> rfl

theorem Engine.updateLane_laneRun (f : LaneRun → LaneRun) : (e.updateLane l f).laneRun l = (e.laneRun l).map f := by
  unfold Engine.laneRun
  rw [Engine.updateLane_lane, if_pos rfl]
  cases e.lanes[l] <;> rfl

/-- A lane that an update leaves IDLE was IDLE. -/
theorem Engine.updateLane_idle (f : LaneRun → LaneRun) {m : Fin 2} (h : (e.updateLane l f).lanes[m] = .idle) : e.lanes[m] = .idle := by
  rw [Engine.updateLane_lane] at h
  split at h
  · cases hl : e.lanes[m] with
    | idle => rfl
    | _ => rw [hl] at h; cases h
  · exact h

/-- Whether a lane is IDLE decides what the lane grant finds. -/
theorem Engine.lanesTaken_of_idle (h : ∀ m : Fin 2, e.lanes[m] = .idle → a.lanes[m] = .idle) (ha : a.lanesTaken = true) :
    e.lanesTaken = true := by
  unfold Engine.lanesTaken Engine.idleLane at *
  rw [decide_eq_true_eq, List.find?_eq_none] at *
  intro m hm k
  exact ha m hm (decide_eq_true (h m (of_decide_eq_true k)))

/-! ## What the Take Parser's findings leave -/

/-- What the findings of a lane's parse leave (R54 to R60): all but the clip records, the scanner, the fault list, the events, and the lane's
own parse. -/
structure ParserMoves (l : Fin 2) (a b : Engine) : Prop where
  frame : b = { a with
    clips := b.clips, lanes := b.lanes, scans := b.scans, sampler := b.sampler, faults := b.faults, faultCounter := b.faultCounter,
    dropped := b.dropped, faultSerial := b.faultSerial, events := b.events }
  run : ∀ r, a.laneRun l = some r → ∃ p n, b.laneRun l = some { r with parse := p, sizeFault := n }
  idle : ∀ m : Fin 2, b.lanes[m] = .idle → a.lanes[m] = .idle

theorem ParserMoves.refl (a : Engine) : ParserMoves l a a := ⟨rfl, fun r hr => ⟨r.parse, r.sizeFault, hr⟩, fun _ h => h⟩

theorem ParserMoves.trans {b c : Engine} (h : ParserMoves l a b) (k : ParserMoves l b c) : ParserMoves l a c where
  frame := k.frame.trans (by rw [h.frame])
  run r hr := by
    obtain ⟨p, n, hb⟩ := h.run r hr
    obtain ⟨p', n', hc⟩ := k.run _ hb
    exact ⟨p', n', hc⟩
  idle m hm := h.idle m (k.idle m hm)

/-- A change that leaves the lanes too. -/
theorem ParserMoves.but (h : ParserMoves l a e) {b : Engine} (hb : b = { e with
    clips := b.clips, scans := b.scans, sampler := b.sampler, faults := b.faults, faultCounter := b.faultCounter,
    dropped := b.dropped, faultSerial := b.faultSerial, events := b.events }) : ParserMoves l a b := by
  have lanes : b.lanes = e.lanes := by rw [hb]
  refine h.trans ⟨by rw [hb], fun r hr => ⟨r.parse, r.sizeFault, ?_⟩, fun m hm => lanes ▸ hm⟩
  unfold Engine.laneRun at *
  rw [lanes, hr]

theorem ParserMoves.updateLane (h : ParserMoves l a e) {f : LaneRun → LaneRun}
    (hf : ∀ r, ∃ p n, f r = { r with parse := p, sizeFault := n }) : ParserMoves l a (e.updateLane l f) := by
  refine h.trans ⟨?_, fun r hr => ?_, fun m => Engine.updateLane_idle f⟩
  · rw [Engine.updateLane_frame]
  · obtain ⟨p, n, hp⟩ := hf r
    exact ⟨p, n, by rw [Engine.updateLane_laneRun, hr, Option.map_some, hp]⟩

theorem ParserMoves.ite (h : ParserMoves l a e) {p : Prop} [Decidable p] {x : Engine} (hx : ParserMoves l a x) :
    ParserMoves l a (if p then x else e) := by
  split <;> assumption

theorem ParserMoves.updateClip (h : ParserMoves l a e) {x : Handle} {f : Clip → Clip} : ParserMoves l a (e.updateClip x f) := by
  refine h.but ?_
  unfold Engine.updateClip
  split <;> rfl

theorem ParserMoves.updateScan (h : ParserMoves l a e) {m : Fin 2} {f : ScanContext → ScanContext} : ParserMoves l a (e.updateScan m f) :=
  h.but rfl

theorem ParserMoves.raiseFault (h : ParserMoves l a e) {f : FaultInput} : ParserMoves l a (e.raiseFault g f) := by
  refine h.but ?_
  rw [Engine.raiseFault_frame]

theorem ParserMoves.makeStale (h : ParserMoves l a e) {x : Handle} : ParserMoves l a (e.makeStale x) := by
  unfold Engine.makeStale
  split
  · exact h.ite (h.updateClip.but rfl)
  · exact h

theorem ParserMoves.bind (h : ParserMoves l a e) {x : Handle} {b : Binding} : ParserMoves l a (e.bind x b) := by
  unfold Engine.bind
  split
  · exact h.updateClip.ite h.updateClip.makeStale
  · exact h

theorem ParserMoves.applyRules (h : ParserMoves l a e) {x : Handle} {k : Byte} {n : Nat} : ParserMoves l a (e.applyRules g x k n) := by
  unfold Engine.applyRules
  split
  · split
    · exact h
    · split
      · exact h.bind
      · exact h
  · exact h

/-! ## The scanner -/

theorem ParserMoves.judgeNumber (h : ParserMoves l a e) {x : FrameReport} : ParserMoves l a (e.judgeNumber g x) := by
  unfold Engine.judgeNumber
  split
  · exact ParserMoves.ite h.raiseFault h
  · exact h

theorem ParserMoves.judgeTimecode (h : ParserMoves l a e) {x : FrameReport} : ParserMoves l a (e.judgeTimecode g x) := by
  unfold Engine.judgeTimecode
  split
  · exact h.raiseFault
  · exact h

theorem ParserMoves.judgeFrozen (h : ParserMoves l a e) {x : FrameReport} : ParserMoves l a (e.judgeFrozen g x) :=
  h.updateScan.ite h.updateScan.raiseFault

theorem ParserMoves.judgeTakeEnd (h : ParserMoves l a e) {x : Handle} {c : Fin 32} {n : Nat} {d : Option Nat} :
    ParserMoves l a (e.judgeTakeEnd g x c n d) := by
  unfold Engine.judgeTakeEnd
  split
  · exact ParserMoves.ite h.raiseFault h
  · exact h

theorem ParserMoves.framePicture (h : ParserMoves l a e) {x : FrameReport} {w ht : Nat} {ps : List Rgb} :
    ParserMoves l a (e.framePicture g x w ht ps) := by
  unfold Engine.framePicture
  split
  · exact ParserMoves.updateClip (h.but rfl)
  · exact h.updateClip

/-! ## The findings -/

theorem ParserMoves.headerValid (h : ParserMoves l a e) {x : Handle} {d : Header} : ParserMoves l a (e.headerValid g x d) := by
  unfold Engine.headerValid
  split
  · exact ParserMoves.ite h.updateClip.applyRules h.updateClip
  · exact h

theorem ParserMoves.parsedFrame (h : ParserMoves l a e) {x : FrameReport} {k : Word32} {b w ht : Nat} {ps : List Rgb} :
    ParserMoves l a (e.parsedFrame g x k b w ht ps) := by
  have counted : ParserMoves l a (e.updateClip x.clip (fun c => c.observe x.tc)) := h.updateClip
  have words := ParserMoves.ite (p := b = 0) (counted.raiseFault (g := g) (f := x.fault .pixelWord (some (b : Int)))) counted
  have checked := ParserMoves.ite (p := x.check = k) (words.raiseFault (g := g) (f := x.fault .frameCheck none)) words
  exact checked.judgeNumber.judgeTimecode.judgeFrozen.framePicture

theorem ParserMoves.parseOut (h : ParserMoves l a e) {x : Handle} {c : Fin 32} {out : ParseOut} :
    ParserMoves l a (Engine.parseOut g l x c e out) := by
  cases out with
  | headerValid d => exact h.headerValid
  | headerInvalid n => exact h.raiseFault.updateClip
  | truncated n => exact h.raiseFault
  | frameSize n => exact h.raiseFault.updateLane fun r => ⟨r.parse, _, rfl⟩
  | sizePrefix n tc =>
    refine ParserMoves.updateLane ?_ fun r => ⟨r.parse, none, rfl⟩
    unfold Engine.completeFault
    split
    · exact h.but rfl
    · exact h
  | frame n tc k v b ps d prev => exact h.parsedFrame
  | takeEnd n => exact h.judgeTakeEnd.updateLane fun _ => ⟨none, none, rfl⟩

theorem ParserMoves.parseOuts (h : ParserMoves l a e) {x : Handle} {c : Fin 32} (outs : List ParseOut) :
    ParserMoves l a (outs.foldl (Engine.parseOut g l x c) e) := by
  induction outs generalizing e with
  | nil => exact h
  | cons out outs ih => exact ih h.parseOut

theorem ParserMoves.applyParse (h : ParserMoves l a e) {p : Parse} {outs : List ParseOut} : ParserMoves l a (e.applyParse g l p outs) := by
  unfold Engine.applyParse
  exact ParserMoves.parseOuts (h.updateLane fun r => ⟨some p, r.sizeFault, rfl⟩) outs

/-- A block of take bytes moves a lane's parse, and lets its findings take effect (R54). -/
theorem ParserMoves.feedParser (h : ParserMoves l a e) (bytes : List Byte) : ParserMoves l a (e.feedParser g l bytes) := by
  unfold Engine.feedParser
  split
  · next p _ => exact h.applyParse (p := (p.block bytes).1) (outs := (p.block bytes).2)
  · exact h

end

/-! ## A block of a COPY with one open target -/

section
variable {e : Engine} {g : Settings} {l : Fin 2} {run : LaneRun} {d : Descriptor} {v : Fin 16} {q : Fin 4} {k : Word32}

theorem Engine.laneWork_eq (hl : e.laneRun l = some run) (hd : e.descriptor run.slot = some d) : e.laneWork l = some (run, d) := by
  unfold Engine.laneWork
  rw [hl]
  dsimp only
  rw [hd]
  rfl

/-- What the lane holds as a block of its COPY has arrived (R84, R86). -/
def LaneRun.entered (r : LaneRun) (d : Descriptor) (c : Clip) (block : List Byte) : LaneRun :=
  { r.digestBlock block with lastPassed := decide (c.byteLength ≤ d.progress + block.length), phase := .appending }

/-- A COPY whose APPENDs are not all answered waits (R86). -/
theorem Engine.advanceCopy_appending (hw : e.laneWork l = some (run, d)) (hp : run.phase = .appending)
    (ht : run.targets = [⟨v, q, .appending k⟩]) : e.advanceCopy g l = e := by
  have live : run.targets.any (fun t => t.status.live) = true := by rw [ht]; rfl
  have waits : run.awaits = true := by
    unfold LaneRun.awaits
    rw [ht, hp]
    rfl
  unfold Engine.advanceCopy
  rw [hw]
  dsimp only
  split
  · rw [if_neg (by rw [hp]; nofun), if_neg (by rw [live]; nofun), if_pos waits]
  · rfl

/-- An operation asked of a port with nothing under way is sent at once (R72). -/
theorem DestPort.ask_free {x : DestPort} {op : Operation} (free : x.inflight = none) (first : x.waiting = []) :
    x.ask op = { x with inflight := some op, last := op.who } := if_pos ⟨free, first⟩

/-- The APPEND of a block is sent to an open target at a port with nothing under way (R72, R86). -/
theorem Engine.appendTo_free {block : List Byte} (online : (e.destPorts[q]).state = .online) (free : (e.destPorts[q]).inflight = none)
    (first : (e.destPorts[q]).waiting = []) : Engine.appendTo g l d block e ⟨v, q, .isOpen k⟩ =
      ({ e with destPorts := e.destPorts.set q { e.destPorts[q] with
        inflight := some ⟨.lane l, .append k block, false⟩, last := .lane l } }).setTarget l v (.appending k) := by
  have asked : e.ask q (.lane l) (.append k block) = some { e with destPorts := e.destPorts.set q { e.destPorts[q] with
      inflight := some ⟨.lane l, .append k block, false⟩, last := .lane l } } := by
    unfold Engine.ask
    rw [online]
    dsimp only
    unfold Engine.updateDest
    dsimp only
    rw [DestPort.ask_free free first]
  unfold Engine.appendTo
  dsimp only
  rw [asked]

/-- What a block of a card-sourced COPY leaves that went to its one open target (R84, R86): besides what the parse's findings leave, the port
that has the APPEND in flight, and the lane that awaits its answer. -/
structure BlockAppended (l : Fin 2) (run : LaneRun) (d : Descriptor) (c : Clip) (v : Fin 16) (q : Fin 4) (k : Word32) (block : List Byte)
    (a b : Engine) : Prop where
  frame : b = { a with
    clips := b.clips, lanes := b.lanes, scans := b.scans, sampler := b.sampler, faults := b.faults, faultCounter := b.faultCounter,
    dropped := b.dropped, faultSerial := b.faultSerial, events := b.events,
    destPorts := a.destPorts.set q { a.destPorts[q] with inflight := some ⟨.lane l, .append k block, false⟩, last := .lane l } }
  run : ∃ p n, b.laneRun l = some { run.entered d c block with targets := [⟨v, q, .appending k⟩], parse := p, sizeFault := n }
  idle : ∀ m : Fin 2, b.lanes[m] = .idle → a.lanes[m] = .idle

/-- The APPEND that follows what the parse has found in the block. -/
theorem BlockAppended.of_fed {b : Engine} {c : Clip} {bytes : List Byte} (hl : e.laneRun l = some run)
    (ht : run.targets = [⟨v, q, .isOpen k⟩]) (fed : ParserMoves l (e.updateLane l (fun r => r.entered d c bytes)) b) :
    BlockAppended l run d c v q k bytes e (({ b with destPorts := e.destPorts.set q { e.destPorts[q] with
      inflight := some ⟨.lane l, .append k bytes, false⟩, last := .lane l } }).setTarget l v (.appending k)) where
  frame := by
    unfold Engine.setTarget
    rw [Engine.updateLane_frame, fed.frame, Engine.updateLane_frame]
  run := by
    obtain ⟨p, n, held⟩ := fed.run (run.entered d c bytes) (by rw [Engine.updateLane_laneRun, hl]; rfl)
    refine ⟨p, n, (Engine.updateLane_laneRun _).trans ((congrArg _ held).trans ?_)⟩
    simp [LaneRun.entered, LaneRun.digestBlock, ht]
  idle m hm := by
    unfold Engine.setTarget at hm
    have before := Engine.updateLane_idle _ hm
    exact Engine.updateLane_idle _ (fed.idle m before)

/-- A block arrives for a card-sourced COPY with one open target at a port with nothing under way (R84, R86). -/
theorem BlockAppended.copyBlock {bytes : List Byte} {c : Clip} {r : CardRecord} (hl : e.laneRun l = some run)
    (hd : e.descriptor run.slot = some d) (source : d.source = some .card) (hc : d.clip.bind e.clipAt = some c)
    (hr : e.cards[d.card] = some r) (ht : run.targets = [⟨v, q, .isOpen k⟩]) (online : (e.destPorts[q]).state = .online)
    (free : (e.destPorts[q]).inflight = none) (first : (e.destPorts[q]).waiting = []) :
    BlockAppended l run d c v q k bytes e (e.copyBlock g l bytes) := by
  have fed := (ParserMoves.refl (l := l) (e.updateLane l (fun r => r.entered d c bytes))).feedParser (g := g) bytes
  have copied : e.copyBlock g l bytes = (Engine.appendTo g l d bytes
      ((e.updateLane l (fun r => r.entered d c bytes)).feedParser g l bytes) ⟨v, q, .isOpen k⟩).advanceCopy g l := by
    have both : e.clipAndCard d = some (c, r) := by
      unfold Engine.clipAndCard
      rw [hc, hr]
    unfold Engine.copyBlock
    rw [Engine.laneWork_eq hl hd]
    dsimp only
    rw [both]
    dsimp only
    rw [if_pos source, ht]
    rfl
  generalize (e.updateLane l (fun r => r.entered d c bytes)).feedParser g l bytes = b at fed copied
  have ports : b.destPorts = e.destPorts := by
    rw [fed.frame]
    exact Engine.updateLane_destPorts e l _
  have appended := BlockAppended.of_fed hl ht fed
  rw [Engine.appendTo_free (by rwa [ports]) (by rwa [ports]) (by rwa [ports]), ports] at copied
  obtain ⟨p, n, appending⟩ := appended.run
  have queued : Engine.descriptor _ run.slot = some d := (congrArg (fun x : Engine => x.descriptor run.slot) appended.frame).trans hd
  rw [copied, Engine.advanceCopy_appending (Engine.laneWork_eq appending queued) rfl rfl]
  exact appended

/-- With the lanes taken and no render job, nothing starts after the block. -/
theorem BlockAppended.settled {a b : Engine} {c : Clip} {bytes : List Byte} (h : BlockAppended l run d c v q k bytes a b)
    (hl : a.lanesTaken = true) (hr : a.renderIdle = true) : b.settleTransfer g = b :=
  Engine.settleTransfer_quiet (Engine.lanesTaken_of_idle h.idle hl)
    ((Engine.renderIdle_congr (by rw [h.frame]) (by rw [h.frame])).trans hr)

end

/-! ## Attempts -/

section
variable {s : State} {p : Fin 4} {rd : CardRead}

/-- The blocks after a failed attempt that is not the last (R35). -/
def Engine.retried (e : Engine) (g : Settings) (p : Fin 4) (rd : CardRead) : Engine :=
  { e with cardPorts := e.cardPorts.set p { e.cardPorts[p] with
    read := some { rd with attempt := rd.attempt + 1, period := (g.stall[p]).period } } }

theorem Engine.attemptFails_retries {e : Engine} {g : Settings} (hn : rd.attempt < (g.stall[p]).retries.val) :
    e.attemptFails g p rd = e.retried g p rd := if_pos hn

/-- The three ways in which an attempt fails come to the same (R35). -/
theorem Engine.attempt_ends {e : Engine} {g : Settings} (hr : (e.cardPorts[p]).read = some rd) :
    e.readArrives g p .error = (e.attemptFails g p rd).settleTransfer g ∧
      (∀ bytes : List Byte, bytes.length ≠ rd.length → e.readArrives g p (.data bytes) = (e.attemptFails g p rd).settleTransfer g) ∧
      e.stallExpires g p = (e.attemptFails g p rd).settleTransfer g := by
  unfold Engine.readArrives Engine.stallExpires
  rw [hr]
  exact ⟨rfl, fun bytes hb => if_neg hb, rfl⟩

/-- A step of a calm part whose change comes to a retry. -/
theorem State.run_retried (hs : s.calm = true) (hn : rd.attempt < (s.settings.stall[p]).retries.val) {f : Settings → Engine → Engine}
    (hf : f s.settings s.blocks = (s.blocks.attemptFails s.settings p rd).settleTransfer s.settings) :
    ∃ t, Host.Outcome.next (φ := Fault) (ρ := Refusal) (s.run f) = .next t ∧ s.ranInPlace t ∧ t.engine = s.blocks.retried s.settings p rd := by
  obtain ⟨running, silent, lanes, renders⟩ := State.calm_parts hs
  rw [Engine.attemptFails_retries hn] at hf
  exact State.run_silent running silent (hf.trans (Engine.settleTransfer_like lanes renders rfl rfl rfl)) (.inl rfl)

end

/-- Settles O47: the block by what its lane makes of it, a failed attempt by the retry. -/
theorem readAnswerFeedsTheCopyOrIsRetried : Obligations.ReadAnswerFeedsTheCopyOrIsRetried := by
  unfold Obligations.ReadAnswerFeedsTheCopyOrIsRetried
  intro p rd s hs read
  obtain ⟨error, data, timer⟩ := Engine.attempt_ends (e := s.blocks) (g := s.settings) read
  refine ⟨fun bytes run d h c r v q k len lane desc _ source clip at_h card ht online free first => ?_, fun hn => ?_, fun _ => rfl⟩
  · obtain ⟨running, silent, lanes, renders⟩ := State.calm_parts hs
    have appended : BlockAppended rd.lane run d c v q k bytes (s.blocks.updatePort p (fun x => { x with read := none })) _ :=
      .copyBlock (g := s.settings) lane desc source (by rw [clip]; exact at_h) card ht online free first
    have arrives : s.blocks.readArrives s.settings p (.data bytes) =
        (s.blocks.updatePort p (fun x => { x with read := none })).copyBlock s.settings rd.lane bytes := by
      unfold Engine.readArrives
      rw [show (s.blocks.cardPorts[p]).read = some rd from read]
      dsimp only
      rw [if_pos len]
      exact appended.settled lanes renders
    have removed : ((s.blocks.updatePort p (fun x => { x with read := none })).copyBlock s.settings rd.lane bytes).removed = false :=
      congrArg Engine.removed appended.frame
    obtain ⟨t, ht, ran, he⟩ := State.run_silent (f := fun g e => e.readArrives g p (.data bytes)) running silent arrives (.inl removed)
    obtain ⟨parse, fault, held⟩ := appended.run
    rw [← he] at held appended
    refine ⟨t, _, ht, ran, ?_, held, rfl, rfl, rfl, rfl, rfl, rfl, ?_, ?_⟩ <;> rw [appended.frame] <;> rfl
  · exact ⟨State.run_retried (f := fun g e => e.readArrives g p .error) hs hn error,
      fun bytes hb => State.run_retried (f := fun g e => e.readArrives g p (.data bytes)) hs hn (data bytes hb),
      State.run_retried (f := fun g e => e.stallExpires g p) hs hn timer⟩

end Sys2Proof.Machine
end

