-- ==== Sys2Proof/Proofs/ReadStalls.lean ====
section
/-!
THEOREM. What the last failed attempt of a read does to its port, its card and the COPY that reads (R36, R81, R89, R90): O48.
-/

namespace Sys2Proof.Machine

section
variable {a b e : Engine} {g : Settings} {h : Handle} {l : Fin 2}

/-! ## Clip records and their copies -/

/-- What a handle finds after a clip record is updated. -/
theorem Engine.updateClip_clipAt (x : Handle) (f : Clip → Clip) :
    (e.updateClip x f).clipAt h = (e.clipAt h).map (fun c => if h = x then f c else c) := by
  have gens : ((e.updateClip x f).clips[h.slot]).gen = (e.clips[h.slot]).gen := Engine.updateClip_gen _
  by_cases hx : h = x
  · subst hx
    simp only [if_pos]
    cases hc : e.clipAt h with
    | none =>
      unfold Engine.updateClip
      rw [hc]
      exact hc
    | some c =>
      unfold Engine.updateClip
      rw [hc]
      simp [Engine.clipAt]
  · simp only [if_neg hx, Option.map_id_fun', id]
    obtain same | ⟨c, hc, slot, -⟩ := e.updateClip_slot x f h.slot
    · unfold Engine.clipAt
      rw [same]
    · have stale : (e.clips[h.slot]).gen ≠ h.gen := fun k => by
        have current := (Engine.clipAt_eq_some.mp hc).1
        simp only [← slot] at current
        exact hx (match h, x, slot, k.symm.trans current with | ⟨_, _⟩, ⟨_, _⟩, rfl, rfl => rfl)
      unfold Engine.clipAt
      rw [if_neg (gens ▸ stale), if_neg stale]

/-- The state of a clip's copy on a volume entry. -/
def Engine.copyState (e : Engine) (h : Handle) (v : Fin 16) : Option CopyState := ((e.clipAt h).bind (·.copyOn v)).map (·.state)

/-- The copy on a volume entry, after those on one of them are updated. -/
theorem Clip.copyOn_map {v w : Fin 16} (c : Clip) (f : CopyRecord → CopyRecord) (hf : ∀ r, (f r).volume = r.volume) :
    Clip.copyOn { c with copies := c.copies.map (fun r => if r.volume = v then f r else r) } w =
      (c.copyOn w).map (fun r => if w = v then f r else r) := by
  have found : (fun r : CopyRecord => decide (r.volume = w)) ∘ (fun r => if r.volume = v then f r else r) =
      fun r => decide (r.volume = w) := by
    funext r
    simp only [Function.comp]
    split
    · rw [hf]
    · rfl
  unfold Clip.copyOn
  rw [List.find?_map, found]
  cases hr : c.copies.find? (fun r => decide (r.volume = w)) with
  | none => rfl
  | some r =>
    have volume : r.volume = w := by simpa using List.find?_some hr
    simp [volume]

/-! ## What a COPY's stop leaves -/

/-- What a change that belongs to the stop of a lane's COPY keeps: the requeues that wait, the jobs and the contexts; no descriptor
is added; a lane that does not run stays so; and each copy of the clip keeps its state or is PARTIAL. -/
structure StopMoves (h : Handle) (l : Fin 2) (a b : Engine) : Prop where
  requeues : b.requeues = a.requeues
  jobs : b.jobs = a.jobs
  contexts : b.contexts = a.contexts
  slots : b.queue.map (·.slot) ⊆ a.queue.map (·.slot)
  freed : a.laneRun l = none → b.laneRun l = none
  copies : ∀ v s, a.copyState h v = some s → b.copyState h v = some s ∨ b.copyState h v = some .partialCopy

theorem StopMoves.refl (a : Engine) : StopMoves h l a a := ⟨rfl, rfl, rfl, List.Subset.refl _, id, fun _ _ => .inl⟩

theorem StopMoves.trans {c : Engine} (k : StopMoves h l a b) (m : StopMoves h l b c) : StopMoves h l a c where
  requeues := m.requeues.trans k.requeues
  jobs := m.jobs.trans k.jobs
  contexts := m.contexts.trans k.contexts
  slots := List.Subset.trans m.slots k.slots
  freed := m.freed ∘ k.freed
  copies v s hs := by
    obtain same | stopped := k.copies v s hs
    · exact m.copies v s same
    · exact .inr ((m.copies v _ stopped).elim id id)

/-- An empty queue stays so. -/
theorem StopMoves.drained (k : StopMoves h l a b) (hq : a.queue = []) : b.queue = [] :=
  List.map_eq_nil_iff.mp (List.subset_nil.mp (hq ▸ k.slots))

/-- A copy that is PARTIAL stays so. -/
theorem StopMoves.stopped (k : StopMoves h l a b) {v : Fin 16} (hv : a.copyState h v = some .partialCopy) :
    b.copyState h v = some .partialCopy := (k.copies v _ hv).elim id id

/-- A copy that the clip has stays. -/
theorem StopMoves.kept (k : StopMoves h l a b) {v : Fin 16} (hv : (a.copyState h v).isSome = true) : (b.copyState h v).isSome = true := by
  obtain ⟨s, hs⟩ := Option.isSome_iff_exists.mp hv
  obtain same | stopped := k.copies v s hs
  · rw [same]; rfl
  · rw [stopped]; rfl

/-- A change that leaves the clip records, the queue and the lanes too. -/
theorem StopMoves.but (k : StopMoves h l a e) (hb : b = { e with
    cards := b.cards, cardPorts := b.cardPorts, destPorts := b.destPorts, faults := b.faults, faultCounter := b.faultCounter,
    dropped := b.dropped, faultSerial := b.faultSerial, events := b.events, removed := b.removed }) : StopMoves h l a b := by
  rw [hb]
  exact ⟨k.requeues, k.jobs, k.contexts, k.slots, k.freed, k.copies⟩

theorem StopMoves.ite (k : StopMoves h l a e) {p : Prop} [Decidable p] {x : Engine} (hx : StopMoves h l a x) :
    StopMoves h l a (if p then x else e) := by
  split <;> assumption

theorem StopMoves.foldl {α : Type} {f : Engine → α → Engine} (hf : ∀ (e : Engine) (x : α), StopMoves h l a e → StopMoves h l a (f e x))
    (xs : List α) (k : StopMoves h l a e) : StopMoves h l a (xs.foldl f e) := by
  induction xs generalizing e with
  | nil => exact k
  | cons x xs ih => exact ih (hf e x k)

theorem StopMoves.signal (k : StopMoves h l a e) {ev : Event} : StopMoves h l a (e.signal ev) := k.but rfl

/-! ### Copy states and faults -/

/-- An update of a clip record that leaves its copies. -/
theorem StopMoves.updateClip (k : StopMoves h l a e) {x : Handle} {f : Clip → Clip}
    (hf : ∀ c, (f c).copies = c.copies := by exact fun _ => rfl) : StopMoves h l a (e.updateClip x f) := by
  refine k.trans ⟨by simp, by simp, by simp, by simp, fun hl => ?_, fun v s hs => .inl ?_⟩
  · unfold Engine.laneRun at *
    simpa using hl
  · have on : ∀ c, (f c).copyOn v = c.copyOn v := fun c => by
      unfold Clip.copyOn
      rw [hf]
    unfold Engine.copyState at *
    rw [Engine.updateClip_clipAt, ← hs]
    cases e.clipAt h with
    | none => rfl
    | some c =>
      simp only [Option.map_some, Option.bind_some]
      split
      · rw [on]
      · rfl

theorem StopMoves.recomputeCopyState (k : StopMoves h l a e) {x : Handle} : StopMoves h l a (e.recomputeCopyState x) := by
  unfold Engine.recomputeCopyState
  split
  · exact k.updateClip.ite k.updateClip.signal
  · exact k

theorem StopMoves.dropFault (k : StopMoves h l a e) {f : FaultInput} {s : Severity} : StopMoves h l a (e.dropFault f s) := by
  unfold Engine.dropFault
  split
  · exact k.updateClip
  · exact k.but rfl

theorem StopMoves.raiseFault (k : StopMoves h l a e) {f : FaultInput} : StopMoves h l a (e.raiseFault g f) := by
  rcases e.raiseFault_cases g f with ⟨-, r⟩ | ⟨x, -, ⟨-, r⟩ | ⟨-, r⟩⟩ | ⟨-, -, r⟩ | ⟨-, -, ⟨v, -, r⟩ | ⟨-, r⟩⟩ <;> rw [r]
  · exact k
  · exact k.but rfl
  · exact k.but rfl
  · exact k.but rfl
  · exact k.but rfl
  · exact k.dropFault

/-- The copies after those on one volume entry become PARTIAL. -/
theorem Engine.partialCopy_copyState (v w : Fin 16) :
    (e.updateCopy h v (fun r => { r with state := .partialCopy })).copyState h w =
      (e.copyState h w).map (fun s => if w = v then .partialCopy else s) := by
  unfold Engine.copyState Engine.updateCopy
  rw [Engine.updateClip_clipAt]
  cases e.clipAt h with
  | none => rfl
  | some c =>
    simp only [Option.map_some, Option.bind_some, if_pos]
    rw [Clip.copyOn_map c (fun r => { r with state := .partialCopy }) fun _ => rfl]
    cases c.copyOn w with
    | none => rfl
    | some r =>
      simp only [Option.map_some]
      split <;> rfl

theorem StopMoves.partialCopy (k : StopMoves h l a e) {v : Fin 16} : StopMoves h l a (e.setCopyState h v .partialCopy) := by
  refine StopMoves.recomputeCopyState (k.trans ⟨?_, ?_, ?_, ?_, ?_, fun w s hs => ?_⟩)
  case refine_6 =>
    rw [Engine.partialCopy_copyState, hs, Option.map_some]
    split
    · exact .inr rfl
    · exact .inl rfl
  all_goals simp [Engine.updateCopy, Engine.laneRun]

/-- A copy that is set PARTIAL is so. -/
theorem Engine.partialCopy_own {v : Fin 16} (hv : (e.copyState h v).isSome = true) :
    (e.setCopyState h v .partialCopy).copyState h v = some .partialCopy := by
  refine ((StopMoves.refl (l := 0) (e.updateCopy h v (fun r => { r with state := .partialCopy }))).recomputeCopyState).stopped ?_
  obtain ⟨s, hs⟩ := Option.isSome_iff_exists.mp hv
  rw [Engine.partialCopy_copyState, hs]
  simp

/-! ### Cards -/

theorem StopMoves.updateCard (k : StopMoves h l a e) {c : Fin 32} {f : CardRecord → CardRecord} : StopMoves h l a (e.updateCard c f) := by
  unfold Engine.updateCard
  split
  · exact k.but rfl
  · exact k

theorem StopMoves.setCardState (k : StopMoves h l a e) {c : Fin 32} {x : CardState} : StopMoves h l a (e.setCardState c x) := by
  unfold Engine.setCardState
  dsimp only
  split
  · exact k.updateCard.but rfl
  · exact k.updateCard

theorem StopMoves.recomputeCard (k : StopMoves h l a e) {c : Fin 32} : StopMoves h l a (e.recomputeCard c) := by
  obtain same | ⟨offloaded, -⟩ | ⟨x, set⟩ := e.recomputeCard_cases c
  · rwa [same]
  · have held := (k.setCardState (c := c) (x := .offloaded)).updateCard (c := c) (f := fun r => { r with heldByRequest := false })
    rw [offloaded]
    exact held.ite held.signal
  · rw [set]
    exact k.setCardState

theorem StopMoves.settleRelease (k : StopMoves h l a e) {c : Fin 32} : StopMoves h l a (e.settleRelease c) := by
  unfold Engine.settleRelease
  split
  · exact k.ite k.setCardState.signal
  · exact k

theorem StopMoves.settleRemoval (k : StopMoves h l a e) {d : Descriptor} : StopMoves h l a (e.settleRemoval d) := by
  unfold Engine.settleRemoval
  dsimp only
  split
  · exact k.recomputeCopyState.recomputeCard.settleRelease
  · exact k.recomputeCard.settleRelease

theorem StopMoves.recomputeHolds (k : StopMoves h l a e) {c : Fin 32} : StopMoves h l a (e.recomputeHolds c) := by
  unfold Engine.recomputeHolds
  split
  · exact ⟨k.requeues, k.jobs, k.contexts, by simpa [List.map_map, Function.comp_def, apply_ite] using k.slots, k.freed, k.copies⟩
  · exact k

theorem StopMoves.changeHolds (k : StopMoves h l a e) {c : Fin 32} {f : CardRecord → CardRecord} : StopMoves h l a (e.changeHolds c f) :=
  k.updateCard.recomputeHolds.recomputeCard

/-! ### The lane -/

theorem StopMoves.updateLane (k : StopMoves h l a e) {f : LaneRun → LaneRun} : StopMoves h l a (e.updateLane l f) := by
  rw [Engine.updateLane_frame]
  refine ⟨k.requeues, k.jobs, k.contexts, k.slots, fun hl => ?_, k.copies⟩
  exact (Engine.updateLane_laneRun f).trans (by rw [k.freed hl]; rfl)

/-- A lane that is released runs no more. -/
theorem Engine.releaseLane_laneRun : (e.releaseLane l).laneRun l = none := by
  unfold Engine.releaseLane Engine.laneRun
  simp only [Fin.getElem_fin, Vector.getElem_set_self]
  generalize Engine.inFlight _ _ = busy
  cases busy <;> rfl

theorem StopMoves.releaseLane (k : StopMoves h l a e) : StopMoves h l a (e.releaseLane l) := by
  have withdrawn : StopMoves h l a (e.withdraw (.lane l)) := .foldl (fun _ _ m => m.but rfl) _ k
  have given : StopMoves h l a ((List.finRange 4).foldl (fun (e : Engine) p => e.updatePort p (fun x =>
      { x with read := if x.read.map (·.lane) = some l then none else x.read })) (e.withdraw (.lane l))) :=
    .foldl (fun _ _ m => m.but rfl) _ withdrawn
  exact ⟨given.requeues, given.jobs, given.contexts, given.slots, fun _ => Engine.releaseLane_laneRun, given.copies⟩

theorem StopMoves.dropDescriptor (k : StopMoves h l a e) {x : Fin 64} : StopMoves h l a (e.dropDescriptor x) :=
  ⟨k.requeues, k.jobs, k.contexts, List.Subset.trans (List.filter_sublist.map _).subset k.slots, k.freed, k.copies⟩

end

/-! ## The COPY stops -/

section
variable {a e : Engine} {g : Settings} {h : Handle} {l : Fin 2} {run : LaneRun} {d : Descriptor}

theorem StopMoves.partialCopies {a : Engine} (k : StopMoves h l a e) (ts : List Target) :
    StopMoves h l a (ts.foldl (fun e t => e.setCopyState h t.entry .partialCopy) e) := .foldl (fun _ _ m => m.partialCopy) ts k

/-- Every copy of a list of targets is PARTIAL (R90). -/
theorem Engine.partialCopies_copyState {t : Target} {ts : List Target} (ht : t ∈ ts) (hv : (e.copyState h t.entry).isSome = true) :
    (ts.foldl (fun e t => e.setCopyState h t.entry .partialCopy) e).copyState h t.entry = some .partialCopy := by
  induction ts generalizing e with
  | nil => cases ht
  | cons x xs ih =>
    have first : StopMoves h 0 e (e.setCopyState h x.entry .partialCopy) := (StopMoves.refl e).partialCopy
    rcases List.mem_cons.mp ht with rfl | ht
    · exact ((StopMoves.refl (l := 0) _).partialCopies xs).stopped (Engine.partialCopy_own hv)
    · exact ih ht (first.kept hv)

/-- What a card-sourced COPY leaves that stops, the only work queued (R89, R90): no descriptor, its lane free, and its targets' copies
PARTIAL. -/
structure CopyStopped (h : Handle) (l : Fin 2) (run : LaneRun) (a b : Engine) : Prop where
  moves : StopMoves h l a b
  queue : b.queue = []
  lane : b.laneRun l = none
  copies : ∀ t ∈ run.targets, t.status.live = true → (a.copyState h t.entry).isSome = true → b.copyState h t.entry = some .partialCopy

theorem CopyStopped.trans {b c : Engine} (k : CopyStopped h l run a b) (m : StopMoves h l b c) : CopyStopped h l run a c where
  moves := k.moves.trans m
  queue := m.drained k.queue
  lane := m.freed k.lane
  copies t ht live hv := m.stopped (k.copies t ht live hv)

theorem CopyStopped.cardLost (hl : e.laneRun l = some run) (hq : e.queue = [d]) (hs : run.slot = d.slot) (hd : d.clip = some h) :
    CopyStopped h l run e (e.cardLost g l) := by
  have work : e.laneWork l = some (run, d) := Engine.laneWork_eq hl (by simp [Engine.descriptor, hq, hs])
  obtain ⟨x, hx, stopped⟩ : ∃ x, StopMoves h l ((run.targets.filter (fun t => t.status.live)).foldl
      (fun e t => e.setCopyState h t.entry .partialCopy) e) x ∧ e.cardLost g l = x.endDescriptor l d := by
    unfold Engine.cardLost Engine.stopCopy
    rw [work]
    dsimp only
    rw [hd]
    exact ⟨_, (StopMoves.refl _).updateLane.raiseFault, rfl⟩
  have marked : StopMoves h l e _ := (StopMoves.refl e).partialCopies (run.targets.filter (fun t => t.status.live))
  have settled : StopMoves h l (x.dropDescriptor d.slot) (e.cardLost g l) := by
    rw [stopped]
    exact (StopMoves.refl _).settleRemoval.releaseLane
  have ended := (hx.trans (StopMoves.refl x).dropDescriptor).trans settled
  refine ⟨marked.trans ended, settled.drained ?_, ?_, fun t ht live hv => ?_⟩
  · refine List.filter_eq_nil_iff.mpr fun y hy => ?_
    have slot := (marked.trans hx).slots (List.mem_map_of_mem hy)
    simpa [hq] using slot
  · rw [stopped]
    exact Engine.releaseLane_laneRun
  · exact ended.stopped (Engine.partialCopies_copyState (List.mem_filter.mpr ⟨ht, live⟩) hv)

/-! ## The port stalls -/

/-- What the last failed attempt of a read leaves at the port and at its card (R36). -/
structure ReadStalled (p : Fin 4) (card : Fin 32) (b : Engine) : Prop where
  state : (b.cardPorts[p]).state = .stalled
  read : (b.cardPorts[p]).read = none
  event : Event.ofCard .cardStalled card ∈ b.events
  card : (b.cards[card]).map (·.heldByStall) = some true

variable {p : Fin 4} {rd : CardRead}

/-- The port as it enters STALLED. -/
def Engine.stalledAt (e : Engine) (p : Fin 4) : Engine := e.updatePort p (fun x => { x with state := .stalled, read := none })

theorem Engine.stall_eq {card : Fin 32} (hc : e.cardAt p = some card) : e.stall g p rd =
    (((e.stalledAt p).cardLost g rd.lane).changeHolds card (fun x => { x with heldByStall := true })).signal
      (Event.ofCard .cardStalled card) := by
  have at_p : (e.updatePort p (fun x => { x with state := .stalled, read := none })).cardAt p = some card := hc
  unfold Engine.stall
  dsimp only
  rw [at_p]
  rfl

theorem Engine.stall_port {card : Fin 32} {r : CardRecord} (hc : e.cardAt p = some card) (hr : e.cards[card] = some r) :
    ReadStalled p card (e.stall g p rd) := by
  have lost : CardsQuiet (e.stalledAt p) ((e.stalledAt p).cardLost g rd.lane) := (Quiet.refl _).cardLost.cards
  have quiet : CardsQuiet (e.stalledAt p) (e.stall g p rd) := by
    rw [Engine.stall_eq hc]
    exact (Quiet.refl _).cardLost.changeHolds.signal.cards
  have state : ((e.stalledAt p).cardPorts[p]).state = .stalled := by simp [Engine.stalledAt, Engine.updatePort]
  have read : ((e.stalledAt p).cardPorts[p]).read = none := by simp [Engine.stalledAt, Engine.updatePort]
  refine ⟨(quiet.state p).trans state, ?_, ?_, ?_⟩
  · by_contra reads
    rcases quiet.read p (Option.isSome_iff_ne_none.mpr reads) with reading | attached
    · exact absurd read (Option.isSome_iff_ne_none.mp reading)
    · cases state.symm.trans attached
  · rw [Engine.stall_eq hc]
    exact List.mem_append_right _ (List.mem_singleton.mpr rfl)
  · obtain ⟨x, hx, -⟩ := exists_of_map_eq (lost.cards card).symm (show (e.stalledAt p).cards[card] = some r from hr)
    obtain ⟨y, k, held⟩ := Engine.changeHolds_own (fun x => { x with heldByStall := true }) hx
    rw [Engine.stall_eq hc]
    exact congrArg (Option.map (·.heldByStall)) held

theorem CopyStopped.stall (hc : e.cardAt p = some d.card) (hl : e.laneRun rd.lane = some run) (hq : e.queue = [d])
    (hs : run.slot = d.slot) (hd : d.clip = some h) : CopyStopped h rd.lane run e (e.stall g p rd) := by
  have lost : CopyStopped h rd.lane run (e.stalledAt p) ((e.stalledAt p).cardLost g rd.lane) := .cardLost hl hq hs hd
  have entered : StopMoves h rd.lane e (e.stalledAt p) := (StopMoves.refl e).but rfl
  have held : CopyStopped h rd.lane run (e.stalledAt p) (e.stall g p rd) := by
    rw [Engine.stall_eq hc]
    exact lost.trans (StopMoves.refl _).changeHolds.signal
  exact ⟨entered.trans held.moves, held.queue, held.lane, held.copies⟩

/-- The last attempt that a port's retries allow (R36). -/
theorem Engine.attemptFails_stalls (hn : (g.stall[p]).retries.val ≤ rd.attempt) : e.attemptFails g p rd = e.stall g p rd :=
  if_neg (Nat.not_lt.mpr hn)

end

/-- Settles O48: both ways in which the last attempt ends stall the port, and what a stall leaves is said port by port and copy by copy. -/
theorem exhaustedReadStallsThePort : Obligations.ExhaustedReadStallsThePort := by
  unfold Obligations.ExhaustedReadStallsThePort
  intro p rd run d h c r s hs read last at_p card lane queue slot clip at_h none_waits i hi
  obtain ⟨running, silent, -, renders⟩ := State.calm_parts hs
  obtain ⟨error, -, timer⟩ := Engine.attempt_ends (e := s.blocks) (g := s.settings) read
  have port : ReadStalled p d.card (s.blocks.stall s.settings p rd) := Engine.stall_port at_p card
  have copy : CopyStopped h rd.lane run s.blocks (s.blocks.stall s.settings p rd) := .stall at_p lane queue slot clip
  have settles : (s.blocks.attemptFails s.settings p rd).settleTransfer s.settings = s.blocks.stall s.settings p rd := by
    rw [Engine.attemptFails_stalls last]
    exact Engine.settleTransfer_like_done (e := s.blocks) renders copy.queue copy.moves.jobs copy.moves.contexts
  have steps : ∀ f : Settings → Engine → Engine, f s.settings s.blocks = s.blocks.stall s.settings p rd →
      ∃ t, Host.Outcome.next (φ := Fault) (ρ := Refusal) (s.run f) = .next t ∧ s.ranInPlace t ∧ t.engine = s.blocks.stall s.settings p rd :=
    fun f hf => State.run_silent running silent hf (.inr (copy.moves.requeues.trans none_waits))
  obtain ⟨t, ht, ran, he⟩ : ∃ t, exec i s = .next t ∧ s.ranInPlace t ∧ t.engine = s.blocks.stall s.settings p rd := by
    rcases List.mem_pair.mp hi with rfl | rfl
    · exact steps (fun g e => e.readArrives g p .error) (error.trans settles)
    · exact steps (fun g e => e.stallExpires g p) (timer.trans settles)
  rw [← he] at port copy
  refine ⟨t, ht, ran, copy.queue, copy.lane, port.state, port.read, port.event, port.card, fun x hx live y hy => ?_⟩
  refine copy.copies x hx live ?_
  show (((s.engine.clipAt h).bind (·.copyOn x.entry)).map (·.state)).isSome = true
  rw [at_h, Option.bind_some, hy]
  rfl

end Sys2Proof.Machine
end

