-- ==== Sys2Proof/Proofs/CheckValues.lean ====
section
/-! THEOREM. The check values of the CRCs and of the digest (R49, R84): O7. -/

namespace Sys2Proof.Machine

/-- Settles O7: each is a closed value, which the kernel evaluates. -/
theorem crcCheckValues : Obligations.CrcCheckValues := by
  unfold Obligations.CrcCheckValues
  exact ⟨by decide +kernel, by decide +kernel, by decide +kernel⟩

end Sys2Proof.Machine
end

