-- ==== Sys2Proof/Proofs/TakeParser.lean ====
section
/-!
SUPPORT. The walk of a parse by whole parts of a chunk (R42 to R60): a head, a payload by its walk state, and the chunk boundary with what
ends there. None of them depends on where the take is cut into blocks.
-/

namespace Sys2Proof.Machine

/-! ## Bytes and their numbers -/

theorem leBytes_length (n v : Nat) : (leBytes n v).length = n := by
  induction n generalizing v with
  | zero => rfl
  | succ n ih => simp [leBytes, ih]

/-- A number is read back from its bytes, least significant first. -/
theorem leValue_leBytes (n v : Nat) : leValue (leBytes n v) = v % 256 ^ n := by
  induction n generalizing v with
  | zero => simp [leBytes, leValue, Nat.mod_one]
  | succ n ih =>
    simp only [leBytes, leValue, ih, BitVec.toNat_ofNat, Nat.pow_succ']
    exact Nat.mod_mul.symm

/-- A field that ends within the first `m` bytes is read from these alone. -/
theorem field_take {bs : List Byte} {m i n : Nat} (h : i + n ≤ m) : field (bs.take m) i n = field bs i n := by
  unfold field
  rw [List.drop_take, List.take_take, Nat.min_eq_left (by omega)]

section
variable {tag : Text} {n : Nat}

theorem headTag_of (ht : tag.length = 4) : headTag (tag ++ leBytes 4 n) = tag := List.take_left' ht

theorem headLength_of (ht : tag.length = 4) (hn : n < 4294967296) : headLength (tag ++ leBytes 4 n) = n := by
  unfold headLength field
  rw [List.drop_left' ht, List.take_of_length_le (by rw [leBytes_length]), leValue_leBytes]
  exact Nat.mod_eq_of_lt hn

end

/-! ## Bytes after bytes -/

/-- A take cut into two blocks is walked as one (R54). -/
theorem Parse.block_append (p : Parse) (xs ys : List Byte) :
    p.block (xs ++ ys) = (((p.block xs).1.block ys).1, (p.block xs).2 ++ ((p.block xs).1.block ys).2) := by
  induction xs generalizing p with
  | nil => rfl
  | cons b bs ih => simp [Parse.block, ih]

section
variable {p : Parse}

/-- Before the take's last byte nothing ends (R58). -/
theorem Parse.finish_inside {outs : List ParseOut} (h : p.offset < p.byteLength) : p.finish outs = (p, outs) := if_neg (Nat.ne_of_lt h)

/-- The take end after a header outcome (R58). -/
theorem Parse.finish_decided {outs : List ParseOut} (h : p.offset = p.byteLength) (ho : p.outcome ≠ .pending) :
    p.finish outs = (p, outs ++ [.takeEnd (p.header.bind (·.declared))]) := by
  unfold Parse.finish
  rw [if_pos h]
  dsimp only
  split
  · next hp => exact absurd hp ho
  · rfl

/-- What the take end shows where the offset reaches it: before a header outcome, BAD_HEADER cause 5 too (R57, R58). -/
theorem Parse.finish_eq (within : p.offset ≤ p.byteLength) (hb : p.outcome = .pending → p.badRaised = false) (outs : List ParseOut) :
    (p.finish outs).1.walk = p.walk ∧
      (p.finish outs).2 = outs ++
        if p.offset < p.byteLength then [] else if p.outcome = .pending then [.headerInvalid 5, .takeEnd none]
        else [.takeEnd (p.header.bind (·.declared))] := by
  by_cases inside : p.offset < p.byteLength
  · simp [Parse.finish_inside inside, inside]
  · by_cases undecided : p.outcome = .pending
    · unfold Parse.finish
      rw [if_pos (by omega), if_neg inside, if_pos undecided]
      simp [undecided, Parse.badHeader, hb undecided]
    · rw [Parse.finish_decided (by omega) undecided, if_neg inside, if_neg undecided]
      exact ⟨rfl, rfl⟩

theorem Parse.finish_append (xs ys : List ParseOut) : p.finish (xs ++ ys) = ((p.finish ys).1, xs ++ (p.finish ys).2) := by
  unfold Parse.finish
  split
  · dsimp only
    split <;> simp
  · rfl

/-! ## A chunk head -/

/-- The walk stands at a chunk boundary (R42, R54). -/
structure Parse.AtHead (p : Parse) : Prop where
  walk : p.walk = .chunkHead
  head : p.head = []
  frame : p.frame = FrameInProgress.empty
  prefixed : p.awaitsPrefix = false

/-- The parse with some bytes of its next chunk head read. -/
def Parse.headRead (p : Parse) (xs : List Byte) : Parse :=
  { p with left := if p.offset = 0 then 0 else p.left, offset := p.offset + xs.length, head := xs }

/-- A byte of a head, once the walk has looked for a truncated chunk where the take begins (R51, R54). -/
theorem Parse.byte_head {q : Parse} (hq : (if p.offset = 0 then p.boundary else (p, [])) = (q, [])) (hw : q.walk = .chunkHead) (b : Byte) :
    p.byte b =
      let x : Parse := { q with offset := q.offset + 1 }
      let head := q.head ++ [b]
      if head.length < 8 then { x with head := head }.finish [] else (x.dispatch head).1.finish (x.dispatch head).2 := by
  unfold Parse.byte
  rw [hq]
  dsimp only
  rw [hw]
  dsimp only
  split <;> rfl

/-- The first byte of a head; the first of a take finds no truncated chunk where a whole head follows (R51). -/
theorem Parse.byte_first (h : p.AtHead) (room : p.offset + 8 ≤ p.byteLength) (b : Byte) : p.byte b = (p.headRead [b], []) := by
  have opening : (if p.offset = 0 then p.boundary else (p, [])) = ({ p with left := if p.offset = 0 then 0 else p.left }, []) := by
    split
    · next h0 =>
      unfold Parse.boundary
      dsimp only
      rw [if_pos (.inr (by omega)), h.walk.symm, h.frame.symm, h.prefixed.symm, h.head.symm]
    · rfl
  rw [Parse.byte_head opening h.walk, h.head]
  exact Parse.finish_inside (p := p.headRead [b]) (by show p.offset + 1 < p.byteLength; omega)

/-- The bytes of a head up to its seventh. -/
theorem Parse.block_head {xs ys : List Byte} (hw : p.walk = .chunkHead) (hx : xs ≠ []) (hl : (xs ++ ys).length < 8)
    (room : p.offset + 8 ≤ p.byteLength) : (p.headRead xs).block ys = (p.headRead (xs ++ ys), []) := by
  induction ys generalizing xs with
  | nil => simp [Parse.block]
  | cons b bs ih =>
    have short : (xs ++ [b]).length < 8 := by simp at hl ⊢; omega
    have begun : 0 < xs.length := List.length_pos_iff.mpr hx
    have byte : (p.headRead xs).byte b = (p.headRead (xs ++ [b]), []) := by
      rw [Parse.byte_head (p := p.headRead xs) (if_neg (by show ¬ p.offset + xs.length = 0; omega)) hw]
      refine (if_pos short).trans ((Parse.finish_inside ?_).trans ?_)
      · show p.offset + xs.length + 1 < p.byteLength
        simp at short
        omega
      · simp [Parse.headRead, Nat.add_assoc]
    unfold Parse.block
    rw [byte]
    dsimp only
    rw [ih (List.append_ne_nil_of_left_ne_nil hx _) (by simpa using hl), List.append_assoc]
    rfl

/-- The eighth byte of a head dispatches its chunk (R54). -/
theorem Parse.byte_eighth {xs : List Byte} {b : Byte} (hw : p.walk = .chunkHead) (hl : xs.length = 7) :
    (p.headRead xs).byte b =
      ((p.headRead (xs ++ [b])).dispatch (xs ++ [b])).1.finish ((p.headRead (xs ++ [b])).dispatch (xs ++ [b])).2 := by
  rw [Parse.byte_head (p := p.headRead xs) (if_neg (by show ¬ p.offset + xs.length = 0; omega)) hw]
  have same : { p.headRead xs with offset := (p.headRead xs).offset + 1 }.dispatch (xs ++ [b]) =
      (p.headRead (xs ++ [b])).dispatch (xs ++ [b]) := by
    unfold Parse.headRead
    rw [List.length_append]
    rfl
  rw [← same]
  exact if_neg (by show ¬ (xs ++ [b]).length < 8; simp [hl])

/-- A whole chunk head, walked from the boundary (R54). -/
theorem Parse.block_wholeHead (h : p.AtHead) (room : p.offset + 8 ≤ p.byteLength) {head : List Byte} (hl : head.length = 8) :
    p.block head = ((p.headRead head).dispatch head).1.finish ((p.headRead head).dispatch head).2 := by
  obtain ⟨b, mid, last, rfl, hm⟩ : ∃ b mid last, head = b :: (mid ++ [last]) ∧ mid.length = 6 := by
    obtain ⟨b, tail, rfl⟩ := List.exists_cons_of_length_eq_add_one hl
    have tails : tail ≠ [] := by rintro rfl; simp at hl
    exact ⟨b, tail.dropLast, tail.getLast tails, by rw [List.dropLast_append_getLast], by simpa using hl⟩
  have seven : ([b] ++ mid).length = 7 := by simp [hm]
  unfold Parse.block
  rw [Parse.byte_first h room]
  dsimp only
  rw [Parse.block_append, Parse.block_head h.walk (List.cons_ne_nil _ _) (by omega) room]
  simp only [Parse.block, List.nil_append, List.append_nil]
  exact Parse.byte_eighth h.walk seven

/-! ## A payload -/

/-- The walk is inside a payload. -/
def Parse.inPayload (p : Parse) : Prop := p.walk = .headerBody ∨ p.walk = .frameBody ∨ p.walk = .skipping

/-- A payload byte after another, before the payload is tested for its end. -/
def Parse.payload (p : Parse) : List Byte → Parse × List ParseOut
  | [] => (p, [])
  | b :: bs => (((p.payloadByte b).1.payload bs).1, (p.payloadByte b).2 ++ ((p.payloadByte b).1.payload bs).2)

/-- A payload byte does not look at the offset or at the bytes left. -/
theorem Parse.payloadByte_at (o n : Nat) (b : Byte) :
    ({ p with offset := o, left := n }).payloadByte b = ({ (p.payloadByte b).1 with offset := o, left := n }, (p.payloadByte b).2) := by
  unfold Parse.payloadByte
  dsimp only
  split
  · rfl
  · split <;> rfl
  · split
    · split <;> rfl
    · rfl
  · rfl

theorem Parse.payload_at (o n : Nat) (bs : List Byte) :
    ({ p with offset := o, left := n }).payload bs = ({ (p.payload bs).1 with offset := o, left := n }, (p.payload bs).2) := by
  induction bs generalizing p with
  | nil => rfl
  | cons b bs ih => simp only [Parse.payload, Parse.payloadByte_at, ih]

/-- What a payload byte leaves. -/
theorem Parse.payloadByte_frame (b : Byte) : (p.payloadByte b).1 =
    { p with body := (p.payloadByte b).1.body, frame := (p.payloadByte b).1.frame, awaitsPrefix := (p.payloadByte b).1.awaitsPrefix } := by
  unfold Parse.payloadByte
  dsimp only
  split
  · rfl
  · split <;> rfl
  · split
    · split <;> rfl
    · rfl
  · rfl

@[simp] theorem Parse.payloadByte_walk (b : Byte) : (p.payloadByte b).1.walk = p.walk := by rw [Parse.payloadByte_frame]
@[simp] theorem Parse.payloadByte_byteLength (b : Byte) : (p.payloadByte b).1.byteLength = p.byteLength := by rw [Parse.payloadByte_frame]
@[simp] theorem Parse.payloadByte_left (b : Byte) : (p.payloadByte b).1.left = p.left := by rw [Parse.payloadByte_frame]

/-- A payload ends at an offset, with what has been found before (R54, R58). -/
def Parse.closeAt (p : Parse) (o : Nat) (outs : List ParseOut) : Parse × List ParseOut :=
  let q : Parse := { p with offset := o, left := 0 }
  q.payloadEnd.1.finish (outs ++ q.payloadEnd.2)

theorem Parse.closeAt_append (o : Nat) (xs ys : List ParseOut) :
    p.closeAt o (xs ++ ys) = ((p.closeAt o ys).1, xs ++ (p.closeAt o ys).2) := by
  unfold Parse.closeAt
  dsimp only
  rw [List.append_assoc, Parse.finish_append]

/-- A byte inside a payload (R54). -/
theorem Parse.byte_inPayload (hp : p.inPayload) (ho : 0 < p.offset) (b : Byte) :
    p.byte b =
      if p.left - 1 = 0 then (p.payloadByte b).1.closeAt (p.offset + 1) (p.payloadByte b).2
      else { (p.payloadByte b).1 with offset := p.offset + 1, left := p.left - 1 }.finish (p.payloadByte b).2 := by
  have moved := Parse.payloadByte_at (p := p) (p.offset + 1) p.left b
  unfold Parse.byte
  rw [if_neg (by omega)]
  dsimp only
  rw [moved]
  rcases hp with hw | hw | hw
  all_goals
    rw [hw]
    dsimp only
    by_cases last : p.left - 1 = 0
    · rw [if_pos last, if_pos last, last]
      rfl
    · rw [if_neg last, if_neg last]
      rfl

/-- A whole payload, walked to its end (R54). -/
theorem Parse.block_payload {xs : List Byte} (hp : p.inPayload) (ho : 0 < p.offset) (hl : p.left = xs.length) (hx : xs ≠ [])
    (fits : p.offset + xs.length ≤ p.byteLength) :
    p.block xs = (p.payload xs).1.closeAt (p.offset + xs.length) (p.payload xs).2 := by
  induction xs generalizing p with
  | nil => exact absurd rfl hx
  | cons b bs ih =>
    have byte := Parse.byte_inPayload hp ho b
    simp only [List.length_cons] at hl fits
    rw [show p.left - 1 = bs.length by omega] at byte
    unfold Parse.block Parse.payload
    rw [byte]
    cases bs with
    | nil => simp [Parse.block, Parse.payload]
    | cons b' bs =>
      simp only [List.length_cons] at fits
      let next : Parse := { (p.payloadByte b).1 with offset := p.offset + 1, left := (b' :: bs).length }
      have inside : next.offset + (b' :: bs).length ≤ next.byteLength := by
        simp only [next, Parse.payloadByte_byteLength, List.length_cons]
        omega
      have rest := ih (p := next) (by simpa [Parse.inPayload, next] using hp) (Nat.succ_pos _) rfl
        (List.cons_ne_nil _ _) inside
      rw [if_neg (by simp), Parse.finish_inside (by simp only [Parse.payloadByte_byteLength]; omega)]
      dsimp only
      rw [rest, Parse.payload_at, Parse.closeAt_append]
      simp only [next, List.length_cons, Nat.add_assoc, Nat.add_comm 1]
      rfl

/-! ## A payload by its walk state -/

/-- Of a TKHD payload the first 29 bytes are kept (R43). -/
theorem Parse.payload_headerBody (hw : p.walk = .headerBody) (hb : p.body.length ≤ 29) (xs : List Byte) :
    p.payload xs = ({ p with body := (p.body ++ xs).take 29 }, []) := by
  induction xs generalizing p with
  | nil => simp [Parse.payload, List.take_of_length_le hb]
  | cons b bs ih =>
    have byte : p.payloadByte b = ({ p with body := if p.body.length < 29 then p.body ++ [b] else p.body }, []) := by
      unfold Parse.payloadByte
      rw [hw]
      rfl
    unfold Parse.payload
    rw [byte]
    by_cases short : p.body.length < 29
    · simp only [if_pos short]
      rw [ih (p := { p with body := p.body ++ [b] }) hw (by simp; omega)]
      simp
    · have full : p.body.length = 29 := by omega
      simp only [if_neg short]
      rw [ih (p := { p with body := p.body }) hw hb, List.take_left' full, List.take_left' full]
      rfl

/-- A frame that passed the size check is fed byte by byte (R47 to R49). -/
theorem Parse.payload_frameBody {h : Header} (hw : p.walk = .frameBody) (hh : p.header = some h) (xs : List Byte) :
    p.payload xs = ({ p with frame := xs.foldl (fun f b => f.feed h.depth b) p.frame }, []) := by
  induction xs generalizing p with
  | nil => rfl
  | cons b bs ih =>
    have byte : p.payloadByte b = ({ p with frame := p.frame.feed h.depth b }, []) := by
      unfold Parse.payloadByte
      rw [hw]
      dsimp only
      rw [hh]
    unfold Parse.payload
    rw [byte, ih (p := { p with frame := p.frame.feed h.depth b }) hw hh]
    rfl

/-- A chunk that is passed over shows nothing (R50). -/
theorem Parse.payload_skipping (hw : p.walk = .skipping) (ha : p.awaitsPrefix = false) (xs : List Byte) : p.payload xs = (p, []) := by
  have byte : ∀ b, p.payloadByte b = (p, []) := fun b => by
    unfold Parse.payloadByte
    rw [hw]
    dsimp only
    rw [ha]
    rfl
  induction xs with
  | nil => rfl
  | cons b bs ih =>
    unfold Parse.payload
    rw [byte]
    dsimp only
    rw [ih]
    rfl

/-- A frame that failed the size check shows its heading bytes as the twelfth one passes (R60). -/
theorem Parse.payload_prefix (hw : p.walk = .skipping) (ha : p.awaitsPrefix = true) {xs : List Byte}
    (short : p.frame.prefixBytes.length < 12) (whole : 12 ≤ p.frame.prefixBytes.length + xs.length) :
    ∃ f, p.payload xs = ({ p with frame := f, awaitsPrefix := false },
      [.sizePrefix (prefixNumber ((p.frame.prefixBytes ++ xs).take 12)) (prefixTimecode ((p.frame.prefixBytes ++ xs).take 12))]) := by
  induction xs generalizing p with
  | nil => simp at whole; omega
  | cons b bs ih =>
    have byte : p.payloadByte b =
        if (p.frame.prefixBytes ++ [b]).length < 12 then
          ({ p with frame := { p.frame with prefixBytes := p.frame.prefixBytes ++ [b] } }, [])
        else ({ p with awaitsPrefix := false },
          [.sizePrefix (prefixNumber (p.frame.prefixBytes ++ [b])) (prefixTimecode (p.frame.prefixBytes ++ [b]))]) := by
      unfold Parse.payloadByte
      rw [hw]
      dsimp only
      rw [ha]
      rfl
    simp only [List.length_cons] at whole
    unfold Parse.payload
    rw [byte]
    by_cases more : (p.frame.prefixBytes ++ [b]).length < 12
    · rw [if_pos more]
      obtain ⟨f, hf⟩ := ih (p := { p with frame := { p.frame with prefixBytes := p.frame.prefixBytes ++ [b] } }) hw ha more
        (by simp; omega)
      refine ⟨f, ?_⟩
      dsimp only at hf ⊢
      rw [hf]
      simp
    · have twelve : (p.frame.prefixBytes ++ [b]).length = 12 := by simp at more ⊢; omega
      rw [if_neg more]
      dsimp only
      rw [Parse.payload_skipping (p := { p with awaitsPrefix := false }) hw rfl]
      refine ⟨p.frame, ?_⟩
      rw [show p.frame.prefixBytes ++ b :: bs = (p.frame.prefixBytes ++ [b]) ++ bs by simp, List.take_left' twelve]
      rfl

end

/-! ## The bytes of a frame -/

section
variable {f : FrameInProgress} {d : Depth} {bs : List Byte}

/-- The twelve bytes that head a frame (R47). -/
theorem FrameInProgress.feed_prefix (h : f.prefixBytes.length + bs.length ≤ 12) :
    bs.foldl (fun f b => f.feed d b) f = { f with prefixBytes := f.prefixBytes ++ bs } := by
  induction bs generalizing f with
  | nil => simp
  | cons b bs ih =>
    simp only [List.length_cons] at h
    have fed : f.feed d b = { f with prefixBytes := f.prefixBytes ++ [b] } := if_pos (by unfold framePrefix; omega)
    rw [List.foldl_cons, fed, ih (by simp; omega)]
    simp

/-- Bytes that complete no pixel. -/
theorem FrameInProgress.feed_partial (hp : 12 ≤ f.prefixBytes.length) (h : f.pixelBytes.length + bs.length < d.bytes) :
    bs.foldl (fun f b => f.feed d b) f = { f with crc := crcBytes polyHigh f.crc bs, pixelBytes := f.pixelBytes ++ bs } := by
  induction bs generalizing f with
  | nil => simp [crcBytes]
  | cons b bs ih =>
    simp only [List.length_cons] at h
    have fed : f.feed d b = { f with crc := crcByte polyHigh f.crc b, pixelBytes := f.pixelBytes ++ [b] } := by
      unfold FrameInProgress.feed
      rw [if_neg (by unfold framePrefix; omega)]
      exact if_pos (by simp; omega)
    rw [List.foldl_cons, fed, ih (f := { f with crc := crcByte polyHigh f.crc b, pixelBytes := f.pixelBytes ++ [b] }) hp (by simp; omega)]
    simp [crcBytes]

/-- The bytes of one pixel (R47, R48). -/
theorem FrameInProgress.feed_pixel (hp : 12 ≤ f.prefixBytes.length) (he : f.pixelBytes = []) (h : bs.length = d.bytes) :
    bs.foldl (fun f b => f.feed d b) f = { f with
      crc := crcBytes polyHigh f.crc bs, pixels := (decodePixel d bs).1 :: f.pixels,
      bad := f.bad + if (decodePixel d bs).2 then 1 else 0 } := by
  have some_byte : bs ≠ [] := by rintro rfl; cases d <;> cases h
  obtain ⟨xs, b, rfl⟩ : ∃ xs b, bs = xs ++ [b] := ⟨_, _, (List.dropLast_append_getLast some_byte).symm⟩
  have count : xs.length + 1 = d.bytes := by simpa using h
  rw [List.foldl_append, FrameInProgress.feed_partial hp (by rw [he]; simp; omega), he]
  simp only [List.foldl_cons, List.foldl_nil, List.nil_append]
  unfold FrameInProgress.feed
  rw [if_neg (by unfold framePrefix; exact Nat.not_lt.mpr hp)]
  dsimp only
  rw [if_neg (by simp; omega)]
  simp [crcBytes]

/-- The pixels stored one after another from the first of some bytes on, each with the mark of a bad pixel word (R47, R48). -/
def storedPixels (d : Depth) (n : Nat) (data : List Byte) : List (Rgb × Bool) :=
  (List.range n).map (fun k => decodePixel d ((data.drop (k * d.bytes)).take d.bytes))

theorem storedPixels_succ (d : Depth) (n : Nat) (data : List Byte) :
    storedPixels d (n + 1) data = decodePixel d (data.take d.bytes) :: storedPixels d n (data.drop d.bytes) := by
  unfold storedPixels
  rw [List.range_succ_eq_map]
  simp [Nat.succ_mul, Nat.add_comm]

/-- The bytes of whole pixels (R47 to R49). -/
theorem FrameInProgress.feed_pixels {n : Nat} (hp : 12 ≤ f.prefixBytes.length) (he : f.pixelBytes = []) (h : bs.length = n * d.bytes) :
    bs.foldl (fun f b => f.feed d b) f = { f with
      crc := crcBytes polyHigh f.crc bs
      pixels := ((storedPixels d n bs).map (·.1)).reverse ++ f.pixels
      bad := f.bad + ((storedPixels d n bs).filter (·.2)).length } := by
  induction n generalizing f bs with
  | zero =>
    obtain rfl : bs = [] := List.length_eq_zero_iff.mp (by simpa using h)
    simp [storedPixels, crcBytes]
  | succ n ih =>
    rw [Nat.succ_mul] at h
    have first : (bs.take d.bytes).length = d.bytes := by simp; omega
    have both := List.take_append_drop d.bytes bs
    rw [storedPixels_succ]
    generalize hx : bs.take d.bytes = x at *
    generalize hy : bs.drop d.bytes = y at *
    rw [← both, List.foldl_append, FrameInProgress.feed_pixel hp he first]
    rw [ih (f := { f with crc := crcBytes polyHigh f.crc x, pixels := (decodePixel d x).1 :: f.pixels, bad := _ }) hp he
      (by rw [← both] at h; simp at h; omega)]
    cases hb : (decodePixel d x).2 <;> simp [hb, crcBytes, List.foldl_append, Nat.add_assoc, Nat.add_comm]

/-- A whole frame, from its empty state (R46 to R49). -/
theorem FrameInProgress.feed_frame {n : Nat} {pre data : List Byte} (hp : pre.length = 12) (hd : data.length = n * d.bytes) :
    (pre ++ data).foldl (fun f b => f.feed d b) FrameInProgress.empty =
      ⟨pre, crcBytes polyHigh crcOnes data, ((storedPixels d n data).filter (·.2)).length, ((storedPixels d n data).map (·.1)).reverse, []⟩ := by
  rw [List.foldl_append, FrameInProgress.feed_prefix (bs := pre) (by simp [FrameInProgress.empty, hp]),
    FrameInProgress.feed_pixels (f := { FrameInProgress.empty with prefixBytes := FrameInProgress.empty.prefixBytes ++ pre })
      (by simp [FrameInProgress.empty, hp]) rfl hd]
  simp [FrameInProgress.empty]

end

end Sys2Proof.Machine
end

