-- ==== Sys2Proof/Proofs/TakeWalk.lean ====
section
/-!
THEOREM. The walk of a parse, chunk by chunk (R42 to R60): O9.
-/

namespace Sys2Proof.Machine

section
variable {p : Parse}

/-! ## The header, read from its first bytes -/

/-- A TKHD is read for no byte past its 29th (R43). -/
theorem readHeader_take (bs : List Byte) : readHeader (bs.take 29) = readHeader bs := by
  have fields : ∀ {i n}, i + n ≤ 29 → field (bs.take 29) i n = field bs i n := field_take
  have whole : ∀ m, m ≤ 29 → ((bs.take 29).length < m ↔ bs.length < m) := fun m hm => by simp; omega
  have scene : ((bs.take 29).drop 12).take 8 = (bs.drop 12).take 8 := by
    rw [List.drop_take, List.take_take]
    rfl
  have size : headerSize (field bs 0 2) ≤ 29 := by unfold headerSize; split <;> omega
  have same : headerFields (field bs 0 2) (bs.take 29) = headerFields (field bs 0 2) bs := by
    unfold headerFields rateField depthField dropField declaredField startField
    simp only [fields (show 2 + 2 ≤ 29 by omega), fields (show 4 + 2 ≤ 29 by omega), fields (show 6 + 2 ≤ 29 by omega),
      fields (show 8 + 1 ≤ 29 by omega), fields (show 9 + 1 ≤ 29 by omega), fields (show 10 + 1 ≤ 29 by omega),
      fields (show 11 + 1 ≤ 29 by omega), fields (show 20 + 1 ≤ 29 by omega), fields (show 21 + 1 ≤ 29 by omega),
      fields (show 22 + 1 ≤ 29 by omega), fields (show 23 + 1 ≤ 29 by omega), fields (show 24 + 1 ≤ 29 by omega),
      fields (show 25 + 4 ≤ 29 by omega), scene]
  unfold readHeader
  rw [fields (by omega)]
  dsimp only
  rw [same]
  simp only [whole 2 (by omega), whole _ size]

/-! ## The end of a chunk -/

/-- The parse at the boundary after a chunk (R42, R51). -/
def Parse.rested (p : Parse) : Parse :=
  { p with
    walk := if 0 < p.byteLength - p.offset ∧ p.byteLength - p.offset < 8 then .ended else .chunkHead
    head := [], left := 0, frame := FrameInProgress.empty, awaitsPrefix := false }

/-- What the boundary after a chunk shows: the take end, or a truncated chunk (R42, R51, R58). -/
def Parse.afterChunk (p : Parse) : List ParseOut :=
  if p.byteLength - p.offset = 0 then [.takeEnd (p.header.bind (·.declared))]
  else if p.byteLength - p.offset < 8 then [.truncated (8 - (p.byteLength - p.offset))] else []

theorem Parse.boundary_eq : p.boundary = (p.rested,
    if 0 < p.byteLength - p.offset ∧ p.byteLength - p.offset < 8 then [.truncated (8 - (p.byteLength - p.offset))] else []) := by
  unfold Parse.boundary Parse.rested
  dsimp only
  by_cases cut : 0 < p.byteLength - p.offset ∧ p.byteLength - p.offset < 8
  · rw [if_neg (by omega), if_pos cut, if_pos cut]
  · rw [if_pos (by omega), if_neg cut, if_neg cut]

theorem Parse.boundary_finish (fits : p.offset ≤ p.byteLength) (ho : p.outcome ≠ .pending) (outs : List ParseOut) :
    p.boundary.1.finish (outs ++ p.boundary.2) = (p.rested, outs ++ p.afterChunk) := by
  rw [Parse.boundary_eq]
  dsimp only
  unfold Parse.afterChunk
  by_cases last : p.byteLength - p.offset = 0
  · rw [if_neg (by omega), if_pos last, Parse.finish_decided (p := p.rested) (by show p.offset = p.byteLength; omega) ho]
    simp [Parse.rested]
  · rw [if_neg last, Parse.finish_inside (p := p.rested) (by show p.offset < p.byteLength; omega)]
    simp [Nat.pos_of_ne_zero last]

section
variable {o : Nat} {outs : List ParseOut}

/-- A chunk that was passed over ends. -/
theorem Parse.closeAt_skipping (hw : p.walk = .skipping) (fits : o ≤ p.byteLength) (ho : p.outcome ≠ .pending) :
    p.closeAt o outs = ({ p with offset := o }.rested, outs ++ { p with offset := o }.afterChunk) := by
  have ends : { p with offset := o, left := 0 }.payloadEnd = { p with offset := o, left := 0 }.boundary := by
    unfold Parse.payloadEnd
    simp only [hw]
  unfold Parse.closeAt
  dsimp only
  rw [ends]
  exact Parse.boundary_finish (p := { p with offset := o, left := 0 }) fits ho outs

/-- A TKHD that is valid ends: the header outcome VALID (R55). -/
theorem Parse.closeAt_header {h : Header} (hw : p.walk = .headerBody) (hr : readHeader p.body = .ok h) (fits : o ≤ p.byteLength) :
    p.closeAt o outs =
      let q : Parse := { p with offset := o, header := some h, outcome := .valid }
      (q.rested, outs ++ .headerValid h :: q.afterChunk) := by
  let q : Parse := { p with offset := o, left := 0, header := some h, outcome := .valid }
  have ends : { p with offset := o, left := 0 }.payloadEnd = (q.boundary.1, .headerValid h :: q.boundary.2) := by
    unfold Parse.payloadEnd
    simp only [hw, hr]
    rfl
  unfold Parse.closeAt
  dsimp only
  rw [ends, List.append_cons, Parse.boundary_finish (p := q) fits (by nofun)]
  simp
  exact ⟨rfl, rfl⟩

/-- A TKHD that is not valid ends: the header outcome INVALID (R44, R55). -/
theorem Parse.closeAt_badHeader {cause : Nat} (hw : p.walk = .headerBody) (hr : readHeader p.body = .error cause) (hb : p.badRaised = false)
    (fits : o ≤ p.byteLength) :
    p.closeAt o outs =
      let q : Parse := { p with offset := o, header := none, outcome := .invalid, badRaised := true }
      (q.rested, outs ++ .headerInvalid cause :: q.afterChunk) := by
  let q : Parse := { p with offset := o, left := 0, header := none, outcome := .invalid, badRaised := true }
  have ends : { p with offset := o, left := 0 }.payloadEnd = (q.boundary.1, .headerInvalid cause :: q.boundary.2) := by
    unfold Parse.payloadEnd
    simp only [hw, hr]
    unfold Parse.badHeader
    simp only [hb]
    rfl
  unfold Parse.closeAt
  dsimp only
  rw [ends, List.append_cons, Parse.boundary_finish (p := q) fits (by nofun)]
  simp
  exact ⟨rfl, rfl⟩

/-- A frame that passed the size check ends (R56). -/
theorem Parse.closeAt_frame {h : Header} (hw : p.walk = .frameBody) (hh : p.header = some h) (ho : p.outcome ≠ .pending)
    (fits : o ≤ p.byteLength) :
    p.closeAt o outs =
      let pre := p.frame.prefixBytes
      let check := crcFinal p.frame.crc
      let q : Parse := { p with offset := o, previous := some ⟨prefixNumber pre, prefixTimecode pre, check⟩ }
      (q.rested, outs ++ .frame (prefixNumber pre) (prefixTimecode pre) (prefixCheck pre) check p.frame.bad p.frame.pixels.reverse h
        p.previous :: q.afterChunk) := by
  let q : Parse := { p with
    offset := o, left := 0
    previous := some ⟨prefixNumber p.frame.prefixBytes, prefixTimecode p.frame.prefixBytes, crcFinal p.frame.crc⟩ }
  have ends : { p with offset := o, left := 0 }.payloadEnd = (q.boundary.1,
      .frame (prefixNumber p.frame.prefixBytes) (prefixTimecode p.frame.prefixBytes) (prefixCheck p.frame.prefixBytes)
        (crcFinal p.frame.crc) p.frame.bad p.frame.pixels.reverse h p.previous :: q.boundary.2) := by
    unfold Parse.payloadEnd
    simp only [q, hw, hh]
  unfold Parse.closeAt
  dsimp only
  rw [ends, List.append_cons, Parse.boundary_finish (p := q) fits ho]
  simp
  exact ⟨rfl, rfl⟩

end

/-! ## A whole chunk -/

/-- The walk states of a payload. -/
def WalkState.ofPayload (w : WalkState) : Prop := w = .headerBody ∨ w = .frameBody ∨ w = .skipping

/-- The parse as its payload begins (R54). -/
def Parse.entered (p : Parse) (w : WalkState) (n : Nat) : Parse := { p with walk := w, left := n, body := [] }

/-- A payload from its first byte on; one of no bytes is at its end at once (R54). -/
theorem Parse.enter_block {w : WalkState} {xs : List Byte} {outs : List ParseOut} (hw : w.ofPayload) (ho : 0 < p.offset)
    (fits : p.offset + xs.length ≤ p.byteLength) :
    let f := (p.enter w xs.length).1.finish (outs ++ (p.enter w xs.length).2)
    let q := (p.entered w xs.length).payload xs
    ((f.1.block xs).1, f.2 ++ (f.1.block xs).2) = q.1.closeAt (p.offset + xs.length) (outs ++ q.2) := by
  cases xs with
  | nil =>
    simp only [Parse.block, Parse.payload, List.append_nil]
    rfl
  | cons b bs =>
    have enters : p.enter w (b :: bs).length = (p.entered w (b :: bs).length, []) := by
      unfold Parse.enter
      exact if_neg (Nat.succ_ne_zero _)
    have within : (p.entered w (b :: bs).length).inPayload := hw
    have inside : (p.entered w (b :: bs).length).offset < (p.entered w (b :: bs).length).byteLength := by
      simp only [List.length_cons] at fits
      show p.offset < p.byteLength
      omega
    dsimp only
    rw [enters, List.append_nil, Parse.finish_inside inside, Parse.block_payload within ho rfl (List.cons_ne_nil _ _) fits]
    exact (Parse.closeAt_append _ _ _).symm

/-- A whole chunk, walked from its boundary: its dispatch, its payload, its end. -/
theorem Parse.block_chunk (h : p.AtHead) {head xs : List Byte} (hl : head.length = 8) (fits : p.offset + 8 + xs.length ≤ p.byteLength)
    {q : Parse} {w : WalkState} {outs : List ParseOut}
    (hd : (p.headRead head).dispatch head = ((q.enter w xs.length).1, outs ++ (q.enter w xs.length).2)) (hw : w.ofPayload)
    (ho : q.offset = p.offset + 8) (hb : q.byteLength = p.byteLength) :
    p.block (head ++ xs) =
      ((q.entered w xs.length).payload xs).1.closeAt (p.offset + 8 + xs.length) (outs ++ ((q.entered w xs.length).payload xs).2) := by
  rw [Parse.block_append, Parse.block_wholeHead h (by omega) hl, hd]
  rw [← ho, ← Parse.enter_block hw (by omega) (by omega)]

/-- The parse as its next chunk is dispatched. -/
def Parse.dispatched (p : Parse) : Parse :=
  { p with left := if p.offset = 0 then 0 else p.left, offset := p.offset + 8, chunkIndex := p.chunkIndex + 1, head := [] }

/-- The parse as a first chunk with another tag than TKHD is dispatched (R57). -/
def Parse.refused (p : Parse) : Parse := { p.dispatched with header := none, outcome := .invalid, badRaised := true }

/-- The head of a chunk. -/
def chunkHead (tag : Text) (n : Nat) : List Byte := tag ++ leBytes 4 n

section
variable {tag : Text} {n : Nat}

theorem chunkHead_length (ht : tag.length = 4) : (chunkHead tag n).length = 8 := by simp [chunkHead, ht, leBytes_length]

/-- The first chunk is dispatched with another tag than TKHD (R45, R57). -/
theorem Parse.dispatch_foreign (ht : tag.length = 4) (hn : n < 4294967296) (first : p.chunkIndex = 0) (hb : p.badRaised = false)
    (foreign : tag ≠ tagTkhd) :
    (p.headRead (chunkHead tag n)).dispatch (chunkHead tag n) =
      if p.byteLength < p.offset + 8 + n then
        ({ p.refused with walk := .ended }, [.headerInvalid 4, .truncated (p.offset + 8 + n - p.byteLength)])
      else ((p.refused.enter .skipping n).1, [.headerInvalid 4] ++ (p.refused.enter .skipping n).2) := by
  unfold Parse.dispatch Parse.headRead
  rw [chunkHead_length ht]
  unfold chunkHead
  rw [headTag_of ht, headLength_of ht hn]
  simp only [first, hb, foreign, Parse.badHeader, Parse.refused, Parse.dispatched, decide_true, ne_eq, not_false_eq_true, Bool.and_self, if_true,
    decide_false, Bool.and_false, Bool.false_eq_true, if_false]
  rfl

/-- The first chunk is dispatched as a TKHD (R43, R45). -/
theorem Parse.dispatch_tkhd (hn : n < 4294967296) (first : p.chunkIndex = 0) :
    (p.headRead (chunkHead tagTkhd n)).dispatch (chunkHead tagTkhd n) =
      if p.byteLength < p.offset + 8 + n then
        ({ p.dispatched with walk := .ended }, [.truncated (p.offset + 8 + n - p.byteLength)])
      else p.dispatched.enter .headerBody n := by
  have ht : tagTkhd.length = 4 := rfl
  unfold Parse.dispatch Parse.headRead
  rw [chunkHead_length ht]
  unfold chunkHead
  rw [headTag_of ht, headLength_of ht hn]
  simp only [first, Parse.dispatched]
  rfl

/-- A later chunk is dispatched (R46, R50). -/
theorem Parse.dispatch_later (ht : tag.length = 4) (hn : n < 4294967296) (later : 0 < p.chunkIndex) :
    (p.headRead (chunkHead tag n)).dispatch (chunkHead tag n) =
      if p.byteLength < p.offset + 8 + n then
        ({ p.dispatched with walk := .ended }, [.truncated (p.offset + 8 + n - p.byteLength)])
      else
        match p.header with
        | some h =>
          if tag = tagFram then
            if n = h.frameLength then p.dispatched.enter .frameBody n
            else
              let q : Parse := { p.dispatched with awaitsPrefix := decide (framePrefix ≤ n) }
              ((q.enter .skipping n).1, .frameSize ((n : Int) - h.frameLength) :: (q.enter .skipping n).2)
          else p.dispatched.enter .skipping n
        | none => p.dispatched.enter .skipping n := by
  have index : decide (p.chunkIndex = 0) = false := decide_eq_false (by omega)
  unfold Parse.dispatch Parse.headRead
  rw [chunkHead_length ht]
  unfold chunkHead
  rw [headTag_of ht, headLength_of ht hn]
  simp only [index, Parse.dispatched]
  rfl

end

/-! ## Chunks by kind -/

/-- The parse `x` stands where the chunk of `n` payload bytes ends that begins at the boundary of `p`. -/
structure Parse.ChunkWalked (p : Parse) (n : Nat) (x : Parse) : Prop where
  byteLength : x.byteLength = p.byteLength
  offset : x.offset = p.offset + 8 + n
  index : x.chunkIndex = p.chunkIndex + 1

theorem Parse.ChunkWalked.walk {x : Parse} {n : Nat} (h : p.ChunkWalked n x) : x.rested.walk =
    if 0 < p.byteLength - (p.offset + 8 + n) ∧ p.byteLength - (p.offset + 8 + n) < 8 then .ended else .chunkHead := by
  rw [← h.byteLength, ← h.offset]
  rfl

theorem Parse.ChunkWalked.after {x : Parse} {n : Nat} (h : p.ChunkWalked n x) : x.afterChunk =
    if p.byteLength - (p.offset + 8 + n) = 0 then [.takeEnd (x.rested.header.bind (·.declared))]
    else if p.byteLength - (p.offset + 8 + n) < 8 then [.truncated (8 - (p.byteLength - (p.offset + 8 + n)))] else [] := by
  rw [← h.byteLength, ← h.offset]
  rfl

section
variable {tag : Text} {xs : List Byte}

/-- A first chunk with another tag than TKHD (R45, R57). -/
theorem Parse.block_foreign (h : p.AtHead) (ht : tag.length = 4) (hn : xs.length < 4294967296) (fits : p.offset + 8 + xs.length ≤ p.byteLength)
    (first : p.chunkIndex = 0) (hb : p.badRaised = false) (foreign : tag ≠ tagTkhd) :
    ∃ x, p.ChunkWalked xs.length x ∧ x.header = none ∧ x.outcome = .invalid ∧
      p.block (chunkHead tag xs.length ++ xs) = (x.rested, .headerInvalid 4 :: x.afterChunk) := by
  have dispatch := Parse.dispatch_foreign ht hn first hb foreign
  rw [if_neg (Nat.not_lt.mpr fits)] at dispatch
  have walked := Parse.block_chunk h (chunkHead_length ht) fits dispatch (.inr (.inr rfl)) rfl rfl
  rw [Parse.payload_skipping (p := p.refused.entered .skipping xs.length) rfl h.prefixed] at walked
  refine ⟨_, ?_, ?_, ?_, walked.trans (Parse.closeAt_skipping rfl fits nofun)⟩
  exacts [⟨rfl, rfl, rfl⟩, rfl, rfl]

/-- A first chunk that is a valid TKHD (R43, R55). -/
theorem Parse.block_header (h : p.AtHead) (hn : xs.length < 4294967296) (fits : p.offset + 8 + xs.length ≤ p.byteLength)
    (first : p.chunkIndex = 0) {hdr : Header} (hr : readHeader xs = .ok hdr) :
    ∃ x, p.ChunkWalked xs.length x ∧ x.header = some hdr ∧ x.outcome = .valid ∧
      p.block (chunkHead tagTkhd xs.length ++ xs) = (x.rested, .headerValid hdr :: x.afterChunk) := by
  have dispatch := Parse.dispatch_tkhd hn first
  rw [if_neg (Nat.not_lt.mpr fits)] at dispatch
  have walked := Parse.block_chunk (outs := []) h (chunkHead_length rfl) fits dispatch (.inl rfl) rfl rfl
  rw [Parse.payload_headerBody rfl (Nat.zero_le _)] at walked
  refine ⟨_, ?_, ?_, ?_, walked.trans (Parse.closeAt_header rfl ((readHeader_take xs).trans hr) fits)⟩
  exacts [⟨rfl, rfl, rfl⟩, rfl, rfl]

/-- A first chunk that is a TKHD with a fault in it (R43, R44, R55). -/
theorem Parse.block_badHeader (h : p.AtHead) (hn : xs.length < 4294967296) (fits : p.offset + 8 + xs.length ≤ p.byteLength)
    (first : p.chunkIndex = 0) (hb : p.badRaised = false) {cause : Nat} (hr : readHeader xs = .error cause) :
    ∃ x, p.ChunkWalked xs.length x ∧ x.header = none ∧ x.outcome = .invalid ∧
      p.block (chunkHead tagTkhd xs.length ++ xs) = (x.rested, .headerInvalid cause :: x.afterChunk) := by
  have dispatch := Parse.dispatch_tkhd hn first
  rw [if_neg (Nat.not_lt.mpr fits)] at dispatch
  have walked := Parse.block_chunk (outs := []) h (chunkHead_length rfl) fits dispatch (.inl rfl) rfl rfl
  rw [Parse.payload_headerBody rfl (Nat.zero_le _)] at walked
  refine ⟨_, ?_, ?_, ?_, walked.trans (Parse.closeAt_badHeader rfl ((readHeader_take xs).trans hr) hb fits)⟩
  exacts [⟨rfl, rfl, rfl⟩, rfl, rfl]

/-- A later chunk that is no frame under a header is passed over (R50). -/
theorem Parse.block_passed (h : p.AtHead) (ht : tag.length = 4) (hn : xs.length < 4294967296) (fits : p.offset + 8 + xs.length ≤ p.byteLength)
    (later : 0 < p.chunkIndex) (ho : p.outcome ≠ .pending) (no_frame : p.header = none ∨ tag ≠ tagFram) :
    ∃ x, p.ChunkWalked xs.length x ∧ x.header = p.header ∧ x.outcome = p.outcome ∧ x.previous = p.previous ∧
      p.block (chunkHead tag xs.length ++ xs) = (x.rested, x.afterChunk) := by
  have dispatch : (p.headRead (chunkHead tag xs.length)).dispatch (chunkHead tag xs.length) = p.dispatched.enter .skipping xs.length := by
    rw [Parse.dispatch_later ht hn later, if_neg (Nat.not_lt.mpr fits)]
    cases hh : p.header with
    | none => rfl
    | some hdr => exact if_neg (no_frame.resolve_left (by rw [hh]; nofun))
  have walked := Parse.block_chunk (outs := []) h (chunkHead_length ht) fits dispatch (.inr (.inr rfl)) rfl rfl
  rw [Parse.payload_skipping (p := p.dispatched.entered .skipping xs.length) rfl h.prefixed] at walked
  refine ⟨_, ?_, ?_, ?_, ?_, walked.trans (Parse.closeAt_skipping rfl fits ho)⟩
  exacts [⟨rfl, rfl, rfl⟩, rfl, rfl, rfl]

/-- A frame of another length than the header's (R46, R60). -/
theorem Parse.block_frameSize (h : p.AtHead) (hn : xs.length < 4294967296) (fits : p.offset + 8 + xs.length ≤ p.byteLength)
    (later : 0 < p.chunkIndex) (ho : p.outcome ≠ .pending) {hdr : Header} (hh : p.header = some hdr) (size : xs.length ≠ hdr.frameLength) :
    ∃ x, p.ChunkWalked xs.length x ∧ x.header = p.header ∧ x.outcome = p.outcome ∧ x.previous = p.previous ∧
      p.block (chunkHead tagFram xs.length ++ xs) = (x.rested, .frameSize ((xs.length : Int) - hdr.frameLength) ::
        (if 12 ≤ xs.length then [.sizePrefix (prefixNumber (xs.take 12)) (prefixTimecode (xs.take 12))] else []) ++ x.afterChunk) := by
  let q : Parse := { p.dispatched with awaitsPrefix := decide (framePrefix ≤ xs.length) }
  have dispatch : (p.headRead (chunkHead tagFram xs.length)).dispatch (chunkHead tagFram xs.length) =
      ((q.enter .skipping xs.length).1, [.frameSize ((xs.length : Int) - hdr.frameLength)] ++ (q.enter .skipping xs.length).2) := by
    rw [Parse.dispatch_later rfl hn later, if_neg (Nat.not_lt.mpr fits), hh]
    dsimp only
    rw [if_pos rfl, if_neg size]
    rfl
  have walked := Parse.block_chunk h (chunkHead_length rfl) fits dispatch (.inr (.inr rfl)) rfl rfl
  have empty : (q.entered .skipping xs.length).frame.prefixBytes = [] := congrArg FrameInProgress.prefixBytes h.frame
  by_cases whole : 12 ≤ xs.length
  · obtain ⟨f, shown⟩ := Parse.payload_prefix (p := q.entered .skipping xs.length) (xs := xs) rfl (decide_eq_true whole)
      (by rw [empty]; exact Nat.zero_lt_succ _) (by rw [empty]; simpa using whole)
    rw [shown, empty] at walked
    rw [if_pos whole]
    refine ⟨_, ?_, ?_, ?_, ?_, walked.trans (Parse.closeAt_skipping rfl fits ho)⟩
    exacts [⟨rfl, rfl, rfl⟩, rfl, rfl, rfl]
  · rw [Parse.payload_skipping (p := q.entered .skipping xs.length) rfl (decide_eq_false whole)] at walked
    rw [if_neg whole]
    refine ⟨_, ?_, ?_, ?_, ?_, walked.trans (Parse.closeAt_skipping rfl fits ho)⟩
    exacts [⟨rfl, rfl, rfl⟩, rfl, rfl, rfl]

/-- A frame of the header's length (R46 to R49, R56). -/
theorem Parse.block_frame (h : p.AtHead) (hn : xs.length < 4294967296) (fits : p.offset + 8 + xs.length ≤ p.byteLength)
    (later : 0 < p.chunkIndex) (ho : p.outcome ≠ .pending) {hdr : Header} (hh : p.header = some hdr) (size : xs.length = hdr.frameLength) :
    let pixels := storedPixels hdr.depth (hdr.width * hdr.height) (xs.drop 12)
    let pre := xs.take 12
    ∃ x, p.ChunkWalked xs.length x ∧ x.header = p.header ∧ x.outcome = p.outcome ∧
      x.previous = some ⟨prefixNumber pre, prefixTimecode pre, frameCheck (xs.drop 12)⟩ ∧
      p.block (chunkHead tagFram xs.length ++ xs) = (x.rested, .frame (prefixNumber pre) (prefixTimecode pre) (prefixCheck pre)
        (frameCheck (xs.drop 12)) (pixels.filter (·.2)).length (pixels.map (·.1)) hdr p.previous :: x.afterChunk) := by
  have dispatch : (p.headRead (chunkHead tagFram xs.length)).dispatch (chunkHead tagFram xs.length) =
      p.dispatched.enter .frameBody xs.length := by
    rw [Parse.dispatch_later rfl hn later, if_neg (Nat.not_lt.mpr fits), hh]
    dsimp only
    rw [if_pos rfl, if_pos size]
  have fed := FrameInProgress.feed_frame (d := hdr.depth) (n := hdr.width * hdr.height) (pre := xs.take 12) (data := xs.drop 12)
    (by simp [size, Header.frameLength, framePrefix]) (by simp [size, Header.frameLength, framePrefix])
  rw [List.take_append_drop] at fed
  have walked := Parse.block_chunk (outs := []) h (chunkHead_length rfl) fits dispatch (.inr (.inl rfl)) rfl rfl
  rw [Parse.payload_frameBody (p := p.dispatched.entered .frameBody xs.length) rfl hh, show (p.dispatched.entered .frameBody xs.length).frame = FrameInProgress.empty from h.frame,
    fed] at walked
  have closed := walked.trans (Parse.closeAt_frame rfl hh ho fits)
  dsimp only at closed
  rw [List.reverse_reverse] at closed
  refine ⟨_, ?_, ?_, ?_, ?_, closed⟩
  exacts [⟨rfl, rfl, rfl⟩, rfl, rfl, rfl]

end

/-! ## A head that passes the take end, and an ended walk -/

/-- A head whose chunk passes the take end, with what the walk shows of it (R51). -/
theorem Parse.block_cut (h : p.AtHead) {head : List Byte} (hl : head.length = 8) (room : p.offset + 8 ≤ p.byteLength) {q : Parse}
    {outs : List ParseOut} (hd : (p.headRead head).dispatch head = ({ q with walk := .ended }, outs)) (ho : q.offset = p.offset + 8)
    (hn : q.byteLength = p.byteLength) (hb : q.outcome = .pending → q.badRaised = false) :
    (p.block head).1.walk = .ended ∧
      (p.block head).2 = outs ++
        if p.offset + 8 < p.byteLength then [] else if q.outcome = .pending then [.headerInvalid 5, .takeEnd none]
        else [.takeEnd (q.header.bind (·.declared))] := by
  rw [Parse.block_wholeHead h room hl, hd, ← ho, ← hn]
  exact Parse.finish_eq (p := { q with walk := .ended }) (by show q.offset ≤ q.byteLength; omega) hb outs

/-- Once the walk has ended, a byte only brings the take end nearer (R51, R58). -/
theorem Parse.byte_ended (hw : p.walk = .ended) (ho : 0 < p.offset) (b : Byte) :
    p.byte b = { p with offset := p.offset + 1 }.finish [] := by
  unfold Parse.byte
  rw [if_neg (by omega)]
  dsimp only
  rw [hw]
  rfl

/-- The bytes after the walk has ended (R51, R58). -/
theorem Parse.block_ended {bytes : List Byte} (hw : p.walk = .ended) (ho : 0 < p.offset) (some_byte : bytes ≠ [])
    (within : p.offset + bytes.length ≤ p.byteLength) (hb : p.outcome = .pending → p.badRaised = false) :
    (p.block bytes).2 =
      if p.offset + bytes.length < p.byteLength then [] else if p.outcome = .pending then [.headerInvalid 5, .takeEnd none]
      else [.takeEnd (p.header.bind (·.declared))] := by
  induction bytes generalizing p with
  | nil => exact absurd rfl some_byte
  | cons b bs ih =>
    simp only [List.length_cons] at within ⊢
    unfold Parse.block
    rw [Parse.byte_ended hw ho]
    cases bs with
    | nil =>
      simp only [Parse.block, List.append_nil]
      exact (Parse.finish_eq (p := { p with offset := p.offset + 1 }) within hb []).2
    | cons b' bs =>
      simp only [List.length_cons] at within
      rw [Parse.finish_inside (p := { p with offset := p.offset + 1 }) (by show p.offset + 1 < p.byteLength; omega)]
      have rest := ih (p := { p with offset := p.offset + 1 }) hw (Nat.succ_pos _) (List.cons_ne_nil _ _)
        (by simp only [List.length_cons]; omega) hb
      simpa [Nat.add_assoc, Nat.add_comm 1] using rest

end

/-- Settles O9: block after block by the walk's recursion, a whole chunk by its kind, a cut head and an ended walk by the take end. -/
theorem parseIgnoresBlockBoundaries : Obligations.ParseIgnoresBlockBoundaries := by
  unfold Obligations.ParseIgnoresBlockBoundaries
  refine ⟨Parse.block_append, fun p tag xs walk head frame prefixed ht hn fits first later => ?_,
    fun p tag n walk head frame prefixed ht hn room past first later => ?_,
    fun p bytes walk ho some_byte within hb => Parse.block_ended walk ho some_byte within hb⟩
  · have h : p.AtHead := ⟨walk, head, frame, prefixed⟩
    rw [← chunkHead]
    by_cases at_first : p.chunkIndex = 0
    · have none_later : ¬ 0 < p.chunkIndex := by omega
      obtain ⟨no_header, undecided, hb⟩ := first at_first
      by_cases tkhd : tag = tagTkhd
      · subst tkhd
        cases hr : readHeader xs with
        | ok hdr =>
          obtain ⟨x, hx, hh, hv, he⟩ := Parse.block_header h hn fits at_first hr
          simp only [he]
          rw [← hx.after]
          refine ⟨hx.offset, hx.index, hx.walk, fun _ => ⟨fun foreign => absurd rfl foreign, fun _ y hy => ?_, fun _ cause hc => nomatch hc⟩,
            fun k => absurd k none_later⟩
          cases hy
          exact ⟨hh, hv, rfl⟩
        | error cause =>
          obtain ⟨x, hx, hh, hv, he⟩ := Parse.block_badHeader h hn fits at_first hb hr
          simp only [he]
          rw [← hx.after]
          refine ⟨hx.offset, hx.index, hx.walk, fun _ => ⟨fun foreign => absurd rfl foreign, fun _ y hy => (nomatch hy), fun _ n hn => ?_⟩,
            fun k => absurd k none_later⟩
          cases hn
          exact ⟨hh, hv, rfl⟩
      · obtain ⟨x, hx, hh, hv, he⟩ := Parse.block_foreign h ht hn fits at_first hb tkhd
        simp only [he]
        rw [← hx.after]
        exact ⟨hx.offset, hx.index, hx.walk, fun _ => ⟨fun _ => ⟨hh, hv, rfl⟩, fun k => absurd k tkhd, fun k => absurd k tkhd⟩,
          fun k => absurd k none_later⟩
    · have pos : 0 < p.chunkIndex := by omega
      by_cases no_frame : p.header = none ∨ tag ≠ tagFram
      · obtain ⟨x, hx, hh, hv, hp, he⟩ := Parse.block_passed h ht hn fits pos (later pos) no_frame
        simp only [he]
        rw [← hx.after]
        refine ⟨hx.offset, hx.index, hx.walk, fun k => absurd k at_first, fun _ => ⟨hh, hv, fun _ => ⟨rfl, hp⟩, fun hdr some fram => ?_⟩⟩
        rcases no_frame with none | other
        · rw [none] at some; cases some
        · exact absurd fram other
      · push Not at no_frame
        obtain ⟨some_header, rfl⟩ := no_frame
        obtain ⟨hdr, hh⟩ := Option.ne_none_iff_exists'.mp some_header
        by_cases size : xs.length = hdr.frameLength
        · obtain ⟨x, hx, hsame, hv, hp, he⟩ := Parse.block_frame h hn fits pos (later pos) hh size
          simp only [he]
          rw [← hx.after]
          refine ⟨hx.offset, hx.index, hx.walk, fun k => absurd k at_first,
            fun _ => ⟨hsame, hv, fun k => absurd k (by simp [some_header, tagFram]), fun y hy _ => ?_⟩⟩
          obtain rfl : hdr = y := Option.some.inj (hh.symm.trans hy)
          exact ⟨fun other => absurd size other, fun _ => ⟨hp, rfl⟩⟩
        · obtain ⟨x, hx, hsame, hv, hp, he⟩ := Parse.block_frameSize h hn fits pos (later pos) hh size
          simp only [he]
          rw [← hx.after]
          refine ⟨hx.offset, hx.index, hx.walk, fun k => absurd k at_first,
            fun _ => ⟨hsame, hv, fun k => absurd k (by simp [some_header, tagFram]), fun y hy _ => ?_⟩⟩
          obtain rfl : hdr = y := Option.some.inj (hh.symm.trans hy)
          exact ⟨fun _ => ⟨hp, rfl⟩, fun same => absurd same size⟩
  · have h : p.AtHead := ⟨walk, head, frame, prefixed⟩
    have name : ascii "TKHD" = tagTkhd := rfl
    rw [← chunkHead]
    by_cases at_first : p.chunkIndex = 0
    · obtain ⟨no_header, undecided, hb⟩ := first at_first
      by_cases tkhd : tag = tagTkhd
      · subst tkhd
        obtain ⟨ends, shown⟩ := Parse.block_cut h (chunkHead_length rfl) room ((Parse.dispatch_tkhd hn at_first).trans (if_pos past))
          rfl rfl (fun _ => hb)
        refine ⟨ends, shown.trans ?_⟩
        rw [if_pos (show p.dispatched.outcome = .pending from undecided)]
        simp [name, at_first]
      · obtain ⟨ends, shown⟩ := Parse.block_cut h (chunkHead_length ht) room
          ((Parse.dispatch_foreign ht hn at_first hb tkhd).trans (if_pos past)) rfl rfl nofun
        refine ⟨ends, shown.trans ?_⟩
        rw [if_neg (show p.refused.outcome ≠ .pending from nofun), no_header]
        simp [name, at_first, tkhd, Parse.refused]
    · have pos : 0 < p.chunkIndex := by omega
      obtain ⟨ends, shown⟩ := Parse.block_cut h (chunkHead_length ht) room ((Parse.dispatch_later ht hn pos).trans (if_pos past))
        rfl rfl (fun hp => absurd hp (later pos))
      refine ⟨ends, shown.trans ?_⟩
      rw [if_neg (show p.dispatched.outcome ≠ .pending from later pos)]
      simp [name, at_first, Parse.dispatched]

end Sys2Proof.Machine
end

