-- ==== Sys2Proof/Proofs/ClipsPut.lean ====
section
/-!
SUPPORT. A clip record put in its slot: what an update of the record of a current handle is, and what a raised fault leaves of it.
-/

namespace Sys2Proof.Machine

section
variable {e : Engine} {h : Handle} {c y z : Clip} {f : Clip → Clip}

/-- The blocks with a record in the slot of a current handle (R4). -/
def Engine.putClip (e : Engine) (h : Handle) (y : Clip) : Engine := { e with clips := e.clips.set h.slot ⟨h.gen, some y⟩ }

theorem Engine.updateClip_put (hc : e.clipAt h = some c) : e.updateClip h f = e.putClip h (f c) := by
  unfold Engine.updateClip
  rw [hc]
  rfl

@[simp] theorem Engine.putClip_clipAt : (e.putClip h y).clipAt h = some y := by simp [Engine.putClip, Engine.clipAt]

@[simp] theorem Engine.putClip_putClip : (e.putClip h y).putClip h z = e.putClip h z := by simp [Engine.putClip]

/-- An update of the record just put. -/
theorem Engine.putClip_updateClip : (e.putClip h y).updateClip h f = e.putClip h (f y) := by
  rw [Engine.updateClip_put Engine.putClip_clipAt, Engine.putClip_putClip]

/-- A raised fault leaves a clip record as it is, but for its block-overflow flag (R181). -/
theorem Engine.raiseFault_clipAt {g : Settings} {x : FaultInput} (hc : e.clipAt h = some c) :
    ∃ b, (e.raiseFault g x).clipAt h = some { c with blockOverflow := b } := by
  have kept : ∀ a : Engine, a.clips = e.clips → ∃ b, a.clipAt h = some { c with blockOverflow := b } := fun a ha => by
    refine ⟨c.blockOverflow, ?_⟩
    unfold Engine.clipAt at hc ⊢
    rwa [ha]
  rcases e.raiseFault_cases g x with ⟨-, r⟩ | ⟨q, -, ⟨-, r⟩ | ⟨-, r⟩⟩ | ⟨-, -, r⟩ | ⟨-, -, ⟨v, -, r⟩ | ⟨-, r⟩⟩
  case inr.inr.inr.inr =>
    rw [r]
    unfold Engine.dropFault
    split
    · rw [Engine.updateClip_clipAt, hc, Option.map_some]
      split
      · exact ⟨true, rfl⟩
      · exact ⟨c.blockOverflow, rfl⟩
    · exact kept _ rfl
  all_goals
    rw [r]
    exact kept _ rfl

end

end Sys2Proof.Machine
end

