-- ==== Sys2Proof/Proofs/Bindings.lean ====
section
/-!
THEOREM. The binding rules, and the look bindings of clips (R55, R113 to R117): O31.
-/

namespace Sys2Proof.Machine

/-! ## A clip bound -/

section
variable {e : Engine} {g : Settings} {h : Handle} {c : Clip}

/-- A clip record with a binding; CURRENT on another slot, or now unbound, it is STALE (R115 to R117). -/
def Clip.boundTo (c : Clip) (b : Binding) : Clip :=
  { c with
    binding := b
    renderState := if c.renderState = .current ∧ (b.slot = none ∨ b.slot ≠ c.rendered.map (·.1)) then .stale else c.renderState }

/-- What binding a clip does: its record, and CLIP_STALE where it becomes STALE (R115 to R117). -/
theorem Engine.bind_eq (hc : e.clipAt h = some c) (b : Binding) :
    e.bind h b =
      { e.putClip h (c.boundTo b) with
        events := if c.renderState = .current ∧ (b.slot = none ∨ b.slot ≠ c.rendered.map (·.1)) then
          e.events ++ [Event.ofClip .clipStale c.card h] else e.events } := by
  unfold Engine.bind
  rw [hc]
  dsimp only
  rw [Engine.updateClip_put hc]
  unfold Engine.makeStale
  rw [Engine.putClip_clipAt]
  dsimp only
  rw [Engine.putClip_updateClip]
  unfold Clip.renderedSlot Clip.boundTo
  by_cases other : b.slot = none ∨ b.slot ≠ c.rendered.map (·.1)
  · by_cases current : c.renderState = .current
    · simp only [other, current, and_self, if_true]
      rfl
    · simp only [other, current, false_and, if_false, if_true]
      rfl
  · simp only [other, and_false, if_false]
    rfl

/-! ## A header found -/

/-- A rule matches a header as R113 has it. -/
theorem BindingRule.matches_eq (r : BindingRule) (camera : Byte) (reel : Nat) :
    r.matches camera reel = (r.enabled && (decide (r.camera = none) || decide (r.camera = some camera)) &&
      decide (r.reelLow ≤ reel) && decide (reel ≤ r.reelHigh)) := by
  unfold BindingRule.matches
  cases r.camera <;> simp

/-- The header outcome VALID with nothing to bind: the clip had a header, is bound explicitly, or no rule matches (R55, R115). -/
theorem Engine.headerValid_keeps (hc : e.clipAt h = some c) {x : Header}
    (no_rule : c.header ≠ none ∨ c.binding.origin = some .explicit ∨ g.rules.toList.find? (·.matches x.camera x.reel) = none) :
    e.headerValid g h x = e.putClip h { c with header := some x } := by
  unfold Engine.headerValid
  rw [hc]
  dsimp only
  rw [Engine.updateClip_put hc]
  cases had : c.header with
  | some y => rfl
  | none =>
    have unmatched := no_rule.resolve_left (not_not_intro had)
    simp only [Option.isSome_none, Bool.false_eq_true, if_false]
    unfold Engine.applyRules
    rw [Engine.putClip_clipAt]
    dsimp only
    split
    · rfl
    · next implicit => rw [unmatched.resolve_left implicit]

/-- The first header outcome VALID of a clip that is not bound explicitly: the first rule that matches binds it (R115). -/
theorem Engine.headerValid_binds (hc : e.clipAt h = some c) {x : Header} {r : BindingRule} (had : c.header = none)
    (implicit : c.binding.origin ≠ some .explicit) (found : g.rules.toList.find? (·.matches x.camera x.reel) = some r) :
    e.headerValid g h x = (e.putClip h { c with header := some x }).bind h ⟨some r.look, some .rule⟩ := by
  unfold Engine.headerValid
  rw [hc]
  dsimp only
  rw [Engine.updateClip_put hc, had]
  simp only [Option.isSome_none, Bool.false_eq_true, if_false]
  unfold Engine.applyRules
  rw [Engine.putClip_clipAt]
  dsimp only
  rw [if_neg implicit, found]

end

/-! ## The requests -/

section
variable {s : State} {o : Origin} {i : Fin 16} {camera : Option Byte} {low high : Nat} {look : Fin 32} {enabled : Bool}

/-- WRITE_BINDING of an entry, a camera and a look that exist is taken as its reels are (R114). -/
theorem Settings.writeBinding_eq {g : Settings} (legal : cameraLegal camera = true) :
    g.writeBinding i ((camera.map BitVec.toNat).getD 255) low high look enabled =
      if 1 ≤ low ∧ low ≤ high ∧ high ≤ 999 then .ok { g with rules := g.rules.set i ⟨camera, low, high, look, enabled⟩ }
      else .error .badArgument := by
  unfold Settings.writeBinding
  rw [checkIndex_val, checkIndex_val, cameraOf_legal camera legal]

/-- A look slot or NONE is read from its byte (R116). -/
theorem lookArgument_val (look : Option (Fin 32)) : lookArgument ((look.map Fin.val).getD 255) = .ok look := by
  cases look with
  | none => rfl
  | some k =>
    unfold lookArgument namedByte
    rw [Option.map_some, Option.getD_some, if_neg (by omega), checkIndex_val]

/-- BIND_LOOK of a current handle binds its clip (R116). -/
theorem Engine.bindLook_eq {e : Engine} {h : Handle} {c : Clip} (hc : e.clipAt h = some c) (own : c.handle = h) (look : Option (Fin 32)) :
    e.bindLook h.slot h.gen ((look.map Fin.val).getD 255) = .ok (e.bind h ⟨look, some .explicit⟩) := by
  unfold Engine.bindLook
  rw [Engine.checkClip_val hc, lookArgument_val]
  dsimp only
  rw [own]

end

/-- Settles O31: each request by the argument it reads, each header outcome by what it does to the clip's record. -/
theorem bindingRulesAreWrittenAndClipsBound : Obligations.BindingRulesAreWrittenAndClipsBound := by
  unfold Obligations.BindingRulesAreWrittenAndClipsBound
  refine ⟨fun o i camera low high look enabled s ha ho legal => ?_, fun o h c look s ha ho hc own => ?_,
    fun g l card e h c hc => ⟨fun x => ⟨fun no_rule => ?_, fun r had implicit found => ?_⟩, fun cause => ?_⟩⟩
  · have permits : permitted o.port 25 = true := by rw [ho]; rfl
    refine ⟨fun h1 h2 h3 => ?_, fun bad => ?_⟩
    · exact State.take_newSettings ha _ _ permits ((Settings.writeBinding_eq legal).trans (if_pos ⟨h1, h2, h3⟩))
    · exact State.take_refusedSettings ha _ _ permits ((Settings.writeBinding_eq legal).trans (if_neg (by omega)))
  · have permits : permitted o.port 26 = true := by rw [ho]; rfl
    have at_h : s.blocks.clipAt h = some c := hc
    obtain ⟨t, ht, answered, engine⟩ := State.take_answered ha (readPair readHandle read8)
      ((h.slot.val, h.gen.val), (look.map Fin.val).getD 255) permits
      (rule := plainRule (fun _ e => e.bindLook h.slot h.gen ((look.map Fin.val).getD 255))) (a := (.done, []))
      (e := s.blocks.bind h ⟨look, some .explicit⟩) (fun ss => by unfold plainRule; dsimp only; rw [Engine.bindLook_eq at_h own]; rfl)
    refine ⟨t, ht, answered, fun silent => ?_⟩
    rw [engine, Engine.bind_eq at_h, Engine.endStep_silent silent (.inl rfl)]
    rfl
  · simp only [← BindingRule.matches_eq] at no_rule
    exact Engine.headerValid_keeps hc no_rule
  · simp only [← BindingRule.matches_eq] at found
    refine (Engine.headerValid_binds hc had implicit found).trans ((Engine.bind_eq Engine.putClip_clipAt _).trans ?_)
    have named : (some r.look = none ∨ some r.look ≠ c.rendered.map (·.1)) ↔ c.rendered.map (·.1) ≠ some r.look :=
      ⟨fun k => (k.resolve_left nofun).symm, fun k => .inr k.symm⟩
    simp only [Clip.boundTo, named, Engine.putClip_putClip]
    split <;> rfl
  · obtain ⟨b, hb⟩ := Engine.raiseFault_clipAt (g := g) (x := ⟨.badHeader, h, card, none, none, none, none, some (cause : Int)⟩) hc
    exact ⟨_, hb, rfl, rfl, Engine.updateClip_put hb⟩

end Sys2Proof.Machine
end

