-- ==== Sys2Proof/Proofs/FaultNumbers.lean ====
section
/-!
SUPPORT. The number of a new fault record (R178): among as many tries as there are records and one more, one is free.
-/

namespace Sys2Proof.Machine

/-- The number tried after another (R178). -/
def numberAfter (n : Nat) : Nat := if n < 65535 then n + 1 else 1

theorem numberAfter_iterate (n i : Nat) : numberAfter^[i + 1] n = (numberAfter n - 1 + i) % 65535 + 1 := by
  induction i with
  | zero =>
    simp only [Function.iterate_succ, Function.iterate_zero, Function.comp, id]
    unfold numberAfter
    split <;> omega
  | succ i ih =>
    rw [Function.iterate_succ_apply', ih]
    rw [← Nat.add_assoc]
    generalize numberAfter n - 1 + i = a
    rw [numberAfter]
    split <;> omega

/-- The numbers tried from a counter on. -/
def triedNumbers (n k : Nat) : List Nat := (List.range k).map (fun i => numberAfter^[i + 1] n)

theorem triedNumbers_succ (n k : Nat) : triedNumbers n (k + 1) = numberAfter n :: triedNumbers (numberAfter n) k := by
  unfold triedNumbers
  rw [List.range_succ_eq_map, List.map_cons, List.map_map]
  rfl

/-- No number is tried twice before all of 1..65535 have been. -/
theorem triedNumbers_nodup {n k : Nat} (hk : k ≤ 65535) : (triedNumbers n k).Nodup := by
  refine List.Nodup.map_on (fun i hi j hj same => ?_) List.nodup_range
  rw [List.mem_range] at hi hj
  rw [numberAfter_iterate, numberAfter_iterate] at same
  omega

/-- A number given although it is held came after tries that were all held. -/
theorem nextFaultNumber_held {faults : List FaultRecord} {n k : Nat} (hk : 0 < k)
    (held : nextFaultNumber faults k n ∈ faults.map (·.number)) : triedNumbers n k ⊆ faults.map (·.number) := by
  induction k generalizing n with
  | zero => cases hk
  | succ k ih =>
    have tries : nextFaultNumber faults (k + 1) n =
        if faults.any (fun r => decide (r.number = numberAfter n)) then nextFaultNumber faults k (numberAfter n) else numberAfter n := rfl
    have used : faults.any (fun r => decide (r.number = numberAfter n)) = true ↔ numberAfter n ∈ faults.map (·.number) := by simp
    rw [tries] at held
    rw [triedNumbers_succ]
    by_cases first : numberAfter n ∈ faults.map (·.number)
    · refine List.cons_subset.mpr ⟨first, ?_⟩
      rw [if_pos (used.mpr first)] at held
      cases k with
      | zero => exact List.nil_subset _
      | succ k => exact ih (Nat.succ_pos k) held
    · rw [if_neg (fun k => first (used.mp k))] at held
      exact absurd held first

/-- The number of a new record is held by no record of a list that has room (R178). -/
theorem nextFaultNumber_free {faults : List FaultRecord} (room : faults.length < 256) (n : Nat) :
    ∀ x ∈ faults, x.number ≠ nextFaultNumber faults (faults.length + 1) n := by
  intro x hx same
  have tried := nextFaultNumber_held (Nat.succ_pos faults.length) (by rw [← same]; exact List.mem_map_of_mem hx)
  have short := ((triedNumbers_nodup (n := n) (k := faults.length + 1) (by omega)).subperm tried).length_le
  simp [triedNumbers] at short

/-- A fault without an unresolved record of its key, in a list with room, makes a record (R178, R179). -/
theorem Engine.raiseFault_creates {g : Settings} {e : Engine} {f : FaultInput} {c : Clip} (hc : e.clipAt f.clip = some c)
    (room : e.faults.length < 256)
    (fresh : ∀ x ∈ e.faults, x.unresolved = true → ¬ (x.kind = f.kind ∧ x.clip = f.clip ∧ x.volume = f.volume)) :
    e.raiseFault g f = e.createFault f (e.arrivingSeverity g f.kind f.card) := by
  have unmatched : e.unresolvedWithKey f = none := by
    unfold Engine.unresolvedWithKey
    rw [List.find?_eq_none]
    intro x hx
    simpa [FaultRecord.hasKey, and_assoc] using fresh x hx
  rcases e.raiseFault_cases g f with ⟨stale, -⟩ | ⟨r, hr, -⟩ | ⟨-, -, made⟩ | ⟨-, full, -⟩
  · rw [hc] at stale; cases stale
  · rw [unmatched] at hr; cases hr
  · exact made
  · exact absurd room (Nat.not_lt.mpr full)

end Sys2Proof.Machine
end

