-- ==== Sys2Proof/Proofs/Samples.lean ====
section
/-!
SUPPORT. The samples of a frame (R170): every stride-th pixel, from the first.
-/

namespace Sys2Proof.Machine

theorem everyNth_getElem? {s : Nat} (hs : 0 < s) (k : Nat) (xs : List Rgb) (i : Nat) : (everyNth s k xs)[i]? = xs[k + i * s]? := by
  induction xs generalizing k i with
  | nil => cases k <;> simp [everyNth]
  | cons x xs ih =>
    cases k with
    | zero =>
      cases i with
      | zero => simp [everyNth]
      | succ i =>
        have place : 0 + (i + 1) * s = (s - 1 + i * s) + 1 := by rw [Nat.succ_mul]; omega
        rw [place]
        simpa [everyNth] using ih (s - 1) i
    | succ k =>
      rw [show k + 1 + i * s = (k + i * s) + 1 by omega]
      simpa [everyNth] using ih k i

/-- There is a sample for each stride begun. -/
theorem everyNth_length {s : Nat} (hs : 0 < s) (xs : List Rgb) : (everyNth s 0 xs).length = (xs.length + s - 1) / s := by
  have within : ∀ i, i < (everyNth s 0 xs).length ↔ i < (xs.length + s - 1) / s := fun i => by
    have same := everyNth_getElem? hs 0 xs i
    rw [Nat.zero_add] at same
    have begun : i * s < xs.length ↔ i < (xs.length + s - 1) / s := by
      rw [Nat.lt_iff_add_one_le, Nat.lt_iff_add_one_le, Nat.le_div_iff_mul_le hs, Nat.succ_mul]
      omega
    rw [← begun, ← not_iff_not, Nat.not_lt, Nat.not_lt, ← List.getElem?_eq_none_iff, same, List.getElem?_eq_none_iff]
  exact Nat.le_antisymm (Nat.le_of_not_lt fun h => Nat.lt_irrefl _ ((within _).mp h)) (Nat.le_of_not_lt fun h => Nat.lt_irrefl _ ((within _).mpr h))

theorem everyNth_eq {s : Nat} (hs : 0 < s) (xs : List Rgb) :
    everyNth s 0 xs = (List.range (everyNth s 0 xs).length).filterMap (fun i => xs[i * s]?) := by
  have same : ∀ i, (everyNth s 0 xs)[i]? = xs[i * s]? := fun i => by rw [everyNth_getElem? hs, Nat.zero_add]
  simp only [← same]
  generalize everyNth s 0 xs = ys
  induction ys using List.reverseRecOn with
  | nil => rfl
  | append_singleton ys y ih =>
    rw [List.length_append, List.length_singleton, List.range_succ, List.filterMap_append]
    have before : (List.range ys.length).filterMap (fun i => (ys ++ [y])[i]?) = (List.range ys.length).filterMap (fun i => ys[i]?) :=
      List.filterMap_congr fun i hi => List.getElem?_append_left (List.mem_range.mp hi)
    rw [before, ← ih]
    simp

/-- All the pixels of a whole picture are sampled from (R170). -/
theorem PendingFrame.samples_eq {f : PendingFrame} (whole : f.pixels.length = f.width * f.height) :
    f.samples = everyNth f.stride 0 f.pixels := by
  unfold PendingFrame.samples
  rw [List.take_of_length_le (Nat.le_of_eq whole)]

end Sys2Proof.Machine
end

