-- ==== Sys2Proof/Proofs/Judgements.lean ====
section
/-!
THEOREM. The scanner's judgements of frames, take ends and samples (R56, R164 to R171, R179): O56.
-/

namespace Sys2Proof.Machine

/-! ## Frame reports -/

section
variable {g : Settings} {e : Engine} {x : FrameReport} {p : PrevFrame}

/-- A first frame of a parse is judged for its picture alone (R164, R165, R168). -/
theorem Engine.judgeReport_first (first : x.previous = none) : e.judgeReport g x = e.judgeFrozen g x := by
  unfold Engine.judgeReport Engine.judgeNumber Engine.judgeTimecode FrameReport.timecodeBreak
  rw [first]

/-- The number of a frame is the one after the previous frame's, or FRAME_NUMBER is raised (R164). -/
theorem Engine.judgeNumber_later (later : x.previous = some p) :
    e.judgeNumber g x =
      if x.number = p.number + 1 then e else e.raiseFault g (x.fault .frameNumber (some (x.number - (p.number + 1)).toInt)) := by
  unfold Engine.judgeNumber
  rw [later]

/-- The label of a frame is valid and jumps by nothing, or TC_BREAK is raised (R168). -/
theorem Engine.judgeTimecode_later (later : x.previous = some p) :
    e.judgeTimecode g x =
      if labelValid x.rate x.drop x.tc = false then e.raiseFault g (x.fault .tcBreak none)
      else if labelValid x.rate x.drop p.tc = false ∨ labelJump x.rate x.drop p.tc x.tc = 0 then e
      else e.raiseFault g (x.fault .tcBreak (some (labelJump x.rate x.drop p.tc x.tc))) := by
  unfold Engine.judgeTimecode FrameReport.timecodeBreak
  rw [later]
  cases labelValid x.rate x.drop x.tc with
  | false => rfl
  | true =>
    cases before : labelValid x.rate x.drop p.tc with
    | false => simp [before]
    | true => by_cases jump : labelJump x.rate x.drop p.tc x.tc = 0 <;> simp [before, jump]

/-- The frozen run after a frame: one longer with an equal check, else begun at this frame (R165). -/
theorem ScanContext.frozenAfter_eq (s : ScanContext) (x : FrameReport) :
    let same : Bool := decide (x.previous.map (·.check) = some x.check)
    s.frozenAfter x = { s with
      frozenCount := if same then min 255 (s.frozenCount + 1) else 1
      frozenStart := if same then s.frozenStart else some (x.number, x.tc)
      frozenRaised := same && s.frozenRaised } := by
  unfold ScanContext.frozenAfter
  by_cases same : x.previous.map (·.check) = some x.check <;> simp [same]

/-- FROZEN is raised once, as the run reaches the frozen run (R165). -/
theorem Engine.judgeFrozen_eq {run : ScanContext} (after : (e.scans[x.lane]).frozenAfter x = run) :
    e.judgeFrozen g x =
      if g.profile.frozenRun ≤ run.frozenCount ∧ run.frozenRaised = false then
        { e with scans := e.scans.set x.lane { run with frozenRaised := true } }.raiseFault g
          ⟨.frozen, x.clip, x.card, none, run.frozenStart.map Prod.fst, some x.number, run.frozenStart.map Prod.snd, none⟩
      else { e with scans := e.scans.set x.lane run } := by
  rw [← after]
  rfl

/-! ## Take ends -/

/-- A take end whose counts differ raises COUNT_MISMATCH (R166). -/
theorem Engine.judgeTakeEnd_differs {h : Handle} {card : Fin 32} {observed declared : Nat} (differ : observed ≠ declared) :
    e.judgeTakeEnd g h card observed (some declared) =
      e.raiseFault g ⟨.countMismatch, h, card, none, none, none, none,
        some (max (-2147483648) (min 2147483647 ((observed : Int) - declared)))⟩ := by
  unfold Engine.judgeTakeEnd
  dsimp only
  rw [if_neg differ]
  rfl

/-! ## A frame that passed the size check -/

/-- A frame observed: its count, its timecode, and the first timecode of its take (R56). -/
theorem Clip.observe_eq (c : Clip) (tc : Timecode) :
    c.observe tc = { c with
      observed := min 4294967295 (c.observed + 1), lastTc := some tc, firstTc := some (c.firstTc.getD tc) } := by
  unfold Clip.observe
  cases c.firstTc <;> rfl

section
variable {c : Clip} {carried : Word32} {bad width height : Nat} {pixels : List Rgb}

/-- A frame that passed the size check: observed, then its word and check faults, then judged, then sampled (R56). -/
theorem Engine.parsedFrame_eq (hc : e.clipAt x.clip = some c) :
    let counted := e.putClip x.clip { c with
      observed := min 4294967295 (c.observed + 1), lastTc := some x.tc, firstTc := some (c.firstTc.getD x.tc) }
    let worded := if bad = 0 then counted else counted.raiseFault g (x.fault .pixelWord (some (bad : Int)))
    let checked := if x.check = carried then worded else worded.raiseFault g (x.fault .frameCheck none)
    e.parsedFrame g x carried bad width height pixels = (checked.judgeReport g x).framePicture g x width height pixels := by
  unfold Engine.parsedFrame
  rw [Engine.updateClip_put hc, Clip.observe_eq]

/-- The picture of a frame enters an empty pending slot (R169). -/
theorem Engine.framePicture_enters (hc : e.clipAt x.clip = some c) (empty : e.sampler[x.lane] = none) :
    e.framePicture g x width height pixels =
      { e.putClip x.clip { c with sampled := min 4294967295 (c.sampled + 1) } with
        sampler := e.sampler.set x.lane (some ⟨x.clip, x.card, x.number, x.tc, width, height, pixels, g.profile.stride,
          g.profile.clipThreshold, (e.scans[x.lane]).parse⟩) } := by
  unfold Engine.framePicture
  rw [empty]
  exact Engine.updateClip_put hc

/-- The picture of a frame that finds the pending slot taken is skipped (R169). -/
theorem Engine.framePicture_skipped (hc : e.clipAt x.clip = some c) (taken : e.sampler[x.lane] ≠ none) :
    e.framePicture g x width height pixels = e.putClip x.clip { c with skipped := min 4294967295 (c.skipped + 1) } := by
  unfold Engine.framePicture
  obtain ⟨f, hf⟩ := Option.ne_none_iff_exists'.mp taken
  rw [hf]
  exact Engine.updateClip_put hc

end

end

/-! ## The sampler -/

section
variable {g : Settings} {e : Engine} {l : Fin 2} {f : PendingFrame} {c : Clip}

/-- BLACK is raised once, as the run of the present parse reaches the black run (R171). -/
theorem Engine.judgeBlack_eq {run : ScanContext}
    (after : (e.scans[l]).blackAfter g.profile.blackLimit f.averageLuma f.number f.tc = run) :
    e.judgeBlack g l f =
      if (e.scans[l]).parse ≠ f.parse then e
      else if g.profile.blackRun ≤ run.blackCount ∧ run.blackRaised = false then
        { e with scans := e.scans.set l { run with blackRaised := true } }.raiseFault g
          ⟨.black, f.clip, f.card, none, run.blackStart.map Prod.fst, some f.number, run.blackStart.map Prod.snd,
            some (f.averageLuma : Int)⟩
      else { e with scans := e.scans.set l run } := by
  rw [← after, ite_not]
  rfl

/-- A raised fault removes no descriptor. -/
theorem Engine.raiseFault_removed (x : FaultInput) : (e.raiseFault g x).removed = e.removed := by rw [Engine.raiseFault_frame]

theorem Engine.raiseFault_scans (x : FaultInput) : (e.raiseFault g x).scans = e.scans := by rw [Engine.raiseFault_frame]

theorem Engine.judgeClip_scans : (e.judgeClip g f).scans = e.scans := by
  unfold Engine.judgeClip
  split
  · exact Engine.raiseFault_scans _
  · rfl

theorem Engine.judgeClip_removed : (e.judgeClip g f).removed = e.removed := by
  unfold Engine.judgeClip
  split
  · exact Engine.raiseFault_removed _
  · rfl

theorem Engine.judgeBlack_removed : (e.judgeBlack g l f).removed = e.removed := by
  unfold Engine.judgeBlack
  split
  · dsimp only
    split
    · exact Engine.raiseFault_removed _
    · rfl
  · rfl

/-- The sampler with an empty pending slot does nothing (R169). -/
theorem Engine.sampleComplete_empty (empty : e.sampler[l] = none) : e.sampleComplete g l = e := by
  unfold Engine.sampleComplete
  rw [empty]

/-- A pending frame of a stale handle is discarded (R169). -/
theorem Engine.sampleComplete_stale (pending : e.sampler[l] = some f) (stale : e.clipAt f.clip = none) :
    e.sampleComplete g l = { e with sampler := e.sampler.set l none } := by
  unfold Engine.sampleComplete
  rw [pending]
  dsimp only
  rw [show Engine.clipAt { e with sampler := e.sampler.set l none } f.clip = none from stale]

/-- A pending frame of a current handle empties the slot and is judged for clipping and for black (R169, R171). -/
theorem Engine.sampleComplete_judges (pending : e.sampler[l] = some f) (hc : e.clipAt f.clip = some c) :
    e.sampleComplete g l = ({ e with sampler := e.sampler.set l none }.judgeClip g f).judgeBlack g l f := by
  unfold Engine.sampleComplete
  rw [pending]
  dsimp only
  rw [show Engine.clipAt { e with sampler := e.sampler.set l none } f.clip = some c from hc]

/-- The sampler's completion of a frame of a current handle (R169, R171). -/
theorem Engine.sampleComplete_judged {clipped : Engine} {run : ScanContext} (pending : e.sampler[l] = some f) (hc : e.clipAt f.clip = some c)
    (judged : { e with sampler := e.sampler.set l none }.judgeClip g f = clipped)
    (after : (e.scans[l]).blackAfter g.profile.blackLimit f.averageLuma f.number f.tc = run) :
    e.sampleComplete g l =
      if (e.scans[l]).parse ≠ f.parse then clipped
      else if g.profile.blackRun ≤ run.blackCount ∧ run.blackRaised = false then
        { clipped with scans := e.scans.set l { run with blackRaised := true } }.raiseFault g
          ⟨.black, f.clip, f.card, none, run.blackStart.map Prod.fst, some f.number, run.blackStart.map Prod.snd,
            some (f.averageLuma : Int)⟩
      else { clipped with scans := e.scans.set l run } := by
  have scans : clipped.scans = e.scans := by rw [← judged, Engine.judgeClip_scans]
  rw [Engine.sampleComplete_judges pending hc, judged, Engine.judgeBlack_eq (run := run) (by rw [scans, after]), scans]

theorem Engine.sampleComplete_removed : (e.sampleComplete g l).removed = e.removed := by
  unfold Engine.sampleComplete
  split
  · dsimp only
    split
    · rw [Engine.judgeBlack_removed, Engine.judgeClip_removed]
    · rfl
  · rfl

/-- Under a silent matrix the blocks after a sampler's completion are as the sampler leaves them. -/
theorem State.samplerCompletion_silent {s : State} (running : s.resetHeld = false) (silent : s.settings.silent = true)
    (done : s.blocks.sampleComplete s.settings l = e) :
    ∃ t, exec (.samplerCompletion l) s = .next t ∧ s.ranInPlace t ∧ t.engine = e :=
  State.run_silent running silent done (.inl (by rw [← done, Engine.sampleComplete_removed]; rfl))

end

/-- Settles O56: each clause is the lemma of its judgement. -/
theorem scannerJudgesFramesTakesAndSamples : Obligations.ScannerJudgesFramesTakesAndSamples := by
  unfold Obligations.ScannerJudgesFramesTakesAndSamples
  refine ⟨fun g e f c hc room fresh => ?created, fun g e x => ⟨Engine.judgeReport_first, fun p later => ?report, ?frozen⟩,
    fun g e h card observed declared => ⟨rfl, if_pos rfl, Engine.judgeTakeEnd_differs⟩,
    fun g e x carried bad width height pixels c hc => ⟨Engine.parsedFrame_eq hc, Engine.framePicture_enters hc,
      Engine.framePicture_skipped hc⟩,
    fun f stride whole => ?samples,
    fun l s running silent => ⟨fun empty => ?empty, fun f pending stale => ?stale, fun f c pending hc => ?sampled⟩⟩
  case created => exact ⟨_, nextFaultNumber_free room e.faultCounter, Engine.raiseFault_creates hc room fresh⟩
  case report =>
    unfold Engine.judgeReport
    rw [Engine.judgeNumber_later later, Engine.judgeTimecode_later later]
    rfl
  case frozen => exact Engine.judgeFrozen_eq (ScanContext.frozenAfter_eq _ x)
  case samples =>
    have picture := f.samples_eq whole
    refine ⟨?_, ?_, rfl, rfl⟩
    · rw [picture, everyNth_length stride, whole]
    · rw [picture]
      exact everyNth_eq stride _
  case empty => exact State.samplerCompletion_silent running silent (Engine.sampleComplete_empty empty)
  case stale => exact State.samplerCompletion_silent running silent (Engine.sampleComplete_stale pending stale)
  case sampled =>
    exact State.samplerCompletion_silent running silent (Engine.sampleComplete_judged (e := s.blocks) pending hc rfl rfl)

end Sys2Proof.Machine
end

