-- ==== Sys2Proof/Proofs/CopyBooks.lean ====
section
/-!
SUPPORT. What the bookkeeping around a COPY leaves (R10, R87, R93, R94, R104, R179): clip records but for what is derived of their copies, and
everything but the card records, the outputs of the card ports, the fault list and the events.
-/

namespace Sys2Proof.Machine

section
variable {a b e : Engine} {g : Settings} {h : Handle} {c : Clip} {r : CardRecord}

/-- The clip record differs at most in its copy state, its offload mark and its block-overflow flag. -/
def Clip.booked (c c' : Clip) : Prop :=
  c' = { c with copyState := c'.copyState, offloadMark := c'.offloadMark, blockOverflow := c'.blockOverflow }

/-- The card record differs at most in its state and in HELD_BY_REQUEST. -/
def CardRecord.booked (r r' : CardRecord) : Prop := r' = { r with state := r'.state, heldByRequest := r'.heldByRequest }

/-- What a change of the books keeps, seen from the clip of a handle. No such change signals CLIP_COPIED. -/
structure Books (h : Handle) (a b : Engine) : Prop where
  frame : b = { a with
    cards := b.cards, clips := b.clips, cardPorts := b.cardPorts, faults := b.faults, faultCounter := b.faultCounter, dropped := b.dropped,
    faultSerial := b.faultSerial, events := b.events }
  clip : ∀ c, a.clipAt h = some c → ∃ c', b.clipAt h = some c' ∧ c.booked c'
  card : ∀ (k : Fin 32) r, a.cards[k] = some r → ∃ r', b.cards[k] = some r' ∧ r.booked r'
  events : ∃ new, b.events = a.events ++ new ∧ ∀ ev ∈ new, ev.kind ≠ .clipCopied

theorem Clip.booked.trans {c' c'' : Clip} (k : c.booked c') (m : c'.booked c'') : c.booked c'' := by
  unfold Clip.booked at *
  rw [m, k]

theorem CardRecord.booked.trans {r' r'' : CardRecord} (k : r.booked r') (m : r'.booked r'') : r.booked r'' := by
  unfold CardRecord.booked at *
  rw [m, k]

theorem Clip.booked.copyOn {c' : Clip} (k : c.booked c') (v : Fin 16) : c'.copyOn v = c.copyOn v := by
  rw [k]
  rfl

theorem Books.refl (a : Engine) : Books h a a :=
  ⟨rfl, fun c hc => ⟨c, hc, rfl⟩, fun _ r hr => ⟨r, hr, rfl⟩, [], (List.append_nil _).symm, List.forall_mem_nil _⟩

theorem Books.trans (k : Books h a e) (m : Books h e b) : Books h a b where
  frame := m.frame.trans (by rw [k.frame])
  clip c hc := by
    obtain ⟨c', hc', first⟩ := k.clip c hc
    obtain ⟨c'', hc'', second⟩ := m.clip c' hc'
    exact ⟨c'', hc'', first.trans second⟩
  card i r hr := by
    obtain ⟨r', hr', first⟩ := k.card i r hr
    obtain ⟨r'', hr'', second⟩ := m.card i r' hr'
    exact ⟨r'', hr'', first.trans second⟩
  events := by
    obtain ⟨new, hn, others⟩ := k.events
    obtain ⟨more, hm, others'⟩ := m.events
    refine ⟨new ++ more, by rw [hm, hn, List.append_assoc], fun ev hev => ?_⟩
    exact (List.mem_append.mp hev).elim (others ev) (others' ev)

theorem Books.volumes (k : Books h a b) : b.volumes = a.volumes := by rw [k.frame]

theorem Books.destPorts (k : Books h a b) : b.destPorts = a.destPorts := by rw [k.frame]

theorem Books.queue (k : Books h a b) : b.queue = a.queue := by rw [k.frame]

theorem Books.lanes (k : Books h a b) : b.lanes = a.lanes := by rw [k.frame]

theorem Books.jobs (k : Books h a b) : b.jobs = a.jobs := by rw [k.frame]

theorem Books.contexts (k : Books h a b) : b.contexts = a.contexts := by rw [k.frame]

theorem Books.scans (k : Books h a b) : b.scans = a.scans := by rw [k.frame]

theorem Books.requeues (k : Books h a b) : b.requeues = a.requeues := by rw [k.frame]

theorem Books.removed (k : Books h a b) : b.removed = a.removed := by rw [k.frame]

theorem Books.laneRun (k : Books h a b) (l : Fin 2) : b.laneRun l = a.laneRun l := by
  unfold Engine.laneRun
  rw [k.lanes]

theorem Books.portOf (k : Books h a b) (v : Fin 16) : b.portOf v = a.portOf v := by
  unfold Engine.portOf
  rw [k.volumes]

/-- A change of the fault list, the outputs of the card ports and the events. -/
theorem Books.but {new : List Event} (hb : b = { e with
    cardPorts := b.cardPorts, faults := b.faults, faultCounter := b.faultCounter, dropped := b.dropped, faultSerial := b.faultSerial,
    events := e.events ++ new }) (others : ∀ ev ∈ new, ev.kind ≠ .clipCopied) : Books h e b where
  frame := by rw [hb]
  clip c hc := ⟨c, by rw [hb]; exact hc, rfl⟩
  card k r hr := ⟨r, by rw [hb]; exact hr, rfl⟩
  events := ⟨new, by rw [hb], others⟩

theorem Books.ite {p : Prop} [Decidable p] {x y : Engine} (hx : Books h e x) (hy : Books h e y) : Books h e (if p then x else y) := by
  split <;> assumption

theorem Books.signal {ev : Event} (k : EventKind) (kind : ev.kind = k) (other : k ≠ .clipCopied := by decide) : Books h e (e.signal ev) :=
  .but (new := [ev]) rfl fun x hx => by rwa [List.mem_singleton.mp hx, kind]

/-! ## Clips and faults -/

theorem Books.updateClip {x : Handle} {f : Clip → Clip} (hf : ∀ c : Clip, c.booked (f c)) : Books h e (e.updateClip x f) where
  frame := by
    unfold Engine.updateClip
    split <;> rfl
  clip c hc := by
    rw [Engine.updateClip_clipAt, hc]
    refine ⟨_, rfl, ?_⟩
    split
    · exact hf c
    · rfl
  card k r hr := ⟨r, by simpa using hr, rfl⟩
  events := ⟨[], by simp, List.forall_mem_nil _⟩

theorem Books.recomputeCopyState {x : Handle} : Books h e (e.recomputeCopyState x) := by
  unfold Engine.recomputeCopyState
  split
  · have derived : ∀ s : ClipCopyState, Books h e (e.updateClip x (fun c => { c with copyState := s })) :=
      fun s => .updateClip fun _ => rfl
    exact .ite ((derived _).trans (.signal .clipSecured rfl)) (derived _)
  · exact .refl e

theorem Books.createFault {f : FaultInput} {s : Severity} : Books h e (e.createFault f s) :=
  have raised : EventKind.faultRaised ≠ .clipCopied := by decide
  .but (new := [_]) rfl fun ev hx => by rw [List.mem_singleton.mp hx]; exact raised

theorem Books.dropFault {f : FaultInput} {s : Severity} : Books h e (e.dropFault f s) :=
  .ite (.updateClip fun _ => rfl) (.but (new := []) (by simp) (List.forall_mem_nil _))

/-- A raised fault is a change of the books (R179 to R181). -/
theorem Books.raiseFault {f : FaultInput} : Books h e (e.raiseFault g f) := by
  have changed : ∀ fs, Books h e { e with faults := fs } := fun fs => .but (new := []) (by simp) (List.forall_mem_nil _)
  rcases e.raiseFault_cases g f with ⟨-, r⟩ | ⟨x, -, ⟨-, r⟩ | ⟨-, r⟩⟩ | ⟨-, -, r⟩ | ⟨-, -, ⟨v, -, r⟩ | ⟨-, r⟩⟩ <;> rw [r]
  · exact .refl e
  · exact (changed _).trans (.signal .faultRaised rfl)
  · exact changed _
  · exact .createFault
  · exact (changed _).trans .createFault
  · exact .dropFault

/-! ## Cards -/

theorem Books.updateCard {k : Fin 32} {f : CardRecord → CardRecord} (hf : ∀ r : CardRecord, r.booked (f r)) : Books h e (e.updateCard k f) where
  frame := by
    unfold Engine.updateCard
    split <;> rfl
  clip c hc := ⟨c, by unfold Engine.clipAt at *; simpa using hc, rfl⟩
  card m r hr := by
    rw [Engine.updateCard_card, hr]
    refine ⟨_, rfl, ?_⟩
    split
    · exact hf r
    · rfl
  events := ⟨[], by simp, List.forall_mem_nil _⟩

theorem Books.setCardState {k : Fin 32} {x : CardState} : Books h e (e.setCardState k x) := by
  have updated : Books h e (e.updateCard k (fun r => { r with state := x })) := .updateCard fun _ => rfl
  unfold Engine.setCardState
  dsimp only
  split
  · exact updated.trans (.but (new := []) (by simp [Engine.drivePort, Engine.updatePort]) (List.forall_mem_nil _))
  · exact updated

theorem Books.recomputeCard {k : Fin 32} : Books h e (e.recomputeCard k) := by
  obtain same | ⟨offloaded, -⟩ | ⟨x, set⟩ := e.recomputeCard_cases k
  · rw [same]
    exact .refl e
  · have freed : Books h e ((e.setCardState k .offloaded).updateCard k (fun r => { r with heldByRequest := false })) :=
      Books.setCardState.trans (.updateCard fun _ => rfl)
    rw [offloaded]
    exact freed.trans (.ite (.signal .cardSecured rfl) (.refl _))
  · rw [set]
    exact .setCardState

theorem Books.settleRelease {k : Fin 32} : Books h e (e.settleRelease k) := by
  unfold Engine.settleRelease
  split
  · exact .ite (Books.setCardState.trans (.signal .cardReleased rfl)) (.refl e)
  · exact .refl e

/-- What follows a descriptor's removal is a change of the books (R93). -/
theorem Books.settleRemoval {d : Descriptor} : Books h e (e.settleRemoval d) := by
  unfold Engine.settleRemoval
  dsimp only
  split
  · exact (Books.recomputeCopyState.trans .recomputeCard).trans .settleRelease
  · exact Books.recomputeCard.trans .settleRelease

/-! ## Copies -/

/-- A clip record with its copy on a volume entry updated. -/
def Clip.withCopy (c : Clip) (v : Fin 16) (f : CopyRecord → CopyRecord) : Clip :=
  { c with copies := c.copies.map (fun r => if r.volume = v then f r else r) }

/-- A copy record changes: the clip record has it, and what follows is a change of the books (R10). -/
theorem Books.changeCopy (hc : e.clipAt h = some c) (v : Fin 16) (f : CopyRecord → CopyRecord) :
    Books h (e.putClip h (c.withCopy v f)) (e.changeCopy h v f) := by
  unfold Engine.changeCopy Engine.updateCopy
  rw [Engine.updateClip_put hc]
  exact .recomputeCopyState

/-- The clip of a handle is as given, but for what the books change. -/
def Engine.holdsClip (e : Engine) (h : Handle) (c : Clip) : Prop := ∃ c', e.clipAt h = some c' ∧ c.booked c'

theorem Books.holdsClip (k : Books h a b) (held : a.holdsClip h c) : b.holdsClip h c := by
  obtain ⟨c', hc', first⟩ := held
  obtain ⟨c'', hc'', second⟩ := k.clip c' hc'
  exact ⟨c'', hc'', first.trans second⟩

theorem Engine.putClip_holdsClip : (e.putClip h c).holdsClip h c := ⟨c, Engine.putClip_clipAt, rfl⟩

theorem Engine.holdsClip.copyOn (held : e.holdsClip h c) (v : Fin 16) : (e.clipAt h).bind (·.copyOn v) = c.copyOn v := by
  obtain ⟨c', hc', booked⟩ := held
  rw [hc']
  exact booked.copyOn v

theorem Books.mem_events (k : Books h a b) {ev : Event} (hev : ev ∈ a.events) : ev ∈ b.events := by
  obtain ⟨new, hn, -⟩ := k.events
  rw [hn]
  exact List.mem_append_left _ hev

theorem Books.not_copied (k : Books h a b) (none_before : ∀ ev ∈ a.events, ev.kind ≠ .clipCopied) :
    ∀ ev ∈ b.events, ev.kind ≠ .clipCopied := by
  obtain ⟨new, hn, others⟩ := k.events
  rw [hn]
  exact fun ev hev => (List.mem_append.mp hev).elim (none_before ev) (others ev)

/-- The copy on a volume entry, after the one there is updated. -/
theorem Clip.withCopy_copyOn {v : Fin 16} {y : CopyRecord} {f : CopyRecord → CopyRecord} (hf : ∀ r, (f r).volume = r.volume)
    (hy : c.copyOn v = some y) : (c.withCopy v f).copyOn v = some (f y) := by
  refine (Clip.copyOn_map c f hf).trans ?_
  rw [hy, Option.map_some, if_pos rfl]

end

end Sys2Proof.Machine
end

