-- ==== Sys2Proof/Proofs/CopyLanes.lean ====
section
/-!
SUPPORT. A lane that runs a COPY (R72, R73, R82, R85 to R90): what it holds after an update, how an answer from a port reaches it, when it waits,
goes on or stops, and what the end of its descriptor leaves.
-/

namespace Sys2Proof.Machine

section
variable {a b e : Engine} {g : Settings} {h : Handle} {l : Fin 2} {c : Clip} {r : CardRecord} {run : LaneRun} {d : Descriptor} {p : Fin 4}
  {v : Fin 16} {x : Reply}

/-! ## What a lane holds -/

/-- The blocks with a lane that runs. -/
def Engine.putLane (e : Engine) (l : Fin 2) (run : LaneRun) : Engine := { e with lanes := e.lanes.set l (.running run) }

theorem Engine.laneRun_eq_some : e.laneRun l = some run ↔ e.lanes[l] = .running run := by
  unfold Engine.laneRun
  cases e.lanes[l] <;> simp

theorem Engine.updateLane_put (hl : e.laneRun l = some run) (f : LaneRun → LaneRun) : e.updateLane l f = e.putLane l (f run) := by
  unfold Engine.updateLane
  rw [Engine.laneRun_eq_some.mp hl]
  rfl

@[simp] theorem Engine.putLane_laneRun : (e.putLane l run).laneRun l = some run := Engine.laneRun_eq_some.mpr (by simp [Engine.putLane])

@[simp] theorem Engine.putLane_putLane {run' : LaneRun} : (e.putLane l run).putLane l run' = e.putLane l run' := by simp [Engine.putLane]

/-- An update of what a lane has just been given. -/
theorem Engine.putLane_updateLane (f : LaneRun → LaneRun) : (e.putLane l run).updateLane l f = e.putLane l (f run) := by
  rw [Engine.updateLane_put Engine.putLane_laneRun, Engine.putLane_putLane]

/-- With a lane running that was not IDLE, or the other one taken, no lane is IDLE. -/
theorem Engine.putLane_lanesTaken (others : ∀ m : Fin 2, m ≠ l → e.lanes[m] ≠ .idle) : (e.putLane l run).lanesTaken = true := by
  unfold Engine.lanesTaken Engine.idleLane
  rw [decide_eq_true_eq, List.find?_eq_none]
  intro m _ hm
  by_cases hl : m = l
  · subst hl
    simp [Engine.putLane] at hm
  · refine others m hl ?_
    simpa [Engine.putLane, Vector.getElem_set, Fin.val_inj, Ne.symm hl] using hm

theorem Engine.lanesTaken_others (h : e.lanesTaken = true) (m : Fin 2) : e.lanes[m] ≠ .idle := by
  unfold Engine.lanesTaken Engine.idleLane at h
  rw [decide_eq_true_eq, List.find?_eq_none] at h
  exact fun k => h m (List.mem_finRange m) (decide_eq_true k)

/-- A target with a status, in what a lane holds. -/
def LaneRun.withTarget (run : LaneRun) (v : Fin 16) (s : TargetStatus) : LaneRun :=
  { run with targets := run.targets.map (fun t => if t.entry = v then { t with status := s } else t) }

theorem Engine.setTarget_put (hl : e.laneRun l = some run) (s : TargetStatus) : e.setTarget l v s = e.putLane l (run.withTarget v s) :=
  Engine.updateLane_put hl _

theorem LaneRun.withTarget_single {s s' : TargetStatus} (ht : run.targets = [⟨v, p, s⟩]) :
    run.withTarget v s' = { run with targets := [⟨v, p, s'⟩] } := by
  simp [LaneRun.withTarget, ht]

/-! ## A COPY that runs -/

/-- A lane runs a COPY of a clip, whose record and whose card's record are as given. -/
structure CopyRuns (e : Engine) (l : Fin 2) (run : LaneRun) (d : Descriptor) (h : Handle) (c : Clip) (r : CardRecord) : Prop where
  lane : e.laneRun l = some run
  desc : e.descriptor run.slot = some d
  kind : d.kind = .copy
  clip : d.clip = some h
  found : e.clipAt h = some c
  card : e.cards[d.card] = some r

theorem CopyRuns.work (k : CopyRuns e l run d h c r) : e.laneWork l = some (run, d) := Engine.laneWork_eq k.lane k.desc

theorem CopyRuns.both (k : CopyRuns e l run d h c r) : e.clipAndCard d = some (c, r) := by
  unfold Engine.clipAndCard
  rw [k.clip, Option.bind_some, k.found, k.card]

/-- The lane goes on with the same descriptor. -/
theorem CopyRuns.putLane (k : CopyRuns e l run d h c r) {run' : LaneRun} (slot : run'.slot = run.slot) :
    CopyRuns (e.putLane l run') l run' d h c r :=
  ⟨Engine.putLane_laneRun, by rw [slot]; exact k.desc, k.kind, k.clip, k.found, k.card⟩

/-- The COPY after a change of the books. -/
theorem CopyRuns.books (k : CopyRuns e l run d h c r) (m : Books h e b) :
    ∃ c' r', CopyRuns b l run d h c' r' ∧ c.booked c' ∧ r.booked r' := by
  obtain ⟨c', hc, clip⟩ := m.clip c k.found
  obtain ⟨r', hr, card⟩ := m.card _ r k.card
  refine ⟨c', r', ⟨?_, ?_, k.kind, k.clip, hc, hr⟩, clip, card⟩ <;> rw [m.frame]
  · exact k.lane
  · exact k.desc

/-- The COPY with another record of its clip. -/
theorem CopyRuns.putClip (k : CopyRuns e l run d h c r) (c' : Clip) : CopyRuns (e.putClip h c') l run d h c' r :=
  ⟨k.lane, k.desc, k.kind, k.clip, Engine.putClip_clipAt, k.card⟩

/-! ## Answers -/

/-- The blocks with nothing in flight at a port. -/
def Engine.freed (e : Engine) (p : Fin 4) : Engine := { e with destPorts := e.destPorts.set p { e.destPorts[p] with inflight := none } }

/-- The operation in flight at a port ends with nothing waiting there (R72). -/
theorem DestPort.endOperation_last {y : DestPort} (first : y.waiting = []) : y.endOperation = { y with inflight := none } := by
  unfold DestPort.endOperation DestPort.nextWaiting
  dsimp only
  rw [first]
  rfl

theorem Engine.noteFull_destPorts : (e.noteFull p x).destPorts = e.destPorts := by
  unfold Engine.noteFull
  split
  · exact Engine.updateVolume_destPorts _ _ _
  · rfl

/-- A NO_SPACE answer sets the full flag of the volume at the port (R70). -/
theorem Engine.noteFull_noSpace (at_p : e.entryAt p = some v) : e.noteFull p .noSpace = e.updateVolume v (fun x => { x with full := true }) := by
  unfold Engine.noteFull
  rw [at_p]

/-- The answer to a lane's operation at a port where nothing waits reaches the lane (R73). -/
theorem Engine.operationAnswered_lane {request : OpRequest} {reply : OpRequest → Option Reply}
    (flight : (e.destPorts[p]).inflight = some ⟨.lane l, request, false⟩) (first : (e.destPorts[p]).waiting = [])
    (answer : reply request = some x) :
    e.operationAnswered g p reply = (((e.noteFull p x).freed p).laneReply g l p x).settleTransfer g := by
  have ended : (e.noteFull p x).updateDest p DestPort.endOperation = (e.noteFull p x).freed p := by
    unfold Engine.updateDest Engine.freed
    rw [DestPort.endOperation_last (by rwa [Engine.noteFull_destPorts])]
  unfold Engine.operationAnswered Engine.operationEnds
  rw [flight]
  dsimp only
  rw [answer]
  dsimp only
  rw [ended]
  rfl

/-- A step in which a lane's operation is answered, in a calm part. -/
theorem State.lane_answered {s : State} {request : OpRequest} {reply : OpRequest → Option Reply} (hs : s.calm = true)
    (flight : (s.engine.destPorts[p]).inflight = some ⟨.lane l, request, false⟩) (first : (s.engine.destPorts[p]).waiting = [])
    (answer : reply request = some x)
    (settled : (((s.blocks.noteFull p x).freed p).laneReply s.settings l p x).settleTransfer s.settings = e)
    (requeues : e.removed = false ∨ e.requeues = []) :
    ∃ t, Host.Outcome.next (φ := Fault) (ρ := Refusal) (s.run (fun g e => e.operationAnswered g p reply)) = .next t ∧
      s.ranInPlace t ∧ t.engine = e := by
  obtain ⟨running, silent, -, -⟩ := State.calm_parts hs
  exact State.run_silent running silent ((Engine.operationAnswered_lane (e := s.blocks) flight first answer).trans settled) requeues

/-- The target at a port is found by its port. -/
theorem LaneRun.targetAt {t : Target} (ht : t ∈ run.targets) (ports : (run.targets.map (·.port)).Nodup)
    (stands : (t.status.live || decide (t.status = .closing)) = true) :
    run.targets.find? (fun u => decide (u.port = t.port) && (u.status.live || decide (u.status = .closing))) = some t := by
  revert ht ports
  generalize run.targets = ts
  intro ht ports
  induction ts with
  | nil => cases ht
  | cons u us ih =>
    rw [List.map_cons, List.nodup_cons] at ports
    rcases List.mem_cons.mp ht with rfl | ht
    · simp [stands]
    · have other : u.port ≠ t.port := fun same => ports.1 (same ▸ List.mem_map_of_mem ht)
      rw [List.find?_cons_of_neg (by simp [other])]
      exact ih ht ports.2

/-- An answer from a target's port moves the target, and the COPY (R73). -/
theorem CopyRuns.reply (k : CopyRuns e l run d h c r) {t : Target} (ht : t ∈ run.targets) (ports : (run.targets.map (·.port)).Nodup)
    (stands : (t.status.live || decide (t.status = .closing)) = true) :
    e.laneReply g l t.port x = (e.targetReply g l run d t x).advanceCopy g l := by
  unfold Engine.laneReply Engine.copyReply
  rw [k.work]
  dsimp only
  rw [k.kind, k.clip, Option.bind_some, k.found]
  dsimp only
  rw [LaneRun.targetAt ht ports stands]

/-- The same for a COPY with one target. -/
theorem CopyRuns.reply_single (k : CopyRuns e l run d h c r) {s : TargetStatus} (ht : run.targets = [⟨v, p, s⟩])
    (stands : (s.live || decide (s = .closing)) = true) :
    e.laneReply g l p x = (e.targetReply g l run d ⟨v, p, s⟩ x).advanceCopy g l :=
  k.reply (t := ⟨v, p, s⟩) (by simp [ht]) (by simp [ht]) stands

/-! ## Where a COPY stands -/

/-- A COPY that awaits another answer waits (R85, R86). -/
theorem CopyRuns.waits (k : CopyRuns e l run d h c r) (phase : run.phase ≠ .closing) (live : run.targets.any (·.status.live) = true)
    (awaits : run.awaits = true) : e.advanceCopy g l = e := by
  unfold Engine.advanceCopy
  rw [k.work]
  dsimp only
  rw [k.both]
  dsimp only
  rw [if_neg phase, if_neg (by simp [live]), if_pos awaits]

/-- A COPY whose last APPEND is answered completes its block (R86). -/
theorem CopyRuns.appended (k : CopyRuns e l run d h c r) (phase : run.phase = .appending) (live : run.targets.any (·.status.live) = true)
    (awaits : run.awaits = false) : e.advanceCopy g l = (e.completeBlock g l run d c).settleClosing g l := by
  unfold Engine.advanceCopy
  rw [k.work]
  dsimp only
  rw [k.both]
  dsimp only
  rw [if_neg (by simp [phase]), if_neg (by simp [live]), if_neg (by simp [awaits]), phase]

/-- A COPY whose last target has dropped out stops (R87). -/
theorem CopyRuns.dropped (k : CopyRuns e l run d h c r) (phase : run.phase ≠ .closing) (dead : run.targets.any (·.status.live) = false) :
    e.advanceCopy g l = e.stopCopy g l .allDropped := by
  unfold Engine.advanceCopy
  rw [k.work]
  dsimp only
  rw [k.both]
  dsimp only
  rw [if_neg phase, if_pos dead]

/-- A COPY whose last CLOSE is answered finishes (R88). -/
theorem CopyRuns.closed (k : CopyRuns e l run d h c r) (phase : run.phase = .closing) (awaits : run.awaits = false) :
    e.advanceCopy g l = e.finishCopy g l run d c r := by
  unfold Engine.advanceCopy Engine.settleClosing
  rw [k.work]
  dsimp only
  rw [k.both]
  dsimp only
  rw [if_pos phase, if_pos ⟨phase, awaits⟩]

theorem Engine.settleClosing_waits (hl : e.laneRun l = some run) (waits : ¬ (run.phase = .closing ∧ run.awaits = false)) :
    e.settleClosing g l = e := by
  unfold Engine.settleClosing Engine.laneWork
  rw [hl]
  cases hd : e.descriptor run.slot with
  | none => simp [hd]
  | some d =>
    simp only [hd, Option.map_some]
    split
    · exact if_neg waits
    · rfl

/-! ## The end of a descriptor -/

theorem Engine.signal_move (ev : Event) : e.cardsMove (e.signal ev) := rfl

theorem Engine.recomputeCopyState_move : e.cardsMove (e.recomputeCopyState h) := by
  unfold Engine.recomputeCopyState
  split
  · have derived : ∀ s : ClipCopyState, e.cardsMove (e.updateClip h (fun c => { c with copyState := s })) := fun s => by
      unfold Engine.updateClip
      split <;> rfl
    dsimp only
    split
    · exact (derived _).trans (Engine.signal_move _)
    · exact derived _
  · exact .refl e

theorem Engine.settleRelease_move {k : Fin 32} : e.cardsMove (e.settleRelease k) := by
  unfold Engine.settleRelease
  split
  · split
    · exact (Engine.setCardState_move _).trans (Engine.signal_move _)
    · exact .refl e
  · exact .refl e

theorem Engine.settleRemoval_move : e.cardsMove (e.settleRemoval d) := by
  unfold Engine.settleRemoval
  dsimp only
  split
  · exact (Engine.recomputeCopyState_move.trans Engine.recomputeCard_move).trans Engine.settleRelease_move
  · exact Engine.recomputeCard_move.trans Engine.settleRelease_move

/-- The change leaves everything but the ports of both kinds and the lanes. -/
def Engine.portsMove (a b : Engine) : Prop := b = { a with destPorts := b.destPorts, cardPorts := b.cardPorts, lanes := b.lanes }

theorem Engine.updateDest_move (f : DestPort → DestPort) : e.portsMove (e.updateDest p f) := rfl

theorem Engine.updatePort_move (f : CardPort → CardPort) : e.portsMove (e.updatePort p f) := rfl

theorem Engine.portsMove.foldl {α : Type} {f : Engine → α → Engine} (hf : ∀ (e : Engine) (x : α), e.portsMove (f e x)) (xs : List α)
    (k : a.portsMove e) : a.portsMove (xs.foldl f e) := by
  induction xs generalizing e with
  | nil => exact k
  | cons x xs ih =>
    refine ih ?_
    have moved := hf e x
    unfold Engine.portsMove at *
    rw [moved, k]

theorem Engine.releaseLane_move : e.portsMove (e.releaseLane l) := by
  have withdrawn : e.portsMove (e.withdraw (.lane l)) := .foldl (fun _ _ => Engine.updateDest_move _) _ rfl
  have given : e.portsMove ((List.finRange 4).foldl (fun (e : Engine) p => e.updatePort p (fun x =>
      { x with read := if x.read.map (·.lane) = some l then none else x.read })) (e.withdraw (.lane l))) :=
    .foldl (fun _ _ => Engine.updatePort_move _) _ withdrawn
  unfold Engine.releaseLane
  dsimp only
  generalize List.foldl _ _ _ = x at given
  unfold Engine.portsMove at *
  rw [given]

/-- What the end of a COPY's descriptor leaves (R93). -/
structure CopyEnded (h : Handle) (l : Fin 2) (slot : Fin 64) (a b : Engine) : Prop where
  queue : b.queue = a.queue.filter (fun x => decide (x.slot ≠ slot))
  lane : b.laneRun l = none
  volumes : b.volumes = a.volumes
  faults : b.faults = a.faults
  scans : b.scans = a.scans
  jobs : b.jobs = a.jobs
  contexts : b.contexts = a.contexts
  requeues : b.requeues = a.requeues
  clip : ∀ c, a.holdsClip h c → b.holdsClip h c
  events : ∀ ev ∈ a.events, ev ∈ b.events
  others : (∀ ev ∈ a.events, ev.kind ≠ .clipCopied) → ∀ ev ∈ b.events, ev.kind ≠ .clipCopied

theorem CopyEnded.endDescriptor : CopyEnded h l d.slot e (e.endDescriptor l d) := by
  have books : Books h (e.dropDescriptor d.slot) ((e.dropDescriptor d.slot).settleRemoval d) := .settleRemoval
  have cards : (e.dropDescriptor d.slot).cardsMove ((e.dropDescriptor d.slot).settleRemoval d) := Engine.settleRemoval_move
  have free : (e.endDescriptor l d).laneRun l = none := Engine.releaseLane_laneRun
  have ports : ((e.dropDescriptor d.slot).settleRemoval d).portsMove (e.endDescriptor l d) := Engine.releaseLane_move
  generalize (e.dropDescriptor d.slot).settleRemoval d = x at books cards ports
  generalize e.endDescriptor l d = y at free ports
  have clips : ∀ c, x.holdsClip h c → y.holdsClip h c := by rw [ports]; exact fun _ => id
  have events : y.events = x.events := by rw [ports]
  exact {
    queue := by rw [ports, books.frame]; rfl
    lane := free
    volumes := by rw [ports, books.frame]; rfl
    faults := by rw [ports, cards]; rfl
    scans := by rw [ports, books.frame]; rfl
    jobs := by rw [ports, books.frame]; rfl
    contexts := by rw [ports, books.frame]; rfl
    requeues := by rw [ports, books.frame]; rfl
    clip := fun c held => clips c (books.holdsClip held)
    events := fun ev hev => events ▸ books.mem_events hev
    others := fun before => events ▸ books.not_copied before }

/-- A COPY with no live target stops, and nothing of its copies changes (R87, R90). -/
theorem Engine.stopCopy_dead {h' : Handle} (hw : e.laneWork l = some (run, d)) (clip : d.clip = some h') (dead : run.targets.any (·.status.live) = false) :
    CopyEnded h l d.slot e (e.stopCopy g l .allDropped) := by
  have lane : e.laneRun l = some run := by
    unfold Engine.laneWork at hw
    split at hw
    · obtain ⟨_, -, same⟩ := Option.map_eq_some_iff.mp hw
      cases same
      assumption
    · cases hw
  have none_live : run.targets.filter (·.status.live) = [] := by
    rw [List.filter_eq_nil_iff]
    simpa using dead
  have stopped : e.stopCopy g l .allDropped = (e.putLane l { run with parse := none, sizeFault := none }).endDescriptor l d := by
    unfold Engine.stopCopy
    rw [hw]
    dsimp only
    rw [clip]
    dsimp only
    rw [none_live, List.foldl_nil, Engine.updateLane_put lane]
  rw [stopped]
  obtain ⟨queue, free, volumes, faults, scans, jobs, contexts, requeues, clip, events, others⟩ :=
    CopyEnded.endDescriptor (h := h) (l := l) (d := d) (e := e.putLane l { run with parse := none, sizeFault := none })
  exact ⟨queue, free, volumes, faults, scans, jobs, contexts, requeues, clip, events, others⟩

/-- A copy that fails: its record is FAILED, and COPY_FAILED is signaled (R87). -/
theorem Engine.copyFails_books (clip : d.clip = some h) (hc : e.clipAt h = some c) (n : Nat) :
    Books h (e.putClip h (c.withCopy v (fun y => { y with state := .failed }))) (e.copyFails g d v n) ∧
      copyFailedEvent d.card h v ∈ (e.copyFails g d v n).events := by
  have failed : Books h _ (e.setCopyState h v .failed) := Books.changeCopy hc v (fun y => { y with state := .failed })
  have told : Books h (e.setCopyState h v .failed) ((e.setCopyState h v .failed).signal (copyFailedEvent d.card h v)) :=
    .signal .copyFailed rfl
  unfold Engine.copyFails
  rw [clip]
  exact ⟨(failed.trans told).trans .raiseFault, (Books.raiseFault (h := h)).mem_events (List.mem_append_right _ (List.mem_singleton.mpr rfl))⟩

end

end Sys2Proof.Machine
end

