-- ==== Sys2Proof/Proofs/CopyBlocks.lean ====
section
/-!
SUPPORT. The blocks of a COPY (R85 to R88): the answers to its targets' APPENDs, the read of the next block, and the CLOSE after the last.
-/

namespace Sys2Proof.Machine

section
variable {e : Engine} {g : Settings} {h : Handle} {l : Fin 2} {c : Clip} {r : CardRecord} {run : LaneRun} {d : Descriptor} {p : Fin 4}
  {v : Fin 16} {k : Word32} {s : State}

/-! ## Ports -/

/-- The blocks with a request of a lane just sent at a port (R72). -/
def Engine.asked (e : Engine) (p : Fin 4) (l : Fin 2) (request : OpRequest) : Engine :=
  { e with destPorts := e.destPorts.set p { e.destPorts[p] with inflight := some ⟨.lane l, request, false⟩, last := .lane l } }

theorem Engine.putLane_asked {request : OpRequest} : (e.putLane l run).asked p l request = (e.asked p l request).putLane l run := rfl

theorem Engine.ask_asked (online : (e.destPorts[p]).state = .online) (free : (e.destPorts[p]).inflight = none)
    (first : (e.destPorts[p]).waiting = []) (request : OpRequest) : e.ask p (.lane l) request = some (e.asked p l request) := by
  unfold Engine.ask Engine.updateDest
  rw [online]
  dsimp only
  rw [DestPort.ask_free free first]
  rfl

theorem Engine.freed_port : (e.freed p).destPorts[p] = { e.destPorts[p] with inflight := none } := by simp [Engine.freed]

theorem Engine.freed_other {q : Fin 4} (hq : q ≠ p) : (e.freed p).destPorts[q] = e.destPorts[q] := by
  simp [Engine.freed, Fin.val_inj, Ne.symm hq]

/-- A request at a port whose operation has just ended. -/
theorem Engine.freed_asked (request : OpRequest) : (e.freed p).asked p l request =
    { e with destPorts := e.destPorts.set p { e.destPorts[p] with inflight := some ⟨.lane l, request, false⟩, last := .lane l } } := by
  simp [Engine.freed, Engine.asked]

/-! ## A block complete -/

/-- The COPY's descriptor with the progress risen by the block in hand. -/
def Descriptor.risen (d : Descriptor) (run : LaneRun) : Descriptor := { d with progress := d.progress + run.block.length }

/-- The blocks with that descriptor (R86). -/
def Engine.blockDone (e : Engine) (run : LaneRun) (d : Descriptor) : Engine := e.updateDescriptor d.slot (fun _ => d.risen run)

/-- With no abort, the next block or the CLOSEs follow a block that is complete (R86, R88). -/
theorem Engine.completeBlock_eq (mark : run.abortMark = false) : e.completeBlock g l run d c =
    if d.progress + run.block.length < c.byteLength then (e.blockDone run d).readBlock g l run (d.risen run) c
    else (e.blockDone run d).completeCopy g l run (d.risen run) c := by
  unfold Engine.completeBlock
  dsimp only
  rw [if_neg (by simp [mark])]
  rfl

/-- What the lane holds once its one target has the block. -/
def LaneRun.appended (run : LaneRun) (v : Fin 16) (p : Fin 4) (k : Word32) : LaneRun := { run with targets := [⟨v, p, .isOpen k⟩] }

/-- The APPEND of a COPY with one target is answered: its block is complete (R86). -/
theorem CopyRuns.append_completes (w : CopyRuns e l run d h c r) (phase : run.phase = .appending)
    (targets : run.targets = [⟨v, p, .appending k⟩]) :
    e.laneReply g l p .ok = ((e.putLane l (run.appended v p k)).completeBlock g l (run.appended v p k) d c).settleClosing g l := by
  have opened : e.targetReply g l run d ⟨v, p, .appending k⟩ .ok = e.putLane l (run.appended v p k) := by
    unfold LaneRun.appended
    rw [← LaneRun.withTarget_single targets]
    exact Engine.setTarget_put w.lane _
  have waits : (run.appended v p k).awaits = false := by
    unfold LaneRun.awaits
    rw [show (run.appended v p k).phase = .appending from phase]
    cases (run.appended v p k).source <;> rfl
  rw [w.reply_single targets rfl, opened]
  exact (w.putLane (run' := run.appended v p k) rfl).appended phase rfl waits

/-- A COPY whose one target has its block asks for the next one (R86). -/
theorem CopyRuns.append_reads (w : CopyRuns e l run d h c r) (phase : run.phase = .appending) (targets : run.targets = [⟨v, p, .appending k⟩])
    (mark : run.abortMark = false) (more : d.progress + run.block.length < c.byteLength) {e' : Engine}
    (asks : ((e.blockDone run d).putLane l { run.appended v p k with phase := .reading, block := [] }).askBlock g l (run.appended v p k)
      (d.risen run) c = some e')
    (lane : e'.laneRun l = some { run.appended v p k with phase := .reading, block := [] }) : e.laneReply g l p .ok = e' := by
  have reading : ((e.putLane l (run.appended v p k)).blockDone run d).updateLane l (fun r => { r with phase := .reading, block := [] }) =
      (e.blockDone run d).putLane l { run.appended v p k with phase := .reading, block := [] } :=
    Engine.putLane_updateLane (e := e.blockDone run d) _
  have reads : (e.putLane l (run.appended v p k)).completeBlock g l (run.appended v p k) d c = e' := by
    rw [Engine.completeBlock_eq (run := run.appended v p k) mark]
    refine (if_pos more).trans ?_
    rw [← reading] at asks
    exact congrArg (Option.getD · _) asks
  rw [w.append_completes phase targets, reads]
  exact Engine.settleClosing_waits lane nofun

/-- The card's port takes the read of a block that its take holds (R34, R86). -/
theorem Engine.askBlock_card {cp : Fin 4} {dir : Directory} {tk : Take} (source : run.source = none) (card : e.cards[d.card] = some r)
    (attached : r.attached = some cp) (ready : (e.cardPorts[cp]).state = .attached) (held : (e.cardPorts[cp]).held = some dir)
    (take : takeAt dir c.takeIndex = some tk) (long : c.byteLength ≤ tk.length) (more : d.progress < c.byteLength) :
    e.askBlock g l run d c = some (e.updatePort cp (fun x =>
      { x with read := some ⟨l, c.takeIndex, d.progress, min 1048576 (c.byteLength - d.progress), 0, (g.stall[cp]).period⟩ })) := by
  have within : d.progress + min 1048576 (c.byteLength - d.progress) ≤ tk.length := by omega
  unfold Engine.askBlock Engine.askCard
  rw [source, card, Option.bind_some, attached]
  dsimp only
  rw [ready, held, Option.bind_some, take]
  exact if_pos within

/-- A volume's port takes the read of a block from a COPY's open source (R86). -/
theorem Engine.askBlock_volume {w : Fin 16} {q : Fin 4} {i : Word32} (source : run.source = some ⟨w, q, .isOpen i⟩)
    (online : (e.destPorts[q]).state = .online) (free : (e.destPorts[q]).inflight = none) (first : (e.destPorts[q]).waiting = []) :
    e.askBlock g l run d c = some (e.asked q l (.read i d.progress (min 1048576 (c.byteLength - d.progress)))) := by
  unfold Engine.askBlock
  rw [source]
  exact Engine.ask_asked online free first _

/-! ## The last block -/

/-- What settling the read digest leaves of the clip records (R88). -/
def Engine.digestKept (e : Engine) (h : Handle) (c : Clip) (read : Word64) : Engine :=
  if c.sourceDigest = none ∨ c.sourceDigest = some read then e.putClip h { c with sourceDigest := some read } else e

theorem Engine.digestKept_putLane {read : Word64} : (e.putLane l run).digestKept h c read = (e.digestKept h c read).putLane l run := by
  unfold Engine.digestKept
  split <;> rfl

theorem Engine.digestKept_frame {read : Word64} : e.digestKept h c read = { e with
    clips := if c.sourceDigest = none ∨ c.sourceDigest = some read then e.clips.set h.slot ⟨h.gen, some { c with sourceDigest := some read }⟩
      else e.clips } := by
  unfold Engine.digestKept
  split <;> rfl

theorem Engine.digestKept_destPorts {read : Word64} : (e.digestKept h c read).destPorts = e.destPorts := by
  unfold Engine.digestKept
  split <;> rfl

/-- The lane after its read digest is settled. -/
def LaneRun.digested (run : LaneRun) (c : Clip) (read : Word64) : LaneRun :=
  { run with readDigest := some read, consistent := decide (c.sourceDigest = none ∨ c.sourceDigest = some read) }

/-- The read digest of a card-sourced COPY: equal to the clip's source digest, or the first (R88). -/
theorem Engine.settleDigest_card (lane : e.laneRun l = some run) (found : e.clipAt h = some c) (handle : c.handle = h)
    (source : d.source = some .card) :
    let read := digestOf run.crcHigh run.crcLow
    e.settleDigest l run d c = (e.digestKept h c read).putLane l (run.digested c read) := by
  intro read
  have same : (decide (c.sourceDigest = some read) || (decide (d.source = some .card) && c.sourceDigest.isNone)) =
      decide (c.sourceDigest = none ∨ c.sourceDigest = some read) := by
    rw [source]
    cases c.sourceDigest <;> simp
  have updated : e.updateClip c.handle (fun c => { c with sourceDigest := some read }) = e.putClip h { c with sourceDigest := some read } :=
    (congrArg (fun x => e.updateClip x (fun c => { c with sourceDigest := some read })) handle).trans (Engine.updateClip_put found)
  have kept : (e.digestKept h c read).laneRun l = some run := by
    unfold Engine.digestKept
    split <;> exact lane
  unfold Engine.settleDigest
  dsimp only
  rw [same, updated, show decide (d.source = some .card) = true from decide_eq_true source, Bool.true_and]
  simp only [decide_eq_true_eq]
  exact Engine.updateLane_put kept _

/-- CLOSE goes to an open target at a port with nothing under way (R88). -/
theorem Engine.closeTarget_free (lane : e.laneRun l = some run) (targets : run.targets = [⟨v, p, .isOpen k⟩])
    (online : (e.destPorts[p]).state = .online) (free : (e.destPorts[p]).inflight = none) (first : (e.destPorts[p]).waiting = []) :
    Engine.closeTarget g l d e ⟨v, p, .isOpen k⟩ = (e.asked p l (.close k)).putLane l { run with targets := [⟨v, p, .closing⟩] } := by
  unfold Engine.closeTarget
  dsimp only
  rw [Engine.ask_asked online free first]
  dsimp only
  rw [← LaneRun.withTarget_single targets]
  exact Engine.setTarget_put (e := e.asked p l (.close k)) lane _

/-- The last block complete, CLOSE goes to the one open target (R88). -/
theorem CopyRuns.append_closes (w : CopyRuns e l run d h c r) (handle : c.handle = h) (of_card : d.source = some .card)
    (source : run.source = none) (phase : run.phase = .appending) (targets : run.targets = [⟨v, p, .appending k⟩]) (mark : run.abortMark = false)
    (last : c.byteLength ≤ d.progress + run.block.length) (online : (e.destPorts[p]).state = .online)
    (free : (e.destPorts[p]).inflight = none) (first : (e.destPorts[p]).waiting = []) :
    let read := digestOf run.crcHigh run.crcLow
    e.laneReply g l p .ok = (((e.blockDone run d).digestKept h c read).asked p l (.close k)).putLane l
      { run.digested c read with targets := [⟨v, p, .closing⟩], phase := .closing, block := [] } := by
  intro read
  have digest : ((e.putLane l (run.appended v p k)).blockDone (run.appended v p k) d).settleDigest l (run.appended v p k) (d.risen run) c =
      ((e.blockDone run d).digestKept h c read).putLane l ((run.appended v p k).digested c read) := by
    have settled : ((e.blockDone run d).putLane l (run.appended v p k)).settleDigest l (run.appended v p k) (d.risen run) c =
        (((e.blockDone run d).putLane l (run.appended v p k)).digestKept h c read).putLane l ((run.appended v p k).digested c read) :=
      Engine.settleDigest_card Engine.putLane_laneRun w.found handle of_card
    rw [Engine.digestKept_putLane, Engine.putLane_putLane] at settled
    exact settled
  have ports : ((e.blockDone run d).digestKept h c read).destPorts = e.destPorts := Engine.digestKept_destPorts
  generalize (e.blockDone run d).digestKept h c read = x at digest ports
  have closes : (e.putLane l (run.appended v p k)).completeBlock g l (run.appended v p k) d c = (x.asked p l (.close k)).putLane l
      { run.digested c read with targets := [⟨v, p, .closing⟩], phase := .closing, block := [] } := by
    rw [Engine.completeBlock_eq (run := run.appended v p k) mark]
    refine (if_neg (Nat.not_lt.mpr last)).trans ?_
    have none_open : ∀ y : Engine, y.closeSource l (run.appended v p k) = y := fun y => by
      unfold Engine.closeSource
      rw [show (run.appended v p k).source = none from source]
    unfold Engine.completeCopy
    dsimp only
    rw [none_open]
    refine (congrArg (fun y => List.foldl _ (Engine.updateLane y l _) _) digest).trans ?_
    rw [Engine.putLane_updateLane]
    have same : ∀ y, ((x.putLane l y).destPorts[p]) = e.destPorts[p] := fun y => congrArg (·[p]) ports
    refine (Engine.closeTarget_free Engine.putLane_laneRun rfl (by rwa [same]) (by rwa [same]) (by rwa [same])).trans ?_
    rw [Engine.putLane_asked, Engine.putLane_putLane]
    rfl
  rw [w.append_completes phase targets, closes]
  exact Engine.settleClosing_waits Engine.putLane_laneRun (fun k => nomatch k.2)

end

end Sys2Proof.Machine
end

