-- ==== Sys2Proof/Proofs/CopyAnswers.lean ====
section
/-!
SUPPORT. The other answers to a COPY (R70, R86 to R88, R93): a block from its volume source, a target among several, a target that fails, and
the CLOSE of its one target.
-/

namespace Sys2Proof.Machine

section
variable {a b e : Engine} {g : Settings} {h : Handle} {l : Fin 2} {c : Clip} {r : CardRecord} {run : LaneRun} {d : Descriptor} {p : Fin 4}
  {v : Fin 16} {k : Word32}

/-! ## A block from a volume -/

/-- A block from the volume source goes to the one open target (R86). -/
theorem CopyRuns.block_appends (w : CopyRuns e l run d h c r) {x : Fin 16} {q : Fin 4} {i : Word32} (of_volume : d.source = some (.volume x))
    (source : run.source = some ⟨x, q, .isOpen i⟩) (apart : p ≠ q) (targets : run.targets = [⟨v, p, .isOpen k⟩])
    (online : (e.destPorts[p]).state = .online) (free : (e.destPorts[p]).inflight = none) (first : (e.destPorts[p]).waiting = [])
    (bytes : List Byte) :
    e.laneReply g l q (.data bytes) =
      (e.asked p l (.append k bytes)).putLane l { run.entered d c bytes with targets := [⟨v, p, .appending k⟩] } := by
  have elsewhere : run.targets.find? (fun t => decide (t.port = q) && (t.status.live || decide (t.status = .closing))) = none := by
    rw [targets]
    simp [apart]
  have sent : Engine.appendTo g l d bytes (e.putLane l (run.entered d c bytes)) ⟨v, p, .isOpen k⟩ =
      (e.asked p l (.append k bytes)).putLane l { run.entered d c bytes with targets := [⟨v, p, .appending k⟩] } := by
    have moved : ((e.asked p l (.append k bytes)).putLane l (run.entered d c bytes)).setTarget l v (.appending k) =
        ((e.asked p l (.append k bytes)).putLane l (run.entered d c bytes)).putLane l ((run.entered d c bytes).withTarget v (.appending k)) :=
      Engine.setTarget_put Engine.putLane_laneRun _
    rw [Engine.putLane_putLane, LaneRun.withTarget_single (run := run.entered d c bytes) targets] at moved
    exact (Engine.appendTo_free (e := e.putLane l (run.entered d c bytes)) online free first).trans moved
  have waits := (w.putLane (run' := { run.entered d c bytes with targets := [⟨v, p, .appending k⟩] }) rfl).work
  unfold Engine.laneReply Engine.copyReply
  rw [w.work]
  dsimp only
  rw [w.kind, w.clip, Option.bind_some, w.found]
  dsimp only
  rw [elsewhere, source]
  dsimp only
  rw [if_pos rfl]
  unfold Engine.sourceReply Engine.copyBlock
  dsimp only
  rw [w.work]
  dsimp only
  rw [w.both]
  dsimp only
  rw [if_neg (by simp [of_volume]), Engine.updateLane_put w.lane, targets]
  exact (congrArg (Engine.advanceCopy g · l) sent).trans (Engine.advanceCopy_appending (q := p) (v := v) (k := k) waits rfl rfl)

/-! ## One of several targets -/

/-- Another target's APPEND is awaited. -/
def LaneRun.othersAppend (run : LaneRun) (v : Fin 16) : Prop := ∃ x ∈ run.targets, x.entry ≠ v ∧ ∃ i, x.status = .appending i

/-- While another target's APPEND is awaited, the COPY waits, whatever one target has come to (R86, R87). -/
theorem CopyRuns.others_wait {s : TargetStatus} (w : CopyRuns e l (run.withTarget v s) d h c r) (phase : run.phase = .appending)
    (others : run.othersAppend v) : e.advanceCopy g l = e := by
  obtain ⟨x, hx, other, i, appending⟩ := others
  have kept : x ∈ (run.withTarget v s).targets := List.mem_map.mpr ⟨x, hx, if_neg other⟩
  refine w.waits (by rw [show (run.withTarget v s).phase = .appending from phase]; nofun) ?_ ?_
  · exact List.any_eq_true.mpr ⟨x, kept, by rw [appending]; rfl⟩
  · have awaited : (run.withTarget v s).targets.any (fun t => t.status.awaited (run.withTarget v s).phase) = true :=
      List.any_eq_true.mpr ⟨x, kept, by rw [appending, show (run.withTarget v s).phase = .appending from phase]; rfl⟩
    unfold LaneRun.awaits
    rw [awaited]
    rfl

section
variable (w : CopyRuns e l run d h c r) (phase : run.phase = .appending) (target : ⟨v, p, .appending k⟩ ∈ run.targets)
  (ports : (run.targets.map (·.port)).Nodup) (others : run.othersAppend v)
include w phase target ports others

/-- The COPY waits for the others, with the block in one target (R86). -/
theorem CopyRuns.append_waits : e.laneReply g l p .ok = e.putLane l (run.withTarget v (.isOpen k)) := by
  have opened : e.targetReply g l run d ⟨v, p, .appending k⟩ .ok = e.putLane l (run.withTarget v (.isOpen k)) := Engine.setTarget_put w.lane _
  rw [w.reply (t := ⟨v, p, .appending k⟩) target ports rfl, opened]
  exact (w.putLane (run' := run.withTarget v (.isOpen k)) rfl).others_wait phase others

/-- The COPY goes on without a target that failed (R87). -/
theorem CopyRuns.append_drops {x : Reply} {n : Nat} (drops : ∀ t : Target, t.status = .appending k →
      e.targetReply g l run d t x = e.dropTarget g l d t.entry n) :
    e.laneReply g l p x = (e.putLane l (run.withTarget v .dropped)).copyFails g d v n := by
  have w' := w.putLane (run' := run.withTarget v .dropped) rfl
  have failed := (Engine.copyFails_books (e := e.putLane l (run.withTarget v .dropped)) (g := g) (v := v) w.clip w.found n).1
  obtain ⟨c', r', after, -, -⟩ := (w'.putClip _).books failed
  rw [w.reply (t := ⟨v, p, .appending k⟩) target ports rfl, drops _ rfl, Engine.dropTarget, Engine.setTarget_put w.lane]
  exact after.others_wait phase others

end

/-! ## The last target fails -/

/-- A COPY whose one target is answered NO_SPACE ends; its copy is FAILED and COPY_FAILED is signaled (R87). -/
theorem CopyRuns.append_fails (w : CopyRuns e l run d h c r) (phase : run.phase = .appending) (targets : run.targets = [⟨v, p, .appending k⟩]) :
    ∃ x, Books h ((e.putLane l { run with targets := [⟨v, p, .dropped⟩] }).putClip h (c.withCopy v (fun y => { y with state := .failed }))) x ∧
      copyFailedEvent d.card h v ∈ x.events ∧ CopyEnded h l d.slot x (e.laneReply g l p .noSpace) := by
  have dropped : run.withTarget v .dropped = { run with targets := [⟨v, p, .dropped⟩] } := LaneRun.withTarget_single targets
  have w' := w.putLane (run' := run.withTarget v .dropped) rfl
  obtain ⟨failed, told⟩ := Engine.copyFails_books (e := e.putLane l (run.withTarget v .dropped)) (g := g) (v := v) w.clip w.found 1
  obtain ⟨c', r', after, -, -⟩ := (w'.putClip _).books failed
  have dead : (run.withTarget v .dropped).targets.any (·.status.live) = false := by
    rw [dropped]
    rfl
  have drops : e.laneReply g l p .noSpace = ((e.putLane l (run.withTarget v .dropped)).copyFails g d v 1).stopCopy g l .allDropped := by
    have replied : e.targetReply g l run d ⟨v, p, .appending k⟩ .noSpace = (e.putLane l (run.withTarget v .dropped)).copyFails g d v 1 :=
      congrArg (Engine.copyFails g · d v 1) (Engine.setTarget_put w.lane _)
    rw [w.reply_single targets rfl, replied]
    exact after.dropped (by rw [show (run.withTarget v .dropped).phase = .appending from phase]; nofun) dead
  rw [drops, ← dropped]
  exact ⟨_, failed, told, Engine.stopCopy_dead after.work w.clip dead⟩

/-! ## The CLOSE of the one target -/

/-- What the lane holds once its one target is closed. -/
def LaneRun.closedAt (run : LaneRun) (v : Fin 16) (p : Fin 4) : LaneRun := { run with targets := [⟨v, p, .closed⟩] }

/-- The copy record of a target whose CLOSE is answered OK (R88). -/
def LaneRun.closedRecord (run : LaneRun) (d : Descriptor) (r : CardRecord) (y : CopyRecord) : CopyRecord :=
  if run.consistent then { y with
    state := .written
    verifyWaived := decide (r.verifyMode = .noVerify)
    verifyDigest := if d.source = some .card then none else run.readDigest }
  else { y with state := .mismatch, verifyDigest := run.readDigest }

theorem LaneRun.closedRecord_volume (y : CopyRecord) : (run.closedRecord d r y).volume = y.volume := by
  unfold LaneRun.closedRecord
  split <;> rfl

/-- DIGEST_MISMATCH of a copy that is not consistent (R88). -/
def Descriptor.mismatch (d : Descriptor) (h : Handle) (v : Fin 16) : FaultInput := transferFault .digestMismatch h d.card (some v) 2

/-- A target closed: its record, and DIGEST_MISMATCH where the COPY is not consistent (R88). -/
theorem Engine.targetClosed_eq (lane : e.laneRun l = some run) (targets : run.targets = [⟨v, p, .closing⟩]) :
    let y := (e.putLane l (run.closedAt v p)).changeCopy h v (run.closedRecord d r)
    e.targetClosed g l run d r h v = if run.consistent then y else y.raiseFault g (d.mismatch h v) := by
  have closed : e.setTarget l v .closed = e.putLane l (run.closedAt v p) := by
    unfold LaneRun.closedAt
    rw [← LaneRun.withTarget_single targets]
    exact Engine.setTarget_put lane _
  have record : run.closedRecord d r = fun y => run.closedRecord d r y := rfl
  unfold Engine.targetClosed
  dsimp only
  rw [closed, record]
  unfold LaneRun.closedRecord
  cases run.consistent <;> rfl

/-- A COPY whose one target is closed, and whose source is none or closed, finishes (R88). -/
theorem CopyRuns.close_finishes (w : CopyRuns e l run d h c r) (handle : c.handle = h) (phase : run.phase = .closing)
    (targets : run.targets = [⟨v, p, .closing⟩]) (source : ∀ x, run.source = some x → x.status = .closed) :
    let x := e.targetClosed g l run d r h v
    Books h ((e.putLane l (run.closedAt v p)).putClip h (c.withCopy v (run.closedRecord d r))) x ∧
    ∃ c' r', CopyRuns x l (run.closedAt v p) d h c' r' ∧ (c.withCopy v (run.closedRecord d r)).booked c' ∧
      r.booked r' ∧ e.laneReply g l p .ok = x.finishCopy g l (run.closedAt v p) d c' r' := by
  intro x
  have w' := w.putLane (run' := (run.closedAt v p)) rfl
  have changed := Books.changeCopy (e := e.putLane l (run.closedAt v p)) (h := h) w.found v (run.closedRecord d r)
  have books : Books h ((e.putLane l (run.closedAt v p)).putClip h (c.withCopy v (run.closedRecord d r))) x := by
    show Books h _ (e.targetClosed g l run d r h v)
    rw [Engine.targetClosed_eq w.lane targets]
    exact .ite changed (changed.trans .raiseFault)
  obtain ⟨c', r', after, clip, card⟩ := (w'.putClip _).books books
  have awaits : (run.closedAt v p).awaits = false := by
    unfold LaneRun.awaits LaneRun.closedAt
    dsimp only
    rw [phase]
    cases hs : run.source with
    | none => rfl
    | some z =>
      dsimp only
      rw [source z hs]
      rfl
  have replied : e.targetReply g l run d ⟨v, p, .closing⟩ .ok = x := by
    unfold Engine.targetReply
    dsimp only
    rw [w.both]
    dsimp only
    rw [handle]
  refine ⟨books, c', r', after, clip, card, ?_⟩
  rw [w.reply_single targets rfl, replied]
  exact after.closed phase awaits

/-! ## The COPY finishes -/

/-- The blocks after DIGEST_MISMATCH for the source volume of a COPY that is not consistent (R88). -/
def Engine.sourceJudged (e : Engine) (g : Settings) (run : LaneRun) (d : Descriptor) (h : Handle) : Engine :=
  match d.sourceVolume with
  | some v => if run.consistent then e else e.raiseFault g (d.mismatch h v)
  | none => e

/-- A COPY that wrote nothing ends (R88). -/
theorem Engine.finishCopy_none (handle : c.handle = h) (nothing : run.writtenTargets = []) :
    e.finishCopy g l run d c r = (e.sourceJudged g run d h).endDescriptor l d := by
  unfold Engine.finishCopy
  dsimp only
  rw [nothing, if_pos rfl, List.foldl_nil, ite_self, handle]
  rfl

/-- A COPY under NO_VERIFY that wrote something signals CLIP_COPIED and ends (R88). -/
theorem Engine.finishCopy_noVerify (handle : c.handle = h) (something : run.writtenTargets ≠ []) (mode : r.verifyMode = .noVerify) :
    e.finishCopy g l run d c r = ((e.sourceJudged g run d h).signal (Event.ofClip .clipCopied d.card h)).endDescriptor l d := by
  unfold Engine.finishCopy
  dsimp only
  rw [if_neg something, if_neg (by simp [mode]), handle]
  rfl

theorem LaneRun.writtenTargets_closed (targets : run.targets = [⟨v, p, .closed⟩]) : run.writtenTargets = if run.consistent then [v] else [] := by
  unfold LaneRun.writtenTargets
  rw [targets]
  rfl

theorem CardRecord.booked.verifyMode {r' : CardRecord} (m : r.booked r') : r'.verifyMode = r.verifyMode := by
  rw [m]
  rfl

theorem Clip.booked.handle {c' : Clip} (m : c.booked c') : c'.handle = c.handle := by rw [m]

end

end Sys2Proof.Machine
end

