-- ==== Sys2Proof/Proofs/LaneGrants.lean ====
section
/-!
SUPPORT. A lane freed and granted again (R79, R82, R83, R88): the VERIFY that a COPY queues as it ends, and its start; and that a raised fault
does the same to two fault lists that are alike (R179).
-/

namespace Sys2Proof.Machine

section
variable {a b e : Engine} {g : Settings} {h : Handle} {l : Fin 2} {c : Clip} {r : CardRecord} {run : LaneRun} {d : Descriptor} {p : Fin 4}
  {v : Fin 16} {k : Fin 32}

/-! ## The grant -/

theorem Engine.idleLane_own (own : e.lanes[l] = .idle) (others : ∀ m : Fin 2, m ≠ l → e.lanes[m] ≠ .idle) : e.idleLane = some l := by
  unfold Engine.idleLane
  cases found : (List.finRange 2).find? (fun m => decide (e.lanes[m] = .idle)) with
  | none => exact absurd (decide_eq_true own) (List.find?_eq_none.mp found l (List.mem_finRange l))
  | some m =>
    have idle : e.lanes[m] = .idle := by simpa using List.find?_some found
    by_contra other
    exact others m (fun same => other (by rw [same])) idle

theorem Engine.grantLanes_ineligible (ineligible : e.eligible = none) (n : Nat) : Engine.grantLanes g n e = e := by
  cases n with
  | zero => rfl
  | succ n =>
    unfold Engine.grantLanes
    rw [ineligible]
    cases e.idleLane <;> rfl

/-- With nothing eligible and an idle Render Engine, nothing starts (R83). -/
theorem Engine.settleTransfer_ineligible (ineligible : e.eligible = none) (renders : e.renderIdle = true) : e.settleTransfer g = e := by
  unfold Engine.settleTransfer
  rw [Engine.grantLanes_ineligible ineligible, Engine.settleRender_idle renders]

/-- The one idle lane is granted the oldest eligible descriptor (R83). -/
theorem Engine.settleTransfer_grants (idle : e.idleLane = some l) (eligible : e.eligible = some d)
    (taken : (e.startDescriptor g l d).lanesTaken = true) (renders : (e.startDescriptor g l d).renderIdle = true) :
    e.settleTransfer g = e.startDescriptor g l d := by
  have granted : Engine.grantLanes g (e.queue.length + 3) e = Engine.grantLanes g (e.queue.length + 2) (e.startDescriptor g l d) := by
    rw [Engine.grantLanes, idle, eligible]
  unfold Engine.settleTransfer
  rw [granted, Engine.grantLanes_taken taken, Engine.settleRender_idle renders]

/-! ## A lane freed -/

theorem Engine.updateDest_same {f : DestPort → DestPort} (same : f e.destPorts[p] = e.destPorts[p]) : e.updateDest p f = e := by
  unfold Engine.updateDest
  rw [same]
  simp

/-- A lane with no operation under way has none to withdraw (R82). -/
theorem Engine.withdraw_free (free : ∀ q : Fin 4, (e.destPorts[q]).inflight = none ∧ (e.destPorts[q]).waiting = []) (who : Requester) :
    e.withdraw who = e := by
  have same : ∀ q : Fin 4, e.updateDest q (fun y => y.withdraw who) = e := fun q => by
    refine Engine.updateDest_same ?_
    obtain ⟨flight, waiting⟩ := free q
    unfold DestPort.withdraw
    rw [flight, waiting]
    simp only [List.filter_nil, Option.map_none]
    rw [← flight, ← waiting]
  unfold Engine.withdraw
  induction List.finRange 4 with
  | nil => rfl
  | cons q qs ih => rw [List.foldl_cons, same, ih]

theorem Engine.updatePorts_frame (f : CardPort → CardPort) (ps : List (Fin 4)) :
    ps.foldl (fun (e : Engine) p => e.updatePort p f) e =
      { e with cardPorts := (ps.foldl (fun (e : Engine) p => e.updatePort p f) e).cardPorts } := by
  induction ps generalizing e with
  | nil => rfl
  | cons p ps ih =>
    rw [List.foldl_cons, ih]
    rfl

/-- A lane with no operation under way is IDLE as its descriptor ends (R82). -/
theorem Engine.releaseLane_free (free : ∀ q : Fin 4, (e.destPorts[q]).inflight = none ∧ (e.destPorts[q]).waiting = []) :
    e.releaseLane l = { e with cardPorts := (e.releaseLane l).cardPorts, lanes := e.lanes.set l .idle } := by
  have given := e.updatePorts_frame (fun x => { x with read := if x.read.map (·.lane) = some l then none else x.read }) (List.finRange 4)
  unfold Engine.releaseLane
  rw [Engine.withdraw_free free]
  dsimp only
  generalize List.foldl _ _ _ = y at given
  have ended : y.inFlight (.lane l) = false := by
    rw [given]
    unfold Engine.inFlight
    rw [List.any_eq_false]
    intro q _
    simp only [decide_eq_true_eq]
    rw [(free q).1]
    nofun
  rw [ended, given]
  rfl

/-! ## A VERIFY queued -/

/-- The VERIFY of a copy as it stands alone in the queue (R79, R88). -/
def verifyAlone (h : Handle) (k : Fin 32) (v : Fin 16) (n : Nat) (x : DescState) : Descriptor :=
  ⟨0, .verify, some h, k, some (.volume v), [v], none, n, 0, x⟩

/-- A VERIFY joins an empty queue, HELD under HELD_BY_REQUEST (R79, R81). -/
theorem Books.queueVerify (empty : e.queue = []) (card : e.cards[k] = some r) (n : Nat) :
    Books h { e with queue := [verifyAlone h k v n (if r.heldByRequest then .held else .queued)] } (e.queueVerify k h v n) := by
  have free : e.freeDescriptor = some 0 := by
    unfold Engine.freeDescriptor Engine.descriptor
    rw [empty]
    rfl
  have state : ∀ x, r.waitingState (verifyAlone h k v n x) = if r.heldByRequest then .held else .queued := fun x => by
    unfold CardRecord.waitingState CardRecord.covers Descriptor.cardSourced verifyAlone
    cases r.heldByRequest <;> simp
  have joined : e.addDescriptor ⟨.verify, some h, k, some (.volume v), [v], none, n⟩ =
      { e with queue := [verifyAlone h k v n (if r.heldByRequest then .held else .queued)] } := by
    rw [← state .queued]
    unfold Engine.addDescriptor
    rw [free]
    dsimp only
    rw [card, empty]
    rfl
  unfold Engine.queueVerify
  have marked : ∀ y : Engine, Books h y (y.markQueued h) := fun y =>
    (Books.updateClip (f := fun c => { c with offloadMark := true }) fun _ => rfl).trans .recomputeCopyState
  have room : e.queue.length < Config.maxDescriptors := by
    rw [empty]
    decide
  rw [if_pos room, joined]
  exact marked _

/-- A VERIFY alone in the queue is eligible unless it is HELD (R83). -/
theorem Engine.eligible_verify {n : Nat} {x : DescState} (alone : e.queue = [verifyAlone h k v n x]) :
    e.eligible = if x = .queued then some (verifyAlone h k v n x) else none := by
  unfold Engine.eligible Engine.sourceFree Engine.headsChain Engine.sourceKey
  rw [alone]
  cases x <;> rfl

/-! ## A descriptor started -/

/-- The blocks with a descriptor RUNNING in a lane (R83, R84). -/
def Engine.granted (e : Engine) (l : Fin 2) (d : Descriptor) : Engine :=
  (e.updateDescriptor d.slot (fun _ => { d with state := .running })).putLane l (LaneRun.start d.slot)

theorem Engine.startDescriptor_copy (card : e.cards[d.card] = some r) (kind : d.kind = .copy) (clip : d.clip.bind e.clipAt = some c) :
    e.startDescriptor g l d = (e.granted l d).startCopy g l { d with state := .running } c r := by
  unfold Engine.startDescriptor
  dsimp only
  simp only [Engine.updateDescriptor_cards]
  rw [card, kind]
  dsimp only
  split
  · next c' found =>
    obtain rfl : c' = c := Option.some.inj (found.symm.trans clip)
    rw [← kind]
    rfl
  · next lost => cases lost.symm.trans clip

theorem Engine.startDescriptor_verify (card : e.cards[d.card] = some r) (kind : d.kind = .verify) (clip : d.clip.bind e.clipAt = some c) :
    e.startDescriptor g l d = (e.granted l d).startVerify g l { d with state := .running } c r := by
  unfold Engine.startDescriptor
  dsimp only
  simp only [Engine.updateDescriptor_cards]
  rw [card, kind]
  dsimp only
  split
  · next c' found =>
    obtain rfl : c' = c := Option.some.inj (found.symm.trans clip)
    rw [← kind]
    rfl
  · next lost => cases lost.symm.trans clip

/-- A VERIFY that starts on a volume at a free port asks for its object (R91). -/
theorem Engine.startVerify_asks (lane : e.laneRun l = some run) (found : e.clipAt h = some c) (handle : c.handle = h)
    (targets : d.targets = [v]) (port : e.portOf v = some p) (online : (e.destPorts[p]).state = .online)
    (free : (e.destPorts[p]).inflight = none) (first : (e.destPorts[p]).waiting = []) :
    ∃ y, Books h (e.putClip h (c.withCopy v (fun y => { y with state := .verifying }))) y ∧
      e.startVerify g l d c r = (y.asked p l (.openRead (c.copyName r))).putLane l { run with source := some ⟨v, p, .opening⟩ } := by
  have books := Books.changeCopy found v (fun y => { y with state := .verifying })
  refine ⟨_, books, ?_⟩
  have kept : ∀ y : Engine, Books h (e.putClip h (c.withCopy v (fun y => { y with state := .verifying }))) y →
      y.openSource l (c.copyName r) v =
        some ((y.asked p l (.openRead (c.copyName r))).putLane l { run with source := some ⟨v, p, .opening⟩ }) := fun y hy => by
    have ports : y.destPorts = e.destPorts := hy.destPorts
    have runs : y.laneRun l = some run := (hy.laneRun l).trans lane
    unfold Engine.openSource
    rw [(hy.portOf v).trans port]
    dsimp only
    rw [Engine.ask_asked (by rwa [ports]) (by rwa [ports]) (by rwa [ports]), Option.map_some]
    exact congrArg some (Engine.updateLane_put (e := y.asked p l (.openRead (c.copyName r))) runs _)
  unfold Engine.startVerify
  rw [targets]
  dsimp only
  rw [handle]
  exact congrArg (Option.getD · _) (kept _ books)

/-! ## Fault lists alike -/

/-- The fault list and its counters. -/
def Engine.faultPart (e : Engine) : List FaultRecord × Nat × Nat := (e.faults, e.faultCounter, e.faultSerial)

/-- Two parts that are alike so far as the faults of a clip go. -/
structure FaultsAlike (h : Handle) (a b : Engine) : Prop where
  part : a.faultPart = b.faultPart
  cards : a.cards = b.cards
  current : (a.clipAt h).isSome = (b.clipAt h).isSome

theorem Engine.createFault_part {f : FaultInput} {s : Severity} (same : a.faultPart = b.faultPart) :
    (a.createFault f s).faultPart = (b.createFault f s).faultPart := by
  simp only [Engine.faultPart, Prod.mk.injEq] at same
  obtain ⟨faults, counter, serial⟩ := same
  unfold Engine.createFault
  simp [Engine.faultPart, faults, counter, serial]

theorem Engine.dropFault_part {f : FaultInput} {s : Severity} : (e.dropFault f s).faultPart = e.faultPart := by
  unfold Engine.dropFault Engine.faultPart
  split
  · simp
  · rfl

theorem Engine.admitFault_part {f : FaultInput} {s : Severity} (same : a.faultPart = b.faultPart) :
    (a.admitFault f s).faultPart = (b.admitFault f s).faultPart := by
  have faults : a.faults = b.faults := congrArg Prod.fst same
  unfold Engine.admitFault
  rw [faults]
  split
  · exact Engine.createFault_part same
  · split
    · exact Engine.createFault_part (congrArg (Prod.mk _) (congrArg Prod.snd same))
    · rw [Engine.dropFault_part, Engine.dropFault_part, same]

theorem Engine.raiseFault_current (h : Handle) (f : FaultInput) : ((e.raiseFault g f).clipAt h).isSome = (e.clipAt h).isSome := by
  have kept : ∀ y : Engine, y.clips = e.clips → (y.clipAt h).isSome = (e.clipAt h).isSome := fun y hy => by
    unfold Engine.clipAt
    rw [hy]
  rcases e.raiseFault_cases g f with ⟨-, r⟩ | ⟨x, -, ⟨-, r⟩ | ⟨-, r⟩⟩ | ⟨-, -, r⟩ | ⟨-, -, ⟨x, -, r⟩ | ⟨-, r⟩⟩
  case inr.inr.inr.inr =>
    rw [r]
    unfold Engine.dropFault
    split
    · rw [Engine.updateClip_clipAt, Option.isSome_map]
    · exact kept _ rfl
  all_goals exact kept _ ((congrArg Engine.clips r).trans rfl)

/-- What a fault does to the list of a current handle's part, and to the counters (R178 to R181). -/
theorem FaultsAlike.raiseFault (m : FaultsAlike h a b) {f : FaultInput} (clip : f.clip = h) :
    FaultsAlike h (a.raiseFault g f) (b.raiseFault g f) := by
  have current : ((a.raiseFault g f).clipAt h).isSome = ((b.raiseFault g f).clipAt h).isSome := by
    rw [Engine.raiseFault_current, Engine.raiseFault_current, m.current]
  have cards : (a.raiseFault g f).cards = (b.raiseFault g f).cards := by
    rw [Engine.raiseFault_frame, Engine.raiseFault_frame (e := b)]
    exact m.cards
  have faults : b.faults = a.faults := congrArg Prod.fst m.part.symm
  have key : b.unresolvedWithKey f = a.unresolvedWithKey f := by
    unfold Engine.unresolvedWithKey
    rw [faults]
  have severity : b.arrivingSeverity g f.kind f.card = a.arrivingSeverity g f.kind f.card := by
    unfold Engine.arrivingSeverity
    rw [m.cards]
  have put : ∀ r, (a.putFault r).faultPart = (b.putFault r).faultPart := fun r => by
    refine Prod.ext ?_ (congrArg Prod.snd m.part :)
    simp [Engine.putFault, Engine.faultPart, faults]
  refine ⟨?_, cards, current⟩
  have alive := m.current
  rw [← clip] at alive
  unfold Engine.raiseFault
  cases ha : a.clipAt f.clip with
  | none =>
    rw [ha] at alive
    have hb : b.clipAt f.clip = none := Option.not_isSome_iff_eq_none.mp (by rw [← alive]; nofun)
    rw [hb]
    exact m.part
  | some c =>
    rw [ha] at alive
    obtain ⟨c', hb⟩ := Option.isSome_iff_exists.mp alive.symm
    rw [hb]
    dsimp only
    rw [key, severity]
    cases a.unresolvedWithKey f with
    | none => exact Engine.admitFault_part m.part
    | some r =>
      dsimp only
      split <;> exact put _

end

end Sys2Proof.Machine
end

