-- ==== Sys2Proof/Proofs/CopySteps.lean ====
section
/-!
SUPPORT. The steps in which a COPY with one target, the only work queued, is answered (R70, R79, R86 to R88, R93): it fails, it ends, or the
VERIFY of its copy follows.
-/

namespace Sys2Proof.Machine

section
variable {a b e x : Engine} {g : Settings} {h : Handle} {l : Fin 2} {c : Clip} {r : CardRecord} {run : LaneRun} {d : Descriptor} {p : Fin 4}
  {v : Fin 16} {k : Word32} {s : State} {y : CopyRecord}

theorem Engine.noteFull_frame (z : Reply) : e.noteFull p z = { e with volumes := (e.noteFull p z).volumes } := by
  unfold Engine.noteFull Engine.updateVolume
  split
  · split <;> rfl
  · rfl

/-- The COPY as its operation at a port has ended (R70, R72). -/
theorem CopyRuns.answered (w : CopyRuns e l run d h c r) (z : Reply) : CopyRuns ((e.noteFull p z).freed p) l run d h c r := by
  rw [Engine.noteFull_frame]
  exact ⟨w.lane, w.desc, w.kind, w.clip, w.found, w.card⟩

/-- NO_SPACE at the port of an entry leaves the entry full (R70). -/
theorem Engine.noteFull_full (entry : e.entryAt p = some v) : ((e.noteFull p .noSpace).volumes[v]).map (·.full) = some true := by
  have port := Engine.portOf_entryAt entry
  unfold Engine.portOf at port
  obtain ⟨z, hz, -⟩ := Option.bind_eq_some_iff.mp port
  rw [Engine.noteFull_noSpace entry]
  unfold Engine.updateVolume
  rw [hz]
  simp

/-! ## The judgement of a copy -/

theorem Engine.sourceJudged_consistent (consistent : run.consistent = true) : e.sourceJudged g run d h = e := by
  unfold Engine.sourceJudged
  rw [consistent]
  split <;> rfl

theorem Engine.sourceJudged_card (of_card : d.source = some .card) : e.sourceJudged g run d h = e := by
  unfold Engine.sourceJudged Descriptor.sourceVolume
  rw [of_card]

theorem Engine.sourceJudged_volume {z : Fin 16} (of_volume : d.source = some (.volume z)) (differs : run.consistent = false) :
    e.sourceJudged g run d h = e.raiseFault g (d.mismatch h z) := by
  unfold Engine.sourceJudged Descriptor.sourceVolume
  rw [of_volume, differs]
  rfl

/-- A change of a copy record is none of the fault list's. -/
theorem FaultsAlike.changeCopy (found : e.clipAt h = some c) (f : CopyRecord → CopyRecord) : FaultsAlike h (e.changeCopy h v f) e := by
  have moved : e.copiesMove (e.changeCopy h v f) := (Engine.updateClip_copiesMove _).trans Engine.recomputeCopyState_copiesMove
  obtain ⟨c', hc', -⟩ := (Books.changeCopy found v f).clip _ Engine.putClip_clipAt
  refine ⟨?_, ?_, by rw [hc', found]; rfl⟩ <;> rw [moved]
  rfl

/-- The faults of a target that closes without the copy being consistent (R88). -/
theorem CopyRuns.closed_faults (w : CopyRuns e l run d h c r) (targets : run.targets = [⟨v, p, .closing⟩]) (differs : run.consistent = false) :
    FaultsAlike h (e.targetClosed g l run d r h v) (e.raiseFault g (d.mismatch h v)) := by
  have alike : FaultsAlike h ((e.putLane l (run.closedAt v p)).changeCopy h v (run.closedRecord d r)) e := by
    obtain ⟨part, cards, current⟩ := FaultsAlike.changeCopy (e := e.putLane l (run.closedAt v p)) (v := v) w.found
      (run.closedRecord d r)
    exact ⟨part, cards, current⟩
  rw [Engine.targetClosed_eq w.lane targets, if_neg (by simp [differs])]
  exact alike.raiseFault rfl

/-- A target that closes with the copy consistent leaves the cards. -/
theorem CopyRuns.closed_cards (w : CopyRuns e l run d h c r) (targets : run.targets = [⟨v, p, .closing⟩]) (consistent : run.consistent = true) :
    (e.targetClosed g l run d r h v).cards = e.cards := by
  rw [Engine.targetClosed_eq w.lane targets, if_pos consistent]
  exact (FaultsAlike.changeCopy (e := e.putLane l (run.closedAt v p)) w.found _).cards

/-! ## The VERIFY that follows -/

/-- A COPY has ended and its VERIFY stands alone in the queue, with the lane free (R79, R82, R88). -/
structure VerifyQueued (h : Handle) (l : Fin 2) (d : Descriptor) (c : Clip) (r : CardRecord) (v : Fin 16) (a b : Engine) : Prop where
  queue : b.queue = [verifyAlone h d.card v d.generation (if r.heldByRequest then .held else .queued)]
  destPorts : b.destPorts = a.destPorts
  volumes : b.volumes = a.volumes
  lanes : b.lanes = a.lanes.set l .idle
  jobs : b.jobs = a.jobs
  contexts : b.contexts = a.contexts
  requeues : b.requeues = a.requeues
  clip : b.holdsClip h c
  card : ∃ r', b.cards[d.card] = some r' ∧ r.booked r'
  copied : Event.ofClip .clipCopied d.card h ∈ b.events

/-- A consistent COPY of a card under READBACK queues the VERIFY of its copy as it ends (R88). -/
theorem CopyRuns.finish_readback (w : CopyRuns e l run d h c r) (handle : c.handle = h) (queue : e.queue = [d])
    (of_card : d.source = some .card) (written : run.writtenTargets = [v]) (mode : r.verifyMode = .readback) (mark : run.abortMark = false)
    (free : ∀ q : Fin 4, (e.destPorts[q]).inflight = none ∧ (e.destPorts[q]).waiting = []) :
    VerifyQueued h l d c r v e (e.finishCopy g l run d c r) := by
  have finished : e.finishCopy g l run d c r =
      ((((e.dropDescriptor d.slot).queueVerify d.card h v d.generation).signal (Event.ofClip .clipCopied d.card h)).settleRemoval d).releaseLane l := by
    have judged : e.sourceJudged g run d c.handle = e := Engine.sourceJudged_card of_card
    unfold Engine.finishCopy
    dsimp only
    rw [written, if_neg (List.cons_ne_nil v []), if_pos ⟨mode, mark⟩, List.foldl_cons, List.foldl_nil, ← handle]
    exact congrArg (fun z : Engine => ((((z.dropDescriptor d.slot).queueVerify d.card c.handle v d.generation).signal
      (Event.ofClip .clipCopied d.card c.handle)).settleRemoval d).releaseLane l) judged
  have empty : (e.dropDescriptor d.slot).queue = [] := by simp [Engine.dropDescriptor, queue]
  have queued := Books.queueVerify (h := h) (v := v) empty w.card d.generation
  rw [finished]
  generalize (e.dropDescriptor d.slot).queueVerify d.card h v d.generation = x at queued
  have held : x.holdsClip h c := by
    obtain ⟨c', hc', booked⟩ := queued.clip c w.found
    exact ⟨c', hc', booked⟩
  have settled : Books h (x.signal (Event.ofClip .clipCopied d.card h)) ((x.signal (Event.ofClip .clipCopied d.card h)).settleRemoval d) :=
    .settleRemoval
  generalize (x.signal (Event.ofClip .clipCopied d.card h)).settleRemoval d = z at settled
  have kept : z.holdsClip h c := by
    obtain ⟨c', hc', first⟩ := held
    obtain ⟨c'', hc'', second⟩ := settled.clip c' hc'
    exact ⟨c'', hc'', first.trans second⟩
  have ports : z.destPorts = e.destPorts := settled.destPorts.trans queued.destPorts
  have released := Engine.releaseLane_free (e := z) (l := l) (by rwa [ports])
  have lanes : z.lanes = e.lanes := settled.lanes.trans queued.lanes
  rw [released]
  generalize (z.releaseLane l).cardPorts = ps
  have copied : Event.ofClip .clipCopied d.card h ∈ z.events :=
    settled.mem_events (List.mem_append_right x.events (List.mem_singleton_self _))
  have card : ∃ r', z.cards[d.card] = some r' ∧ r.booked r' := by
    obtain ⟨r', hr', first⟩ := queued.card _ r w.card
    obtain ⟨r'', hr'', second⟩ := settled.card _ r' hr'
    exact ⟨r'', hr'', first.trans second⟩
  exact ⟨settled.queue.trans queued.queue, ports, settled.volumes.trans queued.volumes, congrArg (fun y : Vector Lane 2 => y.set l .idle) lanes,
    settled.jobs.trans queued.jobs, settled.contexts.trans queued.contexts, settled.requeues.trans queued.requeues, kept, card, copied⟩

theorem VerifyQueued.renders (m : VerifyQueued h l d c r v a b) (idle : a.renderIdle = true) : b.renderIdle = true :=
  (Engine.renderIdle_congr m.jobs m.contexts).trans idle

/-- A VERIFY that is HELD waits (R81, R83). -/
theorem VerifyQueued.waits (m : VerifyQueued h l d c r v a b) (held : r.heldByRequest = true) (idle : a.renderIdle = true) :
    b.settleTransfer g = b := by
  have queue := m.queue
  rw [if_pos held] at queue
  exact Engine.settleTransfer_ineligible ((Engine.eligible_verify queue).trans (if_neg nofun)) (m.renders idle)

/-- A VERIFY that has been granted the lane its COPY left (R83, R91). -/
structure VerifyStarted (h : Handle) (l : Fin 2) (d : Descriptor) (c : Clip) (r : CardRecord) (v : Fin 16) (p : Fin 4) (a b : Engine) : Prop where
  queue : b.queue = [verifyAlone h d.card v d.generation .running]
  destPorts : b.destPorts = (a.asked p l (.openRead (c.copyName r))).destPorts
  lane : b.laneRun l = some { LaneRun.start 0 with source := some ⟨v, p, .opening⟩ }
  copy : ∀ y, c.copyOn v = some y → (b.clipAt h).bind (·.copyOn v) = some { y with state := .verifying }
  requeues : b.requeues = a.requeues
  copied : Event.ofClip .clipCopied d.card h ∈ b.events

/-- A VERIFY that is not HELD starts at once (R81, R83, R91). -/
theorem VerifyQueued.grants (m : VerifyQueued h l d c r v a b) (held : r.heldByRequest = false) (handle : c.handle = h)
    (port : a.portOf v = some p) (online : (a.destPorts[p]).state = .online) (free : (a.destPorts[p]).inflight = none)
    (first : (a.destPorts[p]).waiting = []) (others : ∀ n : Fin 2, n ≠ l → a.lanes[n] ≠ .idle) (idle : a.renderIdle = true) :
    VerifyStarted h l d c r v p a (b.settleTransfer g) := by
  have queue : b.queue = [verifyAlone h d.card v d.generation .queued] := by
    rw [m.queue, if_neg (by simp [held])]
  obtain ⟨c', found, clip⟩ := m.clip
  obtain ⟨r', card, record⟩ := m.card
  have name : c'.copyName r' = c.copyName r := by
    rw [clip, record]
    rfl
  have lanes : ∀ n : Fin 2, n ≠ l → b.lanes[n] ≠ .idle := fun n hn => by
    rw [m.lanes]
    simpa [Vector.getElem_set, Fin.val_inj, Ne.symm hn] using others n hn
  have own : b.idleLane = some l := Engine.idleLane_own (by simp [m.lanes]) lanes
  have eligible : b.eligible = some (verifyAlone h d.card v d.generation .queued) := (Engine.eligible_verify queue).trans (if_pos rfl)
  have alone : (b.granted l (verifyAlone h d.card v d.generation .queued)).queue = [verifyAlone h d.card v d.generation .running] := by
    simp [Engine.granted, Engine.putLane, Engine.updateDescriptor, queue, verifyAlone]
  have started : b.startDescriptor g l (verifyAlone h d.card v d.generation .queued) = _ :=
    Engine.startDescriptor_verify card rfl found
  obtain ⟨z, books, asks⟩ := Engine.startVerify_asks (e := b.granted l (verifyAlone h d.card v d.generation .queued)) (g := g) (p := p)
    (d := verifyAlone h d.card v d.generation .running) (r := r') Engine.putLane_laneRun found (clip.handle.trans handle) rfl
    (by unfold Engine.portOf at *; rw [← port]; exact congrArg (fun y : Vector (Option VolumeEntry) 16 => (y[v]).bind (·.inserted)) m.volumes)
    (by rw [← online]; exact congrArg (fun y : Vector DestPort 4 => (y[p]).state) m.destPorts)
    (by rw [← free]; exact congrArg (fun y : Vector DestPort 4 => (y[p]).inflight) m.destPorts)
    (by rw [← first]; exact congrArg (fun y : Vector DestPort 4 => (y[p]).waiting) m.destPorts)
  have result := started.trans asks
  rw [name] at result
  have taken : (b.startDescriptor g l (verifyAlone h d.card v d.generation .queued)).lanesTaken = true := by
    rw [result]
    refine Engine.putLane_lanesTaken fun n hn => ?_
    show z.lanes[n] ≠ .idle
    rw [books.lanes]
    simpa [Engine.granted, Engine.putLane, Engine.putClip, Vector.getElem_set, Fin.val_inj, Ne.symm hn] using lanes n hn
  have renders : (b.startDescriptor g l (verifyAlone h d.card v d.generation .queued)).renderIdle = true := by
    rw [result]
    exact (Engine.renderIdle_congr books.jobs books.contexts).trans (m.renders idle)
  rw [Engine.settleTransfer_grants own eligible taken renders, result]
  have copy : ∀ y, c.copyOn v = some y → (z.clipAt h).bind (·.copyOn v) = some { y with state := .verifying } := fun y hy =>
    ((books.holdsClip Engine.putClip_holdsClip).copyOn v).trans (Clip.withCopy_copyOn (fun _ => rfl) ((clip.copyOn v).trans hy))
  have ports : z.destPorts = a.destPorts := books.destPorts.trans m.destPorts
  have copied : Event.ofClip .clipCopied d.card h ∈ z.events := books.mem_events m.copied
  exact ⟨books.queue.trans alone,
    congrArg (fun y : Vector DestPort 4 => y.set p
      { y[p] with inflight := some ⟨.lane l, .openRead (c.copyName r), false⟩, last := .lane l }) ports,
    Engine.putLane_laneRun, copy, books.requeues.trans m.requeues, copied⟩

end

end Sys2Proof.Machine
end

