-- ==== Sys2Proof/Proofs/CopyStarts.lean ====
section
/-!
SUPPORT. Which descriptor the lane grant takes (R83), and how a COPY starts: its parse, its targets' objects, and its stop where no target is
left (R53, R85, R87, R169).
-/

namespace Sys2Proof.Machine

/-! ## The oldest eligible descriptor -/

section
variable {e : Engine} {d : Descriptor}

/-- What a descriptor reads from, as a port or a volume entry (R83). -/
def SourceKey.asSum : SourceKey → Fin 4 ⊕ Fin 16
  | .port p => .inl p
  | .volume v => .inr v

theorem SourceKey.asSum_injective : Function.Injective SourceKey.asSum := by
  intro x y same
  cases x <;> cases y <;> cases same <;> rfl

/-- What a descriptor reads from. -/
def Engine.reads (e : Engine) (x : Descriptor) : Option (Fin 4 ⊕ Fin 16) :=
  match x.source with
  | some .card => ((e.cards[x.card]).bind (·.attached)).map Sum.inl
  | some (.volume v) => some (Sum.inr v)
  | none => none

theorem Engine.reads_eq (x : Descriptor) : e.reads x = (e.sourceKey x).map SourceKey.asSum := by
  unfold Engine.reads Engine.sourceKey
  cases x.source with
  | none => rfl
  | some z =>
    cases z with
    | card =>
      rw [Option.map_map]
      rfl
    | volume v => rfl

/-- A card-sourced COPY (R79). -/
def Descriptor.ofCard (x : Descriptor) : Prop := x.kind = .copy ∧ x.source = some .card

/-- What makes a descriptor eligible, with those before it in the queue (R83). -/
def Engine.fits (e : Engine) (before : List Descriptor) (x : Descriptor) : Prop :=
  x.state = .queued ∧
    (x.source = none ∨ (e.reads x ≠ none ∧ ∀ y ∈ e.queue, y.state = .running → e.reads y ≠ e.reads x)) ∧
    (x.ofCard → ∀ y ∈ before, ¬ (y.ofCard ∧ y.card = x.card))

theorem Engine.sourceFree_iff (x : Descriptor) : e.sourceFree x = true ↔
    x.source = none ∨ (e.reads x ≠ none ∧ ∀ y ∈ e.queue, y.state = .running → e.reads y ≠ e.reads x) := by
  have same : ∀ y k, e.sourceKey x = some k → (e.reads y = e.reads x ↔ e.sourceKey y = some k) := fun y k hk => by
    rw [Engine.reads_eq, Engine.reads_eq, hk]
    exact ⟨fun eq => Option.map_injective SourceKey.asSum_injective eq, fun eq => by rw [eq]⟩
  unfold Engine.sourceFree
  cases hs : x.source with
  | none => simp
  | some z =>
    cases hk : e.sourceKey x with
    | none => simp [Engine.reads_eq, hk]
    | some k => simp [Engine.reads_eq x, hk, ← same _ k hk]

theorem Descriptor.cardSourced_iff {x : Descriptor} : x.cardSourced = true ↔ x.ofCard := by
  simp [Descriptor.cardSourced, Descriptor.ofCard]

theorem Engine.headsChain_iff {before after : List Descriptor} (queue : e.queue = before ++ d :: after) (slots : (e.queue.map (·.slot)).Nodup) :
    e.headsChain d = true ↔ (d.ofCard → ∀ y ∈ before, ¬ (y.ofCard ∧ y.card = d.card)) := by
  have apart : ∀ y ∈ before, y.slot ≠ d.slot := fun y hy same => by
    rw [queue, List.map_append, List.nodup_append] at slots
    exact slots.2.2 _ (List.mem_map_of_mem hy) _ (by simp) same
  unfold Engine.headsChain
  rw [Bool.or_eq_true, Bool.not_eq_true', decide_eq_true_eq, ← Bool.not_eq_true, Descriptor.cardSourced_iff, queue, List.find?_append]
  by_cases mine : d.ofCard
  · have own : (List.find? (fun x => x.cardSourced && decide (x.card = d.card)) (d :: after)) = some d := by
      simp [Descriptor.cardSourced_iff, mine]
    rw [own]
    cases found : before.find? (fun x => x.cardSourced && decide (x.card = d.card)) with
    | none =>
      have none_before : ∀ y ∈ before, y.ofCard → y.card ≠ d.card := by
        simpa [List.find?_eq_none, Descriptor.cardSourced_iff] using found
      simpa [mine] using none_before
    | some z =>
      have theirs : z.ofCard ∧ z.card = d.card := by simpa [Descriptor.cardSourced_iff] using List.find?_some found
      have inside := List.mem_of_find?_eq_some found
      refine iff_of_false ?_ fun free => free mine z inside theirs
      simpa [mine] using apart z inside
  · simp [mine]

/-- The first descriptor that fits is granted next (R83). -/
theorem Engine.eligible_first {front back : List Descriptor} (queue : e.queue = front ++ d :: back) (slots : (e.queue.map (·.slot)).Nodup)
    (fits : e.fits front d) (none_before : ∀ a x b, front = a ++ x :: b → ¬ e.fits a x) : e.eligible = some d := by
  have test : ∀ a x b, e.queue = a ++ x :: b → ((decide (x.state = .queued) && e.sourceFree x && e.headsChain x) = true ↔ e.fits a x) :=
    fun a x b hq => by
      unfold Engine.fits
      rw [← Engine.sourceFree_iff, ← Engine.headsChain_iff hq slots]
      simp [and_assoc]
  unfold Engine.eligible
  rw [List.find?_eq_some_iff_append]
  refine ⟨(test front d back queue).mpr fits, front, back, queue, fun x hx => ?_⟩
  obtain ⟨a, b, split⟩ := List.append_of_mem hx
  have unfit := none_before a x b split
  rw [← test a x (b ++ d :: back) (by rw [queue, split]; simp)] at unfit
  rw [Bool.eq_false_of_not_eq_true unfit]
  rfl

end

/-! ## The parse of a card-sourced COPY -/

section
variable {a b e : Engine} {g : Settings} {h : Handle} {l : Fin 2} {c : Clip} {r : CardRecord} {run : LaneRun} {d : Descriptor} {p : Fin 4}
  {v : Fin 16}

/-- The observed fields and the counts of a clip (R56, R169). -/
def Clip.observedPart (c : Clip) : Nat × Option Timecode × Option Timecode × Nat × Nat := (c.observed, c.firstTc, c.lastTc, c.sampled, c.skipped)

/-- The clip record with the observed fields and the counts reset (R53). -/
def Clip.unobserved (c : Clip) : Clip := { c with observed := 0, firstTc := none, lastTc := none, sampled := 0, skipped := 0 }

/-- The change keeps the scan contexts, the events, and the clip's observed fields and copies. -/
structure ScanKept (h : Handle) (a b : Engine) : Prop where
  scans : b.scans = a.scans
  clip : ∀ c, a.clipAt h = some c → ∃ c', b.clipAt h = some c' ∧ c'.observedPart = c.observedPart ∧ c'.copies = c.copies
  events : ∀ ev ∈ a.events, ev ∈ b.events

theorem ScanKept.trans (k : ScanKept h a e) (m : ScanKept h e b) : ScanKept h a b where
  scans := m.scans.trans k.scans
  clip c hc := by
    obtain ⟨c', hc', observed, copies⟩ := k.clip c hc
    obtain ⟨c'', hc'', observed', copies'⟩ := m.clip c' hc'
    exact ⟨c'', hc'', observed'.trans observed, copies'.trans copies⟩
  events ev hev := m.events ev (k.events ev hev)

theorem Books.scanKept (m : Books h a b) : ScanKept h a b where
  scans := m.scans
  clip c hc := by
    obtain ⟨c', hc', booked⟩ := m.clip c hc
    exact ⟨c', hc', by rw [booked]; rfl, by rw [booked]⟩
  events _ := m.mem_events

theorem ScanKept.updateLane (f : LaneRun → LaneRun) : ScanKept h e (e.updateLane l f) := by
  rw [Engine.updateLane_frame]
  exact ⟨rfl, fun c hc => ⟨c, hc, rfl, rfl⟩, fun _ => id⟩

theorem ScanKept.updateClip {x : Handle} {f : Clip → Clip} (observed : ∀ c, (f c).observedPart = c.observedPart)
    (copies : ∀ c, (f c).copies = c.copies) : ScanKept h e (e.updateClip x f) where
  scans := Engine.updateClip_scans _ _ _
  clip c hc := by
    rw [Engine.updateClip_clipAt, hc, Option.map_some]
    refine ⟨_, rfl, ?_⟩
    split
    · exact ⟨observed c, copies c⟩
    · exact ⟨rfl, rfl⟩
  events ev hev := by rwa [Engine.updateClip_events]

/-- What a parse leaves as it starts (R53). -/
structure ParseBegun (h : Handle) (l : Fin 2) (c : Clip) (a b : Engine) : Prop where
  clip : ∃ c', b.clipAt h = some c' ∧ c'.observedPart = (0, none, none, 0, 0) ∧ c'.copies = c.copies
  scan : (b.scans[l]).clip = some h
  events : ∀ ev ∈ a.events, ev ∈ b.events
  queue : b.queue = a.queue
  lane : ∀ r, a.laneRun l = some r → ∃ q n, b.laneRun l = some { r with parse := q, sizeFault := n }

/-- A take of byte length 0 ends as its parse starts, without a header (R58). -/
theorem Parse.start_finish (n : Nat) (card : Fin 32) : ((Parse.start h card n).finish []).2 = if n = 0 then [.headerInvalid 5, .takeEnd none] else [] := by
  unfold Parse.finish
  by_cases zero : n = 0
  · rw [if_pos zero, if_pos (show (Parse.start h card n).offset = (Parse.start h card n).byteLength from zero.symm)]
    rfl
  · rw [if_neg zero, if_neg (fun k : (Parse.start h card n).offset = (Parse.start h card n).byteLength => zero k.symm)]

theorem ScanKept.parseEnds (card : Fin 32) : ScanKept h e ([.headerInvalid 5, .takeEnd none].foldl (Engine.parseOut g l h card) e) := by
  have invalid : ScanKept h e (e.headerInvalid g h card 5) := (Books.raiseFault (h := h)).scanKept.trans (.updateClip (fun _ => rfl) fun _ => rfl)
  exact invalid.trans (.updateLane _)

/-- The blocks as a parse of a lane is reset (R53, R163). -/
def Engine.parseReset (e : Engine) (l : Fin 2) (h : Handle) (c : Clip) : Engine :=
  (e.updateClip h Clip.unobserved).updateScan l (fun s => { ScanContext.reset with parse := s.parse + 1, clip := some h, card := some c.card })

theorem Engine.startParse_eq (handle : c.handle = h) : e.startParse g l c =
    (e.parseReset l h c).applyParse g l ((Parse.start h c.card c.byteLength).finish []).1 ((Parse.start h c.card c.byteLength).finish []).2 := by
  rw [← handle]
  rfl

/-- A parse that starts (R53). -/
theorem ParseBegun.startParse {c' : Clip} (found : e.clipAt h = some c') (handle : c.handle = h) : ParseBegun h l c' e (e.startParse g l c) := by
  have reset : (e.parseReset l h c).clipAt h = some c'.unobserved := by
    show (e.updateClip h Clip.unobserved).clipAt h = _
    rw [Engine.updateClip_put found, Engine.putClip_clipAt]
  have moves : ParserMoves l e (e.startParse g l c) := by
    rw [Engine.startParse_eq handle]
    exact (ParserMoves.refl e).updateClip.updateScan.applyParse
  have kept : ScanKept h (e.parseReset l h c) (e.startParse g l c) := by
    have lane : ∀ q, ScanKept h (e.parseReset l h c) ((e.parseReset l h c).updateLane l (fun r => { r with parse := some q })) :=
      fun q => .updateLane _
    have run : (((Parse.start h c.card c.byteLength).finish []).1.clip, ((Parse.start h c.card c.byteLength).finish []).1.card) = (h, c.card) := by
      unfold Parse.finish
      split <;> rfl
    rw [Engine.startParse_eq handle, Engine.applyParse, Parse.start_finish, (Prod.mk.inj run).1, (Prod.mk.inj run).2]
    split
    · exact (lane _).trans (.parseEnds c.card)
    · exact lane _
  obtain ⟨c'', found', observed, copies⟩ := kept.clip _ reset
  refine ⟨⟨c'', found', observed, copies⟩, ?_, ?_, ?_, moves.run⟩
  · rw [kept.scans]
    simp [Engine.parseReset, Engine.updateScan]
  · intro ev hev
    refine kept.events ev ?_
    show ev ∈ (e.updateClip h Clip.unobserved).events
    rwa [Engine.updateClip_events]
  · rw [moves.frame]

/-! ## A COPY with one target opens its object -/

/-- What a lane holds as its COPY's opens begin. -/
def LaneRun.starting (run : LaneRun) (c : Clip) : LaneRun := { run with lastPassed := decide (c.byteLength = 0) }

/-- A target joins, whose open has been sent. -/
def LaneRun.opens (run : LaneRun) (v : Fin 16) (p : Fin 4) : LaneRun := { run with targets := run.targets ++ [⟨v, p, .opening⟩] }

/-- A parse joins. -/
def LaneRun.parsing (run : LaneRun) (q : Parse) : LaneRun := { run with parse := some q }

/-- A parse of a take that has bytes starts without a finding (R53). -/
theorem Engine.startParse_long (lane : e.laneRun l = some run) (found : e.clipAt h = some c) (handle : c.handle = h) (long : 0 < c.byteLength) :
    ∃ sc, e.startParse g l c = { e.putClip h c.unobserved with scans := sc }.putLane l (run.parsing (Parse.start h c.card c.byteLength)) := by
  have whole : (Parse.start h c.card c.byteLength).finish [] = (Parse.start h c.card c.byteLength, []) :=
    if_neg fun zero : 0 = c.byteLength => Nat.ne_of_gt long zero.symm
  rw [Engine.startParse_eq handle, whole]
  unfold Engine.applyParse Engine.parseReset
  rw [Engine.updateClip_put found]
  exact ⟨_, Engine.updateLane_put (e := (e.putClip h c.unobserved).updateScan l _) lane _⟩

/-- OPEN_WRITE goes to a target at a free port (R85). -/
theorem Engine.openTarget_free (lane : e.laneRun l = some run) (port : e.portOf v = some p) (online : (e.destPorts[p]).state = .online)
    (free : (e.destPorts[p]).inflight = none) (first : (e.destPorts[p]).waiting = []) (name : Text) :
    Engine.openTarget g l d name e v =
      (e.asked p l (.openWrite name)).putLane l (run.opens v p) := by
  unfold Engine.openTarget
  rw [port]
  dsimp only
  rw [Engine.ask_asked online free first]
  exact Engine.updateLane_put (e := e.asked p l (.openWrite name)) lane _

/-- A COPY of a card with one target at a free port starts its parse and asks its target for its object (R53, R85). -/
theorem Engine.startCopy_opens (lane : e.laneRun l = some run) (found : e.clipAt h = some c) (handle : c.handle = h) (long : 0 < c.byteLength)
    (of_card : d.source = some .card) (targets : d.targets = [v]) (port : e.portOf v = some p) (online : (e.destPorts[p]).state = .online)
    (free : (e.destPorts[p]).inflight = none) (first : (e.destPorts[p]).waiting = []) :
    ∃ sc, e.startCopy g l d c r = { (e.asked p l (.openWrite (c.copyName r))).putClip h c.unobserved with scans := sc }.putLane l
      (((run.starting c).opens v p).parsing (Parse.start h c.card c.byteLength)) := by
  have opened : Engine.openTarget g l d (c.copyName r) (e.putLane l (run.starting c)) v =
      ((e.putLane l (run.starting c)).asked p l (.openWrite (c.copyName r))).putLane l ((run.starting c).opens v p) :=
    Engine.openTarget_free Engine.putLane_laneRun port online free first _
  rw [Engine.putLane_asked, Engine.putLane_putLane] at opened
  obtain ⟨sc, parsed⟩ := Engine.startParse_long (e := (e.asked p l (.openWrite (c.copyName r))).putLane l ((run.starting c).opens v p)) (g := g)
    Engine.putLane_laneRun found handle long
  refine ⟨sc, ?_⟩
  have merged : ∀ x y, { ((e.asked p l (.openWrite (c.copyName r))).putLane l x).putClip h c.unobserved with scans := sc }.putLane l y =
      { (e.asked p l (.openWrite (c.copyName r))).putClip h c.unobserved with scans := sc }.putLane l y := fun x y =>
    Engine.putLane_putLane (e := { (e.asked p l (.openWrite (c.copyName r))).putClip h c.unobserved with scans := sc })
  rw [merged] at parsed
  have first_open : Engine.openTarget g l d (c.copyName r) (e.updateLane l (fun x => { x with lastPassed := decide (c.byteLength = 0) })) v =
      (e.asked p l (.openWrite (c.copyName r))).putLane l ((run.starting c).opens v p) := by
    rw [Engine.updateLane_put lane]
    exact opened
  unfold Engine.startCopy
  dsimp only
  rw [targets, List.foldl_cons, List.foldl_nil, first_open, if_pos of_card, parsed, Engine.putLane_laneRun]
  have some_target : (((run.starting c).opens v p).parsing (Parse.start h c.card c.byteLength)).targets ≠ [] :=
    List.append_ne_nil_of_right_ne_nil _ (List.cons_ne_nil _ _)
  dsimp only
  rw [if_neg some_target, Descriptor.sourceVolume, of_card]

/-- The other lane of two. -/
theorem lane_other {l m : Fin 2} (other : m ≠ l) : m = l + 1 := by
  revert l m
  decide

/-- What the grant of a COPY of a card leaves, with one target at a free port (R83, R85). -/
theorem Engine.settleTransfer_copy (idle : e.idleLane = some l) (busy : e.lanes[l + 1] ≠ .idle) (renders : e.renderIdle = true)
    (eligible : e.eligible = some d) (kind : d.kind = .copy) (of_card : d.source = some .card) (clip : d.clip = some h)
    (found : e.clipAt h = some c) (handle : c.handle = h) (long : 0 < c.byteLength) (card : e.cards[d.card] = some r)
    (targets : d.targets = [v]) (port : e.portOf v = some p) (online : (e.destPorts[p]).state = .online)
    (free : (e.destPorts[p]).inflight = none) (first : (e.destPorts[p]).waiting = []) :
    ∃ sc, e.settleTransfer g =
      { ((e.granted l d).asked p l (.openWrite (c.copyName r))).putClip h c.unobserved with scans := sc }.putLane l
        ((((LaneRun.start d.slot).starting c).opens v p).parsing (Parse.start h c.card c.byteLength)) := by
  have started : e.startDescriptor g l d = _ := Engine.startDescriptor_copy card kind (by rw [clip, Option.bind_some, found])
  obtain ⟨sc, opens⟩ := Engine.startCopy_opens (e := e.granted l d) (g := g) (d := { d with state := .running }) (r := r)
    Engine.putLane_laneRun found handle long of_card targets port online free first
  have result := started.trans opens
  refine ⟨sc, ?_⟩
  rw [← result]
  refine Engine.settleTransfer_grants idle eligible ?_ ?_ <;> rw [result]
  · refine Engine.putLane_lanesTaken fun n hn => ?_
    have same : (e.granted l d).lanes[n] = e.lanes[n] := by
      simp [Engine.granted, Engine.putLane, Fin.val_inj, Ne.symm hn]
    show (e.granted l d).lanes[n] ≠ .idle
    rw [same, lane_other hn]
    exact busy
  · exact (Engine.renderIdle_congr rfl rfl).trans renders

/-! ## A COPY with no target left -/

/-- The clip record with its copies on volume entries FAILED. -/
def Clip.failing (c : Clip) (vs : List (Fin 16)) : Clip := vs.foldl (fun c v => c.withCopy v (fun y => { y with state := .failed })) c

theorem Clip.failing_booked {c' : Clip} (k : c.booked c') (vs : List (Fin 16)) : (c.failing vs).booked (c'.failing vs) := by
  induction vs generalizing c c' with
  | nil => exact k
  | cons v vs ih =>
    refine ih ?_
    rw [k]
    rfl

/-- A copy that is FAILED stays so. -/
theorem Clip.failing_failed {y : CopyRecord} (vs : List (Fin 16)) (failed : c.copyOn v = some { y with state := .failed }) :
    (c.failing vs).copyOn v = some { y with state := .failed } := by
  induction vs generalizing c with
  | nil => exact failed
  | cons w vs ih =>
    refine ih ((Clip.copyOn_map c (fun y => { y with state := .failed }) fun _ => rfl).trans ?_)
    rw [failed, Option.map_some]
    split <;> rfl

theorem Clip.failing_copyOn {y : CopyRecord} {vs : List (Fin 16)} (hv : v ∈ vs) (hy : c.copyOn v = some y) :
    (c.failing vs).copyOn v = some { y with state := .failed } := by
  induction vs generalizing c y with
  | nil => cases hv
  | cons w vs ih =>
    by_cases same : v = w
    · subst same
      exact Clip.failing_failed vs (Clip.withCopy_copyOn (fun _ => rfl) hy)
    · have kept : (c.withCopy w (fun y => { y with state := .failed })).copyOn v = some y := by
        refine (Clip.copyOn_map c (fun y => { y with state := .failed }) fun _ => rfl).trans ?_
        rw [hy, Option.map_some, if_neg same]
      exact ih ((List.mem_cons.mp hv).resolve_left same) kept

theorem Engine.putClip_self (found : e.clipAt h = some c) : e.putClip h c = e := by
  have slot : e.clips[h.slot] = ⟨h.gen, some c⟩ := by
    unfold Engine.clipAt at found
    dsimp only at found
    split at found
    · next gen => rw [← gen, ← found]
    · cases found
  unfold Engine.putClip
  rw [← slot]
  simp

/-- Records put into parts that differ by the books. -/
theorem Books.putClip {c₁ c' : Clip} (m : Books h (e.putClip h c₁) b) (booked : c.booked c') : Books h (e.putClip h c) (b.putClip h c') where
  frame := by
    have frame := m.frame
    generalize b.clips = clips at frame
    rw [frame]
    rfl
  clip x hx := by
    obtain rfl : c = x := Option.some.inj (Engine.putClip_clipAt.symm.trans hx)
    exact ⟨c', Engine.putClip_clipAt, booked⟩
  card := m.card
  events := m.events

/-- Targets whose volumes are not inserted all drop out as a COPY starts (R85, R87). -/
theorem Engine.openTargets_fail {vs : List (Fin 16)} (clip : d.clip = some h) (found : e.clipAt h = some c) (gone : ∀ v ∈ vs, e.portOf v = none)
    (name : Text) :
    Books h (e.putClip h (c.failing vs)) (vs.foldl (Engine.openTarget g l d name) e) ∧
      ∀ v ∈ vs, copyFailedEvent d.card h v ∈ (vs.foldl (Engine.openTarget g l d name) e).events := by
  induction vs generalizing e c with
  | nil =>
    refine ⟨?_, nofun⟩
    show Books h (e.putClip h c) e
    rw [Engine.putClip_self found]
    exact .refl e
  | cons v vs ih =>
    obtain ⟨failed, told⟩ := Engine.copyFails_books (g := g) (v := v) clip found 3
    have first : Engine.openTarget g l d name e v = e.copyFails g d v 3 := by
      unfold Engine.openTarget
      rw [gone v List.mem_cons_self]
    rw [List.foldl_cons, first]
    obtain ⟨c', found', booked⟩ := failed.clip _ Engine.putClip_clipAt
    obtain ⟨books, events⟩ := ih found' fun w hw => (failed.portOf w).trans (gone w (List.mem_cons_of_mem _ hw))
    refine ⟨(failed.putClip (Clip.failing_booked booked vs)).trans books, fun w hw => ?_⟩
    rcases List.mem_cons.mp hw with rfl | hw
    · exact books.mem_events told
    · exact events w hw

/-- A target opened, or dropped out, leaves the COPY's clip in the catalogue. -/
theorem Engine.openTargets_found {name : Text} {vs : List (Fin 16)} (clip : d.clip = some h) (found : e.clipAt h = some c) :
    ∃ c', (vs.foldl (Engine.openTarget g l d name) e).clipAt h = some c' := by
  induction vs generalizing e c with
  | nil => exact ⟨c, found⟩
  | cons v vs ih =>
    obtain ⟨c', found'⟩ : ∃ c', (Engine.openTarget g l d name e v).clipAt h = some c' := by
      have failed : ∃ c', (e.copyFails g d v 3).clipAt h = some c' := by
        obtain ⟨c', found', -⟩ := (Engine.copyFails_books (g := g) (v := v) clip found 3).1.clip _ Engine.putClip_clipAt
        exact ⟨c', found'⟩
      unfold Engine.openTarget
      split
      · split
        · next p _ e' asks =>
          refine ⟨c, ?_⟩
          have clips : e'.clips = e.clips := by
            unfold Engine.ask at asks
            split at asks
            · cases asks
              rfl
            · cases asks
          unfold Engine.clipAt at *
          rwa [Engine.updateLane_clips, clips]
        · exact failed
      · exact failed
    exact ih found'

/-- The blocks as the parse of a starting COPY of a card has begun (R53, R85). -/
def Engine.parseStarted (e : Engine) (g : Settings) (l : Fin 2) (d : Descriptor) (c : Clip) (r : CardRecord) : Engine :=
  (d.targets.foldl (Engine.openTarget g l d (c.copyName r)) (e.updateLane l (·.starting c))).startParse g l c

/-- A COPY of a card with no target left stops as it starts, and otherwise goes on (R87). -/
theorem Engine.startCopy_cases (of_card : d.source = some .card) :
    ((∀ run, (e.parseStarted g l d c r).laneRun l = some run → run.targets ≠ []) ∧ e.startCopy g l d c r = e.parseStarted g l d c r) ∨
    ∃ run, (e.parseStarted g l d c r).laneRun l = some run ∧ run.targets = [] ∧
      e.startCopy g l d c r = (e.parseStarted g l d c r).stopCopy g l .allDropped := by
  have begun : e.parseStarted g l d c r =
      (d.targets.foldl (Engine.openTarget g l d (c.copyName r)) (e.updateLane l (·.starting c))).startParse g l c := rfl
  unfold LaneRun.starting at begun
  unfold Engine.startCopy
  dsimp only
  rw [if_pos of_card, Descriptor.sourceVolume, of_card, ← begun]
  cases lane : (e.parseStarted g l d c r).laneRun l with
  | none => exact .inl ⟨fun _ absent => (nomatch absent), rfl⟩
  | some run =>
    by_cases left : run.targets = []
    · exact .inr ⟨run, rfl, left, if_pos left⟩
    · exact .inl ⟨fun _ same => by rwa [← Option.some.inj same], if_neg left⟩

/-- A stop with no target keeps the scan context and the clip's observed fields. -/
theorem ScanKept.stopCopy (lane : e.laneRun l = some run) (left : run.targets = []) : ScanKept h e (e.stopCopy g l .allDropped) := by
  have same : ScanKept h e e := ⟨rfl, fun c hc => ⟨c, hc, rfl, rfl⟩, fun _ => id⟩
  cases hd : e.descriptor run.slot with
  | none =>
    have idle : e.laneWork l = none := by
      unfold Engine.laneWork
      rw [lane]
      dsimp only
      rw [hd]
      rfl
    unfold Engine.stopCopy
    rw [idle]
    exact same
  | some d =>
    have work : e.laneWork l = some (run, d) := Engine.laneWork_eq lane hd
    cases clip : d.clip with
    | none =>
      unfold Engine.stopCopy
      rw [work]
      dsimp only
      rw [clip]
      exact same
    | some h' =>
      have ended : CopyEnded h l d.slot e (e.stopCopy g l .allDropped) := Engine.stopCopy_dead work clip (by rw [left]; rfl)
      refine ⟨ended.scans, fun c hc => ?_, ended.events⟩
      obtain ⟨c', hc', booked⟩ := ended.clip c ⟨c, hc, rfl⟩
      exact ⟨c', hc', by rw [booked]; rfl, by rw [booked]⟩

/-- A COPY of a card resets what its clip and its lane have observed, whether it goes on or stops (R53, R169). -/
theorem Engine.startCopy_resets (of_card : d.source = some .card) (clip : d.clip = some h) (found : e.clipAt h = some c) (handle : c.handle = h) :
    (∃ c', (e.startCopy g l d c r).clipAt h = some c' ∧ c'.observedPart = (0, none, none, 0, 0)) ∧
      ((e.startCopy g l d c r).scans[l]).clip = some h := by
  have before : (e.updateLane l (·.starting c)).clipAt h = some c := by
    unfold Engine.clipAt at *
    rwa [Engine.updateLane_clips]
  obtain ⟨c₂, found₂⟩ := Engine.openTargets_found (g := g) (l := l) (name := c.copyName r) (vs := d.targets) clip before
  obtain ⟨⟨c₃, found₃, observed, -⟩, scan, -, -, -⟩ : ParseBegun h l c₂ _ (e.parseStarted g l d c r) := .startParse found₂ handle
  rcases e.startCopy_cases (g := g) (l := l) (c := c) (r := r) of_card with ⟨-, same⟩ | ⟨run, lane, left, stops⟩
  · rw [same]
    exact ⟨⟨c₃, found₃, observed⟩, scan⟩
  · have kept : ScanKept h (e.parseStarted g l d c r) (e.startCopy g l d c r) := by
      rw [stops]
      exact .stopCopy lane left
    obtain ⟨c₄, found₄, observed₄, -⟩ := kept.clip c₃ found₃
    exact ⟨⟨c₄, found₄, observed₄.trans observed⟩, by rw [kept.scans]; exact scan⟩

/-- What a COPY of a card leaves that stops as it starts (R85, R87, R90). -/
structure StoppedAtOnce (h : Handle) (l : Fin 2) (slot : Fin 64) (d : Descriptor) (c : Clip) (a b : Engine) : Prop where
  lane : b.laneRun l = none
  queue : b.queue = a.queue.filter (fun x => decide (x.slot ≠ slot))
  told : ∀ v ∈ d.targets, copyFailedEvent d.card h v ∈ b.events
  copies : ∀ v ∈ d.targets, ∀ y, c.copyOn v = some y → (b.clipAt h).bind (·.copyOn v) = some { y with state := .failed }

/-- A COPY of a card stops in the step in which it starts where no target's volume is inserted (R87). -/
theorem StoppedAtOnce.startCopy (of_card : d.source = some .card) (clip : d.clip = some h) (found : e.clipAt h = some c) (handle : c.handle = h)
    (lane : e.laneRun l = some run) (desc : e.descriptor run.slot = some d) (none_open : run.targets = [])
    (gone : ∀ v ∈ d.targets, e.portOf v = none) : StoppedAtOnce h l run.slot d c e (e.startCopy g l d c r) := by
  obtain ⟨books, told⟩ := Engine.openTargets_fail (e := e.putLane l (run.starting c)) (g := g) (l := l) (d := d) (vs := d.targets) clip found gone
    (c.copyName r)
  have opens : e.updateLane l (·.starting c) = e.putLane l (run.starting c) := Engine.updateLane_put lane _
  obtain ⟨c₂, found₂, booked⟩ := books.clip _ Engine.putClip_clipAt
  have runs := (books.laneRun l).trans Engine.putLane_laneRun
  have queue : (d.targets.foldl (Engine.openTarget g l d (c.copyName r)) (e.putLane l (run.starting c))).queue = e.queue := books.queue
  rw [← opens] at books told found₂ runs queue
  obtain ⟨⟨c₃, found₃, -, copies⟩, -, events, queue₃, lane₃⟩ : ParseBegun h l c₂ _ (e.parseStarted g l d c r) := .startParse found₂ handle
  obtain ⟨q, n, parsing⟩ := lane₃ _ runs
  rcases e.startCopy_cases (g := g) (l := l) (c := c) (r := r) of_card with ⟨targets, -⟩ | ⟨run', lane', left, stops⟩
  · exact (targets _ parsing none_open).elim
  have slots : run'.slot = run.slot := by rw [← Option.some.inj (parsing.symm.trans lane')]; rfl
  have desc' : (e.parseStarted g l d c r).descriptor run'.slot = some d := by
    unfold Engine.descriptor at *
    rw [slots, queue₃, queue]
    exact desc
  have own : d.slot = run.slot := by simpa using List.find?_some desc
  obtain ended : CopyEnded h l d.slot (e.parseStarted g l d c r) (e.startCopy g l d c r) :=
    stops ▸ Engine.stopCopy_dead (Engine.laneWork_eq lane' desc') clip (by rw [left]; rfl)
  refine ⟨ended.lane, ?_, fun v hv => ended.events _ (events _ (told v hv)), fun v hv y hy => ?_⟩
  · rw [ended.queue, queue₃, queue, own]
  · have same : c₃.copyOn v = c₂.copyOn v := by
      unfold Clip.copyOn
      rw [copies]
    refine ((ended.clip c₃ ⟨c₃, found₃, rfl⟩).copyOn v).trans (same.trans ?_)
    rw [booked.copyOn]
    exact Clip.failing_copyOn hv hy

end

end Sys2Proof.Machine
end

