-- ==== Sys2Proof/Proofs/SoleCopies.lean ====
section
/-!
SUPPORT. The steps of a COPY in a calm part: the one COPY with one target, several targets, a volume source (R84 to R88).
-/

namespace Sys2Proof.Machine

section
variable {h : Handle} {l : Fin 2} {c : Clip} {r : CardRecord} {run : LaneRun} {d : Descriptor} {p : Fin 4} {v : Fin 16} {k : Word32} {s : State}
  {y : CopyRecord}

/-! ## One target, and no other work -/

/-- A calm part whose one descriptor is a running COPY with one target, at a port where nothing waits, with nothing under way at the others. -/
structure SoleCopy (s : State) (p : Fin 4) (l : Fin 2) (run : LaneRun) (d : Descriptor) (h : Handle) (c : Clip) (r : CardRecord) (v : Fin 16)
    (y : CopyRecord) : Prop where
  calm : s.calm = true
  requeues : s.engine.requeues = []
  runs : CopyRuns s.engine l run d h c r
  queue : s.engine.queue = [d]
  handle : c.handle = h
  copy : c.copyOn v = some y
  mark : run.abortMark = false
  online : (s.engine.destPorts[p]).state = .online
  first : (s.engine.destPorts[p]).waiting = []
  entry : s.engine.entryAt p = some v
  others : ∀ q : Fin 4, q ≠ p → (s.engine.destPorts[q]).inflight = none ∧ (s.engine.destPorts[q]).waiting = []

/-- Blocks that differ from a calm part's in one running lane, and in nothing else that work starts from, settle as they stand. -/
theorem State.settles_putLane {g : Settings} {a z : Engine} (calm : s.calm = true) (replied : a = z.putLane l run) (lanes : z.lanes = s.engine.lanes)
    (jobs : z.jobs = s.engine.jobs) (contexts : z.contexts = s.engine.contexts) : a.settleTransfer g = z.putLane l run := by
  obtain ⟨-, -, taken, renders⟩ := State.calm_parts calm
  have idle : (z.putLane l run).renderIdle = true := (Engine.renderIdle_congr jobs contexts).trans renders
  rw [replied]
  exact Engine.settleTransfer_quiet
    (Engine.putLane_lanesTaken fun n _ => Engine.lanesTaken_others ((Engine.lanesTaken_congr lanes).trans taken) n) idle

/-- The COPY as a step begins. -/
theorem CopyRuns.blocks (w : CopyRuns s.engine l run d h c r) : CopyRuns s.blocks l run d h c r :=
  ⟨w.lane, w.desc, w.kind, w.clip, w.found, w.card⟩

/-- The COPY as its operation at the port has ended with OK. -/
theorem SoleCopy.freed (m : SoleCopy s p l run d h c r v y) : CopyRuns (s.blocks.freed p) l run d h c r := m.runs.blocks.answered (p := p) .ok

theorem SoleCopy.free (m : SoleCopy s p l run d h c r v y) (q : Fin 4) :
    ((s.blocks.freed p).destPorts[q]).inflight = none ∧ ((s.blocks.freed p).destPorts[q]).waiting = [] := by
  by_cases same : q = p
  · subst same
    rw [Engine.freed_port]
    exact ⟨rfl, m.first⟩
  · rw [Engine.freed_other same]
    exact m.others q same

theorem SoleCopy.ready (m : SoleCopy s p l run d h c r v y) : ((s.blocks.freed p).destPorts[p]).state = .online := by
  rw [Engine.freed_port]
  exact m.online

/-- A step in which the one COPY ends. -/
theorem SoleCopy.ends (m : SoleCopy s p l run d h c r v y) {request : OpRequest} {reply : OpRequest → Option Reply} {x : Reply} {z b : Engine}
    (flight : (s.engine.destPorts[p]).inflight = some ⟨.lane l, request, false⟩) (answer : reply request = some x)
    (replied : ((s.blocks.noteFull p x).freed p).laneReply s.settings l p x = b) (ended : CopyEnded h l d.slot z b)
    (queue : z.queue = [d]) (jobs : z.jobs = s.engine.jobs) (contexts : z.contexts = s.engine.contexts)
    (requeues : z.requeues = s.engine.requeues) :
    b.queue = [] ∧ ∃ t, Host.Outcome.next (φ := Fault) (ρ := Refusal) (s.run (fun g e => e.operationAnswered g p reply)) = .next t ∧
      s.ranInPlace t ∧ t.engine = b := by
  obtain ⟨-, -, -, renders⟩ := State.calm_parts m.calm
  have empty : b.queue = [] := by simp [ended.queue, queue]
  refine ⟨empty, State.lane_answered m.calm flight m.first answer ?_ (.inr (ended.requeues.trans (requeues.trans m.requeues)))⟩
  rw [replied]
  exact Engine.settleTransfer_like_done renders empty (ended.jobs.trans jobs) (ended.contexts.trans contexts)

/-- The one COPY of a card asks for its next block (R86). -/
theorem SoleCopy.reads (m : SoleCopy s p l run d h c r v y) {block : List Byte} {cp : Fin 4} {dir : Directory} {tk : Take}
    (source : run.source = none) (phase : run.phase = .appending) (targets : run.targets = [⟨v, p, .appending k⟩]) (hand : run.block = block)
    (flight : (s.engine.destPorts[p]).inflight = some ⟨.lane l, .append k block, false⟩) (more : d.progress + block.length < c.byteLength)
    (attached : r.attached = some cp) (ready : (s.engine.cardPorts[cp]).state = .attached) (held : (s.engine.cardPorts[cp]).held = some dir)
    (take : takeAt dir c.takeIndex = some tk) (long : c.byteLength ≤ tk.length) :
    let done := d.progress + block.length
    let next : CardRead := ⟨l, c.takeIndex, done, min 1048576 (c.byteLength - done), 0, (s.settings.stall[cp]).period⟩
    ∃ t, exec (.appendAnswer p .outstanding .ok) s = .next t ∧ s.ranInPlace t ∧
      t.engine.queue = [{ d with progress := done }] ∧
      t.engine.cardPorts = s.engine.cardPorts.set cp { s.engine.cardPorts[cp] with read := some next } ∧
      (t.engine.destPorts[p]).inflight = none ∧
      t.engine.laneRun l = some { run with targets := [⟨v, p, .isOpen k⟩], phase := .reading, block := [] } := by
  subst hand
  intro done next
  have asks : (((s.blocks.freed p).blockDone run d).putLane l { run.appended v p k with phase := .reading, block := [] }).askBlock s.settings l
      (run.appended v p k) (d.risen run) c = some ((((s.blocks.freed p).blockDone run d).updatePort cp (fun x => { x with read := some next })).putLane l
        { run.appended v p k with phase := .reading, block := [] }) :=
    Engine.askBlock_card (d := d.risen run) source m.runs.card attached ready held take long more
  have replied := m.freed.append_reads phase targets m.mark more asks Engine.putLane_laneRun
  have settled := State.settles_putLane (g := s.settings) m.calm replied rfl rfl rfl
  obtain ⟨t, step, ran, he⟩ := State.lane_answered (reply := appendReply .ok) m.calm flight m.first rfl settled (.inl rfl)
  have queue : s.engine.queue.map (fun x => if x.slot = d.slot then d.risen run else x) = [{ d with progress := done }] := by
    simp [m.queue, Descriptor.risen, done]
  have free : ((s.blocks.freed p).destPorts[p]).inflight = none := (m.free p).1
  refine ⟨t, step, ran, ?_, ?_, ?_, ?_⟩ <;> rw [he]
  · exact queue
  · rfl
  · exact free
  · exact Engine.putLane_laneRun

/-- The one COPY ends where its target has no space (R70, R87). -/
theorem SoleCopy.noSpace (m : SoleCopy s p l run d h c r v y) {block : List Byte} (phase : run.phase = .appending)
    (targets : run.targets = [⟨v, p, .appending k⟩])
    (flight : (s.engine.destPorts[p]).inflight = some ⟨.lane l, .append k block, false⟩) :
    ∃ t, exec (.appendAnswer p .outstanding .noSpace) s = .next t ∧ s.ranInPlace t ∧ t.engine.queue = [] ∧
      t.engine.laneRun l = none ∧ (t.engine.volumes[v]).map (·.full) = some true ∧
      (((t.engine.clipAt h).bind (·.copyOn v)).map (·.state)) = some .failed ∧
      ∃ ev ∈ t.engine.events, ev.kind = .copyFailed ∧ ev.clip = some h ∧ ev.volume = some v := by
  have full := Engine.noteFull_full (e := s.blocks) m.entry
  have frame := Engine.noteFull_frame (e := s.blocks) (p := p) .noSpace
  obtain ⟨x, books, told, ended⟩ := (m.runs.blocks.answered (p := p) .noSpace).append_fails (g := s.settings) phase targets
  have queue : (s.blocks.noteFull p .noSpace).queue = s.engine.queue := (congrArg Engine.queue frame :)
  have jobs : (s.blocks.noteFull p .noSpace).jobs = s.engine.jobs := (congrArg Engine.jobs frame :)
  have contexts : (s.blocks.noteFull p .noSpace).contexts = s.engine.contexts := (congrArg Engine.contexts frame :)
  have requeues : (s.blocks.noteFull p .noSpace).requeues = s.engine.requeues := (congrArg Engine.requeues frame :)
  obtain ⟨empty, t, step, ran, he⟩ := m.ends (reply := appendReply .noSpace) flight rfl rfl ended
    (books.queue.trans (queue.trans m.queue)) (books.jobs.trans jobs) (books.contexts.trans contexts) (books.requeues.trans requeues)
  refine ⟨t, step, ran, ?_⟩
  rw [he]
  refine ⟨empty, ended.lane, ?_, ?_, copyFailedEvent d.card h v, ended.events _ told, rfl, rfl, rfl⟩
  · rw [ended.volumes, books.volumes]
    exact full
  · rw [(ended.clip _ (books.holdsClip Engine.putClip_holdsClip)).copyOn]
    exact congrArg (Option.map (·.state)) (Clip.withCopy_copyOn (f := fun y => { y with state := .failed }) (fun _ => rfl) m.copy)

/-- The one COPY sends CLOSE after its last block (R88). -/
theorem SoleCopy.closes (m : SoleCopy s p l run d h c r v y) {block : List Byte} (of_card : d.source = some .card) (source : run.source = none)
    (phase : run.phase = .appending) (targets : run.targets = [⟨v, p, .appending k⟩]) (hand : run.block = block)
    (flight : (s.engine.destPorts[p]).inflight = some ⟨.lane l, .append k block, false⟩) (last : c.byteLength ≤ d.progress + block.length) :
    let read := digestOf run.crcHigh run.crcLow
    ∃ t, exec (.appendAnswer p .outstanding .ok) s = .next t ∧ s.ranInPlace t ∧
      t.engine = { s.blocks with
        queue := [{ d with progress := d.progress + block.length }]
        destPorts := s.engine.destPorts.set p
          { s.engine.destPorts[p] with inflight := some ⟨.lane l, .close k, false⟩, last := .lane l }
        clips :=
          if c.sourceDigest = none ∨ c.sourceDigest = some read then
            s.engine.clips.set h.slot ⟨h.gen, some { c with sourceDigest := some read }⟩
          else s.engine.clips
        lanes := s.engine.lanes.set l (.running { run with
          targets := [⟨v, p, .closing⟩], phase := .closing, block := [], readDigest := some read,
          consistent := decide (c.sourceDigest = none ∨ c.sourceDigest = some read) }) } := by
  subst hand
  intro read
  have replied := m.freed.append_closes (g := s.settings) m.handle of_card source phase targets m.mark last m.ready (m.free p).1 (m.free p).2
  dsimp only at replied
  rw [Engine.digestKept_frame] at replied
  have settled := State.settles_putLane (g := s.settings) m.calm replied rfl rfl rfl
  obtain ⟨t, step, ran, he⟩ := State.lane_answered (reply := appendReply .ok) m.calm flight m.first rfl settled (.inl rfl)
  have queue : s.engine.queue.map (fun x => if x.slot = d.slot then d.risen run else x) = [{ d with progress := d.progress + run.block.length }] := by
    simp [m.queue, Descriptor.risen]
  have ports : ((s.blocks.freed p).asked p l (.close k)).destPorts = s.engine.destPorts.set p
      { s.engine.destPorts[p] with inflight := some ⟨.lane l, .close k, false⟩, last := .lane l } :=
    congrArg Engine.destPorts (Engine.freed_asked (e := s.blocks) (.close k))
  refine ⟨t, step, ran, ?_⟩
  rw [he, ← queue, ← ports]
  rfl

/-! ## The CLOSE of the one target -/

/-- The one COPY ends as its target closes, under NO_VERIFY or with nothing written: what its faults, its copy and its events are (R88). -/
theorem SoleCopy.closed_noVerify (m : SoleCopy s p l run d h c r v y) (phase : run.phase = .closing) (targets : run.targets = [⟨v, p, .closing⟩])
    (source : ∀ x, run.source = some x → x.status = .closed) (consistent : run.consistent = true) (mode : r.verifyMode = .noVerify)
    (flight : (s.engine.destPorts[p]).inflight = some ⟨.lane l, .close k, false⟩) :
    ∃ t, exec (.closeAnswer p .outstanding .ok) s = .next t ∧ s.ranInPlace t ∧ t.engine.queue = [] ∧ t.engine.laneRun l = none ∧
      (t.engine.clipAt h).bind (·.copyOn v) = some { y with
        state := .written, verifyWaived := true, verifyDigest := if d.source = some .card then none else run.readDigest } ∧
      Event.ofClip .clipCopied d.card h ∈ t.engine.events := by
  obtain ⟨books, c', r', after, clip, card, replied⟩ := m.freed.close_finishes (g := s.settings) m.handle phase targets source
  have written : (run.closedAt v p).writtenTargets = [v] :=
    (LaneRun.writtenTargets_closed rfl).trans (if_pos consistent)
  have finished := Engine.finishCopy_noVerify (e := (s.blocks.freed p).targetClosed s.settings l run d r h v) (g := s.settings) (l := l) (d := d)
    (clip.handle.trans m.handle) (by rw [written]; exact List.cons_ne_nil _ _) (card.verifyMode.trans mode)
  rw [Engine.sourceJudged_consistent (run := run.closedAt v p) consistent] at finished
  generalize (s.blocks.freed p).targetClosed s.settings l run d r h v = x at books replied finished
  have ended : CopyEnded h l d.slot (x.signal (Event.ofClip .clipCopied d.card h)) _ := .endDescriptor
  obtain ⟨empty, t, step, ran, he⟩ := m.ends (reply := closeReply .ok) flight rfl (replied.trans finished) ended
    (books.queue.trans m.queue) books.jobs books.contexts books.requeues
  have record : run.closedRecord d r y = { y with
      state := .written, verifyWaived := true, verifyDigest := if d.source = some .card then none else run.readDigest } := by
    unfold LaneRun.closedRecord
    rw [if_pos consistent, mode]
    rfl
  refine ⟨t, step, ran, ?_⟩
  rw [he, ← record]
  refine ⟨empty, ended.lane, ?_, ended.events _ (List.mem_append_right x.events (List.mem_singleton_self _))⟩
  rw [(ended.clip _ (books.holdsClip Engine.putClip_holdsClip)).copyOn]
  exact Clip.withCopy_copyOn LaneRun.closedRecord_volume m.copy

/-- The one COPY ends with a copy that is not consistent (R88). -/
theorem SoleCopy.closed_mismatch (m : SoleCopy s p l run d h c r v y) (phase : run.phase = .closing) (targets : run.targets = [⟨v, p, .closing⟩])
    (source : ∀ x, run.source = some x → x.status = .closed) (differs : run.consistent = false)
    (flight : (s.engine.destPorts[p]).inflight = some ⟨.lane l, .close k, false⟩) :
    ∃ t, exec (.closeAnswer p .outstanding .ok) s = .next t ∧ s.ranInPlace t ∧ t.engine.queue = [] ∧ t.engine.laneRun l = none ∧
      (t.engine.clipAt h).bind (·.copyOn v) = some { y with state := .mismatch, verifyDigest := run.readDigest } ∧
      (d.source = some .card → t.engine.faults = (s.engine.raiseFault s.settings (d.mismatch h v)).faults) ∧
      (∀ w, d.source = some (.volume w) →
        t.engine.faults = ((s.engine.raiseFault s.settings (d.mismatch h v)).raiseFault s.settings (d.mismatch h w)).faults) ∧
      ∀ ev ∈ t.engine.events, ev.kind ≠ .clipCopied := by
  obtain ⟨books, c', r', after, clip, card, replied⟩ := m.freed.close_finishes (g := s.settings) m.handle phase targets source
  have written : (run.closedAt v p).writtenTargets = [] :=
    (LaneRun.writtenTargets_closed rfl).trans (if_neg (show ¬ run.consistent = true by simp [differs]))
  have finished := Engine.finishCopy_none (e := (s.blocks.freed p).targetClosed s.settings l run d r h v) (g := s.settings) (l := l) (d := d)
    (r := r') (clip.handle.trans m.handle) written
  have faults : FaultsAlike h ((s.blocks.freed p).targetClosed s.settings l run d r h v) (s.engine.raiseFault s.settings (d.mismatch h v)) := by
    obtain ⟨part, cards, current⟩ := m.freed.closed_faults (g := s.settings) targets differs
    have begun : FaultsAlike h (s.blocks.freed p) s.engine := ⟨rfl, rfl, rfl⟩
    obtain ⟨part', cards', current'⟩ := begun.raiseFault (g := s.settings) (f := d.mismatch h v) rfl
    exact ⟨part.trans part', cards.trans cards', current.trans current'⟩
  generalize (s.blocks.freed p).targetClosed s.settings l run d r h v = x at books replied finished faults
  have judged : Books h x (x.sourceJudged s.settings (run.closedAt v p) d h) := by
    unfold Engine.sourceJudged
    split
    · exact .ite (.refl x) .raiseFault
    · exact .refl x
  have all := books.trans judged
  have ended : CopyEnded h l d.slot (x.sourceJudged s.settings (run.closedAt v p) d h) _ := .endDescriptor
  obtain ⟨empty, t, step, ran, he⟩ := m.ends (reply := closeReply .ok) flight rfl (replied.trans finished) ended
    (all.queue.trans m.queue) all.jobs all.contexts all.requeues
  have record : run.closedRecord d r y = { y with state := .mismatch, verifyDigest := run.readDigest } := by
    unfold LaneRun.closedRecord
    rw [if_neg (by simp [differs])]
  refine ⟨t, step, ran, ?_⟩
  rw [he, ← record]
  refine ⟨empty, ended.lane, ?_, fun of_card => ?_, fun w of_volume => ?_, ended.others (all.not_copied (List.forall_mem_nil _))⟩
  · rw [(ended.clip _ (all.holdsClip Engine.putClip_holdsClip)).copyOn]
    exact Clip.withCopy_copyOn LaneRun.closedRecord_volume m.copy
  · rw [ended.faults, Engine.sourceJudged_card of_card]
    exact congrArg Prod.fst faults.part
  · rw [ended.faults, Engine.sourceJudged_volume (run := run.closedAt v p) of_volume differs]
    exact congrArg Prod.fst (faults.raiseFault (f := d.mismatch h w) rfl).part

/-- The VERIFY of a copy follows the one COPY of a card under READBACK (R88). -/
theorem SoleCopy.closed_readback (m : SoleCopy s p l run d h c r v y) (of_card : d.source = some .card) (source : run.source = none)
    (phase : run.phase = .closing) (targets : run.targets = [⟨v, p, .closing⟩]) (consistent : run.consistent = true)
    (mode : r.verifyMode = .readback) (flight : (s.engine.destPorts[p]).inflight = some ⟨.lane l, .close k, false⟩) :
    let written : CopyRecord := { y with state := .written, verifyWaived := false, verifyDigest := none }
    ∃ t, exec (.closeAnswer p .outstanding .ok) s = .next t ∧ s.ranInPlace t ∧
      Event.ofClip .clipCopied d.card h ∈ t.engine.events ∧
      (r.heldByRequest = true → t.engine.queue = [verifyAlone h d.card v d.generation .held] ∧ t.engine.laneRun l = none ∧
        (t.engine.clipAt h).bind (·.copyOn v) = some written) ∧
      (r.heldByRequest = false → t.engine.queue = [verifyAlone h d.card v d.generation .running] ∧
        t.engine.destPorts = ((s.blocks.freed p).asked p l (.openRead (c.copyName r))).destPorts ∧
        t.engine.laneRun l = some { LaneRun.start 0 with source := some ⟨v, p, .opening⟩ } ∧
        (t.engine.clipAt h).bind (·.copyOn v) = some { written with state := .verifying }) := by
  intro written
  obtain ⟨-, -, lanes, renders⟩ := State.calm_parts m.calm
  obtain ⟨books, c', r', after, clip, card, replied⟩ := m.freed.close_finishes (g := s.settings) m.handle phase targets
    (by rw [source]; exact fun _ absent => nomatch absent)
  have copied : (run.closedAt v p).writtenTargets = [v] :=
    (LaneRun.writtenTargets_closed rfl).trans (if_pos consistent)
  have cards := m.freed.closed_cards (g := s.settings) targets consistent
  generalize (s.blocks.freed p).targetClosed s.settings l run d r h v = x at books after replied cards
  obtain rfl : r = r' := by
    have own := after.card
    rw [cards] at own
    exact Option.some.inj (m.runs.card.symm.trans own)
  have ports : x.destPorts = (s.blocks.freed p).destPorts := books.destPorts
  have queued := after.finish_readback (g := s.settings) (clip.handle.trans m.handle) (books.queue.trans m.queue) of_card copied
    mode m.mark (by rw [ports]; exact m.free)
  rw [← replied] at queued
  have idle : x.renderIdle = true := (Engine.renderIdle_congr books.jobs books.contexts).trans renders
  have record : c'.copyOn v = some written := by
    rw [clip.copyOn, Clip.withCopy_copyOn LaneRun.closedRecord_volume m.copy]
    unfold LaneRun.closedRecord
    rw [if_pos consistent, mode, if_pos of_card]
    rfl
  cases held : r.heldByRequest with
  | true =>
    have queue := queued.queue
    rw [if_pos held] at queue
    obtain ⟨t, step, ran, he⟩ := State.lane_answered (reply := closeReply .ok) m.calm flight m.first rfl (queued.waits held idle)
      (.inr (queued.requeues.trans (books.requeues.trans m.requeues)))
    refine ⟨t, step, ran, ?_⟩
    rw [he]
    refine ⟨queued.copied, fun _ => ⟨queue, ?_, (queued.clip.copyOn v).trans record⟩, nofun⟩
    unfold Engine.laneRun
    rw [queued.lanes]
    simp
  | false =>
    have others : ∀ n : Fin 2, n ≠ l → x.lanes[n] ≠ .idle := fun n hn => by
      rw [books.lanes]
      have same : (((s.blocks.freed p).putLane l (run.closedAt v p)).lanes)[n] = s.engine.lanes[n] := by
        simp [Engine.putLane, Engine.freed, Fin.val_inj, Ne.symm hn]
      exact fun k => Engine.lanesTaken_others lanes n (same.symm.trans k)
    have started := queued.grants (g := s.settings) held (clip.handle.trans m.handle) ((books.portOf v).trans (Engine.portOf_entryAt m.entry))
      (by rw [ports]; exact m.ready) (by rw [ports]; exact (m.free p).1) (by rw [ports]; exact (m.free p).2) others idle
    obtain ⟨t, step, ran, he⟩ := State.lane_answered (reply := closeReply .ok) (x := .ok)
      (e := ((s.blocks.freed p).laneReply s.settings l p .ok).settleTransfer s.settings) m.calm flight m.first rfl rfl
      (.inr (started.requeues.trans (books.requeues.trans m.requeues)))
    refine ⟨t, step, ran, ?_⟩
    rw [he]
    refine ⟨started.copied, nofun, fun _ => ⟨started.queue, ?_, started.lane, started.copy _ record⟩⟩
    rw [started.destPorts]
    have name : c'.copyName r = c.copyName r := by
      rw [clip]
      rfl
    rw [name]
    exact congrArg (fun y : Vector DestPort 4 => y.set p
      { y[p] with inflight := some ⟨.lane l, .openRead (c.copyName r), false⟩, last := .lane l }) ports

/-! ## Several targets -/

section
variable {block : List Byte} (calm : s.calm = true) (w : CopyRuns s.engine l run d h c r) (phase : run.phase = .appending)
  (target : ⟨v, p, .appending k⟩ ∈ run.targets) (ports : (run.targets.map (·.port)).Nodup) (others : run.othersAppend v)
  (flight : (s.engine.destPorts[p]).inflight = some ⟨.lane l, .append k block, false⟩) (first : (s.engine.destPorts[p]).waiting = [])
include calm w phase target ports others flight first

/-- A target's OK leaves a COPY that awaits others waiting (R86). -/
theorem CopyRuns.one_appended : ∃ t, exec (.appendAnswer p .outstanding .ok) s = .next t ∧ s.ranInPlace t ∧
    t.engine = (s.blocks.freed p).putLane l (run.withTarget v (.isOpen k)) := by
  have replied := (w.blocks.answered (p := p) .ok).append_waits (g := s.settings) phase target ports others
  have settled := State.settles_putLane (g := s.settings) calm replied rfl rfl rfl
  exact State.lane_answered (reply := appendReply .ok) calm flight first rfl settled (.inl rfl)

/-- What a COPY leaves that goes on without a target (R87). -/
structure TargetDropped (h : Handle) (l : Fin 2) (run : LaneRun) (d : Descriptor) (p : Fin 4) (v : Fin 16) (y : CopyRecord) (a b : Engine) :
    Prop where
  queue : b.queue = a.queue
  destPorts : b.destPorts = (a.freed p).destPorts
  lane : b.laneRun l = some (run.withTarget v .dropped)
  copy : (b.clipAt h).bind (·.copyOn v) = some { y with state := .failed }
  told : copyFailedEvent d.card h v ∈ b.events

/-- A target's failure lets a COPY that awaits others go on (R70, R87). -/
theorem CopyRuns.one_drops {a : AppendAnswer} {x : Reply} {n : Nat} (copy : c.copyOn v = some y)
    (drops : ∀ (e : Engine) (t : Target), t.status = .appending k → e.targetReply s.settings l run d t x = e.dropTarget s.settings l d t.entry n)
    (answer : appendReply a (.append k block) = some x) :
    ∃ t, exec (.appendAnswer p .outstanding a) s = .next t ∧ s.ranInPlace t ∧ TargetDropped h l run d p v y s.engine t.engine ∧
      t.engine.volumes = (s.blocks.noteFull p x).volumes := by
  obtain ⟨-, -, lanes, renders⟩ := State.calm_parts calm
  have frame := Engine.noteFull_frame (e := s.blocks) (p := p) x
  have w' := w.blocks.answered (p := p) x
  have replied := w'.append_drops phase target ports others (g := s.settings) (fun t ht => drops _ t ht)
  obtain ⟨books, told⟩ := Engine.copyFails_books (e := ((s.blocks.noteFull p x).freed p).putLane l (run.withTarget v .dropped)) (g := s.settings)
    (v := v) w.clip w'.found n
  have running : (s.blocks.noteFull p x).lanes = s.engine.lanes := (congrArg Engine.lanes frame :)
  have jobs : (s.blocks.noteFull p x).jobs = s.engine.jobs := (congrArg Engine.jobs frame :)
  have contexts : (s.blocks.noteFull p x).contexts = s.engine.contexts := (congrArg Engine.contexts frame :)
  have queue : (s.blocks.noteFull p x).queue = s.engine.queue := (congrArg Engine.queue frame :)
  have removed : (s.blocks.noteFull p x).removed = false := (congrArg Engine.removed frame :)
  have sent : ((s.blocks.noteFull p x).freed p).destPorts = (s.engine.freed p).destPorts :=
    congrArg (fun z : Vector DestPort 4 => z.set p { z[p] with inflight := none }) (Engine.noteFull_destPorts (e := s.blocks))
  have taken := Engine.putLane_lanesTaken (e := (s.blocks.noteFull p x).freed p) (l := l) (run := run.withTarget v .dropped)
    fun n _ idle => Engine.lanesTaken_others lanes n ((congrArg (fun z : Vector Lane 2 => z[n]) running).symm.trans idle)
  generalize Engine.copyFails s.settings _ d v n = z at books told replied
  have settled := (congrArg (Engine.settleTransfer s.settings) replied).trans (Engine.settleTransfer_quiet
    ((Engine.lanesTaken_congr books.lanes).trans taken) ((Engine.renderIdle_congr (books.jobs.trans jobs) (books.contexts.trans contexts)).trans renders))
  obtain ⟨t, step, ran, he⟩ := State.lane_answered (reply := appendReply a) calm flight first answer settled (.inl (books.removed.trans removed))
  refine ⟨t, step, ran, ?_, ?_⟩ <;> rw [he]
  · exact ⟨books.queue.trans queue, books.destPorts.trans sent, (books.laneRun l).trans Engine.putLane_laneRun,
      (books.holdsClip Engine.putClip_holdsClip).copyOn v |>.trans (Clip.withCopy_copyOn (fun _ => rfl) copy), told⟩
  · exact books.volumes

end

/-! ## A volume source -/

section
variable {q : Fin 4} {x : Fin 16} {i : Word32} (calm : s.calm = true) (w : CopyRuns s.engine l run d h c r) (apart : p ≠ q)
  (source : run.source = some ⟨x, q, .isOpen i⟩) (first_q : (s.engine.destPorts[q]).waiting = [])
include calm w apart source first_q

/-- A block from a volume goes to the one open target (R84, R86). -/
theorem CopyRuns.volume_appends (online_p : (s.engine.destPorts[p]).state = .online) (first_p : (s.engine.destPorts[p]).waiting = [])
    (of_volume : d.source = some (.volume x)) {bytes : List Byte} (targets : run.targets = [⟨v, p, .isOpen k⟩])
    (free : (s.engine.destPorts[p]).inflight = none)
    (flight : (s.engine.destPorts[q]).inflight = some ⟨.lane l, .read i d.progress bytes.length, false⟩) :
    ∃ t, exec (.volumeReadAnswer q .outstanding (.data bytes)) s = .next t ∧ s.ranInPlace t ∧
      t.engine = { s.blocks with
        destPorts := (s.engine.destPorts.set q { s.engine.destPorts[q] with inflight := none }).set p
          { s.engine.destPorts[p] with inflight := some ⟨.lane l, .append k bytes, false⟩, last := .lane l }
        lanes := s.engine.lanes.set l (.running { run.entered d c bytes with targets := [⟨v, p, .appending k⟩] }) } := by
  have port : (s.blocks.freed q).destPorts[p] = s.engine.destPorts[p] := Engine.freed_other apart
  have replied := (w.blocks.answered (p := q) (.data bytes)).block_appends (g := s.settings) of_volume source apart targets
    (by rw [← online_p]; exact congrArg DestPort.state port) (by rw [← free]; exact congrArg DestPort.inflight port)
    (by rw [← first_p]; exact congrArg DestPort.waiting port) bytes
  have settled := State.settles_putLane (g := s.settings) calm replied rfl rfl rfl
  obtain ⟨t, step, ran, he⟩ := State.lane_answered (reply := readReply (.data bytes)) calm flight first_q (congrArg some (if_pos rfl)) settled (.inl rfl)
  refine ⟨t, step, ran, ?_⟩
  rw [he, ← port]
  rfl

/-- What the COPY's next read of its volume settles to. -/
theorem CopyRuns.volume_settles (online_q : (s.engine.destPorts[q]).state = .online) (phase : run.phase = .appending)
    (targets : run.targets = [⟨v, p, .appending k⟩]) (mark : run.abortMark = false) (free : (s.engine.destPorts[q]).inflight = none)
    (more : d.progress + run.block.length < c.byteLength) :
    ((s.blocks.freed p).laneReply s.settings l p .ok).settleTransfer s.settings = (((s.blocks.freed p).blockDone run d).asked q l
      (.read i (d.risen run).progress (min 1048576 (c.byteLength - (d.risen run).progress)))).putLane l
        { run.appended v p k with phase := .reading, block := [] } := by
  have port : (((s.blocks.freed p).blockDone run d).putLane l { run.appended v p k with phase := .reading, block := [] }).destPorts[q] =
      s.engine.destPorts[q] := Engine.freed_other apart.symm
  have asks := Engine.askBlock_volume (e := ((s.blocks.freed p).blockDone run d).putLane l { run.appended v p k with phase := .reading, block := [] })
    (g := s.settings) (l := l) (run := run.appended v p k) (d := d.risen run) (c := c) source (by rw [port, online_q]) (by rw [port, free])
    (by rw [port, first_q])
  rw [Engine.putLane_asked] at asks
  generalize OpRequest.read i (d.risen run).progress (min 1048576 (c.byteLength - (d.risen run).progress)) = request at asks ⊢
  have replied := (w.blocks.answered (p := p) .ok).append_reads phase targets mark more asks Engine.putLane_laneRun
  exact State.settles_putLane calm replied rfl rfl rfl

/-- The next block is asked of the volume once the one target has its own (R86). -/
theorem CopyRuns.volume_reads {block : List Byte} (first_p : (s.engine.destPorts[p]).waiting = [])
    (online_q : (s.engine.destPorts[q]).state = .online) (phase : run.phase = .appending) (targets : run.targets = [⟨v, p, .appending k⟩])
    (hand : run.block = block) (mark : run.abortMark = false)
    (flight : (s.engine.destPorts[p]).inflight = some ⟨.lane l, .append k block, false⟩) (free : (s.engine.destPorts[q]).inflight = none)
    (more : d.progress + block.length < c.byteLength) :
    let done := d.progress + block.length
    ∃ t, exec (.appendAnswer p .outstanding .ok) s = .next t ∧ s.ranInPlace t ∧
      t.engine = { s.blocks with
        queue := s.engine.queue.map (fun x => if x.slot = d.slot then { d with progress := done } else x)
        destPorts := (s.engine.destPorts.set p { s.engine.destPorts[p] with inflight := none }).set q
          { s.engine.destPorts[q] with
            inflight := some ⟨.lane l, .read i done (min 1048576 (c.byteLength - done)), false⟩, last := .lane l }
        lanes := s.engine.lanes.set l (.running { run with targets := [⟨v, p, .isOpen k⟩], phase := .reading, block := [] }) } := by
  subst hand
  intro done
  have port : (s.blocks.freed p).destPorts[q] = s.engine.destPorts[q] := Engine.freed_other apart.symm
  have settled := w.volume_settles calm apart source first_q online_q phase targets mark free more
  obtain ⟨t, step, ran, he⟩ := State.lane_answered (reply := appendReply .ok) calm flight first_p rfl settled (.inl rfl)
  refine ⟨t, step, ran, ?_⟩
  rw [he, ← port]
  rfl

end

end

end Sys2Proof.Machine
end

