-- ==== Sys2Proof/Proofs/CopyGoesOn.lean ====
section
/-!
THEOREM. A COPY from its grant to its end (R53, R82, R83, R85 to R88, R90, R169): O52.
-/

namespace Sys2Proof.Machine

theorem Engine.descriptor_single {e : Engine} {d : Descriptor} {n : Fin 64} (queue : e.queue = [d]) (slot : n = d.slot) :
    e.descriptor n = some d := by
  simp [Engine.descriptor, queue, slot]

/-- A target's failed APPEND lets a COPY that awaits others go on, its volume full where it had no space (R70, R87). -/
theorem CopyRuns.one_fails {p : Fin 4} {l : Fin 2} {run : LaneRun} {d : Descriptor} {h : Handle} {c : Clip} {r : CardRecord} {v : Fin 16}
    {k : Word32} {block : List Byte} {y : CopyRecord} {s : State} (calm : s.calm = true) (w : CopyRuns s.engine l run d h c r)
    (phase : run.phase = .appending) (target : ⟨v, p, .appending k⟩ ∈ run.targets) (ports : (run.targets.map (·.port)).Nodup)
    (others : run.othersAppend v) (flight : (s.engine.destPorts[p]).inflight = some ⟨.lane l, .append k block, false⟩)
    (first : (s.engine.destPorts[p]).waiting = []) (entry : s.engine.entryAt p = some v) (copy : c.copyOn v = some y) (a : AppendAnswer)
    (failed : a ∈ [AppendAnswer.noSpace, AppendAnswer.error]) :
    ∃ t, exec (.appendAnswer p .outstanding a) s = .next t ∧ s.ranInPlace t ∧ TargetDropped h l run d p v y s.engine t.engine ∧
      (t.engine.volumes[v]).map (·.full) = if a = .noSpace then some true else (s.engine.volumes[v]).map (·.full) := by
  have cases : a = .noSpace ∨ a = .error := by simpa using failed
  rcases cases with rfl | rfl
  · obtain ⟨t, step, ran, dropped, volumes⟩ := w.one_drops (a := .noSpace) (x := .noSpace) (n := 1) calm phase target ports others flight first copy
      (fun e t status => by unfold Engine.targetReply; rw [status]) rfl
    refine ⟨t, step, ran, dropped, ?_⟩
    rw [volumes]
    exact Engine.noteFull_full (e := s.blocks) entry
  · obtain ⟨t, step, ran, dropped, volumes⟩ := w.one_drops (a := .error) (x := .error) (n := 2) calm phase target ports others flight first copy
      (fun e t status => by unfold Engine.targetReply; rw [status]) rfl
    refine ⟨t, step, ran, dropped, ?_⟩
    rw [volumes]
    rfl

/-- Settles O52: each step of a running COPY from what its lane's reply leaves, the grant from the oldest eligible descriptor. -/
theorem copyGoesOnBlockByBlock : Obligations.CopyGoesOnBlockByBlock := by
  unfold Obligations.CopyGoesOnBlockByBlock
  refine ⟨?_, ?_, ?_, ?_, ?_, ?_, ?_⟩
  · intro p l run d h c r v k y s calm requeues lane queue slot kind of_card source clip found handle card copy mark online first entry others
    have m : SoleCopy s p l run d h c r v y :=
      ⟨calm, requeues, ⟨lane, Engine.descriptor_single queue slot, kind, clip, found, card⟩, queue, handle, copy, mark, online, first, entry, others⟩
    refine ⟨fun block cp dir tk phase targets hand flight => ⟨fun more attached ready held take long => ?_, ?_⟩,
      fun digest phase targets consistent _ mode flight => ?_⟩
    · exact m.reads source phase targets hand flight more attached ready held take long
    · exact m.noSpace phase targets flight
    · obtain ⟨t, step, ran, empty, idle, copied, told⟩ := m.closed_noVerify phase targets (by rw [source]; exact fun _ absent => nomatch absent)
        consistent mode flight
      rw [if_pos of_card] at copied
      exact ⟨t, step, ran, empty, idle, copied, told⟩
  · intro p l run d h c r v k y digest s calm requeues lane queue slot kind clip found handle card copy mark online first entry others q asked copied
      mismatch
    have m : SoleCopy s p l run d h c r v y :=
      ⟨calm, requeues, ⟨lane, Engine.descriptor_single queue slot, kind, clip, found, card⟩, queue, handle, copy, mark, online, first, entry, others⟩
    refine ⟨fun block of_card source phase targets hand flight last => ?_, fun phase targets read flight => ⟨?_, ?_, ?_⟩⟩
    · exact m.closes of_card source phase targets hand flight last
    · intro of_card source consistent mode written verify
      obtain ⟨t, step, ran, told, held, granted⟩ := m.closed_readback of_card source phase targets consistent mode flight
      refine ⟨t, step, ran, told, held, fun free => ?_⟩
      obtain ⟨started, ports, lane', copied'⟩ := granted free
      exact ⟨started, ports.trans (congrArg Engine.destPorts (Engine.freed_asked (e := s.blocks) _)), lane', copied'⟩
    · intro of_card source differs
      obtain ⟨t, step, ran, empty, idle, record, faults, -, silent⟩ := m.closed_mismatch phase targets
        (by rw [source]; exact fun _ absent => nomatch absent) differs flight
      rw [read] at record
      exact ⟨t, step, ran, empty, idle, record, faults of_card, silent⟩
    · intro w x of_volume source closed
      have closed' : ∀ z, run.source = some z → z.status = .closed := fun z hz => Option.some.inj (source.symm.trans hz) ▸ closed
      refine ⟨fun consistent mode => ?_, fun differs => ?_⟩
      · obtain ⟨t, step, ran, empty, idle, record, told⟩ := m.closed_noVerify phase targets closed' consistent mode flight
        rw [if_neg (by simp [of_volume]), read] at record
        exact ⟨t, step, ran, empty, idle, record, told⟩
      · obtain ⟨t, step, ran, empty, idle, record, -, faults, silent⟩ := m.closed_mismatch phase targets closed' differs flight
        rw [read] at record
        exact ⟨t, step, ran, empty, idle, record, faults w of_volume, silent⟩
  · intro p l run d h c v k block y s calm lane desc kind clip found card copy phase target unique _ others flight first entry ports went
    obtain ⟨r, card⟩ := Option.ne_none_iff_exists'.mp card
    have w : CopyRuns s.engine l run d h c r := ⟨lane, desc, kind, clip, found, card⟩
    refine ⟨w.one_appended calm phase target unique others flight first, fun a failed => ?_⟩
    obtain ⟨t, step, ran, dropped, full⟩ := w.one_fails calm phase target unique others flight first entry copy a failed
    exact ⟨t, step, ran, dropped.queue, dropped.destPorts, dropped.lane, dropped.copy, dropped.told, full⟩
  · intro p q l run d h c v x k i s calm lane desc kind of_volume clip found card apart source online_p first_p online_q first_q
    obtain ⟨r, card⟩ := Option.ne_none_iff_exists'.mp card
    have w : CopyRuns s.engine l run d h c r := ⟨lane, desc, kind, clip, found, card⟩
    refine ⟨fun bytes _ targets free flight => ?_, fun block phase targets hand mark flight free more => ?_⟩
    · exact w.volume_appends calm apart source first_q online_p first_p of_volume targets free flight
    · exact w.volume_reads calm apart source first_q first_p online_q phase targets hand mark flight free more
  · exact fun e front back d queue slots fits before => Engine.eligible_first queue slots fits before
  · intro g e l d h c r v p idle busy renders eligible kind of_card clip found handle long card targets port online free first t
    obtain ⟨sc, granted⟩ := Engine.settleTransfer_copy (g := g) idle busy renders eligible kind of_card clip found handle long card targets port online
      free first
    have state : t = _ := granted
    rw [state]
    exact ⟨rfl, rfl, Engine.putClip_clipAt, _, Engine.putLane_laneRun, rfl, rfl, rfl, rfl, rfl, rfl⟩
  · intro g e l d h c r of_card clip found handle t
    obtain ⟨⟨c', after, zeros⟩, scan⟩ := Engine.startCopy_resets (g := g) (l := l) (r := r) of_card clip found handle
    refine ⟨⟨?_, scan⟩, fun run lane desc none_open _ gone => ?_⟩
    · exact (congrArg (Option.map Clip.observedPart) after).trans (congrArg some zeros)
    · obtain ⟨idle, queue, told, copies⟩ := StoppedAtOnce.startCopy (g := g) (r := r) of_card clip found handle lane desc none_open gone
      exact ⟨idle, queue, fun v hv => ⟨told v hv, copies v hv⟩⟩

end Sys2Proof.Machine
end

section
/-!
THEOREM. Drives at a destination port: arrival, removal and identification (R62, R64 to R69): O49 and O50.
-/

namespace Sys2Proof.Machine

section
variable {e : Engine} {g : Settings} {p : Fin 4} {v : Fin 16} {s : State}

/-! ## A port without a volume in service -/

/-- The untracked list without a port that leaves it (R68). -/
def Engine.untrackedWithout (e : Engine) (p : Fin 4) : List (Fin 4) :=
  match (e.destPorts[p]).state with
  | .untracked _ _ => e.untracked.erase p
  | _ => e.untracked

/-- The blocks with a destination port in a state of no volume in service, off the untracked list. -/
def Engine.atRest (e : Engine) (p : Fin 4) (x : DestState) : Engine :=
  { e with untracked := e.untrackedWithout p, destPorts := e.destPorts.set p { e.destPorts[p] with state := x } }

/-- A drive that leaves a port that is not ONLINE leaves it EMPTY (R64, R68). -/
theorem Engine.driveLeaves_atRest (offline : (e.destPorts[p]).state ≠ .online) : e.driveLeaves g p = e.atRest p .empty := by
  unfold Engine.driveLeaves Engine.atRest Engine.untrackedWithout
  cases state : (e.destPorts[p]).state with
  | empty =>
    have same : e.destPorts.set p { e.destPorts[p] with state := .empty } = e.destPorts := by
      rw [← state]
      exact Vector.set_getElem_self _
    dsimp only
    rw [same]
  | identifying => rfl
  | untracked serial label => rfl
  | offline => rfl
  | online => exact absurd state offline

/-- A drive that arrives at a port that is not ONLINE is identified (R64). -/
theorem Engine.driveArrives_atRest (offline : (e.destPorts[p]).state ≠ .online) : e.driveArrives g p = e.atRest p .identifying := by
  unfold Engine.driveArrives
  rw [Engine.driveLeaves_atRest offline]
  simp [Engine.mount, Engine.updateDest, Engine.atRest]

/-- A step of the blocks at an enclosure that a drive has come to or left, under a silent matrix. -/
theorem State.run_mounted (calm : s.calm = true) (b : Bool) {f : Settings → Engine → Engine} (ran : f s.settings s.blocks = e)
    (kept : e.removed = false) :
    ∃ t, Host.Outcome.next (φ := Fault) (ρ := Refusal) (State.run { s with mounted := s.mounted.set p b } f) = .next t ∧ s.ranBlocks t ∧
      t.now = s.now ∧ t.mounted = s.mounted.set p b ∧ t.seated = s.seated ∧ t.engine = e := by
  obtain ⟨running, silent, -, -⟩ := State.calm_parts calm
  obtain ⟨t, step, ⟨blocks, now, seated, mounted⟩, he⟩ :=
    State.run_silent (s := { s with mounted := s.mounted.set p b }) running silent ran (.inl kept)
  exact ⟨t, step, blocks, now, mounted, seated, he⟩

/-! ## A volume that nobody uses is removed -/

/-- A DRAINING lane has nothing to lose (R82). -/
theorem Engine.laneLoses_draining {l : Fin 2} (draining : e.lanes[l] = .draining) : e.laneLoses g p l = e := by
  have idle : e.laneWork l = none := by simp [Engine.laneWork, Engine.laneRun, draining]
  unfold Engine.laneLoses
  rw [idle]

/-- A context that runs no job has nothing to lose (R134). -/
theorem Engine.contextLoses_idle {c : Fin 2} (idle : e.contextRun c = none) : e.contextLoses g p c = e := by
  unfold Engine.contextLoses
  rw [idle]

/-- Nobody loses anything with a volume while both lanes drain and no context runs (R69). -/
theorem Engine.requesterLoses_none (lanes : ∀ l : Fin 2, e.lanes[l] = .draining) (contexts : ∀ c : Fin 2, e.contextRun c = none)
    (who : Requester) : Engine.requesterLoses g p e who = e := by
  cases who with
  | lane l => exact Engine.laneLoses_draining (lanes l)
  | context c => exact Engine.contextLoses_idle (contexts c)

theorem Engine.losers_none (lanes : ∀ l : Fin 2, e.lanes[l] = .draining) (contexts : ∀ c : Fin 2, e.contextRun c = none)
    (losers : List Requester) : losers.foldl (Engine.requesterLoses g p) e = e := by
  induction losers with
  | nil => rfl
  | cons who rest ih => rw [List.foldl_cons, Engine.requesterLoses_none lanes contexts, ih]

/-- The port and the entry that a volume has left (R69). -/
theorem Engine.unplugged_eq {x : VolumeEntry} (entry : e.volumes[v] = some x) : e.unplugged p v = { e with
    destPorts := e.destPorts.set p { e.destPorts[p] with state := .empty, inflight := none, waiting := [] }
    volumes := e.volumes.set v (some { x with inserted := none }) } := by
  have held : (e.updateDest p (fun d => { d with state := .empty, inflight := none, waiting := [] })).volumes[v] = some x := entry
  unfold Engine.unplugged Engine.updateVolume
  rw [held]
  rfl

/-- A removal that nobody loses by signals VOLUME_REMOVED (R69). -/
theorem Engine.removalTold_unused (unasked : (e.destPorts[p]).inflight = none) (lanes : ∀ l : Fin 2, e.lanes[l] = .draining)
    (renders : e.renderIdle = true) : e.removalTold g p v = (e.unplugged p v).signal (Event.ofVolume .volumeRemoved v) := by
  simp only [Engine.renderIdle, Bool.and_eq_true, decide_eq_true_eq] at renders
  obtain ⟨⟨jobs, -⟩, contexts⟩ := renders
  have frame := Engine.unplugged_move (e := e) (p := p) v
  have told : (e.destPorts[p]).losers.foldl (Engine.requesterLoses g p) (e.unplugged p v) = e.unplugged p v := by
    refine Engine.losers_none (fun l => ?_) (fun c => ?_) _ <;> rw [frame]
    · exact lanes l
    · exact contexts c
  have none_suspended : (e.unplugged p v).suspendedLose g v = e.unplugged p v := by
    have no_jobs : (e.unplugged p v).jobs = [] := by rw [frame]; exact jobs
    unfold Engine.suspendedLose
    rw [no_jobs]
    rfl
  unfold Engine.removalTold
  dsimp only
  rw [unasked, told, none_suspended]

/-- With no port UNTRACKED there is none to examine (R67). -/
theorem Engine.reevaluateUntracked_nil (empty : e.untracked = []) : e.reevaluateUntracked = e := by
  unfold Engine.reevaluateUntracked
  rw [empty]
  rfl

/-- An entry out of its port is freed when no copy record names it (R66). -/
theorem Engine.freeIfUnused_away {x : VolumeEntry} (entry : e.volumes[v] = some x) (away : x.inserted = none) :
    (e.freeIfUnused v).1 = { e with volumes := e.volumes.set v (if e.refCount v = 0 then none else some x) } := by
  unfold Engine.freeIfUnused
  rw [entry]
  by_cases unnamed : e.refCount v = 0
  · simp [away, unnamed]
  · have same : e.volumes.set v (some x) = e.volumes := by
      rw [← entry]
      exact Vector.set_getElem_self _
    simp [unnamed, same]

/-- The blocks after the removal of a volume in service that nobody uses (R66, R69). -/
def Engine.volumeGone (e : Engine) (p : Fin 4) (v : Fin 16) (x : VolumeEntry) : Engine :=
  { e with
    destPorts := e.destPorts.set p { e.destPorts[p] with state := .empty, inflight := none, waiting := [] }
    volumes := e.volumes.set v (if e.refCount v = 0 then none else some { x with inserted := none })
    events := e.events ++ [Event.ofVolume .volumeRemoved v] }

/-- What the removal of a volume does that nobody uses, with no port UNTRACKED. -/
theorem Engine.removeVolume_unused {x : VolumeEntry} (entry : e.volumes[v] = some x) (unasked : (e.destPorts[p]).inflight = none)
    (lanes : ∀ l : Fin 2, e.lanes[l] = .draining) (taken : e.lanesTaken = true) (renders : e.renderIdle = true)
    (tracked : e.untracked = []) : e.removeVolume g p v = e.volumeGone p v x := by
  have told := Engine.removalTold_unused (g := g) (v := v) unasked lanes renders
  rw [Engine.unplugged_eq entry] at told
  have left : (e.removalTold g p v).volumes[v] = some { x with inserted := none } := by
    rw [told]
    simp
  have freed : ((e.removalTold g p v).freeIfUnused v).1 = e.volumeGone p v x := by
    rw [Engine.freeIfUnused_away left rfl, told]
    simp only [Engine.signal, Vector.set_set]
    rfl
  have examined : (e.volumeGone p v x).reevaluateUntracked = e.volumeGone p v x := Engine.reevaluateUntracked_nil tracked
  rw [Engine.removeVolume_eq, freed, examined]
  exact Engine.settleTransfer_like taken renders rfl rfl rfl

end

/-- Settles O49: a port that is not ONLINE changes its state alone and leaves the untracked list; the removal of a volume in service by
`Engine.removeVolume_unused`. -/
theorem driveArrivesAndLeaves : Obligations.DriveArrivesAndLeaves := by
  unfold Obligations.DriveArrivesAndLeaves
  intro p s calm q list
  refine ⟨fun offline => ⟨?_, ?_⟩, fun v x online entry_at entry unasked lanes tracked => ?_⟩
  · exact State.run_mounted calm true (f := fun g e => e.driveArrives g p) (Engine.driveArrives_atRest (e := s.blocks) offline) rfl
  · exact State.run_mounted calm false (f := fun g e => e.driveLeaves g p) (Engine.driveLeaves_atRest (e := s.blocks) offline) rfl
  · obtain ⟨-, -, taken, renders⟩ := State.calm_parts calm
    have leaves : s.blocks.driveLeaves s.settings p = s.blocks.removeVolume s.settings p v := by
      unfold Engine.driveLeaves
      rw [show (s.blocks.destPorts[p]).state = .online from online]
      dsimp only
      rw [show s.blocks.entryAt p = some v from entry_at]
    exact State.run_mounted calm false (f := fun g e => e.driveLeaves g p)
      (leaves.trans (Engine.removeVolume_unused (e := s.blocks) entry unasked lanes taken renders tracked)) rfl

end Sys2Proof.Machine
end

section
/-!
THEOREM. What an identify answer does at a destination port (R62, R64, R65): O50.
-/

namespace Sys2Proof.Machine

section
variable {e : Engine} {g : Settings} {p : Fin 4} {v : Fin 16} {s : State} {serial : Word64} {label : Text}

/-! ## The placement of a volume -/

/-- A volume goes online in the entry of its serial that is in no port, or else in the lowest free one (R65). -/
theorem Engine.place_online
    (found : (e.entryOfSerial serial = some v ∧ e.portOf v = none) ∨ (e.entryOfSerial serial = none ∧ e.freeEntry = some v)) :
    e.place p serial label = e.online p v serial label := by
  unfold Engine.place
  obtain ⟨own, away⟩ | ⟨unknown, free⟩ := found
  · rw [own]
    simp [away]
  · rw [unknown, free]

/-- A second volume of a serial, and one that finds no free entry, is UNTRACKED (R65). -/
theorem Engine.place_untracked
    (refused : (∃ v, e.entryOfSerial serial = some v ∧ (e.portOf v).isSome = true) ∨ (e.entryOfSerial serial = none ∧ e.freeEntry = none)) :
    e.place p serial label = e.untrack p serial label := by
  unfold Engine.place
  obtain ⟨v, own, inserted⟩ | ⟨unknown, full⟩ := refused
  · rw [own]
    exact if_pos inserted
  · rw [unknown, full]

/-! ## Answers -/

theorem Engine.identified_elsewhere {a : IdentifyAnswer} (other : (e.destPorts[p]).state ≠ .identifying) : e.identified g p a = e := by
  unfold Engine.identified
  split
  · next asked => exact absurd asked other
  · next asked => exact absurd asked other
  · rfl

theorem Engine.identified_error (asked : (e.destPorts[p]).state = .identifying) : e.identified g p .error = e.goOffline p := by
  unfold Engine.identified
  rw [asked]

theorem Engine.identified_volume (asked : (e.destPorts[p]).state = .identifying) : e.identified g p (.volume serial label) =
    if labelValidText label then (e.place p serial label).settleTransfer g else e.goOffline p := by
  unfold Engine.identified
  rw [asked]

theorem Engine.enclosureTimesOut_identifying (asked : (e.destPorts[p]).state = .identifying) :
    e.enclosureTimesOut g p = e.goOffline p := by
  unfold Engine.enclosureTimesOut
  rw [asked]

/-- The placement of a volume starts no work in a calm part. -/
theorem State.place_settles (calm : s.calm = true) :
    (s.blocks.place p serial label).settleTransfer s.settings = s.blocks.place p serial label := by
  obtain ⟨-, -, taken, renders⟩ := State.calm_parts calm
  have frame := s.blocks.place_move p serial label
  refine Engine.settleTransfer_like (e := s.blocks) taken renders ?_ ?_ ?_ <;> rw [frame]

end

/-- Settles O50: the answers by the port's state; an identified volume by the two outcomes of its placement. -/
theorem identifiedVolumeIsPlaced : Obligations.IdentifiedVolumeIsPlaced := by
  unfold Obligations.IdentifiedVolumeIsPlaced
  intro p s calm q
  obtain ⟨running, silent, -, -⟩ := State.calm_parts calm
  refine ⟨fun _ => rfl, fun other a => ?_, fun asked => ?_⟩
  · exact State.run_silent (f := fun g e => e.identified g p a) running silent (Engine.identified_elsewhere (e := s.blocks) other) (.inl rfl)
  · intro offline
    refine ⟨?_, ?_, fun serial label invalid => ?_, fun serial label valid => ?_⟩
    · exact State.run_silent (f := fun g e => e.enclosureTimesOut g p) running silent
        (Engine.enclosureTimesOut_identifying (e := s.blocks) asked) (.inl rfl)
    · exact State.run_silent (f := fun g e => e.identified g p .error) running silent
        (Engine.identified_error (e := s.blocks) asked) (.inl rfl)
    · exact State.run_silent (f := fun g e => e.identified g p (.volume serial label)) running silent
        ((Engine.identified_volume (e := s.blocks) asked).trans (if_neg (by rw [invalid]; nofun))) (.inl rfl)
    · have kept : (s.blocks.place p serial label).removed = false :=
        (congrArg Engine.removed (s.blocks.place_move p serial label) :)
      obtain ⟨t, step, ran, he⟩ := State.run_silent (f := fun g e => e.identified g p (.volume serial label)) running silent
        ((Engine.identified_volume (e := s.blocks) asked).trans ((if_pos valid).trans (State.place_settles calm))) (.inl kept)
      refine ⟨t, step, ran, fun v found => ?_, fun refused => ?_⟩ <;> rw [he]
      · exact Engine.place_online (e := s.blocks) found
      · exact Engine.place_untracked (e := s.blocks) refused

end Sys2Proof.Machine
end

section
/-!
THEOREM. Time-outs of an enclosure, the arbiter of a destination port, and the drain of a lane (R62, R72, R73, R82): O51.
-/

namespace Sys2Proof.Machine

section
variable {e : Engine} {g : Settings} {p : Fin 4} {l : Fin 2} {s : State} {d : DestPort} {op : Operation}

/-! ## Time-outs -/

/-- The ERROR answer of an enclosure to the operation in flight at a port, as a command (R62). -/
def OpRequest.errorAnswer (p : Fin 4) : OpRequest → Instr
  | .openWrite _ => .openWriteAnswer p .outstanding .error
  | .append _ _ => .appendAnswer p .outstanding .error
  | .close _ => .closeAnswer p .outstanding .error
  | .openRead _ => .openReadAnswer p .outstanding .error
  | .read _ _ _ => .volumeReadAnswer p .outstanding .error

theorem Engine.enclosureTimesOut_asked (other : (e.destPorts[p]).state ≠ .identifying) :
    e.enclosureTimesOut g p = e.operationAnswered g p (fun _ => some .error) := by
  unfold Engine.enclosureTimesOut
  split
  · next asked => exact absurd asked other
  · rfl

/-- What an answer does depends on what it says to the operation in flight alone (R73). -/
theorem Engine.operationAnswered_congr {reply reply' : OpRequest → Option Reply} (flight : (e.destPorts[p]).inflight = some op)
    (same : reply op.request = reply' op.request) : e.operationAnswered g p reply = e.operationAnswered g p reply' := by
  unfold Engine.operationAnswered
  rw [flight]
  dsimp only
  rw [same]

theorem Engine.operationAnswered_none {reply : OpRequest → Option Reply} (unasked : (e.destPorts[p]).inflight = none) :
    e.operationAnswered g p reply = e := by
  unfold Engine.operationAnswered
  rw [unasked]

/-- Steps of the blocks that do the same to them are the same. -/
theorem State.run_congr {f f' : Settings → Engine → Engine} (running : s.resetHeld = false)
    (same : f s.settings s.blocks = f' s.settings s.blocks) : s.run f = s.run f' := by
  rw [State.run_of_not_held running, State.run_of_not_held running, same]

/-- A time-out is the ERROR answer of the operation in flight (R62). -/
theorem State.timeout_errorAnswer (running : s.resetHeld = false) (other : (s.engine.destPorts[p]).state ≠ .identifying)
    (flight : (s.engine.destPorts[p]).inflight = some op) : exec (.enclosureTimeout p) s = exec (op.request.errorAnswer p) s := by
  have same : ∀ reply : OpRequest → Option Reply, reply op.request = some .error →
      s.run (fun g e => e.enclosureTimesOut g p) = s.run (fun g e => e.operationAnswered g p reply) := fun reply answer =>
    State.run_congr running ((Engine.enclosureTimesOut_asked (e := s.blocks) other).trans
      (Engine.operationAnswered_congr (e := s.blocks) flight answer.symm))
  obtain ⟨who, request, discarded⟩ := op
  cases request with
  | openWrite name => exact congrArg Host.Outcome.next (same (openWriteReply .error) rfl)
  | append k block => exact congrArg Host.Outcome.next (same (appendReply .error) rfl)
  | close k => exact congrArg Host.Outcome.next (same (closeReply .error) rfl)
  | openRead name => exact congrArg Host.Outcome.next (same (openReadReply .error) rfl)
  | read k offset length => exact congrArg Host.Outcome.next (same (readReply .error) rfl)

/-! ## The arbiter -/

theorem DestPort.ask_waits (busy : d.inflight ≠ none ∨ d.waiting ≠ []) : d.ask op = { d with waiting := d.waiting ++ [op] } := by
  unfold DestPort.ask
  refine if_neg fun ⟨free, first⟩ => ?_
  exact busy.elim (· free) (· first)

theorem Requester.after_pos (last who : Requester) : 1 ≤ last.after who := Nat.le_add_left _ _

theorem Requester.after_le (last who : Requester) : last.after who ≤ 4 := by
  unfold Requester.after
  omega

/-- Of several that wait, the one nearest after the last one granted is next (R72). -/
theorem DestPort.nextWaiting_nearest (waits : op ∈ d.waiting)
    (nearest : ∀ x ∈ d.waiting, x = op ∨ d.last.after op.who < d.last.after x.who) : d.nextWaiting = some op := by
  have own : d.waiting.find? (fun x => decide (d.last.after x.who = d.last.after op.who)) = some op := by
    cases found : d.waiting.find? (fun x => decide (d.last.after x.who = d.last.after op.who)) with
    | none => exact absurd (decide_eq_true rfl) (List.find?_eq_none.mp found op waits)
    | some x =>
      have level := List.find?_some found
      rw [decide_eq_true_eq] at level
      obtain same | later := nearest x (List.mem_of_find?_eq_some found)
      · rw [same]
      · exact absurd level (Nat.ne_of_gt later)
  have none_before : ∀ k, k < d.last.after op.who → d.waiting.find? (fun x => decide (d.last.after x.who = k)) = none := by
    intro k before
    rw [List.find?_eq_none]
    intro x hx
    rw [decide_eq_true_eq]
    obtain rfl | later := nearest x hx <;> omega
  have first := d.last.after_pos op.who
  have last := d.last.after_le op.who
  unfold DestPort.nextWaiting
  generalize d.last.after op.who = n at own none_before first last
  obtain rfl | rfl | rfl | rfl : n = 1 ∨ n = 2 ∨ n = 3 ∨ n = 4 := by omega
  all_goals simp [own, none_before]

/-- The waiting operation nearest after the last one granted is granted as an operation ends (R72). -/
theorem DestPort.endOperation_nearest (waits : op ∈ d.waiting)
    (nearest : ∀ x ∈ d.waiting, x = op ∨ d.last.after op.who < d.last.after x.who) :
    d.endOperation = { d with inflight := some op, last := op.who, waiting := d.waiting.erase op } := by
  have next : ({ d with inflight := none } : DestPort).nextWaiting = some op := DestPort.nextWaiting_nearest waits nearest
  unfold DestPort.endOperation
  dsimp only
  rw [next]
  rfl

/-- The operation in flight once another has ended is one that waited (R72). -/
theorem DestPort.endOperation_waited (granted : d.endOperation.inflight = some op) : op ∈ d.waiting := by
  unfold DestPort.endOperation at granted
  dsimp only at granted
  split at granted
  · next x next =>
    obtain rfl : x = op := Option.some.inj granted
    obtain ⟨k, -, found⟩ := List.exists_of_findSome?_eq_some next
    exact List.mem_of_find?_eq_some found
  · cases granted

/-! ## The drain of a lane -/

/-- A DRAINING lane with nothing in flight is IDLE (R82). -/
theorem Engine.settleLane_drained (draining : e.lanes[l] = .draining) (ended : e.inFlight (.lane l) = false) :
    e.settleLane l = { e with lanes := e.lanes.set l .idle } := by
  unfold Engine.settleLane
  rw [draining]
  dsimp only
  rw [ended]
  rfl

/-- The last operation of a lane has ended, with none of its own waiting there (R82). -/
theorem Engine.inFlight_ended (others : ∀ q, q ≠ p → (e.destPorts[q]).inflight.map (·.who) ≠ some (.lane l))
    (unasked : ∀ x ∈ (e.destPorts[p]).waiting, x.who ≠ .lane l) : (e.updateDest p DestPort.endOperation).inFlight (.lane l) = false := by
  unfold Engine.inFlight
  rw [List.any_eq_false]
  intro q _
  rw [decide_eq_true_eq, Engine.updateDest_port]
  split
  · next here =>
    subst here
    intro own
    obtain ⟨x, granted, who⟩ := Option.map_eq_some_iff.mp own
    exact unasked x (DestPort.endOperation_waited granted) who
  · next there => exact others q there

/-- The answer to an operation of a DRAINING lane, its last one, is discarded, and the lane is IDLE (R72, R82). -/
theorem Engine.appendAnswered_drains {k : Word32} {block : List Byte} (draining : e.lanes[l] = .draining)
    (flight : (e.destPorts[p]).inflight = some ⟨.lane l, .append k block, true⟩)
    (others : ∀ q, q ≠ p → (e.destPorts[q]).inflight.map (·.who) ≠ some (.lane l))
    (unasked : ∀ x ∈ (e.destPorts[p]).waiting, x.who ≠ .lane l) (queue : e.queue = []) (renders : e.renderIdle = true) :
    e.operationAnswered g p (appendReply .ok) =
      { e with destPorts := e.destPorts.set p (e.destPorts[p]).endOperation, lanes := e.lanes.set l .idle } := by
  have drained := Engine.settleLane_drained (e := e.updateDest p DestPort.endOperation) draining (Engine.inFlight_ended others unasked)
  unfold Engine.operationAnswered
  rw [flight]
  refine (congrArg (Engine.settleTransfer g) drained).trans ?_
  exact Engine.settleTransfer_like_done (e := e) renders queue rfl rfl

end

/-- Settles O51: a time-out acts as the ERROR answer to the operation in flight; the arbiter grants the waiting operation nearest after the
last one granted; the discarded answer of a DRAINING lane settles the lane. -/
theorem timeoutIsAnErrorAnswer : Obligations.TimeoutIsAnErrorAnswer := by
  unfold Obligations.TimeoutIsAnErrorAnswer
  refine ⟨fun p s running other => ?_, fun d op => ?_, fun p l k block s calm queue draining flight others unasked => ?_⟩
  · refine ⟨fun op flight => ?_, fun unasked silent => ?_, fun _ => rfl, fun _ => rfl, fun _ => rfl, fun _ => rfl, fun _ => rfl⟩
    · rw [State.timeout_errorAnswer running other flight]
      cases op.request <;> rfl
    · exact State.run_silent (f := fun g e => e.enclosureTimesOut g p) running silent
        ((Engine.enclosureTimesOut_asked (e := s.blocks) other).trans (Engine.operationAnswered_none (e := s.blocks) unasked)) (.inl rfl)
  · intro place turn
    have indexed : ∀ w, place w = w.index := fun w => by cases w <;> rfl
    have turned : ∀ w, d.last.after w = turn w + 1 := fun w => by
      show _ = (place w + 3 - place d.last) % 4 + 1
      rw [indexed, indexed]
      rfl
    refine ⟨DestPort.ask_free, DestPort.ask_waits, DestPort.endOperation_last, fun waits nearest => ?_⟩
    refine DestPort.endOperation_nearest waits fun x hx => (nearest x hx).imp_right fun later => ?_
    rw [turned, turned]
    exact Nat.succ_lt_succ later
  · obtain ⟨running, silent, -, renders⟩ := State.calm_parts calm
    exact State.run_silent (f := fun g e => e.operationAnswered g p (appendReply .ok)) running silent
      (Engine.appendAnswered_drains (e := s.blocks) draining flight others unasked queue renders) (.inl rfl)

end Sys2Proof.Machine
end

section
/-!
THEOREM. The write of a MANIFEST, and the release of its card with the last one (R70, R103, R104): O53.
-/

namespace Sys2Proof.Machine

section
variable {a e : Engine} {g : Settings} {p : Fin 4} {l : Fin 2} {run : LaneRun} {d : Descriptor} {r : CardRecord} {v : Fin 16}
  {st : TargetStatus} {k : Word32} {x : Reply} {s : State}

/-! ## A MANIFEST that runs -/

/-- A lane runs the MANIFEST of a RELEASING card, alone in the queue, on a volume. -/
structure ManifestRuns (e : Engine) (l : Fin 2) (run : LaneRun) (d : Descriptor) (r : CardRecord) (v : Fin 16) : Prop where
  lane : e.laneRun l = some run
  queue : e.queue = [d]
  slot : run.slot = d.slot
  kind : d.kind = .manifest
  clip : d.clip = none
  targets : d.targets = [v]
  card : e.cards[d.card] = some r
  state : r.state = .releasing

/-- The MANIFEST as its operation at a port has ended (R70, R72). -/
theorem ManifestRuns.answered (w : ManifestRuns e l run d r v) (x : Reply) : ManifestRuns ((e.noteFull p x).freed p) l run d r v := by
  rw [Engine.noteFull_frame]
  exact ⟨w.lane, w.queue, w.slot, w.kind, w.clip, w.targets, w.card, w.state⟩

/-- An answer to the lane is one to its MANIFEST (R73). -/
theorem ManifestRuns.reply (w : ManifestRuns e l run d r v) : e.laneReply g l p x = e.manifestReply l run d x := by
  have desc : e.descriptor run.slot = some d := by simp [Engine.descriptor, w.queue, w.slot]
  unfold Engine.laneReply
  rw [Engine.laneWork_eq w.lane desc]
  dsimp only
  rw [w.kind]

/-! ## What an answer makes of it -/

section
variable (target : run.targets = [⟨v, p, st⟩])
include target

/-- The object open, the APPEND of the whole manifest follows (R103). -/
theorem Engine.manifestReply_opened (phase : run.phase = .opening) : e.manifestReply l run d (.handle k) =
    (e.setTarget l v (.isOpen k)).askManifest l d p .appending (.append k run.block) := by
  unfold Engine.manifestReply
  rw [target, phase]

/-- The manifest appended, CLOSE follows (R103). -/
theorem Engine.manifestReply_appended (phase : run.phase = .appending) (stands : st = .isOpen k) :
    e.manifestReply l run d .ok = e.askManifest l d p .closing (.close k) := by
  unfold Engine.manifestReply
  rw [target, phase, stands]

/-- The object closed, the descriptor ends (R103). -/
theorem Engine.manifestReply_closed (phase : run.phase = .closing) : e.manifestReply l run d .ok =
    (e.updateDescriptor d.slot (fun d => { d with progress := run.block.length })).endDescriptor l d := by
  unfold Engine.manifestReply
  rw [target, phase]

/-- At any refusal the MANIFEST fails (R103). -/
theorem Engine.manifestReply_refused (refused : x = .noSpace ∨ x = .error) : e.manifestReply l run d x = e.failManifest l d := by
  unfold Engine.manifestReply
  rw [target]
  obtain rfl | rfl := refused <;> cases run.phase <;> rfl

end

/-! ## The next operation -/

/-- A MANIFEST asks its free port for the next operation (R103). -/
theorem Engine.askManifest_asks (lane : e.laneRun l = some run) (online : (e.destPorts[p]).state = .online)
    (free : (e.destPorts[p]).inflight = none) (first : (e.destPorts[p]).waiting = []) (phase : LanePhase) (request : OpRequest) :
    e.askManifest l d p phase request = (e.asked p l request).putLane l { run with phase := phase } := by
  unfold Engine.askManifest
  rw [Engine.updateLane_put lane, Engine.ask_asked (e := e.putLane l { run with phase := phase }) online free first]
  rfl

section
variable (w : ManifestRuns e l run d r v) (online : (e.destPorts[p]).state = .online) (free : (e.destPorts[p]).inflight = none)
  (first : (e.destPorts[p]).waiting = [])
include w online free first

/-- The object open, the whole manifest is appended (R103). -/
theorem ManifestRuns.opened (phase : run.phase = .opening) (target : run.targets = [⟨v, p, .opening⟩]) :
    e.laneReply g l p (.handle k) =
      (e.asked p l (.append k run.block)).putLane l { run with phase := .appending, targets := [⟨v, p, .isOpen k⟩] } := by
  have open_target : e.setTarget l v (.isOpen k) = e.putLane l { run with targets := [⟨v, p, .isOpen k⟩] } := by
    rw [← LaneRun.withTarget_single target]
    exact Engine.setTarget_put w.lane _
  rw [w.reply, Engine.manifestReply_opened target phase, open_target,
    Engine.askManifest_asks (e := e.putLane l _) Engine.putLane_laneRun online free first, Engine.putLane_asked,
    Engine.putLane_putLane]

/-- The manifest appended, its object is closed (R103). -/
theorem ManifestRuns.appended (phase : run.phase = .appending) (target : run.targets = [⟨v, p, .isOpen k⟩]) :
    e.laneReply g l p .ok = (e.asked p l (.close k)).putLane l { run with phase := .closing } := by
  rw [w.reply, Engine.manifestReply_appended target phase rfl]
  exact Engine.askManifest_asks w.lane online free first _ _

end

/-! ## The end of the last MANIFEST -/

/-- What the end of the last MANIFEST of a card leaves (R93, R104). -/
structure ManifestEnded (l : Fin 2) (d : Descriptor) (r : CardRecord) (a b : Engine) : Prop where
  queue : b.queue = []
  lane : b.laneRun l = none
  card : b.cards[d.card] = some { r with state := .released }
  clips : b.clips = a.clips
  faults : b.faults = a.faults
  volumes : b.volumes = a.volumes
  jobs : b.jobs = a.jobs
  contexts : b.contexts = a.contexts
  requeues : b.requeues = a.requeues
  events : b.events = a.events ++ [Event.ofCard .cardReleased d.card]

/-- The card of the last MANIFEST becomes RELEASED as the descriptor leaves the queue (R93, R104). -/
theorem ManifestRuns.settleRemoval (w : ManifestRuns e l run d r v) :
    (e.dropDescriptor d.slot).settleRemoval d = (e.dropDescriptor d.slot).becomeReleased d.card := by
  have card : (e.dropDescriptor d.slot).cards[d.card] = some r := w.card
  have gone : (e.dropDescriptor d.slot).queue = [] := by simp [Engine.dropDescriptor, w.queue]
  unfold Engine.settleRemoval
  rw [w.clip]
  dsimp only
  rw [Engine.recomputeCard_apart card (by rw [w.state]; nofun)]
  exact Engine.settleRelease_done card w.state (by rw [gone]; nofun)

theorem ManifestRuns.endDescriptor (w : ManifestRuns e l run d r v) : ManifestEnded l d r e (e.endDescriptor l d) := by
  have gone : (e.dropDescriptor d.slot).queue = [] := by simp [Engine.dropDescriptor, w.queue]
  have card : ((e.dropDescriptor d.slot).becomeReleased d.card).cards[d.card] = some { r with state := .released } := by
    refine (Engine.setCardState_card .released d.card).trans ?_
    rw [show (e.dropDescriptor d.slot).cards[d.card] = some r from w.card]
    simp
  have frame : (e.dropDescriptor d.slot).holdsMove ((e.dropDescriptor d.slot).setCardState d.card .released) :=
    Engine.setCardState_holdsMove _
  have empty : ((e.dropDescriptor d.slot).becomeReleased d.card).queue = [] :=
    (Engine.setCardState_queue _ _ _).trans gone
  have lane : (e.endDescriptor l d).laneRun l = none := Engine.releaseLane_laneRun
  have ports : ((e.dropDescriptor d.slot).becomeReleased d.card).portsMove (e.endDescriptor l d) := by
    rw [← w.settleRemoval]
    exact Engine.releaseLane_move
  unfold Engine.becomeReleased at card empty ports
  generalize (e.dropDescriptor d.slot).setCardState d.card .released = y at card frame empty ports
  generalize e.endDescriptor l d = z at lane ports
  unfold Engine.holdsMove at frame
  unfold Engine.portsMove at ports
  exact {
    queue := by rw [ports]; exact empty
    lane := lane
    card := by rw [ports]; exact card
    clips := by rw [ports, frame]; rfl
    faults := by rw [ports, frame]; rfl
    volumes := by rw [ports, frame]; rfl
    jobs := by rw [ports, frame]; rfl
    contexts := by rw [ports, frame]; rfl
    requeues := by rw [ports, frame]; rfl
    events := by rw [ports, frame]; rfl }

/-- COPY_FAILED of a MANIFEST (R103). -/
def manifestFailed (card : Fin 32) (v : Fin 16) : Event := { Event.ofCard .copyFailed card with volume := some v }

/-- A MANIFEST that is refused signals COPY_FAILED and ends (R103). -/
theorem ManifestRuns.fails (w : ManifestRuns e l run d r v) (target : run.targets = [⟨v, p, st⟩]) (refused : x = .noSpace ∨ x = .error) :
    ManifestEnded l d r (e.signal (manifestFailed d.card v)) (e.laneReply g l p x) := by
  have told : ManifestRuns (e.signal (manifestFailed d.card v)) l run d r v :=
    ⟨w.lane, w.queue, w.slot, w.kind, w.clip, w.targets, w.card, w.state⟩
  have failed : e.failManifest l d = (e.signal (manifestFailed d.card v)).endDescriptor l d := by
    unfold Engine.failManifest
    rw [w.targets]
    rfl
  rw [w.reply, Engine.manifestReply_refused target refused, failed]
  exact told.endDescriptor

/-- A MANIFEST whose object is closed ends (R103). -/
theorem ManifestRuns.closed (w : ManifestRuns e l run d r v) (target : run.targets = [⟨v, p, st⟩]) (phase : run.phase = .closing) :
    ManifestEnded l d r e (e.laneReply g l p .ok) := by
  have progressed : (e.updateDescriptor d.slot (fun d => { d with progress := run.block.length })).endDescriptor l d = e.endDescriptor l d := by
    unfold Engine.endDescriptor
    refine congrArg (fun z : Engine => (z.settleRemoval d).releaseLane l) ?_
    simp [Engine.dropDescriptor, Engine.updateDescriptor, w.queue]
  rw [w.reply, Engine.manifestReply_closed target phase, progressed]
  exact w.endDescriptor

/-! ## The steps -/

/-- A calm part whose one descriptor is the running MANIFEST of a RELEASING card, at a port where nothing waits. -/
structure SoleManifest (s : State) (p : Fin 4) (l : Fin 2) (run : LaneRun) (d : Descriptor) (r : CardRecord) (v : Fin 16) : Prop where
  calm : s.calm = true
  requeues : s.engine.requeues = []
  runs : ManifestRuns s.blocks l run d r v
  entry : s.engine.entryAt p = some v
  online : (s.engine.destPorts[p]).state = .online
  first : (s.engine.destPorts[p]).waiting = []

/-- A step in which the MANIFEST goes on to its next operation. -/
theorem SoleManifest.asks (m : SoleManifest s p l run d r v) {run' : LaneRun} {request next : OpRequest} {reply : OpRequest → Option Reply}
    (flight : (s.engine.destPorts[p]).inflight = some ⟨.lane l, request, false⟩) (answer : reply request = some x)
    (unspent : s.blocks.noteFull p x = s.blocks)
    (replied : (s.blocks.freed p).laneReply s.settings l p x = ((s.blocks.freed p).asked p l next).putLane l run') :
    ∃ t, Host.Outcome.next (φ := Fault) (ρ := Refusal) (s.run (fun g e => e.operationAnswered g p reply)) = .next t ∧ s.ranInPlace t ∧
      t.engine = { s.blocks with
        destPorts := s.engine.destPorts.set p { s.engine.destPorts[p] with inflight := some ⟨.lane l, next, false⟩, last := .lane l }
        lanes := s.engine.lanes.set l (.running run') } := by
  rw [Engine.freed_asked] at replied
  have settled := State.settles_putLane (g := s.settings) m.calm replied rfl rfl rfl
  exact State.lane_answered m.calm flight m.first answer (by rw [unspent]; exact settled) (.inl rfl)

/-- A step in which the MANIFEST ends. -/
theorem SoleManifest.ends (m : SoleManifest s p l run d r v) {request : OpRequest} {reply : OpRequest → Option Reply}
    (flight : (s.engine.destPorts[p]).inflight = some ⟨.lane l, request, false⟩) (answer : reply request = some x)
    (ended : ManifestEnded l d r a (((s.blocks.noteFull p x).freed p).laneReply s.settings l p x))
    (jobs : a.jobs = s.engine.jobs) (contexts : a.contexts = s.engine.contexts) (requeues : a.requeues = s.engine.requeues) :
    ∃ t, Host.Outcome.next (φ := Fault) (ρ := Refusal) (s.run (fun g e => e.operationAnswered g p reply)) = .next t ∧ s.ranInPlace t ∧
      ManifestEnded l d r a t.engine := by
  obtain ⟨-, -, -, renders⟩ := State.calm_parts m.calm
  obtain ⟨t, step, ran, he⟩ := State.lane_answered m.calm flight m.first answer
    (Engine.settleTransfer_like_done renders ended.queue (ended.jobs.trans jobs) (ended.contexts.trans contexts))
    (.inr (ended.requeues.trans (requeues.trans m.requeues)))
  exact ⟨t, step, ran, he ▸ ended⟩

/-- A step in which the MANIFEST is refused. -/
theorem SoleManifest.refused (m : SoleManifest s p l run d r v) {request : OpRequest} {reply : OpRequest → Option Reply}
    (target : run.targets = [⟨v, p, st⟩]) (flight : (s.engine.destPorts[p]).inflight = some ⟨.lane l, request, false⟩)
    (answer : reply request = some x) (refused : x = .noSpace ∨ x = .error) :
    ∃ t, Host.Outcome.next (φ := Fault) (ρ := Refusal) (s.run (fun g e => e.operationAnswered g p reply)) = .next t ∧ s.ranInPlace t ∧
      ManifestEnded l d r ({ s.blocks with volumes := (s.blocks.noteFull p x).volumes }.signal (manifestFailed d.card v)) t.engine := by
  have frame := Engine.noteFull_frame (e := s.blocks) (p := p) x
  obtain ⟨queue, lane, card, clips, faults, volumes, jobs, contexts, requeues, events⟩ :=
    (m.runs.answered x).fails (g := s.settings) target refused
  refine m.ends flight answer ⟨queue, lane, card, clips.trans ?_, faults.trans ?_, volumes, jobs.trans ?_, contexts.trans ?_,
    requeues.trans ?_, events.trans ?_⟩ rfl rfl rfl
  all_goals
    rw [frame]
    rfl

end

/-- Settles O53: the answers by the lane's phase; a MANIFEST that ends, written or refused, releases its card. -/
theorem manifestIsWrittenAndReleasesTheCard : Obligations.ManifestIsWrittenAndReleasesTheCard := by
  unfold Obligations.ManifestIsWrittenAndReleasesTheCard
  intro p l run d r v s calm requeues lane queue slot kind clip targets card releasing _ entry online first q asked failed ended
  have m : SoleManifest s p l run d r v :=
    ⟨calm, requeues, ⟨lane, queue, slot, kind, clip, targets, card, releasing⟩, entry, online, first⟩
  have w : ManifestRuns (s.blocks.freed p) l run d r v := m.runs.answered .ok
  have port : (s.blocks.freed p).destPorts[p] = { q with inflight := none } := Engine.freed_port
  have ready : ((s.blocks.freed p).destPorts[p]).state = .online := by rw [port]; exact online
  have free : ((s.blocks.freed p).destPorts[p]).inflight = none := by rw [port]
  have none_waits : ((s.blocks.freed p).destPorts[p]).waiting = [] := by rw [port]; exact first
  refine ⟨fun name k phase target flight => ⟨?_, ?_⟩, fun k block phase target flight => ⟨?_, ?_⟩, fun k phase target flight => ?_⟩
  · exact m.asks (reply := openWriteReply (.handle k)) flight rfl rfl (w.opened ready free none_waits phase target)
  · obtain ⟨t, step, ran, queue, lane, card, clips, faults, volumes, -, -, -, events⟩ :=
      m.refused (reply := openWriteReply .noSpace) target flight rfl (.inl rfl)
    refine ⟨t, step, ran, ⟨queue, lane, card, clips, faults⟩, ?_, events⟩
    rw [volumes]
    exact Engine.noteFull_full (e := s.blocks) entry
  · exact m.asks (reply := appendReply .ok) flight rfl rfl (w.appended ready free none_waits phase target)
  · obtain ⟨t, step, ran, queue, lane, card, clips, faults, -, -, -, -, events⟩ :=
      m.refused (reply := appendReply .error) target flight rfl (.inr rfl)
    exact ⟨t, step, ran, ⟨queue, lane, card, clips, faults⟩, events⟩
  · obtain ⟨t, step, ran, queue, lane, card, clips, faults, -, -, -, -, events⟩ :=
      m.ends (reply := closeReply .ok) flight rfl (w.closed (g := s.settings) target phase) rfl rfl rfl
    exact ⟨t, step, ran, ⟨queue, lane, card, clips, faults⟩, events⟩

end Sys2Proof.Machine
end

