-- ==== Sys2Proof/Proofs/QueueShapes.lean ====
section
/-!
SUPPORT. The four invariants of O27 as plain statements: what `Engine.faultsLegal`, `Engine.queueLegal`, `Engine.rendersLegal` and
`Engine.requeuesLegal` say, each over the part of the state that it looks at. A descriptor is looked at as a berth of the copy queue, a
render job as a post of the render queue.
-/

namespace Sys2Proof.Machine

/-- The pairs of a list, each later member with those before it. -/
theorem pairwise_iff_before {α : Type} {R : α → α → Prop} {l : List α} :
    l.Pairwise R ↔ ∀ before x after, l = before ++ x :: after → ∀ y ∈ before, R y x := by
  constructor
  · rintro h before x after rfl y hy
    exact (List.pairwise_append.mp h).2.2 y hy x (by simp)
  · intro h
    induction l using List.reverseRecOn with
    | nil => exact .nil
    | append_singleton l a ih =>
      refine List.pairwise_append.mpr ⟨ih fun before x after hl => ?_, List.pairwise_singleton _ _, fun y hy x hx => ?_⟩
      · exact h before x (after ++ [a]) (by simp [hl])
      · rw [List.mem_singleton.mp hx]
        exact h l a [] rfl y hy

/-- In a list with distinct keys, the member found by a member's key is that member. -/
theorem find_key {α β : Type} [DecidableEq β] {key : α → β} {l : List α} (hl : (l.map key).Nodup) {x : α} (hx : x ∈ l) :
    l.find? (fun y => decide (key y = key x)) = some x := by
  induction l with
  | nil => cases hx
  | cons a l ih =>
    rw [List.map_cons, List.nodup_cons] at hl
    rcases List.mem_cons.mp hx with rfl | hx
    · simp
    · have other : key a ≠ key x := fun same => hl.1 (same ▸ List.mem_map_of_mem hx)
      rw [List.find?_cons_of_neg (by simpa using other)]
      exact ih hl.2 hx

/-! ## The copy queue and the lanes -/

/-- What `Engine.queueLegal` looks at in a descriptor: its slot, whether it is RUNNING, the card in whose chain a card-sourced COPY stands
(R83), and the volume it reads. -/
structure Berth where
  slot    : Fin 64
  running : Bool
  chain   : Option (Fin 32)
  source  : Option (Fin 16)
deriving DecidableEq

/-- A descriptor as a berth. -/
def Descriptor.berth (d : Descriptor) : Berth where
  slot := d.slot
  running := decide (d.state = .running)
  chain := if d.cardSourced then some d.card else none
  source := d.sourceVolume

/-- The berths of the copy queue. -/
def Engine.berths (e : Engine) : List Berth := e.queue.map Descriptor.berth

/-- The slot of the descriptor that a lane runs. -/
def Engine.laneSlot (e : Engine) (l : Fin 2) : Option (Fin 64) := (e.laneRun l).map (·.slot)

/-- Two berths that may stand in the queue in this order: in different slots, the later one not RUNNING while the earlier stands in the
same chain, and not both RUNNING from one volume. -/
structure Berth.before (x y : Berth) : Prop where
  slots : x.slot ≠ y.slot
  chains : y.running = true → y.chain.isSome = true → x.chain ≠ y.chain
  sources : x.running = true → y.running = true → y.source.isSome = true → x.source ≠ y.source

/-- The berths of a queue agree with the slots that the lanes run (R79, R82, R83). -/
structure QueueFits (q : List Berth) (lane : Fin 2 → Option (Fin 64)) : Prop where
  order : q.Pairwise Berth.before
  apart : ∀ l m k, lane l = some k → lane m = some k → l = m
  runs : ∀ l k, lane l = some k → ∃ x ∈ q, x.slot = k ∧ x.running = true
  carried : ∀ x ∈ q, x.running = true → ∃ l, lane l = some x.slot

section
variable {e : Engine}

theorem Engine.mem_laneSlots {k : Fin 64} : k ∈ e.laneSlots ↔ ∃ l, e.laneSlot l = some k := by
  simp only [Engine.laneSlots, Engine.laneSlot, List.mem_map, List.mem_filterMap, List.mem_finRange, true_and, Option.map_eq_some_iff]
  exact ⟨fun ⟨x, ⟨l, hl⟩, hk⟩ => ⟨l, x, hl, hk⟩, fun ⟨l, x, hl, hk⟩ => ⟨x, ⟨l, hl⟩, hk⟩⟩

theorem Engine.laneSlots_nodup : e.laneSlots.Nodup ↔ ∀ l m k, e.laneSlot l = some k → e.laneSlot m = some k → l = m := by
  unfold Engine.laneSlots Engine.laneSlot
  rw [nodup_map_keys_iff]
  constructor
  · intro h l m k hl hm
    obtain ⟨x, hx, kx⟩ := Option.map_eq_some_iff.mp hl
    obtain ⟨y, hy, ky⟩ := Option.map_eq_some_iff.mp hm
    exact h l m x y hx hy (kx.trans ky.symm)
  · exact fun h l m x y hx hy same => h l m x.slot (by rw [hx]; rfl) (by rw [hy, same]; rfl)

/-- Two descriptors of one chain are card-sourced COPYs of one card (R83). -/
theorem Descriptor.chain_apart {x y : Descriptor} :
    (y.ofCard → ¬ (x.ofCard ∧ x.card = y.card)) ↔ (y.berth.chain.isSome = true → x.berth.chain ≠ y.berth.chain) := by
  simp only [Descriptor.berth, ← Descriptor.cardSourced_iff]
  cases x.cardSourced <;> cases y.cardSourced <;> simp

/-- The card-sourced descriptors that run head their chains. -/
theorem Engine.headsChain_pairs (slots : (e.queue.map (·.slot)).Nodup) :
    (∀ d ∈ e.queue, d.state = .running → e.headsChain d = true) ↔ e.queue.Pairwise (fun x y =>
      y.berth.running = true → y.berth.chain.isSome = true → x.berth.chain ≠ y.berth.chain) := by
  rw [pairwise_iff_before]
  constructor
  · intro h before y after hq x hx hr
    exact Descriptor.chain_apart.mp fun hy => ((Engine.headsChain_iff hq slots).mp (h y (by simp [hq]) (by simpa [Descriptor.berth] using hr))) hy x hx
  · intro h d hd hr
    obtain ⟨before, after, hq⟩ := List.append_of_mem hd
    exact (Engine.headsChain_iff hq slots).mpr fun hy x hx => Descriptor.chain_apart.mpr (h before d after hq x hx (by simpa [Descriptor.berth] using hr)) hy

/-- The volumes that the RUNNING descriptors read are different ones. -/
theorem Engine.sources_pairs : ((e.queue.filter (fun d => decide (d.state = .running))).filterMap Descriptor.sourceVolume).Nodup ↔
    e.queue.Pairwise (fun x y =>
      x.berth.running = true → y.berth.running = true → y.berth.source.isSome = true → x.berth.source ≠ y.berth.source) := by
  rw [List.Nodup, List.pairwise_filterMap, List.pairwise_filter]
  refine ⟨fun h => h.imp fun {x y} k hx hy hs same => ?_, fun h => h.imp fun {x y} k hx hy v hv w hw same => ?_⟩
  · obtain ⟨v, hv⟩ := Option.isSome_iff_exists.mp hs
    exact k hx hy v (same.trans hv) v hv rfl
  · subst same
    exact k hx hy (Option.isSome_iff_exists.mpr ⟨v, hw⟩) (hv.trans hw.symm)

theorem Engine.queueLegal_iff (e : Engine) : e.queueLegal = true ↔ QueueFits e.berths e.laneSlot := by
  have slots : (e.queue.map (·.slot)).Nodup ↔ e.queue.Pairwise (fun x y => x.berth.slot ≠ y.berth.slot) := List.pairwise_map
  have order : e.berths.Pairwise Berth.before ↔ e.queue.Pairwise (fun x y => x.berth.slot ≠ y.berth.slot) ∧
      e.queue.Pairwise (fun x y => y.berth.running = true → y.berth.chain.isSome = true → x.berth.chain ≠ y.berth.chain) ∧
      e.queue.Pairwise (fun x y =>
        x.berth.running = true → y.berth.running = true → y.berth.source.isSome = true → x.berth.source ≠ y.berth.source) := by
    unfold Engine.berths
    rw [List.pairwise_map, ← List.pairwise_and_iff, ← List.pairwise_and_iff]
    exact List.Pairwise.iff fun {x y} => ⟨fun k => ⟨k.slots, k.chains, k.sources⟩, fun ⟨a, b, c⟩ => ⟨a, b, c⟩⟩
  have found : (e.queue.map (·.slot)).Nodup → ∀ k, (e.descriptor k).map (·.state) = some .running ↔
      ∃ x ∈ e.berths, x.slot = k ∧ x.running = true := by
    intro hn k
    simp only [Engine.berths, List.mem_map, exists_exists_and_eq_and]
    constructor
    · intro h
      obtain ⟨d, hd, hs⟩ := Option.map_eq_some_iff.mp h
      exact ⟨d, List.mem_of_find?_eq_some hd, by simpa [Descriptor.berth] using List.find?_some hd, by simpa [Descriptor.berth] using hs⟩
    · rintro ⟨d, hd, rfl, hs⟩
      rw [show e.descriptor d.berth.slot = some d from find_key hn hd]
      simpa [Descriptor.berth] using hs
  have carried : (∀ d ∈ e.queue, d.state = .running → d.slot ∈ e.laneSlots) ↔
      ∀ x ∈ e.berths, x.running = true → ∃ l, e.laneSlot l = some x.slot := by
    simp [Engine.berths, Engine.mem_laneSlots, Descriptor.berth]
  have running : ∀ d : Descriptor, (d.state ≠ .running ∨ d.slot ∈ e.laneSlots ∧ e.headsChain d = true) ↔
      (d.state = .running → d.slot ∈ e.laneSlots) ∧ (d.state = .running → e.headsChain d = true) := by
    intro d
    by_cases h : d.state = .running <;> simp [h]
  unfold Engine.queueLegal
  simp only [Bool.and_eq_true, decide_eq_true_eq, List.all_eq_true, Bool.or_eq_true, List.contains_iff_mem, and_assoc, running,
    Engine.laneSlots_nodup, Engine.sources_pairs, forall_and, carried]
  constructor
  · rintro ⟨hs, ha, hr, hc, hh, hv⟩
    refine ⟨order.mpr ⟨slots.mp hs, (Engine.headsChain_pairs hs).mp hh, hv⟩, ha, fun l k hl => ?_, hc⟩
    exact (found hs k).mp (hr k (Engine.mem_laneSlots.mpr ⟨l, hl⟩))
  · rintro ⟨ho, ha, hr, hc⟩
    obtain ⟨hs, hh, hv⟩ := order.mp ho
    refine ⟨slots.mpr hs, ha, fun k hk => ?_, hc, (Engine.headsChain_pairs (slots.mpr hs)).mpr hh, hv⟩
    obtain ⟨l, hl⟩ := Engine.mem_laneSlots.mp hk
    exact (found (slots.mpr hs) k).mpr (hr l k hl)

end

/-! ## The render queue and the contexts -/

/-- What `Engine.rendersLegal` looks at in a job: its slot, and whether it is RUNNING. -/
structure Post where
  slot    : Fin 16
  running : Bool
deriving DecidableEq

/-- A job as a post. -/
def Job.post (j : Job) : Post := ⟨j.slot, decide (j.state = .running)⟩

/-- The posts of the render queue. -/
def Engine.posts (e : Engine) : List Post := e.jobs.map Job.post

/-- The slot of the job that a context runs. -/
def Engine.runsJob (e : Engine) (c : Fin 2) : Option (Fin 16) := (e.contextRun c).map (·.1)

/-- The slot of the job that claims a context. -/
def Engine.claimant (e : Engine) (c : Fin 2) : Option (Fin 16) := (e.contexts[c]).claim

/-- The posts of a render queue agree with the jobs that the contexts run and with those that claim them, and the cue names one of them
(R127, R132, R134). -/
structure RendersFit (q : List Post) (run claim : Fin 2 → Option (Fin 16)) (cued : Option (Fin 16)) : Prop where
  slots : (q.map (·.slot)).Nodup
  apart : ∀ c d j, run c = some j → run d = some j → c = d
  runs : ∀ c j, run c = some j → ⟨j, true⟩ ∈ q
  carried : ∀ x ∈ q, x.running = true → ∃ c, run c = some x.slot
  claimsApart : ∀ c d j, claim c = some j → claim d = some j → c = d
  claims : ∀ c j, claim c = some j → ⟨j, false⟩ ∈ q
  cue : ∀ j, cued = some j → ∃ x ∈ q, x.slot = j

section
variable {e : Engine}

theorem Engine.mem_contextJobs {j : Fin 16} : j ∈ e.contextJobs ↔ ∃ c, e.runsJob c = some j := by
  simp only [Engine.contextJobs, Engine.runsJob, List.mem_map, List.mem_filterMap, List.mem_finRange, true_and, Option.map_eq_some_iff]
  exact ⟨fun ⟨x, ⟨l, hl⟩, hk⟩ => ⟨l, x, hl, hk⟩, fun ⟨l, x, hl, hk⟩ => ⟨x, ⟨l, hl⟩, hk⟩⟩

theorem Engine.contextJobs_nodup : e.contextJobs.Nodup ↔ ∀ c d j, e.runsJob c = some j → e.runsJob d = some j → c = d := by
  unfold Engine.contextJobs Engine.runsJob
  rw [nodup_map_keys_iff]
  constructor
  · intro h c d j hc hd
    obtain ⟨x, hx, jx⟩ := Option.map_eq_some_iff.mp hc
    obtain ⟨y, hy, jy⟩ := Option.map_eq_some_iff.mp hd
    exact h c d x y hx hy (jx.trans jy.symm)
  · exact fun h c d x y hx hy same => h c d x.1 (by rw [hx]; rfl) (by rw [hy, same]; rfl)

theorem Engine.claims_nodup : ((List.finRange 2).filterMap (fun c => (e.contexts[c]).claim)).Nodup ↔
    ∀ c d j, e.claimant c = some j → e.claimant d = some j → c = d := by
  have := nodup_map_keys_iff (fun c : Fin 2 => (e.contexts[c]).claim) id
  rw [List.map_id] at this
  rw [this]
  exact ⟨fun h c d j hc hd => h c d j j hc hd rfl, fun h c d x y hx hy same => h c d x hx (by rw [show x = y from same]; exact hy)⟩

/-- A job found in the render queue, by its post. -/
theorem Engine.job_post (slots : (e.jobs.map (·.slot)).Nodup) {j : Fin 16} {b : Bool} :
    ⟨j, b⟩ ∈ e.posts ↔ (e.job j).map (fun x => decide (x.state = .running)) = some b := by
  simp only [Engine.posts, List.mem_map, Job.post, Post.mk.injEq]
  constructor
  · rintro ⟨x, hx, rfl, hb⟩
    rw [show e.job x.slot = some x from find_key slots hx]
    simpa using hb
  · intro h
    obtain ⟨x, hx, hb⟩ := Option.map_eq_some_iff.mp h
    exact ⟨x, List.mem_of_find?_eq_some hx, by simpa using List.find?_some hx, hb⟩

theorem Engine.rendersLegal_iff (e : Engine) : e.rendersLegal = true ↔ RendersFit e.posts e.runsJob e.claimant e.monitor.cue.job := by
  have slots : (e.posts.map (·.slot)) = e.jobs.map (·.slot) := by simp [Engine.posts, Job.post, Function.comp_def]
  have running : ∀ j, (e.job j).map (·.state) = some .running ↔ (e.job j).map (fun x => decide (x.state = .running)) = some true := by
    intro j; cases e.job j <;> simp
  have waiting : ∀ j, ((e.job j).map (fun x => decide (x.state ≠ .running))).getD false = true ↔
      (e.job j).map (fun x => decide (x.state = .running)) = some false := by
    intro j; cases e.job j <;> simp
  have carried : (∀ x ∈ e.jobs, x.state ≠ .running ∨ ∃ c, e.runsJob c = some x.slot) ↔
      ∀ x ∈ e.posts, x.running = true → ∃ c, e.runsJob c = some x.slot := by
    unfold Engine.posts
    rw [List.forall_mem_map]
    simp only [Job.post, decide_eq_true_eq, imp_iff_not_or, ne_eq]
  have cue : (match e.monitor.cue.job with | some j => (e.job j).isSome | none => true) = true ↔
      ∀ j, e.monitor.cue.job = some j → ∃ x ∈ e.posts, x.slot = j := by
    cases e.monitor.cue.job <;> simp [Engine.posts, Job.post, Engine.job]
  have claimed : ∀ j, j ∈ (List.finRange 2).filterMap (fun c => (e.contexts[c]).claim) ↔ ∃ c, e.claimant c = some j := by
    intro j; simp only [List.mem_filterMap, List.mem_finRange, true_and]; rfl
  unfold Engine.rendersLegal
  simp only [Bool.and_eq_true, decide_eq_true_eq, List.all_eq_true, Bool.or_eq_true, List.contains_iff_mem, and_assoc, running, waiting,
    Engine.contextJobs_nodup, Engine.claims_nodup, Engine.mem_contextJobs, claimed]
  rw [← slots]
  have post : (e.posts.map (·.slot)).Nodup → ∀ j b, ⟨j, b⟩ ∈ e.posts ↔ (e.job j).map (fun x => decide (x.state = .running)) = some b :=
    fun hs j b => Engine.job_post (slots ▸ hs)
  constructor
  · rintro ⟨hs, ha, hk, hr, hc, hw, hq⟩
    exact ⟨hs, ha, fun c j hj => (post hs j _).mpr (hr j ⟨c, hj⟩), carried.mp hc, hk, fun c j hj => (post hs j _).mpr (hw j ⟨c, hj⟩),
      cue.mp hq⟩
  · rintro ⟨hs, ha, hr, hc, hk, hw, hq⟩
    exact ⟨hs, ha, hk, fun j ⟨c, hj⟩ => (post hs j _).mp (hr c j hj), carried.mpr hc, fun j ⟨c, hj⟩ => (post hs j _).mp (hw c j hj),
      cue.mpr hq⟩

end

/-! ## The fault list -/

/-- What `Engine.faultsLegal` says of the list, the number counter and the serial counter (R177, R178, R180). -/
structure FaultsFit (fs : List FaultRecord) (counter serial : Nat) : Prop where
  room : fs.length ≤ 256
  keys : fs.Pairwise (fun r x => r.clashes x = false)
  numbered : ∀ r ∈ fs, 1 ≤ r.number ∧ r.number ≤ 65535
  named : ∀ r ∈ fs, r.serial < serial
  numbers : (fs.map (·.number)).Nodup
  serials : (fs.map (·.serial)).Nodup
  counter : counter ≤ 65535

theorem Engine.faultsLegal_iff (e : Engine) : e.faultsLegal = true ↔ FaultsFit e.faults e.faultCounter e.faultSerial := by
  unfold Engine.faultsLegal
  simp only [Bool.and_eq_true, decide_eq_true_eq, List.all_eq_true, and_assoc]
  constructor
  · rintro ⟨hl, hk, hn, hm, hs, hc⟩
    exact ⟨hl, hk, fun r hr => ⟨(hn r hr).1, (hn r hr).2.1⟩, fun r hr => (hn r hr).2.2, hm, hs, hc⟩
  · rintro ⟨hl, hk, hn, hs, hm, hr, hc⟩
    exact ⟨hl, hk, fun r h => ⟨(hn r h).1, (hn r h).2, hs r h⟩, hm, hr, hc⟩

/-! ## The pending requeues -/

/-- What `Engine.requeuesLegal` says of the list (R198). -/
structure RequeuesFit (xs : List Requeue) : Prop where
  room : xs.length ≤ 8
  pairs : (xs.map (fun x => (x.clip, x.volume))).Nodup
  generations : ∀ x ∈ xs, 1 ≤ x.generation ∧ x.generation ≤ 3

theorem Engine.requeuesLegal_iff (e : Engine) : e.requeuesLegal = true ↔ RequeuesFit e.requeues := by
  unfold Engine.requeuesLegal
  simp only [Bool.and_eq_true, decide_eq_true_eq, List.all_eq_true, and_assoc]
  exact ⟨fun ⟨hl, hp, hg⟩ => ⟨hl, hp, hg⟩, fun ⟨hl, hp, hg⟩ => ⟨hl, hp, hg⟩⟩

end Sys2Proof.Machine
end

