-- ==== Sys2Proof/Proofs/QueueChanges.lean ====
section
/-!
SUPPORT. The changes of the copy queue, the render queue, the fault list and the pending requeues that O27 is about, each said once over
the part of the state that changes: it keeps what the invariant says of that part.
-/

namespace Sys2Proof.Machine

/-! ## The copy queue -/

/-- The lanes but one whose descriptor is on its way out. -/
def lanesBut (own : Option (Fin 2)) (lane : Fin 2 → Option (Fin 64)) (l : Fin 2) : Option (Fin 64) :=
  if own = some l then none else lane l

@[simp] theorem lanesBut_none (lane : Fin 2 → Option (Fin 64)) : lanesBut none lane = lane := by
  funext l; simp [lanesBut]

theorem lanesBut_some {own : Option (Fin 2)} {lane : Fin 2 → Option (Fin 64)} {l : Fin 2} {k : Fin 64} :
    lanesBut own lane l = some k ↔ own ≠ some l ∧ lane l = some k := by
  unfold lanesBut
  split <;> simp_all

section
variable {q : List Berth} {lane : Fin 2 → Option (Fin 64)}

/-- A descriptor that waits joins the tail in a free slot (R79). -/
theorem QueueFits.append (h : QueueFits q lane) {x : Berth} (waits : x.running = false) (free : ∀ y ∈ q, y.slot ≠ x.slot) :
    QueueFits (q ++ [x]) lane where
  order := List.pairwise_append.mpr ⟨h.order, List.pairwise_singleton _ _, fun y hy z hz => by
    obtain rfl := List.mem_singleton.mp hz
    exact ⟨free y hy, fun k => by simp [waits] at k, fun _ k => by simp [waits] at k⟩⟩
  apart := h.apart
  runs l k hl := by
    obtain ⟨y, hy, hk⟩ := h.runs l k hl
    exact ⟨y, by simp [hy], hk⟩
  carried y hy hr := by
    rcases List.mem_append.mp hy with hy | hy
    · exact h.carried y hy hr
    · rw [List.mem_singleton.mp hy, waits] at hr; cases hr

/-- A descriptor that no lane runs leaves the queue (R93, R99). -/
theorem QueueFits.remove (h : QueueFits q lane) {k : Fin 64} (waits : ∀ l, lane l ≠ some k) :
    QueueFits (q.filter (fun x => decide (x.slot ≠ k))) lane where
  order := h.order.filter _
  apart := h.apart
  runs l j hl := by
    obtain ⟨y, hy, rfl, hr⟩ := h.runs l j hl
    exact ⟨y, by simpa [hy] using fun same : y.slot = k => waits l (same ▸ hl), rfl, hr⟩
  carried y hy hr := h.carried y (List.mem_of_mem_filter hy) hr

/-- A lane's descriptor leaves the queue, and the lane is done with it (R82, R93). -/
theorem QueueFits.leave (h : QueueFits q lane) {l : Fin 2} {k : Fin 64} (ran : lane l = some k) :
    QueueFits (q.filter (fun x => decide (x.slot ≠ k))) (lanesBut (some l) lane) where
  order := h.order.filter _
  apart m n j hm hn := h.apart m n j (lanesBut_some.mp hm).2 (lanesBut_some.mp hn).2
  runs m j hm := by
    obtain ⟨other, hm⟩ := lanesBut_some.mp hm
    obtain ⟨y, hy, rfl, hr⟩ := h.runs m j hm
    exact ⟨y, by simpa [hy] using fun same : y.slot = k => other (congrArg some (h.apart l m k ran (same ▸ hm))), rfl, hr⟩
  carried y hy hr := by
    obtain ⟨hy, other⟩ := List.mem_filter.mp hy
    obtain ⟨m, hm⟩ := h.carried y hy hr
    refine ⟨m, lanesBut_some.mpr ⟨fun same => ?_, hm⟩⟩
    rw [← Option.some.inj same, ran] at hm
    exact of_decide_eq_true other (Option.some.inj hm).symm

/-- A berth starts to run, when its slot is the one granted. -/
def Berth.started (k : Fin 64) (x : Berth) : Berth := if x.slot = k then { x with running := true } else x

@[simp] theorem Berth.started_slot (k : Fin 64) (x : Berth) : (x.started k).slot = x.slot := by unfold Berth.started; split <;> rfl
@[simp] theorem Berth.started_chain (k : Fin 64) (x : Berth) : (x.started k).chain = x.chain := by unfold Berth.started; split <;> rfl
@[simp] theorem Berth.started_source (k : Fin 64) (x : Berth) : (x.started k).source = x.source := by unfold Berth.started; split <;> rfl

theorem Berth.started_running {k : Fin 64} {x : Berth} : (x.started k).running = true ↔ x.slot = k ∨ x.running = true := by
  unfold Berth.started
  split <;> simp_all

/-- A waiting descriptor is granted to an idle lane: it heads its chain, and no RUNNING descriptor reads its volume (R83). -/
theorem QueueFits.start (h : QueueFits q lane) {d : Berth} (hd : d ∈ q) {l : Fin 2} (idle : lane l = none) (waits : d.running = false)
    (heads : q.Pairwise (fun x y => y = d → d.chain.isSome = true → x.chain ≠ d.chain))
    (free : d.source.isSome = true → ∀ x ∈ q, x.running = true → x.source ≠ d.source) :
    QueueFits (q.map (Berth.started d.slot)) (fun m => if m = l then some d.slot else lane m) := by
  have slots : (q.map (·.slot)).Nodup := List.pairwise_map.mpr (h.order.imp fun k => k.slots)
  have own : ∀ x ∈ q, x.slot = d.slot → x = d := fun x hx same => List.inj_on_of_nodup_map slots hx hd same
  have ran : ∀ m, lane m ≠ some d.slot := by
    intro m hm
    obtain ⟨x, hx, same, hr⟩ := h.runs m _ hm
    rw [own x hx same, waits] at hr
    cases hr
  have runs : ∀ x ∈ q, (x.started d.slot).running = true → x = d ∨ x.running = true := fun x hx hr =>
    (Berth.started_running.mp hr).imp_left (own x hx)
  refine ⟨?_, fun m n k hm hn => ?_, fun m k hm => ?_, fun y hy hr => ?_⟩
  · rw [List.pairwise_map]
    refine (h.order.and heads).imp_of_mem fun {x y} hx hy ⟨pair, head⟩ => ⟨by simpa using pair.slots, fun hr hc => ?_, fun hxr hyr hs => ?_⟩
    · rw [Berth.started_chain] at hc
      rw [Berth.started_chain, Berth.started_chain]
      rcases runs y hy hr with rfl | hr
      · exact head rfl hc
      · exact pair.chains hr hc
    · rw [Berth.started_source] at hs
      rw [Berth.started_source, Berth.started_source]
      rcases runs x hx hxr with rfl | rx <;> rcases runs y hy hyr with rfl | ry
      · exact absurd rfl pair.slots
      · exact fun same => free (same ▸ hs) y hy ry same.symm
      · exact free hs x hx rx
      · exact pair.sources rx ry hs
  · split at hm <;> split at hn
    · next a b => exact a.trans b.symm
    · exact absurd (hn.trans hm.symm) (ran n)
    · exact absurd (hm.trans hn.symm) (ran m)
    · exact h.apart m n k hm hn
  · split at hm
    · exact ⟨d.started d.slot, List.mem_map_of_mem hd, by simpa using hm, Berth.started_running.mpr (.inl rfl)⟩
    · obtain ⟨x, hx, rfl, hr⟩ := h.runs m k hm
      exact ⟨x.started d.slot, List.mem_map_of_mem hx, by simp, Berth.started_running.mpr (.inr hr)⟩
  · obtain ⟨x, hx, rfl⟩ := List.mem_map.mp hy
    rcases runs x hx hr with rfl | hr
    · exact ⟨l, by simp⟩
    · obtain ⟨m, hm⟩ := h.carried x hx hr
      refine ⟨m, ?_⟩
      rw [if_neg (fun same => by rw [same, idle] at hm; cases hm)]
      simpa using hm

end

/-! ## The render queue -/

/-- A slot or a context's job, unless it is the one that leaves. -/
def unlessJob (j : Fin 16) (x : Option (Fin 16)) : Option (Fin 16) := if x = some j then none else x

theorem unlessJob_some {j k : Fin 16} {x : Option (Fin 16)} : unlessJob j x = some k ↔ x = some k ∧ k ≠ j := by
  unfold unlessJob
  split
  · next h => exact ⟨nofun, fun ⟨hx, hk⟩ => absurd (Option.some.inj (hx.symm.trans h)) hk⟩
  · next h => exact ⟨fun hx => ⟨hx, fun hk => h (hk ▸ hx)⟩, And.left⟩

section
variable {q : List Post} {run claim : Fin 2 → Option (Fin 16)} {cue : Option (Fin 16)} {j : Fin 16}

/-- A job leaves the render queue, its context, its claim and the cue (R128). -/
theorem RendersFit.leave (h : RendersFit q run claim cue) (j : Fin 16) : RendersFit (q.filter (fun x => decide (x.slot ≠ j)))
    (fun c => unlessJob j (run c)) (fun c => unlessJob j (claim c)) (unlessJob j cue) where
  slots := h.slots.sublist (List.filter_sublist.map _)
  apart c d k hc hd := h.apart c d k (unlessJob_some.mp hc).1 (unlessJob_some.mp hd).1
  runs c k hc := by
    obtain ⟨hc, hk⟩ := unlessJob_some.mp hc
    simpa [h.runs c k hc] using hk
  carried x hx hr := by
    obtain ⟨hx, hj⟩ := List.mem_filter.mp hx
    obtain ⟨c, hc⟩ := h.carried x hx hr
    exact ⟨c, unlessJob_some.mpr ⟨hc, of_decide_eq_true hj⟩⟩
  claimsApart c d k hc hd := h.claimsApart c d k (unlessJob_some.mp hc).1 (unlessJob_some.mp hd).1
  claims c k hc := by
    obtain ⟨hc, hk⟩ := unlessJob_some.mp hc
    simpa [h.claims c k hc] using hk
  cue k hk := by
    obtain ⟨hk, hj⟩ := unlessJob_some.mp hk
    obtain ⟨x, hx, rfl⟩ := h.cue k hk
    exact ⟨x, by simpa [hx] using hj, rfl⟩

/-- No two posts of one slot. -/
theorem RendersFit.post_eq (h : RendersFit q run claim cue) {x y : Post} (hx : x ∈ q) (hy : y ∈ q) (same : x.slot = y.slot) : x = y :=
  List.inj_on_of_nodup_map h.slots hx hy same

/-- A waiting job is run by no context. -/
theorem RendersFit.not_run (h : RendersFit q run claim cue) (waits : ⟨j, false⟩ ∈ q) (c : Fin 2) : run c ≠ some j := fun hc => by
  cases h.post_eq waits (h.runs c j hc) rfl

/-- A post starts to run, or waits again, when its slot is the one in question. -/
def Post.turned (k : Fin 16) (b : Bool) (x : Post) : Post := if x.slot = k then { x with running := b } else x

@[simp] theorem Post.turned_slot (k : Fin 16) (b : Bool) (x : Post) : (x.turned k b).slot = x.slot := by
  unfold Post.turned; split <;> rfl

theorem Post.mem_turned {k : Fin 16} {b : Bool} {x : Post} : x ∈ q.map (Post.turned k b) ↔
    (x.slot = k ∧ x.running = b ∧ ∃ y ∈ q, y.slot = k) ∨ (x.slot ≠ k ∧ x ∈ q) := by
  rw [List.mem_map]
  constructor
  · rintro ⟨y, hy, rfl⟩
    unfold Post.turned
    split
    · next same => exact .inl ⟨same, rfl, y, hy, same⟩
    · next other => exact .inr ⟨other, hy⟩
  · rintro (⟨rfl, rfl, y, hy, same⟩ | ⟨other, hx⟩)
    · exact ⟨y, hy, by unfold Post.turned; rw [if_pos same, same]⟩
    · exact ⟨x, hx, if_neg other⟩

theorem Post.turned_slots (k : Fin 16) (b : Bool) : (q.map (Post.turned k b)).map (·.slot) = q.map (·.slot) := by
  simp [Function.comp_def]

/-- A waiting job that claims no other context is given to an idle one (R134). -/
theorem RendersFit.start (h : RendersFit q run claim cue) {c : Fin 2} (idle : run c = none) (waits : ⟨j, false⟩ ∈ q)
    (unclaimed : ∀ d, d ≠ c → claim d ≠ some j) : RendersFit (q.map (Post.turned j true))
      (fun d => if d = c then some j else run d) (fun d => if d = c then none else claim d) cue where
  slots := by rw [Post.turned_slots]; exact h.slots
  apart d e k hd he := by
    split at hd <;> split at he
    · next a b => exact a.trans b.symm
    · exact absurd (he.trans hd.symm) (h.not_run waits e)
    · exact absurd (hd.trans he.symm) (h.not_run waits d)
    · exact h.apart d e k hd he
  runs d k hd := by
    split at hd
    · obtain rfl := Option.some.inj hd
      exact Post.mem_turned.mpr (.inl ⟨rfl, rfl, _, waits, rfl⟩)
    · exact Post.mem_turned.mpr (.inr ⟨fun same => h.not_run waits d (hd.trans (congrArg some same)), h.runs d k hd⟩)
  carried x hx hr := by
    rcases Post.mem_turned.mp hx with ⟨same, -, -⟩ | ⟨-, hx⟩
    · exact ⟨c, by rw [if_pos rfl, same]⟩
    · obtain ⟨d, hd⟩ := h.carried x hx hr
      exact ⟨d, by rw [if_neg (fun same => by rw [same, idle] at hd; cases hd)]; exact hd⟩
  claimsApart d e k hd he := by
    split at hd <;> split at he
    · next a b => exact a.trans b.symm
    · cases hd
    · cases he
    · exact h.claimsApart d e k hd he
  claims d k hd := by
    split at hd
    · cases hd
    · next other => exact Post.mem_turned.mpr (.inr ⟨fun same => unclaimed d other (hd.trans (congrArg some same)), h.claims d k hd⟩)
  cue k hk := by
    obtain ⟨x, hx, rfl⟩ := h.cue k hk
    exact ⟨x.turned j true, List.mem_map_of_mem hx, by simp⟩

/-- A context's job waits again, moved within the queue (R133). -/
theorem RendersFit.suspend (h : RendersFit q run claim cue) {c : Fin 2} (ran : run c = some j) {q' : List Post}
    (moved : q'.Perm (q.map (Post.turned j false))) : RendersFit q' (fun d => unlessJob j (run d)) claim cue where
  slots := by
    rw [(moved.map _).nodup_iff, Post.turned_slots]
    exact h.slots
  apart d e k hd he := h.apart d e k (unlessJob_some.mp hd).1 (unlessJob_some.mp he).1
  runs d k hd := by
    obtain ⟨hd, hk⟩ := unlessJob_some.mp hd
    exact moved.mem_iff.mpr (Post.mem_turned.mpr (.inr ⟨hk, h.runs d k hd⟩))
  carried x hx hr := by
    rcases Post.mem_turned.mp (moved.mem_iff.mp hx) with ⟨-, hb, -⟩ | ⟨hk, hx⟩
    · rw [hr] at hb; cases hb
    · obtain ⟨d, hd⟩ := h.carried x hx hr
      exact ⟨d, unlessJob_some.mpr ⟨hd, hk⟩⟩
  claimsApart := h.claimsApart
  claims d k hd := by
    refine moved.mem_iff.mpr (Post.mem_turned.mpr (.inr ⟨?_, h.claims d k hd⟩))
    rintro rfl
    exact h.not_run (h.claims d _ hd) c ran
  cue k hk := by
    obtain ⟨x, hx, rfl⟩ := h.cue k hk
    exact ⟨x.turned j false, moved.mem_iff.mpr (List.mem_map_of_mem hx), by simp⟩

/-- A job joins the tail of the queue in a free slot (R127). -/
theorem RendersFit.append (h : RendersFit q run claim cue) (free : ∀ x ∈ q, x.slot ≠ j) : RendersFit (q ++ [⟨j, false⟩]) run claim cue where
  slots := by
    rw [List.map_append, List.nodup_append]
    exact ⟨h.slots, by simp, by simpa using free⟩
  apart := h.apart
  runs c k hc := by simp [h.runs c k hc]
  carried x hx hr := by
    rcases List.mem_append.mp hx with hx | hx
    · exact h.carried x hx hr
    · rw [List.mem_singleton.mp hx] at hr; cases hr
  claimsApart := h.claimsApart
  claims c k hc := by simp [h.claims c k hc]
  cue k hk := by
    obtain ⟨x, hx, rfl⟩ := h.cue k hk
    exact ⟨x, by simp [hx], rfl⟩

/-- The cue takes a job of the queue, or none (R157, R159). -/
theorem RendersFit.recue (h : RendersFit q run claim cue) {cue' : Option (Fin 16)} (hc : ∀ k, cue' = some k → ∃ x ∈ q, x.slot = k) :
    RendersFit q run claim cue' :=
  ⟨h.slots, h.apart, h.runs, h.carried, h.claimsApart, h.claims, hc⟩

/-- A waiting job that claims nothing claims a context, in the place of the job that claimed it before (R132). -/
theorem RendersFit.claimed (h : RendersFit q run claim cue) (waits : ⟨j, false⟩ ∈ q) (unclaimed : ∀ d, claim d ≠ some j) (c : Fin 2) :
    RendersFit q run (fun d => if d = c then some j else claim d) cue where
  slots := h.slots
  apart := h.apart
  runs := h.runs
  carried := h.carried
  claimsApart d e k hd he := by
    split at hd <;> split at he
    · next a b => exact a.trans b.symm
    · exact absurd (he.trans hd.symm) (unclaimed e)
    · exact absurd (hd.trans he.symm) (unclaimed d)
    · exact h.claimsApart d e k hd he
  claims d k hd := by
    split at hd
    · obtain rfl := Option.some.inj hd; exact waits
    · exact h.claims d k hd
  cue := h.cue

/-- A claim lapses (R132). -/
theorem RendersFit.unclaim (h : RendersFit q run claim cue) (c : Fin 2) :
    RendersFit q run (fun d => if d = c then none else claim d) cue where
  slots := h.slots
  apart := h.apart
  runs := h.runs
  carried := h.carried
  claimsApart d e k hd he := by
    split at hd <;> split at he
    · cases hd
    · cases hd
    · cases he
    · exact h.claimsApart d e k hd he
  claims d k hd := by
    split at hd
    · cases hd
    · exact h.claims d k hd
  cue := h.cue

end

/-! ## The fault list -/

section
variable {fs : List FaultRecord} {counter serial : Nat}

/-- A record as another one left it: under its number and serial, with its key, and unresolved only if it was (R177, R179). -/
structure FaultRecord.After (r x : FaultRecord) : Prop where
  number : r.number = x.number
  serial : r.serial = x.serial
  kind : r.kind = x.kind
  clip : r.clip = x.clip
  volume : r.volume = x.volume
  unresolved : r.unresolved = true → x.unresolved = true

theorem FaultRecord.After.refl (r : FaultRecord) : r.After r := ⟨rfl, rfl, rfl, rfl, rfl, id⟩

theorem FaultRecord.clashes_iff {r x : FaultRecord} : r.clashes x = true ↔
    r.unresolved = true ∧ x.unresolved = true ∧ r.kind = x.kind ∧ r.clip = x.clip ∧ r.volume = x.volume := by
  simp [FaultRecord.clashes, and_assoc]

/-- Records that change in place keep the list legal. -/
theorem FaultsFit.map (h : FaultsFit fs counter serial) {f : FaultRecord → FaultRecord} (hf : ∀ r ∈ fs, (f r).After r) :
    FaultsFit (fs.map f) counter serial where
  room := by simpa using h.room
  keys := List.pairwise_map.mpr (h.keys.imp_of_mem fun {r x} hr hx apart => by
    rw [Bool.eq_false_iff, ne_eq, FaultRecord.clashes_iff] at apart ⊢
    rintro ⟨ur, ux, k, c, v⟩
    have r' := hf r hr
    have x' := hf x hx
    exact apart ⟨r'.unresolved ur, x'.unresolved ux, r'.kind ▸ x'.kind ▸ k, r'.clip ▸ x'.clip ▸ c, r'.volume ▸ x'.volume ▸ v⟩)
  numbered := List.forall_mem_map.mpr fun r hr => (hf r hr).number ▸ h.numbered r hr
  named := List.forall_mem_map.mpr fun r hr => (hf r hr).serial ▸ h.named r hr
  numbers := by
    have same : (fs.map f).map (·.number) = fs.map (·.number) := by
      rw [List.map_map]
      exact List.map_congr_left fun r hr => (hf r hr).number
    rw [same]
    exact h.numbers
  serials := by
    have same : (fs.map f).map (·.serial) = fs.map (·.serial) := by
      rw [List.map_map]
      exact List.map_congr_left fun r hr => (hf r hr).serial
    rw [same]
    exact h.serials
  counter := h.counter

/-- Records that leave keep the list legal. -/
theorem FaultsFit.sublist (h : FaultsFit fs counter serial) {gs : List FaultRecord} (hs : gs.Sublist fs) : FaultsFit gs counter serial :=
  ⟨hs.length_le.trans h.room, h.keys.sublist hs, fun r hr => h.numbered r (hs.subset hr), fun r hr => h.named r (hs.subset hr),
    h.numbers.sublist (hs.map _), h.serials.sublist (hs.map _), h.counter⟩

/-- The number given next is one of 1..65535 (R178). -/
theorem nextFaultNumber_range (n k : Nat) (hn : n ≤ 65535) (hk : 0 < k) :
    1 ≤ nextFaultNumber fs k n ∧ nextFaultNumber fs k n ≤ 65535 := by
  induction k generalizing n with
  | zero => cases hk
  | succ k ih =>
    have next : 1 ≤ numberAfter n ∧ numberAfter n ≤ 65535 := by unfold numberAfter; split <;> omega
    have tries : nextFaultNumber fs (k + 1) n =
        if fs.any (fun r => decide (r.number = numberAfter n)) then nextFaultNumber fs k (numberAfter n) else numberAfter n := rfl
    rw [tries]
    split
    · cases k with
      | zero => exact next
      | succ k => exact ih _ next.2 (Nat.succ_pos k)
    · exact next

/-- A record made in a list with room takes a free number and the next serial (R178, R179). -/
theorem FaultsFit.create (h : FaultsFit fs counter serial) (room : fs.length < 256) {f : FaultInput} {s : Severity}
    (fresh : ∀ r ∈ fs, r.unresolved = true → r.hasKey f = false) :
    FaultsFit (fs ++ [f.record serial (nextFaultNumber fs (fs.length + 1) counter) s]) (nextFaultNumber fs (fs.length + 1) counter)
      (serial + 1) := by
  have range := nextFaultNumber_range (fs := fs) counter (fs.length + 1) h.counter (Nat.succ_pos _)
  have free := nextFaultNumber_free room counter
  generalize nextFaultNumber fs (fs.length + 1) counter = n at range free
  refine ⟨by simpa using room, ?_, ?_, ?_, ?_, ?_, range.2⟩
  · refine List.pairwise_append.mpr ⟨h.keys, List.pairwise_singleton _ _, fun r hr x hx => ?_⟩
    obtain rfl := List.mem_singleton.mp hx
    rw [Bool.eq_false_iff, ne_eq, FaultRecord.clashes_iff]
    rintro ⟨unresolved, -, kind, clip, volume⟩
    have apart := fresh r hr unresolved
    simp [FaultRecord.hasKey, kind, clip, volume, FaultInput.record] at apart
  · simpa [or_imp, forall_and, FaultInput.record] using ⟨⟨fun r hr => (h.numbered r hr).1, range.1⟩, fun r hr => (h.numbered r hr).2, range.2⟩
  · simpa [or_imp, forall_and, FaultInput.record] using fun r hr => Nat.lt_succ_of_lt (h.named r hr)
  · rw [List.map_append, List.nodup_append]
    exact ⟨h.numbers, by simp, by simpa [FaultInput.record] using free⟩
  · rw [List.map_append, List.nodup_append]
    exact ⟨h.serials, by simp, by simpa [FaultInput.record] using fun r hr => Nat.ne_of_lt (h.named r hr)⟩

/-- The record that a full list gives up is one of its own (R180). -/
theorem evictionCandidate_mem {s : Severity} {x : FaultRecord} (h : evictionCandidate fs s = some x) : x ∈ fs := by
  unfold evictionCandidate at h
  obtain ⟨cls, -, found⟩ := List.exists_of_findSome?_eq_some h
  exact List.mem_of_find?_eq_some found

end

/-! ## The pending requeues -/

section
variable {xs : List Requeue}

theorem RequeuesFit.erase (h : RequeuesFit xs) (x : Requeue) : RequeuesFit (xs.erase x) :=
  ⟨List.erase_sublist.length_le.trans h.room, h.pairs.sublist (List.erase_sublist.map _),
    fun y hy => h.generations y (List.mem_of_mem_erase hy)⟩

/-- A pair placed is merged, joins a list with room, or is dropped (R198). -/
theorem RequeuesFit.place (h : RequeuesFit xs) {x : Requeue} (hx : 1 ≤ x.generation ∧ x.generation ≤ 3) : RequeuesFit (placeRequeue xs x) := by
  unfold placeRequeue
  split
  · refine ⟨by simpa using h.room, ?_, List.forall_mem_map.mpr fun y hy => ?_⟩
    · rw [List.map_map, List.map_congr_left (g := fun y => (y.clip, y.volume)) fun y _ => by simp only [Function.comp]; split <;> rfl]
      exact h.pairs
    · have := h.generations y hy
      split
      · dsimp only; omega
      · exact this
  · next fresh =>
    split
    · next room =>
      refine ⟨by rw [List.length_append]; exact room, ?_, ?_⟩
      · rw [List.map_append, List.nodup_append]
        refine ⟨h.pairs, by simp, fun a ha b hb same => ?_⟩
        obtain ⟨y, hy, rfl⟩ := List.mem_map.mp ha
        rw [List.map_singleton, List.mem_singleton] at hb
        subst hb
        simp only [Prod.mk.injEq] at same
        exact fresh (List.any_eq_true.mpr ⟨y, hy, by simp [same]⟩)
      · intro y hy
        rcases List.mem_append.mp hy with hy | hy
        · exact h.generations y hy
        · rw [List.mem_singleton.mp hy]; exact hx
    · exact h

end

end Sys2Proof.Machine
end

