-- ==== Sys2Proof/Proofs/SteadyChanges.lean ====
section
/-!
SUPPORT. Steady changes: what most operations of the blocks leave of the queues. The invariants of O27 look at the berths of the copy queue
and the slots that the lanes run, at the posts of the render queue, the jobs that the contexts run, the claims and the cue, at the pending
requeues, and at the fault list; a steady change keeps the first of these as they are, and the fault list legal.
-/

namespace Sys2Proof.Machine

/-! ## What the invariants look at -/

/-- The fault list is legal (R177, R178, R180). -/
def Engine.faultsFit (e : Engine) : Prop := FaultsFit e.faults e.faultCounter e.faultSerial

/-- The copy queue agrees with the lanes, but for one whose descriptor is on its way out (R79, R82, R83). -/
def Engine.queueFits (own : Option (Fin 2)) (e : Engine) : Prop := QueueFits e.berths (lanesBut own e.laneSlot)

/-- The render queue agrees with the contexts (R127, R132, R134). -/
def Engine.rendersFit (e : Engine) : Prop := RendersFit e.posts e.runsJob e.claimant e.monitor.cue.job

/-- A change that leaves the copy queue, the lanes and the pending requeues, and the fault list legal. -/
structure Aside (a b : Engine) : Prop where
  faults : a.faultsFit → b.faultsFit
  berths : b.berths = a.berths
  lanes : b.laneSlot = a.laneSlot
  requeues : b.requeues = a.requeues

/-- One that leaves the render queue, the contexts and the cue too. -/
structure Steady (a b : Engine) : Prop extends Aside a b where
  posts : b.posts = a.posts
  runs : b.runsJob = a.runsJob
  claims : b.claimant = a.claimant
  cue : b.monitor.cue.job = a.monitor.cue.job

theorem Aside.refl (a : Engine) : Aside a a := ⟨id, rfl, rfl, rfl⟩

theorem Aside.trans {a b c : Engine} (h : Aside a b) (k : Aside b c) : Aside a c :=
  ⟨k.faults ∘ h.faults, k.berths.trans h.berths, k.lanes.trans h.lanes, k.requeues.trans h.requeues⟩

theorem Steady.refl (a : Engine) : Steady a a := ⟨.refl a, rfl, rfl, rfl, rfl⟩

theorem Steady.trans {a b c : Engine} (h : Steady a b) (k : Steady b c) : Steady a c :=
  ⟨h.toAside.trans k.toAside, k.posts.trans h.posts, k.runs.trans h.runs, k.claims.trans h.claims, k.cue.trans h.cue⟩

theorem Steady.rendersFit {a b : Engine} (h : Steady a b) (k : a.rendersFit) : b.rendersFit := by
  unfold Engine.rendersFit
  rw [h.posts, h.runs, h.claims, h.cue]
  exact k

section
variable {a e : Engine} {g : Settings}

/-- A change of the render queue, the contexts and the cue, and outside the four lists, leaves the copy queue. -/
theorem Aside.frame (h : Aside a e) {e' : Engine}
    (he : e' = { e' with faults := e.faults, faultCounter := e.faultCounter, faultSerial := e.faultSerial, queue := e.queue,
                         lanes := e.lanes, requeues := e.requeues }) : Aside a e' := by
  refine h.trans ?_
  rw [he]
  exact ⟨id, rfl, rfl, rfl⟩

/-- A change outside the queues and the fault list is steady. -/
theorem Steady.frame (h : Steady a e) {e' : Engine}
    (he : e' = { e' with faults := e.faults, faultCounter := e.faultCounter, faultSerial := e.faultSerial, queue := e.queue,
                         lanes := e.lanes, requeues := e.requeues, jobs := e.jobs, contexts := e.contexts, monitor := e.monitor }) :
    Steady a e' := by
  refine h.trans ?_
  rw [he]
  exact ⟨⟨id, rfl, rfl, rfl⟩, rfl, rfl, rfl, rfl⟩

/-- A fold of steady changes is steady. -/
theorem Steady.foldl {α : Type} {f : Engine → α → Engine} (hf : ∀ e x, Steady a e → Steady a (f e x)) (xs : List α) (h : Steady a e) :
    Steady a (xs.foldl f e) := by
  induction xs generalizing e with
  | nil => exact h
  | cons x xs ih => exact ih (hf e x h)

/-- A change that is made or not. -/
theorem Steady.ite {p : Prop} [Decidable p] {x y : Engine} (hx : Steady a x) (hy : Steady a y) : Steady a (if p then x else y) := by
  split <;> assumption

/-! ## The named updates -/

theorem Steady.signal (h : Steady a e) {ev : Event} : Steady a (e.signal ev) := h.frame rfl

theorem Steady.updateClip (h : Steady a e) {x : Handle} {f : Clip → Clip} : Steady a (e.updateClip x f) := by
  unfold Engine.updateClip
  split
  · exact h.frame rfl
  · exact h

theorem Steady.updateCopy (h : Steady a e) {x : Handle} {v : Fin 16} {f : CopyRecord → CopyRecord} : Steady a (e.updateCopy x v f) :=
  h.updateClip

theorem Steady.updateCard (h : Steady a e) {c : Fin 32} {f : CardRecord → CardRecord} : Steady a (e.updateCard c f) := by
  unfold Engine.updateCard
  split
  · exact h.frame rfl
  · exact h

theorem Steady.updateVolume (h : Steady a e) {v : Fin 16} {f : VolumeEntry → VolumeEntry} : Steady a (e.updateVolume v f) := by
  unfold Engine.updateVolume
  split
  · exact h.frame rfl
  · exact h

theorem Steady.updateDest (h : Steady a e) {p : Fin 4} {f : DestPort → DestPort} : Steady a (e.updateDest p f) := h.frame rfl

theorem Steady.updatePort (h : Steady a e) {p : Fin 4} {f : CardPort → CardPort} : Steady a (e.updatePort p f) := h.frame rfl

theorem Steady.updateScan (h : Steady a e) {l : Fin 2} {f : ScanContext → ScanContext} : Steady a (e.updateScan l f) := h.frame rfl

/-- A change of the copy queue that leaves its berths. -/
theorem Steady.requeued (h : Steady a e) {q : List Descriptor} (hq : q.map Descriptor.berth = e.berths) : Steady a { e with queue := q } :=
  h.trans ⟨⟨id, hq, rfl, rfl⟩, rfl, rfl, rfl, rfl⟩

/-- A descriptor's update that leaves its berth. -/
theorem Steady.updateDescriptor (h : Steady a e) {k : Fin 64} {f : Descriptor → Descriptor}
    (hf : ∀ d ∈ e.queue, d.slot = k → (f d).berth = d.berth) : Steady a (e.updateDescriptor k f) := by
  refine h.requeued ?_
  rw [List.map_map]
  refine List.map_congr_left fun d hd => ?_
  simp only [Function.comp]
  split
  · next same => exact hf d hd same
  · rfl

/-- An update of what a lane holds, under the slot that it runs. -/
theorem Steady.updateLane (h : Steady a e) {l : Fin 2} {f : LaneRun → LaneRun}
    (hf : ∀ r, e.laneRun l = some r → (f r).slot = r.slot := by exact fun _ _ => rfl) : Steady a (e.updateLane l f) := by
  refine h.trans ⟨⟨fun k => ?_, ?_, ?_, ?_⟩, ?_, ?_, ?_, ?_⟩
  · unfold Engine.faultsFit at k ⊢; simpa using k
  · simp [Engine.berths]
  · funext m
    unfold Engine.laneSlot
    by_cases same : m = l
    · subst same
      rw [Engine.updateLane_laneRun]
      cases hr : e.laneRun m with
      | none => rfl
      | some r => simp [hf r hr]
    · unfold Engine.laneRun
      rw [Engine.updateLane_lane, if_neg same]
  · simp
  · simp [Engine.posts]
  · funext c; simp [Engine.runsJob, Engine.contextRun]
  · funext c; simp [Engine.claimant]
  · simp

/-- A job's update that leaves its slot and whether it is RUNNING. -/
theorem Steady.updateJob (h : Steady a e) {j : Fin 16} {f : Job → Job} (hf : ∀ x, (f x).post = x.post := by exact fun _ => rfl) :
    Steady a (e.updateJob j f) := by
  refine h.trans ⟨⟨id, rfl, rfl, rfl⟩, ?_, rfl, rfl, rfl⟩
  unfold Engine.posts Engine.updateJob
  rw [List.map_map]
  refine List.map_congr_left fun x _ => ?_
  simp only [Function.comp]
  split
  · exact hf x
  · rfl

/-- An update of what a running context holds. -/
theorem Steady.updateContext (h : Steady a e) {c : Fin 2} {f : ContextRun → ContextRun} : Steady a (e.updateContext c f) := by
  unfold Engine.updateContext
  split
  · next j run running =>
    refine h.trans ⟨⟨id, rfl, rfl, rfl⟩, rfl, funext fun d => ?_, funext fun d => ?_, rfl⟩
    · unfold Engine.runsJob Engine.contextRun
      by_cases same : d = c
      · subst same; simp only [Fin.getElem_fin, Vector.getElem_set_self]; rw [← Fin.getElem_fin, running]; rfl
      · simp [Fin.val_inj, Ne.symm same]
    · unfold Engine.claimant
      by_cases same : d = c
      · subst same; simp
      · simp [Fin.val_inj, Ne.symm same]
  · exact h

/-- An update of the Monitor Output that leaves the job of the cue. -/
theorem Steady.updateMonitor (h : Steady a e) {f : MonitorOut → MonitorOut}
    (hf : (f e.monitor).cue.job = e.monitor.cue.job := by rfl) : Steady a (e.updateMonitor f) :=
  h.trans ⟨⟨id, rfl, rfl, rfl⟩, rfl, rfl, rfl, hf⟩

/-! ## The fault list -/

/-- Records of the fault list that change in place. -/
theorem Steady.mapFaults (h : Steady a e) {f : FaultRecord → FaultRecord} (hf : e.faultsFit → ∀ r ∈ e.faults, (f r).After r) :
    Steady a { e with faults := e.faults.map f } :=
  h.trans ⟨⟨fun k => k.map (hf k), rfl, rfl, rfl⟩, rfl, rfl, rfl, rfl⟩

/-- A record put in the place of its serial. -/
theorem Steady.putFault (h : Steady a e) {r x : FaultRecord} (hx : x ∈ e.faults) (after : r.After x) : Steady a (e.putFault r) := by
  refine h.mapFaults fun k y hy => ?_
  split
  · next same =>
    obtain rfl := List.inj_on_of_nodup_map k.serials hy hx (same.trans after.serial)
    exact after
  · exact .refl y

theorem FaultRecord.fillFrame_after (r : FaultRecord) (first last : Option Word32) (tc : Option Timecode) :
    (r.fillFrame first last tc).After r := by
  unfold FaultRecord.fillFrame
  split <;> exact ⟨rfl, rfl, rfl, rfl, rfl, id⟩

theorem FaultRecord.coalesce_after (r : FaultRecord) (f : FaultInput) (s : Severity) : (r.coalesce f s).After r := by
  obtain ⟨number, serial, kind, clip, volume, unresolved⟩ := r.fillFrame_after f.first f.last f.tc
  exact ⟨number, serial, kind, clip, volume, unresolved⟩

/-- A record is created in a list with room, once another has been given up (R178 to R180). -/
theorem Steady.createFault (h : Steady a e) {fs : List FaultRecord} (left : fs.Sublist e.faults) {f : FaultInput} {s : Severity}
    (room : e.faultsFit → fs.length < 256) (fresh : ∀ r ∈ e.faults, r.unresolved = true → r.hasKey f = false) :
    Steady a (Engine.createFault { e with faults := fs } f s) :=
  h.trans ⟨⟨fun k => (k.sublist left).create (room k) fun r hr => fresh r (left.subset hr), rfl, rfl, rfl⟩, rfl, rfl, rfl, rfl⟩

theorem Steady.dropFault (h : Steady a e) {f : FaultInput} {s : Severity} : Steady a (e.dropFault f s) := by
  unfold Engine.dropFault
  exact .ite h.updateClip (h.frame rfl)

/-- A fault that reaches the list keeps it legal (R177 to R181). -/
theorem Steady.raiseFault (h : Steady a e) {f : FaultInput} : Steady a (e.raiseFault g f) := by
  have fresh : e.unresolvedWithKey f = none → ∀ r ∈ e.faults, r.unresolved = true → r.hasKey f = false := by
    intro none_found r hr unresolved
    have := List.find?_eq_none.mp none_found r hr
    simpa [unresolved] using this
  rcases e.raiseFault_cases g f with ⟨-, k⟩ | ⟨r, found, k⟩ | ⟨unmatched, room, k⟩ | ⟨unmatched, full, ⟨v, candidate, k⟩ | ⟨-, k⟩⟩
  · rw [k]; exact h
  · have put : Steady a (e.putFault (r.coalesce f (e.arrivingSeverity g f.kind f.card))) :=
      h.putFault (List.mem_of_find?_eq_some found) (r.coalesce_after f _)
    rcases k with ⟨-, k⟩ | ⟨-, k⟩ <;> rw [k]
    · exact put.signal
    · exact put
  · rw [k]; exact h.createFault (List.Sublist.refl _) (fun _ => room) (fresh unmatched)
  · rw [k]
    refine h.createFault List.erase_sublist (fun fit => ?_) (fresh unmatched)
    have shorter := List.length_erase_add_one (evictionCandidate_mem candidate)
    have := fit.room
    omega
  · rw [k]; exact h.dropFault

end
end Sys2Proof.Machine
end

