-- ==== Sys2Proof/Proofs/SteadyBlocks.lean ====
section
/-!
SUPPORT. The steady operations, in the order of their definitions: the fault list's other changes, the copy and card states, the Volume
Table, the Look Store, the scanner, the port arbiter, and what a lane changes of its targets and its source.
-/

namespace Sys2Proof.Machine

variable {a e : Engine} {g : Settings}

/-! ## The fault list -/

theorem Steady.completeFault (h : Steady a e) {n : Option Nat} {x : Word32} {tc : Timecode} : Steady a (e.completeFault n x tc) := by
  unfold Engine.completeFault
  split
  · refine h.mapFaults fun _ r _ => ?_
    split
    · exact r.fillFrame_after _ _ _
    · exact .refl r
  · exact h

theorem Steady.lowerFaults (h : Steady a e) {c : Fin 32} : Steady a (e.lowerFaults c) := by
  refine h.mapFaults fun _ r _ => ?_
  split
  · exact ⟨rfl, rfl, rfl, rfl, rfl, id⟩
  · exact .refl r

theorem Steady.clearMismatch (h : Steady a e) {x : Handle} {v : Fin 16} : Steady a (e.clearMismatch x v) := by
  refine h.mapFaults fun _ r _ => ?_
  split
  · exact ⟨rfl, rfl, rfl, rfl, rfl, nofun⟩
  · exact .refl r

theorem Steady.removeFaults (h : Steady a e) {x : Handle} : Steady a (e.removeFaults x) :=
  h.trans ⟨⟨fun k => k.sublist List.filter_sublist, rfl, rfl, rfl⟩, rfl, rfl, rfl, rfl⟩

/-! ## Copy states, card states and hold flags -/

theorem Steady.recomputeCopyState (h : Steady a e) {x : Handle} : Steady a (e.recomputeCopyState x) := by
  unfold Engine.recomputeCopyState
  split
  · exact .ite h.updateClip.signal h.updateClip
  · exact h

theorem Steady.changeCopy (h : Steady a e) {x : Handle} {v : Fin 16} {f : CopyRecord → CopyRecord} : Steady a (e.changeCopy x v f) :=
  h.updateCopy.recomputeCopyState

theorem Steady.setCopyState (h : Steady a e) {x : Handle} {v : Fin 16} {s : CopyState} : Steady a (e.setCopyState x v s) := h.changeCopy

theorem Steady.drivePort (h : Steady a e) {p : Fin 4} : Steady a (e.drivePort p) := h.updatePort

theorem Steady.setCardState (h : Steady a e) {c : Fin 32} {x : CardState} : Steady a (e.setCardState c x) := by
  unfold Engine.setCardState
  dsimp only
  split
  · exact h.updateCard.drivePort
  · exact h.updateCard

theorem Steady.signalSecured (h : Steady a e) {c : Fin 32} : Steady a (e.signalSecured c) := .ite h.signal h

theorem Steady.becomeOffloaded (h : Steady a e) {c : Fin 32} : Steady a (e.becomeOffloaded c) :=
  h.setCardState.updateCard.signalSecured

theorem Steady.recomputeCard (h : Steady a e) {c : Fin 32} : Steady a (e.recomputeCard c) := by
  obtain k | ⟨k, -⟩ | ⟨x, k⟩ := e.recomputeCard_cases c <;> rw [k]
  · exact h
  · exact h.becomeOffloaded
  · exact h.setCardState

theorem Steady.becomeReleased (h : Steady a e) {c : Fin 32} : Steady a (e.becomeReleased c) := h.setCardState.signal

theorem Steady.settleRelease (h : Steady a e) {c : Fin 32} : Steady a (e.settleRelease c) := by
  unfold Engine.settleRelease
  split
  · exact .ite h.becomeReleased h
  · exact h

/-- A descriptor that goes on waiting, QUEUED or HELD, keeps its berth. -/
theorem Descriptor.berth_waits (d : Descriptor) {s : DescState} (waits : d.state ≠ .running) (hs : s ≠ .running) :
    ({ d with state := s } : Descriptor).berth = d.berth :=
  (Berth.mk.injEq ..).mpr ⟨rfl, by simp [waits, hs], rfl, rfl⟩

/-- A card's waiting descriptors follow its hold flags (R81). -/
theorem Steady.recomputeHolds (h : Steady a e) {c : Fin 32} : Steady a (e.recomputeHolds c) := by
  unfold Engine.recomputeHolds
  split
  · next r _ =>
    refine h.requeued ?_
    rw [List.map_map]
    refine List.map_congr_left fun d _ => ?_
    simp only [Function.comp]
    split
    · next waits => exact d.berth_waits waits.2 (r.waitingState_ne_running d)
    · rfl
  · exact h

theorem Steady.changeHolds (h : Steady a e) {c : Fin 32} {f : CardRecord → CardRecord} : Steady a (e.changeHolds c f) :=
  h.updateCard.recomputeHolds.recomputeCard

theorem Steady.markQueued (h : Steady a e) {x : Handle} : Steady a (e.markQueued x) := h.updateClip.recomputeCopyState

theorem Steady.settleRemoval (h : Steady a e) {d : Descriptor} : Steady a (e.settleRemoval d) := by
  unfold Engine.settleRemoval
  dsimp only
  split
  · exact h.recomputeCopyState.recomputeCard.settleRelease
  · exact h.recomputeCard.settleRelease

/-! ## The Volume Table -/

/-- What changes the Volume Table alone is steady. -/
theorem Steady.volumes (h : Steady a e) {e' : Engine} (hm : e.volumesMove e') : Steady a e' := by
  rw [show e' = _ from hm]
  exact h.frame rfl

theorem Steady.settleEntry (h : Steady a e) {v : Fin 16} : Steady a (e.settleEntry v) := h.volumes (e.settleEntry_move v)

/-! ## Looks -/

theorem Steady.makeStale (h : Steady a e) {x : Handle} : Steady a (e.makeStale x) := by
  unfold Engine.makeStale
  split
  · exact .ite h.updateClip.signal h
  · exact h

theorem Steady.staleSlot (h : Steady a e) {i : Fin 32} : Steady a (e.staleSlot i) := .foldl (fun _ _ h => h.makeStale) _ h

theorem Steady.bind (h : Steady a e) {x : Handle} {b : Binding} : Steady a (e.bind x b) := by
  unfold Engine.bind
  split
  · exact .ite h.updateClip.makeStale h.updateClip
  · exact h

theorem Steady.applyRules (h : Steady a e) {x : Handle} {k : Byte} {n : Nat} : Steady a (e.applyRules g x k n) := by
  unfold Engine.applyRules
  split
  · refine .ite h ?_
    split
    · exact h.bind
    · exact h
  · exact h

/-! ## The scanner -/

theorem Steady.judgeNumber (h : Steady a e) {x : FrameReport} : Steady a (e.judgeNumber g x) := by
  unfold Engine.judgeNumber
  split
  · exact .ite h h.raiseFault
  · exact h

theorem Steady.judgeTimecode (h : Steady a e) {x : FrameReport} : Steady a (e.judgeTimecode g x) := by
  unfold Engine.judgeTimecode
  split
  · exact h.raiseFault
  · exact h

theorem Steady.judgeFrozen (h : Steady a e) {x : FrameReport} : Steady a (e.judgeFrozen g x) := .ite h.updateScan.raiseFault h.updateScan

theorem Steady.judgeTakeEnd (h : Steady a e) {x : Handle} {c : Fin 32} {n : Nat} {d : Option Nat} :
    Steady a (e.judgeTakeEnd g x c n d) := by
  unfold Engine.judgeTakeEnd
  split
  · exact .ite h h.raiseFault
  · exact h

theorem Steady.framePicture (h : Steady a e) {x : FrameReport} {w ht : Nat} {ps : List Rgb} :
    Steady a (e.framePicture g x w ht ps) := by
  unfold Engine.framePicture
  split
  · exact Steady.updateClip (h.frame rfl)
  · exact h.updateClip

theorem Steady.judgeBlack (h : Steady a e) {l : Fin 2} {f : PendingFrame} : Steady a (e.judgeBlack g l f) :=
  .ite (.ite h.updateScan.raiseFault h.updateScan) h

theorem Steady.sampleComplete (h : Steady a e) {l : Fin 2} : Steady a (e.sampleComplete g l) := by
  unfold Engine.sampleComplete
  split
  · next f _ =>
    have taken : Steady a { e with sampler := e.sampler.set l none } := h.frame rfl
    dsimp only
    split
    · exact (Steady.ite taken.raiseFault taken).judgeBlack
    · exact taken
  · exact h

theorem Steady.clampReport (h : Steady a e) {f : PipelineFrame} : Steady a (e.clampReport g f) := .ite h.raiseFault h

/-! ## The Take Parser's findings -/

theorem Steady.headerValid (h : Steady a e) {x : Handle} {d : Header} : Steady a (e.headerValid g x d) := by
  unfold Engine.headerValid
  split
  · exact .ite h.updateClip h.updateClip.applyRules
  · exact h

theorem Steady.parsedFrame (h : Steady a e) {x : FrameReport} {k : Word32} {b w ht : Nat} {ps : List Rgb} :
    Steady a (e.parsedFrame g x k b w ht ps) := by
  have observed : Steady a (e.updateClip x.clip (fun c => c.observe x.tc)) := h.updateClip
  have words := Steady.ite (p := b = 0) observed (observed.raiseFault (g := g) (f := x.fault .pixelWord (some (b : Int))))
  exact (Steady.ite (p := x.check = k) words (words.raiseFault (g := g) (f := x.fault .frameCheck none))
    ).judgeNumber.judgeTimecode.judgeFrozen.framePicture

theorem Steady.parseOut (h : Steady a e) {l : Fin 2} {x : Handle} {c : Fin 32} {out : ParseOut} :
    Steady a (Engine.parseOut g l x c e out) := by
  cases out with
  | headerValid d => exact h.headerValid
  | headerInvalid n => exact h.raiseFault.updateClip
  | truncated n => exact h.raiseFault
  | frameSize n => exact h.raiseFault.updateLane
  | sizePrefix n tc => exact h.completeFault.updateLane
  | frame n tc k v b ps d prev => exact h.parsedFrame
  | takeEnd n => exact h.judgeTakeEnd.updateLane

theorem Steady.applyParse (h : Steady a e) {l : Fin 2} {p : Parse} {outs : List ParseOut} : Steady a (e.applyParse g l p outs) :=
  .foldl (fun _ _ h => h.parseOut) _ h.updateLane

theorem Steady.feedParser (h : Steady a e) {l : Fin 2} {bs : List Byte} : Steady a (e.feedParser g l bs) := by
  unfold Engine.feedParser
  split
  · exact h.applyParse
  · exact h

theorem Steady.startParse (h : Steady a e) {l : Fin 2} {c : Clip} : Steady a (e.startParse g l c) := h.updateClip.updateScan.applyParse

/-! ## The port arbiter -/

theorem Steady.ask (h : Steady a e) {p : Fin 4} {who : Requester} {r : OpRequest} {e' : Engine} (he : e.ask p who r = some e') :
    Steady a e' := by
  unfold Engine.ask at he
  split at he
  · cases he; exact h.updateDest
  · cases he

/-- A requester asks, or does without. -/
theorem Steady.askOr (h : Steady a e) {p : Fin 4} {who : Requester} {r : OpRequest} : Steady a ((e.ask p who r).getD e) := by
  cases he : e.ask p who r with
  | none => exact h
  | some x => exact h.ask he

theorem Steady.withdraw (h : Steady a e) {who : Requester} : Steady a (e.withdraw who) := .foldl (fun _ _ h => h.updateDest) _ h

theorem Steady.noteFull (h : Steady a e) {p : Fin 4} {r : Reply} : Steady a (e.noteFull p r) := by
  unfold Engine.noteFull
  split
  · exact h.updateVolume
  · exact h

/-! ## Targets and sources of a lane -/

theorem Steady.setTarget (h : Steady a e) {l : Fin 2} {v : Fin 16} {x : TargetStatus} : Steady a (e.setTarget l v x) := h.updateLane

theorem Steady.copyFails (h : Steady a e) {d : Descriptor} {v : Fin 16} {n : Nat} : Steady a (e.copyFails g d v n) := by
  unfold Engine.copyFails
  split
  · exact h.setCopyState.signal.raiseFault
  · exact h

theorem Steady.dropTarget (h : Steady a e) {l : Fin 2} {d : Descriptor} {v : Fin 16} {n : Nat} : Steady a (e.dropTarget g l d v n) :=
  h.setTarget.copyFails

theorem Steady.targetClosed (h : Steady a e) {l : Fin 2} {run : LaneRun} {d : Descriptor} {r : CardRecord} {x : Handle}
    {v : Fin 16} : Steady a (e.targetClosed g l run d r x v) :=
  .ite h.setTarget.changeCopy h.setTarget.changeCopy.raiseFault

theorem Steady.settleDigest (h : Steady a e) {l : Fin 2} {run : LaneRun} {d : Descriptor} {c : Clip} :
    Steady a (e.settleDigest l run d c) :=
  Steady.updateLane (.ite h.updateClip h)

theorem Steady.closeTarget (h : Steady a e) {l : Fin 2} {d : Descriptor} {t : Target} : Steady a (Engine.closeTarget g l d e t) := by
  unfold Engine.closeTarget
  split
  · split
    · next he => exact (h.ask he).setTarget
    · exact h.dropTarget
  · exact h

theorem Steady.closeSource (h : Steady a e) {l : Fin 2} {run : LaneRun} : Steady a (e.closeSource l run) := by
  unfold Engine.closeSource
  split
  · split
    · exact h.askOr.updateLane
    · exact h
  · exact h

theorem Steady.completeCopy (h : Steady a e) {l : Fin 2} {run : LaneRun} {d : Descriptor} {c : Clip} :
    Steady a (e.completeCopy g l run d c) :=
  (Steady.foldl (fun _ _ h => h.closeTarget) _ h.settleDigest.updateLane).closeSource

theorem Steady.askCard (h : Steady a e) {l : Fin 2} {p : Fin 4} {i o n : Nat} {e' : Engine} (he : e.askCard g l p i o n = some e') :
    Steady a e' := by
  unfold Engine.askCard at he
  dsimp only at he
  split at he
  · split at he
    · cases he; exact h.updatePort
    · cases he
  · cases he

theorem Steady.askBlock (h : Steady a e) {l : Fin 2} {run : LaneRun} {d : Descriptor} {c : Clip} {e' : Engine}
    (he : e.askBlock g l run d c = some e') : Steady a e' := by
  unfold Engine.askBlock at he
  dsimp only at he
  split at he
  · split at he
    · exact h.ask he
    · cases he
  · split at he
    · exact h.askCard he
    · cases he

theorem Steady.appendTo (h : Steady a e) {l : Fin 2} {d : Descriptor} {bs : List Byte} {t : Target} :
    Steady a (Engine.appendTo g l d bs e t) := by
  unfold Engine.appendTo
  split
  · split
    · next he => exact (h.ask he).setTarget
    · exact h.dropTarget
  · exact h

theorem Steady.openTarget (h : Steady a e) {l : Fin 2} {d : Descriptor} {t : Text} {v : Fin 16} :
    Steady a (Engine.openTarget g l d t e v) := by
  unfold Engine.openTarget
  split
  · split
    · next he => exact (h.ask he).updateLane
    · exact h.copyFails
  · exact h.copyFails

theorem Steady.openSource (h : Steady a e) {l : Fin 2} {t : Text} {v : Fin 16} {e' : Engine} (he : e.openSource l t v = some e') :
    Steady a e' := by
  unfold Engine.openSource at he
  split at he
  · obtain ⟨x, hx, rfl⟩ := Option.map_eq_some_iff.mp he
    exact (h.ask hx).updateLane
  · cases he

theorem Steady.targetReply (h : Steady a e) {l : Fin 2} {run : LaneRun} {d : Descriptor} {t : Target} {r : Reply} :
    Steady a (e.targetReply g l run d t r) := by
  unfold Engine.targetReply
  cases t.status with
  | opening =>
    cases r with
    | handle w => exact h.setTarget
    | _ => exact h.dropTarget
  | appending w =>
    cases r with
    | ok => exact h.setTarget
    | _ => exact h.dropTarget
  | closing =>
    cases r with
    | ok =>
      dsimp only
      split
      · exact h.targetClosed
      · exact h
    | _ => exact h.dropTarget
  | _ => cases r <;> exact h.dropTarget

theorem Steady.markAbort (h : Steady a e) {c : Fin 32} {l : Fin 2} : Steady a (Engine.markAbort c e l) := by
  unfold Engine.markAbort
  split
  · exact .ite h.updateLane h
  · exact h

/-- The last operation of a DRAINING lane has ended: no lane runs less than before (R82). -/
theorem Steady.settleLane (h : Steady a e) {l : Fin 2} : Steady a (e.settleLane l) := by
  unfold Engine.settleLane
  split
  · next draining =>
    refine .ite h (h.trans ⟨⟨id, rfl, funext fun m => ?_, rfl⟩, rfl, rfl, rfl, rfl⟩)
    unfold Engine.laneSlot Engine.laneRun
    by_cases same : m = l
    · subst same; rw [draining]; simp
    · simp [Fin.val_inj, Ne.symm same]
  · exact h

/-- The last operation of a DRAINING context has ended (R134). -/
theorem Steady.settleContext (h : Steady a e) {c : Fin 2} : Steady a (e.settleContext c) := by
  unfold Engine.settleContext
  split
  · next draining =>
    refine .ite h (h.trans ⟨⟨id, rfl, rfl, rfl⟩, rfl, funext fun d => ?_, funext fun d => ?_, rfl⟩)
    · unfold Engine.runsJob Engine.contextRun Engine.setContextState
      by_cases same : d = c
      · subst same; rw [draining]; simp
      · simp [Fin.val_inj, Ne.symm same]
    · unfold Engine.claimant Engine.setContextState
      by_cases same : d = c
      · subst same; simp
      · simp [Fin.val_inj, Ne.symm same]
  · exact h

/-- A requester learns that none of its operations is in flight any more (R82, R134). -/
theorem Steady.settleRequester (h : Steady a e) {who : Requester} : Steady a (e.settleRequester who) := by
  cases who with
  | lane l => exact h.settleLane
  | context c => exact h.settleContext

theorem Steady.operationDone (h : Steady a e) {p : Fin 4} {r : Reply} : Steady a ((e.noteFull p r).updateDest p DestPort.endOperation) :=
  h.noteFull.updateDest

/-! ## The card ports and the catalogue -/

/-- Clip slots that change leave the queues. -/
theorem Steady.slots (h : Steady a e) {xs : Vector ClipSlot 512} : Steady a { e with clips := xs } := h.frame rfl

theorem Steady.registerTake (h : Steady a e) {c : Fin 32} {x : Fin 512 × Take} : Steady a (Engine.registerTake c e x) :=
  h.slots.updateCard

theorem Steady.registerTakes (h : Steady a e) {c : Fin 32} {ts : List Take} : Steady a (e.registerTakes c ts) := by
  unfold Engine.registerTakes
  exact .foldl (fun _ _ h => h.registerTake) _ h

/-- So does a wait list that changes. -/
theorem Steady.waits (h : Steady a e) {xs : List (Fin 32)} : Steady a { e with waitList := xs } := h.frame rfl

theorem Steady.admitted (h : Steady a e) {c : Fin 32} : Steady a (e.admitted c) := h.updateCard.setCardState.waits

theorem Steady.completeRegistrations {n : Nat} (h : Steady a e) : Steady a (Engine.completeRegistrations n e) := by
  induction n generalizing e with
  | zero => exact h
  | succ n ih =>
    obtain k | ⟨c, ts, -, k⟩ := e.completeRegistrations_succ n <;> rw [k]
    · exact h
    · exact ih h.registerTakes.admitted

theorem Steady.clipsFreed (h : Steady a e) : Steady a e.clipsFreed := by
  unfold Engine.clipsFreed
  exact h.completeRegistrations

theorem Steady.attachCard (h : Steady a e) {p : Fin 4} {c : Fin 32} : Steady a (e.attachCard p c) :=
  h.updateCard.updatePort.drivePort.changeHolds.signal

theorem Steady.detachCard (h : Steady a e) {p : Fin 4} {c : Fin 32} : Steady a (e.detachCard p c) := h.updateCard.drivePort

theorem Steady.createCard (h : Steady a e) {p : Fin 4} {d : Directory} {c : Fin 32} : Steady a (e.createCard p d c) := by
  have made : ∀ s ts, Steady a { e with cards := e.cards.set c (some (CardRecord.made d p s ts)) } := fun _ _ => h.frame rfl
  exact .ite (made _ _).registerTakes.attachCard (Steady.attachCard (h.frame rfl))

theorem Steady.refuseCard (h : Steady a e) {p : Fin 4} : Steady a (e.refuseCard p) := h.updatePort.frame rfl

theorem Steady.handDirectory (h : Steady a e) {p : Fin 4} {d : Directory} : Steady a (e.handDirectory p d) := by
  unfold Engine.handDirectory
  split
  · split
    · exact h.attachCard
    · exact h.refuseCard
  · split
    · exact h.createCard
    · exact h.refuseCard

theorem Steady.reexaminePort (h : Steady a e) {p : Fin 4} : Steady a (e.reexaminePort p) := by
  have erased : Steady a { e with noRecord := e.noRecord.erase p } := h.frame rfl
  unfold Engine.reexaminePort
  dsimp only
  split
  · exact erased.handDirectory
  · exact erased

theorem Steady.reevaluateNoRecord (h : Steady a e) : Steady a e.reevaluateNoRecord := .foldl (fun _ _ h => h.reexaminePort) _ h

theorem Steady.holdForAbsence (h : Steady a e) {c : Fin 32} : Steady a (e.holdForAbsence c) := .ite h.changeHolds h

/-! ## Retire -/

theorem Steady.removeCopy (h : Steady a e) {x : Handle} {r : CopyRecord} : Steady a (Engine.removeCopy x e r) := h.updateClip.settleEntry

theorem Steady.retireOne (h : Steady a e) {c : Clip} : Steady a (e.retireOne c) := by
  have removed : Steady a (c.copies.foldl (Engine.removeCopy c.handle) (e.removeFaults c.handle)) :=
    .foldl (fun _ _ h => h.removeCopy) _ h.removeFaults
  exact removed.slots.updateCard

theorem Steady.freeCardRecord (h : Steady a e) {c : Fin 32} {r : CardRecord} : Steady a (e.freeCardRecord c r) := by
  have freed : Steady a { e with cards := e.cards.set c none } := h.frame rfl
  unfold Engine.freeCardRecord
  dsimp only
  split
  · exact freed.drivePort
  · exact freed

theorem Steady.handOver (h : Steady a e) {p : Fin 4} : Steady a (e.handOver p) := by
  unfold Engine.handOver
  split
  · exact h.updatePort.handDirectory
  · exact h

theorem Steady.afterRetire (h : Steady a e) {c : Fin 32} : Steady a (e.afterRetire c) := by
  unfold Engine.afterRetire
  split
  · next r _ =>
    split
    · have left : Steady a (e.freeCardRecord c r).clipsFreed.reevaluateNoRecord := h.freeCardRecord.clipsFreed.reevaluateNoRecord
      dsimp only
      split
      · exact left.handOver
      · exact left
    · exact h.clipsFreed
  · exact h

end Sys2Proof.Machine
end

