-- ==== Sys2Proof/Proofs/KeptRenders.lean ====
section
/-!
SUPPORT. Changes that keep the invariants of O27, and the Render Engine's among them: how a job ends, is suspended and starts, and so how
the contexts go on, are answered and lose a volume.
-/

namespace Sys2Proof.Machine

/-- From `a` on the invariants of O27 have been kept; `own` is a lane whose descriptor has left the queue and which is still to be
released (R82, R93). -/
structure Kept (own : Option (Fin 2)) (a e : Engine) : Prop where
  faults : a.faultsFit → e.faultsFit
  queue : a.queueFits none → e.queueFits own
  renders : a.rendersFit → e.rendersFit
  requeues : RequeuesFit a.requeues → RequeuesFit e.requeues

section
variable {own : Option (Fin 2)} {a e : Engine} {g : Settings}

theorem Kept.refl (a : Engine) : Kept none a a := ⟨id, id, id, id⟩

theorem Kept.trans {b : Engine} (h : Kept none a b) (k : Kept own b e) : Kept own a e :=
  ⟨k.faults ∘ h.faults, k.queue ∘ h.queue, k.renders ∘ h.renders, k.requeues ∘ h.requeues⟩

/-- A change that leaves the copy queue, the lanes and the pending requeues keeps the invariants where it keeps the render queue legal. -/
theorem Kept.aside (h : Kept own a e) {e' : Engine} (k : Aside e e') (r : a.rendersFit → e'.rendersFit) : Kept own a e' where
  faults := k.faults ∘ h.faults
  queue ha := by
    have := h.queue ha
    unfold Engine.queueFits at this ⊢
    rw [k.berths, k.lanes]
    exact this
  renders := r
  requeues ha := by
    rw [k.requeues]
    exact h.requeues ha

theorem Kept.steady (h : Kept own a e) {e' : Engine} (k : Steady e e') : Kept own a e' := h.aside k.toAside (k.rendersFit ∘ h.renders)

/-- A fold of changes that keep the invariants. -/
theorem Kept.foldl {α : Type} {f : Engine → α → Engine} (hf : ∀ e x, Kept own a e → Kept own a (f e x)) (xs : List α) (h : Kept own a e) :
    Kept own a (xs.foldl f e) := by
  induction xs generalizing e with
  | nil => exact h
  | cons x xs ih => exact ih (hf e x h)

/-- A change that is made or not. -/
theorem Kept.ite {p : Prop} [Decidable p] {x y : Engine} (hx : Kept own a x) (hy : Kept own a y) : Kept own a (if p then x else y) := by
  split <;> assumption

theorem Kept.signal (h : Kept own a e) {ev : Event} : Kept own a (e.signal ev) := h.steady (Steady.refl e).signal

theorem Kept.updateContext (h : Kept own a e) {c : Fin 2} {f : ContextRun → ContextRun} : Kept own a (e.updateContext c f) :=
  h.steady (Steady.refl e).updateContext

theorem Kept.updateJob (h : Kept own a e) {j : Fin 16} {f : Job → Job} (hf : ∀ x, (f x).post = x.post := by exact fun _ => rfl) :
    Kept own a (e.updateJob j f) := h.steady ((Steady.refl e).updateJob hf)

theorem Kept.updateMonitor (h : Kept own a e) {f : MonitorOut → MonitorOut}
    (hf : (f e.monitor).cue.job = e.monitor.cue.job := by rfl) : Kept own a (e.updateMonitor f) := h.steady ((Steady.refl e).updateMonitor hf)

theorem Kept.ask (h : Kept own a e) {p : Fin 4} {who : Requester} {r : OpRequest} {e' : Engine} (he : e.ask p who r = some e') :
    Kept own a e' := h.steady ((Steady.refl e).ask he)

/-- A requester asks, or something else happens. -/
theorem Kept.askOr (h : Kept own a e) {d : Engine} (hd : Kept own a d) {p : Fin 4} {who : Requester} {r : OpRequest} :
    Kept own a ((e.ask p who r).getD d) := by
  cases he : e.ask p who r with
  | none => exact hd
  | some x => exact h.ask he

/-! ## The contexts and the claims -/

/-- The job that a context runs in a state. -/
def ContextState.runs : ContextState → Option (Fin 16)
  | .running j _ => some j
  | .idle => none
  | .draining => none

theorem Engine.runsJob_eq (c : Fin 2) : e.runsJob c = (e.contexts[c]).state.runs := by
  unfold Engine.runsJob Engine.contextRun
  cases (e.contexts[c]).state <;> rfl

theorem Engine.setContextState_runsJob (c : Fin 2) (x : ContextState) (d : Fin 2) :
    (e.setContextState c x).runsJob d = if d = c then x.runs else e.runsJob d := by
  rw [Engine.runsJob_eq, Engine.runsJob_eq, Engine.setContextState]
  by_cases same : d = c
  · subst same; simp
  · simp [Fin.val_inj, Ne.symm same, same]

theorem Engine.setContextState_claimant (c : Fin 2) (x : ContextState) (d : Fin 2) : (e.setContextState c x).claimant d = e.claimant d := by
  unfold Engine.claimant Engine.setContextState
  by_cases same : d = c
  · subst same; simp
  · simp [Fin.val_inj, Ne.symm same]

theorem Engine.setClaim_runsJob (c : Fin 2) (j : Option (Fin 16)) (d : Fin 2) : (e.setClaim c j).runsJob d = e.runsJob d := by
  rw [Engine.runsJob_eq, Engine.runsJob_eq, Engine.setClaim]
  by_cases same : d = c
  · subst same; simp
  · simp [Fin.val_inj, Ne.symm same]

theorem Engine.setClaim_claimant (c : Fin 2) (j : Option (Fin 16)) (d : Fin 2) :
    (e.setClaim c j).claimant d = if d = c then j else e.claimant d := by
  unfold Engine.claimant Engine.setClaim
  by_cases same : d = c
  · subst same; simp
  · simp [Fin.val_inj, Ne.symm same, same]

/-- The context that carries a job is the one that runs it. -/
theorem Engine.contextOf_some {j : Fin 16} {c : Fin 2} (h : e.contextOf j = some c) : e.runsJob c = some j := by
  unfold Engine.contextOf at h
  exact of_decide_eq_true (List.find?_some h :)

theorem Engine.contextOf_none {j : Fin 16} (h : e.contextOf j = none) (c : Fin 2) : e.runsJob c ≠ some j := by
  unfold Engine.contextOf at h
  exact fun hc => List.find?_eq_none.mp h c (List.mem_finRange c) (decide_eq_true hc)

theorem Engine.claimOf_some {j : Fin 16} {c : Fin 2} (h : e.claimOf j = some c) : e.claimant c = some j := by
  unfold Engine.claimOf at h
  exact of_decide_eq_true (List.find?_some h :)

theorem Engine.claimOf_none {j : Fin 16} (h : e.claimOf j = none) (c : Fin 2) : e.claimant c ≠ some j := by
  unfold Engine.claimOf at h
  exact fun hc => List.find?_eq_none.mp h c (List.mem_finRange c) (decide_eq_true hc)

/-- One slot of two that is emptied, of two in which a job stands at most once. -/
theorem unlessJob_only {x : Fin 2 → Option (Fin 16)} {c : Fin 2} {j : Fin 16} (apart : ∀ c d k, x c = some k → x d = some k → c = d)
    (hc : x c = some j) (d : Fin 2) : (if d = c then none else x d) = unlessJob j (x d) := by
  unfold unlessJob
  by_cases same : d = c
  · subst same; rw [if_pos rfl, if_pos hc]
  · rw [if_neg same, if_neg fun hd => same (apart d c j hd hc)]

theorem unlessJob_absent {x : Option (Fin 16)} {j : Fin 16} (h : x ≠ some j) : unlessJob j x = x := if_neg h

/-! ## The end of a job -/

/-- A frame of a context in the pipeline is abandoned (R126). -/
def Engine.frameAbandoned (e : Engine) (c : Fin 2) : Engine :=
  match e.pipeline with
  | some f => if f.context = c then { e with pipeline := none } else e
  | none => e

/-- How a context is released: its frame is abandoned, what waits is withdrawn, and its state changes (R126, R134). -/
theorem Engine.releaseContext_eq (c : Fin 2) : ∃ x : ContextState, x.runs = none ∧
    e.releaseContext c = ((e.frameAbandoned c).withdraw (.context c)).setContextState c x := by
  refine ⟨if ((e.frameAbandoned c).withdraw (.context c)).inFlight (.context c) then .draining else .idle, ?_, rfl⟩
  split <;> rfl

theorem Steady.frameAbandoned (h : Steady a e) {c : Fin 2} : Steady a (e.frameAbandoned c) := by
  unfold Engine.frameAbandoned
  split
  · exact .ite (h.frame rfl) h
  · exact h

/-- What the release of a context leaves. -/
structure Released (c : Fin 2) (a b : Engine) : Prop extends Aside a b where
  posts : b.posts = a.posts
  runs : ∀ d, b.runsJob d = if d = c then none else a.runsJob d
  claims : ∀ d, b.claimant d = a.claimant d
  cue : b.monitor.cue.job = a.monitor.cue.job

theorem Engine.releaseContext_released (e : Engine) (c : Fin 2) : Released c e (e.releaseContext c) := by
  obtain ⟨x, hx, k⟩ := e.releaseContext_eq c
  have withdrawn : Steady e ((e.frameAbandoned c).withdraw (.context c)) := (Steady.refl e).frameAbandoned.withdraw
  rw [k]
  refine ⟨withdrawn.toAside.frame rfl, withdrawn.posts, fun d => ?_, fun d => ?_, withdrawn.cue⟩
  · rw [Engine.setContextState_runsJob, hx, withdrawn.runs]
  · rw [Engine.setContextState_claimant, withdrawn.claims]

/-- What the end of a job leaves: it is gone from the queue, its context, its claim and the cue. -/
structure Ended (j : Fin 16) (a b : Engine) : Prop extends Aside a b where
  posts : b.posts = a.posts.filter (fun x => decide (x.slot ≠ j))
  runs : a.rendersFit → ∀ c, b.runsJob c = unlessJob j (a.runsJob c)
  claims : a.rendersFit → ∀ c, b.claimant c = unlessJob j (a.claimant c)
  cue : a.rendersFit → b.monitor.cue.job = unlessJob j a.monitor.cue.job

theorem Ended.rendersFit {j : Fin 16} {b : Engine} (h : Ended j a b) (k : a.rendersFit) : b.rendersFit := by
  have left := RendersFit.leave k j
  unfold Engine.rendersFit
  rw [h.posts, h.cue k, funext (h.runs k), funext (h.claims k)]
  exact left

/-- Where no job stands in a slot, nothing is to be ended. -/
theorem Ended.absent {j : Fin 16} (h : e.job j = none) : Ended j e e := by
  have free : ∀ x ∈ e.posts, x.slot ≠ j := by
    intro x hx
    obtain ⟨y, hy, rfl⟩ := List.mem_map.mp hx
    simpa [Job.post] using List.find?_eq_none.mp h y hy
  refine ⟨.refl e, ?_, fun k c => (unlessJob_absent fun hc => ?_).symm, fun k c => (unlessJob_absent fun hc => ?_).symm,
    fun k => (unlessJob_absent fun hc => ?_).symm⟩
  · exact (List.filter_eq_self.mpr fun x hx => decide_eq_true (free x hx)).symm
  · exact free _ (k.runs c j hc) rfl
  · exact free _ (k.claims c j hc) rfl
  · obtain ⟨x, hx, same⟩ := k.cue j hc
    exact free x hx same

/-- The Monitor Output told of a job's end loses it from the cue (R158). -/
theorem MonitorOut.ended_cue (m : MonitorOut) (j : Fin 16) : ((m.dropFilling j).jobEnded j).cue.job = unlessJob j m.cue.job := by
  have dropped : (m.dropFilling j).cue = m.cue := by
    unfold MonitorOut.dropFilling
    split
    · split <;> rfl
    · rfl
  unfold MonitorOut.jobEnded unlessJob
  rw [dropped]
  split
  · rfl
  · rw [dropped]

theorem Steady.updateRenderState (h : Steady a e) {j : Job} {x : JobEnd} : Steady a (e.updateRenderState g j x) := by
  unfold Engine.updateRenderState
  split
  · exact .ite h.updateClip.signal h.updateClip
  · exact h

/-- The end of a job up to the Monitor Output (R128, R158). -/
def Engine.jobTold (g : Settings) (e : Engine) (job : Job) (j : Fin 16) (x : JobEnd) : Engine :=
  let e := { e with jobs := e.jobs.filter (fun y => decide (y.slot ≠ j)) }
  let e := if job.isProxy then e.updateRenderState g job x else e
  e.updateMonitor (fun m => (m.dropFilling j).jobEnded j)

/-- The context that carried a job is released. -/
def Engine.givenUp (e : Engine) : Option (Fin 2) → Engine
  | some c => e.releaseContext c
  | none => e

/-- The claim of a job lapses. -/
def Engine.lapsed (e : Engine) : Option (Fin 2) → Engine
  | some c => e.setClaim c none
  | none => e

/-- How a job ends: from the queue and the cue, then from its context and its claim (R128). -/
theorem Engine.endJob_eq {j : Fin 16} {job : Job} (h : e.job j = some job) (x : JobEnd) : e.endJob g j x =
    (((e.jobTold g job j x).givenUp (e.contextOf j)).lapsed (e.claimOf j)).signal (job.endEvent x) := by
  unfold Engine.endJob
  rw [h]
  cases e.contextOf j <;> cases e.claimOf j <;> rfl

theorem Engine.jobTold_views (e : Engine) (job : Job) (j : Fin 16) (x : JobEnd) : Aside e (e.jobTold g job j x) ∧
    (e.jobTold g job j x).posts = e.posts.filter (fun x => decide (x.slot ≠ j)) ∧ (e.jobTold g job j x).runsJob = e.runsJob ∧
    (e.jobTold g job j x).claimant = e.claimant ∧ (e.jobTold g job j x).monitor.cue.job = unlessJob j e.monitor.cue.job := by
  have stated : Steady { e with jobs := e.jobs.filter (fun y => decide (y.slot ≠ j)) } (if job.isProxy then
      Engine.updateRenderState g { e with jobs := e.jobs.filter (fun y => decide (y.slot ≠ j)) } job x else
      { e with jobs := e.jobs.filter (fun y => decide (y.slot ≠ j)) }) := .ite (Steady.refl _).updateRenderState (.refl _)
  refine ⟨(((Aside.refl e).frame rfl).trans stated.toAside).frame rfl, ?_, stated.runs, stated.claims, ?_⟩
  · refine stated.posts.trans ?_
    simp only [Engine.posts, List.filter_map]
    rfl
  · refine (MonitorOut.ended_cue _ j).trans (congrArg _ stated.cue)

theorem Engine.givenUp_views (b : Engine) (j : Fin 16) (same : b.runsJob = e.runsJob) : Aside b (b.givenUp (e.contextOf j)) ∧
    (b.givenUp (e.contextOf j)).posts = b.posts ∧
    (e.rendersFit → ∀ c, (b.givenUp (e.contextOf j)).runsJob c = unlessJob j (e.runsJob c)) ∧
    (b.givenUp (e.contextOf j)).claimant = b.claimant ∧ (b.givenUp (e.contextOf j)).monitor.cue.job = b.monitor.cue.job := by
  cases hc : e.contextOf j with
  | none => exact ⟨.refl b, rfl, fun _ c => (congrFun same c).trans (unlessJob_absent (Engine.contextOf_none hc c)).symm, rfl, rfl⟩
  | some c =>
    have r := b.releaseContext_released c
    refine ⟨r.toAside, r.posts, fun k d => (r.runs d).trans ?_, funext r.claims, r.cue⟩
    rw [same]
    exact unlessJob_only k.apart (Engine.contextOf_some hc) d

theorem Engine.lapsed_views (b : Engine) (j : Fin 16) (same : b.claimant = e.claimant) : Aside b (b.lapsed (e.claimOf j)) ∧
    (b.lapsed (e.claimOf j)).posts = b.posts ∧ (b.lapsed (e.claimOf j)).runsJob = b.runsJob ∧
    (e.rendersFit → ∀ c, (b.lapsed (e.claimOf j)).claimant c = unlessJob j (e.claimant c)) ∧
    (b.lapsed (e.claimOf j)).monitor.cue.job = b.monitor.cue.job := by
  cases hc : e.claimOf j with
  | none => exact ⟨.refl b, rfl, rfl, fun _ c => (congrFun same c).trans (unlessJob_absent (Engine.claimOf_none hc c)).symm, rfl⟩
  | some c =>
    refine ⟨(Aside.refl b).frame rfl, rfl, funext (b.setClaim_runsJob c none), fun k d => (b.setClaim_claimant c none d).trans ?_, rfl⟩
    rw [same]
    exact unlessJob_only k.claimsApart (Engine.claimOf_some hc) d

theorem Engine.endJob_ended (e : Engine) (j : Fin 16) (x : JobEnd) : Ended j e (e.endJob g j x) := by
  cases found : e.job j with
  | none =>
    rw [Engine.endJob, found]
    exact .absent found
  | some job =>
    obtain ⟨told, posts, runs, claims, cue⟩ := e.jobTold_views (g := g) job j x
    rw [Engine.endJob_eq found]
    obtain ⟨given, posts', runs', claims', cue'⟩ := Engine.givenUp_views (e.jobTold g job j x) j runs
    obtain ⟨lapses, posts'', runs'', claims'', cue''⟩ :=
      Engine.lapsed_views ((e.jobTold g job j x).givenUp (e.contextOf j)) j (claims'.trans claims)
    exact ⟨((told.trans given).trans lapses).frame rfl, posts''.trans (posts'.trans posts),
      fun k c => (congrFun runs'' c).trans (runs' k c), claims'', fun _ => cue''.trans (cue'.trans cue)⟩

theorem Kept.endJob (h : Kept own a e) {j : Fin 16} {x : JobEnd} : Kept own a (e.endJob g j x) :=
  h.aside (e.endJob_ended j x).toAside ((e.endJob_ended j x).rendersFit ∘ h.renders)

end
end Sys2Proof.Machine
end

