-- ==== Sys2Proof/Proofs/KeptMoves.lean ====
section
/-!
SUPPORT. The Render Engine keeps the invariants of O27: the ends, suspensions and starts of its jobs, the moves of its contexts, the
answers and losses that reach them, the requests of renders and cues, and the syncs.
-/

namespace Sys2Proof.Machine

variable {own : Option (Fin 2)} {a e : Engine} {g : Settings}

/-! ## The ends of jobs -/

theorem Kept.endContextJob (h : Kept own a e) {c : Fin 2} {x : JobEnd} : Kept own a (e.endContextJob g c x) := by
  unfold Engine.endContextJob
  split
  · exact h.endJob
  · exact h

theorem Kept.failContext (h : Kept own a e) {c : Fin 2} {x : EndCause} : Kept own a (e.failContext g c x) := h.endContextJob

/-- A context asks a port for an operation, or its job fails. -/
theorem Kept.askOrFail (h : Kept own a e) {p : Fin 4} {c : Fin 2} {r : OpRequest} {x : EndCause} :
    Kept own a ((e.ask p (.context c) r).getD (e.failContext g c x)) := h.askOr h.failContext

theorem Kept.cancelJob (h : Kept own a e) {j : Fin 16} : Kept own a (e.cancelJob g j) := by
  unfold Engine.cancelJob
  dsimp only
  split
  · exact .ite h.updateJob h.updateJob.endJob
  · exact h.updateJob.endJob

theorem Steady.countAppend (h : Steady a e) {c : Fin 2} {j : Fin 16} : Steady a (e.countAppend c j) := by
  unfold Engine.countAppend
  dsimp only
  split
  · exact h.updateJob
  · exact h

/-- A job's update turns its post. -/
theorem Engine.updateJob_posts (j : Fin 16) (b : Bool) {f : Job → Job} (hf : ∀ x : Job, (f x).post = ⟨x.slot, b⟩) :
    (e.updateJob j f).posts = e.posts.map (Post.turned j b) := by
  simp only [Engine.posts, Engine.updateJob, List.map_map]
  refine List.map_congr_left fun x _ => ?_
  simp only [Function.comp, Post.turned]
  split
  · next same => exact (hf x).trans (if_pos same).symm
  · next other => exact (if_neg other).symm

/-- A context that runs a job, by its slot. -/
theorem Engine.runsJob_of_run {c : Fin 2} {j : Fin 16} {run : ContextRun} (h : e.contextRun c = some (j, run)) : e.runsJob c = some j := by
  unfold Engine.runsJob
  rw [h]
  rfl

/-- A job suspended is one that waits, at the head of the queue (R133). -/
def Engine.suspended (e : Engine) (c : Fin 2) (j : Fin 16) : Engine :=
  let e := (e.countAppend c j).updateJob j (fun x => { x with state := .suspended, suspendMark := false })
  { e with jobs := e.jobs.filter (fun x : Job => decide (x.slot = j)) ++ e.jobs.filter (fun x : Job => decide (x.slot ≠ j)) }

theorem Engine.suspended_posts (c : Fin 2) (j : Fin 16) : (e.suspended c j).posts.Perm (e.posts.map (Post.turned j false)) := by
  have counted : Steady e (e.countAppend c j) := (Steady.refl e).countAppend
  rw [← counted.posts, ← Engine.updateJob_posts (f := fun x => { x with state := .suspended, suspendMark := false }) j false fun _ => rfl]
  refine List.Perm.map _ ?_
  have split := List.filter_append_perm (fun x : Job => decide (x.slot = j))
    ((e.countAppend c j).updateJob j (fun x => { x with state := .suspended, suspendMark := false })).jobs
  simpa [Engine.suspended] using split

theorem Kept.suspendContext (h : Kept own a e) {c : Fin 2} : Kept own a (e.suspendContext c) := by
  unfold Engine.suspendContext
  split
  · next j run running =>
    have counted : Steady e (e.countAppend c j) := (Steady.refl e).countAppend
    have released := (e.suspended c j).releaseContext_released c
    have ran := Engine.runsJob_of_run running
    refine h.aside ((counted.toAside.frame (e' := e.suspended c j) rfl).trans released.toAside) fun k => ?_
    have k := h.renders k
    have left := k.suspend ran (e.suspended_posts c j)
    have runs : ∀ d, ((e.suspended c j).releaseContext c).runsJob d = unlessJob j (e.runsJob d) := fun d => by
      rw [released.runs, ← unlessJob_only k.apart ran d]
      exact congrArg _ (congrFun counted.runs d)
    have claims : ((e.suspended c j).releaseContext c).claimant = e.claimant := (funext released.claims).trans counted.claims
    have cue : ((e.suspended c j).releaseContext c).monitor.cue.job = e.monitor.cue.job := released.cue.trans counted.cue
    rw [← released.posts, ← funext runs, ← claims, ← cue] at left
    exact left
  · exact h

/-! ## Starts -/

/-- A job that waits and claims no context, but perhaps the given one, can be started there (R134). -/
def Engine.startable (e : Engine) (c : Fin 2) (j : Fin 16) : Prop := ⟨j, false⟩ ∈ e.posts ∧ ∀ d, d ≠ c → e.claimant d ≠ some j

/-- A context has taken a job, and its claim has gone (R134, R135). -/
def Engine.taken (e : Engine) (c : Fin 2) (j : Fin 16) (snapshot : Option Snapshot) (run : ContextRun) : Engine :=
  ({ (e.updateJob j (fun x => { x with state := .running, suspendMark := false, snapshot := snapshot })).setContextState c (.running j run) with
    lastJobGrant := c } : Engine).setClaim c none

theorem Kept.taken (h : Kept own a e) {c : Fin 2} {j : Fin 16} (idle : e.runsJob c = none) (hj : a.rendersFit → e.startable c j)
    (snapshot : Option Snapshot) (run : ContextRun) : Kept own a (e.taken c j snapshot run) := by
  refine h.aside ((Aside.refl e).frame rfl) fun k => ?_
  obtain ⟨waits, unclaimed⟩ := hj k
  have posts : (e.taken c j snapshot run).posts = e.posts.map (Post.turned j true) := Engine.updateJob_posts j true fun _ => rfl
  have runs : ∀ d, (e.taken c j snapshot run).runsJob d = if d = c then some j else e.runsJob d := fun d =>
    (Engine.setClaim_runsJob ..).trans (Engine.setContextState_runsJob ..)
  have claims : ∀ d, (e.taken c j snapshot run).claimant d = if d = c then none else e.claimant d := fun d =>
    (Engine.setClaim_claimant ..).trans (if_congr Iff.rfl rfl (Engine.setContextState_claimant ..))
  have start := (h.renders k).start idle waits unclaimed
  rw [← posts, ← funext runs, ← funext claims] at start
  exact start

/-- A claim lapses. -/
theorem Kept.unclaim (h : Kept own a e) {c : Fin 2} : Kept own a (e.setClaim c none) := by
  refine h.aside ((Aside.refl e).frame rfl) fun k => ?_
  have left := (h.renders k).unclaim c
  rw [← funext (e.setClaim_claimant c none), ← funext (e.setClaim_runsJob c none)] at left
  exact left

theorem Kept.startJob (h : Kept own a e) {c : Fin 2} {j : Fin 16} (idle : e.runsJob c = none) (hj : a.rendersFit → e.startable c j) :
    Kept own a (e.startJob g c j) := by
  unfold Engine.startJob
  split
  case h_2 => exact h.unclaim
  case h_1 job _ =>
    have taken := h.taken idle hj
    dsimp only
    split
    · exact (taken _ _).failContext
    · exact (taken _ _).askOrFail
    · exact (taken _ _).failContext

theorem Kept.grantContext (h : Kept own a e) {c : Fin 2} {e' : Engine} (he : e.grantContext g c = some e') : Kept own a e' := by
  unfold Engine.grantContext at he
  split at he
  · next state =>
    have idle : e.runsJob c = none := by rw [Engine.runsJob_eq, state]; rfl
    split at he
    · next j claim =>
      cases he
      refine h.startJob idle fun k => ⟨(h.renders k).claims c j claim, fun d other hd => other ((h.renders k).claimsApart d c j hd claim)⟩
    · split at he
      · cases he
      · obtain ⟨job, found, rfl⟩ := Option.map_eq_some_iff.mp he
        have next := List.find?_some found
        simp only [Bool.and_eq_true, decide_eq_true_eq, Option.isNone_iff_eq_none] at next
        refine h.startJob idle fun _ => ⟨?_, fun d _ => Engine.claimOf_none next.2 d⟩
        exact List.mem_map.mpr ⟨job, List.mem_of_find?_eq_some found, by simp [Job.post, next.1]⟩
  · cases he

/-! ## Proxies, range ends and frame boundaries -/

theorem Kept.sendAppend (h : Kept own a e) {c : Fin 2} : Kept own a (e.sendAppend g c) := by
  unfold Engine.sendAppend
  split
  · split
    · split
      · exact h.askOrFail
      · exact h.failContext
    · exact h
  · exact h

theorem Kept.appendChunk (h : Kept own a e) {c : Fin 2} {ph : ContextPhase} {bs : List Byte} : Kept own a (e.appendChunk g c ph bs) :=
  h.updateContext.sendAppend

theorem Kept.closeSent (h : Kept own a e) {c : Fin 2} {e' : Engine} (he : e.closeSent g c = some e') : Kept own a e' := by
  unfold Engine.closeSent at he
  split at he
  · split at he
    · cases he; exact h.endContextJob
    · cases he
  · cases he

theorem Kept.sourceClosed (h : Kept own a e) {c : Fin 2} : Kept own a (e.sourceClosed g c) := by
  unfold Engine.sourceClosed
  split
  · split
    · split
      · split
        · exact h.updateContext.askOrFail
        · exact h.failContext
      · exact h.endContextJob
    · exact h
  · exact h

theorem Kept.closeRenderSource (h : Kept own a e) {c : Fin 2} {run : ContextRun} : Kept own a (e.closeRenderSource g c run) := by
  unfold Engine.closeRenderSource
  dsimp only
  split
  · next x hx =>
    obtain ⟨w, -, hw⟩ := Option.bind_eq_some_iff.mp hx
    have asked : Kept own a x := h.updateContext.ask hw
    cases hc : x.closeSent g c with
    | none => exact asked
    | some y => exact asked.closeSent hc
  · exact h.updateContext.sourceClosed

theorem Kept.rangeEnd (h : Kept own a e) {c : Fin 2} : Kept own a (e.rangeEnd g c) := by
  unfold Engine.rangeEnd
  split
  · split
    · exact .ite h.updateJob.updateContext h.closeRenderSource
    · exact h
  · exact h

theorem Kept.frameBoundary (h : Kept own a e) {c : Fin 2} : Kept own a (e.frameBoundary g c) := by
  unfold Engine.frameBoundary
  split
  · split
    · exact .ite h.endJob (.ite h.suspendContext (.ite h.rangeEnd h))
    · exact h
  · exact h

theorem Kept.frameDelivered (h : Kept own a e) {c : Fin 2} : Kept own a (e.frameDelivered g c) := by
  unfold Engine.frameDelivered
  split
  · split
    · exact h.updateJob.updateContext.frameBoundary
    · exact h
  · exact h

/-! ## The walk -/

theorem Kept.updateWalk (h : Kept own a e) {c : Fin 2} {f : RenderWalk → RenderWalk} : Kept own a (e.updateWalk c f) := h.updateContext

theorem Kept.needBytes (h : Kept own a e) {c : Fin 2} {run : ContextRun} {e' : Engine} (he : e.needBytes g c run = some e') :
    Kept own a e' := by
  unfold Engine.needBytes at he
  split at he
  · cases he
  · split at he
    · cases he; exact h.askOrFail
    · cases he

theorem Kept.walkEnd (h : Kept own a e) {c : Fin 2} {run : ContextRun} : Kept own a (e.walkEnd g c run) := by
  unfold Engine.walkEnd
  split
  · exact h.rangeEnd
  · exact h.failContext

theorem Kept.walkHeader (h : Kept own a e) {c : Fin 2} {j : Fin 16} {bs : List Byte} : Kept own a (e.walkHeader g c j bs) := by
  unfold Engine.walkHeader
  split
  · dsimp only
    split
    · exact .ite h.updateWalk h.updateWalk.appendChunk
    · exact h.updateWalk
  · exact h.failContext

theorem Kept.walkChunk (h : Kept own a e) {c : Fin 2} {j : Fin 16} {run : ContextRun} {bs : List Byte} :
    Kept own a (e.walkChunk g c j run bs) :=
  .ite (.ite (.ite h.updateWalk.walkHeader h.updateWalk.updateWalk) h.updateWalk.failContext)
    (.ite h.updateWalk.updateWalk h.updateWalk.walkEnd)

theorem Kept.walkFrame (h : Kept own a e) {c : Fin 2} {j : Fin 16} {bs : List Byte} : Kept own a (e.walkFrame c j bs) := by
  unfold Engine.walkFrame
  split
  · exact .ite h.updateWalk.updateJob.updateContext h.updateWalk.updateWalk
  · exact h

/-- The Monitor Output keeps its cue as a frame is filled and completed (R154, R155). -/
theorem MonitorOut.completeFrame_cue (m : MonitorOut) (j : Fin 16) (n : Word32) (tc : Timecode) : (m.completeFrame j n tc).cue = m.cue := by
  unfold MonitorOut.completeFrame
  split
  · split <;> rfl
  · rfl

theorem MonitorOut.writePixels_cue (m : MonitorOut) (s : Decimation) (j : Fin 16) (x : Handle) (c : Fin 32) (w ht k : Nat) (ps : List Rgb) :
    (m.writePixels s j x c w ht k ps).cue = m.cue := by
  unfold MonitorOut.writePixels
  split
  · rfl
  · split <;> rfl

/-- The Grade Pipeline's frame changes. -/
theorem Kept.piped (h : Kept own a e) {f : Option PipelineFrame} : Kept own a { e with pipeline := f } := h.steady ((Steady.refl e).frame rfl)

theorem Kept.frameComplete (h : Kept own a e) {c : Fin 2} {j : Fin 16} {f : PipelineFrame} : Kept own a (e.frameComplete g c j f) := by
  have report : Kept own a { e.clampReport g f with pipeline := none } := (h.steady (Steady.refl e).clampReport).piped
  have shown := Kept.ite (p := Engine.isMonitorJob { e.clampReport g f with pipeline := none } j = true)
    (report.updateMonitor (f := fun m => m.completeFrame j f.number f.tc) (congrArg _ (MonitorOut.completeFrame_cue ..))) report
  unfold Engine.frameComplete
  dsimp only
  split
  · exact .ite shown.updateWalk.updateContext.appendChunk shown.updateWalk.frameDelivered
  · exact shown.updateWalk

theorem Kept.gradeBytes (h : Kept own a e) {c : Fin 2} {j : Fin 16} {run : ContextRun} {f : PipelineFrame} {d : Header}
    {s : Snapshot} : Kept own a (e.gradeBytes g c j run f d s) := by
  unfold Engine.gradeBytes
  dsimp only
  generalize ({ f with graded := _, clamped := _ } : PipelineFrame) = f'
  have held : Kept own a { e with pipeline := some f' } := h.piped
  have written := held.updateMonitor (f := fun m => m.writePixels g.monitor.decimation j f.clip f.card f.width f.height f.graded
    (((decodePixels d.depth (run.pixelBytes ++ run.buffer.take (min run.walk.left run.buffer.length)).length
      (run.pixelBytes ++ run.buffer.take (min run.walk.left run.buffer.length))).1.map (gradePixel s.params)).map (·.1)))
    (congrArg _ (MonitorOut.writePixels_cue ..))
  exact .ite (Kept.frameComplete (Kept.updateContext (.ite written held))) (Kept.updateContext (.ite written held))

theorem Kept.walkOn (h : Kept own a e) {c : Fin 2} {j : Fin 16} {run : ContextRun} {e' : Engine}
    (he : e.walkOn g c j run = some e') : Kept own a e' := by
  unfold Engine.walkOn at he
  dsimp only at he
  split at he
  case h_1 =>
    split at he
    · cases he; exact h.walkEnd
    · split at he
      · exact h.needBytes he
      · cases he; exact .ite h.updateContext h.updateContext.walkChunk
  case h_2 =>
    split at he
    · exact h.needBytes he
    · cases he; exact .ite h.updateContext.walkHeader (.ite h.updateContext.failContext h.updateContext)
  case h_3 =>
    split at he
    · exact h.needBytes he
    · cases he; exact .ite h.updateContext h.updateContext.walkFrame
  case h_4 =>
    split at he
    · exact h.needBytes he
    · cases he; exact h.updateContext
  case h_5 =>
    split at he
    · split at he
      · exact h.needBytes he
      · cases he; exact h.gradeBytes
    · cases he

/-! ## The grants and the moves -/

theorem Kept.grantPipeline (h : Kept own a e) {e' : Engine} (he : e.grantPipeline = some e') : Kept own a e' := by
  unfold Engine.grantPipeline at he
  split at he
  · split at he
    · split at he
      · cases he; exact Kept.updateContext (h.steady ((Steady.refl e).frame rfl))
      · cases he
    · cases he
  · cases he

theorem Kept.contextMove (h : Kept own a e) {c : Fin 2} {e' : Engine} (he : e.contextMove g c = some e') : Kept own a e' := by
  unfold Engine.contextMove at he
  split at he
  · split at he
    · exact h.walkOn he
    · exact h.closeSent he
  · cases he

theorem Kept.renderMove (h : Kept own a e) {e' : Engine} (he : e.renderMove g = some e') : Kept own a e' := by
  simp only [Engine.renderMove, Option.or_eq_some_iff] at he
  rcases he with he | ⟨-, he | ⟨-, he | ⟨-, he | ⟨-, he⟩⟩⟩⟩
  · exact h.grantContext he
  · exact h.grantContext he
  · exact h.grantPipeline he
  · exact h.contextMove he
  · exact h.contextMove he

theorem Kept.drive {n : Nat} (h : Kept own a e) : Kept own a (Engine.drive g n e) := by
  induction n generalizing e with
  | zero => exact h
  | succ n ih =>
    unfold Engine.drive
    split
    · next he => exact ih (h.renderMove he)
    · exact h

theorem Kept.settleRender (h : Kept own a e) : Kept own a (e.settleRender g) := h.drive

/-! ## Answers and losses -/

theorem Kept.sourceOpened (h : Kept own a e) {c : Fin 2} {j : Fin 16} {w : Word32} {n : Nat} :
    Kept own a (e.sourceOpened g c j w n) := by
  unfold Engine.sourceOpened
  split
  · split
    · refine .ite h.failContext ?_
      split
      · exact h.updateContext.updateContext.askOrFail
      · exact .ite h.updateContext.updateContext.rangeEnd h.updateContext.updateContext
    · exact h.failContext
  · exact h

theorem Kept.proxyOpened (h : Kept own a e) {c : Fin 2} {j : Fin 16} {w : Word32} : Kept own a (e.proxyOpened c j w) := by
  unfold Engine.proxyOpened
  split
  · exact h.updateJob.updateContext
  · exact h

theorem Kept.appendDone (h : Kept own a e) {c : Fin 2} {j : Fin 16} {run : ContextRun} : Kept own a (e.appendDone g c j run) := by
  unfold Engine.appendDone
  dsimp only
  split
  · split
    · exact h.updateJob.updateContext.frameDelivered
    · exact h.updateJob.updateContext.updateContext
  · exact h.updateJob.updateContext.sendAppend

theorem Kept.contextReply (h : Kept own a e) {c : Fin 2} {r : Reply} : Kept own a (e.contextReply g c r) := by
  unfold Engine.contextReply
  split
  · split
    · exact h.sourceOpened
    · exact h.failContext
    · exact h.proxyOpened
    · exact h.failContext
    · exact h.updateContext
    · exact h.failContext
    · exact h.appendDone
    · exact h.failContext
    · exact h.appendDone
    · exact h.failContext
    · exact h.sourceClosed
    · exact h.endContextJob
    · exact h.failContext
  · exact h

theorem Kept.failReaders (h : Kept own a e) {x : Handle} {v : Fin 16} : Kept own a (Engine.failReaders g x v e) := by
  refine h.foldl (fun e c h => ?_) _
  split
  · exact .ite h.endJob h
  · exact h

theorem Kept.contextLoses (h : Kept own a e) {p : Fin 4} {c : Fin 2} : Kept own a (Engine.contextLoses g p e c) := by
  unfold Engine.contextLoses
  split
  · exact .ite h.endJob (.ite h.endJob (.ite h.sourceClosed h))
  · exact h

theorem Kept.suspendedLose (h : Kept own a e) {v : Fin 16} : Kept own a (Engine.suspendedLose g v e) :=
  h.foldl (fun _ _ h => h.endJob) _

/-! ## Requests of renders and cues -/

/-- A job slot that is free holds no post. -/
theorem Engine.freeJob_post {j : Fin 16} (h : e.freeJob = some j) : ∀ x ∈ e.posts, x.slot ≠ j := by
  have free : e.job j = none := by simpa using List.find?_some h
  intro x hx
  obtain ⟨y, hy, rfl⟩ := List.mem_map.mp hx
  simpa [Job.post] using List.find?_eq_none.mp free y hy

theorem Engine.addJob_steady (e : Engine) (j : Fin 16) (n : NewJob) : Steady { e with jobs := e.jobs ++ [n.inSlot j] } (e.addJob j n) :=
  .ite (Steady.refl _).updateClip (.refl _)

theorem Engine.addJob_posts (j : Fin 16) (n : NewJob) : (e.addJob j n).posts = e.posts ++ [⟨j, false⟩] := by
  refine (e.addJob_steady j n).posts.trans ?_
  simp [Engine.posts, Job.post, NewJob.inSlot]

theorem Kept.addJob (h : Kept own a e) {j : Fin 16} {n : NewJob} (free : e.freeJob = some j) : Kept own a (e.addJob j n) := by
  have added := e.addJob_steady j n
  refine h.aside (((Aside.refl e).frame rfl).trans added.toAside) fun k => ?_
  have joined := (h.renders k).append (j := j) (Engine.freeJob_post free)
  unfold Engine.rendersFit
  rw [Engine.addJob_posts, added.runs, added.claims, added.cue]
  exact joined

/-- The job slot that the checks of a render find is free (R131). -/
theorem Engine.checkRender_free {c : Clip} {r : Range} {p : Option (Fin 4)} {x : Header × Range × Fin 16}
    (h : e.checkRender g c r p = .ok x) : e.freeJob = some x.2.2 := by
  unfold Engine.checkRender at h
  repeat' split at h
  all_goals cases h
  assumption

theorem Kept.queueRender (h : Kept own a e) {st : StationPort} {s k : Nat} {r : Range} {p : Nat} {x : Fin 16 × Engine}
    (he : e.queueRender g st s k r p = .ok x) : Kept own a x.2 := by
  unfold Engine.queueRender at he
  split at he
  · cases he
  · split at he
    · cases he
    · split at he
      · cases he
      · next checked =>
        cases he
        exact (h.addJob (Engine.checkRender_free checked)).settleRender

/-- A job waits and claims no context (R132). -/
def Engine.unplaced (e : Engine) (j : Fin 16) : Prop := ⟨j, false⟩ ∈ e.posts ∧ ∀ d, e.claimant d ≠ some j

/-- A job without a context claims one (R132). -/
theorem Kept.claim (h : Kept own a e) {j : Fin 16} (hj : a.rendersFit → e.unplaced j) {c : Fin 2} :
    Kept own a (e.setClaim c (some j)) := by
  refine h.aside ((Aside.refl e).frame rfl) fun k => ?_
  obtain ⟨waits, unclaimed⟩ := hj k
  have claimed := (h.renders k).claimed waits unclaimed c
  rw [← funext (e.setClaim_claimant c (some j)), ← funext (e.setClaim_runsJob c (some j))] at claimed
  exact claimed

theorem Kept.claimBySuspension (h : Kept own a e) {j : Fin 16} (hj : a.rendersFit → e.unplaced j) : Kept own a (e.claimBySuspension j) := by
  unfold Engine.claimBySuspension
  dsimp only
  split
  · exact .ite (h.claim hj).updateJob (h.claim hj).suspendContext
  · exact h.claim hj

/-- A job in another slot stays without a context as one is cancelled. -/
theorem Engine.cancelJob_unplaced {i j : Fin 16} (other : i ≠ j) (hr : e.rendersFit) (h : e.unplaced j) : (e.cancelJob g i).unplaced j := by
  have marked : Steady e (e.updateJob i (fun x => { x with cancelMark := true })) := (Steady.refl e).updateJob
  have still : (e.updateJob i (fun x => { x with cancelMark := true })).unplaced j := by
    unfold Engine.unplaced
    rw [marked.posts, marked.claims]
    exact h
  have ended : ((e.updateJob i (fun x => { x with cancelMark := true })).endJob g i .cancelled).unplaced j := by
    have left := Engine.endJob_ended (g := g) (e.updateJob i (fun x => { x with cancelMark := true })) i .cancelled
    refine ⟨?_, fun d hd => ?_⟩
    · rw [left.posts]
      exact List.mem_filter.mpr ⟨still.1, decide_eq_true (Ne.symm other)⟩
    · rw [left.claims (marked.rendersFit hr)] at hd
      exact still.2 d (unlessJob_some.mp hd).1
  unfold Engine.cancelJob
  dsimp only
  split
  · split
    · exact still
    · exact ended
  · exact ended

theorem Kept.takeContext (h : Kept own a e) {j : Fin 16} {old : Option (Fin 16)} (hj : a.rendersFit → e.unplaced j)
    (other : a.rendersFit → old ≠ some j) : Kept own a (e.takeContext g j old) := by
  have cancelled : ∀ x, Kept own a x → (a.rendersFit → x.unplaced j) → Kept own a (match Engine.claimable x with
      | some c => x.setClaim c (some j)
      | none => x.claimBySuspension j) := by
    intro x hx hj
    split
    · exact hx.claim hj
    · exact hx.claimBySuspension hj
  unfold Engine.takeContext
  cases old with
  | none => exact cancelled e h hj
  | some i =>
    have left : a.rendersFit → (e.cancelJob g i).unplaced j := fun k =>
      Engine.cancelJob_unplaced (fun same => other k (congrArg some same)) (h.renders k) (hj k)
    dsimp only
    split
    · exact h.cancelJob.claim left
    · exact cancelled _ h.cancelJob left

/-- The cue takes a job of the queue (R157). -/
theorem Kept.recued (h : Kept own a e) {m : MonitorOut} {j : Fin 16} (cued : m.cue.job = some j)
    (hj : a.rendersFit → ∃ x ∈ e.posts, x.slot = j) : Kept own a { e with monitor := m } := by
  refine h.aside ((Aside.refl e).frame rfl) fun k => (h.renders k).recue fun i hi => ?_
  rw [cued] at hi
  obtain rfl := Option.some.inj hi
  exact hj k

theorem MonitorOut.newCue_job (m : MonitorOut) (s : MonitorSettings) (j : Fin 16) (x : Handle) (c : Fin 32) (r : Fin 9) (d : Bool) :
    (m.newCue s j x c r d).cue.job = some j := by
  unfold MonitorOut.newCue
  dsimp only
  split
  · unfold MonitorOut.setRate
    split <;> rfl
  · rfl

/-- A cue's job joins the queue, is cued and takes a context (R132, R157). -/
theorem Kept.cued (h : Kept own a e) {j : Fin 16} (free : e.freeJob = some j) {n : NewJob} {s : MonitorSettings} {x : Handle} {c : Fin 32}
    {r : Fin 9} {d : Bool} : Kept own a
      (((e.addJob j n).updateMonitor (fun m => m.newCue s j x c r d)).takeContext g j e.monitor.cue.job) := by
  have joined : (⟨j, false⟩ : Post) ∈ (e.addJob j n).posts := by simp [Engine.addJob_posts]
  have cued : Kept own a ((e.addJob j n).updateMonitor (fun m => m.newCue s j x c r d)) :=
    (h.addJob free).recued (MonitorOut.newCue_job ..) fun _ => ⟨_, joined, rfl⟩
  refine cued.takeContext (fun k => ⟨joined, fun d claim => ?_⟩) fun k same => ?_
  · have old : e.claimant d = some j := (congrFun (e.addJob_steady j n).claims d).symm.trans claim
    exact Engine.freeJob_post free _ ((h.renders k).claims d j old) rfl
  · obtain ⟨y, hy, slot⟩ := (h.renders k).cue j same
    exact Engine.freeJob_post free y hy slot

theorem Kept.cueMonitor (h : Kept own a e) {st : StationPort} {s k : Nat} {r : Range} {b : Bool} {p : Option Nat}
    {x : Fin 16 × Engine} (he : e.cueMonitor g st s k r b p = .ok x) : Kept own a x.2 := by
  unfold Engine.cueMonitor at he
  split at he
  · cases he
  · split at he
    · cases he
    · split at he
      · cases he
      · split at he
        · cases he
        · next checked =>
          cases he
          exact (h.cued (Engine.checkRender_free checked)).settleRender

theorem Kept.cancelRenders (h : Kept own a e) {x : Handle} : Kept own a (e.cancelRenders g x) := by
  refine Kept.settleRender (h.foldl (fun e j h => ?_) _)
  split
  · exact .ite h.cancelJob h
  · exact h

/-- The Monitor Output changes, its cue names the same job or none. -/
theorem Kept.monitored (h : Kept own a e) {m : MonitorOut} (same : m.cue.job = e.monitor.cue.job ∨ m.cue.job = none) :
    Kept own a { e with monitor := m } := by
  refine h.aside ((Aside.refl e).frame rfl) fun k => (h.renders k).recue fun j hj => ?_
  rcases same with same | same <;> rw [same] at hj
  · exact (h.renders k).cue j hj
  · cases hj

theorem Kept.stopMonitor (h : Kept own a e) : Kept own a (e.stopMonitor g) := by
  have stopped : Kept own a (e.updateMonitor MonitorOut.stop) := h.monitored (.inr rfl)
  unfold Engine.stopMonitor
  dsimp only
  split
  · exact stopped.cancelJob.settleRender
  · exact stopped.settleRender

theorem Kept.cancelRender (h : Kept own a e) {st : StationPort} {n : Nat} {x : Engine} (he : e.cancelRender g st n = .ok x) :
    Kept own a x := by
  unfold Engine.cancelRender at he
  repeat' split at he
  all_goals cases he
  exact h.cancelJob.settleRender

/-! ## Syncs -/

theorem Kept.underrun (h : Kept own a e) {j : Fin 16} : Kept own a (e.underrun j) := by
  unfold Engine.underrun
  dsimp only
  refine .ite h.updateJob ?_
  split
  · exact h.updateJob.updateMonitor.signal
  · exact h.updateJob.updateMonitor

theorem Kept.settleFront (h : Kept own a e) : Kept own a e.settleFront := by
  unfold Engine.settleFront
  dsimp only
  split
  · refine h.monitored (.inl ?_)
    dsimp only
    split <;> rfl
  · split
    · exact h.monitored (.inl rfl)
    · split
      · exact .ite h.underrun h
      · exact h

/-- The front buffer leaves as damaged (R161). -/
theorem Kept.damaged (h : Kept own a e) {d : Damage} : Kept own a (e.updateMonitor (fun m => match m.front with
    | .black => m
    | .picture p => { m with front := .picture { p with raster := p.raster.damage d } })) :=
  h.monitored (.inl (by dsimp only; split <;> rfl))

theorem Kept.sendFront (h : Kept own a e) {d : Damage} : Kept own a (e.sendFront g d) := by
  have sent := (h.damaged (d := d)).updateMonitor (f := fun m => { m with output := some m.frame, frontSent := true })
  unfold Engine.sendFront
  dsimp only
  split
  · exact sent
  · exact .ite sent (sent.steady (Steady.refl _).raiseFault)

theorem Kept.syncAt (h : Kept own a e) {t : Nat} {d : Damage} : Kept own a (e.syncAt g t d) :=
  h.updateMonitor.settleFront.sendFront.settleRender

theorem Kept.internalSync (h : Kept own a e) {t : Nat} {d : Damage} : Kept own a (e.internalSync g t d) := h.updateMonitor.syncAt

theorem Kept.syncArrives (h : Kept own a e) {d : Damage} : Kept own a (e.syncArrives g d) := by
  unfold Engine.syncArrives
  split
  · exact h
  · exact h.internalSync
  · exact h.internalSync

theorem Kept.loseReference (h : Kept own a e) {t : Nat} {d : Damage} : Kept own a (e.loseReference g t d) :=
  .ite h.updateMonitor.signal.internalSync h.updateMonitor.signal

theorem Kept.pulse (h : Kept own a e) {t : Nat} {d : Damage} : Kept own a (e.pulse g t d) := by
  unfold Engine.pulse
  split
  · exact h
  · exact .ite (.ite h.updateMonitor.signal.syncAt h.updateMonitor.signal) h.updateMonitor
  · exact .ite h.updateMonitor.syncAt h.updateMonitor.loseReference

theorem Kept.referenceExpires (h : Kept own a e) {t : Nat} {d : Damage} : Kept own a (e.referenceExpires g t d) := by
  unfold Engine.referenceExpires
  split
  · exact h.loseReference
  · exact h
  · exact h

end Sys2Proof.Machine
end

