-- ==== Sys2Proof/Proofs/KeptTransfers.lean ====
section
/-!
SUPPORT. The Transfer Engine keeps the invariants of O27. A descriptor that ends leaves the queue while its lane still names it, and the
lane is released once the steps of R93 are done; a descriptor that starts is the oldest eligible one, so it heads its chain and no other
reads its volume (R83).
-/

namespace Sys2Proof.Machine

variable {own : Option (Fin 2)} {a e : Engine} {g : Settings}

/-! ## The copy queue -/

/-- A change of the copy queue and the lanes alone. -/
theorem Kept.berthed (h : Kept own a e) {e' : Engine} {own' : Option (Fin 2)}
    (he : e' = { e' with faults := e.faults, faultCounter := e.faultCounter, faultSerial := e.faultSerial, requeues := e.requeues,
                         jobs := e.jobs, contexts := e.contexts, monitor := e.monitor })
    (q : e.queueFits own → e'.queueFits own') : Kept own' a e' where
  faults k := by
    have := h.faults k
    unfold Engine.faultsFit at this ⊢
    rw [he]
    exact this
  queue := q ∘ h.queue
  renders k := by
    have := h.renders k
    unfold Engine.rendersFit at this ⊢
    rw [he]
    exact this
  requeues k := by
    rw [he]
    exact h.requeues k

/-- A descriptor slot that is free holds no berth. -/
theorem Engine.freeDescriptor_berth {k : Fin 64} (h : e.freeDescriptor = some k) : ∀ x ∈ e.berths, x.slot ≠ k := by
  have free : e.descriptor k = none := by simpa using List.find?_some h
  intro x hx
  obtain ⟨y, hy, rfl⟩ := List.mem_map.mp hx
  simpa [Descriptor.berth] using List.find?_eq_none.mp free y hy

theorem Kept.addDescriptor (h : Kept own a e) {n : NewDescriptor} : Kept own a (e.addDescriptor n) := by
  unfold Engine.addDescriptor
  split
  · next k free =>
    refine h.berthed rfl fun fit => ?_
    unfold Engine.queueFits Engine.berths
    rw [List.map_append]
    refine fit.append ?_ (Engine.freeDescriptor_berth free)
    refine decide_eq_false ?_
    dsimp only
    split
    · exact CardRecord.waitingState_ne_running _
    · exact nofun
  · exact h

theorem Kept.queueVerify (h : Kept own a e) {c : Fin 32} {x : Handle} {v : Fin 16} {n : Nat} : Kept own a (e.queueVerify c x v n) :=
  .ite (h.addDescriptor.steady (Steady.refl _).markQueued) h

theorem Kept.queueManifest (h : Kept own a e) {c : Fin 32} {v : Fin 16} : Kept own a (Engine.queueManifest c e v) := h.addDescriptor

theorem Engine.dropDescriptor_berths (k : Fin 64) : (e.dropDescriptor k).berths = e.berths.filter (fun x => decide (x.slot ≠ k)) := by
  simp only [Engine.berths, Engine.dropDescriptor, List.filter_map]
  rfl

/-- A lane's descriptor leaves the queue (R93). -/
theorem Kept.dropDescriptor (h : Kept none a e) {l : Fin 2} {k : Fin 64} (ran : e.laneSlot l = some k) :
    Kept (some l) a (e.dropDescriptor k) := by
  refine h.berthed rfl fun fit => ?_
  unfold Engine.queueFits at fit ⊢
  rw [lanesBut_none] at fit
  rw [Engine.dropDescriptor_berths]
  exact fit.leave ran

/-- A waiting descriptor leaves the queue (R99). -/
theorem Kept.removeWaiting (h : Kept none a e) {k : Fin 64} (waits : a.queueFits none → ∀ l, e.laneSlot l ≠ some k) :
    Kept none a (e.dropDescriptor k) where
  faults := h.faults
  queue fit := by
    have now := h.queue fit
    unfold Engine.queueFits at now ⊢
    rw [lanesBut_none] at now ⊢
    rw [Engine.dropDescriptor_berths]
    exact now.remove (waits fit)
  renders := h.renders
  requeues := h.requeues

/-- A released lane runs nothing (R82). -/
theorem Kept.releaseLane {l : Fin 2} (h : Kept (some l) a e) : Kept none a (e.releaseLane l) := by
  have given : Steady e ((List.finRange 4).foldl (fun (e : Engine) p => e.updatePort p (fun x =>
      { x with read := if x.read.map (·.lane) = some l then none else x.read })) (e.withdraw (.lane l))) :=
    .foldl (fun _ _ h => h.updatePort) _ (Steady.refl e).withdraw
  refine (h.steady given).berthed rfl fun fit => ?_
  unfold Engine.queueFits at fit ⊢
  rw [lanesBut_none]
  refine cast (congrArg _ (funext fun m => ?_)) fit
  unfold lanesBut Engine.laneSlot Engine.laneRun Engine.releaseLane
  by_cases same : m = l
  · subst same
    simp only [if_true, Fin.getElem_fin, Vector.getElem_set_self]
    cases Engine.inFlight _ (.lane m) <;> rfl
  · simp [Fin.val_inj, Ne.symm same]

theorem Kept.endDescriptor (h : Kept none a e) {l : Fin 2} {d : Descriptor} (ran : e.laneSlot l = some d.slot) :
    Kept none a (e.endDescriptor l d) :=
  ((h.dropDescriptor ran).steady (Steady.refl _).settleRemoval).releaseLane

/-- What a lane works on is the descriptor that it runs. -/
theorem Engine.laneWork_slot {l : Fin 2} {run : LaneRun} {d : Descriptor} (h : e.laneWork l = some (run, d)) :
    e.laneSlot l = some d.slot ∧ d ∈ e.queue := by
  unfold Engine.laneWork at h
  unfold Engine.laneSlot
  split at h
  · next r running =>
    obtain ⟨x, found, same⟩ := Option.map_eq_some_iff.mp h
    cases same
    have slot : d.slot = run.slot := by simpa using List.find?_some found
    exact ⟨by rw [running, slot]; rfl, List.mem_of_find?_eq_some found⟩
  · cases h

/-- The slot that a lane runs, through a steady change. -/
theorem Steady.laneSlot (h : Steady a e) {l : Fin 2} {k : Fin 64} (ran : a.laneSlot l = some k) : e.laneSlot l = some k :=
  (congrFun h.lanes l).trans ran

/-- A steady change, and the end of the lane's descriptor after it. -/
theorem Kept.endAfter (h : Kept none a e) {e' : Engine} (k : Steady e e') {l : Fin 2} {d : Descriptor} (ran : e.laneSlot l = some d.slot) :
    Kept none a (e'.endDescriptor l d) := (h.steady k).endDescriptor (k.laneSlot ran)

/-- A descriptor of the queue takes on what leaves its berth. -/
theorem Kept.advanced (h : Kept own a e) {d d' : Descriptor} (hd : d ∈ e.queue) (same : d'.berth = d.berth) :
    Kept own a (e.updateDescriptor d.slot (fun _ => d')) := by
  refine h.berthed rfl fun fit => ?_
  have slots : (e.queue.map (·.slot)).Nodup := by
    rw [List.Nodup, List.pairwise_map]
    exact (List.pairwise_map.mp fit.order).imp fun k => k.slots
  unfold Engine.queueFits at fit ⊢
  refine cast (congrArg (QueueFits · _) ?_) fit
  unfold Engine.berths Engine.updateDescriptor
  rw [List.map_map]
  refine List.map_congr_left fun x hx => ?_
  simp only [Function.comp]
  split
  · next k => rw [List.inj_on_of_nodup_map slots hx hd k, same]
  · rfl

/-! ## The end of a COPY -/

theorem Kept.stopCopy (h : Kept none a e) {l : Fin 2} {x : StopCause} : Kept none a (e.stopCopy g l x) := by
  unfold Engine.stopCopy
  split
  · next run d work =>
    have ran := (Engine.laneWork_slot work).1
    split
    · next w _ =>
      have stopped : Steady e (((run.targets.filter (fun t => t.status.live)).foldl (fun e t => e.setCopyState w t.entry .partialCopy)
          e).updateLane l (fun r => { r with parse := none, sizeFault := none })) :=
        Steady.updateLane (.foldl (fun _ _ h => h.setCopyState) _ (.refl e))
      cases x with
      | sourceLost => exact h.endAfter stopped.raiseFault ran
      | allDropped => exact h.endAfter stopped ran
      | aborted => exact h.endAfter stopped ran
    · exact h
  · exact h

/-- A COPY leaves the queue, its VERIFYs join it, and its lane is released (R88, R93). -/
theorem Kept.verifiesQueued (h : Kept none a e) {l : Fin 2} {run : LaneRun} {d : Descriptor} {x : Handle} {r : CardRecord}
    (ran : e.laneSlot l = some d.slot) : Kept none a
      (let e := e.dropDescriptor d.slot
       let e := if r.verifyMode = .readback ∧ run.abortMark = false then
           run.writtenTargets.foldl (fun e v => e.queueVerify d.card x v d.generation) e
         else e
       let e := if run.writtenTargets = [] then e else e.signal (Event.ofClip .clipCopied d.card x)
       (e.settleRemoval d).releaseLane l) := by
  have left := h.dropDescriptor ran
  have queued := left.foldl (f := fun e v => e.queueVerify d.card x v d.generation) (fun _ _ h => h.queueVerify) run.writtenTargets
  have copied := Kept.ite (p := r.verifyMode = .readback ∧ run.abortMark = false) queued left
  exact ((Kept.ite copied copied.signal).steady (Steady.refl _).settleRemoval).releaseLane

theorem Kept.finishCopy (h : Kept none a e) {l : Fin 2} {run : LaneRun} {d : Descriptor} {c : Clip} {r : CardRecord}
    (ran : e.laneSlot l = some d.slot) : Kept none a (e.finishCopy g l run d c r) := by
  unfold Engine.finishCopy
  cases d.sourceVolume with
  | some v =>
    have judged : Steady e (if run.consistent then e else
      e.raiseFault g (transferFault .digestMismatch c.handle d.card (some v) 2)) := .ite (.refl e) (Steady.refl e).raiseFault
    exact (h.steady judged).verifiesQueued (judged.laneSlot ran)
  | none => exact h.verifiesQueued ran

/-! ## The blocks of a COPY -/

/-- A lane reads its next block, or something else happens. -/
theorem Kept.askBlockOr (h : Kept own a e) {x : Engine} (hx : Kept own a x) {l : Fin 2} {run : LaneRun} {d : Descriptor} {c : Clip} :
    Kept own a ((e.askBlock g l run d c).getD x) := by
  cases he : e.askBlock g l run d c with
  | none => exact hx
  | some y => exact h.steady ((Steady.refl e).askBlock he)

theorem Kept.updateLane (h : Kept own a e) {l : Fin 2} {f : LaneRun → LaneRun}
    (hf : ∀ r, e.laneRun l = some r → (f r).slot = r.slot := by exact fun _ _ => rfl) : Kept own a (e.updateLane l f) :=
  h.steady ((Steady.refl e).updateLane hf)

theorem Kept.readBlock (h : Kept none a e) {l : Fin 2} {run : LaneRun} {d : Descriptor} {c : Clip} :
    Kept none a (e.readBlock g l run d c) := h.updateLane.askBlockOr h.updateLane.stopCopy

theorem Kept.completeCopy (h : Kept own a e) {l : Fin 2} {run : LaneRun} {d : Descriptor} {c : Clip} :
    Kept own a (e.completeCopy g l run d c) := h.steady (Steady.refl e).completeCopy

theorem Kept.completeBlock (h : Kept none a e) {l : Fin 2} {run : LaneRun} {d : Descriptor} {c : Clip} (hd : d ∈ e.queue) :
    Kept none a (e.completeBlock g l run d c) := by
  have risen : Kept none a (e.updateDescriptor d.slot (fun _ => { d with progress := d.progress + run.block.length })) := h.advanced hd rfl
  exact .ite risen.stopCopy (.ite risen.readBlock risen.completeCopy)

theorem Kept.beginBlocks (h : Kept none a e) {l : Fin 2} {run : LaneRun} {d : Descriptor} {c : Clip} :
    Kept none a (e.beginBlocks g l run d c) := .ite h.stopCopy (.ite h.completeCopy h.readBlock)

theorem Kept.settleClosing (h : Kept none a e) {l : Fin 2} : Kept none a (e.settleClosing g l) := by
  unfold Engine.settleClosing
  split
  · next work =>
    split
    · exact .ite (h.finishCopy (Engine.laneWork_slot work).1) h
    · exact h
  · exact h

theorem Kept.advanceCopy (h : Kept none a e) {l : Fin 2} : Kept none a (e.advanceCopy g l) := by
  unfold Engine.advanceCopy
  split
  · next work =>
    split
    · refine .ite h.settleClosing (.ite h.stopCopy (.ite h ?_))
      split
      · exact h.beginBlocks.settleClosing
      · exact (h.completeBlock (Engine.laneWork_slot work).2).settleClosing
      · exact h
    · exact h
  · exact h

theorem Kept.copyBlock (h : Kept none a e) {l : Fin 2} {bs : List Byte} : Kept none a (e.copyBlock g l bs) := by
  unfold Engine.copyBlock
  split
  · next run d _ =>
    split
    · next c r _ =>
      have entered : Steady e (e.updateLane l (fun r =>
        { r.digestBlock bs with lastPassed := decide (c.byteLength ≤ d.progress + bs.length), phase := .appending })) := (Steady.refl e).updateLane
      have sent : Steady e _ := .foldl (f := Engine.appendTo g l d bs) (fun _ _ h => h.appendTo) run.targets
        (Steady.ite (p := d.source = some .card) (entered.feedParser (g := g) (l := l) (bs := bs)) entered)
      exact (h.steady sent).advanceCopy
    · exact h
  · exact h

/-! ## VERIFY and MANIFEST -/

theorem Kept.failVerify (h : Kept none a e) {l : Fin 2} {d : Descriptor} (ran : e.laneSlot l = some d.slot) :
    Kept none a (e.failVerify g l d) := by
  unfold Engine.failVerify
  split
  · exact h.endAfter (Steady.refl e).setCopyState.signal.raiseFault ran
  · exact h

theorem Kept.compareVerify (h : Kept none a e) {l : Fin 2} {run : LaneRun} {d : Descriptor} {c : Clip} (ran : e.laneSlot l = some d.slot) :
    Kept none a (e.compareVerify g l run d c) := by
  unfold Engine.compareVerify
  split
  · dsimp only
    refine h.endAfter ?_ ran
    split
    · exact (Steady.refl e).changeCopy.signal.clearMismatch
    · exact (Steady.refl e).changeCopy.raiseFault
  · exact h

theorem Kept.closeVerify (h : Kept none a e) {l : Fin 2} {run : LaneRun} {d : Descriptor} {c : Clip} (ran : e.laneSlot l = some d.slot) :
    Kept none a (e.closeVerify g l run d c) := by
  have closed : Steady e ((e.updateLane l (fun r => { r with phase := .closing, block := [] })).closeSource l run) :=
    (Steady.refl e).updateLane.closeSource
  unfold Engine.closeVerify
  dsimp only
  split
  · exact .ite (h.steady closed) ((h.steady closed).compareVerify (closed.laneSlot ran))
  · exact h.steady closed

theorem Kept.verifyNext (h : Kept none a e) {l : Fin 2} {run : LaneRun} {d : Descriptor} {c : Clip} (ran : e.laneSlot l = some d.slot) :
    Kept none a (e.verifyNext g l run d c) := by
  have reading : Steady e (e.updateLane l (fun r => { r with phase := .reading })) := (Steady.refl e).updateLane
  exact .ite ((h.steady reading).askBlockOr ((h.steady reading).failVerify (reading.laneSlot ran))) (h.closeVerify ran)

/-- What a lane holds is replaced, under the slot that it runs. -/
theorem Steady.held {l : Fin 2} {run x : LaneRun} {d : Descriptor} (work : e.laneWork l = some (run, d)) (same : x.slot = run.slot) :
    Steady e (e.updateLane l (fun _ => x)) :=
  (Steady.refl e).updateLane fun r hr => by
    unfold Engine.laneWork at work
    rw [hr] at work
    obtain ⟨y, -, k⟩ := Option.map_eq_some_iff.mp work
    cases k
    exact same

/-- A VERIFY's source is open (R91). -/
theorem Kept.verifyOpened (h : Kept none a e) {l : Fin 2} {run x y : LaneRun} {d : Descriptor} {c : Clip}
    (work : e.laneWork l = some (run, d)) (same : x.slot = run.slot) : Kept none a ((e.updateLane l (fun _ => x)).verifyNext g l y d c) :=
  (h.steady (.held work same)).verifyNext ((Steady.held work same).laneSlot (Engine.laneWork_slot work).1)

/-- A block of a VERIFY has arrived (R91). -/
theorem Kept.verifyRead (h : Kept none a e) {l : Fin 2} {run x y : LaneRun} {d d' : Descriptor} {c : Clip}
    (work : e.laneWork l = some (run, d)) (same : x.slot = run.slot) (risen : d'.berth = d.berth) :
    Kept none a (((e.updateLane l (fun _ => x)).updateDescriptor d.slot (fun _ => d')).verifyNext g l y d' c) := by
  obtain ⟨ran, hd⟩ := Engine.laneWork_slot work
  have still : d ∈ (e.updateLane l (fun _ => x)).queue := by simpa using hd
  refine ((h.steady (.held work same)).advanced still risen).verifyNext ?_
  rw [show d'.slot = d.slot from congrArg Berth.slot risen]
  exact (Steady.held work same).laneSlot ran

theorem Kept.verifyReply (h : Kept none a e) {l : Fin 2} {run : LaneRun} {d : Descriptor} {c : Clip} {r : Reply}
    (work : e.laneWork l = some (run, d)) : Kept none a (e.verifyReply g l run d c r) := by
  have ran := (Engine.laneWork_slot work).1
  have failed := h.failVerify (g := g) ran
  unfold Engine.verifyReply
  cases run.phase with
  | opening =>
    cases r with
    | opened w n =>
      dsimp only
      split
      · exact h.verifyOpened work rfl
      · exact failed
    | _ => exact failed
  | reading =>
    cases r with
    | data bs => exact h.verifyRead work rfl rfl
    | _ => exact failed
  | closing => exact h.compareVerify ran
  | appending => exact failed

theorem Kept.failManifest (h : Kept none a e) {l : Fin 2} {d : Descriptor} (ran : e.laneSlot l = some d.slot) :
    Kept none a (e.failManifest l d) := by
  unfold Engine.failManifest
  split
  · exact h.endAfter (Steady.refl e).signal ran
  · exact h

theorem Kept.askManifest (h : Kept none a e) {l : Fin 2} {d : Descriptor} {p : Fin 4} {ph : LanePhase} {r : OpRequest}
    (ran : e.laneSlot l = some d.slot) : Kept none a (e.askManifest l d p ph r) :=
  h.updateLane.askOr (h.failManifest ran)

theorem Kept.manifestReply (h : Kept none a e) {l : Fin 2} {run : LaneRun} {d : Descriptor} {r : Reply} (ran : e.laneSlot l = some d.slot) :
    Kept none a (e.manifestReply l run d r) := by
  have failed := h.failManifest ran
  unfold Engine.manifestReply
  split
  · next t _ _ =>
    cases run.phase with
    | opening =>
      cases r with
      | handle w =>
        have opened : Steady e (e.setTarget l t.entry (.isOpen w)) := (Steady.refl e).setTarget
        exact (h.steady opened).askManifest (opened.laneSlot ran)
      | _ => exact failed
    | appending =>
      cases r with
      | ok =>
        dsimp only
        split
        · exact h.askManifest ran
        · exact failed
      | _ => exact failed
    | closing =>
      cases r with
      | ok =>
        have risen : Steady e (e.updateDescriptor d.slot (fun d => { d with progress := run.block.length })) :=
          (Steady.refl e).updateDescriptor fun _ _ _ => rfl
        exact h.endAfter risen ran
      | _ => exact failed
    | reading => exact failed
  · exact h

/-! ## Starts -/

theorem Kept.openSourceOr (h : Kept own a e) {x : Engine} (hx : Kept own a x) {l : Fin 2} {t : Text} {v : Fin 16} :
    Kept own a ((e.openSource l t v).getD x) := by
  cases he : e.openSource l t v with
  | none => exact hx
  | some y => exact h.steady ((Steady.refl e).openSource he)

theorem Kept.startCopy (h : Kept none a e) {l : Fin 2} {d : Descriptor} {c : Clip} {r : CardRecord} :
    Kept none a (e.startCopy g l d c r) := by
  have opened : Steady e (d.targets.foldl (Engine.openTarget g l d (c.copyName r))
      (e.updateLane l (fun x => { x with lastPassed := decide (c.byteLength = 0) }))) :=
    .foldl (fun _ _ h => h.openTarget) _ (Steady.refl e).updateLane
  have begun := h.steady (Steady.ite (p := d.source = some .card) (opened.startParse (g := g) (l := l) (c := c)) opened)
  unfold Engine.startCopy
  dsimp only
  split
  · refine .ite begun.stopCopy ?_
    split
    · exact begun.openSourceOr begun.stopCopy
    · exact begun
  · exact begun

theorem Kept.startVerify (h : Kept none a e) {l : Fin 2} {d : Descriptor} {c : Clip} {r : CardRecord} (ran : e.laneSlot l = some d.slot) :
    Kept none a (e.startVerify g l d c r) := by
  unfold Engine.startVerify
  split
  · next v _ _ =>
    have verifying : Steady e (e.setCopyState c.handle v .verifying) := (Steady.refl e).setCopyState
    exact (h.steady verifying).openSourceOr ((h.steady verifying).failVerify (verifying.laneSlot ran))
  · exact h

theorem Kept.startManifest (h : Kept none a e) {l : Fin 2} {d : Descriptor} {r : CardRecord} (ran : e.laneSlot l = some d.slot) :
    Kept none a (e.startManifest l d r) := by
  have failed := h.failManifest ran
  unfold Engine.startManifest
  split
  · next v _ _ =>
    split
    · next p _ =>
      have composed : Steady e (e.updateLane l (fun x => { x with targets := [⟨v, p, .opening⟩], block := e.manifest d.card v })) :=
        (Steady.refl e).updateLane
      exact .ite ((h.steady composed).askManifest (composed.laneSlot ran)) failed
    · exact failed
  · exact h

theorem Engine.granted_laneSlot (l : Fin 2) (d : Descriptor) (m : Fin 2) :
    (e.granted l d).laneSlot m = if m = l then some d.slot else e.laneSlot m := by
  unfold Engine.laneSlot
  by_cases same : m = l
  · subst same; simp [Engine.granted, LaneRun.start]
  · simp [Engine.laneRun, Engine.granted, Engine.putLane, Fin.val_inj, Ne.symm same, same, Engine.updateDescriptor]

/-- The lane that the grant chooses runs nothing. -/
theorem Engine.idleLane_slot {l : Fin 2} (h : e.idleLane = some l) : e.laneSlot l = none := by
  have idle : e.lanes[l] = .idle := by simpa using List.find?_some h
  unfold Engine.laneSlot Engine.laneRun
  rw [idle]
  rfl

/-- The oldest eligible descriptor is one of the queue that waits, heads its chain, and reads from what no RUNNING one reads (R83). -/
theorem Engine.eligible_some {d : Descriptor} (h : e.eligible = some d) :
    d ∈ e.queue ∧ d.state = .queued ∧ e.sourceFree d = true ∧ e.headsChain d = true := by
  have chosen := List.find?_some h
  simp only [Bool.and_eq_true, decide_eq_true_eq, and_assoc] at chosen
  exact ⟨List.mem_of_find?_eq_some h, chosen⟩

/-- A descriptor that heads its chain stands behind no other of it. -/
theorem Engine.headsChain_berths {d : Descriptor} (slots : (e.queue.map (·.slot)).Nodup) (hd : d ∈ e.queue) (heads : e.headsChain d = true) :
    e.berths.Pairwise (fun x y => y = d.berth → d.berth.chain.isSome = true → x.chain ≠ d.berth.chain) := by
  refine List.pairwise_map.mpr (pairwise_iff_before.mpr fun before y after hq x hx same => ?_)
  obtain rfl : y = d := List.inj_on_of_nodup_map slots (by simp [hq]) hd (congrArg Berth.slot same)
  exact Descriptor.chain_apart.mp fun mine => (Engine.headsChain_iff hq slots).mp heads mine x hx

theorem Descriptor.sourceVolume_some {d : Descriptor} {v : Fin 16} (h : d.sourceVolume = some v) : d.source = some (.volume v) := by
  unfold Descriptor.sourceVolume at h
  split at h
  · next k => cases h; exact k
  · cases h

/-- A descriptor whose source is free reads from no RUNNING one's volume. -/
theorem Engine.sourceFree_berths {d : Descriptor} (free : e.sourceFree d = true) :
    d.berth.source.isSome = true → ∀ x ∈ e.berths, x.running = true → x.source ≠ d.berth.source := by
  intro some_source x hx runs same
  obtain ⟨y, hy, rfl⟩ := List.mem_map.mp hx
  obtain ⟨v, hv⟩ := Option.isSome_iff_exists.mp some_source
  have mine := Descriptor.sourceVolume_some (d := d) hv
  have theirs := Descriptor.sourceVolume_some (d := y) (same.trans hv)
  rcases (Engine.sourceFree_iff d).mp free with none_source | ⟨-, apart⟩
  · rw [mine] at none_source; cases none_source
  · exact apart y hy (by simpa [Descriptor.berth] using runs) (by unfold Engine.reads; rw [mine, theirs])

theorem Engine.granted_berths {d : Descriptor} (slots : (e.queue.map (·.slot)).Nodup) (hd : d ∈ e.queue) (l : Fin 2) :
    (e.granted l d).berths = e.berths.map (Berth.started d.slot) := by
  unfold Engine.berths
  rw [List.map_map]
  refine (List.map_map ..).trans (List.map_congr_left fun x hx => ?_)
  simp only [Function.comp]
  split
  · next same =>
    obtain rfl := List.inj_on_of_nodup_map slots hx hd same
    exact (if_pos rfl).symm
  · next other => exact (if_neg other).symm

/-- The lane grant gives an IDLE lane the oldest eligible descriptor (R83). -/
theorem Kept.granted (h : Kept none a e) {l : Fin 2} {d : Descriptor} (hl : e.idleLane = some l) (hd : e.eligible = some d) :
    Kept none a (e.granted l d) := by
  refine h.berthed rfl fun fit => ?_
  unfold Engine.queueFits at fit ⊢
  rw [lanesBut_none] at fit ⊢
  have slots : (e.queue.map (·.slot)).Nodup := by
    rw [List.Nodup, List.pairwise_map]
    exact (List.pairwise_map.mp fit.order).imp fun k => k.slots
  obtain ⟨inside, queued, free, heads⟩ := Engine.eligible_some hd
  rw [Engine.granted_berths slots inside, funext (Engine.granted_laneSlot (e := e) l d)]
  exact fit.start (List.mem_map_of_mem inside) (Engine.idleLane_slot hl) (by simp [Descriptor.berth, queued])
    (Engine.headsChain_berths slots inside heads) (Engine.sourceFree_berths free)

theorem Kept.startDescriptor (h : Kept none a e) {l : Fin 2} {d : Descriptor} (hl : e.idleLane = some l) (hd : e.eligible = some d) :
    Kept none a (e.startDescriptor g l d) := by
  have started := h.granted hl hd
  have ran : (e.granted l d).laneSlot l = some d.slot := (Engine.granted_laneSlot l d l).trans (if_pos rfl)
  unfold Engine.startDescriptor
  dsimp only
  split
  · exact started.startManifest ran
  · split
    · exact started.startCopy
    · exact started.endDescriptor ran
  · split
    · exact started.startVerify ran
    · exact started.endDescriptor ran
  · exact started.endDescriptor ran

theorem Kept.grantLanes {n : Nat} (h : Kept none a e) : Kept none a (Engine.grantLanes g n e) := by
  induction n generalizing e with
  | zero => exact h
  | succ n ih =>
    unfold Engine.grantLanes
    split
    · next hl hd => exact ih (h.startDescriptor hl hd)
    · exact h

theorem Kept.settleTransfer (h : Kept none a e) : Kept none a (e.settleTransfer g) := h.grantLanes.settleRender

/-! ## Answers and losses -/

theorem Kept.sourceReply (h : Kept none a e) {l : Fin 2} {s : VolumeSource} {c : Clip} {r : Reply} :
    Kept none a (e.sourceReply g l s c r) := by
  unfold Engine.sourceReply
  split
  · exact .ite h.updateLane.advanceCopy h.stopCopy
  · exact h.copyBlock
  · exact h.updateLane.advanceCopy
  · exact h
  · exact h.stopCopy

theorem Kept.copyReply (h : Kept none a e) {l : Fin 2} {run : LaneRun} {d : Descriptor} {c : Clip} {p : Fin 4} {r : Reply} :
    Kept none a (e.copyReply g l run d c p r) := by
  unfold Engine.copyReply
  split
  · exact (h.steady (Steady.refl e).targetReply).advanceCopy
  · split
    · exact .ite h.sourceReply h
    · exact h

theorem Kept.laneReply (h : Kept none a e) {l : Fin 2} {p : Fin 4} {r : Reply} : Kept none a (e.laneReply g l p r) := by
  unfold Engine.laneReply
  split
  · next work =>
    split
    · exact h.manifestReply (Engine.laneWork_slot work).1
    · exact h.copyReply
    · exact h.verifyReply work
    · exact h
  · exact h

theorem Kept.laneLoses (h : Kept none a e) {p : Fin 4} {l : Fin 2} : Kept none a (Engine.laneLoses g p e l) := by
  unfold Engine.laneLoses
  split
  · next work =>
    split
    · exact .ite (h.failManifest (Engine.laneWork_slot work).1) h
    · exact h.copyReply
    · exact .ite (h.verifyReply work) h
    · exact h
  · exact h

theorem Kept.detachLanes (h : Kept none a e) {c : Fin 32} : Kept none a (Engine.detachLanes g c e) := by
  refine h.foldl (fun e l h => ?_) _
  split
  · exact .ite h.stopCopy h
  · exact h

/-! ## The requesters of a destination port -/

theorem Kept.requesterLoses (h : Kept none a e) {p : Fin 4} {who : Requester} : Kept none a (Engine.requesterLoses g p e who) := by
  cases who with
  | lane l => exact h.laneLoses
  | context c => exact h.contextLoses

theorem Kept.requesterReply (h : Kept none a e) {p : Fin 4} {who : Requester} {r : Reply} : Kept none a (e.requesterReply g p who r) := by
  cases who with
  | lane l => exact h.laneReply
  | context c => exact h.contextReply

theorem Kept.operationEnds (h : Kept none a e) {p : Fin 4} {op : Operation} {r : Reply} : Kept none a (e.operationEnds g p op r) := by
  have ended := (Steady.refl e).operationDone (p := p) (r := r)
  exact (Kept.ite (h.steady ended.settleRequester) (h.steady ended).requesterReply).settleTransfer

theorem Kept.operationAnswered (h : Kept none a e) {p : Fin 4} {f : OpRequest → Option Reply} :
    Kept none a (e.operationAnswered g p f) := by
  unfold Engine.operationAnswered
  split
  · split
    · exact h.operationEnds
    · exact h
  · exact h

end Sys2Proof.Machine
end

