-- ==== Sys2Proof/Proofs/KeptEvents.lean ====
section
/-!
SUPPORT. The card ports, the destination ports and the OFFLOAD station keep the invariants of O27, and so does the Event Link Matrix with
the pending requeue list.
-/

namespace Sys2Proof.Machine

variable {a e : Engine} {g : Settings}

/-! ## The card ports -/

theorem Kept.removeAttached (h : Kept none a e) {p : Fin 4} {c : Fin 32} : Kept none a (e.removeAttached g p c) := by
  have abandoned : Kept none a (e.updatePort p (fun x => { x with read := none })) := h.steady (Steady.refl e).updatePort
  have left := (abandoned.detachLanes (g := g) (c := c))
  exact left.steady (Steady.refl _).holdForAbsence.detachCard.updatePort.signal.reevaluateNoRecord

theorem Steady.emptyPort (h : Steady a e) {p : Fin 4} : Steady a (e.emptyPort p) := h.updatePort

theorem Kept.cardLeaves (h : Kept none a e) {p : Fin 4} : Kept none a (e.cardLeaves g p) := by
  have emptied : Kept none a (e.emptyPort p) := h.steady (Steady.refl e).emptyPort
  have attached : Kept none a (match e.cardAt p with
      | some card => e.removeAttached g p card
      | none => e.emptyPort p) := by
    split
    · exact h.removeAttached
    · exact emptied
  unfold Engine.cardLeaves
  cases (e.cardPorts[p]).state with
  | empty => exact h
  | reading => exact emptied
  | unreadable => exact emptied
  | noRecord =>
    have erased : Steady e { e with noRecord := e.noRecord.erase p } := (Steady.refl e).frame rfl
    exact h.steady erased.emptyPort
  | attached => exact attached
  | stalled => exact attached

theorem Kept.cardArrives (h : Kept none a e) {p : Fin 4} : Kept none a (e.cardArrives g p) :=
  (h.cardLeaves.steady (Steady.refl _).updatePort).settleTransfer

theorem Steady.unreadable (h : Steady a e) {p : Fin 4} : Steady a (e.unreadable p) := h.updatePort

theorem Kept.directoryArrives (h : Kept none a e) {p : Fin 4} {x : DirectoryAnswer} : Kept none a (e.directoryArrives g p x) := by
  have failed : Kept none a (e.unreadable p) := h.steady (Steady.refl e).unreadable
  unfold Engine.directoryArrives
  split
  · exact .ite (h.steady (Steady.refl e).updatePort.handDirectory).settleTransfer failed
  · exact failed
  · exact h

theorem Steady.directoryTimesOut (h : Steady a e) {p : Fin 4} : Steady a (e.directoryTimesOut p) := by
  unfold Engine.directoryTimesOut
  split
  · exact h.unreadable
  · exact h

theorem Kept.stall (h : Kept none a e) {p : Fin 4} {r : CardRead} : Kept none a (e.stall g p r) := by
  have stalled : Kept none a (e.updatePort p (fun x => { x with state := .stalled, read := none })) := h.steady (Steady.refl e).updatePort
  have lost : Kept none a ((e.updatePort p (fun x => { x with state := .stalled, read := none })).cardLost g r.lane) := stalled.stopCopy
  unfold Engine.stall
  dsimp only
  split
  · exact lost.steady (Steady.refl _).changeHolds.signal
  · exact lost

theorem Kept.attemptFails (h : Kept none a e) {p : Fin 4} {r : CardRead} : Kept none a (e.attemptFails g p r) :=
  .ite (h.steady (Steady.refl e).updatePort) h.stall

theorem Kept.readArrives (h : Kept none a e) {p : Fin 4} {x : ReadAnswer} : Kept none a (e.readArrives g p x) := by
  unfold Engine.readArrives
  split
  · exact .ite (h.steady (Steady.refl e).updatePort).copyBlock.settleTransfer h.attemptFails.settleTransfer
  · exact h.attemptFails.settleTransfer
  · exact h

theorem Kept.stallExpires (h : Kept none a e) {p : Fin 4} : Kept none a (e.stallExpires g p) := by
  unfold Engine.stallExpires
  split
  · exact h.attemptFails.settleTransfer
  · exact h

/-! ## The destination ports -/

theorem Kept.removeVolume (h : Kept none a e) {p : Fin 4} {v : Fin 16} : Kept none a (e.removeVolume g p v) := by
  have unplugged : Steady e ((e.updateDest p (fun d => { d with state := .empty, inflight := none, waiting := [] })).updateVolume v
    (fun x => { x with inserted := none })) := (Steady.refl e).updateDest.updateVolume
  have lost := ((h.steady unplugged).foldl (f := Engine.requesterLoses g p) (fun _ _ h => h.requesterLoses) (e.destPorts[p]).losers).suspendedLose
    (g := g) (v := v)
  have gone : ∀ x, Kept none a x → Kept none a
      (((x.signal (Event.ofVolume .volumeRemoved v)).freeIfUnused v).1.reevaluateUntracked.settleTransfer g) := fun x hx =>
    (hx.steady (((Steady.refl x).signal.volumes (Engine.freeIfUnused_move _ v)).volumes (Engine.reevaluateUntracked_move _))).settleTransfer
  unfold Engine.removeVolume
  dsimp only
  refine gone _ ?_
  split
  · exact lost.steady (Steady.refl _).settleRequester
  · exact lost

theorem Kept.driveLeaves (h : Kept none a e) {p : Fin 4} : Kept none a (e.driveLeaves g p) := by
  have emptied : Steady e (e.updateDest p (fun d => { d with state := .empty })) := (Steady.refl e).updateDest
  unfold Engine.driveLeaves
  cases (e.destPorts[p]).state with
  | empty => exact h
  | identifying => exact h.steady emptied
  | offline => exact h.steady emptied
  | untracked s l =>
    have erased : Steady e { e with untracked := e.untracked.erase p } := (Steady.refl e).frame rfl
    exact h.steady erased.updateDest
  | online =>
    dsimp only
    split
    · exact h.removeVolume
    · exact h.steady emptied

theorem Steady.mount (h : Steady a e) {p : Fin 4} : Steady a (e.mount p) := h.updateDest

theorem Kept.driveArrives (h : Kept none a e) {p : Fin 4} : Kept none a (e.driveArrives g p) := by
  unfold Engine.driveArrives
  exact h.driveLeaves.steady (Steady.refl _).mount

theorem Kept.goOffline (h : Kept none a e) {p : Fin 4} : Kept none a (e.goOffline p) := h.steady (Steady.refl e).updateDest

theorem Kept.identified (h : Kept none a e) {p : Fin 4} {x : IdentifyAnswer} : Kept none a (e.identified g p x) := by
  unfold Engine.identified
  split
  · exact .ite (h.steady ((Steady.refl e).volumes (e.place_move p _ _))).settleTransfer h.goOffline
  · exact h.goOffline
  · exact h

theorem Kept.enclosureTimesOut (h : Kept none a e) {p : Fin 4} : Kept none a (e.enclosureTimesOut g p) := by
  unfold Engine.enclosureTimesOut
  split
  · exact h.goOffline
  · exact h.operationAnswered

/-! ## The OFFLOAD station -/

theorem Kept.makeRecord {own : Option (Fin 2)} (h : Kept own a e) {x : Handle} {n : Nat} {v : Fin 16} :
    Kept own a (Engine.makeRecord g x n e v) := by
  unfold Engine.makeRecord
  split
  · dsimp only
    split
    · exact h.steady (Steady.refl e).updateClip.settleEntry
    · exact (h.steady (Steady.refl e).updateClip).failReaders
    · exact h.steady (Steady.refl e).updateClip
    · exact h.steady (Steady.refl e).updateClip
  · exact h

theorem Kept.queueCopy {own : Option (Fin 2)} (h : Kept own a e) {c : Fin 32} {x : Handle} {s : Source} {vs : List (Fin 16)} {n : Nat} :
    Kept own a (e.queueCopy g c x s vs n) :=
  (h.foldl (f := Engine.makeRecord g x n) (fun _ _ h => h.makeRecord) vs).addDescriptor.steady (Steady.refl _).markQueued

theorem Steady.enterOffload (h : Steady a e) {c : Fin 32} : Steady a (e.enterOffload c) := by
  unfold Engine.enterOffload
  split
  · exact h.becomeOffloaded
  · exact h.setCardState

theorem Kept.beginOffload (h : Kept none a e) {c : Fin 32} {fields : SetFields} {work : List (Handle × List (Fin 16))} :
    Kept none a (e.beginOffload g c fields work) := by
  have recomputed : Steady e (((Engine.clipsOf (e.updateCard c (fun r => { r with snapshot := some fields })) c).map (·.handle)).foldl
      Engine.recomputeCopyState (e.updateCard c (fun r => { r with snapshot := some fields }))) :=
    .foldl (fun _ _ h => h.recomputeCopyState) _ (Steady.refl e).updateCard
  have queued := (h.steady recomputed).foldl (f := fun e x => e.queueCopy g c x.1 .card x.2 0) (fun _ _ h => h.queueCopy) work
  exact (queued.steady (Steady.refl _).enterOffload).settleTransfer

theorem Kept.startOffload (h : Kept none a e) {c set : Nat} {x : Nat × List (Fin 16) × Engine} (he : e.startOffload g c set = .ok x) :
    Kept none a x.2.2 := by
  unfold Engine.startOffload at he
  dsimp only at he
  repeat' split at he
  all_goals cases he
  exact h.beginOffload

theorem Kept.holdCard (h : Kept none a e) {n : Nat} {x : Engine} (he : e.holdCard n = .ok x) : Kept none a x := by
  unfold Engine.holdCard at he
  repeat' split at he
  all_goals cases he
  exact h.steady (Steady.refl e).changeHolds

theorem Steady.unstall (h : Steady a e) {r : CardRecord} : Steady a (e.unstall r) := by
  unfold Engine.unstall
  split
  · exact h.updatePort
  · exact h

theorem Kept.resumeCard (h : Kept none a e) {n : Nat} {x : Engine} (he : e.resumeCard g n = .ok x) : Kept none a x := by
  unfold Engine.resumeCard at he
  split at he
  · cases he
  · split at he
    · cases he
      exact (h.steady (Steady.changeHolds (.ite (Steady.refl e).unstall (.refl e)))).settleTransfer
    · cases he

/-- A descriptor that does not run is on no lane. -/
theorem Engine.waiting_apart (h : e.queueFits none) {d : Descriptor} (hd : d ∈ e.queue) (waits : d.state ≠ .running) (l : Fin 2) :
    e.laneSlot l ≠ some d.slot := by
  intro ran
  unfold Engine.queueFits at h
  rw [lanesBut_none] at h
  obtain ⟨x, hx, slot, runs⟩ := h.runs l _ ran
  have slots : (e.berths.map (·.slot)).Nodup := List.pairwise_map.mpr (h.order.imp fun k => k.slots)
  obtain rfl : x = d.berth := List.inj_on_of_nodup_map slots hx (List.mem_map_of_mem hd) slot
  simp [Descriptor.berth, waits] at runs

/-- The waiting descriptors of a card are removed, and the lanes run on (R99). -/
theorem Kept.abortWaiting {ds : List Descriptor} (h : Kept none a e) (waits : a.queueFits none → ∀ d ∈ ds, ∀ l, e.laneSlot l ≠ some d.slot) :
    Kept none a (ds.foldl Engine.abortWaiting e) := by
  induction ds generalizing e with
  | nil => exact h
  | cons d ds ih =>
    have failed : Steady e (match d.kind, d.clip with
        | .copy, some x => d.targets.foldl (fun (e : Engine) v => e.updateCopy x v (fun r => { r with state := .failed })) e
        | _, _ => e) := by
      split
      · exact .foldl (fun _ _ h => h.updateCopy) _ (.refl e)
      · exact .refl e
    have lanes : (e.abortWaiting d).laneSlot = e.laneSlot := (Steady.refl _).settleRemoval.lanes.trans failed.lanes
    have removed : Kept none a (e.abortWaiting d) :=
      ((h.steady failed).removeWaiting fun k l => failed.lanes ▸ waits k d List.mem_cons_self l).steady (Steady.refl _).settleRemoval
    exact ih removed fun k x hx => lanes ▸ waits k x (List.mem_cons_of_mem d hx)

theorem Kept.abortCard (h : Kept none a e) {n : Nat} {x : Engine} (he : e.abortCard g n = .ok x) : Kept none a x := by
  unfold Engine.abortCard at he
  cases hk : e.checkCard n with
  | error y => rw [hk] at he; cases he
  | ok cr =>
    obtain ⟨c, r⟩ := cr
    rw [hk] at he
    dsimp only at he
    by_cases hw : r.state.workable = true
    · rw [if_pos hw] at he
      rw [← Except.ok.inj he]
      have removed := h.abortWaiting (ds := e.queue.filter (fun d => d.worksFor c && decide (d.state ≠ .running))) fun k d hd =>
        Engine.waiting_apart (h.queue k) (List.mem_of_mem_filter hd) fun runs => by simp [runs] at hd
      exact (removed.steady (Steady.changeHolds (.foldl (f := Engine.markAbort c) (fun _ _ h => h.markAbort) _ (.refl _)))).settleTransfer
    · rw [if_neg hw] at he
      cases he

theorem Kept.recomputeCard (h : Kept none a e) {c : Fin 32} : Kept none a (e.recomputeCard c) := h.steady (Steady.refl e).recomputeCard

theorem Kept.queueRecopy (h : Kept none a e) {c : Clip} {m : BitVec 4} {n : Nat} {x : Fin 64 × Source × List (Fin 16) × Engine}
    (he : e.queueRecopy g c m n = .ok x) : Kept none a x.2.2.2 := by
  unfold Engine.queueRecopy at he
  dsimp only at he
  repeat' split at he
  all_goals cases he
  dsimp only
  exact h.queueCopy.recomputeCard

theorem Kept.recopy (h : Kept none a e) {slot gen mask : Nat} {x : Fin 64 × Source × List (Fin 16) × Engine}
    (he : e.recopy g slot gen mask = .ok x) : Kept none a x.2.2.2 := by
  unfold Engine.recopy at he
  split at he
  · cases he
  · split at he
    · cases he
    · split at he
      · cases he
      · next hq => cases he; exact (h.queueRecopy hq).settleTransfer

theorem Kept.requeue (h : Kept none a e) {x : Handle} {v : Fin 16} {n : Nat} : Kept none a (e.requeue g x v n) := by
  unfold Engine.requeue
  split
  · split
    · next hq => exact (h.queueRecopy hq).settleTransfer
    · exact h
  · exact h

theorem Kept.release (h : Kept none a e) {c : Fin 32} {vs : List (Fin 16)} : Kept none a (e.release g c vs) :=
  ((((h.steady (Steady.refl e).setCardState.lowerFaults)).foldl (f := Engine.queueManifest c) (fun _ _ h => h.queueManifest) vs).steady
    (Steady.refl _).settleRelease).settleTransfer

theorem Kept.releaseCard (h : Kept none a e) {n : Nat} {x : Nat × Engine} (he : e.releaseCard g n = .ok x) : Kept none a x.2 := by
  unfold Engine.releaseCard at he
  dsimp only at he
  repeat' split at he
  all_goals cases he
  exact h.release

theorem Steady.retireClip {s k : Nat} {x : Engine} (he : e.retireClip s k = .ok x) : Steady e x := by
  unfold Engine.retireClip at he
  repeat' split at he
  all_goals cases he
  exact (Steady.refl e).retireOne.afterRetire

theorem Steady.retireCard {n : Nat} {x : Engine} (he : e.retireCard n = .ok x) : Steady e x := by
  unfold Engine.retireCard at he
  repeat' split at he
  all_goals cases he
  exact Steady.afterRetire (.foldl (fun _ _ h => h.retireOne) _ (.refl e))

/-! ## The Event Link Matrix -/

/-- The pending requeues change, and stay legal. -/
theorem Kept.requeued (h : Kept none a e) {xs : List Requeue} (hx : RequeuesFit e.requeues → RequeuesFit xs) :
    Kept none a { e with requeues := xs } := ⟨h.faults, h.queue, h.renders, hx ∘ h.requeues⟩

theorem Kept.requeuePair (h : Kept none a e) {x : Handle} {v : Fin 16} {n : Nat} {b : Bool} (hn : 1 ≤ n ∧ n ≤ 3) :
    Kept none a (e.requeuePair g x v n b) := .ite (h.requeued fun k => k.place hn) h.requeue

theorem Kept.requeueFailed (h : Kept none a e) {x : Handle} {v : Fin 16} : Kept none a (e.requeueFailed g x v) := by
  unfold Engine.requeueFailed
  split
  · split
    · next low => exact h.requeuePair ⟨Nat.le_add_left 1 _, low⟩
    · exact h
  · exact h

theorem Kept.requeueInserted (h : Kept none a e) {v : Fin 16} {x : Handle} : Kept none a (Engine.requeueInserted g v e x) := by
  unfold Engine.requeueInserted
  split
  · split
    · next low => exact h.requeuePair ⟨Nat.le_add_left 1 _, low.2⟩
    · exact h
  · exact h

theorem Kept.act (h : Kept none a e) {x : LinkEntry} {ev : Event} : Kept none a (e.act g x ev) := by
  unfold Engine.act
  cases x.action with
  | holdCard =>
    dsimp only
    split
    · split
      · next he => exact h.holdCard he
      · exact h
    · exact h
  | requeueCopy =>
    dsimp only
    split
    · exact h.requeueFailed
    · exact h.foldl (fun _ _ h => h.requeueInserted) _
    · exact h
  | queueRender =>
    dsimp only
    split
    · split
      · next he => exact h.queueRender he
      · exact h
    · exact h
  | cancelRenders =>
    dsimp only
    split
    · exact h.cancelRenders
    · exact h
  | cueMonitor =>
    dsimp only
    split
    · split
      · next he => exact h.cueMonitor he
      · exact h
    · exact h
  | pauseRenderQueue => exact h.steady ((Steady.refl e).frame rfl)

theorem Kept.examineEntry (h : Kept none a e) {ev : Event} {x : Option LinkEntry} : Kept none a (Engine.examineEntry g ev e x) := by
  unfold Engine.examineEntry
  split
  · exact .ite h.act h
  · exact h

theorem Kept.takeEvents (h : Kept none a e) : Kept none a (e.takeEvents g) :=
  h.foldl (fun _ _ h => h.foldl (fun _ _ h => h.examineEntry) _) _

theorem Kept.examineRequeues {n : Nat} (h : Kept none a e) : Kept none a (Engine.examineRequeues g n e) := by
  induction n generalizing e with
  | zero => exact h
  | succ n ih =>
    unfold Engine.examineRequeues
    split
    · next x _ => exact ih (h.requeued fun k => k.erase x).requeue
    · exact h

theorem Kept.endStep (h : Kept none a e) : Kept none a (e.endStep g) := .ite h.takeEvents.examineRequeues h.takeEvents

/-! ## The fault requests -/

/-- The record that a fault request names is one of the list (R183). -/
theorem Engine.checkFault_mem {n : Nat} {r : FaultRecord} (h : e.checkFault n = .ok r) : r ∈ e.faults := by
  unfold Engine.checkFault at h
  split at h
  · cases h
  · split at h
    · next found => cases h; exact List.mem_of_find?_eq_some found
    · cases h

theorem Steady.ackFault {n : Nat} {x : Engine} (he : e.ackFault n = .ok x) : Steady e x := by
  unfold Engine.ackFault at he
  split at he
  · cases he
  · next r found =>
    have named := Engine.checkFault_mem found
    split at he
    · next state =>
      cases he
      exact (Steady.refl e).putFault (x := r) named ⟨rfl, rfl, rfl, rfl, rfl, fun _ => by rw [FaultRecord.unresolved, state]⟩
    · cases he; exact .refl e
    · cases he
    · cases he

theorem Steady.waiveFault {n : Nat} {x : Engine} (he : e.waiveFault n = .ok x) : Steady e x := by
  unfold Engine.waiveFault at he
  split at he
  · cases he
  · next r found =>
    have waived : Steady e (e.putFault { r with state := .waived }) :=
      (Steady.refl e).putFault (Engine.checkFault_mem found) ⟨rfl, rfl, rfl, rfl, rfl, nofun⟩
    split at he
    · cases he; exact waived
    · cases he; exact waived
    · cases he; exact .refl e
    · cases he

theorem Steady.waiveOverflow {slot gen : Nat} {x : Engine} (he : e.waiveOverflow slot gen = .ok x) : Steady e x := by
  unfold Engine.waiveOverflow at he
  split at he
  · cases he
  · obtain rfl := Except.ok.inj he
    exact (Steady.refl e).updateClip

theorem Steady.bindLook {slot gen look : Nat} {x : Engine} (he : e.bindLook slot gen look = .ok x) : Steady e x := by
  unfold Engine.bindLook at he
  split at he
  · cases he
  · split at he
    · cases he
    · obtain rfl := Except.ok.inj he
      exact (Steady.refl e).bind

end Sys2Proof.Machine
end

