-- ==== Sys2Proof/Proofs/QueuesLegal.lean ====
section
/-!
O27: each command of the part keeps the fault list, the copy queue, the render queue and the pending requeues legal.
-/

namespace Sys2Proof.Machine

/-! ## Steps of the blocks -/

section
variable {s : State}

/-- A step of the part keeps the invariants of O27. -/
def State.holds (s t : State) : Prop := Kept none s.engine t.engine

theorem State.holds.closeStep {a : Engine} (h : Kept none a s.engine) : Kept none a s.closeStep.engine := h.endStep

theorem Kept.beginStep {a e : Engine} (h : Kept none a e) : Kept none a e.beginStep := h.steady ((Steady.refl e).frame rfl)

theorem State.holds.run {f : Settings → Engine → Engine} (hf : ∀ g a e, Kept none a e → Kept none a (f g e)) : s.holds (s.run f) := by
  unfold State.run
  split
  · exact .refl _
  · exact .closeStep (hf _ _ _ (Kept.refl s.engine).beginStep)

theorem State.holds.runAt {time : Nat} {f : Settings → Engine → Engine} (hf : ∀ g a e, Kept none a e → Kept none a (f g e)) :
    s.holds (s.runAt time f) := by
  unfold State.runAt
  split
  · exact .refl _
  · exact State.holds.run (s := { s with now := time }) hf

theorem State.holds.atStation {p : StationPort} {f : Station → Station} : s.holds (s.atStation p f) := by
  unfold State.atStation
  split <;> exact .refl _

/-! ## Requests -/

/-- A rule of a request keeps the invariants. -/
def RuleHolds (rule : State → Answer × State) : Prop := ∀ (a : Engine) (s : State), Kept none a s.engine → Kept none a (rule s).2.engine

theorem RuleHolds.refuse (x : Status) : RuleHolds (refuseWith x) := fun _ _ h => h

theorem RuleHolds.read (f : State → Answer) : RuleHolds (readRule f) := fun _ _ h => h

theorem RuleHolds.plain {f : Settings → Engine → Except Status Engine} (hf : ∀ g a e x, Kept none a e → f g e = .ok x → Kept none a x) :
    RuleHolds (plainRule f) := by
  intro a s h
  unfold plainRule
  split
  · next hx => exact hf _ _ _ _ h hx
  · exact h

/-- A request that is steady on the blocks. -/
theorem RuleHolds.steady {f : Settings → Engine → Except Status Engine} (hf : ∀ g e x, f g e = .ok x → Steady e x) :
    RuleHolds (plainRule f) := .plain fun _ _ _ _ h hx => h.steady (hf _ _ _ hx)

theorem RuleHolds.block {α : Type} {f : Settings → Engine → Except Status (α × Engine)} {results : α → List Byte}
    (hf : ∀ g a e x, Kept none a e → f g e = .ok x → Kept none a x.2) : RuleHolds (blockRule f results) := by
  intro a s h
  unfold blockRule
  split
  · next hx => exact hf _ _ _ _ h hx
  · exact h

theorem RuleHolds.setting {α : Type} {f : Settings → Except Status (α × Settings)} {results : α → List Byte} :
    RuleHolds (settingRule f results) := by
  intro a s h
  unfold settingRule
  split <;> exact h

theorem RuleHolds.plainSetting {f : Settings → Except Status Settings} : RuleHolds (plainSetting f) := by
  intro a s h
  unfold Sys2Proof.Machine.plainSetting
  split <;> exact h

theorem State.holds.answerBy {o : Origin} {kind : Nat} {rest : List Request} {rule : State → Answer × State} (hr : RuleHolds rule) :
    s.holds (s.answerBy o kind rest rule) :=
  .closeStep (hr s.engine { s.openStep with stations := s.stations.set o.port { s.stations.get o.port with untaken := rest } }
    (Kept.refl s.engine).beginStep)

theorem State.holds.take {α : Type} [DecidableEq α] {o : Origin} {kind : Nat} {read : Reader α} {args : α} {rule : State → Answer × State}
    (hr : RuleHolds rule) : s.holds (s.take o kind read args rule) := by
  have refused : ∀ x rest, s.holds (s.answerBy o kind rest (refuseWith x)) := fun x _ => .answerBy (.refuse x)
  unfold State.take
  split
  · split
    · split
      · exact .answerBy hr
      · exact refused _ _
    · split
      · split
        · split
          · exact refused _ _
          · split
            · exact .answerBy hr
            · exact .refl _
        · exact refused _ _
      · exact .refl _
  · exact .refl _

theorem State.holds.takeUnknown {o : Origin} {kind : Nat} {payload : List Byte} : s.holds (s.takeUnknown o kind payload) := by
  have refused : ∀ rest, s.holds (s.answerBy o kind rest (refuseWith .badArgument)) := fun _ => .answerBy (.refuse _)
  unfold State.takeUnknown
  split
  · split
    · exact refused _
    · split
      · exact refused _
      · exact .refl _
  · exact .refl _

end

/-! ## The rules of single requests -/

theorem RuleHolds.readFaults {start count : Nat} : RuleHolds (readFaultsRule start count) := by
  intro a s h
  unfold readFaultsRule
  split
  · exact h.steady ((Steady.refl s.engine).frame rfl)
  · exact h

theorem RuleHolds.setNotices {p : StationPort} {mask : Nat} : RuleHolds (setNoticesRule p mask) := by
  intro a s h
  unfold setNoticesRule
  split <;> exact h

/-- SET_MONITOR leaves the cue (R150). -/
theorem MonitorOut.setRate_cue (m : MonitorOut) (r : Fin 9) (d : Bool) : (m.setRate r d).cue = m.cue := by
  unfold MonitorOut.setRate
  split <;> rfl

theorem MonitorOut.takeRate_cue (m : MonitorOut) (x y : Option (Fin 9)) : (m.takeRate x y).cue = m.cue := by
  unfold MonitorOut.takeRate
  split
  · rfl
  · split
    · exact m.setRate_cue _ _
    · split
      · exact m.setRate_cue _ _
      · rfl

theorem MonitorOut.takeReference_cue (m : MonitorOut) (x y : Reference) (t : Nat) : (m.takeReference x y t).cue = m.cue := by
  unfold MonitorOut.takeReference
  repeat' split
  all_goals rfl

theorem RuleHolds.setMonitor {rate decimation reference time : Nat} : RuleHolds (setMonitorRule rate decimation reference time) := by
  intro a s h
  unfold setMonitorRule
  split
  · exact h.updateMonitor (f := fun m => (m.takeRate _ _).takeReference _ _ _)
      (congrArg _ ((MonitorOut.takeReference_cue ..).trans (MonitorOut.takeRate_cue ..)))
  · exact h

theorem RuleHolds.writeLook {x : LookArgs} : RuleHolds (writeLookRule x) := by
  intro a s h
  unfold writeLookRule
  split
  · split
    · exact h.steady (Steady.refl s.engine).staleSlot
    · exact h
  · exact h

theorem RuleHolds.clearLook {slot : Nat} : RuleHolds (clearLookRule slot) := by
  intro a s h
  unfold clearLookRule
  split
  · exact h
  · split
    · exact h
    · exact h.steady (Steady.refl s.engine).staleSlot

theorem RuleHolds.releaseCard {card : Nat} : RuleHolds (releaseCardRule card) := by
  intro a s h
  unfold releaseCardRule
  split
  · next hx => exact h.releaseCard hx
  · exact h
  · exact h

theorem RuleHolds.startOffload {card set : Nat} : RuleHolds (startOffloadRule card set) := by
  refine .block fun g a e x h hx => ?_
  split at hx
  · next hy =>
    obtain rfl := Except.ok.inj hx
    exact h.startOffload hy
  · cases hx

theorem RuleHolds.recopy {slot generation mask : Nat} : RuleHolds (recopyRule slot generation mask) := by
  refine .block fun g a e x h hx => ?_
  split at hx
  · next hy =>
    obtain rfl := Except.ok.inj hx
    exact h.recopy hy
  · cases hx

theorem RuleHolds.resumeRenders : RuleHolds (plainRule (fun g e => .ok ({ e with paused := false }.settleRender g))) := by
  refine .plain fun g a e x h hx => ?_
  rw [← Except.ok.inj hx]
  exact Kept.settleRender (h.steady ((Steady.refl e).frame rfl))

theorem RuleHolds.stopMonitor : RuleHolds (plainRule (fun g e => .ok (e.stopMonitor g))) := by
  refine .plain fun g a e x h hx => ?_
  rw [← Except.ok.inj hx]
  exact h.stopMonitor

/-! ## Reset -/

/-- The blocks of reset meet the invariants (R78, R105, R113, R210). -/
theorem Kept.reset (a : Engine) : Kept none a Engine.reset where
  faults _ := (Engine.faultsLegal_iff _).mp (by decide)
  queue _ := by
    unfold Engine.queueFits
    rw [lanesBut_none]
    exact (Engine.queueLegal_iff _).mp (by decide)
  renders _ := (Engine.rendersLegal_iff _).mp (by decide)
  requeues _ := (Engine.requeuesLegal_iff _).mp (by decide)

theorem Kept.restarted (a : Engine) (seated mounted : Vector Bool 4) : Kept none a (Engine.restarted seated mounted) := by
  have seats : Steady Engine.reset ((List.finRange 4).foldl (Engine.seatCard seated) Engine.reset) :=
    .foldl (fun _ _ h => .ite h.updatePort h) _ (.refl _)
  exact (Kept.reset a).steady (.foldl (f := Engine.mountDrive mounted) (fun _ _ h => .ite h.mount h) _ seats)

/-! ## The commands -/

/-- A command answers a next state, and keeps the invariants of O27. -/
def Holding (f : State → Host.Outcome State Fault Refusal) : Prop := ∀ s : State, ∃ t, f s = .next t ∧ s.holds t

theorem Holding.take {α : Type} [DecidableEq α] {o : Origin} {kind : Nat} {read : Reader α} {args : α} {rule : State → Answer × State}
    (hr : RuleHolds rule) : Holding (fun s => .next (s.take o kind read args rule)) := fun _ => ⟨_, rfl, .take hr⟩

theorem Holding.run {f : Settings → Engine → Engine} (hf : ∀ g a e, Kept none a e → Kept none a (f g e)) :
    Holding (fun s => .next (s.run f)) := fun _ => ⟨_, rfl, .run hf⟩

theorem Holding.answered {x : AnswerTo} {f : Settings → Engine → Engine} (hf : ∀ g a e, Kept none a e → Kept none a (f g e)) :
    Holding (fun s => .next (s.answered x f)) := by
  intro s
  cases x with
  | outstanding => exact ⟨_, rfl, .run hf⟩
  | abandoned => exact ⟨_, rfl, .refl _⟩

theorem Holding.atStation {p : StationPort} {f : Station → Station} : Holding (fun s => .next (s.atStation p f)) :=
  fun _ => ⟨_, rfl, .atStation⟩

/-- An answer to an object operation keeps the invariants (R73). -/
theorem Holding.operation {p : Fin 4} {x : AnswerTo} {f : OpRequest → Option Reply} :
    Holding (fun s => .next (s.answered x (fun g e => e.operationAnswered g p f))) := .answered fun _ _ _ h => h.operationAnswered

theorem Holding.resetRelease : Holding execResetRelease := by
  intro s
  refine ⟨_, rfl, ?_⟩
  unfold State.holds
  split
  · exact .restarted _ _ _
  · exact .refl _

theorem Holding.present {p : Fin 4} : Holding (execPresent p) := fun s =>
  ⟨_, rfl, State.holds.run (s := { s with seated := s.seated.set p true }) fun _ _ _ h => h.cardArrives⟩

theorem Holding.absent {p : Fin 4} : Holding (execAbsent p) := fun s =>
  ⟨_, rfl, State.holds.run (s := { s with seated := s.seated.set p false }) fun _ _ _ h => h.cardLeaves.settleTransfer⟩

theorem Holding.inserted {p : Fin 4} : Holding (execInserted p) := fun s =>
  ⟨_, rfl, State.holds.run (s := { s with mounted := s.mounted.set p true }) fun _ _ _ h => h.driveArrives⟩

theorem Holding.removed {p : Fin 4} : Holding (execRemoved p) := fun s =>
  ⟨_, rfl, State.holds.run (s := { s with mounted := s.mounted.set p false }) fun _ _ _ h => h.driveLeaves⟩

/-- Each command answers a next state that keeps the invariants. -/
theorem exec_holds (c : Instr) : Holding (exec c) := by
  cases c with
  | resetAssert => exact fun s => ⟨_, rfl, Kept.reset s.engine⟩
  | resetRelease => exact .resetRelease
  | linkUp p => exact .atStation
  | linkLost p => exact .atStation
  | requestArrival o kind payload => exact .atStation
  | messageSent p => exact .atStation
  | unknownRequestKind o kind payload => exact fun _ => ⟨_, rfl, .takeUnknown⟩
  | status o => exact .take (.read _)
  | readClip o slot generation => exact .take (.read _)
  | listClips o start count => exact .take (.read _)
  | readCard o card => exact .take (.read _)
  | readVolumes o => exact .take (.read _)
  | readFaults o start count => exact .take .readFaults
  | readLook o selector => exact .take (.read _)
  | readLinks o => exact .take (.read _)
  | setNotices o mask => exact .take .setNotices
  | writeLink o entry kind camera severity action parameter enabled => exact .take .plainSetting
  | clearLink o entry => exact .take .plainSetting
  | ackFault o number => exact .take (.steady fun _ _ _ hx => .ackFault hx)
  | startOffload o card set => exact .take .startOffload
  | holdCard o card => exact .take (.plain fun _ _ _ _ h hx => h.holdCard hx)
  | resumeCard o card => exact .take (.plain fun _ _ _ _ h hx => h.resumeCard hx)
  | abortCard o card => exact .take (.plain fun _ _ _ _ h hx => h.abortCard hx)
  | releaseCard o card => exact .take .releaseCard
  | recopy o slot generation mask => exact .take .recopy
  | retireClip o slot generation => exact .take (.steady fun _ _ _ hx => .retireClip hx)
  | retireCard o card => exact .take (.steady fun _ _ _ hx => .retireCard hx)
  | defineSet o set mask copies mode => exact .take .plainSetting
  | setStall o port period retries => exact .take .setting
  | writeLook o a => exact .take .writeLook
  | clearLook o slot => exact .take .clearLook
  | writeBinding o entry camera reelLow reelHigh look enabled => exact .take .plainSetting
  | bindLook o slot generation look => exact .take (.steady fun _ _ _ hx => .bindLook hx)
  | queueRender o slot generation range port => exact .take (.block fun _ _ _ _ h hx => h.queueRender hx)
  | resumeRenders o => exact .take .resumeRenders
  | cueMonitor o slot generation range loop port => exact .take (.block fun _ _ _ _ h hx => h.cueMonitor hx)
  | stopMonitor o => exact .take .stopMonitor
  | setMonitor o rate decimation reference time => exact .take .setMonitor
  | cancelRender o job => exact .take (.plain fun _ _ _ _ h hx => h.cancelRender hx)
  | waiveFault o number => exact .take (.steady fun _ _ _ hx => .waiveFault hx)
  | waiveOverflow o slot generation => exact .take (.steady fun _ _ _ hx => .waiveOverflow hx)
  | writeProfile o a => exact .take .setting
  | present p => exact .present
  | absent p => exact .absent
  | directoryAnswer p x a => exact .answered fun _ _ _ h => h.directoryArrives
  | directoryTimeout p => exact .run fun _ _ _ h => h.steady (Steady.refl _).directoryTimesOut
  | readAnswer p x a => exact .answered fun _ _ _ h => h.readArrives
  | stallTimerExpiry p => exact .run fun _ _ _ h => h.stallExpires
  | inserted p => exact .inserted
  | removed p => exact .removed
  | identifyAnswer p x a => exact .answered fun _ _ _ h => h.identified
  | enclosureTimeout p => exact .run fun _ _ _ h => h.enclosureTimesOut
  | openWriteAnswer p x a => exact .operation
  | appendAnswer p x a => exact .operation
  | closeAnswer p x a => exact .operation
  | openReadAnswer p x a => exact .operation
  | volumeReadAnswer p x a => exact .operation
  | samplerCompletion lane => exact .run fun _ _ _ h => h.steady (Steady.refl _).sampleComplete
  | sync damage => exact fun _ => ⟨_, rfl, .runAt fun _ _ _ h => h.syncArrives⟩
  | referencePulse time damage => exact fun _ => ⟨_, rfl, .runAt fun _ _ _ h => h.pulse⟩
  | referenceTimeout damage => exact fun _ => ⟨_, rfl, .runAt fun _ _ _ h => h.referenceExpires⟩

/-- A step keeps the invariants. -/
theorem step_holds {s t : State} (h : step s = .next t) : Kept none s.engine t.engine := by
  unfold step at h
  split at h
  · obtain rfl := Host.Outcome.next.inj h
    exact .refl _
  · next c rest _ =>
    obtain ⟨u, hu, k⟩ := exec_holds c { s with pending := rest }
    obtain rfl := Host.Outcome.next.inj (hu.symm.trans h)
    exact k

/-- Settles O27: every change of the blocks keeps the fault list legal, the copy queue in agreement with the lanes, the render queue in
agreement with the contexts and the pending requeues legal, and so does every command. -/
theorem everyStepKeepsTheQueuesLegal : Obligations.EveryStepKeepsTheQueuesLegal := by
  unfold Obligations.EveryStepKeepsTheQueuesLegal
  intro s t h
  obtain ⟨faults, queue, renders, requeues⟩ := step_holds h
  unfold Engine.queueFits at queue
  rw [lanesBut_none, lanesBut_none] at queue
  rw [Engine.faultsLegal_iff, Engine.faultsLegal_iff, Engine.queueLegal_iff, Engine.queueLegal_iff, Engine.rendersLegal_iff,
    Engine.rendersLegal_iff, Engine.requeuesLegal_iff, Engine.requeuesLegal_iff]
  exact ⟨faults, queue, renders, requeues⟩

end Sys2Proof.Machine
end

