-- ==== Sys2Proof/Proofs/HoldRequests.lean ====
section
/-!
O36: HOLD_CARD and RESUME_CARD set and clear the hold flags of a card; its waiting descriptors, its state and its port follow (R37, R81,
R94, R97, R98).
-/

namespace Sys2Proof.Machine

section
variable {e : Engine} {g : Settings} {card : Fin 32} {r : CardRecord}

/-! ## What a change of the hold flags leaves -/

/-- The change leaves everything but the card records, the card ports, the copy queue and the events. -/
def Engine.flagsMove (a b : Engine) : Prop :=
  b = { a with cards := b.cards, cardPorts := b.cardPorts, queue := b.queue, events := b.events }

theorem Engine.flagsMove.trans {a b c : Engine} (h : a.flagsMove b) (k : b.flagsMove c) : a.flagsMove c := by
  unfold Engine.flagsMove at *
  rw [k, h]

theorem Engine.holdsMove.flagsMove {a b : Engine} (h : a.holdsMove b) : a.flagsMove b := by
  unfold Engine.flagsMove
  rw [h]

theorem Engine.signalSecured_flagsMove : e.flagsMove (e.signalSecured card) := by
  unfold Engine.signalSecured
  split <;> rfl

theorem Engine.recomputeCard_flagsMove : e.flagsMove (e.recomputeCard card) := by
  obtain he | ⟨he, -⟩ | ⟨x, he⟩ := e.recomputeCard_cases card <;> rw [he]
  · rfl
  · exact ((Engine.setCardState_holdsMove _).flagsMove.trans (Engine.updateCard_holdsMove _).flagsMove).trans Engine.signalSecured_flagsMove
  · exact (Engine.setCardState_holdsMove x).flagsMove

theorem Engine.changeHolds_flagsMove (f : CardRecord → CardRecord) : e.flagsMove (e.changeHolds card f) := by
  have follows : ∀ a : Engine, a.flagsMove (a.recomputeHolds card) := fun a => by
    unfold Engine.recomputeHolds
    split <;> rfl
  exact ((Engine.updateCard_holdsMove f).flagsMove.trans (follows _)).trans Engine.recomputeCard_flagsMove

theorem Engine.recomputeCard_queue : (e.recomputeCard card).queue = e.queue := by
  obtain he | ⟨he, -⟩ | ⟨x, he⟩ := e.recomputeCard_cases card <;> rw [he]
  · exact Engine.becomeOffloaded_queue
  · exact Engine.setCardState_queue _ _ x

/-- The hold flags of a card changed, before its state follows (R81). -/
def Engine.reheld (e : Engine) (card : Fin 32) (f : CardRecord → CardRecord) : Engine := (e.updateCard card f).recomputeHolds card

theorem Engine.reheld_card {f : CardRecord → CardRecord} (c : Fin 32) :
    (e.reheld card f).cards[c] = (e.cards[c]).map (fun r => if c = card then f r else r) := by
  unfold Engine.reheld
  rw [Engine.recomputeHolds_cards, Engine.updateCard_card]

theorem Engine.reheld_own {f : CardRecord → CardRecord} (hr : e.cards[card] = some r) : (e.reheld card f).cards[card] = some (f r) := by
  rw [Engine.reheld_card, hr]
  simp

/-- A card's waiting descriptors follow its flags (R81). -/
theorem Engine.reheld_queue {f : CardRecord → CardRecord} (hr : e.cards[card] = some r) : (e.reheld card f).queue =
    e.queue.map (fun d => if d.card = card ∧ d.state ≠ .running then { d with state := (f r).waitingState d } else d) := by
  have own : (e.updateCard card f).cards[card] = some (f r) := by
    rw [Engine.updateCard_card, hr]
    simp
  unfold Engine.reheld
  rw [Engine.recomputeHolds_queue own, Engine.updateCard_queue]

theorem Engine.changeHolds_queue {f : CardRecord → CardRecord} (hr : e.cards[card] = some r) : (e.changeHolds card f).queue =
    e.queue.map (fun d => if d.card = card ∧ d.state ≠ .running then { d with state := (f r).waitingState d } else d) :=
  Engine.recomputeCard_queue.trans (Engine.reheld_queue hr)

theorem Engine.changeHolds_other {f : CardRecord → CardRecord} {c : Fin 32} (hc : c ≠ card) :
    (e.changeHolds card f).cards[c] = e.cards[c] := by
  refine (Engine.recomputeCard_other (e := e.reheld card f) hc).trans ?_
  rw [Engine.reheld_card]
  simp [hc]

/-- A card with work in the queue takes its state from it (R94). -/
theorem Engine.recomputeCard_working (hr : e.cards[card] = some r) (hs : r.state = .offloading ∨ r.state = .held ∨ r.state = .offloaded)
    {x : CardState} (takes : e.cardStateFromQueue card = x) (working : x ≠ .offloaded) :
    (e.recomputeCard card).cards[card] = some { r with state := x } := by
  unfold Engine.recomputeCard
  rw [hr]
  dsimp only
  rw [if_pos hs, takes]
  split
  · next same => subst same; exact hr
  · have own := Engine.setCardState_card (e := e) (card := card) x card
    rw [hr] at own
    simpa [if_neg working] using own

/-- What the work of a card makes of it: HELD when all of it is HELD, and else OFFLOADING (R94). -/
theorem Engine.cardStateFromQueue_eq {d : Descriptor} (hd : d ∈ e.queue) (works : d.worksFor card = true) :
    e.cardStateFromQueue card = if ∀ d ∈ e.queue, d.worksFor card = true → d.state = .held then .held else .offloading := by
  have some_work : (e.queue.filter (·.worksFor card)).isEmpty = false := by
    rw [List.isEmpty_eq_false_iff_exists_mem]
    exact ⟨d, List.mem_filter.mpr ⟨hd, works⟩⟩
  have all : ((e.queue.filter (·.worksFor card)).all (fun d => decide (d.state = .held)) = true) ↔
      ∀ d ∈ e.queue, d.worksFor card = true → d.state = .held := by
    simp only [List.all_eq_true, List.mem_filter, decide_eq_true_eq, and_imp]
  unfold Engine.cardStateFromQueue
  dsimp only
  rw [some_work]
  simp only [all, Bool.false_eq_true, if_false]

/-! ## HOLD_CARD -/

/-- HELD_BY_REQUEST holds every waiting descriptor of the card but a MANIFEST (R81). -/
theorem CardRecord.waitingState_requested (d : Descriptor) :
    CardRecord.waitingState { r with heldByRequest := true } d = if d.kind = .manifest then .queued else .held := by
  unfold CardRecord.waitingState CardRecord.covers
  cases d.kind <;> rfl

/-- HOLD_CARD's flag (R97). -/
def CardRecord.requestHeld (r : CardRecord) : CardRecord := { r with heldByRequest := true }

theorem Engine.requestHeld_queue (hr : e.cards[card] = some r) : (e.reheld card CardRecord.requestHeld).queue =
    e.queue.map (fun d =>
      if d.card = card ∧ d.state ≠ .running then { d with state := if d.kind = .manifest then .queued else .held } else d) := by
  rw [Engine.reheld_queue hr]
  exact List.map_congr_left fun d _ => by rw [← CardRecord.waitingState_requested (r := r)]; rfl

/-- The state that a card held by request takes from its work: OFFLOADING while some of it runs, and else HELD (R94). -/
theorem Engine.requestHeld_cardState (hr : e.cards[card] = some r) (working : ∃ d ∈ e.queue, d.worksFor card = true) :
    (e.reheld card CardRecord.requestHeld).cardStateFromQueue card =
      if ∃ d ∈ e.queue, d.worksFor card = true ∧ d.state = .running then .offloading else .held := by
  obtain ⟨d, hd, works⟩ := working
  have queue := Engine.requestHeld_queue hr
  have held : ∀ x : Descriptor, x.worksFor card = true →
      ((if x.card = card ∧ x.state ≠ .running then { x with state := if x.kind = .manifest then .queued else .held } else x).state
        = DescState.held ↔ x.state ≠ .running) := by
    intro x works
    simp only [Descriptor.worksFor, Bool.and_eq_true, decide_eq_true_eq] at works
    obtain ⟨own, kind⟩ := works
    rw [if_neg kind]
    split
    · next waits => simp [waits.2]
    · next runs => simp_all
  have kept : ∀ x : Descriptor,
      (if x.card = card ∧ x.state ≠ .running then { x with state := if x.kind = .manifest then .queued else .held } else x).worksFor card
        = x.worksFor card := by
    intro x
    split <;> rfl
  rw [Engine.cardStateFromQueue_eq (queue ▸ List.mem_map_of_mem hd) ((kept d).trans works), queue]
  by_cases runs : ∃ d ∈ e.queue, d.worksFor card = true ∧ d.state = .running
  · obtain ⟨y, hy, yw, yr⟩ := runs
    rw [if_pos (c := ∃ d ∈ e.queue, _) ⟨y, hy, yw, yr⟩]
    refine if_neg fun all => ?_
    exact (held y yw).mp (all _ (List.mem_map_of_mem hy) ((kept y).trans yw)) yr
  · rw [if_neg runs]
    refine if_pos fun x hx xw => ?_
    obtain ⟨y, hy, rfl⟩ := List.mem_map.mp hx
    rw [kept] at xw
    exact (held y xw).mpr fun yr => runs ⟨y, hy, xw, yr⟩

theorem Engine.holdCard_ok (hr : e.cards[card] = some r) (hs : r.state = .offloading ∨ r.state = .held) :
    e.holdCard card = .ok (e.changeHolds card CardRecord.requestHeld) := by
  unfold Engine.holdCard
  rw [Engine.checkCard_val hr]
  exact if_pos hs

theorem Engine.holdCard_refused (hr : e.cards[card] = some r) (hs : ¬ (r.state = .offloading ∨ r.state = .held)) :
    e.holdCard card = .error .wrongState := by
  unfold Engine.holdCard
  rw [Engine.checkCard_val hr]
  exact if_neg hs

/-! ## RESUME_CARD -/

/-- RESUME_CARD's flags (R98). -/
def CardRecord.resumed (r : CardRecord) : CardRecord := { r with heldByRequest := false, heldByStall := false }

/-- With the other two flags clear, HELD_BY_ABSENCE holds the card-sourced COPYs (R81). -/
theorem CardRecord.waitingState_resumed (d : Descriptor) :
    r.resumed.waitingState d = if r.heldByAbsence = true ∧ d.kind = .copy ∧ d.source = some .card then .held else .queued := by
  unfold CardRecord.waitingState CardRecord.covers Descriptor.cardSourced
  rcases hk : d.kind with _ | _ | _ <;> simp [CardRecord.resumed]

/-- The card port's side of a resume (R37, R98). -/
def Engine.unstalled (e : Engine) (r : CardRecord) : Engine := if r.heldByStall then e.unstall r else e

theorem Engine.unstalled_flagsMove : e.flagsMove (e.unstalled r) := by
  unfold Engine.unstalled Engine.unstall
  split
  · split <;> rfl
  · rfl

theorem Engine.unstalled_cards : (e.unstalled r).cards = e.cards := by
  unfold Engine.unstalled Engine.unstall
  split
  · split <;> rfl
  · rfl

theorem Engine.unstalled_queue : (e.unstalled r).queue = e.queue := by
  unfold Engine.unstalled Engine.unstall
  split
  · split <;> rfl
  · rfl

theorem Engine.unstalled_port (p : Fin 4) : ((e.unstalled r).cardPorts[p]).state =
    if r.heldByStall = true ∧ r.attached = some p ∧ (e.cardPorts[p]).state = .stalled then .attached else (e.cardPorts[p]).state := by
  unfold Engine.unstalled Engine.unstall
  by_cases stall : r.heldByStall = true
  · rw [if_pos stall]
    split
    · next q hq =>
      rw [Engine.updatePort_port, hq]
      by_cases k : p = q
      · subst k
        simp [stall]
      · simp [k, Ne.symm k]
    · next hq => simp [hq]
  · simp [stall]

theorem Engine.resumeCard_ok (hr : e.cards[card] = some r) (hs : r.state.workable = true) :
    e.resumeCard g card = .ok (((e.unstalled r).changeHolds card CardRecord.resumed).settleTransfer g) := by
  unfold Engine.resumeCard
  rw [Engine.checkCard_val hr]
  exact if_pos hs

theorem Engine.resumeCard_refused (hr : e.cards[card] = some r) (hs : r.state.workable = false) :
    e.resumeCard g card = .error .wrongState := by
  unfold Engine.resumeCard
  rw [Engine.checkCard_val hr]
  exact if_neg (by simp [hs])

/-- A resume clears both flags and lets the state follow (R98). -/
theorem Engine.resumed_own (hr : e.cards[card] = some r) :
    ∃ x, (e.changeHolds card CardRecord.resumed).cards[card] = some { r with heldByRequest := false, heldByStall := false, state := x } := by
  obtain ⟨x, hx | ⟨hx, -⟩⟩ := Engine.recomputeCard_own (Engine.reheld_own (f := CardRecord.resumed) hr) <;>
    exact ⟨x, hx⟩

end

/-- A request that its rule carries out is answered DONE. -/
theorem plainRule_ok {f : Settings → Engine → Except Status Engine} {s : State} {e : Engine} (h : f s.settings s.engine = .ok e) :
    plainRule f s = ((.done, []), { s with engine := e }) := by
  unfold plainRule
  rw [h]
  rfl

/-- A request that its rule refuses is answered with the status. -/
theorem plainRule_error {f : Settings → Engine → Except Status Engine} {s : State} {x : Status} (h : f s.settings s.engine = .error x) :
    plainRule f s = ((x, []), s) := by
  unfold plainRule
  rw [h]
  rfl

/-- HOLD_CARD of an OFFLOADING or HELD card (R97). -/
theorem holdCard_answers {o : Origin} {c : Fin 32} {r : CardRecord} {s : State} (ha : s.accepts o = true) (ho : o.port = .A)
    (hr : s.engine.cards[c] = some r) (hs : r.state = .offloading ∨ r.state = .held) :
    ∃ t, exec (.holdCard o c) s = .next t ∧ s.answeredWith t o 14 (.done, []) ∧
      (s.settings.silent = true → t.engine = s.blocks.changeHolds c CardRecord.requestHeld) := by
  obtain ⟨t, ht, answered, he⟩ := State.take_answered (a := (.done, [])) (e := s.blocks.changeHolds c CardRecord.requestHeld) ha
    (kind := 14) read8 c.val (rule := plainRule (fun _ e => e.holdCard c)) (by rw [ho]; rfl) fun ss => by
      exact plainRule_ok (Engine.holdCard_ok (e := s.blocks) hr hs)
  refine ⟨t, ht, answered, fun quiet => ?_⟩
  have removed : (s.blocks.changeHolds c CardRecord.requestHeld).removed = false :=
    (Engine.changeHolds_move CardRecord.requestHeld).removed
  rw [he, Engine.endStep_silent quiet (.inl removed)]

/-- RESUME_CARD of a card in a workable state (R98). -/
theorem resumeCard_answers {o : Origin} {c : Fin 32} {r : CardRecord} {s : State} (ha : s.accepts o = true) (ho : o.port = .A)
    (hr : s.engine.cards[c] = some r) (hs : r.state.workable = true) :
    ∃ t, exec (.resumeCard o c) s = .next t ∧ s.answeredWith t o 15 (.done, []) ∧
      (s.settings.silent = true → s.engine.lanesTaken = true → s.engine.renderIdle = true →
        t.engine = (s.blocks.unstalled r).changeHolds c CardRecord.resumed) := by
  obtain ⟨t, ht, answered, he⟩ := State.take_answered (a := (.done, []))
    (e := ((s.blocks.unstalled r).changeHolds c CardRecord.resumed).settleTransfer s.settings) ha
    (kind := 15) read8 c.val (rule := plainRule (fun g e => e.resumeCard g c)) (by rw [ho]; rfl) fun ss => by
      exact plainRule_ok (Engine.resumeCard_ok (e := s.blocks) hr hs)
  refine ⟨t, ht, answered, fun quiet lanes idle => ?_⟩
  have moved : s.blocks.flagsMove ((s.blocks.unstalled r).changeHolds c CardRecord.resumed) :=
    Engine.unstalled_flagsMove.trans (Engine.changeHolds_flagsMove _)
  have still : ((s.blocks.unstalled r).changeHolds c CardRecord.resumed).settleTransfer s.settings = _ :=
    Engine.settleTransfer_like (e := s.blocks) lanes idle (by rw [moved]) (by rw [moved]) (by rw [moved])
  have removed : ((s.blocks.unstalled r).changeHolds c CardRecord.resumed).removed = false := by rw [moved]; rfl
  rw [he, still, Engine.endStep_silent quiet (.inl removed)]

/-- Settles O36: the flags are set and cleared on the record, and the waiting descriptors, the card's state and its port follow them. -/
theorem holdAndResumeSetTheHoldFlags : Obligations.HoldAndResumeSetTheHoldFlags := by
  unfold Obligations.HoldAndResumeSetTheHoldFlags
  intro o c r s ha ho hr
  refine ⟨fun hs => ?_, fun h1 h2 => ?_, fun hs => ?_, fun hs => ?_⟩
  · obtain ⟨t, ht, answered, he⟩ := holdCard_answers ha ho hr hs
    refine ⟨t, ht, answered, fun quiet => ?_⟩
    rw [he quiet]
    refine ⟨Engine.changeHolds_flagsMove _, Engine.recomputeCard_queue.trans (Engine.requestHeld_queue hr),
      fun c' hc => Engine.changeHolds_other hc, fun working => ?_⟩
    refine Engine.recomputeCard_working (Engine.reheld_own (e := s.blocks) (f := CardRecord.requestHeld) hr) ?_
      (Engine.requestHeld_cardState (e := s.blocks) hr working) (by split <;> nofun)
    exact hs.imp id .inl
  · refine State.take_keep ha read8 c.val (by rw [ho]; rfl) fun ss => ?_
    exact plainRule_error (Engine.holdCard_refused (e := s.blocks) hr (not_or.mpr ⟨h1, h2⟩))
  · obtain ⟨t, ht, answered, he⟩ := resumeCard_answers ha ho hr hs
    refine ⟨t, ht, answered, fun quiet lanes idle => ?_⟩
    have hr' : (s.blocks.unstalled r).cards[c] = some r := by rw [Engine.unstalled_cards]; exact hr
    rw [he quiet lanes idle]
    refine ⟨Engine.unstalled_flagsMove.trans (Engine.changeHolds_flagsMove _), ?_, fun c' hc => ?_, Engine.resumed_own hr', fun p => ?_⟩
    · rw [Engine.changeHolds_queue hr', Engine.unstalled_queue]
      exact List.map_congr_left fun d _ => by rw [CardRecord.waitingState_resumed]
    · rw [Engine.changeHolds_other hc, Engine.unstalled_cards]
      rfl
    · obtain ⟨state, -⟩ :=
        (Engine.changeHolds_ports (e := s.blocks.unstalled r) (card := c) (f := CardRecord.resumed) (fun _ => rfl) p).1.fields
      rw [state, Engine.unstalled_port]
      rfl
  · refine State.take_keep ha read8 c.val (by rw [ho]; rfl) fun ss => ?_
    exact plainRule_error (Engine.resumeCard_refused (e := s.blocks) hr hs)

end Sys2Proof.Machine
end

