-- ==== Sys2Proof/Proofs/AbortRequests.lean ====
section
/-!
O37: ABORT_CARD removes the waiting work of a card and marks its running COPYs (R99).
-/

namespace Sys2Proof.Machine

section
variable {a b e : Engine} {g : Settings} {card : Fin 32} {r : CardRecord} {d : Descriptor} {h : Handle} {v : Fin 16} {l : Fin 2}

/-! ## The copies of the catalogue -/

/-- The record of a handle's copy on a volume entry. -/
def Engine.copyAt (e : Engine) (h : Handle) (v : Fin 16) : Option CopyRecord := (e.clipAt h).bind (·.copyOn v)

/-- Both catalogues find the same handles, and the same copies under them. -/
structure SameCopies (a b : Engine) : Prop where
  found : ∀ h, (b.clipAt h).isSome = (a.clipAt h).isSome
  copies : ∀ h v, b.copyAt h v = a.copyAt h v

theorem SameCopies.trans (k : SameCopies a e) (m : SameCopies e b) : SameCopies a b :=
  ⟨fun h => (m.found h).trans (k.found h), fun h v => (m.copies h v).trans (k.copies h v)⟩

theorem SameCopies.of_clips (k : b.clips = a.clips) : SameCopies a b :=
  have same : b.clipAt = a.clipAt := by funext h; unfold Engine.clipAt; rw [k]
  ⟨fun h => by rw [same], fun h v => by unfold Engine.copyAt; rw [same]⟩

theorem SameCopies.updateClip {f : Clip → Clip} (hf : ∀ c : Clip, (f c).copies = c.copies) : SameCopies e (e.updateClip h f) where
  found x := by rw [Engine.updateClip_clipAt, Option.isSome_map]
  copies x v := by
    unfold Engine.copyAt
    rw [Engine.updateClip_clipAt]
    cases e.clipAt x with
    | none => rfl
    | some c =>
      show Clip.copyOn _ v = c.copyOn v
      split
      · unfold Clip.copyOn
        rw [hf]
      · rfl

theorem SameCopies.recomputeCopyState : SameCopies e (e.recomputeCopyState h) := by
  have derived : ∀ x : ClipCopyState, SameCopies e (e.updateClip h (fun c => { c with copyState := x })) := fun x => .updateClip fun _ => rfl
  unfold Engine.recomputeCopyState
  split
  · dsimp only
    split
    · exact (derived _).trans (.of_clips rfl)
    · exact derived _
  · exact .of_clips rfl

theorem Engine.settleRelease_clips : (e.settleRelease card).clips = e.clips := by
  unfold Engine.settleRelease
  split
  · split
    · exact Engine.setCardState_clips _ _ _
    · rfl
  · rfl

/-- What follows a removal leaves the copies (R93). -/
theorem SameCopies.settleRemoval : SameCopies e (e.settleRemoval d) := by
  have rest : ∀ a : Engine, SameCopies a ((a.recomputeCard d.card).settleRelease d.card) := fun a =>
    .of_clips (Engine.settleRelease_clips.trans Engine.recomputeCard_clips)
  unfold Engine.settleRemoval
  dsimp only
  split
  · exact SameCopies.recomputeCopyState.trans (rest _)
  · exact rest _

/-! ## The copies that fail -/

/-- A copy record as an abort leaves it (R99). -/
def CopyRecord.aborted (y : CopyRecord) : CopyRecord := { y with state := .failed }

/-- The copies under the handles, some of which have failed. -/
structure CopiesFail (failed : Handle → Fin 16 → Bool) (a b : Engine) : Prop where
  found : ∀ h, (b.clipAt h).isSome = (a.clipAt h).isSome
  copies : ∀ h v, b.copyAt h v = (a.copyAt h v).map (fun y => if failed h v then y.aborted else y)

section
variable {F G H : Handle → Fin 16 → Bool}

theorem CopiesFail.of_same (none : ∀ h v, F h v = false) (k : SameCopies a b) : CopiesFail F a b where
  found := k.found
  copies h v := by simp [k.copies, none]

theorem CopiesFail.trans (k : CopiesFail F a e) (m : CopiesFail G e b) (both : ∀ h v, H h v = (F h v || G h v)) : CopiesFail H a b where
  found h := (m.found h).trans (k.found h)
  copies h v := by
    rw [m.copies, k.copies, Option.map_map, both]
    refine congrArg (Option.map · _) (funext fun y => ?_)
    cases F h v <;> cases G h v <;> rfl

theorem CopiesFail.same (k : CopiesFail F a e) (m : SameCopies e b) : CopiesFail F a b where
  found h := (m.found h).trans (k.found h)
  copies h v := (m.copies h v).trans (k.copies h v)

end

theorem CopiesFail.updateCopy : CopiesFail (fun x w => decide (x = h) && decide (w = v)) e (e.updateCopy h v CopyRecord.aborted) where
  found x := by
    unfold Engine.updateCopy
    rw [Engine.updateClip_clipAt, Option.isSome_map]
  copies x w := by
    unfold Engine.copyAt Engine.updateCopy
    rw [Engine.updateClip_clipAt]
    cases e.clipAt x with
    | none => rfl
    | some c =>
      rw [Option.map_some, Option.bind_some, Option.bind_some]
      by_cases same : x = h
      · rw [if_pos same, Clip.copyOn_map c CopyRecord.aborted fun _ => rfl]
        simp [same]
      · rw [if_neg same]
        simp [same]

theorem CopiesFail.targets (vs : List (Fin 16)) :
    CopiesFail (fun x w => decide (x = h) && vs.contains w) e (vs.foldl (fun (e : Engine) v => e.updateCopy h v CopyRecord.aborted) e) := by
  induction vs generalizing e with
  | nil => exact .of_same (fun _ _ => Bool.and_false _) (.of_clips rfl)
  | cons v vs ih => exact CopiesFail.updateCopy.trans ih fun x w => by rw [List.contains_cons, Bool.and_or_distrib_left]; rfl

/-- A COPY whose removal by an abort makes the clip's copy on the volume FAILED (R99). -/
def Descriptor.failsCopy (d : Descriptor) (h : Handle) (v : Fin 16) : Bool := decide (d.kind = .copy) && d.namesPair h v

theorem CopiesFail.abortWaiting : CopiesFail d.failsCopy e (e.abortWaiting d) := by
  have settled : ∀ a : Engine, SameCopies a ((a.dropDescriptor d.slot).settleRemoval d) := fun a =>
    SameCopies.trans (e := a.dropDescriptor d.slot) (.of_clips rfl) .settleRemoval
  unfold Engine.abortWaiting
  dsimp only
  split
  · next x kind clip =>
    have fails : d.failsCopy = fun y w => decide (y = x) && d.targets.contains w := by
      funext y w
      simp [Descriptor.failsCopy, Descriptor.namesPair, Descriptor.names, kind, clip, eq_comm]
    rw [fails]
    exact (CopiesFail.targets d.targets).same (settled _)
  · next other =>
    refine .of_same (fun x w => ?_) (settled e)
    unfold Descriptor.failsCopy Descriptor.namesPair Descriptor.names
    simp only [Bool.and_eq_false_iff, decide_eq_false_iff_not]
    exact (em (d.kind = .copy)).elim (fun kind => .inr (.inl (other x kind))) .inl

/-! ## The waiting work -/

/-- The change leaves everything but the card and clip records, the wait list and the no-record list, the card ports, the copy queue, the
events and whether a descriptor has been removed. -/
def Engine.abortMove (a b : Engine) : Prop :=
  b = { a with cards := b.cards, clips := b.clips, waitList := b.waitList, noRecord := b.noRecord, cardPorts := b.cardPorts,
               queue := b.queue, events := b.events, removed := b.removed }

theorem Engine.abortMove.trans {a b c : Engine} (h : a.abortMove b) (k : b.abortMove c) : a.abortMove c := by
  unfold Engine.abortMove at *
  rw [k, h]

theorem Engine.cardsMove.abortMove {a b : Engine} (h : a.cardsMove b) : a.abortMove b := by
  unfold Engine.abortMove
  rw [h]

theorem Engine.settleRemoval_queue : (e.settleRemoval d).queue = e.queue := (Books.settleRemoval (h := ⟨0, 0⟩)).queue

/-- The removal of one waiting descriptor. -/
theorem Engine.abortWaiting_step : e.abortMove (e.abortWaiting d) ∧
    (e.abortWaiting d).queue = e.queue.filter (fun x => decide (x.slot ≠ d.slot)) := by
  have dropped : ∀ a : Engine, a.abortMove ((a.dropDescriptor d.slot).settleRemoval d) := fun a =>
    Engine.abortMove.trans (b := a.dropDescriptor d.slot) rfl Engine.settleRemoval_move.abortMove
  unfold Engine.abortWaiting
  dsimp only
  split
  · next x _ _ =>
    have failed : ∀ vs : List (Fin 16), e.cardsMove (vs.foldl (fun (e : Engine) v => e.updateCopy x v CopyRecord.aborted) e) ∧
        (vs.foldl (fun (e : Engine) v => e.updateCopy x v CopyRecord.aborted) e).queue = e.queue := by
      intro vs
      induction vs generalizing e with
      | nil => exact ⟨rfl, rfl⟩
      | cons v vs ih =>
        have first : e.cardsMove (e.updateCopy x v CopyRecord.aborted) := by
          unfold Engine.updateCopy Engine.updateClip
          split <;> rfl
        obtain ⟨move, queue⟩ := ih (e := e.updateCopy x v CopyRecord.aborted)
        exact ⟨first.trans move, queue.trans (Engine.updateClip_queue _ _ _)⟩
    obtain ⟨move, queue⟩ := failed d.targets
    refine ⟨move.abortMove.trans (dropped _), Engine.settleRemoval_queue.trans ?_⟩
    exact congrArg (List.filter _) queue
  · exact ⟨dropped e, Engine.settleRemoval_queue⟩

/-- The removal of some waiting descriptors, in turn. -/
theorem Engine.abortWaiting_all (ds : List Descriptor) : e.abortMove (ds.foldl Engine.abortWaiting e) ∧
    (ds.foldl Engine.abortWaiting e).queue = e.queue.filter (fun x => decide (∀ d ∈ ds, x.slot ≠ d.slot)) := by
  induction ds generalizing e with
  | nil => exact ⟨rfl, by simp⟩
  | cons d ds ih =>
    obtain ⟨move, queue⟩ := Engine.abortWaiting_step (e := e) (d := d)
    obtain ⟨moves, rest⟩ := ih (e := e.abortWaiting d)
    refine ⟨move.trans moves, ?_⟩
    rw [List.foldl_cons, rest, queue, List.filter_filter]
    refine List.filter_congr fun x _ => ?_
    simp [Bool.and_comm]

theorem CopiesFail.abortAll (ds : List Descriptor) :
    CopiesFail (fun h v => ds.any (·.failsCopy h v)) e (ds.foldl Engine.abortWaiting e) := by
  induction ds generalizing e with
  | nil => exact .of_same (fun _ _ => rfl) (.of_clips rfl)
  | cons d ds ih => exact CopiesFail.abortWaiting.trans ih fun x w => rfl

/-! ## The marks -/

/-- A mark changes nothing but what its lane holds. -/
theorem Engine.markAbort_move : ∃ x, Engine.markAbort card e l = { e with lanes := x } ∧
    (∀ m : Fin 2, m ≠ l → x[m] = e.lanes[m]) ∧ (x[l] = .idle → e.lanes[l] = .idle) := by
  unfold Engine.markAbort
  split
  · split
    · unfold Engine.updateLane
      split
      · refine ⟨_, rfl, fun m hm => ?_, fun idle => ?_⟩
        · simp [Fin.val_inj, Ne.symm hm]
        · simp at idle
      · exact ⟨_, rfl, fun _ _ => rfl, id⟩
    · exact ⟨_, rfl, fun _ _ => rfl, id⟩
  · exact ⟨_, rfl, fun _ _ => rfl, id⟩

/-- The lane that runs a COPY of the card is marked (R99). -/
theorem Engine.markAbort_own {run : LaneRun} (hl : e.laneRun l = some run) (hd : e.descriptor run.slot = some d) (kind : d.kind = .copy)
    (own : d.card = card) : (Engine.markAbort card e l).laneRun l = some { run with abortMark := true } := by
  unfold Engine.markAbort Engine.laneDescriptor
  rw [hl, Option.bind_some, hd]
  dsimp only
  rw [if_pos ⟨kind, own⟩, Engine.updateLane_put hl, Engine.putLane_laneRun]

/-- The two lanes marked, in turn. -/
def Engine.markBoth (card : Fin 32) (e : Engine) : Engine := (List.finRange 2).foldl (Engine.markAbort card) e

theorem Engine.markBoth_move : ∃ x, e.markBoth card = { e with lanes := x } ∧ ∀ m : Fin 2, x[m] = .idle → e.lanes[m] = .idle := by
  have kept : ∀ (a : Engine) (l m : Fin 2), (Engine.markAbort card a l).lanes[m] = .idle → a.lanes[m] = .idle := by
    intro a l m
    obtain ⟨x, hx, others, own⟩ := Engine.markAbort_move (e := a) (card := card) (l := l)
    rw [hx]
    by_cases same : m = l
    · subst same
      exact own
    · exact fun idle => (others m same).symm.trans idle
  obtain ⟨x, hx, -⟩ := Engine.markAbort_move (e := e) (card := card) (l := 0)
  obtain ⟨y, hy, -⟩ := Engine.markAbort_move (e := Engine.markAbort card e 0) (card := card) (l := 1)
  have both : e.markBoth card = Engine.markAbort card (Engine.markAbort card e 0) 1 := rfl
  refine ⟨y, by rw [both, hy, hx], fun m idle => kept e 0 m (kept _ 1 m ?_)⟩
  rw [hy]
  exact idle

theorem Engine.markBoth_own {run : LaneRun} (hl : e.laneRun l = some run) (hd : e.descriptor run.slot = some d) (kind : d.kind = .copy)
    (own : d.card = card) : (e.markBoth card).laneRun l = some { run with abortMark := true } := by
  have other : ∀ (a : Engine) (m : Fin 2), m ≠ l → (Engine.markAbort card a m).laneRun l = a.laneRun l ∧
      (Engine.markAbort card a m).queue = a.queue := by
    intro a m hm
    obtain ⟨x, hx, others, -⟩ := Engine.markAbort_move (e := a) (card := card) (l := m)
    rw [hx]
    refine ⟨?_, rfl⟩
    unfold Engine.laneRun
    rw [others l (Ne.symm hm)]
  have both : e.markBoth card = Engine.markAbort card (Engine.markAbort card e 0) 1 := rfl
  rw [both]
  obtain rfl | rfl : l = 0 ∨ l = 1 := by omega
  · exact (other _ 1 (by decide)).1.trans (Engine.markAbort_own hl hd kind own)
  · obtain ⟨lane, queue⟩ := other e 0 (by decide)
    refine Engine.markAbort_own (lane.trans hl) ?_ kind own
    unfold Engine.descriptor
    rw [queue]
    exact hd

/-! ## ABORT_CARD -/

/-- The card's work that waits (R99). -/
def Engine.waitingWork (e : Engine) (card : Fin 32) : List Descriptor :=
  e.queue.filter (fun d => d.worksFor card && decide (d.state ≠ .running))

/-- ABORT_CARD, before the lane grant (R99). -/
def Engine.aborted (e : Engine) (card : Fin 32) : Engine :=
  (((e.waitingWork card).foldl Engine.abortWaiting e).markBoth card).changeHolds card (fun r => { r with heldByRequest := false })

theorem Engine.abortCard_ok (hr : e.cards[card] = some r) (hs : r.state.workable = true) :
    e.abortCard g card = .ok ((e.aborted card).settleTransfer g) := by
  unfold Engine.abortCard
  rw [Engine.checkCard_val hr]
  exact if_pos hs

theorem Engine.changeHolds_slots (f : CardRecord → CardRecord) : (e.changeHolds card f).queue.map (·.slot) = e.queue.map (·.slot) := by
  unfold Engine.changeHolds
  rw [Engine.recomputeCard_queue]
  cases hr : (e.updateCard card f).cards[card] with
  | none =>
    unfold Engine.recomputeHolds
    rw [hr, Engine.updateCard_queue]
  | some r =>
    rw [Engine.recomputeHolds_queue hr, Engine.updateCard_queue, List.map_map]
    refine List.map_congr_left fun d _ => ?_
    simp only [Function.comp]
    split <;> rfl

/-- With a descriptor in each slot, the removal of the waiting work leaves the rest (R93, R99). -/
theorem Engine.waitingWork_removed (slots : (e.queue.map (·.slot)).Nodup) :
    ((e.waitingWork card).foldl Engine.abortWaiting e).queue =
      e.queue.filter (fun d => !(d.worksFor card && decide (d.state ≠ .running))) := by
  rw [(Engine.abortWaiting_all _).2]
  refine List.filter_congr fun x hx => ?_
  have alone : (∀ d ∈ e.waitingWork card, x.slot ≠ d.slot) ↔ ¬ (x.worksFor card && decide (x.state ≠ .running)) = true := by
    unfold Engine.waitingWork
    refine ⟨fun apart waits => apart x (List.mem_filter.mpr ⟨hx, waits⟩) rfl, fun stays d hd same => stays ?_⟩
    obtain ⟨hd, waits⟩ := List.mem_filter.mp hd
    rwa [List.inj_on_of_nodup_map slots hx hd same]
  rw [Bool.eq_iff_iff, decide_eq_true_eq, alone, Bool.not_eq_true']
  exact Bool.not_eq_true _ |>.to_iff

/-- A RUNNING descriptor stays in its slot. -/
theorem Engine.descriptor_running (slots : (e.queue.map (·.slot)).Nodup) {n : Fin 64} (hd : e.descriptor n = some d) (runs : d.state = .running) :
    ((e.waitingWork card).foldl Engine.abortWaiting e).descriptor n = some d := by
  unfold Engine.descriptor at *
  rw [Engine.waitingWork_removed slots, List.find?_filter]
  have first := List.find?_eq_some_iff_append.mp hd
  obtain ⟨found, before, after, split, others⟩ := first
  refine List.find?_eq_some_iff_append.mpr ⟨by simpa [runs] using found, before, after, split, fun x hx => ?_⟩
  simp [others x hx]

/-- What an abort leaves of the other blocks: the marks make no lane IDLE. -/
theorem Engine.aborted_frame : ∃ x : Vector Lane 2, ({ e with lanes := x } : Engine).abortMove (e.aborted card) ∧
    ∀ m : Fin 2, x[m] = .idle → e.lanes[m] = .idle := by
  have removed : e.abortMove ((e.waitingWork card).foldl Engine.abortWaiting e) := (Engine.abortWaiting_all _).1
  obtain ⟨x, marked, taken⟩ := ((e.waitingWork card).foldl Engine.abortWaiting e).markBoth_move (card := card)
  unfold Engine.aborted
  generalize (e.waitingWork card).foldl Engine.abortWaiting e = a at removed marked taken
  refine ⟨x, Engine.abortMove.trans ?_ (Engine.changeHolds_move _).abortMove, fun m idle => ?_⟩
  · rw [marked]
    unfold Engine.abortMove at *
    rw [removed]
  · rw [← taken m idle, removed]

theorem Engine.aborted_taken (lanes : e.lanesTaken = true) : (e.aborted card).lanesTaken = true := by
  obtain ⟨x, move, taken⟩ := e.aborted_frame (card := card)
  unfold Engine.lanesTaken Engine.idleLane
  rw [decide_eq_true_eq, List.find?_eq_none]
  intro m _ idle
  rw [decide_eq_true_eq, move] at idle
  exact Engine.lanesTaken_others lanes m (taken m idle)

theorem CopiesFail.aborted : CopiesFail (fun h v => (e.waitingWork card).any (·.failsCopy h v)) e (e.aborted card) := by
  obtain ⟨x, marked, -⟩ := ((e.waitingWork card).foldl Engine.abortWaiting e).markBoth_move (card := card)
  refine (CopiesFail.abortAll _).same (.of_clips ((Engine.changeHolds_clips _).trans ?_))
  rw [marked]

/-- The copy of a removed COPY is FAILED (R99). -/
theorem Engine.aborted_copy {c : Clip} {y : CopyRecord} (hd : d ∈ e.queue) (works : d.worksFor card = true) (waits : d.state ≠ .running)
    (kind : d.kind = .copy) (clip : d.clip = some h) (hc : e.clipAt h = some c) (target : v ∈ d.targets) (hy : c.copyOn v = some y) :
    (e.aborted card).copyAt h v = some { y with state := .failed } := by
  have copy : e.copyAt h v = some y := by
    unfold Engine.copyAt
    rw [hc]
    exact hy
  have fails : (e.waitingWork card).any (·.failsCopy h v) = true := by
    refine List.any_eq_true.mpr ⟨d, List.mem_filter.mpr ⟨hd, by simp [works, waits]⟩, ?_⟩
    simp [Descriptor.failsCopy, Descriptor.namesPair, Descriptor.names, kind, clip, target]
  rw [CopiesFail.aborted.copies, copy, Option.map_some, if_pos fails]
  rfl

theorem Engine.aborted_slots (slots : (e.queue.map (·.slot)).Nodup) : (e.aborted card).queue.map (·.slot) =
    (e.queue.filter (fun d => !(d.worksFor card && decide (d.state ≠ .running)))).map (·.slot) := by
  obtain ⟨x, marked, -⟩ := ((e.waitingWork card).foldl Engine.abortWaiting e).markBoth_move (card := card)
  unfold Engine.aborted
  rw [Engine.changeHolds_slots, marked, ← Engine.waitingWork_removed slots]

/-- The lane of a RUNNING COPY of the card is marked (R99). -/
theorem Engine.aborted_lane {run : LaneRun} (slots : (e.queue.map (·.slot)).Nodup) (hl : e.laneRun l = some run)
    (hd : e.descriptor run.slot = some d) (runs : d.state = .running) (kind : d.kind = .copy) (own : d.card = card) :
    (e.aborted card).laneRun l = some { run with abortMark := true } := by
  have removed : e.abortMove ((e.waitingWork card).foldl Engine.abortWaiting e) := (Engine.abortWaiting_all _).1
  have still : ((e.waitingWork card).foldl Engine.abortWaiting e).laneRun l = some run := by
    unfold Engine.laneRun
    rw [removed]
    exact hl
  have marked := Engine.markBoth_own still (Engine.descriptor_running slots hd runs) kind own
  have holds := Engine.changeHolds_move (e := ((e.waitingWork card).foldl Engine.abortWaiting e).markBoth card) (card := card)
    (fun r => { r with heldByRequest := false })
  unfold Engine.aborted Engine.laneRun
  rw [holds]
  exact marked

end

/-- ABORT_CARD of a card in a workable state (R99). -/
theorem abortCard_answers {o : Origin} {c : Fin 32} {r : CardRecord} {s : State} (ha : s.accepts o = true) (ho : o.port = .A)
    (hr : s.engine.cards[c] = some r) (hs : r.state.workable = true) :
    ∃ t, exec (.abortCard o c) s = .next t ∧ s.answeredWith t o 16 (.done, []) ∧
      (s.settings.silent = true → s.engine.lanesTaken = true → s.engine.renderIdle = true → s.engine.requeues = [] →
        t.engine = s.blocks.aborted c) := by
  obtain ⟨t, ht, answered, he⟩ := State.take_answered (a := (.done, []))
    (e := (s.blocks.aborted c).settleTransfer s.settings) ha
    (kind := 16) read8 c.val (rule := plainRule (fun g e => e.abortCard g c)) (by rw [ho]; rfl) fun ss => by
      exact plainRule_ok (Engine.abortCard_ok (e := s.blocks) hr hs)
  refine ⟨t, ht, answered, fun quiet lanes idle requeues => ?_⟩
  obtain ⟨x, move, -⟩ := s.blocks.aborted_frame (card := c)
  have renders : (s.blocks.aborted c).renderIdle = true := by
    rw [← idle]
    exact Engine.renderIdle_congr (e := s.blocks) (by rw [move]) (by rw [move])
  have still : (s.blocks.aborted c).settleTransfer s.settings = s.blocks.aborted c :=
    Engine.settleTransfer_quiet (Engine.aborted_taken (e := s.blocks) lanes) renders
  have no_requeue : (s.blocks.aborted c).requeues = [] := by
    rw [move]
    exact requeues
  rw [he, still, Engine.endStep_silent quiet (.inr no_requeue)]

/-- Settles O37: the waiting work is removed in queue order, each COPY with its copies FAILED, and the lanes are marked. -/
theorem abortRemovesTheWaitingWork : Obligations.AbortRemovesTheWaitingWork := by
  unfold Obligations.AbortRemovesTheWaitingWork
  intro o c r s ha ho hr hs
  obtain ⟨t, ht, answered, he⟩ := abortCard_answers ha ho hr hs
  refine ⟨t, ht, answered, fun quiet lanes idle requeues slots => ?_⟩
  rw [he quiet lanes idle requeues]
  obtain ⟨x, move, -⟩ := s.blocks.aborted_frame (card := c)
  have fails := CopiesFail.aborted (e := s.blocks) (card := c)
  refine ⟨Engine.aborted_slots (e := s.blocks) slots,
    fun d hd works waits kind h y clip hy v hv z hz => Engine.aborted_copy (e := s.blocks) hd works waits kind clip hy hv hz,
    fun l run d hl hd runs kind own => Engine.aborted_lane (e := s.blocks) slots hl hd runs kind own, fun h => ?_, ?_, ?_, ?_⟩
  · rw [← Option.not_isSome_iff_eq_none, ← Option.not_isSome_iff_eq_none, fails.found h]
    rfl
  · rw [move]; rfl
  · rw [move]; rfl
  · rw [move]; rfl

end Sys2Proof.Machine
end

