-- ==== Sys2Proof/Proofs/RecopyRequests.lean ====
section
/-!
O39: RECOPY makes its checks in their order, finds its source and queues one COPY (R100).
-/

namespace Sys2Proof.Machine

section
variable {e : Engine} {g : Settings} {h : Handle} {c : Clip} {r : CardRecord} {mask : BitVec 4} {n : Nat}

/-! ## The checks -/

theorem CardState.workable_iff (x : CardState) :
    x.workable = true ↔ x = .offloading ∨ x = .held ∨ x = .offloaded ∨ x = .released := by
  cases x <;> simp [CardState.workable]

/-- The recopy targets, port by port (R100). -/
theorem Engine.recopyTargets_eq (own : c.handle = h) : e.recopyTargets c mask = (List.finRange 4).filterMap (fun p : Fin 4 =>
    if mask.getLsbD p.val then (e.entryAt p).filter (fun v => !c.securedOn v && !e.queue.any (fun d => d.namesPair h v)) else none) := by
  unfold Engine.recopyTargets Engine.volumesAt
  rw [List.filter_filterMap, own]
  refine congrArg (fun f => List.filterMap f (List.finRange 4)) (funext fun p => ?_)
  split <;> rfl

/-- The record of the clip's card is in a state that RECOPY takes (R100). -/
structure Recopiable (e : Engine) (c : Clip) (r : CardRecord) : Prop where
  card : e.cards[c.card] = some r
  state : r.state.workable = true

theorem Engine.queueRecopy_wrongState (hr : e.cards[c.card] = some r) (hs : r.state.workable = false) :
    e.queueRecopy g c mask n = .error .wrongState := by
  unfold Engine.queueRecopy
  rw [hr]
  exact if_neg (by simp [hs])

theorem Recopiable.noDestination (k : Recopiable e c r) (targets : e.recopyTargets c mask = []) :
    e.queueRecopy g c mask n = .error .noDestination := by
  unfold Engine.queueRecopy
  rw [k.card]
  dsimp only
  rw [if_pos k.state, if_pos targets]

theorem Recopiable.full (k : Recopiable e c r) (targets : e.recopyTargets c mask ≠ [])
    (room : plannedTargets (e.busyVolumes c.handle) (e.recopyTargets c mask) c.copies ≠ e.recopyTargets c mask) :
    e.queueRecopy g c mask n = .error .full := by
  unfold Engine.queueRecopy
  rw [k.card]
  dsimp only
  rw [if_pos k.state, if_neg targets, if_pos room]

/-- There are targets, and each has a record or gets one (R100). -/
structure Recopies (e : Engine) (c : Clip) (r : CardRecord) (mask : BitVec 4) : Prop extends Recopiable e c r where
  targets : e.recopyTargets c mask ≠ []
  room : plannedTargets (e.busyVolumes c.handle) (e.recopyTargets c mask) c.copies = e.recopyTargets c mask

theorem Recopies.noSource (k : Recopies e c r mask) (source : e.recopySource c r = none) :
    e.queueRecopy g c mask n = .error .noSource := by
  unfold Engine.queueRecopy
  rw [k.card]
  dsimp only
  rw [if_pos k.state, if_neg k.targets, if_neg (not_not.mpr k.room), source]

theorem Recopies.noSlot (k : Recopies e c r mask) {source : Source} (found : e.recopySource c r = some source)
    (slot : e.freeDescriptor = none) : e.queueRecopy g c mask n = .error .full := by
  unfold Engine.queueRecopy
  rw [k.card]
  dsimp only
  rw [if_pos k.state, if_neg k.targets, if_neg (not_not.mpr k.room), found, slot]

theorem Recopies.queues (k : Recopies e c r mask) {source : Source} (found : e.recopySource c r = some source) {slot : Fin 64}
    (free : e.freeDescriptor = some slot) : e.queueRecopy g c mask n = .ok (slot, source, e.recopyTargets c mask,
      (e.queueCopy g c.card c.handle source (e.recopyTargets c mask) n).recomputeCard c.card) := by
  unfold Engine.queueRecopy
  rw [k.card]
  dsimp only
  rw [if_pos k.state, if_neg k.targets, if_neg (not_not.mpr k.room), found, free]

theorem Engine.recopy_badMask (hc : e.clipAt h = some c) {m : Nat} (hm : m = 0 ∨ 15 < m) :
    e.recopy g h.slot h.gen m = .error .badArgument := by
  unfold Engine.recopy
  rw [Engine.checkClip_val hc]
  exact if_pos hm

/-- A RECOPY of a named clip at the ports of a mask (R100). -/
theorem Engine.recopy_eq (hc : e.clipAt h = some c) (hm : mask ≠ 0) : e.recopy g h.slot h.gen mask.toNat =
    (e.queueRecopy g c mask 0).map (fun x => (x.1, x.2.1, x.2.2.1, x.2.2.2.settleTransfer g)) := by
  have few : ¬ (mask.toNat = 0 ∨ 15 < mask.toNat) := by
    have := mask.isLt
    have : mask.toNat ≠ 0 := fun zero => hm (BitVec.eq_of_toNat_eq zero)
    omega
  unfold Engine.recopy
  rw [Engine.checkClip_val hc]
  dsimp only
  rw [if_neg few, BitVec.ofNat_toNat, BitVec.setWidth_eq]
  cases e.queueRecopy g c mask 0 <;> rfl

/-! ## The source -/

/-- An inserted volume with a VERIFIED copy of the clip (R100). -/
def Engine.verifiedOn (e : Engine) (c : Clip) (v : Fin 16) : Prop :=
  (e.portOf v).isSome = true ∧ (c.copyOn v).map (·.state) = some .verified

/-- The lowest index that has a property is the first found. -/
theorem find?_finRange {m : Nat} {p : Fin m → Bool} {v : Fin m} (hv : p v = true) (first : ∀ u < v, p u = false) :
    (List.finRange m).find? p = some v := by
  refine List.find?_eq_some_iff_getElem.mpr ⟨hv, v.val, by simp, by simp, fun j hj => ?_⟩
  simpa using first ⟨j, by omega⟩ hj

theorem Engine.recopySource_none (ha : r.attached = none) (lacks : c.sourceDigest = none ∨ ∀ v, ¬ e.verifiedOn c v) :
    e.recopySource c r = none := by
  unfold Engine.recopySource
  rw [if_neg (by simp [ha])]
  split
  · next digest =>
    have unverified := lacks.resolve_left (Option.isSome_iff_ne_none.mp digest)
    rw [Option.map_eq_none_iff, List.find?_eq_none]
    intro v _ hv
    exact unverified v (by simpa [Engine.verifiedOn] using hv)
  · rfl

/-- The card in a reader, in any port state, and else the lowest volume (R100). -/
theorem Engine.recopySource_some {source : Source} (hs : match source with
      | .card => r.attached ≠ none
      | .volume v => r.attached = none ∧ c.sourceDigest ≠ none ∧ e.verifiedOn c v ∧ ∀ u, u < v → ¬ e.verifiedOn c u) :
    e.recopySource c r = some source := by
  unfold Engine.recopySource
  cases source with
  | card => exact if_pos (Option.isSome_iff_ne_none.mpr hs)
  | volume v =>
    obtain ⟨away, digest, verified, first⟩ := hs
    rw [if_neg (by simp [away]), if_pos (Option.isSome_iff_ne_none.mpr digest)]
    rw [find?_finRange (v := v) (by simpa [Engine.verifiedOn] using verified)
      (fun u hu => by simpa [Engine.verifiedOn] using first u hu)]
    rfl

/-! ## The COPY -/

/-- The COPY that a RECOPY asks for (R79, R100). -/
def recopyWork (c : Clip) (source : Source) (targets : List (Fin 16)) : NewDescriptor where
  kind := .copy
  clip := some c.handle
  card := c.card
  source := some source
  targets := targets
  serial := none
  generation := 0

/-- The COPY joins the queue in the lowest free slot, and nothing else starts (R79, R80). -/
theorem Engine.queueCopy_inSlot {source : Source} {targets : List (Fin 16)} {slot : Fin 64} (hi : e.renderIdle = true)
    (free : e.freeDescriptor = some slot) :
    e.queueMove (e.queueCopy g c.card c.handle source targets 0) ∧
      ∃ x, (e.queueCopy g c.card c.handle source targets 0).queue = e.queue ++ [(recopyWork c source targets).inSlot slot x] := by
  have queues : e.queueCopy g c.card c.handle source targets 0 =
      ((targets.foldl (Engine.makeRecord g c.handle 0) e).addDescriptor (recopyWork c source targets)).markQueued c.handle := rfl
  have records := Engine.makeRecords_copiesMove (g := g) (h := c.handle) 0 targets hi
  rw [queues]
  generalize targets.foldl (Engine.makeRecord g c.handle 0) e = a at *
  have still : a.freeDescriptor = some slot := by
    unfold Engine.freeDescriptor Engine.descriptor at *
    rwa [records.queue]
  have joins : a.addDescriptor (recopyWork c source targets) =
      { a with queue := a.queue ++ [(recopyWork c source targets).inSlot slot (a.joiningState (recopyWork c source targets) slot)] } := by
    unfold Engine.addDescriptor
    rw [still]
    rfl
  rw [joins]
  have joined : ∀ q, a.queueMove { a with queue := q } := fun _ => rfl
  refine ⟨(records.queueMove.trans (joined _)).trans Engine.markQueued_copiesMove.queueMove,
    a.joiningState (recopyWork c source targets) slot, ?_⟩
  rw [Engine.markQueued_copiesMove.queue, records.queue]

/-- What a RECOPY leaves in the queue, in a part with nothing else to start (R100). -/
theorem Engine.recopied_does {source : Source} {targets : List (Fin 16)} {slot : Fin 64} (hl : e.lanesTaken = true)
    (hi : e.renderIdle = true) (free : e.freeDescriptor = some slot) :
    let b := ((e.queueCopy g c.card c.handle source targets 0).recomputeCard c.card).settleTransfer g
    b.removed = e.removed ∧ ∃ x, b.queue = e.queue ++ [(recopyWork c source targets).inSlot slot x] := by
  obtain ⟨move, x, queue⟩ := Engine.queueCopy_inSlot (g := g) (c := c) (source := source) (targets := targets) hi free
  generalize e.queueCopy g c.card c.handle source targets 0 = a at *
  have follows : a.cardsMove (a.recomputeCard c.card) := Engine.recomputeCard_move
  have still : (a.recomputeCard c.card).settleTransfer g = a.recomputeCard c.card :=
    Engine.settleTransfer_like hl hi (by rw [follows, move]) (by rw [follows, move]) (by rw [follows, move])
  dsimp only
  rw [still]
  exact ⟨by rw [follows, move], x, Engine.recomputeCard_queue.trans queue⟩

end

/-! ## RECOPY answered -/

section
variable {s : State} {slot gen mask : Nat}

theorem recopyRule_refused {x : Status} (hx : s.engine.recopy s.settings slot gen mask = .error x) :
    recopyRule slot gen mask s = ((x, []), s) := by
  unfold recopyRule blockRule
  dsimp only
  rw [hx]
  rfl

/-- The byte that names a source in RECOPY's answer (log 7). -/
def Source.byte : Source → Byte
  | .card => 255
  | .volume v => BitVec.ofNat 8 v.val

/-- The answer of a RECOPY: the descriptor slot, the source, and the targets. -/
theorem recopyRule_done {d : Fin 64} {source : Source} {targets : List (Fin 16)} {e : Engine}
    (hx : s.engine.recopy s.settings slot gen mask = .ok (d, source, targets, e)) : recopyRule slot gen mask s =
      ((.done, [BitVec.ofNat 8 d.val, source.byte, BitVec.ofNat 8 targets.length] ++ targets.map (fun v => BitVec.ofNat 8 v.val)),
        { s with engine := e }) := by
  unfold recopyRule blockRule
  dsimp only
  rw [hx]
  dsimp only
  unfold wList
  rw [wAll_bytes]
  cases source <;> rfl

/-- A RECOPY that is refused leaves settings and blocks (R100). -/
theorem recopy_refused {o : Origin} {x : Status} (ha : s.accepts o = true) (ho : o.port = .A)
    (hx : s.blocks.recopy s.settings slot gen mask = .error x) :
    ∃ t, exec (.recopy o slot gen mask) s = .next t ∧ s.onlyAnswered t o 18 (x, []) ∧ t.settings = s.settings ∧ t.engine = s.blocks :=
  State.take_keep ha (readPair readHandle read8) ((slot, gen), mask) (by rw [ho]; rfl) fun _ => recopyRule_refused hx

end

/-- Settles O39: each check under the failure of none before it, the source by R100's order, and the COPY in the lowest free slot. -/
theorem recopyQueuesOneCopy : Obligations.RecopyQueuesOneCopy := by
  unfold Obligations.RecopyQueuesOneCopy
  intro o h c r s ha ho hc own hr refused workable verifiedOn
  have works : r.state.workable = true ↔ workable := CardState.workable_iff _
  have refuses : ∀ {mask : Nat} {x : Status}, s.blocks.recopy s.settings h.slot h.gen mask = .error x → refused mask x :=
    fun hx => recopy_refused ha ho hx
  refine ⟨fun mask hm => refuses (Engine.recopy_badMask (e := s.blocks) hc hm), fun mask hm => ?_⟩
  intro targets planned
  have recopies := Engine.recopy_eq (e := s.blocks) (g := s.settings) hc hm
  have fails : ∀ {x : Status}, s.blocks.queueRecopy s.settings c mask 0 = .error x → refused mask.toNat x := fun hx =>
    refuses (by rw [recopies, hx]; rfl)
  have same : s.blocks.recopyTargets c mask = targets := Engine.recopyTargets_eq own
  have busy : s.blocks.busyVolumes c.handle = s.engine.busyVolumes h := by rw [own]; rfl
  refine ⟨fun hw => ?_, fun hw untargeted => ?_, fun hw targeted full => ?_,
    fun hw targeted room => ⟨fun away lacks => ?_, fun source hs => ?_⟩⟩
  · exact fails (Engine.queueRecopy_wrongState (e := s.blocks) hr (Bool.eq_false_iff.mpr (works.not.mpr hw)))
  · exact fails (Recopiable.noDestination ⟨hr, works.mpr hw⟩ (same.trans untargeted))
  · refine fails (Recopiable.full ⟨hr, works.mpr hw⟩ (same ▸ targeted) ?_)
    rw [same, busy]
    exact full
  · have ready : Recopies s.blocks c r mask := ⟨⟨hr, works.mpr hw⟩, same ▸ targeted, by rw [same, busy]; exact room⟩
    exact fails (ready.noSource (Engine.recopySource_none away lacks))
  · have ready : Recopies s.blocks c r mask := ⟨⟨hr, works.mpr hw⟩, same ▸ targeted, by rw [same, busy]; exact room⟩
    have found : s.blocks.recopySource c r = some source := Engine.recopySource_some hs
    refine ⟨fun slot => fails (ready.noSlot found slot), fun slot free => ?_⟩
    have queued := ready.queues (g := s.settings) (n := 0) found (slot := slot) free
    rw [queued] at recopies
    obtain ⟨t, ht, answered, he⟩ := State.take_answered (rule := recopyRule h.slot h.gen mask.toNat) ha (kind := 18)
      (readPair readHandle read8) ((h.slot.val, h.gen.val), mask.toNat) (by rw [ho]; rfl)
      fun ss => recopyRule_done (s := { s with engine := s.blocks, stations := ss }) recopies
    rw [same] at answered he
    refine ⟨t, ht, answered, fun quiet lanes idle => ?_⟩
    obtain ⟨removed, x, queue⟩ := Engine.recopied_does (e := s.blocks) (g := s.settings) (c := c) (source := source)
      (targets := targets) lanes idle free
    rw [he, Engine.endStep_silent quiet (.inl removed)]
    exact ⟨_, queue, rfl, rfl, congrArg Option.some own, rfl, rfl, rfl, rfl, rfl⟩

end Sys2Proof.Machine
end

