-- ==== Sys2Proof/Proofs/VerifyReads.lean ====
section
/-!
O54: a VERIFY reads its object block by block, closes it and compares the digests (R84, R91, R92, R186).
-/

namespace Sys2Proof.Machine

section
variable {a b e : Engine} {g : Settings} {p : Fin 4} {l : Fin 2} {run : LaneRun} {d : Descriptor} {h : Handle} {c c' : Clip} {v : Fin 16}
  {y : CopyRecord} {k : Word32} {st : SourceStatus} {x : Reply} {s : State}

/-! ## A VERIFY that runs -/

/-- A lane runs the VERIFY of a clip's copy on a volume, alone in the queue. -/
structure VerifyRuns (e : Engine) (l : Fin 2) (run : LaneRun) (d : Descriptor) (h : Handle) (c : Clip) (v : Fin 16) (y : CopyRecord) : Prop where
  lane : e.laneRun l = some run
  queue : e.queue = [d]
  slot : run.slot = d.slot
  kind : d.kind = .verify
  clip : d.clip = some h
  found : e.clipAt h = some c
  handle : c.handle = h
  targets : d.targets = [v]
  copy : c.copyOn v = some y

/-- The VERIFY as its operation at a port has ended (R72). -/
theorem VerifyRuns.freed (w : VerifyRuns e l run d h c v y) : VerifyRuns (e.freed p) l run d h c v y :=
  ⟨w.lane, w.queue, w.slot, w.kind, w.clip, w.found, w.handle, w.targets, w.copy⟩

/-- An answer to the lane is one to its VERIFY (R73). -/
theorem VerifyRuns.reply (w : VerifyRuns e l run d h c v y) : e.laneReply g l p x = e.verifyReply g l run d c x := by
  unfold Engine.laneReply
  rw [Engine.laneWork_eq w.lane (Engine.descriptor_single w.queue w.slot)]
  dsimp only
  rw [w.kind, w.clip, Option.bind_some, w.found]

/-! ## What an answer makes of it -/

/-- An answer that does not let a VERIFY read: no handle, an object of another length, and a read that fails (R92). -/
inductive VerifyRefused (run : LaneRun) (c : Clip) : Reply → Prop
  | notOpened (phase : run.phase = .opening) : VerifyRefused run c .error
  | otherLength (phase : run.phase = .opening) (k : Word32) (n : Nat) (other : n ≠ c.byteLength) : VerifyRefused run c (.opened k n)
  | notRead (phase : run.phase = .reading) : VerifyRefused run c .error

theorem Engine.verifyReply_refused (refused : VerifyRefused run c x) : e.verifyReply g l run d c x = e.failVerify g l d := by
  unfold Engine.verifyReply
  cases refused with
  | notOpened phase => rw [phase]
  | otherLength phase k n other =>
    rw [phase]
    exact if_neg other
  | notRead phase => rw [phase]

/-- The object open at the clip's length, the reads begin (R91). -/
theorem Engine.verifyReply_opened (lane : e.laneRun l = some run) (phase : run.phase = .opening) (source : run.source = some ⟨v, p, st⟩) :
    e.verifyReply g l run d c (.opened k c.byteLength) =
      (e.putLane l { run with source := some ⟨v, p, .isOpen k⟩ }).verifyNext g l { run with source := some ⟨v, p, .isOpen k⟩ } d c := by
  unfold Engine.verifyReply
  rw [phase]
  dsimp only
  rw [if_pos rfl, source, Option.map_some, Engine.updateLane_put lane]

/-- A block enters the Digest Unit, and the next one follows (R84, R91). -/
theorem Engine.verifyReply_data (lane : e.laneRun l = some run) (phase : run.phase = .reading) (bytes : List Byte) :
    e.verifyReply g l run d c (.data bytes) = ((e.putLane l (run.digestBlock bytes)).updateDescriptor d.slot
      (fun _ => { d with progress := d.progress + bytes.length })).verifyNext g l (run.digestBlock bytes)
        { d with progress := d.progress + bytes.length } c := by
  unfold Engine.verifyReply
  rw [phase]
  dsimp only
  rw [Engine.updateLane_put lane]

theorem Engine.verifyReply_closed (phase : run.phase = .closing) : e.verifyReply g l run d c x = e.compareVerify g l run d c := by
  unfold Engine.verifyReply
  rw [phase]

/-! ## The next operation -/

section
variable (lane : e.laneRun l = some run) (source : run.source = some ⟨v, p, .isOpen k⟩) (online : (e.destPorts[p]).state = .online)
  (free : (e.destPorts[p]).inflight = none) (first : (e.destPorts[p]).waiting = [])
include lane source online free first

/-- With more of the object to read, the next block is asked for (R91). -/
theorem Engine.verifyNext_reads (more : d.progress < c.byteLength) : e.verifyNext g l run d c =
    (e.asked p l (.read k d.progress (min 1048576 (c.byteLength - d.progress)))).putLane l { run with phase := .reading } := by
  unfold Engine.verifyNext
  rw [if_pos more, Engine.updateLane_put lane]
  dsimp only
  unfold Engine.askBlock
  rw [source]
  dsimp only
  rw [Engine.ask_asked (e := e.putLane l _) online free first]
  rfl

/-- With the whole object read, CLOSE follows (R91). -/
theorem Engine.verifyNext_closes (all : c.byteLength ≤ d.progress) : e.verifyNext g l run d c =
    (e.asked p l (.close k)).putLane l { run with block := [], phase := .closing, source := some ⟨v, p, .closing⟩ } := by
  have closed : (e.putLane l { run with phase := .closing, block := [] }).closeSource l run =
      (e.asked p l (.close k)).putLane l { run with block := [], phase := .closing, source := some ⟨v, p, .closing⟩ } := by
    unfold Engine.closeSource
    rw [source]
    dsimp only
    rw [Engine.ask_asked (e := e.putLane l _) online free first, Engine.putLane_asked]
    exact Engine.putLane_updateLane _
  unfold Engine.verifyNext Engine.closeVerify
  rw [if_neg (Nat.not_lt.mpr all), Engine.updateLane_put lane]
  dsimp only
  rw [closed, Engine.putLane_laneRun]
  exact if_pos (by simp [LaneRun.awaits])

end

/-! ## The end of a VERIFY -/

/-- What the end of a VERIFY leaves after its copy has been judged (R93). -/
structure VerifyEnded (h : Handle) (l : Fin 2) (c : Clip) (a b : Engine) : Prop where
  queue : b.queue = []
  lane : b.laneRun l = none
  clip : b.holdsClip h c
  faults : b.faults = a.faults
  events : ∀ ev ∈ a.events, ev ∈ b.events
  jobs : b.jobs = a.jobs
  contexts : b.contexts = a.contexts
  requeues : b.requeues = a.requeues

theorem VerifyRuns.ends (w : VerifyRuns e l run d h c v y) (judged : Books h (e.putClip h c') b) :
    VerifyEnded h l c' b (b.endDescriptor l d) := by
  obtain ⟨queue, lane, -, faults, -, jobs, contexts, requeues, clip, events, -⟩ := CopyEnded.endDescriptor (h := h) (l := l) (d := d) (e := b)
  refine ⟨?_, lane, clip _ (judged.holdsClip Engine.putClip_holdsClip), faults, events, jobs, contexts, requeues⟩
  rw [queue, show b.queue = [d] from judged.queue.trans w.queue]
  simp

/-- A VERIFY that fails leaves its copy WRITTEN, and signals COPY_FAILED (R92). -/
theorem VerifyRuns.fails (w : VerifyRuns e l run d h c v y) : ∃ b,
    Books h (e.putClip h (c.withCopy v (fun y => { y with state := .written }))) b ∧ copyFailedEvent d.card h v ∈ b.events ∧
      e.failVerify g l d = b.endDescriptor l d := by
  have written : Books h _ (e.setCopyState h v .written) := Books.changeCopy w.found v (fun y => { y with state := .written })
  have told : Books h (e.setCopyState h v .written) ((e.setCopyState h v .written).signal (copyFailedEvent d.card h v)) :=
    .signal .copyFailed rfl
  have raised : Books h ((e.setCopyState h v .written).signal (copyFailedEvent d.card h v)) _ :=
    Books.raiseFault (g := g) (f := transferFault .copyFailed h d.card (some v) 4)
  refine ⟨_, (written.trans told).trans raised, raised.mem_events (List.mem_append_right _ (List.mem_singleton_self _)), ?_⟩
  unfold Engine.failVerify
  rw [w.clip, w.targets]

/-- The digest that a VERIFY has read (R84). -/
def LaneRun.digestRead (run : LaneRun) : Word64 := digestOf run.crcHigh run.crcLow

/-- CLIP_VERIFIED (R91). -/
def clipVerifiedEvent (card : Fin 32) (h : Handle) (v : Fin 16) : Event := { Event.ofClip .clipVerified card h with volume := some v }

/-- A compare that succeeds (R91, R186). -/
theorem VerifyRuns.verifies (w : VerifyRuns e l run d h c v y) (same : c.sourceDigest = some run.digestRead) : ∃ b,
    Books h (e.putClip h (c.withCopy v (fun y => { y with state := .verified, verifyDigest := some run.digestRead }))) b ∧
      clipVerifiedEvent d.card h v ∈ b.events ∧
      b.faults = e.faults.map (fun f =>
        if f.kind = .digestMismatch ∧ f.clip = h ∧ f.volume = some v ∧ f.unresolved = true then { f with state := .cleared } else f) ∧
      e.compareVerify g l run d c = b.endDescriptor l d := by
  have changed := Books.changeCopy w.found v (fun y => { y with state := .verified, verifyDigest := some run.digestRead })
  have faults : (e.changeCopy h v (fun y => { y with state := .verified, verifyDigest := some run.digestRead })).faults = e.faults := by
    have moved : e.copiesMove (e.changeCopy h v (fun y => { y with state := .verified, verifyDigest := some run.digestRead })) :=
      (Engine.updateClip_copiesMove _).trans Engine.recomputeCopyState_copiesMove
    rw [moved]
  have compared : e.compareVerify g l run d c = (((e.changeCopy h v (fun y => { y with
      state := .verified
      verifyDigest := some run.digestRead })).signal (clipVerifiedEvent d.card h v)).clearMismatch h v).endDescriptor l d := by
    unfold Engine.compareVerify
    rw [w.targets]
    dsimp only
    rw [if_pos (c := c.sourceDigest = some (digestOf run.crcHigh run.crcLow)) same, w.handle]
    rfl
  generalize e.changeCopy h v _ = z at changed faults compared
  have told : Books h z (z.signal (clipVerifiedEvent d.card h v)) := .signal .clipVerified rfl
  have cleared : Books h (z.signal (clipVerifiedEvent d.card h v)) ((z.signal (clipVerifiedEvent d.card h v)).clearMismatch h v) :=
    .but (new := []) (by simp [Engine.clearMismatch]) (List.forall_mem_nil _)
  refine ⟨_, (changed.trans told).trans cleared, List.mem_append_right _ (List.mem_singleton_self _), ?_, compared⟩
  rw [← faults]
  rfl

/-- A compare that fails (R91). -/
theorem VerifyRuns.differs (w : VerifyRuns e l run d h c v y) (other : c.sourceDigest ≠ some run.digestRead) : ∃ b,
    Books h (e.putClip h (c.withCopy v (fun y => { y with state := .mismatch, verifyDigest := some run.digestRead }))) b ∧
      e.compareVerify g l run d c = b.endDescriptor l d := by
  have changed := Books.changeCopy w.found v (fun y => { y with state := .mismatch, verifyDigest := some run.digestRead })
  refine ⟨_, changed.trans (Books.raiseFault (g := g) (f := transferFault .digestMismatch h d.card (some v) 1)), ?_⟩
  unfold Engine.compareVerify
  rw [w.targets]
  dsimp only
  rw [if_neg (c := c.sourceDigest = some (digestOf run.crcHigh run.crcLow)) other, w.handle]
  rfl

/-! ## The steps -/

/-- A calm part whose one descriptor is a running VERIFY, at an ONLINE port where nothing waits. -/
structure SoleVerify (s : State) (p : Fin 4) (l : Fin 2) (run : LaneRun) (d : Descriptor) (h : Handle) (c : Clip) (v : Fin 16)
    (y : CopyRecord) : Prop where
  calm : s.calm = true
  requeues : s.engine.requeues = []
  runs : VerifyRuns s.blocks l run d h c v y
  online : (s.engine.destPorts[p]).state = .online
  first : (s.engine.destPorts[p]).waiting = []

/-- A step in which the VERIFY goes on to its next operation; its descriptor may have changed. -/
theorem SoleVerify.asks (m : SoleVerify s p l run d h c v y) {run' : LaneRun} {q : List Descriptor} {request next : OpRequest}
    {reply : OpRequest → Option Reply} (flight : (s.engine.destPorts[p]).inflight = some ⟨.lane l, request, false⟩)
    (answer : reply request = some x) (unspent : s.blocks.noteFull p x = s.blocks)
    (replied : (s.blocks.freed p).laneReply s.settings l p x = ({ s.blocks.freed p with queue := q }.asked p l next).putLane l run') :
    ∃ t, Host.Outcome.next (φ := Fault) (ρ := Refusal) (s.run (fun g e => e.operationAnswered g p reply)) = .next t ∧ s.ranInPlace t ∧
      t.engine = { s.blocks with
        destPorts := s.engine.destPorts.set p { s.engine.destPorts[p] with inflight := some ⟨.lane l, next, false⟩, last := .lane l }
        queue := q
        lanes := s.engine.lanes.set l (.running run') } := by
  have port : { s.blocks.freed p with queue := q }.asked p l next = { s.blocks with
      destPorts := s.engine.destPorts.set p { s.engine.destPorts[p] with inflight := some ⟨.lane l, next, false⟩, last := .lane l }
      queue := q } := by
    simp [Engine.freed, Engine.asked]
  rw [port] at replied
  have settled := State.settles_putLane (g := s.settings) m.calm replied rfl rfl rfl
  exact State.lane_answered m.calm flight m.first answer (by rw [unspent]; exact settled) (.inl rfl)

/-- A step in which the VERIFY ends, its copy judged. -/
theorem SoleVerify.ends (m : SoleVerify s p l run d h c v y) {request : OpRequest} {reply : OpRequest → Option Reply}
    (flight : (s.engine.destPorts[p]).inflight = some ⟨.lane l, request, false⟩) (answer : reply request = some x)
    (unspent : s.blocks.noteFull p x = s.blocks) (judged : Books h ((s.blocks.freed p).putClip h c') b)
    (replied : (s.blocks.freed p).laneReply s.settings l p x = b.endDescriptor l d) :
    ∃ t, Host.Outcome.next (φ := Fault) (ρ := Refusal) (s.run (fun g e => e.operationAnswered g p reply)) = .next t ∧ s.ranInPlace t ∧
      VerifyEnded h l c' b t.engine := by
  have ended := (m.runs.freed (p := p)).ends judged
  obtain ⟨-, -, -, renders⟩ := State.calm_parts m.calm
  have settled : ((s.blocks.freed p).laneReply s.settings l p x).settleTransfer s.settings = b.endDescriptor l d := by
    rw [replied]
    exact Engine.settleTransfer_like_done renders ended.queue (ended.jobs.trans judged.jobs) (ended.contexts.trans judged.contexts)
  obtain ⟨t, step, ran, he⟩ := State.lane_answered m.calm flight m.first answer (by rw [unspent]; exact settled)
    (.inr (ended.requeues.trans (judged.requeues.trans m.requeues)))
  exact ⟨t, step, ran, he ▸ ended⟩

/-- A copy judged, as the VERIFY's end leaves it. -/
theorem VerifyEnded.copyOn {f : CopyRecord → CopyRecord} (k : VerifyEnded h l (c.withCopy v f) a b) (hf : ∀ r, (f r).volume = r.volume)
    (hy : c.copyOn v = some y) : (b.clipAt h).bind (·.copyOn v) = some (f y) :=
  (k.clip.copyOn v).trans (Clip.withCopy_copyOn hf hy)

/-- A step in which the VERIFY is refused: its copy is WRITTEN again, and COPY_FAILED is signaled (R92). -/
theorem SoleVerify.refused (m : SoleVerify s p l run d h c v y) {request : OpRequest} {reply : OpRequest → Option Reply}
    (flight : (s.engine.destPorts[p]).inflight = some ⟨.lane l, request, false⟩) (answer : reply request = some x)
    (unspent : s.blocks.noteFull p x = s.blocks) (refused : VerifyRefused run c x) :
    ∃ t, Host.Outcome.next (φ := Fault) (ρ := Refusal) (s.run (fun g e => e.operationAnswered g p reply)) = .next t ∧ s.ranInPlace t ∧
      t.engine.queue = [] ∧ t.engine.laneRun l = none ∧ (t.engine.clipAt h).bind (·.copyOn v) = some { y with state := .written } ∧
      ∃ ev ∈ t.engine.events, ev.kind = .copyFailed ∧ ev.clip = some h ∧ ev.volume = some v := by
  have w := m.runs.freed (p := p)
  obtain ⟨b, judged, told, failed⟩ := w.fails (g := s.settings)
  obtain ⟨t, step, ran, ended⟩ := m.ends flight answer unspent judged (by rw [w.reply, Engine.verifyReply_refused refused, failed])
  exact ⟨t, step, ran, ended.queue, ended.lane, ended.copyOn (fun _ => rfl) m.runs.copy, _, ended.events _ told, rfl, rfl, rfl⟩

/-- The VERIFY with its port free for the next operation. -/
structure VerifyReady (e : Engine) (p : Fin 4) (l : Fin 2) (run : LaneRun) (d : Descriptor) (h : Handle) (c : Clip) (v : Fin 16)
    (y : CopyRecord) : Prop where
  runs : VerifyRuns e l run d h c v y
  online : (e.destPorts[p]).state = .online
  free : (e.destPorts[p]).inflight = none
  first : (e.destPorts[p]).waiting = []

theorem SoleVerify.ready (m : SoleVerify s p l run d h c v y) : VerifyReady (s.blocks.freed p) p l run d h c v y := by
  have port : (s.blocks.freed p).destPorts[p] = { s.blocks.destPorts[p] with inflight := none } := Engine.freed_port
  exact ⟨m.runs.freed, by rw [port]; exact m.online, by rw [port], by rw [port]; exact m.first⟩

/-- The object open at the clip's length, its first block is asked for (R91). -/
theorem VerifyReady.opened (w : VerifyReady e p l run d h c v y) (phase : run.phase = .opening) (source : run.source = some ⟨v, p, st⟩)
    (more : d.progress < c.byteLength) : e.laneReply g l p (.opened k c.byteLength) =
      (e.asked p l (.read k d.progress (min 1048576 (c.byteLength - d.progress)))).putLane l
        { run with phase := .reading, source := some ⟨v, p, .isOpen k⟩ } := by
  rw [w.runs.reply, Engine.verifyReply_opened w.runs.lane phase source,
    Engine.verifyNext_reads (e := e.putLane l _) (p := p) Engine.putLane_laneRun rfl w.online w.free w.first more, Engine.putLane_asked,
    Engine.putLane_putLane]

/-- The descriptor with the progress risen by a block read. -/
def Descriptor.readOn (d : Descriptor) (n : Nat) : Descriptor := { d with progress := d.progress + n }

/-- A block read: the descriptor's progress rises, and the lane holds the block (R84, R91). -/
theorem VerifyReady.data (w : VerifyReady e p l run d h c v y) (phase : run.phase = .reading) (bytes : List Byte) :
    e.laneReply g l p (.data bytes) =
      (({ e with queue := [d.readOn bytes.length] } : Engine).putLane l (run.digestBlock bytes)).verifyNext g l (run.digestBlock bytes)
        (d.readOn bytes.length) c := by
  have queue : (e.putLane l (run.digestBlock bytes)).updateDescriptor d.slot (fun _ => d.readOn bytes.length) =
      ({ e with queue := [d.readOn bytes.length] } : Engine).putLane l (run.digestBlock bytes) := by
    simp [Engine.updateDescriptor, Engine.putLane, w.runs.queue]
  rw [w.runs.reply, Engine.verifyReply_data w.runs.lane phase]
  exact congrArg (fun z : Engine => z.verifyNext g l (run.digestBlock bytes) (d.readOn bytes.length) c) queue

section
variable (w : VerifyReady e p l run d h c v y) (phase : run.phase = .reading) (source : run.source = some ⟨v, p, .isOpen k⟩) (bytes : List Byte)
include w phase source

/-- With more to read, the next block is asked for (R91). -/
theorem VerifyReady.reads (more : d.progress + bytes.length < c.byteLength) : e.laneReply g l p (.data bytes) =
    (({ e with queue := [d.readOn bytes.length] } : Engine).asked p l
      (.read k (d.progress + bytes.length) (min 1048576 (c.byteLength - (d.progress + bytes.length))))).putLane l (run.digestBlock bytes) := by
  have still : { run.digestBlock bytes with phase := .reading } = run.digestBlock bytes := by
    rw [← phase]
    rfl
  have next := Engine.verifyNext_reads (e := ({ e with queue := [d.readOn bytes.length] } : Engine).putLane l (run.digestBlock bytes)) (g := g)
    (d := d.readOn bytes.length) (run := run.digestBlock bytes) Engine.putLane_laneRun source w.online w.free w.first more
  rw [Engine.putLane_asked, Engine.putLane_putLane, still] at next
  exact (w.data phase bytes).trans next

/-- With the whole object read, CLOSE follows (R91). -/
theorem VerifyReady.closes (all : c.byteLength ≤ d.progress + bytes.length) : e.laneReply g l p (.data bytes) =
    (({ e with queue := [d.readOn bytes.length] } : Engine).asked p l (.close k)).putLane l
      { run.digestBlock bytes with block := [], phase := .closing, source := some ⟨v, p, .closing⟩ } := by
  have next := Engine.verifyNext_closes (e := ({ e with queue := [d.readOn bytes.length] } : Engine).putLane l (run.digestBlock bytes)) (g := g)
    (d := d.readOn bytes.length) (run := run.digestBlock bytes) Engine.putLane_laneRun source w.online w.free w.first all
  rw [Engine.putLane_asked, Engine.putLane_putLane] at next
  exact (w.data phase bytes).trans next

end

end

/-- Settles O54: the answers by the lane's phase; a VERIFY that ends, compared or refused, leaves its copy as judged. -/
theorem verifyReadsAndCompares : Obligations.VerifyReadsAndCompares := by
  unfold Obligations.VerifyReadsAndCompares
  intro p l run d h c y v x op s calm requeues lane queue slot kind clip found handle targets _ copy _ source online first flight q asked failed
  have m : SoleVerify s p l run d h c v y :=
    ⟨calm, requeues, ⟨lane, queue, slot, kind, clip, found, handle, targets, copy⟩, online, first⟩
  refine ⟨fun name phase request => ⟨fun k long fresh => ?_, fun a refused => ?_⟩,
    fun k n phase stands request => ⟨fun bytes length => ?_, ?_⟩, fun k a phase stands request => ?_⟩ <;> subst request
  · have replied := m.ready.opened (g := s.settings) (k := k) phase source (by rw [fresh]; exact long)
    rw [fresh] at replied
    exact m.asks (reply := openReadReply (.handle k c.byteLength)) (q := s.engine.queue) flight rfl rfl replied
  · obtain rfl | rfl | ⟨k, n, rfl, other⟩ := refused
    · exact m.refused (reply := openReadReply .notFound) flight rfl rfl (.notOpened phase)
    · exact m.refused (reply := openReadReply .error) flight rfl rfl (.notOpened phase)
    · exact m.refused (reply := openReadReply (.handle k n)) flight rfl rfl (.otherLength phase k n other)
  · subst stands length
    have answer : readReply (.data bytes) (.read k d.progress bytes.length) = some (.data bytes) := congrArg some (if_pos rfl)
    by_cases more : d.progress + bytes.length < c.byteLength
    · obtain ⟨t, step, ran, he⟩ := m.asks flight answer rfl (m.ready.reads (g := s.settings) phase source bytes more)
      refine ⟨t, step, ran, ?_⟩
      rw [he]
      exact ⟨rfl, rfl, fun _ => ⟨rfl, Engine.putLane_laneRun⟩, fun all => absurd more (Nat.not_lt.mpr all)⟩
    · obtain ⟨t, step, ran, he⟩ := m.asks flight answer rfl
        (m.ready.closes (g := s.settings) phase source bytes (Nat.not_lt.mp more))
      refine ⟨t, step, ran, ?_⟩
      rw [he]
      exact ⟨rfl, rfl, fun less => absurd less more, fun _ => ⟨rfl, Engine.putLane_laneRun⟩⟩
  · exact m.refused (reply := readReply .error) flight rfl rfl (.notRead phase)
  · have w := m.ready.runs
    obtain ⟨x, answer, unspent⟩ : ∃ x, closeReply a (.close k) = some x ∧ s.blocks.noteFull p x = s.blocks := by
      cases a <;> exact ⟨_, rfl, rfl⟩
    have replied : (s.blocks.freed p).laneReply s.settings l p x = (s.blocks.freed p).compareVerify s.settings l run d c := by
      rw [w.reply, Engine.verifyReply_closed phase]
    by_cases same : c.sourceDigest = some run.digestRead
    · obtain ⟨b, judged, told, faults, compared⟩ := w.verifies (g := s.settings) same
      obtain ⟨t, step, ran, ended⟩ := m.ends flight answer unspent judged (replied.trans compared)
      exact ⟨t, step, ran, ended.queue, ended.lane,
        fun _ => ⟨ended.copyOn (fun _ => rfl) copy, ended.events _ told, ended.faults.trans faults⟩, fun other => absurd same other⟩
    · obtain ⟨b, judged, compared⟩ := w.differs (g := s.settings) same
      obtain ⟨t, step, ran, ended⟩ := m.ends flight answer unspent judged (replied.trans compared)
      exact ⟨t, step, ran, ended.queue, ended.lane, fun equal => absurd equal same, fun _ => ended.copyOn (fun _ => rfl) copy⟩

end Sys2Proof.Machine
end
